-- ==== Sys2Proof/Word.lean ====
section
/-! DEFINITION. Words of the machine, and the two sparse tables that hold memory and sparse register files.
Everything is little-endian (R4). -/

namespace Sys2Proof

/-- One byte. -/
abbrev Byte := BitVec 8
/-- A scalar register, an address, a control register (R89). -/
abbrev W64 := BitVec 64
/-- One thread's word of a vector register (R93). -/
abbrev W32 := BitVec 32
/-- A whole vector register or one entry of a data queue: 64 threads of 4 bytes (R93, R100). -/
abbrev VReg := BitVec 2048
/-- A scalar register number. -/
abbrev SReg := BitVec 6

/-- A table of words by address in canonical form: addresses strictly rising, no zero word listed. An unlisted
address reads as zero. -/
abbrev Sparse (w : Nat) := List (Nat × BitVec w)

/-- The word at an address; zero where none is listed. -/
def Sparse.get {w : Nat} : Sparse w → Nat → BitVec w
  | [], _ => 0
  | (k, v) :: t, a => if a = k then v else if a < k then 0 else Sparse.get t a

/-- Writes one word; writing zero removes the entry, so the form stays canonical. -/
def Sparse.set {w : Nat} : Sparse w → Nat → BitVec w → Sparse w
  | [], a, x => if x = 0 then [] else [(a, x)]
  | (k, v) :: t, a, x =>
    if a < k then (if x = 0 then (k, v) :: t else (a, x) :: (k, v) :: t)
    else if a = k then
      (if x = 0 then t.dropWhile (fun p => decide (p.1 ≤ a)) else (a, x) :: t)
    else (k, v) :: Sparse.set t a x

/-- Every listed address lies above `lo`, the addresses rise strictly, and no listed word is zero. -/
def Sparse.wfFrom {w : Nat} : Nat → Sparse w → Bool
  | _, [] => true
  | lo, (k, v) :: t => decide (lo ≤ k) && decide (v ≠ 0) && Sparse.wfFrom (k + 1) t

/-- The canonical form. -/
def Sparse.wf {w : Nat} (m : Sparse w) : Bool := Sparse.wfFrom 0 m

/-- Clears every address from `a` up to but not including `a + n`. -/
def Sparse.clear {w : Nat} : Sparse w → Nat → Nat → Sparse w
  | [], _, _ => []
  | (k, v) :: t, a, n => if k < a then (k, v) :: Sparse.clear t a n else ((k, v) :: t).dropWhile (fun p => decide (p.1 < a + n))

/-- A table of records by number; a number not listed holds the default the reader gives. -/
abbrev Tab (α : Type) := List (Nat × α)

/-- The record at a number, or the default. -/
def Tab.get {α : Type} (d : α) : Tab α → Nat → α
  | [], _ => d
  | (k, v) :: t, a => if a = k then v else if a < k then d else Tab.get d t a

/-- Writes one record. -/
def Tab.set {α : Type} : Tab α → Nat → α → Tab α
  | [], a, x => [(a, x)]
  | (k, v) :: t, a, x =>
    if a < k then (a, x) :: (k, v) :: t
    else if a = k then (a, x) :: t
    else (k, v) :: Tab.set t a x

/-- The record at a number, if one is listed. -/
def Tab.find {α : Type} : Tab α → Nat → Option α
  | [], _ => none
  | (k, v) :: t, a => if a = k then some v else Tab.find t a

/-- Takes the record of a number away. -/
def Tab.erase {α : Type} : Tab α → Nat → Tab α
  | [], _ => []
  | (k, v) :: t, a => if a < k then (k, v) :: t else if a = k then t.dropWhile (fun p => decide (p.1 ≤ a)) else (k, v) :: Tab.erase t a

end Sys2Proof
end

