-- ==== Sys2Proof/Config.lean ====
section
/-! DEFINITION. What the spec leaves open and what one implementation fixes. Every `opaque` constant is a free value:
nothing can be proved about it, so a claim holds whatever it is (logs 5, 6, 7, 10, 78, 79). -/

namespace Sys2Proof.Config

/-- DESIGN CHOICE (log 6). A free 64-bit value, taken in order by the counter `State.fresh`. -/
opaque freeWord : Nat → BitVec 64

/-- DESIGN CHOICE (log 5). A free count of cycles that pass unseen between two readings of a core's cycle counter (R314, R11). -/
opaque freeCycles : Nat → Nat

/-- DESIGN CHOICE (log 7). Whether a peer package admits one access of this package (R15, R364: the peer's own table decides). -/
opaque peerAdmits : Nat → Bool

/-- DESIGN CHOICE (log 7). One byte that a peer package returns to a read (R14, R50). -/
opaque peerByte : Nat → BitVec 8

/-- DESIGN CHOICE (log 78). The fabric port, of the 24, that the accesses to and from another node use (R381, R391). -/
opaque portOf : Nat → Nat

/-- What of a kernel does not depend on the 64 KiB-aligned base that its image is mapped at (R182, R183): its descriptor, with `entry` as
its offset in 64 KiB and `lbase` as its distance from `entry`; and the bytes from `entry` to `lbase`, and of the lane words, that no
relocation to another base can change. -/
structure KernelForm where
  desc   : BitVec 2048
  scalar : List (BitVec 8)
  lane   : List (BitVec 8)
deriving DecidableEq, Repr

/-- DESIGN CHOICE (log 10). The 64 KiB of an image, counted from its base, in which a kernel's entry lies (R182, R183); the device is not
told how it knows. -/
opaque entryPage : KernelForm → BitVec 48

/-- DESIGN CHOICE (log 10). How many scalar words a kernel has, which the descriptor does not say (R179, R183). -/
opaque scalarWords : KernelForm → Nat

/-- DESIGN CHOICE (log 10). The relocated fields of a kernel's words, of 32 bits each (R176, R181): lane or scalar, and the first byte. -/
opaque relocated : KernelForm → List (Bool × Nat)

/-- DESIGN CHOICE (log 10). A byte of a kernel's lane or scalar words that the front end cannot read at acceptance (R183); the descriptor is
the form's. -/
opaque unreadCode : BitVec 2048 → Bool → Nat → BitVec 8

/-- DESIGN CHOICE (log 79). The device secret that the root derives from the unclonable function (R384). -/
opaque deviceSecret : List (BitVec 8)

/-- DESIGN CHOICE (log 79). The Ed448 public key of a private key (R385). -/
opaque publicKey : BitVec 512 → BitVec 456

/-- DESIGN CHOICE (log 79). The private attestation key that the root derives from the device secret together with a firmware hash
(R385). -/
opaque attestKey : BitVec 512 → BitVec 512

/-- DESIGN CHOICE (log 79). A firmware image in the flash, whose layout the spec does not give: its version, the bytes that its
signature signs, and the signature (R384). The argument is the flash as its listed bytes. -/
opaque flashFirmware : List (Nat × BitVec 8) → Option (BitVec 32 × List (BitVec 8) × BitVec 912)

/-- DESIGN CHOICE (log 79). The configuration records in the flash: kind, sequence number, signed bytes, signature (R384). -/
opaque flashRecords : List (Nat × BitVec 8) → List (Nat × BitVec 16 × List (BitVec 8) × BitVec 912)

/-- DESIGN CHOICE (log 79). What the signed bytes of a configuration record name: the lowest firmware version, the security
state, and whether they hold a spare map (R384). -/
opaque recordNames : List (BitVec 8) → BitVec 32 × BitVec 2 × Bool

/-- DESIGN CHOICE (log 79). Whether a signature over a SHAKE256 hash verifies against the vendor's key (R384). -/
opaque vendorSigned : BitVec 512 → BitVec 912 → Bool

/-- DESIGN CHOICE (log 10). The Ed448 signature of a message under the attestation key (R384, R387). The argument is the
message as a list of bytes. -/
opaque sign : List (BitVec 8) → BitVec 912

/-- DESIGN CHOICE (log 79). The defaults that the signed bytes of a configuration record hold (R384), whose list the spec does not give: a
register's address and its value each. -/
opaque recordDefaults : List (BitVec 8) → List (BitVec 64 × BitVec 64)

/-- DESIGN CHOICE (log 79). The tenant key that the signed bytes of a configuration record name, if they name one (R390). -/
opaque tenantKey : List (BitVec 8) → Option (BitVec 456)

/-- DESIGN CHOICE (log 10). Whether a debug token's signature is valid (R390): by a tenant key, or by the vendor's where none is given; the
number is the token's body. -/
opaque tokenValid : Option (BitVec 456) → Nat → Bool

/-- R12, R18: the first region 0 offset of the device reserve of a standard G9. -/
def hbmLimit : BitVec 64 := 0x25_0000_0000#64

end Sys2Proof.Config
end

