-- ==== Sys2Proof/Syntax.lean ====
section
/-! DEFINITION. The instructions and events of the opcode table, one constructor a row. Register numbers and immediates
stay bits; every enumerated code of an encoding is a constructor. -/

namespace Sys2Proof

/-- Scopes (R41). -/
inductive Scope where | grp | blk | die | pkg | sys
deriving DecidableEq, Repr

/-- The order of an access together with its scope, as the os field encodes the two (R39, R154). -/
inductive Order where | rlx | acq (s : Scope) | rel (s : Scope) | ar (s : Scope)
deriving DecidableEq, Repr

/-- Access sizes (R155). -/
inductive Size where | b8 | b16 | b32 | b64 | b128
deriving DecidableEq, Repr

/-- Types of an atomic (R155). -/
inductive AtomTy where | i32 | n32 | i64 | n64 | f32
deriving DecidableEq, Repr

/-- Operations of an atomic (R61). -/
inductive AtomOp where | add | sadd | min | max | and | or | xor | exch | cas | fadd | fxadd | oadd | oclose
deriving DecidableEq, Repr

/-- Rounding modes (R119). -/
inductive Rnd where | rn | rz | rd | ru | rs
deriving DecidableEq, Repr

/-- Lane types: the formats of R111 and the further types of R161. -/
inductive LTy where | f32 | f16 | bf16 | e5m2 | e4m3 | e2m1 | i32 | i8 | i4 | i16 | i64 | n8 | n16 | n32 | n64
deriving DecidableEq, Repr

/-- Integer conditions (R191). -/
inductive Cond where | eq | ne | lt | ge | ltu | geu | le | gt
deriving DecidableEq, Repr

/-- Floating-point conditions (R234). -/
inductive FCond where | eq | ne | lt | ge | un | num | le | gt
deriving DecidableEq, Repr

/-- Destination kinds of a copy (R77, R215). -/
inductive DstKind where | mem | slot | buf
deriving DecidableEq, Repr

/-- Modes of a barrier instruction (R221). -/
inductive BarMode where | sync | arv | wait
deriving DecidableEq, Repr

/-- Items of `schrd` (R314). -/
inductive SchedItem where | core | blk | prio | part | slot | occ | cyc | tok
deriving DecidableEq, Repr

/-- Lane operands (R159): a register of a view, or a special operand. -/
inductive Opnd where
  | vec (i : BitVec 10)
  | tile (i : BitVec 4)
  | acc (i : BitVec 4)
  | q (i : BitVec 3)
  | y (i : BitVec 2)
  | zero | vlane | lane | gidx
  | qp (i : BitVec 3) (p : BitVec 3)
  | yp (i : BitVec 2) (p : BitVec 3)
  | const (k : BitVec 8)
deriving DecidableEq, Repr

/-- What every lane word carries: guard, uniform bit, reuse hints (R158). -/
structure LHdr where
  gneg  : Bool
  gpred : BitVec 3
  uni   : Bool
  reuse : BitVec 3
deriving DecidableEq, Repr

/-- What a lane memory operand carries (R161, LM format): window, size, order, shelf instead of window. -/
structure LMem where
  win : BitVec 3
  os  : Order
  shf : Bool
  off : BitVec 16
deriving DecidableEq, Repr

/-- Modes of `shfl` (R262). -/
inductive ShflMode where | idx | up | down | xor
deriving DecidableEq, Repr
/-- Kinds of `vote` (R263). -/
inductive VoteKind where | all | any | ballot | count
deriving DecidableEq, Repr
/-- Modes of `perm` (R260). -/
inductive PermMode where | lo | hi | x
deriving DecidableEq, Repr
/-- Modes of `mov` (R258). -/
inductive MovMode where | dir | rdx | wrx
deriving DecidableEq, Repr
/-- What `hcmp` writes to its predicate (R237). -/
inductive HSel where | lo | all | any
deriving DecidableEq, Repr
/-- Destinations of `mdrain` other than `.raw` (R285). -/
inductive DrainKind where | acc | cvt | port
deriving DecidableEq, Repr
/-- Modes of `smov` (R290). -/
inductive SmovMode where | cp | sp | vec
deriving DecidableEq, Repr

/-- What a SCRUB_COMPLETE event finished (R34, R36): the page of the leaf entry at `addr`, found at table level
`lvl`, or the ring place `k` of a die's first-touch ring. -/
inductive ScrubJob where
  | leaf (addr : W64) (lvl : BitVec 2)
  | ring (die : BitVec 3) (k : BitVec 16)
deriving DecidableEq, Repr

/-- What a peer's fabric access asks for (R364). -/
inductive FabricReq where
  | read (addr : W64) (n : Size)
  | write (addr : W64) (n : Size) (data : BitVec 128)
  | atom (addr : W64) (op : AtomOp) (ty : AtomTy) (b c : W64)
deriving DecidableEq, Repr

/-- What a sensor reports (R382, R299). -/
inductive Sensor where
  | power (watts : BitVec 16)
  | temp (core : BitVec 10) (v : BitVec 16)
  | droop (core : BitVec 10) (v : BitVec 16)
deriving DecidableEq, Repr

/-- One group's place: core 0-1,023 (die and die-local core) in bits 15:6, group slot in bits 5:0. -/
abbrev Gid := BitVec 16

/-- The word that an error has struck (R335): one of HBM or of a shelf frame at a physical address, a 4-byte word of a group's
register space, or a scale register. -/
inductive ErrWord where
  | mem (addr : W64)
  | reg (g : Gid) (word : BitVec 16)
  | scale (g : Gid) (e : BitVec 5)
deriving DecidableEq, Repr

/-- The link of an access from outside the package (R381): host link 0 or 1, or the management link. -/
inductive OuterLink where
  | host (one : Bool)
  | management
deriving DecidableEq, Repr

/-- How a boot finds memory: as it was, or, after a loss of power, as at reset (log 11). -/
inductive BootKind where
  | warm
  | cold
deriving DecidableEq, Repr

/-- The rows of spec/opcode_table.json, in the table's order but for `registerWrite`, which stands first among the events. -/
inductive Instr where
  -- scalar integer (R187, R188)
  | add (d a b : SReg) | sub (d a b : SReg) | mul (d a b : SReg)
  | mulh (d a b : SReg) (n : Bool) | div (d a b : SReg) (n : Bool) | rem (d a b : SReg) (n : Bool)
  | and (d a b : SReg) | or (d a b : SReg) | xor (d a b : SReg)
  | shl (d a b : SReg) | shr (d a b : SReg) | sra (d a b : SReg)
  | min (d a b : SReg) (n : Bool) | max (d a b : SReg) (n : Bool)
  | sel (d a b : SReg) (neg : Bool) (p : BitVec 3)
  -- scalar immediates (R189, R190)
  | addi (d a : SReg) (i : BitVec 12) | muli (d a : SReg) (i : BitVec 12) | andi (d a : SReg) (i : BitVec 12)
  | ori (d a : SReg) (i : BitVec 12) | xori (d a : SReg) (i : BitVec 12)
  | shli (d a : SReg) (k : BitVec 6) | shri (d a : SReg) (k : BitVec 6) | srai (d a : SReg) (k : BitVec 6)
  | mini (d a : SReg) (i : BitVec 12) | maxi (d a : SReg) (i : BitVec 12)
  | limSet (d : SReg) (i : BitVec 12) | limCat (d : SReg) (i : BitVec 12)
  -- compares, predicates, bit fields, control registers (R191 to R196)
  | cmp (p : BitVec 3) (a b : SReg) (c : Cond) | cmpi (c : Cond) (p : BitVec 3) (a : SReg) (i : BitVec 12)
  | plog (d a b : BitVec 3) (t : BitVec 4)
  | ext (d a b : SReg) (sgn : Bool) | ins (d a b : SReg)
  | clz (d a : SReg) | popc (d a : SReg) | brev (d a : SReg)
  | mtc (a : SReg) (f : BitVec 6) | mfc (d : SReg) (f : BitVec 6)
  | pget (d : SReg) | pset (a : SReg)
  -- scalar control flow (R197 to R202, R328)
  | br (neg : Bool) (p : BitVec 3) (off : BitVec 20) | jmp (off : BitVec 20) | call (off : BitVec 20)
  | jmpr (a : SReg) | callr (d a : SReg) | lrun (off : BitVec 20) | lrunr (a : SReg)
  | exit | yieldQ (d a b : SReg) | yieldCtr (d a b : SReg)
  | trap (i : BitVec 12) | hretResume (a : SReg) | hretVacate (a : SReg) | hretEnd (a : SReg) | nop
  -- scalar memory, fences, queues, shelf (R203 to R211)
  | ld (d o : SReg) (w : BitVec 3) (z : Size) (r : Order) | st (d o : SReg) (w : BitVec 3) (z : Size) (r : Order)
  | atom (d o : SReg) (op : AtomOp) (ty : AtomTy) (r : Order)
  | fenceMem (r : Order) | fencePt
  | invpg (d a b : SReg) (sc : Scope) | wset (w : BitVec 3) (a : SReg)
  | qld (p q : BitVec 3) (o : SReg) (w : BitVec 3) (z : Size) (r : Order) (nb : Bool)
  | qpush (p q : BitVec 3) (o : SReg) (z : Size) (nb : Bool)
  | ypop (p : BitVec 3) (q : BitVec 2) (o : SReg) (nb : Bool)
  | shld (d o : SReg) (z : Size) (r : Order) | shst (d o : SReg) (z : Size) (r : Order)
  -- engine commands (R215 to R220), publishes, slots (R212 to R214)
  | cpy (d a : SReg) (q : BitVec 7) (cont trig : Bool) (k : DstKind)
  | tcpy (d a : SReg) (q : BitVec 7) (cont trig : Bool) (k : DstKind)
  | gath (d a : SReg) (q : BitVec 7) (cont trig : Bool) (k : DstKind)
  | mcast (d a : SReg) (q : BitVec 7) (cont trig : Bool) | cmd (d a : SReg) (q : BitVec 7) (cont : Bool)
  | chain (a b : SReg) | publSlot (d a : SReg) | publBuf (d a : SReg)
  | seqRd (d a : SReg) (q : Bool) | seqAdd (d a b : SReg)
  | seqSet (p : BitVec 3) (a b : SReg) (q : Bool) | seqSetForce (p : BitVec 3) (a b : SReg) (q : Bool)
  | lkup (d a : SReg) | slotInst (a b : SReg) | slotEvict (d a : SReg) | slotRd (d a : SReg)
  -- barriers, monitors, scheduling (R221 to R226, R313, R314)
  | bar (a : SReg) (m : BarMode) (i : BitVec 4) | rbar (a : SReg) (m : BarMode) (i : BitVec 2)
  | dbar (m : BarMode) (i : BitVec 2) | pbar (m : BarMode) (i : BitVec 2)
  | watch (d o : SReg) (w : BitVec 3) (z : Size) (r : Order) | park (d a : SReg)
  | prio (d : SReg) (blk : Bool) (k : BitVec 2) | schrd (d : SReg) (f : SchedItem)
  -- gangs, launches, collectives (R341 to R350, R362, R373, R374)
  | gangPin (d a : SReg) | gangUnpin (d a b : SReg) | gangHome (d a b : SReg) | gangReq (d a b : SReg)
  | gangRes (d a : SReg) | gangCxl (d a : SReg) | gangRd (d a b : SReg)
  | kvcCmt (d a b : SReg) | kvcRsv (d a b : SReg) | kvcPurge (d a b : SReg) | kvcEnd (d a b : SReg)
  | vgen (d a b : SReg) | launch (d a : SReg)
  | collRun (d a : SReg) (cont : Bool) | collPut (d a : SReg) (cont : Bool)
  | samp (d a : SReg) (cont grd tok : Bool)
  -- lane control and cross-lane (R256 to R273)
  | lnop (h : LHdr) | lend (h : LHdr) | lbr (h : LHdr) (imm : W32) | lbrC (h : LHdr) (imm : W32)
  | lbrJ (h : LHdr) (imm : W32) | lsync (h : LHdr) | lsyncC (h : LHdr) | lexit (h : LHdr)
  | lfence (h : LHdr) (r : Order)
  | vote (h : LHdr) (d : Opnd) (k : VoteKind) (neg : Bool) (p : BitVec 3) (pd : BitVec 3)
  | shfl (h : LHdr) (d a b : Opnd) (w64 : Bool) (m : ShflMode) (pw : Bool) (pd : BitVec 3)
  | perm (h : LHdr) (d a b : Opnd) (m : PermMode)
  | mov (h : LHdr) (d a b : Opnd) (w64 : Bool) (m : MovMode)
  | movi (h : LHdr) (d : Opnd) (imm : W32) (ty : LTy)
  | lanePlog (h : LHdr) (pd pa pb : BitVec 3) (t : BitVec 4)
  -- lane FP32 (R232 to R235)
  | fadd (h : LHdr) (d a b : Opnd) (r : Rnd) (sat : Bool) | fsub (h : LHdr) (d a b : Opnd) (r : Rnd) (sat : Bool)
  | fmul (h : LHdr) (d a b : Opnd) (r : Rnd) (sat : Bool) | ffma (h : LHdr) (d a b c : Opnd) (r : Rnd) (sat : Bool)
  | fmin (h : LHdr) (d a b : Opnd) | fmax (h : LHdr) (d a b : Opnd)
  | fabs (h : LHdr) (d a : Opnd) | fneg (h : LHdr) (d a : Opnd)
  | fcmp (h : LHdr) (d a b : Opnd) (c : FCond) (pd : BitVec 3)
  | fsel (h : LHdr) (d a b : Opnd) (neg : Bool) (p : BitVec 3)
  -- packed 16-bit (R236, R237); `bf` selects BF16
  | hadd (h : LHdr) (d a b : Opnd) (r : Rnd) (sat bf : Bool) | hsub (h : LHdr) (d a b : Opnd) (r : Rnd) (sat bf : Bool)
  | hmul (h : LHdr) (d a b : Opnd) (r : Rnd) (sat bf : Bool) | hfma (h : LHdr) (d a b c : Opnd) (r : Rnd) (sat bf : Bool)
  | hmin (h : LHdr) (d a b : Opnd) (bf : Bool) | hmax (h : LHdr) (d a b : Opnd) (bf : Bool)
  | hcmp (h : LHdr) (d a b : Opnd) (c : FCond) (sl : HSel) (pw : Bool) (pd : BitVec 3) (bf : Bool)
  -- lane integers (R235, R238 to R241)
  | iadd (h : LHdr) (d a b : Opnd) (ty : LTy) (sat : Bool) | isub (h : LHdr) (d a b : Opnd) (ty : LTy) (sat : Bool)
  | imul (h : LHdr) (d a b : Opnd) (ty : LTy) | imulh (h : LHdr) (d a b : Opnd) (ty : LTy)
  | imad (h : LHdr) (d a b c : Opnd) (ty : LTy)
  | iand (h : LHdr) (d a b : Opnd) (w64 : Bool) | ior (h : LHdr) (d a b : Opnd) (w64 : Bool)
  | ixor (h : LHdr) (d a b : Opnd) (w64 : Bool) | ishl (h : LHdr) (d a b : Opnd) (w64 : Bool)
  | ishr (h : LHdr) (d a b : Opnd) (w64 : Bool) | isra (h : LHdr) (d a b : Opnd) (w64 : Bool)
  | imin (h : LHdr) (d a b : Opnd) (ty : LTy) | imax (h : LHdr) (d a b : Opnd) (ty : LTy)
  | icmp (h : LHdr) (d a b : Opnd) (ty : LTy) (c : Cond) (pd : BitVec 3)
  | isel (h : LHdr) (d a b : Opnd) (w64 neg : Bool) (p : BitVec 3)
  | lanePopc (h : LHdr) (d a : Opnd) (w64 : Bool) | laneClz (h : LHdr) (d a : Opnd) (w64 : Bool)
  | bfe (h : LHdr) (d a b : Opnd) (ty : LTy) | bfi (h : LHdr) (d a b c : Opnd) (w64 : Bool)
  -- conversions and special functions (R242 to R247)
  | cvt (h : LHdr) (d a b : Opnd) (r : Rnd) (sat : Bool) (ty ty2 : LTy) (sl dl : BitVec 3)
  | cvts (h : LHdr) (d a b c : Opnd) (r : Rnd) (sat : Bool) (ty ty2 : LTy) (e : BitVec 5) (k : BitVec 3)
  | pack (h : LHdr) (d a b : Opnd) (ty : LTy) (k : BitVec 3) | unpack (h : LHdr) (d a : Opnd) (ty : LTy) (k : BitVec 3)
  | fxcvt (h : LHdr) (d a : Opnd) (r : Rnd)
  | rcp (h : LHdr) (d a : Opnd) (r : Rnd) | rsq (h : LHdr) (d a : Opnd) (r : Rnd) | sqrt (h : LHdr) (d a : Opnd) (r : Rnd)
  | exp2 (h : LHdr) (d a : Opnd) (r : Rnd) | log2 (h : LHdr) (d a : Opnd) (r : Rnd)
  -- lane memory (R252 to R255)
  | lld (h : LHdr) (d a : Opnd) (z : Size) (m : LMem) | lst (h : LHdr) (a b : Opnd) (z : Size) (m : LMem)
  | laneAtom (h : LHdr) (d a b c : Opnd) (ty : AtomTy) (op : AtomOp) (m : LMem)
  -- matrix, tile and scale (R280 to R292)
  | tld (h : LHdr) (t : BitVec 4) (a c : Opnd) (win swin : BitVec 3) (shf sc : Bool) (e : BitVec 5) (os : Order)
  | tst (h : LHdr) (t : BitVec 4) (a c : Opnd) (win swin : BitVec 3) (shf sc : Bool) (os : Order)
  | mload (h : LHdr) (t m : BitVec 4) (c : Opnd) (shf : Bool) (sp : BitVec 2)
  | mloop (h : LHdr) (acc a : BitVec 4) (rl : Bool) (w : BitVec 4) (c : Opnd) (dstep sa sw : Bool) (sp : BitVec 2)
      (mt : BitVec 4) (steps : BitVec 12) (r : Rnd)
  | mdrain (h : LHdr) (k : DrainKind) (d : BitVec 4) (pf : BitVec 4) (fin : Bool) (r : Rnd) (sat : Bool)
  | mdrainRaw (h : LHdr) (a : Opnd) (fin : Bool) (win : BitVec 3) (os : Order)
  | mzero (h : LHdr) (fin : Bool)
  | msave (h : LHdr) (a : Opnd) (win : BitVec 3) (os : Order)
  | mrestImg (h : LHdr) (a : Opnd) (win : BitVec 3) (os : Order)
  | mrestRaw (h : LHdr) (a : Opnd) (win : BitVec 3) (os : Order)
  | sadd (h : LHdr) (d a : BitVec 5) (b : BitVec 12) (reg sat rb : Bool) (tiles : BitVec 16)
  | smax (h : LHdr) (d a b : BitVec 5) (rb : Bool) (tiles : BitVec 16)
  | smin (h : LHdr) (d a b : BitVec 5) (rb : Bool) (tiles : BitVec 16)
  | srebias (h : LHdr) (d a : BitVec 5) (k : BitVec 12) (sat rb : Bool) (tiles : BitVec 16)
  | smov (h : LHdr) (d : BitVec 5) (m : SmovMode) (a : BitVec 10) (k : BitVec 6) (rb : Bool) (tiles : BitVec 16)
  | sbind (h : LHdr) (d : BitVec 5) (tiles : BitVec 16)
  | ssave (h : LHdr) (a : Opnd) (win : BitVec 3) (shf : Bool) (t : BitVec 4) (os : Order)
  | srest (h : LHdr) (a : Opnd) (win : BitVec 3) (shf : Bool) (t : BitVec 4) (os : Order)
  -- events of the walker, the engines and the groups
  | registerWrite (addr v : W64)
  | scrubComplete (j : ScrubJob) | invpgComplete (g : Gid) | ftzTailWrite (die : BitVec 3) (v : W64)
  | commandBegin (die : BitVec 3) (q : BitVec 7) | commandComplete (die : BitVec 3) (q : BitVec 7)
  | chainFetch (die : BitVec 3) (q : BitVec 7) | engineHalt (die : BitVec 3) (q : BitVec 7)
  | queueResume (die : BitVec 3) (q : BitVec 7) | queueAbandon (die : BitVec 3) (q : BitVec 7)
  | pbufDescWrite (die : BitVec 3) (b : BitVec 8) (word : BitVec 2) (v : W64)
  | publishSwap (g : Gid) | pbufPublishSwap (g : Gid) | groupReactivate (g : Gid)
  | yieldEffect (g : Gid) | parkEffect (g : Gid) | parkWake (g : Gid) | parkTimeout (g : Gid)
  | laneBlockStart (g : Gid) | groupExit (g : Gid) | queuedResultWrite (g : Gid) (conv : Bool) | tldLand (g : Gid)
  | granuleDrowsy (g : Gid) (k : BitVec 5) | granuleWake (g : Gid) (k : BitVec 5)
  | sequencerStep (core : BitVec 10) | arrayFreeze (core : BitVec 10) | streamPortEmit (core : BitVec 10)
  | tokenGrant (die : BitVec 3) | tokenRequestPromote (core : BitVec 10)
  | compactRegroup (g : Gid) | compactReturn (g : Gid) | issueBoost (g : Gid) (lane : Bool)
  | blockPlace (part : BitVec 3) (id : W32) (block : W32) (pos : BitVec 10) | dispatchHold (part : BitVec 3) (id : W32)
  | quotaWrite (core : BitVec 10) (part : BitVec 3) (b : Bool) (v : W64)
  | trapEntry (g : Gid) | faultRecordDeliver (part : BitVec 3) | fqCtlWrite (part : BitVec 3) (v : W64)
  | fqReplyReplay (part : BitVec 3) (g : Gid) (lane : Bool) | fqReplyTrap (part : BitVec 3) (g : Gid) (lane : Bool)
  | preemptRequest (part : BitVec 3) | contextRestore (part : BitVec 3) (id : W32)
  | logitBudgetExpire (part : BitVec 3) (id : W32) (block : W32) | selfTestComplete (w : ErrWord) (code : BitVec 2)
  | gangCopyPass (scr : W64)
  -- events of the launch front end and the collective engines
  | subTailWrite (i : BitVec 12) (v : W64) | cqCtlWrite (i : BitVec 12) (v : W64) | tokCtlWrite (i : BitVec 12) (v : W64)
  | ifaceReset (i : BitVec 12) | launchAccept (i : BitVec 12) (dev : Bool) | launchComplete (part : BitVec 3) (id : W32)
  | completionRecordWrite (i : BitVec 12) | successorEnqueue (part : BitVec 3) (id : W32)
  | launchPacket (node : BitVec 12) (i : BitVec 12) (rec : BitVec 2048) | fabricAccess (node : BitVec 12) (r : FabricReq)
  | collContribution (desc key : W64) (rank : BitVec 6) (chunk : W32) | collComplete (desc key : W64) (chunk : W32)
  | collDeadline (desc key : W64) | tokenAppend (desc key : W64)
  -- events of the platform
  | pwrCapWrite (v : W64) | powerManagerMove (src dst : BitVec 4) (n : BitVec 10)
  | corePowerOff (core : BitVec 10) | corePowerOn (core : BitVec 10) | boot (b : BootKind)
  | mantelQuote (part : BitVec 3) | quoteComplete (part : BitVec 3) | mantelClear (part : BitVec 3)
  | debugRead (g : Gid) (off : BitVec 18) | debugWrite (g : Gid) (off : BitVec 18) (v : W64)
  | debugHalt (g : Gid) | debugResume (g : Gid)
  | tenantDebugToken (part : BitVec 3) (boot : W32) (body : W64) | vendorDebugToken (body : W64)
  | fabricLinkLost (port : BitVec 5) | hostLinkError (link : Bool) (code : BitVec 8)
  | hostAccess (link : OuterLink) (sys : Bool) (addr : W64) (n : Size) (data : Option (BitVec 128))
  | collPutCompletion (g : Gid) | sensorReading (x : Sensor) | uncorrectedError (w : ErrWord)
deriving DecidableEq, Repr

end Sys2Proof
end

