-- ==== Sys2Proof/WellFormed.lean ====
section
/-! DEFINITION. Which instructions the spec accepts: every "illegal-instruction trap" that the opcode, the type, the order,
a register run or an operand decides (R164). A word with a reserved bit set is refused by the decoder itself. -/

namespace Sys2Proof

/-- Orders a read accepts (R39). -/
def Order.readOk : Order → Bool | .rlx => true | .acq _ => true | _ => false
/-- Orders a write accepts (R39). -/
def Order.writeOk : Order → Bool | .rlx => true | .rel _ => true | _ => false
/-- Orders a fence accepts (R39). -/
def Order.fenceOk : Order → Bool | .rlx => false | _ => true

/-- Types each atomic operation accepts (R61). -/
def AtomOp.accepts : AtomOp → AtomTy → Bool
  | .add, t | .sadd, t | .min, t | .max, t => t != .f32
  | .and, t | .or, t | .xor, t | .exch, t | .cas, t => t == .n32 || t == .n64
  | .fadd, t | .fxadd, t => t == .f32
  | .oadd, _ | .oclose, _ => true

/-- Orders each atomic operation accepts (R61). -/
def AtomOp.orderOk : AtomOp → Order → Bool
  | .fxadd, r | .oadd, r => r.writeOk
  | _, _ => true

/-- A run of `n` scalar registers from `f` stays within `s63` (R157). -/
def runOk (f : SReg) (n : Nat) : Bool := decide (f.toNat + n ≤ 64)

def b2n (b : Bool) : Nat := if b then 1 else 0

/-- Element width in bits of a lane type (R111, R161). -/
def LTy.width : LTy → Nat
  | .f32 | .i32 | .n32 => 32 | .f16 | .bf16 | .i16 | .n16 => 16 | .e5m2 | .e4m3 | .i8 | .n8 => 8
  | .e2m1 | .i4 => 4 | .i64 | .n64 => 64

/-- The type is one of 64 bits, whose operands are register pairs (R228). -/
def LTy.is64 (t : LTy) : Bool := t == .i64 || t == .n64

/-- Types of `iadd` and its like (R238). -/
def LTy.intOk : LTy → Bool
  | .i8 | .i16 | .i32 | .i64 | .n8 | .n16 | .n32 | .n64 => true | _ => false
/-- Types of `imul` and its like (R238). -/
def LTy.wordOk : LTy → Bool | .i32 | .i64 | .n32 | .n64 => true | _ => false
/-- The narrow types of `cvts` (R244). -/
def LTy.narrow : LTy → Bool | .e5m2 | .e4m3 | .e2m1 | .i8 | .i4 => true | _ => false
/-- The wide types of `cvts` (R244). -/
def LTy.wide : LTy → Bool | .f32 | .f16 | .bf16 => true | _ => false
/-- Types of `pack` and `unpack` (R245). -/
def LTy.rawOk : LTy → Bool | .n8 | .n16 | .i4 => true | _ => false

/-- Elements that a conversion between two types moves (R242). -/
def cvtN (ty ty2 : LTy) : Nat := if ty.is64 || ty2.is64 then 1 else 32 / (Nat.max ty.width ty2.width)
/-- Elements in the word of a type; a 64-bit side counts one per pair (R242). -/
def LTy.perWord (t : LTy) : Nat := if t.is64 then 1 else 32 / t.width

/-- An operand of the vector or special kind that may be a source (R159, R227). -/
def Opnd.isSrc : Opnd → Bool
  | .vec _ | .q _ | .qp _ _ | .zero | .vlane | .lane | .gidx | .const _ => true | _ => false
/-- An operand of the vector or special kind that may be a destination (R159, R227, R229). -/
def Opnd.isDst (uni : Bool) : Opnd → Bool
  | .vec _ | .zero => true | .y _ | .yp _ _ => uni | _ => false
/-- The view kinds that `lld`, `lst` and `mov` accept too (R251). -/
def Opnd.isView : Opnd → Bool | .tile _ | .acc _ => true | _ => false
/-- The operand names a queue. -/
def Opnd.isQueue : Opnd → Bool | .q _ | .qp _ _ | .y _ | .yp _ _ => true | _ => false
def Opnd.isVec : Opnd → Bool | .vec _ => true | _ => false
/-- Which queue an operand names: 0-7 data, 8-11 result (R159). -/
def Opnd.queueId : Opnd → Option Nat
  | .q i | .qp i _ => some i.toNat | .y i | .yp i _ => some (8 + i.toNat) | _ => none

/-- No queue is named in more than one operand field (R159). -/
def queuesDistinct (l : List Opnd) : Bool := decide ((l.filterMap Opnd.queueId).Nodup)

/-- The guard that selects every active thread (R160, R264). -/
def LHdr.always (h : LHdr) : Bool := !h.gneg && h.gpred == 7

/-- Header of an instruction that reads `n` sources from source A on, uniform allowed or not (R159, R160, R251). -/
def LHdr.ok (h : LHdr) (uniOk : Bool) (n : Nat) : Bool :=
  (uniOk || !h.uni) && decide (h.reuse.toNat % 2 ^ (3 - n) = 0)

/-- Destination and sources of an arithmetic or data instruction (R159, R227, R229, R231). -/
def laneOk (h : LHdr) (uniOk : Bool) (d : Opnd) (src : List Opnd) : Bool :=
  h.ok uniOk src.length && d.isDst h.uni && src.all Opnd.isSrc && queuesDistinct (d :: src)

/-- No queue among operands of 64 bits (R228). -/
def noQueue (w64 : Bool) (l : List Opnd) : Bool := !w64 || l.all (fun o => !o.isQueue)

/-- Header of a matrix, tile or scale instruction (R160, R275). -/
def LHdr.mxOk (h : LHdr) : Bool := h.uni && h.reuse == 0
/-- An address word (R276). -/
def Opnd.isAddr : Opnd → Bool | .vec _ | .zero | .const _ | .q _ => true | _ => false
/-- A parameter run (R276). -/
def Opnd.isParam : Opnd → Bool | .vec _ | .zero => true | _ => false

/-- The instruction is one the spec accepts. Events carry no encoding and are all accepted. -/
def Instr.wf : Instr → Bool
  | .ld d _ _ z r | .shld d _ z r => r.readOk && (z != .b128 || runOk d 2)
  | .st d _ _ z r | .shst d _ z r => r.writeOk && (z != .b128 || runOk d 2)
  | .atom d _ op ty r => op.accepts ty && op.orderOk r && (op != .cas || runOk d 2)
  | .fenceMem r => r.fenceOk
  | .invpg _ _ _ sc => sc != .grp && sc != .blk
  | .qld p _ _ _ _ r nb => r.readOk && (nb || p == 0)
  | .qpush p _ _ z nb => z != .b128 && (nb || p == 0)
  | .ypop p _ _ nb => nb || p == 0
  | .watch _ _ _ z r => r.readOk && z != .b128
  | .cpy d a _ ct tr _ => runOk a (3 + 2 * b2n tr + b2n ct) && (!ct || runOk d 2)
  | .tcpy d a _ ct tr _ => runOk a (4 + 2 * b2n tr + b2n ct) && (!ct || runOk d 2)
  | .gath d a _ ct tr _ => runOk a (5 + 2 * b2n tr + b2n ct) && (!ct || runOk d 2)
  | .mcast d a _ ct tr => runOk a (5 + 2 * b2n tr + b2n ct) && (!ct || runOk d 2)
  | .cmd d a _ ct => runOk a (1 + b2n ct) && (!ct || runOk d 2)
  | .bar a m _ => m != .wait || a == 0
  | .rbar a m _ => m != .wait || a == 0
  | .gangPin d _ => runOk d 4
  | .gangHome d _ b => runOk d 3 && runOk b 2
  | .gangReq _ _ b => runOk b 2
  | .gangRd d _ _ => runOk d 2
  | .kvcCmt _ _ b | .kvcRsv _ _ b => runOk b 2
  | .vgen d _ _ => runOk d 2
  | .collRun _ a ct | .collPut _ a ct => runOk a (3 + b2n ct)
  | .samp d a ct _ _ => runOk a (8 + b2n ct) && runOk d 3
  | .lnop h | .lexit h => h.ok false 0
  | .lend h | .lsync h | .lsyncC h => h.ok false 0 && h.always
  | .lbr h _ | .lbrC h _ | .lbrJ h _ => h.ok false 0
  | .lfence h r => h.ok false 0 && r.fenceOk
  | .vote h d k _ _ pd => laneOk h true d [] && (k == .all || k == .any || pd == 0)
  | .shfl h d a b w64 _ pw pd => laneOk h false d [a, b] && noQueue w64 [a] && (pw || pd == 0)
  | .perm h d a b _ => laneOk h true d [a, b] && b.isVec
  | .mov h d a b w64 m =>
    (if m == .dir then h.ok true 1 && b == .vec 0 else h.ok true 2 && b.isSrc) &&
    (d.isDst h.uni || d.isView) && (a.isSrc || a.isView) && queuesDistinct [d, a, b] && noQueue w64 [d, a] &&
    (m != .rdx || a.isVec) && (m != .wrx || d.isVec)
  | .movi h d _ ty => laneOk h true d [] && (ty == .f32 || ty == .i32 || ty == .n32)
  | .lanePlog h _ _ _ _ => h.ok true 0
  | .fadd h d a b _ _ | .fsub h d a b _ _ | .fmul h d a b _ _ => laneOk h true d [a, b]
  | .ffma h d a b c _ _ => laneOk h true d [a, b, c]
  | .fmin h d a b | .fmax h d a b => laneOk h true d [a, b]
  | .fabs h d a | .fneg h d a => laneOk h true d [a]
  | .fcmp h d a b _ _ | .fsel h d a b _ _ => laneOk h true d [a, b]
  | .hadd h d a b _ _ _ | .hsub h d a b _ _ _ | .hmul h d a b _ _ _ => laneOk h true d [a, b]
  | .hfma h d a b c _ _ _ => laneOk h true d [a, b, c]
  | .hmin h d a b _ | .hmax h d a b _ => laneOk h true d [a, b]
  | .hcmp h d a b _ s pw pd _ => laneOk h true d [a, b] && (pw || (d != .zero && s == .lo && pd == 0))
  | .iadd h d a b ty _ | .isub h d a b ty _ | .imin h d a b ty | .imax h d a b ty =>
    laneOk h true d [a, b] && ty.intOk && noQueue ty.is64 [d, a, b]
  | .imul h d a b ty | .imulh h d a b ty => laneOk h true d [a, b] && ty.wordOk && noQueue ty.is64 [d, a, b]
  | .imad h d a b c ty => laneOk h true d [a, b, c] && ty.wordOk && noQueue ty.is64 [d, a, b, c]
  | .iand h d a b w64 | .ior h d a b w64 | .ixor h d a b w64 => laneOk h true d [a, b] && noQueue w64 [d, a, b]
  | .ishl h d a b w64 | .ishr h d a b w64 | .isra h d a b w64 => laneOk h true d [a, b] && noQueue w64 [d, a]
  | .icmp h d a b ty c _ =>
    laneOk h true d [a, b] && ty.wordOk && noQueue ty.is64 [a, b] && c != .ltu && c != .geu
  | .isel h d a b w64 _ _ => laneOk h true d [a, b] && noQueue w64 [d, a, b]
  | .lanePopc h d a w64 | .laneClz h d a w64 => laneOk h true d [a] && noQueue w64 [a]
  | .bfe h d a b ty => laneOk h true d [a, b] && ty.wordOk && noQueue ty.is64 [d, a]
  | .bfi h d a b c w64 => laneOk h true d [a, b, c] && noQueue w64 [d, a, c]
  | .cvt h d a b _ _ ty ty2 sl dl =>
    laneOk h true d [a, b] && noQueue ty.is64 [d, b] && noQueue ty2.is64 [a] &&
    decide ((sl.toNat + 1) * cvtN ty ty2 ≤ ty2.perWord) && decide ((dl.toNat + 1) * cvtN ty ty2 ≤ ty.perWord)
  | .cvts h d a b c _ _ ty ty2 _ k =>
    laneOk h true d [a, b, c] && ((ty.narrow && ty2.wide) || (ty.wide && ty2.narrow)) &&
    decide ((k.toNat + 1) * cvtN ty ty2 ≤ (if ty.narrow then ty.perWord else ty2.perWord))
  | .pack h d a b ty k => laneOk h true d [a, b] && ty.rawOk && decide (k.toNat < 32 / ty.width)
  | .unpack h d a ty k => laneOk h true d [a] && ty.rawOk && decide (k.toNat < 32 / ty.width)
  | .fxcvt h d a _ => laneOk h true d [a] && a.isVec
  | .rcp h d a r | .rsq h d a r | .sqrt h d a r | .exp2 h d a r | .log2 h d a r => laneOk h true d [a] && r != .rs
  | .lld h d a z m =>
    h.ok true 1 && (d.isDst h.uni || d.isView) && a.isSrc && queuesDistinct [d, a] && m.os.readOk &&
    noQueue (z == .b64 || z == .b128) [d] && (!m.shf || m.win == 0)
  | .lst h a b z m =>
    h.ok true 2 && a.isSrc && (b.isSrc || b.isView) && queuesDistinct [a, b] && m.os.writeOk &&
    noQueue (z == .b64 || z == .b128) [b] && (!m.shf || m.win == 0)
  | .laneAtom h d a b c ty op m =>
    h.ok true (if op == .cas then 3 else if op == .oclose then 1 else 2) && d.isDst h.uni && a.isSrc &&
    (if op == .oclose then b == .vec 0 else b.isSrc) && (if op == .cas then c.isSrc else c == .vec 0) &&
    queuesDistinct [d, a, b, c] && noQueue (ty == .i64 || ty == .n64) [d, b, c] &&
    op.accepts ty && op.orderOk m.os && ((op != .fxadd && op != .oadd) || d == .zero) &&
    (!m.shf || m.win == 0) && decide (m.off.toNat < 2048)
  | .tld h _ a c win swin shf sc e os =>
    h.mxOk && a.isAddr && c.isParam && os.readOk && (!shf || (win == 0 && swin == 0)) && (sc || (swin == 0 && e == 0))
  | .tst h _ a c win swin shf sc os =>
    h.mxOk && a.isAddr && c.isParam && os.writeOk && (!shf || (win == 0 && swin == 0)) && (sc || swin == 0)
  | .mload h _ m c shf sp => h.mxOk && (if shf then c.isAddr else c == .vec 0) && (sp != 0 || m == 0)
  | .mloop h acc _ rl w c dstep _ sw sp mt _ r =>
    h.mxOk && c.isParam && (rl || (w == 0 && !sw && sp == 0)) && (sp != 0 || mt == 0) && (dstep || (acc == 0 && r == .rn))
  | .mdrain h k d pf _ _ sat =>
    h.mxOk && (match k with | .acc => pf == 0 && !sat | .cvt => pf == 0 | .port => d == 0 && decide (pf.toNat ≤ 8))
  | .mdrainRaw h a _ _ os => h.mxOk && a.isAddr && os.writeOk
  | .mzero h _ => h.mxOk
  | .msave h a _ os => h.mxOk && a.isAddr && os.writeOk
  | .mrestImg h a _ os | .mrestRaw h a _ os => h.mxOk && a.isAddr && os.readOk
  | .sadd h _ _ b reg _ rb tiles => h.mxOk && (!reg || decide (b.toNat < 32)) && (rb || tiles == 0)
  | .smax h _ _ _ rb tiles | .smin h _ _ _ rb tiles => h.mxOk && (rb || tiles == 0)
  | .srebias h _ _ k _ rb tiles => h.mxOk && decide (k.toNat ≤ 254) && (rb || tiles == 0)
  | .smov h _ m a k rb tiles =>
    h.mxOk && (m == .sp || k == 0) && (m == .vec || decide (a.toNat < 32)) && (rb || tiles == 0)
  | .sbind h _ _ => h.mxOk
  | .ssave h a win shf _ os => h.mxOk && a.isAddr && os.writeOk && (!shf || win == 0)
  | .srest h a win shf _ os => h.mxOk && a.isAddr && os.readOk && (!shf || win == 0)
  | _ => true

/-- The row is an event of another agent, not an instruction of a stream. -/
def Instr.isEvent : Instr → Bool
  | .scrubComplete .. | .invpgComplete .. | .ftzTailWrite .. | .commandBegin .. | .commandComplete .. | .chainFetch ..
  | .engineHalt .. | .queueResume .. | .queueAbandon .. | .pbufDescWrite .. | .publishSwap .. | .pbufPublishSwap ..
  | .groupReactivate .. | .yieldEffect .. | .parkEffect .. | .parkWake .. | .parkTimeout .. | .laneBlockStart ..
  | .groupExit .. | .queuedResultWrite .. | .tldLand .. | .granuleDrowsy .. | .granuleWake .. | .sequencerStep ..
  | .arrayFreeze .. | .streamPortEmit .. | .tokenGrant .. | .tokenRequestPromote .. | .compactRegroup ..
  | .compactReturn .. | .issueBoost .. | .blockPlace .. | .dispatchHold .. | .quotaWrite .. | .trapEntry ..
  | .faultRecordDeliver .. | .fqCtlWrite .. | .fqReplyReplay .. | .fqReplyTrap .. | .preemptRequest ..
  | .contextRestore .. | .logitBudgetExpire .. | .selfTestComplete .. | .gangCopyPass .. | .subTailWrite ..
  | .cqCtlWrite .. | .tokCtlWrite .. | .ifaceReset .. | .launchAccept .. | .launchComplete ..
  | .completionRecordWrite .. | .successorEnqueue .. | .launchPacket .. | .fabricAccess .. | .collContribution ..
  | .collComplete .. | .collDeadline .. | .tokenAppend .. | .pwrCapWrite .. | .powerManagerMove .. | .corePowerOff ..
  | .corePowerOn .. | .boot .. | .mantelQuote .. | .quoteComplete .. | .mantelClear .. | .debugRead .. | .debugWrite ..
  | .debugHalt .. | .debugResume .. | .tenantDebugToken .. | .vendorDebugToken .. | .fabricLinkLost ..
  | .hostLinkError .. | .registerWrite .. | .hostAccess .. | .collPutCompletion .. | .sensorReading ..
  | .uncorrectedError .. => true
  | _ => false

end Sys2Proof
end

