-- ==== Sys2Proof/Decode.lean ====
section
/-! DEFINITION. Encoder and decoder, both written from the field layouts and opcode maps of R152 to R163 and the
instruction chapters. The decoder reads the fields into a candidate and accepts it only if the candidate is well formed
and its encoding is the word itself: so every reserved bit, every unlisted code and every breach of R157, R159, R160 and
R161 is refused (R164). -/

namespace Sys2Proof

/-- Why a word is refused (R164). -/
inductive DecodeError where
  /-- The opcode is unassigned (R162, R163). -/
  | unassigned
  /-- A reserved field is not zero, a field holds a code that is not listed, or the word breaks R157, R159, R160 or R161. -/
  | badFields
  /-- The bytes are no whole word of either stream (R152). -/
  | badLength
deriving DecidableEq, Repr

/-! Field codes. A code that is not listed reads as some listed value; the comparison with the encoding refuses it. -/



/-- The place of a scope in the order of R154's table. -/
def Scope.idx : Scope → BitVec 4 | .grp => 0 | .blk => 1 | .die => 2 | .pkg => 3 | .sys => 4
/-- R154. -/
def Order.code : Order → BitVec 4
  | .rlx => 0x0 | .acq s => 0x1 + s.idx | .rel s => 0x6 + s.idx | .ar s => 0xB + s.idx
/-- R154. -/
def Order.ofCode (c : BitVec 4) : Order :=
  match c.toNat with
  | 0x1 => .acq .grp | 0x2 => .acq .blk | 0x3 => .acq .die | 0x4 => .acq .pkg | 0x5 => .acq .sys
  | 0x6 => .rel .grp | 0x7 => .rel .blk | 0x8 => .rel .die | 0x9 => .rel .pkg | 0xA => .rel .sys
  | 0xB => .ar .grp | 0xC => .ar .blk | 0xD => .ar .die | 0xE => .ar .pkg | 0xF => .ar .sys
  | _ => .rlx

/-- Scope codes of `invpg` (R206). -/
def Scope.code : Scope → BitVec 3
  | .grp => 0
  | .blk => 1
  | .die => 2
  | .pkg => 3
  | .sys => 4
/-- The value of a code field. -/
def Scope.ofCode (c : BitVec 3) : Scope :=
  match c.toNat with
  | 1 => .blk
  | 2 => .die
  | 3 => .pkg
  | 4 => .sys
  | _ => .grp

/-- R155. -/
def Size.code : Size → BitVec 3
  | .b8 => 0
  | .b16 => 1
  | .b32 => 2
  | .b64 => 3
  | .b128 => 4
/-- The value of a code field. -/
def Size.ofCode (c : BitVec 3) : Size :=
  match c.toNat with
  | 1 => .b16
  | 2 => .b32
  | 3 => .b64
  | 4 => .b128
  | _ => .b8

/-- R155. -/
def AtomTy.code : AtomTy → BitVec 3
  | .i32 => 0
  | .n32 => 1
  | .i64 => 2
  | .n64 => 3
  | .f32 => 4
/-- The value of a code field. -/
def AtomTy.ofCode (c : BitVec 3) : AtomTy :=
  match c.toNat with
  | 1 => .n32
  | 2 => .i64
  | 3 => .n64
  | 4 => .f32
  | _ => .i32

/-- R61. -/
def AtomOp.code : AtomOp → BitVec 5
  | .add => 0
  | .sadd => 1
  | .min => 2
  | .max => 3
  | .and => 4
  | .or => 5
  | .xor => 6
  | .exch => 7
  | .cas => 8
  | .fadd => 9
  | .fxadd => 10
  | .oadd => 11
  | .oclose => 12
/-- The value of a code field. -/
def AtomOp.ofCode (c : BitVec 5) : AtomOp :=
  match c.toNat with
  | 1 => .sadd
  | 2 => .min
  | 3 => .max
  | 4 => .and
  | 5 => .or
  | 6 => .xor
  | 7 => .exch
  | 8 => .cas
  | 9 => .fadd
  | 10 => .fxadd
  | 11 => .oadd
  | 12 => .oclose
  | _ => .add

/-- R119. -/
def Rnd.code : Rnd → BitVec 3
  | .rn => 0
  | .rz => 1
  | .rd => 2
  | .ru => 3
  | .rs => 4
/-- The value of a code field. -/
def Rnd.ofCode (c : BitVec 3) : Rnd :=
  match c.toNat with
  | 1 => .rz
  | 2 => .rd
  | 3 => .ru
  | 4 => .rs
  | _ => .rn

/-- R161. -/
def LTy.code : LTy → BitVec 4
  | .f32 => 0
  | .f16 => 1
  | .bf16 => 2
  | .e5m2 => 3
  | .e4m3 => 4
  | .e2m1 => 5
  | .i32 => 6
  | .i8 => 7
  | .i4 => 8
  | .i16 => 9
  | .i64 => 10
  | .n8 => 11
  | .n16 => 12
  | .n32 => 13
  | .n64 => 14
/-- The value of a code field. -/
def LTy.ofCode (c : BitVec 4) : LTy :=
  match c.toNat with
  | 1 => .f16
  | 2 => .bf16
  | 3 => .e5m2
  | 4 => .e4m3
  | 5 => .e2m1
  | 6 => .i32
  | 7 => .i8
  | 8 => .i4
  | 9 => .i16
  | 10 => .i64
  | 11 => .n8
  | 12 => .n16
  | 13 => .n32
  | 14 => .n64
  | _ => .f32

/-- R191. -/
def Cond.code : Cond → BitVec 3
  | .eq => 0
  | .ne => 1
  | .lt => 2
  | .ge => 3
  | .ltu => 4
  | .geu => 5
  | .le => 6
  | .gt => 7
/-- The value of a code field. -/
def Cond.ofCode (c : BitVec 3) : Cond :=
  match c.toNat with
  | 1 => .ne
  | 2 => .lt
  | 3 => .ge
  | 4 => .ltu
  | 5 => .geu
  | 6 => .le
  | 7 => .gt
  | _ => .eq

/-- R234. -/
def FCond.code : FCond → BitVec 3
  | .eq => 0
  | .ne => 1
  | .lt => 2
  | .ge => 3
  | .un => 4
  | .num => 5
  | .le => 6
  | .gt => 7
/-- The value of a code field. -/
def FCond.ofCode (c : BitVec 3) : FCond :=
  match c.toNat with
  | 1 => .ne
  | 2 => .lt
  | 3 => .ge
  | 4 => .un
  | 5 => .num
  | 6 => .le
  | 7 => .gt
  | _ => .eq

/-- R215. -/
def DstKind.code : DstKind → BitVec 2
  | .mem => 0
  | .slot => 1
  | .buf => 2
/-- The value of a code field. -/
def DstKind.ofCode (c : BitVec 2) : DstKind :=
  match c.toNat with
  | 1 => .slot
  | 2 => .buf
  | _ => .mem

/-- R221. -/
def BarMode.code : BarMode → BitVec 2
  | .sync => 0
  | .arv => 1
  | .wait => 2
/-- The value of a code field. -/
def BarMode.ofCode (c : BitVec 2) : BarMode :=
  match c.toNat with
  | 1 => .arv
  | 2 => .wait
  | _ => .sync

/-- R314. -/
def SchedItem.code : SchedItem → BitVec 6
  | .core => 0
  | .blk => 1
  | .prio => 2
  | .part => 3
  | .slot => 4
  | .occ => 5
  | .cyc => 6
  | .tok => 7
/-- The value of a code field. -/
def SchedItem.ofCode (c : BitVec 6) : SchedItem :=
  match c.toNat with
  | 1 => .blk
  | 2 => .prio
  | 3 => .part
  | 4 => .slot
  | 5 => .occ
  | 6 => .cyc
  | 7 => .tok
  | _ => .core

/-- R262. -/
def ShflMode.code : ShflMode → BitVec 2
  | .idx => 0
  | .up => 1
  | .down => 2
  | .xor => 3
/-- The value of a code field. -/
def ShflMode.ofCode (c : BitVec 2) : ShflMode :=
  match c.toNat with
  | 1 => .up
  | 2 => .down
  | 3 => .xor
  | _ => .idx

/-- R263. -/
def VoteKind.code : VoteKind → BitVec 3
  | .all => 0
  | .any => 1
  | .ballot => 2
  | .count => 3
/-- The value of a code field. -/
def VoteKind.ofCode (c : BitVec 3) : VoteKind :=
  match c.toNat with
  | 1 => .any
  | 2 => .ballot
  | 3 => .count
  | _ => .all

/-- R260. -/
def PermMode.code : PermMode → BitVec 2
  | .lo => 0
  | .hi => 1
  | .x => 2
/-- The value of a code field. -/
def PermMode.ofCode (c : BitVec 2) : PermMode :=
  match c.toNat with
  | 1 => .hi
  | 2 => .x
  | _ => .lo

/-- R258. -/
def MovMode.code : MovMode → BitVec 2
  | .dir => 0
  | .rdx => 1
  | .wrx => 2
/-- The value of a code field. -/
def MovMode.ofCode (c : BitVec 2) : MovMode :=
  match c.toNat with
  | 1 => .rdx
  | 2 => .wrx
  | _ => .dir

/-- R237. -/
def HSel.code : HSel → BitVec 2
  | .lo => 0
  | .all => 1
  | .any => 2
/-- The value of a code field. -/
def HSel.ofCode (c : BitVec 2) : HSel :=
  match c.toNat with
  | 1 => .all
  | 2 => .any
  | _ => .lo

/-- R285. -/
def DrainKind.code : DrainKind → BitVec 2
  | .acc => 0
  | .cvt => 1
  | .port => 2
/-- The value of a code field. -/
def DrainKind.ofCode (c : BitVec 2) : DrainKind :=
  match c.toNat with
  | 1 => .cvt
  | 2 => .port
  | _ => .acc

/-- R290. -/
def SmovMode.code : SmovMode → BitVec 4
  | .cp => 0
  | .sp => 1
  | .vec => 2
/-- The value of a code field. -/
def SmovMode.ofCode (c : BitVec 4) : SmovMode :=
  match c.toNat with
  | 1 => .sp
  | 2 => .vec
  | _ => .cp

/-- One bit of a flag. -/
def bit (b : Bool) : BitVec 1 := if b then 1 else 0
/-- The flag of one bit. -/
def flag (b : BitVec 1) : Bool := b == 1

/-- R159: selector 00, 01, 10 and the index, or selector 11 and the special index. -/
def Opnd.code : Opnd → BitVec 12
  | .vec i => 0#2 ++ i
  | .tile i => 0x40#8 ++ i
  | .acc i => 0x80#8 ++ i
  | .q i => 0x180#9 ++ i
  | .y i => 0x304#10 ++ i
  | .zero => 0xC20 | .vlane => 0xC21 | .lane => 0xC22 | .gidx => 0xC23
  | .qp i p => 0x31#6 ++ i ++ p
  | .yp i p => 0x64#7 ++ i ++ p
  | .const k => 0xD#4 ++ k
/-- R159. A special index that is not listed reads as `zero`, which the comparison with the encoding refuses. -/
def Opnd.ofCode (c : BitVec 12) : Opnd :=
  match (c.extractLsb' 8 4).toNat with
  | 0 | 1 | 2 | 3 => .vec (c.extractLsb' 0 10)
  | 4 => .tile (c.extractLsb' 0 4)
  | 8 => .acc (c.extractLsb' 0 4)
  | 13 => .const (c.extractLsb' 0 8)
  | 12 =>
    match (c.extractLsb' 4 4).toNat with
    | 0 => .q (c.extractLsb' 0 3)
    | 1 => .y (c.extractLsb' 0 2)
    | 2 => match (c.extractLsb' 0 4).toNat with | 1 => .vlane | 2 => .lane | 3 => .gidx | _ => .zero
    | 4 | 5 | 6 | 7 => .qp (c.extractLsb' 3 3) (c.extractLsb' 0 3)
    | 8 | 9 => .yp (c.extractLsb' 3 2) (c.extractLsb' 0 3)
    | _ => .zero
  | _ => .zero

/-- Bits 83:76 of a lane word (R158): gneg, gpred, u, reuse. -/
def LHdr.code (h : LHdr) : BitVec 8 := bit h.gneg ++ h.gpred ++ bit h.uni ++ h.reuse
/-- R158. -/
def LHdr.ofCode (c : BitVec 8) : LHdr :=
  { gneg := flag (c.extractLsb' 7 1), gpred := c.extractLsb' 4 3, uni := flag (c.extractLsb' 3 1), reuse := c.extractLsb' 0 3 }

/-! The formats (R153, R158, R161). -/

/-- SR: register. -/
def encSR (op : BitVec 8) (d a b fn : BitVec 6) : W32 := op ++ d ++ a ++ b ++ fn
/-- SI: immediate. -/
def encSI (op : BitVec 8) (d a : BitVec 6) (imm : BitVec 12) : W32 := op ++ d ++ a ++ imm
/-- SB: branch. -/
def encSB (op : BitVec 8) (neg : BitVec 1) (p : BitVec 3) (off : BitVec 20) : W32 := op ++ neg ++ p ++ off
/-- SM, access layout. -/
def encSM (op : BitVec 8) (d o : BitVec 6) (win : BitVec 3) (z : BitVec 3) (os : BitVec 4) (nb : Bool) : W32 :=
  op ++ d ++ o ++ win ++ z ++ os ++ bit nb ++ 0#1
/-- SM, atomic layout. -/
def encSA (op : BitVec 8) (d o : BitVec 6) (aop : BitVec 5) (ty : BitVec 3) (os : BitVec 4) : W32 :=
  op ++ d ++ o ++ aop ++ ty ++ os
/-- SE: engine command. -/
def encSE (op : BitVec 8) (d a : BitVec 6) (q : BitVec 7) (cont : Bool) (mod : BitVec 4) : W32 :=
  op ++ d ++ a ++ q ++ bit cont ++ mod

/-- The fields of LA below bit 28 (R161). -/
structure LAFields where
  rnd : BitVec 3 := 0
  sat : BitVec 1 := 0
  ty  : BitVec 4 := 0
  ty2 : BitVec 4 := 0
  fn  : BitVec 8 := 0
  pd  : BitVec 3 := 0
  pw  : BitVec 1 := 0

/-- LA. -/
def encLA (op : BitVec 12) (h : LHdr) (d a b c : BitVec 12) (f : LAFields) : BitVec 96 :=
  op ++ h.code ++ d ++ a ++ b ++ c ++ f.rnd ++ f.sat ++ f.ty ++ f.ty2 ++ f.fn ++ f.pd ++ f.pw ++ 0#4
/-- LI. -/
def encLI (op : BitVec 12) (h : LHdr) (d a b : BitVec 12) (imm : W32) (rnd : BitVec 3) (sat : BitVec 1) (ty : BitVec 4) :
    BitVec 96 :=
  op ++ h.code ++ d ++ a ++ b ++ imm ++ rnd ++ sat ++ ty
/-- LM. -/
def encLM (op : BitVec 12) (h : LHdr) (d a b c : BitVec 12) (z : BitVec 3) (m : LMem) (off : BitVec 16) : BitVec 96 :=
  op ++ h.code ++ d ++ a ++ b ++ c ++ m.win ++ z ++ m.os.code ++ 0#1 ++ bit m.shf ++ off
/-- LX. -/
def encLX (op : BitVec 12) (h : LHdr) (d a b c : BitVec 12) (rnd : BitVec 3) (sat : BitVec 1) (xf : BitVec 24) : BitVec 96 :=
  op ++ h.code ++ d ++ a ++ b ++ c ++ rnd ++ sat ++ xf

/-- A scale register operand (R276). -/
def ereg (e : BitVec 5) : BitVec 12 := 0#7 ++ e

/-- The scalar word of an instruction of the scalar stream; 0, which is no instruction (R162), for any other row. -/
def encodeScalar : Instr → W32
  | .add d a b => encSR 0x01 d a b 0
  | .sub d a b => encSR 0x02 d a b 0
  | .mul d a b => encSR 0x03 d a b 0
  | .mulh d a b n => encSR 0x04 d a b (0#5 ++ bit n)
  | .div d a b n => encSR 0x05 d a b (0#5 ++ bit n)
  | .rem d a b n => encSR 0x06 d a b (0#5 ++ bit n)
  | .and d a b => encSR 0x07 d a b 0
  | .or d a b => encSR 0x08 d a b 0
  | .xor d a b => encSR 0x09 d a b 0
  | .shl d a b => encSR 0x0A d a b 0
  | .shr d a b => encSR 0x0B d a b 0
  | .sra d a b => encSR 0x0C d a b 0
  | .min d a b n => encSR 0x0D d a b (0#5 ++ bit n)
  | .max d a b n => encSR 0x0E d a b (0#5 ++ bit n)
  | .sel d a b neg p => encSR 0x0F d a b (0#2 ++ bit neg ++ p)
  | .addi d a i => encSI 0x11 d a i
  | .muli d a i => encSI 0x13 d a i
  | .andi d a i => encSI 0x17 d a i
  | .ori d a i => encSI 0x18 d a i
  | .xori d a i => encSI 0x19 d a i
  | .mini d a i => encSI 0x1D d a i
  | .maxi d a i => encSI 0x1E d a i
  | .shli d a k => encSI 0x1A d a (0#6 ++ k)
  | .shri d a k => encSI 0x1B d a (0#6 ++ k)
  | .srai d a k => encSI 0x1C d a (0#6 ++ k)
  | .limSet d i => encSI 0x1F d 0 i
  | .limCat d i => encSI 0x1F d 1 i
  | .cmp p a b c => encSR 0x20 (0#3 ++ p) a b (0#3 ++ c.code)
  | .cmpi c p a i => encSI 0x21 (c.code ++ p) a i
  | .plog d a b t => encSR 0x22 (0#3 ++ d) (0#3 ++ a) (0#3 ++ b) (0#2 ++ t)
  | .ext d a b n => encSR 0x23 d a b (0#5 ++ bit n)
  | .ins d a b => encSR 0x24 d a b 0
  | .clz d a => encSR 0x25 d a 0 0
  | .popc d a => encSR 0x26 d a 0 0
  | .brev d a => encSR 0x27 d a 0 0
  | .mtc a f => encSR 0x28 0 a 0 f
  | .mfc d f => encSR 0x29 d 0 0 f
  | .pget d => encSR 0x2A d 0 0 0
  | .pset a => encSR 0x2B 0 a 0 0
  | .br neg p off => encSB 0x30 (bit neg) p off
  | .jmp off => encSB 0x31 0 0 off
  | .call off => encSB 0x32 0 0 off
  | .jmpr a => encSR 0x33 0 a 0 0
  | .callr d a => encSR 0x34 d a 0 0
  | .lrun off => encSB 0x35 0 0 off
  | .lrunr a => encSR 0x36 0 a 0 0
  | .exit => encSR 0x37 0 0 0 0
  | .yieldQ d a b => encSR 0x38 d a b 0
  | .yieldCtr d a b => encSR 0x38 d a b 1
  | .trap i => encSI 0x39 0 0 i
  | .hretResume a => encSR 0x3A 0 a 0 0
  | .hretVacate a => encSR 0x3A 0 a 0 1
  | .hretEnd a => encSR 0x3A 0 a 0 2
  | .nop => encSR 0x3B 0 0 0 0
  | .ld d o w z r => encSM 0x40 d o w z.code r.code false
  | .st d o w z r => encSM 0x41 d o w z.code r.code false
  | .atom d o op ty r => encSA 0x42 d o op.code ty.code r.code
  | .fenceMem r => encSR 0x43 0 0 0 (0#2 ++ r.code)
  | .fencePt => encSR 0x43 0 0 0 0x10
  | .invpg d a b sc => encSR 0x44 d a b (0#3 ++ sc.code)
  | .wset w a => encSR 0x45 (0#3 ++ w) a 0 0
  | .qld p q o w z r nb => encSM 0x46 (p ++ q) o w z.code r.code nb
  | .qpush p q o z nb => encSM 0x47 (p ++ q) o 0 z.code 0 nb
  | .ypop p q o nb => encSM 0x48 (p ++ 0#1 ++ q) o 0 0 0 nb
  | .shld d o z r => encSM 0x49 d o 0 z.code r.code false
  | .shst d o z r => encSM 0x4A d o 0 z.code r.code false
  | .cpy d a q ct tr k => encSE 0x50 d a q ct (bit tr ++ 0#1 ++ k.code)
  | .tcpy d a q ct tr k => encSE 0x51 d a q ct (bit tr ++ 0#1 ++ k.code)
  | .gath d a q ct tr k => encSE 0x52 d a q ct (bit tr ++ 0#1 ++ k.code)
  | .mcast d a q ct tr => encSE 0x53 d a q ct (bit tr ++ 1#3)
  | .cmd d a q ct => encSE 0x54 d a q ct 0
  | .chain a b => encSR 0x55 0 a b 0
  | .publSlot d a => encSR 0x56 d a 0 0
  | .publBuf d a => encSR 0x56 d a 0 1
  | .seqRd d a q => encSR 0x57 d a 0 (0#3 ++ bit q ++ 0#2)
  | .seqAdd d a b => encSR 0x57 d a b 0x10
  | .seqSet p a b q => encSR 0x57 (0#3 ++ p) a b (4#3 ++ bit q ++ 0#2)
  | .seqSetForce p a b q => encSR 0x57 (0#3 ++ p) a b (5#3 ++ bit q ++ 0#2)
  | .lkup d a => encSR 0x58 d a 0 0
  | .slotInst a b => encSR 0x59 0 a b 0
  | .slotEvict d a => encSR 0x59 d a 0 1
  | .slotRd d a => encSR 0x59 d a 0 2
  | .bar a m i => encSR 0x60 0 a 0 (m.code ++ i)
  | .rbar a m i => encSR 0x61 0 a 0 (m.code ++ 0#2 ++ i)
  | .dbar m i => encSR 0x62 0 0 0 (m.code ++ 0#2 ++ i)
  | .pbar m i => encSR 0x63 0 0 0 (m.code ++ 0#2 ++ i)
  | .watch d o w z r => encSM 0x64 d o w z.code r.code false
  | .park d a => encSR 0x65 d a 0 0
  | .prio d blk k => encSI 0x66 d (0#5 ++ bit blk) (0#10 ++ k)
  | .schrd d f => encSR 0x67 d 0 0 f.code
  | .gangPin d a => encSR 0x70 d a 0 0
  | .gangUnpin d a b => encSR 0x70 d a b 1
  | .gangHome d a b => encSR 0x70 d a b 2
  | .gangReq d a b => encSR 0x70 d a b 3
  | .gangRes d a => encSR 0x70 d a 0 4
  | .gangCxl d a => encSR 0x70 d a 0 5
  | .gangRd d a b => encSR 0x70 d a b 6
  | .kvcCmt d a b => encSR 0x71 d a b 0
  | .kvcRsv d a b => encSR 0x71 d a b 1
  | .kvcPurge d a b => encSR 0x71 d a b 2
  | .kvcEnd d a b => encSR 0x71 d a b 3
  | .vgen d a b => encSR 0x72 d a b 0
  | .launch d a => encSR 0x73 d a 0 0
  | .collRun d a ct => encSE 0x74 d a 0 ct 0
  | .collPut d a ct => encSE 0x74 d a 0 ct 1
  | .samp d a ct grd tok => encSE 0x75 d a 0 ct (0#2 ++ bit grd ++ bit tok)
  | _ => 0

/-- The lane word of an instruction of the lane stream; 0, which is no instruction (R163), for any other row. -/
def encodeLane : Instr → BitVec 96
  | .lnop h => encLA 0x001 h 0 0 0 0 {}
  | .lend h => encLA 0x002 h 0 0 0 0 {}
  | .lbr h imm => encLI 0x003 h 0 0 0 imm 0 0 0
  | .lbrC h imm => encLI 0x003 h 0 0 0 imm 0 0 1
  | .lbrJ h imm => encLI 0x003 h 0 0 0 imm 0 0 2
  | .lsync h => encLA 0x004 h 0 0 0 0 {}
  | .lsyncC h => encLA 0x004 h 0 0 0 0 { fn := 1 }
  | .lexit h => encLA 0x005 h 0 0 0 0 {}
  | .lfence h r => encLM 0x006 h 0 0 0 0 0 { win := 0, os := r, shf := false, off := 0 } 0
  | .vote h d k neg p pd => encLA 0x007 h d.code 0 0 0 { ty := if k == .ballot then LTy.n64.code else 0, fn := 0#1 ++ k.code ++ bit neg ++ p, pd := pd, pw := bit (k == .all || k == .any) }
  | .shfl h d a b w64 m pw pd => encLA 0x008 h d.code a.code b.code 0 { ty := (if w64 then LTy.n64.code else LTy.n32.code), fn := 0#6 ++ m.code, pd := pd, pw := bit pw }
  | .perm h d a b m => encLA 0x009 h d.code a.code b.code 0 { fn := 0#6 ++ m.code }
  | .mov h d a b w64 m => encLA 0x00A h d.code a.code b.code 0 { ty := (if w64 then LTy.n64.code else LTy.n32.code), fn := 0#6 ++ m.code }
  | .movi h d imm ty => encLI 0x00B h d.code 0 0 imm 0 0 ty.code
  | .lanePlog h pd pa pb t => encLA 0x00C h 0 0 0 0 { ty2 := 0#1 ++ pb, fn := 0#1 ++ pa ++ t, pd := pd, pw := 1 }
  | .fadd h d a b r sat => encLA 0x100 h d.code a.code b.code 0 { rnd := r.code, sat := bit sat }
  | .fsub h d a b r sat => encLA 0x101 h d.code a.code b.code 0 { rnd := r.code, sat := bit sat }
  | .fmul h d a b r sat => encLA 0x102 h d.code a.code b.code 0 { rnd := r.code, sat := bit sat }
  | .ffma h d a b c r sat => encLA 0x103 h d.code a.code b.code c.code { rnd := r.code, sat := bit sat }
  | .fmin h d a b => encLA 0x104 h d.code a.code b.code 0 {}
  | .fmax h d a b => encLA 0x105 h d.code a.code b.code 0 {}
  | .fabs h d a => encLA 0x106 h d.code a.code 0 0 {}
  | .fneg h d a => encLA 0x107 h d.code a.code 0 0 {}
  | .fcmp h d a b c pd => encLA 0x108 h d.code a.code b.code 0 { fn := 0#5 ++ c.code, pd := pd, pw := 1 }
  | .fsel h d a b neg p => encLA 0x109 h d.code a.code b.code 0 { fn := 0#4 ++ bit neg ++ p }
  | .hadd h d a b r sat bf => encLA 0x110 h d.code a.code b.code 0 { rnd := r.code, sat := bit sat, ty := (if bf then LTy.bf16.code else LTy.f16.code) }
  | .hsub h d a b r sat bf => encLA 0x111 h d.code a.code b.code 0 { rnd := r.code, sat := bit sat, ty := (if bf then LTy.bf16.code else LTy.f16.code) }
  | .hmul h d a b r sat bf => encLA 0x112 h d.code a.code b.code 0 { rnd := r.code, sat := bit sat, ty := (if bf then LTy.bf16.code else LTy.f16.code) }
  | .hfma h d a b c r sat bf => encLA 0x113 h d.code a.code b.code c.code { rnd := r.code, sat := bit sat, ty := (if bf then LTy.bf16.code else LTy.f16.code) }
  | .hmin h d a b bf => encLA 0x114 h d.code a.code b.code 0 { ty := (if bf then LTy.bf16.code else LTy.f16.code) }
  | .hmax h d a b bf => encLA 0x115 h d.code a.code b.code 0 { ty := (if bf then LTy.bf16.code else LTy.f16.code) }
  | .hcmp h d a b c s pw pd bf => encLA 0x116 h d.code a.code b.code 0 { ty := (if bf then LTy.bf16.code else LTy.f16.code), fn := 0#3 ++ s.code ++ c.code, pd := pd, pw := bit pw }
  | .iadd h d a b ty sat => encLA 0x200 h d.code a.code b.code 0 { sat := bit sat, ty := ty.code }
  | .isub h d a b ty sat => encLA 0x201 h d.code a.code b.code 0 { sat := bit sat, ty := ty.code }
  | .imul h d a b ty => encLA 0x202 h d.code a.code b.code 0 { ty := ty.code }
  | .imulh h d a b ty => encLA 0x203 h d.code a.code b.code 0 { ty := ty.code }
  | .imin h d a b ty => encLA 0x20B h d.code a.code b.code 0 { ty := ty.code }
  | .imax h d a b ty => encLA 0x20C h d.code a.code b.code 0 { ty := ty.code }
  | .imad h d a b c ty => encLA 0x204 h d.code a.code b.code c.code { ty := ty.code }
  | .iand h d a b w64 => encLA 0x205 h d.code a.code b.code 0 { ty := (if w64 then LTy.n64.code else LTy.n32.code) }
  | .ior h d a b w64 => encLA 0x206 h d.code a.code b.code 0 { ty := (if w64 then LTy.n64.code else LTy.n32.code) }
  | .ixor h d a b w64 => encLA 0x207 h d.code a.code b.code 0 { ty := (if w64 then LTy.n64.code else LTy.n32.code) }
  | .ishl h d a b w64 => encLA 0x208 h d.code a.code b.code 0 { ty := (if w64 then LTy.n64.code else LTy.n32.code) }
  | .ishr h d a b w64 => encLA 0x209 h d.code a.code b.code 0 { ty := (if w64 then LTy.n64.code else LTy.n32.code) }
  | .isra h d a b w64 => encLA 0x20A h d.code a.code b.code 0 { ty := (if w64 then LTy.i64.code else LTy.i32.code) }
  | .icmp h d a b ty c pd => encLA 0x20D h d.code a.code b.code 0 { ty := ty.code, fn := 0#5 ++ c.code, pd := pd, pw := 1 }
  | .isel h d a b w64 neg p => encLA 0x20E h d.code a.code b.code 0 { ty := (if w64 then LTy.n64.code else LTy.n32.code), fn := 0#4 ++ bit neg ++ p }
  | .lanePopc h d a w64 => encLA 0x20F h d.code a.code 0 0 { ty := (if w64 then LTy.n64.code else LTy.n32.code) }
  | .laneClz h d a w64 => encLA 0x210 h d.code a.code 0 0 { ty := (if w64 then LTy.n64.code else LTy.n32.code) }
  | .bfe h d a b ty => encLA 0x211 h d.code a.code b.code 0 { ty := ty.code }
  | .bfi h d a b c w64 => encLA 0x212 h d.code a.code b.code c.code { ty := (if w64 then LTy.n64.code else LTy.n32.code) }
  | .cvt h d a b r sat ty ty2 sl dl => encLA 0x300 h d.code a.code b.code 0 { rnd := r.code, sat := bit sat, ty := ty.code, ty2 := ty2.code, fn := 0#2 ++ sl ++ dl }
  | .cvts h d a b c r sat ty ty2 e k => encLA 0x301 h d.code a.code b.code c.code { rnd := r.code, sat := bit sat, ty := ty.code, ty2 := ty2.code, fn := k ++ e }
  | .pack h d a b ty k => encLA 0x302 h d.code a.code b.code 0 { ty := ty.code, fn := 0#5 ++ k }
  | .unpack h d a ty k => encLA 0x303 h d.code a.code 0 0 { ty := ty.code, fn := 0#5 ++ k }
  | .fxcvt h d a r => encLA 0x304 h d.code a.code 0 0 { rnd := r.code }
  | .rcp h d a r => encLA 0x400 h d.code a.code 0 0 { rnd := r.code }
  | .rsq h d a r => encLA 0x401 h d.code a.code 0 0 { rnd := r.code }
  | .sqrt h d a r => encLA 0x402 h d.code a.code 0 0 { rnd := r.code }
  | .exp2 h d a r => encLA 0x403 h d.code a.code 0 0 { rnd := r.code }
  | .log2 h d a r => encLA 0x404 h d.code a.code 0 0 { rnd := r.code }
  | .lld h d a z m => encLM 0x500 h d.code a.code 0 0 z.code m m.off
  | .lst h a b z m => encLM 0x501 h 0 a.code b.code 0 z.code m m.off
  | .laneAtom h d a b c ty op m => encLM 0x502 h d.code a.code b.code c.code ty.code m (op.code ++ m.off.extractLsb' 0 11)
  | .tld h t a c win swin shf sc e os => encLX 0x600 h (Opnd.tile t).code a.code 0 c.code 0 0 (win ++ swin ++ bit shf ++ bit sc ++ e ++ os.code ++ 0#7)
  | .tst h t a c win swin shf sc os => encLX 0x601 h 0 a.code (Opnd.tile t).code c.code 0 0 (win ++ swin ++ bit shf ++ bit sc ++ 0#5 ++ os.code ++ 0#7)
  | .mload h t m c shf sp => encLX 0x602 h 0 (Opnd.tile t).code (if sp = 0 then 0 else (Opnd.tile m).code) c.code 0 0 (bit shf ++ sp ++ 0#21)
  | .mloop h acc a rl w c dstep sa sw sp mt steps r => encLX 0x603 h (if dstep then (Opnd.acc acc).code else 0) (Opnd.tile a).code (if rl then (Opnd.tile w).code else 0) c.code r.code 0 (bit dstep ++ bit sa ++ bit sw ++ sp ++ 0#1 ++ mt ++ 0#2 ++ steps)
  | .mdrain h k d pf fin r sat => encLX 0x604 h (match k with | .acc => (Opnd.acc d).code | .cvt => (Opnd.tile d).code | .port => 0) 0 0 0 r.code (bit sat) (k.code ++ bit fin ++ pf ++ 0#17)
  | .mdrainRaw h a fin win os => encLX 0x604 h 0 a.code 0 0 0 0 (3#2 ++ bit fin ++ 0#4 ++ win ++ os.code ++ 0#10)
  | .mzero h fin => encLX 0x605 h 0 0 0 0 0 0 (0#2 ++ bit fin ++ 0#21)
  | .msave h a win os => encLX 0x606 h 0 a.code 0 0 0 0 (0#7 ++ win ++ os.code ++ 0#10)
  | .mrestImg h a win os => encLX 0x607 h 0 a.code 0 0 0 0 (0#7 ++ win ++ os.code ++ 0#10)
  | .mrestRaw h a win os => encLX 0x607 h 0 a.code 0 0 0 0 (0x40#7 ++ win ++ os.code ++ 0#10)
  | .sadd h d a b reg sat rb tiles => encLX 0x700 h (ereg d) (ereg a) b 0 0 (bit sat) (0#3 ++ bit reg ++ bit rb ++ 0#3 ++ tiles)
  | .smax h d a b rb tiles => encLX 0x701 h (ereg d) (ereg a) (ereg b) 0 0 0 (0#4 ++ bit rb ++ 0#3 ++ tiles)
  | .smin h d a b rb tiles => encLX 0x702 h (ereg d) (ereg a) (ereg b) 0 0 0 (0#4 ++ bit rb ++ 0#3 ++ tiles)
  | .srebias h d a k sat rb tiles => encLX 0x703 h (ereg d) (ereg a) k 0 0 (bit sat) (0#4 ++ bit rb ++ 0#3 ++ tiles)
  | .smov h d m a k rb tiles => encLX 0x704 h (ereg d) (0#2 ++ a) (0#6 ++ k) 0 0 0 (m.code ++ bit rb ++ 0#3 ++ tiles)
  | .sbind h d tiles => encLX 0x705 h (ereg d) 0 0 0 0 0 (0#8 ++ tiles)
  | .ssave h a win shf t os => encLX 0x706 h 0 a.code 0 0 0 0 (win ++ bit shf ++ t ++ os.code ++ 0#12)
  | .srest h a win shf t os => encLX 0x707 h 0 a.code 0 0 0 0 (win ++ bit shf ++ t ++ os.code ++ 0#12)
  | _ => 0

/-- The fields of a scalar word, read by the format of its opcode (R153, R162). -/
def scalarCandidate (w : W32) : Option Instr :=
  let d := w.extractLsb' 18 6
  let a := w.extractLsb' 12 6
  let b := w.extractLsb' 6 6
  let fn := w.extractLsb' 0 6
  let imm := w.extractLsb' 0 12
  let off := w.extractLsb' 0 20
  let dp := w.extractLsb' 21 3
  let dq := w.extractLsb' 18 3
  let win := w.extractLsb' 9 3
  let z := Size.ofCode (w.extractLsb' 6 3)
  let r := Order.ofCode (w.extractLsb' 2 4)
  let nb := flag (w.extractLsb' 1 1)
  let ct := flag (w.extractLsb' 4 1)
  let q := w.extractLsb' 5 7
  match (w.extractLsb' 24 8).toNat with
  | 0x01 => some (.add d a b)
  | 0x02 => some (.sub d a b)
  | 0x03 => some (.mul d a b)
  | 0x04 => some (.mulh d a b (flag (fn.extractLsb' 0 1)))
  | 0x05 => some (.div d a b (flag (fn.extractLsb' 0 1)))
  | 0x06 => some (.rem d a b (flag (fn.extractLsb' 0 1)))
  | 0x07 => some (.and d a b)
  | 0x08 => some (.or d a b)
  | 0x09 => some (.xor d a b)
  | 0x0A => some (.shl d a b)
  | 0x0B => some (.shr d a b)
  | 0x0C => some (.sra d a b)
  | 0x0D => some (.min d a b (flag (fn.extractLsb' 0 1)))
  | 0x0E => some (.max d a b (flag (fn.extractLsb' 0 1)))
  | 0x0F => some (.sel d a b (flag (fn.extractLsb' 3 1)) (fn.extractLsb' 0 3))
  | 0x11 => some (.addi d a imm)
  | 0x13 => some (.muli d a imm)
  | 0x17 => some (.andi d a imm)
  | 0x18 => some (.ori d a imm)
  | 0x19 => some (.xori d a imm)
  | 0x1A => some (.shli d a fn)
  | 0x1B => some (.shri d a fn)
  | 0x1C => some (.srai d a fn)
  | 0x1D => some (.mini d a imm)
  | 0x1E => some (.maxi d a imm)
  | 0x1F => if a = 0 then some (.limSet d imm) else some (.limCat d imm)
  | 0x20 => some (.cmp (d.extractLsb' 0 3) a b (.ofCode (fn.extractLsb' 0 3)))
  | 0x21 => some (.cmpi (.ofCode (d.extractLsb' 3 3)) (d.extractLsb' 0 3) a imm)
  | 0x22 => some (.plog (d.extractLsb' 0 3) (a.extractLsb' 0 3) (b.extractLsb' 0 3) (fn.extractLsb' 0 4))
  | 0x23 => some (.ext d a b (flag (fn.extractLsb' 0 1)))
  | 0x24 => some (.ins d a b)
  | 0x25 => some (.clz d a)
  | 0x26 => some (.popc d a)
  | 0x27 => some (.brev d a)
  | 0x28 => some (.mtc a fn)
  | 0x29 => some (.mfc d fn)
  | 0x2A => some (.pget d)
  | 0x2B => some (.pset a)
  | 0x30 => some (.br (flag (w.extractLsb' 23 1)) (w.extractLsb' 20 3) off)
  | 0x31 => some (.jmp off)
  | 0x32 => some (.call off)
  | 0x33 => some (.jmpr a)
  | 0x34 => some (.callr d a)
  | 0x35 => some (.lrun off)
  | 0x36 => some (.lrunr a)
  | 0x37 => some .exit
  | 0x38 => if fn = 0 then some (.yieldQ d a b) else some (.yieldCtr d a b)
  | 0x39 => some (.trap imm)
  | 0x3A => if fn = 0 then some (.hretResume a) else if fn = 1 then some (.hretVacate a) else some (.hretEnd a)
  | 0x3B => some .nop
  | 0x40 => some (.ld d a win z r)
  | 0x41 => some (.st d a win z r)
  | 0x42 => some (.atom d a (.ofCode (w.extractLsb' 7 5)) (.ofCode (w.extractLsb' 4 3)) (.ofCode (w.extractLsb' 0 4)))
  | 0x43 => if fn = 0x10 then some .fencePt else some (.fenceMem (.ofCode (fn.extractLsb' 0 4)))
  | 0x44 => some (.invpg d a b (.ofCode (fn.extractLsb' 0 3)))
  | 0x45 => some (.wset (d.extractLsb' 0 3) a)
  | 0x46 => some (.qld dp dq a win z r nb)
  | 0x47 => some (.qpush dp dq a z nb)
  | 0x48 => some (.ypop dp (d.extractLsb' 0 2) a nb)
  | 0x49 => some (.shld d a z r)
  | 0x4A => some (.shst d a z r)
  | 0x50 => some (.cpy d a q ct (flag (w.extractLsb' 3 1)) (.ofCode (w.extractLsb' 0 2)))
  | 0x51 => some (.tcpy d a q ct (flag (w.extractLsb' 3 1)) (.ofCode (w.extractLsb' 0 2)))
  | 0x52 => some (.gath d a q ct (flag (w.extractLsb' 3 1)) (.ofCode (w.extractLsb' 0 2)))
  | 0x53 => some (.mcast d a q ct (flag (w.extractLsb' 3 1)))
  | 0x54 => some (.cmd d a q ct)
  | 0x55 => some (.chain a b)
  | 0x56 => if fn = 0 then some (.publSlot d a) else some (.publBuf d a)
  | 0x57 => match (fn.extractLsb' 3 3).toNat with
    | 0 => some (.seqRd d a (flag (fn.extractLsb' 2 1)))
    | 2 => some (.seqAdd d a b)
    | 4 => some (.seqSet (d.extractLsb' 0 3) a b (flag (fn.extractLsb' 2 1)))
    | _ => some (.seqSetForce (d.extractLsb' 0 3) a b (flag (fn.extractLsb' 2 1)))
  | 0x58 => some (.lkup d a)
  | 0x59 => if fn = 0 then some (.slotInst a b) else if fn = 1 then some (.slotEvict d a) else some (.slotRd d a)
  | 0x60 => some (.bar a (.ofCode (fn.extractLsb' 4 2)) (fn.extractLsb' 0 4))
  | 0x61 => some (.rbar a (.ofCode (fn.extractLsb' 4 2)) (fn.extractLsb' 0 2))
  | 0x62 => some (.dbar (.ofCode (fn.extractLsb' 4 2)) (fn.extractLsb' 0 2))
  | 0x63 => some (.pbar (.ofCode (fn.extractLsb' 4 2)) (fn.extractLsb' 0 2))
  | 0x64 => some (.watch d a win z r)
  | 0x65 => some (.park d a)
  | 0x66 => some (.prio d (flag (a.extractLsb' 0 1)) (w.extractLsb' 0 2))
  | 0x67 => some (.schrd d (.ofCode fn))
  | 0x70 => match fn.toNat with
    | 0 => some (.gangPin d a)
    | 1 => some (.gangUnpin d a b)
    | 2 => some (.gangHome d a b)
    | 3 => some (.gangReq d a b)
    | 4 => some (.gangRes d a)
    | 5 => some (.gangCxl d a)
    | _ => some (.gangRd d a b)
  | 0x71 => match fn.toNat with
    | 0 => some (.kvcCmt d a b)
    | 1 => some (.kvcRsv d a b)
    | 2 => some (.kvcPurge d a b)
    | _ => some (.kvcEnd d a b)
  | 0x72 => some (.vgen d a b)
  | 0x73 => some (.launch d a)
  | 0x74 => if w.extractLsb' 0 4 = 0 then some (.collRun d a ct) else some (.collPut d a ct)
  | 0x75 => some (.samp d a ct (flag (w.extractLsb' 1 1)) (flag (w.extractLsb' 0 1)))
  | _ => none

/-- The fields of a lane word, read by the format of its opcode (R158, R161, R163). -/
def laneCandidate (w : BitVec 96) : Option Instr :=
  let h := LHdr.ofCode (w.extractLsb' 76 8)
  let d := Opnd.ofCode (w.extractLsb' 64 12)
  let a := Opnd.ofCode (w.extractLsb' 52 12)
  let b := Opnd.ofCode (w.extractLsb' 40 12)
  let c := Opnd.ofCode (w.extractLsb' 28 12)
  let d4 := w.extractLsb' 64 4
  let a4 := w.extractLsb' 52 4
  let b4 := w.extractLsb' 40 4
  let d5 := w.extractLsb' 64 5
  let a5 := w.extractLsb' 52 5
  let b5 := w.extractLsb' 40 5
  let imm := w.extractLsb' 8 32
  let r := Rnd.ofCode (w.extractLsb' 25 3)
  let sat := flag (w.extractLsb' 24 1)
  let ty := LTy.ofCode (w.extractLsb' 20 4)
  let ty2 := LTy.ofCode (w.extractLsb' 16 4)
  let w64 := ty == .n64
  let bf := ty == .bf16
  let fn := w.extractLsb' 8 8
  let pd := w.extractLsb' 5 3
  let pw := flag (w.extractLsb' 4 1)
  let z := Size.ofCode (w.extractLsb' 22 3)
  let m : LMem := { win := w.extractLsb' 25 3, os := Order.ofCode (w.extractLsb' 18 4), shf := flag (w.extractLsb' 16 1),
                    off := w.extractLsb' 0 16 }
  let x := fun (lo n : Nat) => w.extractLsb' lo n
  match (w.extractLsb' 84 12).toNat with
  | 0x001 => some (.lnop h)
  | 0x002 => some (.lend h)
  | 0x003 => match (w.extractLsb' 0 4).toNat with | 0 => some (.lbr h imm) | 1 => some (.lbrC h imm) | _ => some (.lbrJ h imm)
  | 0x004 => if fn = 0 then some (.lsync h) else some (.lsyncC h)
  | 0x005 => some (.lexit h)
  | 0x006 => some (.lfence h m.os)
  | 0x007 => some (.vote h d (.ofCode (fn.extractLsb' 4 3)) (flag (fn.extractLsb' 3 1)) (fn.extractLsb' 0 3) pd)
  | 0x008 => some (.shfl h d a b w64 (.ofCode (fn.extractLsb' 0 2)) pw pd)
  | 0x009 => some (.perm h d a b (.ofCode (fn.extractLsb' 0 2)))
  | 0x00A => some (.mov h d a b w64 (.ofCode (fn.extractLsb' 0 2)))
  | 0x00B => some (.movi h d imm (.ofCode (w.extractLsb' 0 4)))
  | 0x00C => some (.lanePlog h pd (fn.extractLsb' 4 3) (w.extractLsb' 16 3) (fn.extractLsb' 0 4))
  | 0x100 => some (.fadd h d a b r sat)
  | 0x101 => some (.fsub h d a b r sat)
  | 0x102 => some (.fmul h d a b r sat)
  | 0x103 => some (.ffma h d a b c r sat)
  | 0x104 => some (.fmin h d a b)
  | 0x105 => some (.fmax h d a b)
  | 0x106 => some (.fabs h d a)
  | 0x107 => some (.fneg h d a)
  | 0x108 => some (.fcmp h d a b (.ofCode (fn.extractLsb' 0 3)) pd)
  | 0x109 => some (.fsel h d a b (flag (fn.extractLsb' 3 1)) (fn.extractLsb' 0 3))
  | 0x110 => some (.hadd h d a b r sat bf)
  | 0x111 => some (.hsub h d a b r sat bf)
  | 0x112 => some (.hmul h d a b r sat bf)
  | 0x113 => some (.hfma h d a b c r sat bf)
  | 0x114 => some (.hmin h d a b bf)
  | 0x115 => some (.hmax h d a b bf)
  | 0x116 => some (.hcmp h d a b (.ofCode (fn.extractLsb' 0 3)) (.ofCode (fn.extractLsb' 3 2)) pw pd bf)
  | 0x200 => some (.iadd h d a b ty sat)
  | 0x201 => some (.isub h d a b ty sat)
  | 0x202 => some (.imul h d a b ty)
  | 0x203 => some (.imulh h d a b ty)
  | 0x204 => some (.imad h d a b c ty)
  | 0x205 => some (.iand h d a b w64)
  | 0x206 => some (.ior h d a b w64)
  | 0x207 => some (.ixor h d a b w64)
  | 0x208 => some (.ishl h d a b w64)
  | 0x209 => some (.ishr h d a b w64)
  | 0x20A => some (.isra h d a b (ty == .i64))
  | 0x20B => some (.imin h d a b ty)
  | 0x20C => some (.imax h d a b ty)
  | 0x20D => some (.icmp h d a b ty (.ofCode (fn.extractLsb' 0 3)) pd)
  | 0x20E => some (.isel h d a b w64 (flag (fn.extractLsb' 3 1)) (fn.extractLsb' 0 3))
  | 0x20F => some (.lanePopc h d a w64)
  | 0x210 => some (.laneClz h d a w64)
  | 0x211 => some (.bfe h d a b ty)
  | 0x212 => some (.bfi h d a b c w64)
  | 0x300 => some (.cvt h d a b r sat ty ty2 (fn.extractLsb' 3 3) (fn.extractLsb' 0 3))
  | 0x301 => some (.cvts h d a b c r sat ty ty2 (fn.extractLsb' 0 5) (fn.extractLsb' 5 3))
  | 0x302 => some (.pack h d a b ty (fn.extractLsb' 0 3))
  | 0x303 => some (.unpack h d a ty (fn.extractLsb' 0 3))
  | 0x304 => some (.fxcvt h d a r)
  | 0x400 => some (.rcp h d a r)
  | 0x401 => some (.rsq h d a r)
  | 0x402 => some (.sqrt h d a r)
  | 0x403 => some (.exp2 h d a r)
  | 0x404 => some (.log2 h d a r)
  | 0x500 => some (.lld h d a z m)
  | 0x501 => some (.lst h a b z m)
  | 0x502 => some (.laneAtom h d a b c (.ofCode (w.extractLsb' 22 3)) (.ofCode (w.extractLsb' 11 5)) { m with off := 0#5 ++ w.extractLsb' 0 11 })
  | 0x600 => some (.tld h d4 a c (x 21 3) (x 18 3) (flag (x 17 1)) (flag (x 16 1)) (x 11 5) (.ofCode (x 7 4)))
  | 0x601 => some (.tst h b4 a c (x 21 3) (x 18 3) (flag (x 17 1)) (flag (x 16 1)) (.ofCode (x 7 4)))
  | 0x602 => some (.mload h a4 (if x 21 2 = 0 then 0 else b4) c (flag (x 23 1)) (x 21 2))
  | 0x603 => some (.mloop h (if x 23 1 = 1 then d4 else 0) a4 (w.extractLsb' 40 12 != 0) (if w.extractLsb' 40 12 = 0 then 0 else b4) c
      (flag (x 23 1)) (flag (x 22 1)) (flag (x 21 1)) (x 19 2) (x 14 4) (x 0 12) r)
  | 0x604 => if x 22 2 = 3 then some (.mdrainRaw h a (flag (x 21 1)) (x 14 3) (.ofCode (x 10 4)))
    else some (.mdrain h (.ofCode (x 22 2)) (if x 22 2 = 2 then 0 else d4) (x 17 4) (flag (x 21 1)) r sat)
  | 0x605 => some (.mzero h (flag (x 21 1)))
  | 0x606 => some (.msave h a (x 14 3) (.ofCode (x 10 4)))
  | 0x607 => if x 23 1 = 0 then some (.mrestImg h a (x 14 3) (.ofCode (x 10 4))) else some (.mrestRaw h a (x 14 3) (.ofCode (x 10 4)))
  | 0x700 => some (.sadd h d5 a5 (w.extractLsb' 40 12) (flag (x 20 1)) sat (flag (x 19 1)) (x 0 16))
  | 0x701 => some (.smax h d5 a5 b5 (flag (x 19 1)) (x 0 16))
  | 0x702 => some (.smin h d5 a5 b5 (flag (x 19 1)) (x 0 16))
  | 0x703 => some (.srebias h d5 a5 (w.extractLsb' 40 12) sat (flag (x 19 1)) (x 0 16))
  | 0x704 => some (.smov h d5 (.ofCode (x 20 4)) (w.extractLsb' 52 10) (w.extractLsb' 40 6) (flag (x 19 1)) (x 0 16))
  | 0x705 => some (.sbind h d5 (x 0 16))
  | 0x706 => some (.ssave h a (x 21 3) (flag (x 20 1)) (x 16 4) (.ofCode (x 12 4)))
  | 0x707 => some (.srest h a (x 21 3) (flag (x 20 1)) (x 16 4) (.ofCode (x 12 4)))
  | _ => none

/-- Decodes a scalar word (R164). -/
def decodeScalar (w : W32) : Except DecodeError Instr :=
  match scalarCandidate w with
  | none => .error .unassigned
  | some i => if i.wf && encodeScalar i == w then .ok i else .error .badFields

/-- Decodes a lane word (R164). -/
def decodeLane (w : BitVec 96) : Except DecodeError Instr :=
  match laneCandidate w with
  | none => .error .unassigned
  | some i => if i.wf && encodeLane i == w then .ok i else .error .badFields

/-- Bytes as one number, the lowest address least significant (R4). -/
def bytesToNat : List Byte → Nat
  | [] => 0
  | b :: t => b.toNat + 256 * bytesToNat t

/-- The `n` bytes of a number, the least significant first (R4). -/
def natToBytes : Nat → Nat → List Byte
  | 0, _ => []
  | n + 1, v => BitVec.ofNat 8 v :: natToBytes n (v / 256)

/-- Decodes the bytes of one word: 4 for the scalar stream, 12 for the lane stream (R152). -/
def decode (l : List Byte) : Except DecodeError Instr :=
  if l.length = 4 then decodeScalar (BitVec.ofNat 32 (bytesToNat l))
  else if l.length = 12 then decodeLane (BitVec.ofNat 96 (bytesToNat l))
  else .error .badLength

/-- The row is an instruction of the scalar stream. -/
def Instr.isScalar (i : Instr) : Bool := encodeScalar i != 0
/-- The row is an instruction of the lane stream. -/
def Instr.isLane (i : Instr) : Bool := encodeLane i != 0

/-- The bytes of a well-formed instruction, as memory holds them (R4, R152). -/
def encode (i : Instr) : List Byte :=
  if i.isScalar then natToBytes 4 (encodeScalar i).toNat else natToBytes 12 (encodeLane i).toNat

/-- The instruction that a word of the opcode table decodes to. Rows of 32 bits are scalar words; longer rows, and rows
whose words the table does not give, are lane words. -/
def decodeTableWord (nbits w : Nat) : Option Instr :=
  match decode (natToBytes (if nbits ≤ 32 then 4 else 12) w) with
  | .ok i => some i
  | .error _ => none

end Sys2Proof
end

