-- ==== Sys2Proof/Machine/State.lean ====
section
/-! DEFINITION. The state of the machine as plain data, and the state after reset. -/

namespace Sys2Proof

/-- The core of a group. -/
def Gid.core (g : Gid) : BitVec 10 := g.extractLsb' 6 10
/-- The slot of a group. -/
def Gid.slot (g : Gid) : BitVec 6 := g.extractLsb' 0 6
/-- The die of a group. -/
def Gid.die (g : Gid) : BitVec 3 := g.extractLsb' 13 3
/-- The place of a group. -/
def Gid.of (c : BitVec 10) (sl : BitVec 6) : Gid := c ++ sl

end Sys2Proof

namespace Sys2Proof.Machine

/-- Why the machine stops. -/
inductive Fault where
  /-- Raised by `step` when `State.agenda` names, as an event, a row that an instruction stream runs. Safe: no such agenda
  stands for anything the hardware does (log 3). -/
  | notAnEvent
deriving DecidableEq, Repr

/-- Why an instruction has no meaning here. -/
inductive Refusal where
  /-- Raised by an arm of `exec` whose row has no meaning yet. Safe: nothing is claimed of it. -/
  | notModelled (mnemonic : String)
deriving DecidableEq, Repr

/-- Cause codes of traps and fault records (R315), each with its code in `Cause.code`. -/
inductive Cause where
  | xlat (c : BitVec 4)
  | illegalInstr | privInstr | pcAlign | lrunRange | operandRange
  | regRange | descFormat | staleBinding | scaleFormat
  | shelfRange | shelfInvalid | shelfFull
  | atomAlign | atomRegion | fxRange | oaddType | oaddForeign | oaddFull
  | watchRegion | barCount | rbarTarget | barResident | queueDead | queueCompact
  | divStack | lbrSplit | lbrRange | compactState | compactMismatch
  | mxDiverged | arrayFrozen | mxFormat | sparseMask | chainMismatch
  | detOrder | detSched | atomDet | dataError | userTrap | logitBudget | preempt | restore
deriving DecidableEq, Repr

/-- A translation window (R27). `lvl` and `mig` are the page size and the mig bit of the leaf that set it: the rules on
overlap and migration need them, and the saved image has no place for them (R29, R30, R35; log 75). -/
structure Window where
  base  : W64 := 0
  pa    : W64 := 0
  limit : BitVec 34 := 0
  stale : Bool := false
  pol   : BitVec 2 := 0
  sys   : Bool := false
  d     : Bool := false
  x     : Bool := false
  w     : Bool := false
  lvl   : BitVec 2 := 0
  mig   : Bool := false
deriving DecidableEq, Repr

/-- An entry of the divergence stack (R265). -/
structure DivEntry where
  join : Bool
  pc   : BitVec 20
  mask : W64
deriving DecidableEq, Repr

/-- A result that waits in the SFU or the conversion queue (R248): destination, executing threads, the words. -/
structure Queued where
  d    : Opnd
  w64  : Bool
  uni  : Bool
  mask : W64
  lo   : VReg
  hi   : VReg
deriving DecidableEq, Repr

/-- A tile load whose streams have not landed (R107, R280). -/
structure PendTld where
  tile   : BitVec 4
  sc     : Bool
  e      : BitVec 5
  rows   : List Byte
  scales : BitVec 512
deriving DecidableEq, Repr

/-- An operand log entry (R320), and the first record of its deferred fault (R322, R325). `scrub`: no fault was deferred; the
instruction waits for a scrub (R37; log 76), or one of the array for the group's own loop or drain (R275; log 104). `wmask`: the threads that take the result of a uniform access, if the device knows
(R254; log 76). -/
structure OpLog where
  addr  : W64
  word  : BitVec 96
  lane  : Bool
  valid : Bool
  exec  : W64
  scalars : BitVec 256
  srcA  : VReg
  regd  : BitVec 8192
  record : BitVec 512 := 0
  scrub : Bool := false
  wmask : W64 := 0
deriving DecidableEq, Repr

/-- What a yielded group waits for (R83, R201, R373). -/
inductive YieldOn where
  | queue (q : BitVec 7) (n : W64)
  | ctr (c : BitVec 8) (n : W64)
  | coll (desc key : W64)
  | put (dst src len : W64)
deriving DecidableEq, Repr

/-- A yield: what it waits for, the register that takes the status, whether the status is a command's, the status that has
ended the wait and, for a `samp`, the winner's index and key (R82, R83, R374). -/
structure YieldRec where
  on  : YieldOn
  d   : SReg
  cmd : Bool
  got : Option (BitVec 8) := none
  res : Option (W64 × W64) := none
deriving DecidableEq, Repr

/-- How a group stands to the scheduler (R83, R202, R225, R308). A parked group's timeout counts from the cycle `since`. -/
inductive RunState where
  | running
  | parking (d : SReg) (timeout : W64)
  | parked (d : SReg) (timeout : W64) (since : W64)
  | yielding (y : YieldRec)
  | yielded (y : YieldRec)
  | exiting
deriving DecidableEq, Repr

/-- A barrier as one group names it (R222): 0 block, 1 rectangle, 2 die, 3 package, with its index. -/
structure BarId where
  kind : BitVec 2
  idx  : BitVec 4
  rect : BitVec 16
deriving DecidableEq, Repr

/-- The wait of a scalar stream at its instruction (R206, R214, R221, R373). `d` is the register that takes the
status; `n` numbers the publishes of a die (R85). A wait that is `done` has ended, and its results are written when the stream moves. -/
inductive SWait where
  | none
  | invpg (pasid : BitVec 20) (va len : W64) (sc : Scope)
  | publSlot (slot : BitVec 8) (d : SReg) | publBuf (b : BitVec 8) (d : SReg) (n : Nat)
  | bar (b : BarId) (phase : Nat)
  | coll (desc key : W64) (d : SReg) | put (dst src len : W64) (d : SReg)
  | done (d : SReg) (st : BitVec 8) (res : Option (W64 × W64))
deriving DecidableEq, Repr

/-- The wait of a lane stream at `lbr.c` or `lsync.c` (R270, R273). -/
inductive CWait where
  | none
  | atLbr (w tgt : BitVec 20) (take : W64)
  | atSync (w : BitVec 20)
deriving DecidableEq, Repr

/-- What the device keeps of an interrupted program beside its image (R317, R330): run state, waits, the parts of a shared
group, whether it is inside a region, its windows with what the image has no place for, its address space, and the core's cycle
when it was interrupted. -/
structure Kept where
  st     : RunState := .running
  wait   : SWait := .none
  cwait  : CWait := .none
  parts  : List (W64 × BitVec 20) := []
  partAt : Option (BitVec 20) := none
  inRegion : Bool := false
  win    : Vector Window 8 := Vector.replicate 8 {}
  pasid  : BitVec 20 := 0
  since  : W64 := 0
deriving DecidableEq, Repr

/-- A trap raised and not yet taken (R316). -/
structure PendTrap where
  cause : Cause
  record : BitVec 512
  pc    : W64
  lpc   : BitVec 20
deriving DecidableEq, Repr

/-- The register space and the scale register file of a group (R89 to R94, R103). `bad` and `ebad`: the 4-byte words of register
space and the scale registers that could not be corrected (R335). -/
structure RegSpace where
  declared : BitVec 18 := 0
  granules : BitVec 6 := 0
  rows     : Sparse 2048 := []
  vview    : W64 := 0
  tview    : W64 := 0
  aview    : W64 := 0
  tdesc    : Vector W64 16 := Vector.replicate 16 0
  e        : Vector (BitVec 512) 32 := Vector.replicate 32 0
  etag     : Vector (BitVec 12) 32 := Vector.replicate 32 0
  drowsy   : W32 := 0
  bad      : List Nat := []
  ebad     : W32 := 0
deriving DecidableEq, Repr

/-- Physical lane j holds vlane 64 * gidx + j (R269): bit 10 valid, bits 9:0 vlane. -/
def identityRemap (gidx : BitVec 4) : Vector (BitVec 11) 64 :=
  Vector.ofFn (fun j : Fin 64 => BitVec.ofNat 11 (1024 + 64 * gidx.toNat + j.val))

/-- The lane stream of a group (R169, R248, R264 to R273). `parts` are the parts of a shared group that have not begun, and
`partAt` is the word of the `lsync.c` where a part that has ended arrived (R270, R273). -/
structure Lane where
  lbase  : W64 := 0
  lwords : W32 := 0
  runQ   : List (BitVec 20) := []
  lpc    : BitVec 20 := 0
  active : Bool := false
  run    : W64 := 0
  exited : W64 := 0
  stack  : List DivEntry := []
  remap  : Vector (BitVec 11) 64 := identityRemap 0
  rs     : Vector (BitVec 19) 64 := Vector.replicate 64 0
  drainRs : BitVec 19 := 0
  p      : Vector W64 7 := Vector.replicate 7 0
  sfuQ   : List Queued := []
  cvtQ   : List Queued := []
  tlds   : List PendTld := []
  inRegion : Bool := false
  parts  : List (W64 × BitVec 20) := []
  partAt : Option (BitVec 20) := none
  cwait  : CWait := .none
  boost  : Bool := false
  passed : BitVec 7 := 0
deriving DecidableEq, Repr

/-- The handler state of a group (R326), what a trap leaves to take, and what is kept of the interrupted program (R317). -/
structure Handler where
  on    : Bool := false
  area  : W64 := 0
  cause : BitVec 8 := 0
  pend  : Option PendTrap := none
  kept  : Kept := {}
  halted : Bool := false
deriving DecidableEq, Repr

/-- One group. -/
structure Group where
  live   : Bool := false
  s      : Vector W64 64 := Vector.replicate 64 0
  sp     : BitVec 8 := 0
  pc     : W64 := 0
  win    : Vector Window 8 := Vector.replicate 8 {}
  q      : Vector (List VReg) 8 := Vector.replicate 8 []
  y      : Vector (List W64) 4 := Vector.replicate 4 []
  rg     : RegSpace := {}
  ln     : Lane := {}
  h      : Handler := {}
  part   : BitVec 3 := 0
  launch : W32 := 0
  block  : W32 := 0
  gidx   : BitVec 4 := 0
  pasid  : BitVec 20 := 0
  priv   : Bool := false
  cls    : BitVec 2 := 0
  st     : RunState := .running
  wait   : SWait := .none
  mon    : Option W64 := none
  fired  : Bool := false
  restored : Bool := false
  slog   : Option OpLog := none
  llog   : Option OpLog := none
  sfetch : Option (BitVec 512) := none
  lfetch : Option (BitVec 512) := none
  arrived : List (BarId × Nat) := []
  boost  : Bool := false
  passed : BitVec 7 := 0
deriving DecidableEq, Repr

/-- A weight buffer of an array (R133). -/
structure WBuf where
  latched : Bool := false
  fmt     : BitVec 4 := 0
  sparse  : BitVec 2 := 0
  ncols   : Nat := 0
  rowLen  : Nat := 0
  data    : Sparse 3072 := []
  masks   : Sparse 2048 := []
  scales  : BitVec 512 := 0
deriving DecidableEq, Repr

/-- A loop of the sequencer (R139). `es`, `tview` and `aview`: the scale registers and the views as they stand at the `mloop`'s
place in program order; `ebad`: those that could not be corrected there (R137, R139, R141, R147). -/
structure Loop where
  addr   : W64
  word   : BitVec 96
  steps  : Nat
  done   : Nat
  aDesc  : W64
  aTile  : BitVec 4
  aShf   : Option W32
  reload : Bool
  wDesc  : W64
  wTile  : BitVec 4
  wShf   : Option W32
  mDesc  : W64
  mTile  : BitVec 4
  sp     : BitVec 2
  incA   : BitVec 12
  incW   : BitVec 12
  incEa  : BitVec 5
  incEb  : BitVec 5
  dstep  : Bool
  acc    : BitVec 4
  rnd    : Rnd
  es     : Vector (BitVec 512) 32 := Vector.replicate 32 0
  ebad   : W32 := 0
  tview  : W64 := 0
  aview  : W64 := 0
deriving DecidableEq, Repr

/-- Mode of an array (R133, R149). -/
inductive MxMode where | idle | running | frozen
deriving DecidableEq, Repr

/-- The matrix array of a core (R133). Chains are kept as R151 lays them out, chain (m, n) at 32 m + n. `outQ` holds the rows of a
drain that waits for the port, and `outFin` whether that drain releases the array (R144); `line`: the slots of the groups that
wait for the array, the earliest first, and `reqs` of those of them and of the holder that wait for a token (R311). -/
structure MxArray where
  holder : Option (BitVec 6) := none
  mode   : MxMode := .idle
  token  : Bool := false
  act    : Bool := false
  buf0   : WBuf := {}
  buf1   : WBuf := {}
  chains : Sparse 128 := []
  live   : Bool := false
  kind   : Bool := false
  m      : Nat := 0
  ncols  : Nat := 0
  ea     : BitVec 512 := 0
  eb     : BitVec 512 := 0
  loop   : Option Loop := none
  err    : Option (BitVec 8 × BitVec 13) := none
  port   : List (List Byte) := []
  outQ   : List (List Byte) := []
  outFin : Bool := false
  line   : List (BitVec 6) := []
  reqs   : List (BitVec 6) := []
  waiting : Bool := false
  passed : BitVec 7 := 0
deriving DecidableEq, Repr

/-- A translation held by a core's TLB (R26): the leaf entry as read, its level, address space and page. -/
structure TlbEntry where
  pasid : BitVec 20
  lvl   : BitVec 2
  page  : Nat
  leaf  : W64
deriving DecidableEq, Repr

/-- One core. -/
structure Core where
  rfDrowsy : W64 := 0
  off    : Bool := false
  cyc    : W64 := 0
  quotaA : Vector W64 8 := Vector.replicate 8 0
  quotaB : Vector W64 8 := Vector.replicate 8 0
  tags   : Sparse 64 := []
  tlb    : List TlbEntry := []
  mx     : MxArray := {}
  temp   : BitVec 16 := 0
  droop  : BitVec 16 := 0
deriving DecidableEq, Repr

/-- How far a command is (R75, R81, R87). -/
inductive CmdState where
  | accepted | begun | halted (cause : BitVec 8) | ended (st : BitVec 8)
deriving DecidableEq, Repr

/-- An accepted command of a copy queue (R74, R77): number, record, who issued it. `took`: its shelf slots have a shadow for
it, those in `targets` (core, block, slot); `started`: its checks at the beginning have passed; `begun`: it has begun, though its record
or its dimension table may have halted it (R87); `held`: the publishes of its buffers that began before it was accepted (R85); `hit`: its trigger has been reached (R81); `dims`: its dimension table. -/
structure Cmd where
  n      : W64 := 0
  words  : BitVec 512 := 0
  recAt  : Option W64 := none
  st     : CmdState := .accepted
  gid    : Gid
  part   : BitVec 3
  launch : W32
  block  : W32
  pasid  : BitVec 20
  priv   : Bool
  progress : Nat := 0
  cancel : Bool := false
  took   : Bool := false
  started : Bool := false
  begun  : Bool := false
  held   : List Nat := []
  hit    : Bool := false
  targets : List (BitVec 10 × W32 × Nat) := []
  dims   : List (BitVec 192) := []
deriving DecidableEq, Repr

/-- A copy queue (R75, R76, R79). `ended` keeps the statuses of commands that ended with an error; `appends` holds the chain
entries appended and not yet fetched with who appended each, `owner` who appended the entry last fetched, `fetchEnd` the status
of an entry abandoned at its fetch that has no place yet (R74, R87), and `line` the groups that wait for a free place, in order of
arrival (R311). -/
structure Queue where
  seqDone : W64 := 0
  seqNext : W64 := 1
  tail    : W64 := 0
  fetch   : W64 := 0
  fetchHalt : BitVec 8 := 0
  fetchEnd : BitVec 8 := 0
  appends : List (W64 × Cmd) := []
  owner   : Option Cmd := none
  lastStatus : BitVec 8 := 0
  lastErr : W64 := 0
  cmds    : List Cmd := []
  ended   : List (W64 × BitVec 8) := []
  line    : List Gid := []
deriving DecidableEq, Repr

/-- One die (R18, R76, R145, R311, R381). `tokQ`: the cores whose arrays wait for a power token, the earliest request first;
`publs`: the publishes of buffers begun; `spoilt`: copies that ended with an error while publishes held them back, each with its
buffer and the numbers of these (R85, R88; log 55). -/
structure Die where
  ptBase   : W64 := 0
  zeroFrame : W64 := 0
  ftzRing  : W64 := 0
  ftzHead  : W32 := 0
  ftzTail  : W32 := 0
  ftzLow   : W32 := 0
  lowPosted : Bool := false
  zeroed   : List W64 := []
  queues   : Tab Queue := []
  ctrs     : Sparse 64 := []
  pbufs    : Sparse 256 := []
  pool     : BitVec 10 := 96
  tokQ     : List (BitVec 10) := []
  portsDown : BitVec 3 := 0
  publs    : Nat := 0
  spoilt   : List (Nat × List Nat) := []
deriving DecidableEq, Repr

/-- A block barrier (R222, R331). -/
structure Bar where
  count : BitVec 5 := 0
  arr   : BitVec 5 := 0
  isOpen : Bool := false
  phase : Nat := 0
deriving DecidableEq, Repr

/-- A rectangle, die or package barrier of a launch (R222): the groups that have arrived in the open phase, by block and gidx,
and the blocks that have. -/
structure WideBar where
  part   : BitVec 3
  launch : W32
  die    : BitVec 3
  id     : BarId
  phase  : Nat
  arrived : List (W32 × BitVec 4)
  fin    : List W32
  failed : Bool
deriving DecidableEq, Repr

/-- A placed block (R69, R300, R331). `cut`: a group of it has ended otherwise than by running to its exit (R356). Its cycle budget counts
from the cycle `begun`, once it has run its first instruction, `ran`, and while no pre-emption has `paused` it; `budget` is what was left
then (R334). -/
structure Block where
  part   : BitVec 3
  launch : W32
  idx    : W32
  core   : BitVec 10
  gids   : List Gid
  slotBase : BitVec 8
  slotCount : BitVec 9
  frames : List (BitVec 8)
  bars   : Vector Bar 16
  begun  : W64
  budget : W64
  cut    : Bool := false
  ran    : Bool := false
  paused : Bool := false
deriving DecidableEq, Repr

/-- A group that pre-emption has saved (R330, R332): its block and core, the slot of its image, and what the device keeps: its
run state and waits, its barrier arrivals, and of its block `cut`, `ran` and how often 2^21 phases of each barrier have passed, which
the image has no place for (R331). -/
structure Saved where
  block : W32
  core  : BitVec 10
  gid   : Gid
  gidx  : BitVec 4
  kept  : Kept
  arrived : List (BarId × Nat)
  cls   : BitVec 2
  holder : Bool
  cut    : Bool := false
  ran    : Bool := false
  phases : List Nat := []
deriving DecidableEq, Repr

/-- An accepted launch (R359 to R361). `pasid`: its interface's at acceptance; `placed` holds each placed block and its core; `succ`:
the successor still to enqueue; `exited` counts the blocks that ran to their exit (R356); `bound` holds, for each open chunk of a bound collective, the coll slot. -/
structure Launch where
  part   : BitVec 3
  id     : W32
  iface  : BitVec 12
  record : BitVec 2048
  kdesc  : BitVec 2048
  grid   : W32
  det    : Bool
  cls    : BitVec 2
  priv   : Bool
  next   : W32
  placed : List (W32 × BitVec 10)
  ended  : W32
  exited : W32 := 0
  status : BitVec 8
  coll   : BitVec 8
  contrib : W64
  bound  : List (BitVec 2 × W32)
  colls  : List (BitVec 2 × W64 × BitVec 512) := []
  saved  : List Saved := []
  succ   : Option (BitVec 2048) := none
  done   : Bool
  passedOver : Nat
  hold   : Bool
  pasid  : BitVec 20 := 0
deriving DecidableEq, Repr

/-- One partition (R323, R324, R362). -/
structure Part where
  fqBase  : W64 := 0
  fqEn    : Bool := false
  fqMsix  : BitVec 8 := 0
  fqLog2  : BitVec 5 := 0
  fqHead  : W32 := 0
  fqTail  : W32 := 0
  mirror  : W64 := 0
  tvec    : W64 := 0
  tlbase  : W64 := 0
  hpasid  : BitVec 20 := 0
  ctxBase : W64 := 0
  preReq  : Bool := false
  preDone : Bool := false
  tlwords : W32 := 0
  waiting : List (BitVec 512) := []
  devQ    : List (BitVec 12 × BitVec 2048) := []
  nextId  : W32 := 0
deriving DecidableEq, Repr

/-- An interface page (R354) and the records that wait for its completion ring (R356). -/
structure Iface where
  subTail : W32 := 0
  subHead : W32 := 0
  cfg     : W64 := 0
  resetting : Bool := false
  cqBase  : W64 := 0
  cqCtl   : W64 := 0
  cqTail  : W32 := 0
  cqHead  : W32 := 0
  tokBase : W64 := 0
  tokCtl  : W64 := 0
  tokTail : W32 := 0
  tokHead : W32 := 0
  slots   : Sparse 64 := []
  unsignalled : Nat := 0
  tokens  : List W64 := []
  records : List (BitVec 256 × BitVec 3 × W32) := []
deriving DecidableEq, Repr

/-- The manifest register block of a partition (R387). -/
structure Mantel where
  acc   : BitVec 512 := 0
  count : W32 := 0
  nonce : BitVec 256 := 0
  done  : Bool := false
  qstatus : BitVec 8 := 0
  sig   : BitVec 912 := 0
  quoting : Option (List Byte) := none
deriving DecidableEq, Repr

/-- An ordered-add contribution (R65). -/
structure Contrib where
  block : W32
  vlane : BitVec 11
  seq   : Nat
  value : W64
deriving DecidableEq, Repr

/-- An open ordered-add window (R65). -/
structure OWin where
  loc    : Nat
  ty     : AtomTy
  part   : BitVec 3
  launch : W32
  cs     : List Contrib
deriving DecidableEq, Repr

/-- A writer-index tag (R67). -/
structure DTag where
  part   : BitVec 3
  launch : W32
  chunk  : Nat
  block  : W32
deriving DecidableEq, Repr

/-- One member's contribution to a collective (R367, R371, R373): its die, its bytes, its issuer. `bound`: the coll slot of a
bound tile. `tok`, `scr`: a `samp.tok` and its record's address. `handler`: a handler issued it. -/
structure CollC where
  die   : BitVec 3
  data  : List Byte
  gid   : Gid
  part  : BitVec 3
  launch : W32
  block : W32
  bound : Option (BitVec 2)
  tok   : Bool
  scr   : W64
  pasid : BitVec 20
  priv  : Bool
  handler : Bool := false
deriving DecidableEq, Repr

/-- A contribution on its way to the root, with the descriptor as its engine read it (R367). -/
structure Send where
  desc  : W64
  key   : W64
  chunk : W32
  words : BitVec 512
  c     : CollC
deriving DecidableEq, Repr

/-- A chunk of a collective's instance at its root (R367, R370): what names it, the address space of its first contribution, its
descriptor and member table, the contributions by rank, the cycle of the instance's first, the status decided, whether it has
completed, and whether its token has been delivered. `late`: the ranks that came after it had completed; `slot`: the token entry
that stands in its token slot and not yet in the ring (R375). -/
structure Coll where
  desc  : W64
  key   : W64
  chunk : W32
  pasid : BitVec 20
  words : BitVec 512
  table : List W64
  cs    : List (BitVec 6 × CollC)
  begun : W64
  status : BitVec 8
  done  : Bool
  token : Bool
  late  : W64 := 0
  slot  : Option W64 := none
deriving DecidableEq, Repr

/-- A redistribution that a `gang.req` began (R346, R347): the record's physical and virtual address, and its issuer's
privilege and partition. -/
structure GangReq where
  scr  : Nat
  va   : W64
  priv : Bool
  part : BitVec 3
deriving DecidableEq, Repr

/-- What moves next (log 3): a stream of a group, or an event row of the opcode table. -/
inductive Move where
  | issue (g : Gid) (lane : Bool)
  | event (i : Instr)
deriving DecidableEq, Repr

/-- The package's own registers (R382 to R390) and the bytes of the module's flash (R384). -/
structure Platform where
  pwrCap  : BitVec 16 := 3600
  pwrNow  : BitVec 16 := 0
  reserve : BitVec 10 := 0
  fwVer   : W32 := 0
  cfgSeq  : BitVec 16 := 0
  tdbg    : BitVec 8 := 0
  sec     : BitVec 2 := 0
  fwHash  : BitVec 512 := 0
  idPub   : BitVec 456 := 0
  attPub  : BitVec 456 := 0
  boots   : W32 := 0
  tenantKey : Option (BitVec 456) := none
  recovery : Bool := false
  dbgData : W64 := 0
  dbgBusy : Bool := false
  dbgStatus : BitVec 8 := 0
  dbgReqs : List (W64 × W64) := []
  flash   : Sparse 8 := []
deriving DecidableEq, Repr

/-- The whole machine. Tables are keyed: groups by core and slot, cores by package-wide number, blocks and launches by
partition, launch and block. `stalls`: the leaves under scrub that an access
has stalled on, by address and level (R36). -/
structure State where
  mem     : Sparse 8
  groups  : Tab Group
  cores   : Tab Core
  dies    : Tab Die
  parts   : Tab Part
  mantels : Tab Mantel
  ifaces  : Tab Iface
  blocks  : List Block
  launches : List Launch
  bars    : List WideBar
  owins   : List OWin
  dtags   : List DTag
  colls   : List Coll
  sends   : List Send
  gangs   : List GangReq
  act     : Sparse 128
  host0   : Sparse 8
  host1   : Sparse 8
  msix    : List (Bool × BitVec 8)
  aer     : List (Bool × BitVec 8)
  badWords : List Nat
  stalls  : List (Nat × Nat)
  tests   : List ErrWord
  plat    : Platform
  agenda  : List Move
  curG    : Gid
  curLane : Bool
  fresh   : Nat
deriving DecidableEq, Repr

/-- R12, R18: the die's shared zero frame. DESIGN CHOICE (log 11): the frame at `hbm_limit`. -/
def resetDie (d : Nat) : Die :=
  { zeroFrame := BitVec.ofNat 64 (d * 2 ^ 49) + Config.hbmLimit }

/-- The eight dies after reset. -/
def resetDies : Tab Die := [(0, resetDie 0), (1, resetDie 1), (2, resetDie 2), (3, resetDie 3),
  (4, resetDie 4), (5, resetDie 5), (6, resetDie 6), (7, resetDie 7)]

/-- The machine right after reset: no group lives, no memory is listed, every register at its reset value (log 4, log 11). -/
def State.reset : State :=
  { mem := [], groups := [], cores := [], dies := resetDies, parts := [], mantels := [], ifaces := [], blocks := [],
    launches := [], bars := [], owins := [], dtags := [], colls := [], sends := [], gangs := [], act := [], host0 := [], host1 := [], msix := [],
    aer := [], badWords := [], stalls := [], tests := [], plat := {}, agenda := [], curG := 0, curLane := false, fresh := 0 }

/-- The group at a place; a place with no group holds the default, whose `live` is false. -/
def State.group (s : State) (g : Gid) : Group := Tab.get {} s.groups g.toNat
def State.setGroup (s : State) (g : Gid) (x : Group) : State := { s with groups := Tab.set s.groups g.toNat x }
/-- The core of a package-wide number (die * 128 + die-local core, R2). -/
def State.core (s : State) (c : BitVec 10) : Core := Tab.get {} s.cores c.toNat
def State.setCore (s : State) (c : BitVec 10) (x : Core) : State := { s with cores := Tab.set s.cores c.toNat x }
def State.die (s : State) (d : BitVec 3) : Die := Tab.get {} s.dies d.toNat
def State.setDie (s : State) (d : BitVec 3) (x : Die) : State := { s with dies := Tab.set s.dies d.toNat x }
def State.part (s : State) (p : BitVec 3) : Part := Tab.get {} s.parts p.toNat
def State.setPart (s : State) (p : BitVec 3) (x : Part) : State := { s with parts := Tab.set s.parts p.toNat x }
def State.mantel (s : State) (p : BitVec 3) : Mantel := Tab.get {} s.mantels p.toNat
def State.setMantel (s : State) (p : BitVec 3) (x : Mantel) : State := { s with mantels := Tab.set s.mantels p.toNat x }
def State.iface (s : State) (i : BitVec 12) : Iface := Tab.get {} s.ifaces i.toNat
def State.setIface (s : State) (i : BitVec 12) (x : Iface) : State := { s with ifaces := Tab.set s.ifaces i.toNat x }
/-- The copy queue `q` of a die. -/
def Die.queue (d : Die) (q : BitVec 7) : Queue := Tab.get {} d.queues q.toNat
def Die.setQueue (d : Die) (q : BitVec 7) (x : Queue) : Die := { d with queues := Tab.set d.queues q.toNat x }

/-- The canonical form of memory (log 1). -/
abbrev Memory.wf (m : Sparse 8) : Prop := Sparse.wf m = true

/-- The group that moves. -/
def State.cur (s : State) : Group := s.group s.curG
def State.setCur (s : State) (x : Group) : State := s.setGroup s.curG x

end Sys2Proof.Machine
end

