-- ==== Sys2Proof/Machine/Ops.lean ====
section
/-! DEFINITION. The named operations over memory, registers and records, and the one operation that takes a trap. -/

namespace Sys2Proof.Machine

/-! Bits -/

/-- Bits lo + n - 1 down to lo as a number. -/
def bitsOf {w : Nat} (x : BitVec w) (lo n : Nat) : Nat := (x.extractLsb' lo n).toNat
/-- Bit i. -/
def bitOf {w : Nat} (x : BitVec w) (i : Nat) : Bool := x.getLsbD i
/-- x with bits lo + n - 1 down to lo replaced. -/
def putBits {w : Nat} (x : BitVec w) (lo n : Nat) (v : Nat) : BitVec w :=
  (x &&& ~~~(BitVec.ofNat w ((2 ^ n - 1) * 2 ^ lo))) ||| BitVec.ofNat w (v % 2 ^ n * 2 ^ lo)
/-- x with one bit replaced. -/
def putBit {w : Nat} (x : BitVec w) (i : Nat) (b : Bool) : BitVec w := putBits x i 1 (if b then 1 else 0)
/-- A flag as a 64-bit value. -/
def b64 (b : Bool) : W64 := if b then 1 else 0

/-- A counter has reached a target (R80). -/
def reached (c v : W64) : Bool := !bitOf (c - v) 63

/-! Scalar registers and predicates (R100) -/

def Group.sr (g : Group) (r : SReg) : W64 := g.s[r.toNat]'(r.isLt)
def Group.setSr (g : Group) (r : SReg) (v : W64) : Group := { g with s := g.s.set r.toNat v r.isLt }
/-- The register n places after r; runs never pass `s63` (R157). -/
def Group.srAt (g : Group) (r : SReg) (n : Nat) : W64 := g.sr (r + BitVec.ofNat 6 n)
def Group.setSrAt (g : Group) (r : SReg) (n : Nat) (v : W64) : Group := g.setSr (r + BitVec.ofNat 6 n) v
def Group.spOf (g : Group) (p : BitVec 3) : Bool := bitOf g.sp p.toNat
def Group.setSp (g : Group) (p : BitVec 3) (b : Bool) : Group := { g with sp := putBit g.sp p.toNat b }
/-- Past the scalar word (R165). -/
def Group.pc4 (g : Group) : Group := { g with pc := g.pc + 4 }
/-- Past the lane word (R166). -/
def Group.lpc1 (g : Group) : Group := { g with ln := { g.ln with lpc := g.ln.lpc + 1 } }
/-- A lane predicate of all threads; `p7` is true (R100). -/
def Group.pr (g : Group) (p : BitVec 3) : W64 :=
  if h : p.toNat < 7 then g.ln.p[p.toNat]'h else BitVec.allOnes 64
/-- Writes a lane predicate in the threads of a mask; a write to `p7` is discarded (R100). -/
def Group.setPr (g : Group) (p : BitVec 3) (mask v : W64) : Group :=
  if h : p.toNat < 7 then
    { g with ln := { g.ln with p := g.ln.p.set p.toNat ((g.ln.p[p.toNat]'h &&& ~~~mask) ||| (v &&& mask)) h } }
  else g

/-- Replaces an element of a short vector. -/
def vset {α : Type} {n : Nat} (v : Vector α n) (i : Nat) (x : α) : Vector α n := v.setIfInBounds i x

/-! Vector words (R93, R112) -/

/-- Thread j's word of a register. -/
def vword (v : VReg) (j : Nat) : W32 := v.extractLsb' (32 * j) 32
/-- The numbers f 0, f 1, ... of `w` bits packed from the lowest. -/
def packNat (w : Nat) (f : Nat → Nat) : Nat → Nat
  | 0 => 0
  | n + 1 => packNat w f n + f n % 2 ^ w * 2 ^ (w * n)
/-- A register from its threads' words. -/
def vbuild (f : Nat → W32) : VReg := BitVec.ofNat 2048 (packNat 32 (fun j => (f j).toNat) 64)

/-! Register space in rows of 256 bytes (R89 to R96) -/

def RegSpace.row (r : RegSpace) (i : Nat) : VReg := Sparse.get r.rows i
def RegSpace.setRow (r : RegSpace) (i : Nat) (v : VReg) : RegSpace := { r with rows := Sparse.set r.rows i v }
/-- One byte of register space. -/
def RegSpace.byte (r : RegSpace) (a : Nat) : Byte := (r.row (a / 256)).extractLsb' (8 * (a % 256)) 8
/-- Writing words that could not be corrected makes them correctable (R335). -/
def RegSpace.heal (r : RegSpace) (written : Nat → Bool) : RegSpace :=
  if r.bad = [] then r else { r with bad := r.bad.filter (fun w => !written w) }
/-- A 4-byte word of a range could not be corrected (R335). -/
def RegSpace.badIn (r : RegSpace) (a n : Nat) : Bool := r.bad.any (fun w => decide (a < 4 * w + 4 ∧ 4 * w < a + n))
def RegSpace.setByte (r : RegSpace) (a : Nat) (b : Byte) : RegSpace :=
  (r.setRow (a / 256) (putBits (r.row (a / 256)) (8 * (a % 256)) 8 b.toNat)).heal (fun w => w == a / 4)
/-- Bytes a to a + n - 1. -/
def RegSpace.bytes (r : RegSpace) (a : Nat) : Nat → List Byte
  | 0 => []
  | n + 1 => r.byte a :: RegSpace.bytes r (a + 1) n
def RegSpace.setBytes (r : RegSpace) (a : Nat) : List Byte → RegSpace
  | [] => r
  | b :: t => RegSpace.setBytes (r.setByte a b) (a + 1) t

/-! Memory (R4, R12 to R15, R40; log 1) -/

/-- The `n` bytes at a physical address as one number. -/
def peek (m : Sparse 8) (pa : Nat) : Nat → Nat
  | 0 => 0
  | n + 1 => (Sparse.get m pa).toNat + 256 * peek m (pa + 1) n
def peekBytes (m : Sparse 8) (pa : Nat) : Nat → List Byte
  | 0 => []
  | n + 1 => Sparse.get m pa :: peekBytes m (pa + 1) n
/-- Memory with bytes written from a physical address on. -/
def pokeBytes (m : Sparse 8) (pa : Nat) : List Byte → Sparse 8
  | [] => m
  | b :: t => pokeBytes (Sparse.set m pa b) (pa + 1) t

/-- A write to [pa, pa + n) fires the monitors of the lines it touches (R224). -/
def fireMonitors (gs : Tab Group) (pa n : Nat) : Tab Group :=
  let hit := fun (g : Group) => match g.mon with
    | some l => decide (pa < l.toNat + 128) && decide (l.toNat < pa + n) && !g.fired
    | none => false
  if gs.any (fun p => hit p.2) then gs.map (fun p => if hit p.2 then (p.1, { p.2 with fired := true }) else p) else gs

/-- A write performs at its home: bytes change, monitors fire, an uncorrectable word written becomes correctable
(R42, R224, R335). -/
def State.write (s : State) (pa : Nat) (l : List Byte) : State :=
  { s with mem := pokeBytes s.mem pa l, groups := fireMonitors s.groups pa l.length,
           badWords := if s.badWords = [] then [] else
             s.badWords.filter (fun b => !(decide (pa < b + 8) && decide (b < pa + l.length))) }
/-- An 8-byte write. -/
def State.write64 (s : State) (pa : Nat) (v : W64) : State := s.write pa (natToBytes 8 v.toNat)
/-- The 8-byte word at an address. -/
def State.read64 (s : State) (pa : Nat) : W64 := BitVec.ofNat 64 (peek s.mem pa 8)

/-- Whether a word in the range is uncorrectable (R335). -/
def State.bad (s : State) (pa n : Nat) : Bool := s.badWords.any (fun b => decide (pa < b + 8) && decide (b < pa + n))

/-- Global physical address of an offset of a region (R14). -/
def paOf (die : BitVec 3) (region offset : Nat) : Nat := die.toNat * 2 ^ 49 + region * 2 ^ 46 + offset
def paNode (pa : Nat) : Nat := pa / 2 ^ 52
def paDie (pa : Nat) : BitVec 3 := BitVec.ofNat 3 (pa / 2 ^ 49)
def paRegion (pa : Nat) : Nat := pa / 2 ^ 46 % 8
def paOff (pa : Nat) : Nat := pa % 2 ^ 46
/-- Address of a shelf frame of a core in region 1 (R15). -/
def frameBase (c : BitVec 10) (f : Nat) : Nat :=
  paOf (c.extractLsb' 7 3) 1 ((c.extractLsb' 0 7).toNat * 2 ^ 20 + f * 4096)
/-- An address in region 0 of node 0. -/
def inHbm (pa : Nat) : Bool := paNode pa == 0 && paRegion pa == 0

/-- A free value (log 6), and the state that has used it. -/
def State.free (s : State) : W64 × State := (Config.freeWord s.fresh, { s with fresh := s.fresh + 1 })

/-! Blocks and launches -/

def State.blockOf (s : State) (p : BitVec 3) (l b : W32) : Option Block :=
  s.blocks.find? (fun x => x.part == p && x.launch == l && x.idx == b)
def State.launchOf (s : State) (p : BitVec 3) (l : W32) : Option Launch :=
  s.launches.find? (fun x => x.part == p && x.id == l)
def State.setBlock (s : State) (x : Block) : State :=
  { s with blocks := s.blocks.map (fun y => if y.part == x.part && y.launch == x.launch && y.idx == x.idx then x else y) }
def State.setLaunch (s : State) (x : Launch) : State :=
  { s with launches := s.launches.map (fun y => if y.part == x.part && y.id == x.id then x else y) }
/-- The launch is deterministic (R359). -/
def State.isDet (s : State) (p : BitVec 3) (l : W32) : Bool :=
  match s.launchOf p l with | some x => x.det | none => false
/-- The seed of stochastic rounding (R124). -/
def State.seedOf (s : State) (g : Group) : W64 :=
  match s.launchOf g.part g.launch with | some x => x.record.extractLsb' 256 64 | none => 0

/-! Fault records (R315, R322) -/

def Cause.code : Cause → BitVec 8
  | .xlat c => 0#4 ++ c
  | .illegalInstr => 0x10 | .privInstr => 0x11 | .pcAlign => 0x12 | .lrunRange => 0x13 | .operandRange => 0x14
  | .regRange => 0x15 | .descFormat => 0x16 | .staleBinding => 0x17 | .scaleFormat => 0x18
  | .shelfRange => 0x19 | .shelfInvalid => 0x1A | .shelfFull => 0x1B
  | .atomAlign => 0x1C | .atomRegion => 0x1D | .fxRange => 0x1E | .oaddType => 0x1F | .oaddForeign => 0x20
  | .oaddFull => 0x21
  | .watchRegion => 0x22 | .barCount => 0x23 | .rbarTarget => 0x24 | .barResident => 0x25 | .queueDead => 0x26
  | .queueCompact => 0x27
  | .divStack => 0x28 | .lbrSplit => 0x29 | .lbrRange => 0x2A | .compactState => 0x2B | .compactMismatch => 0x2C
  | .mxDiverged => 0x30 | .arrayFrozen => 0x31 | .mxFormat => 0x32 | .sparseMask => 0x33 | .chainMismatch => 0x34
  | .detOrder => 0x38 | .detSched => 0x39 | .atomDet => 0x3A | .dataError => 0x40 | .userTrap => 0x48
  | .logitBudget => 0x49 | .preempt => 0x50 | .restore => 0x51

/-- A deferred translation cause: not_present or migrating (R318). -/
def Cause.deferred : Cause → Bool | .xlat c => c == 3 || c == 9 | _ => false
/-- After these causes a group is not resumable (R327). -/
def Cause.resumable : Cause → Bool
  | .detOrder | .detSched | .atomDet | .dataError => false | _ => true

/-- What a trap or a fault names beside the group: the fields of R322. `here`: the event concerns no address, and its record
names the instruction's own (log 63). -/
structure Info where
  cause : Cause
  here  : Bool := false
  va    : W64 := 0
  entry : W64 := 0
  acc   : BitVec 2 := 0
  hint  : BitVec 8 := 0xFF
  vlane : Option (BitVec 11) := none
  code  : BitVec 12 := 0
  aux   : W32 := 0
deriving DecidableEq, Repr

/-- The vlane of the lowest-vlane thread in the running mask, else of physical lane 0 (R322). -/
def Group.laneVlane (g : Group) : BitVec 11 :=
  let ls := (List.range 64).filter (fun j => bitOf g.ln.run j)
  let vl := fun (j : Nat) => bitsOf (g.ln.remap.getD j 0) 0 10
  BitVec.ofNat 11 (match ls with | [] => vl 0 | j :: t => t.foldl (fun m k => min m (vl k)) (vl j))

/-- A record of R322 from its words. -/
def recWords (w0 w1 w2 w3 w4 w5 w6 w7 : W64) : BitVec 512 := w7 ++ w6 ++ w5 ++ w4 ++ w3 ++ w2 ++ w1 ++ w0

/-- The record of an event at an instruction of a group (R322). -/
def groupRecord (kind : BitVec 4) (gid : Gid) (g : Group) (i : Info) (lane : Bool) (addr : W64) (word : BitVec 96)
    (count index : BitVec 6) (more : Bool) : BitVec 512 :=
  let vl := match i.vlane with
    | some v => v
    | none => if lane then g.laneVlane else 1024 + BitVec.ofNat 11 g.gidx.toNat
  recWords (kind ++ i.cause.code ++ count ++ index ++ bit more ++ gid.die ++ gid.core.extractLsb' 0 7 ++ gid.slot ++ g.part ++
      g.pasid)
    i.va i.entry addr
    (i.acc ++ bit lane ++ i.hint ++ vl ++ 0#30 ++ i.code)
    (g.block ++ i.aux)
    ((if lane then word.extractLsb' 64 32 else 0#32) ++ 0#32) (word.extractLsb' 0 64)

/-- Adds records to a partition's fault queue, one event at a time (R324). -/
def State.post (s : State) (p : BitVec 3) (rs : List (BitVec 512)) : State :=
  let x := s.part p
  s.setPart p { x with waiting := x.waiting ++ rs }

/-- A notification of a die's frame pool (R34): cause 1 `pool_low`, 2 `pool_bad`. -/
def State.notify (s : State) (die part : BitVec 3) (cause : BitVec 8) (addr entry : W64) : State :=
  s.post part [recWords (2#4 ++ cause ++ 0#13 ++ die ++ 0#13 ++ part ++ 0#20) 0 entry addr 0 0 0 0]

/-! Queued results and tile loads (R107, R248, R249) -/

/-- Row number of vector register i (R93). -/
def RegSpace.vrow (r : RegSpace) (i : Nat) : Nat := bitsOf r.vview 8 9 + i

/-- Writes words from thread numbers to row i of register space in the threads of a mask. -/
def RegSpace.mergeF (r : RegSpace) (i : Nat) (mask : W64) (f : Nat → Nat) : RegSpace :=
  let old := r.row i
  (r.setRow i (vbuild (fun j => if bitOf mask j then BitVec.ofNat 32 (f j) else vword old j))).heal
    (fun w => w / 64 == i && bitOf mask (w % 64))
/-- Writes the threads of a mask in `n` consecutive vector registers from register i (R228, R252). -/
def Group.putVec (g : Group) (i : Nat) (mask : W64) (f : Nat → Nat) : Nat → Group
  | 0 => g
  | n + 1 =>
    let g1 := g.putVec i mask f n
    { g1 with rg := g1.rg.mergeF (g1.rg.vrow (i + n)) mask (fun j => f j / 2 ^ (32 * n)) }
/-- A predicate written in every thread (R159). -/
def Group.setPrAll (g : Group) (p : BitVec 3) (b : Bool) : Group :=
  g.setPr p (BitVec.allOnes 64) (if b then BitVec.allOnes 64 else 0)
/-- A push to a result queue: it moves if there is room, and a non-blocking form says whether it did (R100, R159, R202, R229,
R257). -/
def Group.pushY (g : Group) (o : Opnd) (v : W64) : Group :=
  let put := fun (i : BitVec 2) => { g with y := vset g.y i.toNat (g.y.getD i.toNat [] ++ [v]) }
  let room := fun (i : BitVec 2) => decide ((g.y.getD i.toNat []).length < 16)
  match o with
  | .y i => if room i then put i else g
  | .yp i p => if room i then (put i).setPrAll p true else g.setPrAll p false
  | _ => g

/-- A queued result is written (R248). -/
def Group.writeQueued (g : Group) (x : Queued) : Group :=
  match x.d with
  | .vec i => g.putVec i.toNat x.mask (fun j => (vword x.lo j).toNat + 2 ^ 32 * (vword x.hi j).toNat) (if x.w64 then 2 else 1)
  | _ => g.pushY x.d (vword x.hi 0 ++ vword x.lo 0)
/-- Every queued result is written, each queue in order (R249). -/
def Group.drainQueues (g : Group) : Group :=
  if g.ln.sfuQ = [] ∧ g.ln.cvtQ = [] then g
  else
    let g1 := (g.ln.sfuQ ++ g.ln.cvtQ).foldl Group.writeQueued g
    { g1 with ln := { g1.ln with sfuQ := [], cvtQ := [] } }

/-- Entry i of a scale register (R117). -/
def scaleEntry (e : BitVec 512) (i : Nat) : BitVec 16 := e.extractLsb' (16 * i) 16
/-- Some entry has bits 15:14 set (R117). -/
def scaleBad (e : BitVec 512) : Bool := (List.range 32).any (fun i => bitsOf e (16 * i + 14) 2 != 0)

/-- Tile descriptor fields (R94). -/
def tdBytes (d : W64) : Nat := 16 * (bitsOf d 28 5 + 1)
def tdRows (d : W64) : Nat := bitsOf d 33 6 + 1
def tdOff (d : W64) : Nat := bitsOf d 0 17
def tdFmt (d : W64) : BitVec 4 := d.extractLsb' 39 4
def tdScaled (d : W64) : Bool := bitOf d 43
def tdBvalid (d : W64) : Bool := bitOf d 63
def tdSreg (d : W64) : BitVec 5 := d.extractLsb' 58 5
def tdBtag (d : W64) : BitVec 12 := d.extractLsb' 46 12
/-- A descriptor with a binding (R104). -/
def bindTd (d : W64) (e : BitVec 5) (tag : BitVec 12) : W64 := 1#1 ++ e ++ tag ++ d.extractLsb' 0 46

/-- The write of a scale register with the bindings it makes, one step (R103, R104, R106, R279). -/
def RegSpace.scaleWrite (r : RegSpace) (d : BitVec 5) (new : BitVec 512) (tiles : BitVec 16) : RegSpace :=
  let tag := r.etag.getD d.toNat 0 + 1
  let td := if tag = 0 then r.tdesc.map (fun t => if tdSreg t = d then putBit t 63 false else t) else r.tdesc
  { r with e := vset r.e d.toNat new, ebad := putBit r.ebad d.toNat false, etag := vset r.etag d.toNat tag,
           tdesc := Vector.ofFn (fun i : Fin 16 => if bitOf tiles i.val then bindTd td[i] d tag else td[i]) }

/-- Rows in order to the tile's place (R94, R96). -/
def RegSpace.writeTile (r : RegSpace) (t : Nat) (l : List Byte) : RegSpace :=
  r.setBytes (bitsOf r.tview 0 17 + tdOff (r.tdesc.getD t 0)) l

/-- A tile load lands: rows, scale register and binding in one step (R280). -/
def RegSpace.landTld (r : RegSpace) (x : PendTld) : RegSpace :=
  let r1 := r.writeTile x.tile.toNat x.rows
  if x.sc then r1.scaleWrite x.e x.scales (1#16 <<< x.tile.toNat) else r1

/-- Outstanding tile loads land (R280). -/
def Group.landTlds (g : Group) : Group :=
  if g.ln.tlds = [] then g
  else { g with rg := g.ln.tlds.foldl RegSpace.landTld g.rg, ln := { g.ln with tlds := [] } }

/-- Everything the lane stream has issued is written (R249, R107). -/
def Group.settle (g : Group) : Group := (g.drainQueues).landTlds

/-! The state area (R326, R327, R331) -/

/-- Global address of a group's image in its partition's context area (R331). -/
def areaOf (s : State) (gid : Gid) (p : BitVec 3) : Nat :=
  (s.part p).ctxBase.toNat + gid.core.toNat * 0x1000000 + 0x113000 + gid.slot.toNat * 0x26000

/-- Little-endian words from a list of fields (width, value), the first lowest. -/
def packFields : List (Nat × Nat) → Nat
  | [] => 0
  | (w, v) :: t => v % 2 ^ w + 2 ^ w * packFields t

/-- The code of a scope. -/
def scopeNum (s : Scope) : Nat := s.code.toNat

/-- The waited number, queue, counter or barrier of R327's words 0x038 and 0x040. -/
def waitWord (g : Group) : W64 × W64 :=
  match g.st, g.wait with
  | .yielding y, _ | .yielded y, _ =>
    match y.on with
    | .queue q n => (BitVec.ofNat 64 q.toNat, n)
    | .ctr c n => (BitVec.ofNat 64 (256 + c.toNat), n)
    | .coll _ k => (0, k)
    | .put .. => (0, 0)
  | _, .bar b _ => (BitVec.ofNat 64 (b.idx.toNat * 512), 0)
  | _, _ => (0, 0)

/-- The window's 192 bits (R27). -/
def Window.bits (w : Window) : BitVec 192 :=
  w.base ++ w.pa ++ w.limit ++ 0#18 ++ bit w.stale ++ w.pol ++ bit w.sys ++ bit w.d ++ bit w.x ++ bit w.w ++ 0#5
def Window.ofBits (b : BitVec 192) : Window :=
  { base := b.extractLsb' 128 64, pa := b.extractLsb' 64 64, limit := b.extractLsb' 30 34, stale := b.getLsbD 11,
    pol := b.extractLsb' 9 2, sys := b.getLsbD 8, d := b.getLsbD 7, x := b.getLsbD 6, w := b.getLsbD 5 }

/-- An operand log entry's 2 KiB (R320). -/
def OpLog.bits (l : OpLog) : Nat :=
  packFields [(64, l.addr.toNat), (64, bitsOf l.word 0 64), (32, bitsOf l.word 64 32), (30, 0), (1, l.lane.toNat),
    (1, l.valid.toNat), (64, l.exec.toNat), (256, l.scalars.toNat), (2048, l.srcA.toNat), (8192, l.regd.toNat)]
def OpLog.ofBits (b : BitVec 16384) : Option OpLog :=
  if b.getLsbD 191 then
    some { addr := b.extractLsb' 0 64, word := b.extractLsb' 128 32 ++ b.extractLsb' 64 64, lane := b.getLsbD 190, valid := true,
           exec := b.extractLsb' 192 64, scalars := b.extractLsb' 256 256, srcA := b.extractLsb' 512 2048,
           regd := b.extractLsb' 2560 8192 }
  else none

/-- An entry of the divergence stack as 128 bits (R265). -/
def DivEntry.bits (e : DivEntry) : Nat := e.mask.toNat + e.pc.toNat * 2 ^ 64 + e.join.toNat * 2 ^ 84
/-- Entry k of the saved stack, the oldest first. -/
def stackBits (l : Lane) (k : Nat) : Nat :=
  if k < l.stack.length then (l.stack.reverse.getD k ⟨false, 0, 0⟩).bits else 0

/-- The state area's words as (offset, bytes, value) (R327, R331). A thread that has exited is saved as a lane whose valid
bit is 0 (log 16). -/
def areaWords (gid : Gid) (g : Group) (pc : W64) (lpc : BitVec 20) (cause : BitVec 8) (resumable : Bool)
    (record : BitVec 512) (holder : Bool) (remain : W64) : List (Nat × Nat × Nat) :=
  let stNum := match g.st with | .parked .. | .parking .. => 1 | .yielded .. | .yielding .. => 2 | _ => 0
  let ww := waitWord g
  let l := g.ln
  [ (0x000, 8, pc.toNat),
    (0x008, 8, packFields [(20, lpc.toNat), (8, 0), (4, l.runQ.length)]),
    (0x010, 8, l.run.toNat),
    (0x018, 8, packFields [(8, 0), (19, l.drainRs.toNat), (3, 0), (4, g.gidx.toNat), (6, gid.slot.toNat), (8, cause.toNat),
      (2, g.cls.toNat), (6, l.stack.length), (1, g.mon.isSome.toNat), (2, stNum), (1, holder.toNat), (1, l.inRegion.toNat),
      (1, (decide (g.wait ≠ .none)).toNat), (1, resumable.toNat), (1, 1)]),
    (0x020, 8, packFields ((List.range 8).map (fun i => (3, (g.q.getD i []).length)) ++
      (List.range 4).map (fun i => (5, (g.y.getD i []).length)))),
    (0x028, 8, packFields [(32, g.block.toNat), (32, g.launch.toNat)]),
    (0x030, 8, remain.toNat), (0x038, 8, ww.1.toNat), (0x040, 8, ww.2.toNat), (0x048, 8, (g.mon.getD 0).toNat),
    (0x080, 64, record.toNat),
    (0x100, 256, packFields ((List.range 64).map (fun j => (32, (l.rs.getD j 0).toNat)))),
    (0x200, 512, packFields ((List.range 32).map (fun k => (128, stackBits l k)))),
    (0x400, 128, packFields ((List.range 64).map (fun j => (16,
      if bitOf l.exited j then bitsOf (l.remap.getD j 0) 0 10 else (l.remap.getD j 0).toNat)))),
    (0x480, 56, packFields ((List.range 7).map (fun j => (64, (l.p.getD j 0).toNat)))),
    (0x4C0, 32, packFields (l.runQ.map (fun w => (32, w.toNat)))),
    (0x500, 512, packFields (g.s.toList.map (fun v => (64, v.toNat)))),
    (0x700, 192, packFields (g.win.toList.map (fun v => (192, v.bits.toNat)))),
    (0x7C0, 152, packFields ([g.rg.vview, g.rg.tview, g.rg.aview].map (fun v => (64, v.toNat)) ++
      g.rg.tdesc.toList.map (fun v => (64, v.toNat)))),
    (0x858, 8, g.sp.toNat),
    (0x860, 64, packFields (g.rg.etag.toList.map (fun v => (16, v.toNat)))),
    (0x900, 2048, packFields (g.rg.e.toList.map (fun v => (512, v.toNat)))),
    (0x1100, 2048, packFields (g.rg.tdesc.toList.map (fun d =>
      (1024, if tdBvalid d then packFields [(64, d.toNat), (12, (g.rg.etag.getD (tdSreg d).toNat 0).toNat), (4, 0),
        (5, (tdSreg d).toNat), (43, 0), (384, 0), (512, (g.rg.e.getD (tdSreg d).toNat 0).toNat)] else 0)))),
    (0x1900, 512, packFields ((List.range 4).flatMap (fun i => ((g.y.getD i [] ++ List.replicate 16 0).take 16).map (fun (v : W64) => (64, v.toNat))))),
    (0x2000, 8192, packFields ((List.range 8).flatMap (fun i => ((g.q.getD i [] ++ List.replicate 4 0).take 4).map (fun (v : VReg) => (2048, v.toNat))))),
    (0x4000, 2048, match g.slog with | some x => ({ x with valid := true } : OpLog).bits | none => 0),
    (0x4800, 2048, match g.llog with | some x => ({ x with valid := true } : OpLog).bits | none => 0) ]

/-! Invalidation (R19, R30, R54, R206) -/

/-- Size of a leaf's page (R19). -/
def pageSize (lvl : Nat) : Nat := if lvl = 0 then 2 ^ 42 else if lvl = 1 then 2 ^ 29 else 2 ^ 16

/-- Pages of size `ps` from the first address of a range overlap [va, va + len) (R206). -/
def pageIn (page ps va len : Nat) : Bool := decide (page * ps < va % 2 ^ 55 + len) && decide (va % 2 ^ 55 < page * ps + ps)

/-- The page that a window's translation came from overlaps the range. A window whose base did not translate has no page of
its own; one of any size could come to map its base (R28, R30, R206; log 75). -/
def Window.inRange (w : Window) (va len : Nat) : Bool :=
  pageIn (bitsOf w.base 0 55 / pageSize w.lvl.toNat) (pageSize w.lvl.toNat) va len
/-- Windows of a range are marked stale (R30). -/
def staleWins (w : Vector Window 8) (va len : Nat) : Vector Window 8 := w.map (fun x => if x.inRange va len then { x with stale := true } else x)
def Kept.invalidate (k : Kept) (n : BitVec 20) (va len : Nat) : Kept := if k.pasid == n then { k with win := staleWins k.win va len } else k
/-- Windows of a group, and of the program behind its handler, are marked stale (R30). -/
def Group.invalidate (g : Group) (n : BitVec 20) (va len : Nat) : Group :=
  let g1 := if g.h.on then { g with h := { g.h with kept := g.h.kept.invalidate n va len } } else g
  if g.pasid == n then { g1 with win := staleWins g1.win va len } else g1
/-- Drops the TLB entries of the dies in scope that cover a page of the range, and marks the windows of every group of theirs stale:
live, behind its handler, or saved (R30, R54). -/
def State.invalidate (s : State) (inScope : BitVec 3 → Bool) (n : BitVec 20) (va len : Nat) : State :=
  if len = 0 then s
  else
    { s with
      cores := s.cores.map (fun p => if inScope (BitVec.ofNat 3 (p.1 / 128)) then
        (p.1, { p.2 with tlb := p.2.tlb.filter (fun t => !(t.pasid == n && pageIn t.page (pageSize t.lvl.toNat) va len)) }) else p),
      groups := s.groups.map (fun p => if inScope (BitVec.ofNat 3 (p.1 / 8192)) then (p.1, p.2.invalidate n va len) else p),
      launches := s.launches.map (fun l => if l.saved = [] then l else { l with saved := l.saved.map (fun x =>
        if inScope (x.core.extractLsb' 7 3) then { x with kept := x.kept.invalidate n va len } else x) }) }

/-- The dies in the scope of an invalidation from a die (R54). -/
def scopeDies (die : BitVec 3) (sc : Scope) (d : BitVec 3) : Bool := match sc with | .pkg | .sys => true | _ => d == die

/-- The completion of a group's waiting `invpg` (R54, R206, R316): entries dropped, windows stale, the wait done. -/
def State.completeInvpg (s : State) (gid : Gid) : State :=
  let g := s.group gid
  match g.wait with
  | .invpg n va len sc =>
    (s.setGroup gid { g with wait := .none, pc := g.pc + 4 }).invalidate (scopeDies gid.die sc) n va.toNat len.toNat
  | _ => s

/-- Every byte of a range reads as zero from now on; the writes perform at the home (R34, R36, R224). -/
def State.zeroRange (s : State) (pa n : Nat) : State :=
  { s with mem := Sparse.clear s.mem pa n, groups := fireMonitors s.groups pa n,
           badWords := s.badWords.filter (fun b => !(decide (pa < b + 8) && decide (b < pa + n))) }
/-- The state area is written whole: bytes not listed are zero (R326, R331). -/
def State.writeArea (s : State) (a : Nat) (ws : List (Nat × Nat × Nat)) : State :=
  ws.foldl (fun s w => s.write (a + w.1) (natToBytes w.2.1 w.2.2)) (s.zeroRange a 0x6000)

/-! Lines of waiting groups (R311) -/

/-- The group waits no longer for a place of a copy queue, for its core's array or for a token; a request for a token that no group
waits with is withdrawn (R145, R311). -/
def State.leaveLines (s : State) (gid : Gid) : State :=
  let c := s.core gid.core
  let d := s.die gid.die
  let s := if c.mx.line.contains gid.slot || c.mx.reqs.contains gid.slot then
      let reqs := c.mx.reqs.filter (· != gid.slot)
      s.setCore gid.core { c with mx := { c.mx with line := c.mx.line.filter (· != gid.slot), reqs := reqs,
                                                    waiting := c.mx.waiting && reqs != [] } }
    else s
  if d.queues.any (fun p => p.2.line.contains gid) then
    s.setDie gid.die { d with queues := d.queues.map (fun p => (p.1, { p.2 with line := p.2.line.filter (· != gid) })) }
  else s

/-! Taking a trap (R316, R326) -/

/-- The array of the group's core is held by it. -/
def State.holds (s : State) (gid : Gid) : Bool := (s.core gid.core).mx.holder == some gid.slot

/-- Frees what the group holds of the array: chains and buffers are discarded, its token returns (R132, R145). Rows that a drain has
handed on still reach the port (R144). -/
def State.dropArray (s : State) (gid : Gid) : State :=
  if s.holds gid then
    let c := s.core gid.core
    let d := s.die gid.die
    let s1 := if c.mx.token then s.setDie gid.die { d with pool := d.pool + 1 } else s
    s1.setCore gid.core { c with mx := { port := c.mx.port, outQ := c.mx.outQ, line := c.mx.line } }
  else s

/-- The holder's array freezes at its step boundary and returns its token (R145, R146). -/
def State.freezeArray (s : State) (gid : Gid) : State :=
  if s.holds gid then
    let c := s.core gid.core
    let d := s.die gid.die
    let s1 := if c.mx.token then s.setDie gid.die { d with pool := d.pool + 1 } else s
    s1.setCore gid.core { c with mx := { c.mx with mode := .frozen, token := false, waiting := false, reqs := [] } }
  else s

/-- The blocks that a phase of a barrier expects (R222). -/
def State.barExpected (s : State) (w : WideBar) : Nat :=
  match w.id.kind, s.launchOf w.part w.launch with
  | 1, _ => 2 ^ (bitsOf w.id.rect 10 3 + bitsOf w.id.rect 13 3)
  | 2, some l => (l.placed.filter (fun p => p.2.extractLsb' 7 3 == w.die)).length
  | _, some l => l.grid.toNat
  | _, none => 0
/-- A block arrives once each of its groups that has not exited has arrived; the phase completes with its last block (R222). -/
def State.settleBar (s : State) (w : WideBar) (block : W32) (left : List (BitVec 4)) : WideBar :=
  let w1 := if left ≠ [] ∧ left.all (fun g => w.arrived.contains (block, g)) = true ∧ w.fin.contains block = false
    then { w with fin := block :: w.fin } else w
  if w1.failed = false ∧ w1.fin ≠ [] ∧ s.barExpected w1 ≤ w1.fin.length then { w1 with phase := w1.phase + 1, arrived := [], fin := [] }
  else w1
/-- The groups of a block that pre-emption has saved. -/
def State.savedOf (s : State) (b : Block) : List Saved :=
  match s.launchOf b.part b.launch with | some l => l.saved.filter (fun x => x.block == b.idx) | none => []
/-- The gidx of each group of a block that has not exited, in its slot or saved (R222, R330). -/
def State.members (s : State) (b : Block) : List (BitVec 4) := b.gids.map (fun x => (s.group x).gidx) ++ (s.savedOf b).map Saved.gidx
/-- The barriers of a launch after a block's groups have changed (R222). -/
def State.settleBars (s : State) (b : Block) : State :=
  { s with bars := s.bars.map (fun w =>
      if w.part == b.part && w.launch == b.launch then s.settleBar w b.idx (s.members b) else w) }

/-- A pre-emption is done once no group of its partition is left (R330). -/
def State.settlePre (s : State) (p : BitVec 3) : State :=
  let x := s.part p
  if x.preReq && !s.groups.any (fun y => y.2.live && y.2.part == p) then s.setPart p { x with preReq := false, preDone := true } else s

/-- A block whose last group has left its core gives up its room (R333). It has ended, and has run to its exit unless it is `cut` (R356);
a block with groups that pre-emption has saved has not (R330, R332). -/
def State.freeBlock (s : State) (b : Block) : State :=
  let c := s.core b.core
  let s := s.setCore b.core { c with tags := Sparse.clear c.tags b.slotBase.toNat b.slotCount.toNat }
  let s := { s with blocks := s.blocks.filter (fun x => !(x.part == b.part && x.launch == b.launch && x.idx == b.idx)) }
  match s.launchOf b.part b.launch with
  | some l =>
    if s.savedOf b = [] then s.setLaunch { l with ended := l.ended + 1, exited := if b.cut then l.exited else l.exited + 1 }
    else s.setLaunch { l with saved := l.saved.map (fun x => if x.block == b.idx then { x with cut := b.cut } else x) }
  | none => s
/-- Removes a group from its slot, and its block's room when it was the last (R333). The block has run to its exit if every group of it
has left by `ran` (R356); a `saved` group has not ended (R330). -/
def State.freeGroup (s : State) (gid : Gid) (saved ran : Bool := false) : State :=
  let g := s.group gid
  let s := s.leaveLines gid
  let s := { s with groups := Tab.erase s.groups gid.toNat }
  match s.blockOf g.part g.launch g.block with
  | none => s.settlePre g.part
  | some b =>
    let b1 := { b with gids := b.gids.filter (fun x => x != gid), cut := b.cut || !(saved || ran) }
    let s := if b1.gids = [] then s.freeBlock b1 else s.setBlock b1
    (if saved then s else s.settleBars b1).settlePre g.part

/-- The group ends: array, room (R132, R333). -/
def State.endGroup (s : State) (gid : Gid) (ran : Bool := false) : State := (s.dropArray gid).freeGroup gid false ran

/-- Bytes of a list of words of a descriptor. -/
def descWord (w : BitVec 2048) (o : Nat) : W64 := w.extractLsb' (8 * o) 64
/-- A tile that a collective may be bound to: FP32, unscaled, of `n` bytes, in the declared space (R371). -/
def boundTileOk (r : RegSpace) (t n : Nat) : Bool :=
  let d := r.tdesc.getD t 0
  tdFmt d == 0 && !tdScaled d && decide (tdRows d * tdBytes d = n) &&
  decide (bitsOf r.tview 0 17 + tdOff d + tdRows d * tdBytes d ≤ r.declared.toNat)
/-- One `.collective` entry of the kernel at a group's exit (R371): the tile is its block's contribution. -/
def State.sendTile (s : State) (gid : Gid) (e : W64) : State :=
  let g := (s.group gid).settle
  match s.launchOf g.part g.launch with
  | none => s
  | some l =>
    if !bitOf e 63 || e.extractLsb' 4 4 != g.gidx then s
    else
      let sl : BitVec 2 := e.extractLsb' 8 2
      let t := bitsOf e 0 4
      match l.colls.find? (fun x => x.1 == sl) with
      | none => s
      | some (_, desc, w) =>
        if boundTileOk g.rg t (bitsOf w 0 32) then
          let d := g.rg.tdesc.getD t 0
          let data := g.rg.bytes (bitsOf g.rg.tview 0 17 + tdOff d) (tdRows d * tdBytes d)
          let c : CollC := { die := gid.die, data := data, gid := gid, part := g.part, launch := g.launch, block := g.block,
                             bound := some sl, tok := false, scr := 0, pasid := l.record.extractLsb' 128 20, priv := l.priv }
          { s.setLaunch { l with bound := l.bound ++ [(sl, g.block)] } with
            sends := s.sends ++ [{ desc := desc, key := l.record.extractLsb' 320 64, chunk := g.block, words := w, c := c }] }
        else if l.status = 0 then s.setLaunch { l with status := 0x23, coll := sl.setWidth 8 } else s
/-- The group exits: its bound tiles contribute before its registers are freed (R202, R333, R371). -/
def State.exitGroup (s : State) (gid : Gid) : State :=
  let g := s.group gid
  let k := match s.launchOf g.part g.launch with | some l => l.kdesc | none => 0
  ([0xE0, 0xE8, 0xF0, 0xF8].foldl (fun s o => s.sendTile gid (descWord k o)) s).endGroup gid true
/-- The group leaves its slot, saved (R330). -/
def State.vacateGroup (s : State) (gid : Gid) : State :=
  let g := s.group gid
  let b := s.blockOf g.part g.launch g.block
  let x : Saved := { block := g.block, core := gid.core, gid := gid, gidx := g.gidx, kept := g.h.kept, arrived := g.arrived,
                     cls := g.cls, holder := s.holds gid, ran := b.any Block.ran,
                     phases := match b with | some y => y.bars.toList.map (fun z => z.phase / 2 ^ 21) | none => [] }
  let s := match s.launchOf g.part g.launch with
    | some l => s.setLaunch { l with saved := x :: l.saved.filter (fun y => !(y.block == x.block && y.gidx == x.gidx)) }
    | none => s
  (s.dropArray gid).freeGroup gid true

/-- What is left of a time that began at a cycle; one that has run out leaves the least that still ends (R327). -/
def leftOf (total since now : W64) : W64 :=
  if total = 0 then 0 else if (now - since).toNat < total.toNat then total - (now - since) else 1
/-- What is left of a block's budget at a cycle (R334). -/
def Block.leftAt (b : Block) (now : W64) : W64 := if b.ran && !b.paused then leftOf b.budget b.begun now else b.budget
/-- The budget of a block stops counting (R334). -/
def Block.pause (b : Block) (now : W64) : Block := { b with budget := b.leftAt now, begun := now, paused := true }
/-- The word at 0x030: the budget left of a logit callable's block, else the park timeout left (R327, R334; log 77). -/
def State.remainOf (s : State) (gid : Gid) (g : Group) : W64 :=
  let now := (s.core gid.core).cyc
  let budget := match s.blockOf g.part g.launch g.block with | some b => b.leftAt now | none => 0
  if budget ≠ 0 then budget
  else match g.st with
    | .parking _ t => t
    | .parked _ t since => leftOf t since now
    | _ => 0

/-- The launch is a logit callable (R334, R358). -/
def State.isLogit (s : State) (p : BitVec 3) (l : W32) : Bool :=
  match s.launchOf p l with | some x => bitOf x.record 122 | none => false

/-- What the device keeps of a program that is interrupted at a cycle (R317). -/
def Group.keep (g : Group) (now : W64) : Kept :=
  { st := g.st, wait := g.wait, cwait := g.ln.cwait, parts := g.ln.parts, partAt := g.ln.partAt, inRegion := g.ln.inRegion,
    win := g.win, pasid := g.pasid, since := now }

/-- The boost and the count of a stream are cleared (R309). -/
def Group.unboost (g : Group) (lane : Bool) : Group :=
  if lane then { g with ln := { g.ln with boost := false, passed := 0 } } else { g with boost := false, passed := 0 }
/-- The group halts; its streams, which are not ready then, keep neither boost nor count (R309, R330, R389). -/
def Group.halt (g : Group) : Group := { (g.unboost false).unboost true with h := { g.h with halted := true } }

/-- The handler's start in the interrupted group (R326); its streams keep neither boost nor count (R309). -/
def Group.startHandler (g : Group) (p : Part) (a : Nat) (cause : Cause) (now : W64) : Group :=
  { g with pc := p.tvec, priv := true, pasid := p.hpasid, win := Vector.replicate 8 {},
           s := (g.s.set 62 (BitVec.ofNat 64 a)).set 63 (BitVec.ofNat 64 cause.code.toNat),
           wait := .none, st := .running, slog := none, llog := none, sfetch := none, lfetch := none, boost := false, passed := 0,
           h := { g.h with on := true, area := BitVec.ofNat 64 a, cause := cause.code, pend := none, kept := g.keep now },
           ln := { g.ln with lbase := p.tlbase, lwords := p.tlwords, runQ := [], active := false, lpc := 0,
                             run := BitVec.allOnes 64, exited := 0, stack := [], remap := identityRemap g.gidx,
                             inRegion := false, parts := [], partAt := none, cwait := .none, boost := false, passed := 0 } }

/-- TAKING A TRAP (R316, R326): issued results are written, the array freezes, the trap frame is written, and the group
starts its handler as system code at `tvec`. `pc` and `lpc` are what the handler's `hret.resume` continues at. -/
def State.enterHandler (s : State) (gid : Gid) (cause : Cause) (record : BitVec 512) (pc : W64) (lpc : BitVec 20) : State :=
  let g0 := s.group gid
  let s := (((s.leaveLines gid).setGroup gid (s.group gid).settle).completeInvpg gid).freezeArray gid
  let pc := if (s.group gid).pc = g0.pc then pc else (s.group gid).pc
  let g := s.group gid
  let a := areaOf s gid g.part
  let s := s.writeArea a (areaWords gid g pc lpc cause.code cause.resumable record (s.holds gid) (s.remainOf gid g))
  let p := s.part g.part
  let g := s.group gid
  s.setGroup gid (g.startHandler p a cause (s.core gid.core).cyc)

end Sys2Proof.Machine
end

