-- ==== Sys2Proof/Machine/Registers.lean ====
section
/-! DEFINITION. The register maps of regions 2, 3 and 4 as reads see them (R6, R18, R76, R84, R101, R149, R305, R323, R354,
R364, R382, R385, R387, R388). A register store performs as the REGISTER_WRITE step (log 17). -/

namespace Sys2Proof.Machine

/-- The yields of a die: of groups in their slots, of the handlers that they run, and of groups that pre-emption has saved (R83, R317,
R329). -/
def State.yields (s : State) (die : BitVec 3) : List YieldRec :=
  let sts := (s.groups.filter (fun p => decide (p.1 / 8192 = die.toNat))).flatMap
    (fun p => if p.2.h.on then [p.2.h.kept.st, p.2.st] else [p.2.st])
  let saved := (s.launches.flatMap Launch.saved).filter (fun x => x.core.extractLsb' 7 3 == die) |>.map (fun x => x.kept.st)
  (sts ++ saved).filterMap (fun r => match r with | .yielded y | .yielding y => some y | _ => none)
/-- A yield of a die waits on an object (R81). -/
def yieldsOn (s : State) (die : BitVec 3) (f : YieldOn → Bool) : Bool := (s.yields die).any (fun y => f y.on && y.got.isNone)

/-- A command that has not ended. One that has stays in its queue, and has not completed, until every earlier one has (R47, R75, R88). -/
def Cmd.open (c : Cmd) : Bool := match c.st with | .ended _ => false | _ => true
def Cmd.isHalted (c : Cmd) : Bool := match c.st with | .halted _ => true | _ => false
def Cmd.haltOf (c : Cmd) : BitVec 8 := match c.st with | .halted x => x | _ => 0

/-- An armed operation references the numbers of queue q (R81). -/
def queueArmed (s : State) (die : BitVec 3) (q : BitVec 7) : Bool :=
  ((s.die die).queue q).cmds != [] ||
  yieldsOn s die (fun y => match y with | .queue q' n => q' == q && !reached ((s.die die).queue q).seqDone n | _ => false)
/-- A queue page's registers (R76). -/
def queueReg (s : State) (die : BitVec 3) (q : BitVec 7) (off : Nat) : W64 :=
  let x := (s.die die).queue q
  match off with
  | 0x000 => x.seqDone | 0x008 => x.seqNext | 0x010 => x.tail
  | 0x018 =>
    let halted := x.cmds.any Cmd.isHalted || x.fetchHalt != 0
    let hc := match x.cmds.find? Cmd.isHalted with | some c => c.haltOf | none => x.fetchHalt
    bit halted ++ bit (queueArmed s die q) ++ 0#46 ++ hc ++ x.lastStatus
  | 0x020 => x.lastErr
  | _ => 0

/-- mx_status (R149). `sparse` is the active buffer's (DEDUCED, log 109). -/
def mxStatus (m : MxArray) : W64 :=
  let mode : BitVec 2 := match m.mode with | .idle => 0 | .running => 1 | .frozen => 2
  let b := if m.act then m.buf1 else m.buf0
  mode ++ bit m.token ++ bit m.live ++ bit m.kind ++ bit m.act ++ bit m.holder.isSome ++ m.holder.getD 0 ++
    BitVec.ofNat 5 (m.m - 1) ++ BitVec.ofNat 5 (m.ncols - 1) ++ b.sparse ++ 0#39
/-- mx_prog (R149). -/
def mxProg (m : MxArray) : W64 :=
  match m.loop with
  | some l => 0#37 ++ bit l.dstep ++ BitVec.ofNat 13 (l.steps - 1) ++ BitVec.ofNat 13 l.done
  | none => 0
/-- mx_loop (R149). -/
def mxLoop (m : MxArray) : W64 := match m.loop with | some l => l.addr | none => 0
/-- mx_err (R149). -/
def mxErr (m : MxArray) : W64 := match m.err with | some e => 1#1 ++ 0#42 ++ e.1 ++ e.2 | none => 0

/-- A core control page's registers (R101, R149, R305). -/
def coreReg (c : Core) (off : Nat) : W64 :=
  match off with
  | 0x040 => c.rfDrowsy
  | 0x100 => mxStatus c.mx | 0x108 => mxProg c.mx | 0x110 => mxLoop c.mx | 0x118 => mxErr c.mx
  | _ =>
    if 0x200 ≤ off ∧ off < 0x280 then
      (if off % 16 = 0 then c.quotaA.getD ((off - 0x200) / 16) 0 else c.quotaB.getD ((off - 0x200) / 16) 0)
    else 0

/-- The translation control block (R18). -/
def tcbReg (d : Die) (off : Nat) : W64 :=
  match off with
  | 0x00 => d.ptBase | 0x08 => Config.hbmLimit | 0x10 => d.zeroFrame | 0x18 => d.ftzRing
  | 0x20 => d.ftzHead.setWidth 64 | 0x28 => d.ftzTail.setWidth 64 | 0x30 => d.ftzLow.setWidth 64
  | _ => 0

/-- Groups of a partition. -/
def State.partGroups (s : State) (p : BitVec 3) : Nat := (s.groups.filter (fun x => x.2.live && x.2.part == p)).length

/-- A partition's registers (R323); `fq_reply` is write only. -/
def partReg (s : State) (p : BitVec 3) (off : Nat) : W64 :=
  let x := s.part p
  match off with
  | 0x00 => x.fqBase
  | 0x08 => bit x.fqEn ++ 0#15 ++ BitVec.ofNat 16 (min x.waiting.length 0xFFFF) ++ 0#16 ++ x.fqMsix ++ 0#3 ++ x.fqLog2
  | 0x10 => x.fqHead.setWidth 64 | 0x18 => x.fqTail.setWidth 64 | 0x20 => x.mirror
  | 0x30 => x.tvec | 0x38 => x.tlbase | 0x40 => x.hpasid.setWidth 64 | 0x48 => x.ctxBase
  | 0x50 => bit x.preReq ++ bit x.preDone ++ 0#30 ++ BitVec.ofNat 32 (s.partGroups p)
  | 0x58 => x.tlwords.setWidth 64
  | _ => 0

/-- A mantel's registers (R387). -/
def mantelReg (m : Mantel) (off : Nat) : W64 :=
  if off < 0x40 then m.acc.extractLsb' (8 * off) 64
  else if off = 0x40 then m.count.setWidth 64
  else if 0x50 ≤ off ∧ off < 0x70 then m.nonce.extractLsb' (8 * (off - 0x50)) 64
  else if off = 0x70 then bit m.done ++ 0#55 ++ m.qstatus
  else if 0x80 ≤ off ∧ off < 0xF8 then m.sig.extractLsb' (8 * (off - 0x80)) 64
  else 0

/-- The package's blocks at 0x4000, 0x6000 and 0x7000 of die 0 (R388, R385, R382). -/
def platReg (s : State) (off : Nat) : W64 :=
  let p := s.plat
  let pool := fun (d : BitVec 3) => 0#6 ++ (s.die d).pool
  match off with
  | 0x4008 => p.dbgData
  | 0x4010 => bit p.dbgBusy ++ 0#55 ++ p.dbgStatus
  | 0x6000 => p.fwVer ++ p.cfgSeq ++ p.tdbg ++ 0#6 ++ p.sec
  | 0x7000 => p.pwrCap.setWidth 64
  | 0x7008 => p.pwrNow.setWidth 64
  | 0x7010 => pool 3 ++ pool 2 ++ pool 1 ++ pool 0
  | 0x7018 => pool 7 ++ pool 6 ++ pool 5 ++ pool 4
  | 0x7020 => p.reserve.setWidth 64
  | _ =>
    if 0x6008 ≤ off ∧ off < 0x6048 then p.fwHash.extractLsb' (8 * (off - 0x6008)) 64
    else if 0x6080 ≤ off ∧ off < 0x60C0 then p.idPub.extractLsb' (8 * (off - 0x6080)) 64
    else if 0x60C0 ≤ off ∧ off < 0x6100 then p.attPub.extractLsb' (8 * (off - 0x60C0)) 64
    else 0

/-- An interface page's registers (R354). -/
def ifaceReg (x : Iface) (off : Nat) : W64 :=
  match off with
  | 0x000 => x.subTail.setWidth 64 | 0x008 => x.subHead.setWidth 64
  | 0x010 => putBit x.cfg 61 x.resetting
  | 0x020 => x.cqBase | 0x028 => x.cqCtl | 0x030 => x.cqTail.setWidth 64 | 0x038 => x.cqHead.setWidth 64
  | 0x040 => x.tokBase | 0x048 => x.tokCtl | 0x050 => x.tokTail.setWidth 64 | 0x058 => x.tokHead.setWidth 64
  | _ => if 0x800 ≤ off then Sparse.get x.slots ((off - 0x800) / 8) else 0

/-- The 8-byte register at an address of regions 2 to 4; 0 where no register lies (R15). Only system code reaches the
partition registers (R323). -/
def regRead (s : State) (priv : Bool) (pa : Nat) : W64 :=
  let d := paDie pa
  let off := paOff pa / 8 * 8
  match paRegion pa with
  | 2 =>
    if off < 0x80000 then queueReg s d (BitVec.ofNat 7 (off / 0x1000)) (off % 0x1000)
    else if off < 0x80800 then Sparse.get (s.die d).ctrs ((off - 0x80000) / 8)
    else if 0x90000 ≤ off ∧ off < 0x92000 then
      (Sparse.get (s.die d).pbufs ((off - 0x90000) / 32)).extractLsb' (8 * (off % 32)) 64
    else 0
  | 3 =>
    if 0x2000 ≤ off ∧ off < 0x2038 then tcbReg (s.die d) (off - 0x2000)
    else if 0x100000 ≤ off ∧ off < 0x180000 then
      coreReg (s.core (d ++ BitVec.ofNat 7 ((off - 0x100000) / 0x1000))) (off % 0x1000)
    else if d ≠ 0 then 0
    else if 0x3000 ≤ off ∧ off < 0x3400 then
      (if priv then partReg s (BitVec.ofNat 3 ((off - 0x3000) / 0x80)) (off % 0x80) else 0)
    else if 0x5000 ≤ off ∧ off < 0x5800 then mantelReg (s.mantel (BitVec.ofNat 3 ((off - 0x5000) / 0x100))) (off % 0x100)
    else if 0x1000000 ≤ off ∧ off < 0x1010000 then
      (Sparse.get s.act ((off - 0x1000000) / 16)).extractLsb' (8 * (off % 16)) 64
    else platReg s off
  | 4 => if (d = 0 ∨ d = 4) ∧ off < 0x1000000 then ifaceReg (s.iface (BitVec.ofNat 12 (off / 0x1000))) (off % 0x1000) else 0
  | _ => 0

/-- n bytes of register space of regions 2 to 4. -/
def regBytes (s : State) (priv : Bool) (pa : Nat) : Nat → Nat
  | 0 => 0
  | n + 1 => bitsOf (regRead s priv pa) (8 * (pa % 8)) 8 + 256 * regBytes s priv (pa + 1) n

/-- A register that only system code may write (R305, R323, R354, R364, R382). -/
def sysOnlyReg (pa : Nat) : Bool :=
  let off := paOff pa
  match paRegion pa with
  | 3 => decide (0x3000 ≤ off ∧ off < 0x4000) || decide (0x7000 ≤ off ∧ off < 0x8000) || decide (0x1000000 ≤ off) ||
      (decide (0x100000 ≤ off ∧ off < 0x180000) && decide (0x200 ≤ off % 0x1000 ∧ off % 0x1000 < 0x280))
  | 4 => decide (off % 0x1000 / 8 = 2)
  | _ => false
/-- The debug port: no stream and no engine of this package writes it (R388). -/
def isDebugPort (pa : Nat) : Bool :=
  paRegion pa == 3 && paDie pa == 0 && decide (0x4000 ≤ paOff pa ∧ paOff pa < 0x5000)
/-- What a write by an agent puts into a register: the clear of a mantel is system code's (R387). -/
def regMask (priv : Bool) (pa : Nat) (v : W64) : W64 :=
  if !priv && paRegion pa == 3 && paDie pa == 0 && decide (0x5000 ≤ paOff pa ∧ paOff pa < 0x5800 ∧ paOff pa % 0x100 / 8 = 9)
  then putBit v 0 false else v

/-- A register that is written only: its writes act, and it reads as zero (R6, R76, R323, R354, R387, R388). -/
def writeOnlyReg (pa : Nat) : Bool :=
  let off := paOff pa / 8 * 8
  match paRegion pa with
  | 2 => decide (off < 0x80000 ∧ off % 0x1000 = 0x028)
  | 3 => paDie pa == 0 && (decide (0x3000 ≤ off ∧ off < 0x3400 ∧ off % 0x80 = 0x28) || off == 0x4000 ||
      decide (0x5000 ≤ off ∧ off < 0x5800 ∧ off % 0x100 = 0x48))
  | 4 => off % 0x1000 == 0x018
  | _ => false
/-- Bytes written from an address on, cut where 8-byte registers meet; `n` bounds the pieces. -/
def cutRegs : Nat → Nat → List Byte → List (Nat × List Byte)
  | 0, _, _ => []
  | n + 1, pa, l =>
    let k := 8 - pa % 8
    if l.isEmpty then [] else (pa, l.take k) :: cutRegs n (pa + k) (l.drop k)
def regPieces (pa : Nat) (l : List Byte) : List (Nat × List Byte) := cutRegs l.length pa l
/-- A store of up to 8 bytes within a register performs in the step after it, merged with the register's other bytes as the stores
before it leave them; what an earlier store put into a register that is written only has acted, and is not written again (R6; log 17). -/
def State.queueReg (s : State) (priv : Bool) (pa : Nat) (l : List Byte) : State :=
  match l with
  | [] => s
  | _ =>
    let a8 := pa / 8 * 8
    let p := s.agenda.span (fun m => match m with | .event (.registerWrite ..) => true | _ => false)
    let old := (p.1.reverse.findSome? (fun m => match m with
      | .event (.registerWrite a v) => if a.toNat = a8 ∧ writeOnlyReg a8 = false then some v else none
      | _ => none)).getD (regRead s priv a8)
    let v := putBits old (8 * (pa % 8)) (8 * min l.length 8) (bytesToNat (l.take 8))
    { s with agenda := p.1 ++ .event (.registerWrite (BitVec.ofNat 64 a8) (regMask priv a8 v)) :: p.2 }

end Sys2Proof.Machine
end

