-- ==== Sys2Proof/Machine/Memory.lean ====
section
/-! DEFINITION. Translation, windows, first touch, and accesses to global physical addresses (R12 to R36, R52 to R58, R67,
R68, R335). -/

namespace Sys2Proof.Machine

/-- Why an access or an instruction does not complete: a fault or trap, the deferred faults of several pages (R321), it is not
ready and waits, or an access stalls until a page is scrubbed (R36, R37). -/
inductive Stop where
  | fault (i : Info)
  | pages (l : List Info) (more : Bool)
  | stall
  | scrub
deriving DecidableEq, Repr

/-- A computation over the state that may stop. -/
abbrev Acc := EStateM Stop State

/-- Raises a cause that concerns no address. -/
def raise {α : Type} (c : Cause) : Acc α := throw (.fault { cause := c, here := true })
/-- The instruction is not ready. -/
def notReady {α : Type} : Acc α := throw .stall

/-- Kinds of access (R23); the codes are those of R322. -/
inductive AKind where | read | write | atomic | fetch
deriving DecidableEq, Repr
def AKind.code : AKind → BitVec 2 | .read => 0 | .write => 1 | .atomic => 2 | .fetch => 3
def AKind.writes : AKind → Bool | .write | .atomic => true | _ => false

/-- Who makes an access: the die whose walker translates, the core whose TLB serves (none for an engine), the address
space, the privilege, and the block the access counts for (R67). -/
structure Agent where
  die   : BitVec 3
  core  : Option (BitVec 10)
  pasid : BitVec 20
  priv  : Bool
  who   : Option (BitVec 3 × W32 × W32) := none

/-- The agent of a group's streams. -/
def groupAgent (gid : Gid) (g : Group) : Agent :=
  { die := gid.die, core := some gid.core, pasid := g.pasid, priv := g.priv,
    who := some (g.part, g.launch, g.block) }

/-- Bits 63:55 equal bit 54 (R16). -/
def canonical (va : W64) : Bool :=
  let t := va.extractLsb' 54 10
  t == 0 || t == BitVec.allOnes 10

/-- What the tables hold for an address (R19, R20, R22), or that a word of them could not be corrected (R335). -/
inductive WalkOut where
  | ecc
  | bad (c : BitVec 4) (entry : W64)
  | zeroFill (e : W64) (addr : Nat)
  | leaf (lvl : Nat) (e : W64) (addr : Nat)

/-- A not-present entry that the first-touch unit may serve (R22). -/
def isZeroFill (lvl : Nat) (e : W64) : Bool := lvl == 2 && bitOf e 1 && bitsOf e 11 53 == 0 && bitsOf e 4 4 == 0

/-- Extent of a region on a die (R15). -/
def extent (die : BitVec 3) : Nat → Nat
  | 1 => 0x8000000
  | 2 => 0x92000
  | 3 => if die = 0 then 0x1010000 else 0x180000
  | 4 => if die = 0 ∨ die = 4 then 0x1000000 else 0
  | _ => 0

/-- The frame of a leaf (R21). -/
def leafFrame (e : W64) : Nat := e.toNat / 2 ^ 16 * 2 ^ 16

/-- Format and range checks of a leaf, format first (R12, R15, R21). The extents of regions 1 to 4 are fixed; the reserve and the
zero frame of region 0 are this package's (log 7). -/
def checkLeaf (s : State) (lvl : Nat) (e : W64) : Option (BitVec 4) :=
  let region := bitsOf e 46 3
  let node := bitsOf e 52 12
  let die := e.extractLsb' 49 3
  let isZero := decide (leafFrame e = ((s.die die).zeroFrame).toNat)
  if bitsOf e 11 4 != 0 || bitsOf e 9 2 == 3 || (lvl == 1 && bitsOf e 16 13 != 0) || (lvl == 0 && bitsOf e 16 26 != 0) ||
     (bitOf e 6 && bitOf e 7) ||
     (bitOf e 15 && !(lvl == 2 && node == 0 && region == 0 && !bitOf e 2 && isZero)) ||
     (decide (1 ≤ region ∧ region ≤ 4) && !(lvl == 2 && bitsOf e 9 2 == 2))
  then some 4
  else if 5 ≤ region then some 5
  else if region = 0 then
    (if node ≠ 0 then none
     else if lvl == 2 && !bitOf e 2 && isZero then none
     else if Config.hbmLimit.toNat < bitsOf e 0 46 / 2 ^ 16 * 2 ^ 16 + pageSize lvl then some 5 else none)
  else if extent die region ≤ bitsOf e 0 46 / 2 ^ 16 * 2 ^ 16 then some 5 else none

/-- Address of a PASID entry (R17, R18). -/
def pasidAddr (s : State) (die : BitVec 3) (n : BitVec 20) : Nat :=
  ((s.die die).ptBase &&& 0x000E3FFFFF000000#64).toNat + n.toNat * 16

/-- The three levels of a walk from table `tab` at level `lvl`; `n` levels are left (R19, R20, R23). -/
def walkFrom (s : State) (va : W64) : Nat → Nat → Nat → WalkOut
  | 0, _, _ => .bad 4 0
  | n + 1, lvl, tab =>
    let a := tab + bitsOf va (42 - 13 * lvl) 13 * 8
    let e := s.read64 a
    if s.bad a 8 then .ecc
    else if !bitOf e 0 then (if isZeroFill lvl e then .zeroFill e a else .bad 3 e)
    else if bitOf e 1 then (match checkLeaf s lvl e with
      | some c => .bad c e
      | none => .leaf lvl e a)
    else if bitsOf e 52 12 != 0 || bitsOf e 46 3 != 0 || bitsOf e 2 14 != 0 || lvl == 2 then .bad 4 e
    else walkFrom s va n (lvl + 1) (paOf (e.extractLsb' 49 3) 0 (bitsOf e 16 30 * 2 ^ 16))

/-- The walk of R23 up to its leaf. The `pte_format` checks of a leaf come before its range checks. -/
def walkTables (s : State) (die : BitVec 3) (n : BitVec 20) (va : W64) : WalkOut :=
  let lo := s.read64 (pasidAddr s die n)
  let hi := s.read64 (pasidAddr s die n + 8)
  if s.bad (pasidAddr s die n) 16 then .ecc
  else if !bitOf lo 0 then .bad 2 0
  else if bitsOf lo 1 15 != 0 || bitsOf lo 46 3 != 0 || bitsOf lo 52 12 != 0 || bitsOf hi 46 3 != 0 || bitsOf hi 52 12 != 0
  then .bad 4 0
  else walkFrom s va 3 0 (paOf (lo.extractLsb' 49 3) 0 (bitsOf lo 16 30 * 2 ^ 16))

/-- A hint record matches an address (R31). -/
def hintMatches (r : BitVec 256) (va : W64) : Bool :=
  bitsOf r 140 52 == 0 && bitsOf r 134 2 == 0 && bitsOf r 129 3 == 0 &&
  decide (bitsOf r 0 64 < bitsOf r 64 64) && decide (bitsOf r 0 64 ≤ va.toNat) && decide (va.toNat < bitsOf r 64 64)
/-- The first matching record from index i, of `n` left (R31). -/
def findHint (s : State) (tab : Nat) (va : W64) : Nat → Nat → Option (Nat × BitVec 256)
  | 0, _ => none
  | n + 1, i =>
    let r := BitVec.ofNat 256 (peek s.mem (tab + 32 * i) 32)
    if hintMatches r va then some (i, r) else findHint s tab va n (i + 1)
/-- The hint record of an address in a PASID (R17, R31). -/
def hintOf (s : State) (die : BitVec 3) (n : BitVec 20) (va : W64) : Option (Nat × BitVec 256) :=
  let lo := s.read64 (pasidAddr s die n)
  let hi := s.read64 (pasidAddr s die n + 8)
  if bitOf lo 0 then findHint s (paOf (hi.extractLsb' 49 3) 0 (bitsOf hi 8 38 * 256)) va (bitsOf hi 0 8) 0 else none

/-- A word of the hint table could not be corrected: of the PASID entry, or of a record up to the matching one (R31, R335). -/
def hintBad (s : State) (die : BitVec 3) (n : BitVec 20) (va : W64) : Bool :=
  let hi := s.read64 (pasidAddr s die n + 8)
  let k := match hintOf s die n va with | some x => x.1 + 1 | none => bitsOf hi 0 8
  s.bad (pasidAddr s die n) 16 || (bitOf (s.read64 (pasidAddr s die n)) 0 && s.bad (paOf (hi.extractLsb' 49 3) 0 (bitsOf hi 8 38 * 256)) (32 * k))

/-- An access that consumes a word which could not be corrected (R335). -/
def dataFault {α : Type} (va : W64) (k : AKind) : Acc α := throw (.fault { cause := .dataError, va := va, acc := k.code })
/-- A translation fault with the fields of its record (R31, R322). -/
def xlatFault {α : Type} (ag : Agent) (va : W64) (k : AKind) (c : BitVec 4) (e : W64) : Acc α := do
  let s ← get
  if hintBad s ag.die ag.pasid va then dataFault va k
  let h := match hintOf s ag.die ag.pasid va with | some x => BitVec.ofNat 8 x.1 | none => 0xFF
  throw (.fault { cause := .xlat c, va := va, entry := e, acc := k.code, hint := h })

/-- Whether a translation for a page of an address covers it. -/
def TlbEntry.covers (t : TlbEntry) (n : BitVec 20) (va : W64) : Bool :=
  t.pasid == n && decide (t.page = bitsOf va 0 55 / pageSize t.lvl.toNat)

/-- The first-touch unit of a die is enabled (R18, R34). -/
def ftzOn (d : Die) : Bool := decide (6 ≤ bitsOf d.ftzRing 0 5 ∧ bitsOf d.ftzRing 0 5 ≤ 16)
/-- Frames in the pool (R34). -/
def poolCount (d : Die) : Nat := (d.ftzTail - d.ftzHead).toNat

/-- A pool that has again reached the threshold can fall below it anew (R34; log 37). -/
def State.poolRearm (s : State) (die : BitVec 3) : State :=
  let d := s.die die
  if d.ftzLow.toNat ≤ poolCount d then s.setDie die { d with lowPosted := false } else s
/-- Posts `pool_low` when an entry taken has left the pool below the threshold (R34). -/
def State.poolCheck (s : State) (die : BitVec 3) : State :=
  let d := s.die die
  if d.ftzLow.toNat ≤ poolCount d then s.poolRearm die
  else if d.lowPosted then s
  else (s.setDie die { d with lowPosted := true }).notify die (d.ftzRing.extractLsb' 5 3) 1 0 (BitVec.ofNat 64 (poolCount d))

/-- The address of entry k of a die's ring, and the entry (R34). -/
def ringPlace (s : State) (die : BitVec 3) (k : Nat) : Nat :=
  let d := s.die die
  paOf die 0 (bitsOf d.ftzRing 12 34 * 2 ^ 12 + 8 * (k % 2 ^ bitsOf d.ftzRing 0 5))
def ringEntry (s : State) (die : BitVec 3) (k : Nat) : W64 := s.read64 (ringPlace s die k)
/-- A ring entry that names a usable frame of its die (R34). -/
def goodFrame (die : BitVec 3) (e : W64) : Bool :=
  bitsOf e 0 16 == 0 && decide (paNode e.toNat = 0) && paDie e.toNat == die && decide (paRegion e.toNat = 0) &&
  decide (paOff e.toNat < Config.hbmLimit.toNat)

/-- Takes the next good frame of a die's ring, discarding bad entries; a frame not yet zeroed is zeroed as it is handed
out (R34). `n` bounds the entries looked at. -/
def takeFrame (die : BitVec 3) (va : W64) (k : AKind) : Nat → Acc (Option W64)
  | 0 => pure none
  | n + 1 => do
    let s ← get
    let d := s.die die
    if poolCount d = 0 then pure none
    else if s.bad (ringPlace s die d.ftzHead.toNat) 8 then dataFault va k
    else
      let e := ringEntry s die d.ftzHead.toNat
      let s1 := s.setDie die { d with ftzHead := d.ftzHead + 1, zeroed := d.zeroed.filter (fun f => f != e) }
      if goodFrame die e then
        set ((if d.zeroed.contains e then s1 else s1.zeroRange e.toNat 0x10000).poolCheck die)
        pure (some e)
      else
        set ((s1.notify die (d.ftzRing.extractLsb' 5 3) 2 e 0).poolCheck die)
        takeFrame die va k n

/-- The first-touch unit (R32, R33). `zf`: the entry is a zero-fill entry, else a zero-frame leaf with zw = 1. -/
def firstTouch (ag : Agent) (va : W64) (k : AKind) (e : W64) (addr : Nat) (zf : Bool) : Acc Unit := do
  let s ← get
  if hintBad s ag.die ag.pasid va then dataFault va k
  let h := hintOf s ag.die ag.pasid va
  let flag := fun (i : Nat) => match h with | some x => bitOf x.2 i | none => false
  let home := match h with | some x => if bitOf x.2 139 then x.2.extractLsb' 136 3 else ag.die | none => ag.die
  if flag 132 || flag 133 || !ftzOn (s.die home) || !ftzOn (s.die ag.die) then xlatFault ag va k 3 e
  else if zf && !k.writes && flag 128 then
    let z := (s.die home).zeroFrame
    set (s.write64 addr ((z &&& 0xFFFFFFFFFFFF0000#64) ||| (e &&& 0x708#64) ||| (if bitOf e 2 then 0x8000#64 else 0) ||| 0x13#64))
  else
    match ← takeFrame home va k (poolCount (s.die home)) with
    | none => xlatFault ag va k 3 e
    | some f =>
      let keep := if zf then e &&& 0x70C#64 else (e &&& 0x708#64) ||| 4#64
      let leaf := (f &&& 0xFFFFFFFFFFFF0000#64) ||| keep ||| (if k.writes then 0x33#64 else 0x13#64)
      modify (fun s => s.write64 addr leaf)
      if zf then pure () else modify (fun s => s.invalidate (fun _ => true) ag.pasid (va.toNat / 2 ^ 16 * 2 ^ 16) 0x10000)

/-- An access has stalled on a leaf under scrub (R36). -/
def State.noteStall (s : State) (a lvl : Nat) : State :=
  if s.stalls.contains (a, lvl) then s else { s with stalls := (a, lvl) :: s.stalls }
/-- What has stalled in a state that the machine does not go on from (R36). -/
def State.noted (s s1 : State) : State := { s with stalls := s1.stalls }
/-- What an engine's work answers; an error is the state in which one of its accesses has stalled. -/
abbrev Tried := Except State
/-- The state that an engine's work leaves: its own, or, while an access of it stalls, the state before it (R36). -/
def State.orWait (s : State) : Tried State → State
  | .ok t => t
  | .error s1 => s.noted s1
/-- An access stalls until the page of a leaf has been scrubbed (R36). -/
def scrubStall {α : Type} (a lvl : Nat) : Acc α := do
  modify (fun s => s.noteStall a lvl)
  throw .scrub

/-- Translates by a walk (R23, R25), serving first touches; `n` bounds the restarts. Gives the address, the leaf and its
level. A first touch installs its leaf before the entry's own sys, w and x are checked: the walk that follows it checks the leaf
(DESIGN CHOICE, log 97). -/
def translateWalk (ag : Agent) (va : W64) (k : AKind) : Nat → Acc (Nat × W64 × Nat)
  | 0 => notReady
  | n + 1 => do
    let s ← get
    match walkTables s ag.die ag.pasid va with
    | .ecc => dataFault va k
    | .bad c e => xlatFault ag va k c e
    | .zeroFill e a => do firstTouch ag va k e a true; translateWalk ag va k n
    | .leaf lvl e a =>
      if bitOf e 8 && !ag.priv then xlatFault ag va k 8 e
      else if k.writes && !bitOf e 2 && bitOf e 15 then do firstTouch ag va k e a false; translateWalk ag va k n
      else if k.writes && !bitOf e 2 then xlatFault ag va k 6 e
      else if k = .fetch && !bitOf e 3 then xlatFault ag va k 7 e
      else if k.writes && bitOf e 6 then xlatFault ag va k 9 e
      else if bitOf e 7 then scrubStall a lvl
      else
        let e1 := e ||| (if k.writes then 0x30#64 else 0x10#64)
        set (if e1 = e then s else s.write64 a e1)
        pure (leafFrame e + bitsOf va 0 55 % pageSize lvl, e1, lvl)

/-- A cached leaf permits the access as it stands (R26, R29; log 8). -/
def leafPermits (priv : Bool) (e : W64) (k : AKind) : Bool :=
  (priv || !bitOf e 8) && (!k.writes || (bitOf e 2 && bitOf e 5 && !bitOf e 6)) && (k != .fetch || bitOf e 3) && !bitOf e 7

/-- The link to another node has been lost (R391; log 78). -/
def State.linkDown (s : State) (node : Nat) : Bool :=
  let p := Config.portOf node % 24
  bitOf (s.die (BitVec.ofNat 3 (p / 3))).portsDown (p % 3)
/-- An access to another node needs that node's link and its admission (R15, R391; log 7). -/
def admitNode (ag : Agent) (va : W64) (k : AKind) (pa : Nat) (e : W64) : Acc Nat := do
  if paNode pa = 0 then pure pa
  else
    let s ← get
    if s.linkDown (paNode pa) then dataFault va k
    else do
      set { s with fresh := s.fresh + 1 }
      if Config.peerAdmits s.fresh then pure pa else xlatFault ag va k 11 e

/-- The physical address and the leaf of an access: the enable of the die, canonical form, the core's TLB where it permits, else
a walk that fills it (R18, R16, R23, R26). -/
def translateLeaf (ag : Agent) (va : W64) (k : AKind) : Acc (Nat × W64) := do
  let s ← get
  if !bitOf (s.die ag.die).ptBase 0 then xlatFault ag va k 10 0
  else if !canonical va then xlatFault ag va k 1 0
  else
    let tl := match ag.core with | some c => (s.core c).tlb | none => []
    match tl.find? (fun t => t.covers ag.pasid va && leafPermits ag.priv t.leaf k) with
    | some t => pure (leafFrame t.leaf + bitsOf va 0 55 % pageSize t.lvl.toNat, t.leaf)
    | none => do
      let (pa, e, lvl) ← translateWalk ag va k 4
      match ag.core with
      | none => pure ()
      | some c =>
        modify (fun s =>
          let x := s.core c
          let page := bitsOf va 0 55 / pageSize lvl
          let t1 : TlbEntry := { pasid := ag.pasid, lvl := BitVec.ofNat 2 lvl, page := page, leaf := e }
          let rest := x.tlb.filter (fun t => !(t.pasid == ag.pasid && t.page == page && t.lvl.toNat == lvl))
          s.setCore c { x with tlb := t1 :: rest })
      pure (pa, e)
/-- Translates an access; another node's admission comes last (R15, R23). -/
def translate (ag : Agent) (va : W64) (k : AKind) : Acc Nat := do
  let (pa, e) ← translateLeaf ag va k
  admitNode ag va k pa e

/-- Sets a window from its base, or retranslates it (R27, R28, R30): a read by the group that never faults, never calls
on the first-touch unit. A base that does not translate leaves limit 0, its flags cleared, and `pa` and `pol` 0 too (DESIGN
CHOICE, log 75). -/
def windowOf (ag : Agent) (base : W64) : Acc Window := do
  let s ← get
  let none0 : Window := { base := base }
  if !bitOf (s.die ag.die).ptBase 0 || !canonical base then pure none0
  else
    match walkTables s ag.die ag.pasid base with
    | .ecc => dataFault base .read
    | .leaf lvl e a =>
      if bitOf e 8 && !ag.priv then pure none0
      else if bitOf e 7 then scrubStall a lvl
      else
        let e1 := e ||| 0x10#64
        set (if e1 = e then s else s.write64 a e1)
        let off := bitsOf base 0 55 % pageSize lvl
        pure { base := base, pa := BitVec.ofNat 64 (leafFrame e + off), limit := BitVec.ofNat 34 (min (pageSize lvl - off) (2 ^ 33)),
               pol := e.extractLsb' 9 2, sys := bitOf e 8, d := bitOf e 5, x := bitOf e 3, w := bitOf e 2, lvl := BitVec.ofNat 2 lvl,
               mig := bitOf e 6 }
    | _ => pure none0

/-- R29. A write through a window of a migrating page takes the full path as well, where the walk decides: R29's list names no
mig, and R35 lets no write reach the old frame (DEDUCED, log 92). -/
def Window.permits (w : Window) (priv : Bool) (k : AKind) : Bool :=
  !(k.writes && (!w.w || !w.d || w.mig)) && !(k = .fetch && !w.x) && !(w.sys && !priv)
/-- Window wi of a group. -/
def State.window (s : State) (gid : Gid) (wi : BitVec 3) : Window := (s.group gid).win.getD wi.toNat {}
def State.setWindow (s : State) (gid : Gid) (wi : BitVec 3) (w : Window) : State :=
  let g := s.group gid
  s.setGroup gid { g with win := vset g.win wi.toNat w }

/-- An access through window wi of a group with offset o (R29, R30). -/
def windowAccess (gid : Gid) (wi : BitVec 3) (o : Nat) (k : AKind) : Acc Nat := do
  let s ← get
  let g := s.group gid
  let ag := groupAgent gid g
  if (s.window gid wi).stale then
    let w1 ← windowOf ag (s.window gid wi).base
    modify (fun s => s.setWindow gid wi w1)
  let w := (← get).window gid wi
  if o < w.limit.toNat ∧ w.permits g.priv k then admitNode ag (w.base + BitVec.ofNat 64 o) k (w.pa.toNat + o) 0
  else
    let pa ← translate ag (w.base + BitVec.ofNat 64 o) k
    if o < w.limit.toNat ∧ k.writes then modify (fun s => s.setWindow gid wi { s.window gid wi with d := true })
    pure pa

/-! Accesses to physical addresses -/

/-- A writer index above the block's own in the chunks of a range, in the block's launch (R67, R68). Of several such chunks the
first in the list of tags is named (DESIGN CHOICE, log 98). -/
def tagAbove (s : State) (w : BitVec 3 × W32 × W32) (pa n : Nat) : Option W32 :=
  if s.isDet w.1 w.2.1 then
    (s.dtags.find? (fun t => t.part == w.1 && t.launch == w.2.1 && decide (pa / 16 ≤ t.chunk ∧ t.chunk * 16 < pa + n) &&
      decide (w.2.2.toNat < t.block.toNat))).map (fun t => t.block)
  else none

/-- A write tags its chunks with the greater of the block's index and the tag (R67). -/
def State.tagWrite (s : State) (w : Option (BitVec 3 × W32 × W32)) (pa n : Nat) : State :=
  match w with
  | none => s
  | some (p, l, b) =>
    if s.isDet p l && inHbm pa && n != 0 then
      let cs := (List.range ((pa + n - 1) / 16 - pa / 16 + 1)).map (fun i => pa / 16 + i)
      { s with dtags := cs.foldl (fun ts c =>
          match ts.find? (fun t => t.part == p && t.launch == l && t.chunk == c) with
          | some t => if t.block.toNat < b.toNat then
              ts.map (fun u => if u.part == p && u.launch == l && u.chunk == c then { u with block := b } else u) else ts
          | none => { part := p, launch := l, chunk := c, block := b } :: ts) s.dtags }
    else s

/-- Bytes of another node: free values (log 7). -/
def peerBytes : Nat → Nat → Nat
  | 0, _ => 0
  | n + 1, i => (Config.peerByte i).toNat + 256 * peerBytes n (i + 1)

/-- A read of n bytes at its home. `va` names the access in a fault (R68, R335). -/
def physRead (ag : Agent) (va : W64) (pa n : Nat) : Acc Nat := do
  let s ← get
  if paNode pa ≠ 0 then do
    set { s with fresh := s.fresh + n }
    pure (peerBytes n s.fresh)
  else if paRegion pa < 2 then
    match ag.who.bind (fun w => if inHbm pa then tagAbove s w pa n else none) with
    | some j => throw (.fault { cause := .detOrder, va := va, aux := j })
    | none => if s.bad pa n then throw (.fault { cause := .dataError, va := va }) else pure (peek s.mem pa n)
  else pure (regBytes s ag.priv pa n)

/-- A store to a register by a stream or an engine (R323, R388; log 17). -/
def State.regStore (s : State) (ag : Agent) (pa : Nat) (l : List Byte) : State :=
  if (sysOnlyReg pa && !ag.priv) || isDebugPort pa then s else s.queueReg ag.priv pa l

/-- A write of bytes at its home (R42, R67, R224); each register that it covers is written (R6). -/
def physWrite (ag : Agent) (pa : Nat) (l : List Byte) : Acc Unit := do
  if paNode pa ≠ 0 then pure ()
  else if paRegion pa < 2 then modify (fun s => (s.write pa l).tagWrite ag.who pa l.length)
  else modify (fun s => (regPieces pa l).foldl (fun s p => s.regStore ag p.1 p.2) s)

/-- An access of n bytes may lie in two pages (R40, R321): the address of each byte, from one translation a page. -/
def byteAddrs (tr : Nat → Acc Nat) (o n : Nat) (va : W64) : Acc (List Nat) := do
  let first ← tr o
  let room := 0x10000 - va.toNat % 0x10000
  if n ≤ room then pure ((List.range n).map (first + ·))
  else
    let second ← tr (o + room)
    pure ((List.range n).map (fun i => if i < room then first + i else second + (i - room)))

/-- Reads bytes whose addresses are known: one read where they are contiguous, else two. -/
def readAddrs (ag : Agent) (va : W64) : List Nat → Acc Nat
  | [] => pure 0
  | a :: t =>
    let l := a :: t
    let k := ((List.range l.length).filter (fun i => l.getD i 0 = a + i)).length
    if k = l.length then physRead ag va a k
    else do
      let lo ← physRead ag va a k
      let hi ← physRead ag va (l.getD k 0) (l.length - k)
      pure (lo + 256 ^ k * hi)
/-- Writes bytes whose addresses are known. -/
def writeAddrs (ag : Agent) : List Nat → List Byte → Acc Unit
  | a :: t, bs =>
    let l := a :: t
    let k := ((List.range l.length).filter (fun i => l.getD i 0 = a + i)).length
    do
      physWrite ag a (bs.take k)
      if k < l.length then physWrite ag (l.getD k 0) (bs.drop k)
  | [], _ => pure ()

/-- A fault of a computation names its kind of access (R322). -/
def asKind {α : Type} (k : AKind) (m : Acc α) : Acc α := fun s =>
  match m s with
  | .error (.fault i) s' => .error (.fault { i with acc := k.code }) s'
  | r => r
/-- Reads n bytes at a virtual address (R23, R40). -/
def readVirt (ag : Agent) (va : W64) (n : Nat) (k : AKind) : Acc Nat := do
  let as ← byteAddrs (fun o => translate ag (va + BitVec.ofNat 64 o) k) 0 n va
  asKind k (readAddrs ag va as)
/-- Writes bytes at a virtual address. -/
def writeVirt (ag : Agent) (va : W64) (l : List Byte) : Acc Unit := do
  let as ← byteAddrs (fun o => translate ag (va + BitVec.ofNat 64 o) .write) 0 l.length va
  writeAddrs ag as l

/-! The shelf (R69 to R73) -/

/-- The block of a group. -/
def State.blockAt (s : State) (g : Group) : Option Block := s.blockOf g.part g.launch g.block

/-- Resolves a slot and an offset to the visible frame (R72). -/
def shelfResolve (gid : Gid) (sl o n : Nat) : Acc Nat := do
  let s ← get
  match s.blockAt (s.group gid) with
  | none => throw (.fault { cause := .shelfRange, va := BitVec.ofNat 64 (sl * 4096 + o) })
  | some b =>
    if b.slotCount.toNat ≤ sl ∨ 4096 < o + n then throw (.fault { cause := .shelfRange, va := BitVec.ofNat 64 (sl * 4096 + o) })
    else
      let e := Sparse.get (s.core gid.core).tags (b.slotBase.toNat + sl)
      if !bitOf e 63 then throw (.fault { cause := .shelfInvalid, va := BitVec.ofNat 64 (sl * 4096 + o) })
      else pure (frameBase gid.core (bitsOf e 48 8) + o)

/-- The tag-table entry of a slot of a block. -/
def State.tagOf (s : State) (b : Block) (sl : Nat) : W64 := Sparse.get (s.core b.core).tags (b.slotBase.toNat + sl)
def State.setTag (s : State) (b : Block) (sl : Nat) (e : W64) : State :=
  let c := s.core b.core
  s.setCore b.core { c with tags := Sparse.set c.tags (b.slotBase.toNat + sl) e }

/-- Frames of a block that hold neither a slot's content nor a shadow; lowest first (R71). -/
def freeFrames (s : State) (b : Block) : List (BitVec 8) :=
  let es := (List.range b.slotCount.toNat).map (fun i => s.tagOf b i)
  b.frames.filter (fun f => !(es.any (fun e => (bitOf e 63 && e.extractLsb' 48 8 == f) || (bitOf e 62 && e.extractLsb' 40 8 == f))))

end Sys2Proof.Machine
end

