-- ==== Sys2Proof/Machine/Trap.lean ====
section
/-! DEFINITION. Raising traps and deferring translation faults (R316 to R321, R329, R334, R202). -/

namespace Sys2Proof.Machine

/-! Host rings (R354, R356, R375) -/

/-- Bytes written to host bus memory on an interface's link. -/
def State.hostWrite (s : State) (link : Bool) (a : Nat) (l : List Byte) : State :=
  if link then { s with host1 := pokeBytes s.host1 a l } else { s with host0 := pokeBytes s.host0 a l }
/-- Raises an MSI-X vector on a link. -/
def State.raiseMsix (s : State) (link : Bool) (v : BitVec 8) : State := { s with msix := s.msix ++ [(link, v)] }
def Iface.link (x : Iface) : Bool := bitOf x.cfg 62
/-- Entries in a ring of 2^n that the host has not read fill it. -/
def ringFull (tail head : W32) (n : Nat) : Bool := decide (2 ^ n ≤ (tail - head).toNat)

/-- The token ring has room (R375). -/
def Iface.tokRoom (x : Iface) : Bool := !ringFull x.tokTail x.tokHead (bitsOf x.tokCtl 0 5)

/-- Appends one token entry to the ring of an interface that has room, and raises the vector at `coal` entries (R375). -/
def State.pushToken (s : State) (i : BitVec 12) (e : W64) : State :=
  let x := s.iface i
  let s := s.hostWrite x.link (x.tokBase.toNat + 8 * (x.tokTail.toNat % 2 ^ bitsOf x.tokCtl 0 5)) (natToBytes 8 e.toNat)
  let hit := decide (bitsOf x.tokCtl 16 8 ≠ 0 ∧ bitsOf x.tokCtl 16 8 ≤ x.unsignalled + 1)
  let s := s.setIface i { x with tokTail := x.tokTail + 1, unsignalled := if hit then 0 else x.unsignalled + 1 }
  if hit then s.raiseMsix x.link (x.tokCtl.extractLsb' 8 8) else s

/-- Appends a token entry, or keeps it waiting while the ring is full; with en = 0 nothing is appended (R354, R375). -/
def State.appendToken (s : State) (i : BitVec 12) (e : W64) : State :=
  let x := s.iface i
  if !bitOf x.tokCtl 63 then s
  else if x.tokens = [] ∧ x.tokRoom = true then s.pushToken i e
  else s.setIface i { x with tokens := x.tokens ++ [e] }

/-- Appends waiting entries while there is room; `n` bounds them. -/
def State.flushTokens (s : State) (i : BitVec 12) : Nat → State
  | 0 => s
  | n + 1 =>
    let x := s.iface i
    match x.tokens with
    | [] => s
    | e :: t => if bitOf x.tokCtl 63 && x.tokRoom then ((s.setIface i { x with tokens := t }).pushToken i e).flushTokens i n else s

/-! Logit callables (R334) -/

/-- The token entry of an SCR (R375). -/
def tokenEntry (seq : W64) (status : BitVec 8) (token : W32) : W64 := seq.extractLsb' 0 24 ++ status ++ token

/-- Marks the sequence of a failed block: status `logit_fault`, the sentinel token in its token slot and ring, the SCR
ended with error (R334). Words of the SCR that could not be corrected are not consumed, and mark nothing (R335; log 100). -/
def logitMark (ag : Agent) (tab : W64) (block : W32) (iface : BitVec 12) : Acc Unit := do
  let scrV ← readVirt ag (tab + BitVec.ofNat 64 (8 * block.toNat)) 8 .read
  let scr ← translate ag (BitVec.ofNat 64 scrV) .atomic
  let s ← get
  if s.bad scr 8 || s.bad (scr + 0x38) 8 || s.bad (scr + 0xC0) 24 then dataFault (BitVec.ofNat 64 scrV) .read
  let w0 := s.read64 scr
  let e := tokenEntry (s.read64 (scr + 0xD0)) 1 0xFFFFFFFF
  set (((s.write64 scr (w0 ||| 0x6000000000000000#64)).write (scr + 0xC8) [1]).appendToken iface e)
  let ag2 := { ag with pasid := (s.read64 (scr + 0x38)).extractLsb' 0 20 }
  writeVirt ag2 (s.read64 (scr + 0xC0)) (natToBytes 8 e.toNat)

/-- A trap's record as one of kind 3: it names the request's sequence index, which is the block index (R322, R334, R358). -/
def logitRecord (r : BitVec 512) (block : W32) : BitVec 512 :=
  (r &&& ~~~((0xF#512 <<< 60) ||| (0xFFFFFFFF#512 <<< 320))) ||| (3#512 <<< 60) ||| (block.setWidth 512 <<< 320)
/-- A logit callable's block fails; `r`: the record of what failed (R334). While the marking stalls, nothing has failed yet (R36). -/
def State.logitFail (s : State) (gid : Gid) (r : BitVec 512) : State :=
  let g := s.group gid
  match s.launchOf g.part g.launch with
  | none => s.endGroup gid
  | some l =>
    let ag : Agent := { die := gid.die, core := some gid.core, pasid := l.record.extractLsb' 128 20, priv := l.priv }
    let fail := fun (s : State) =>
      let gids := match s.blockOf g.part g.launch g.block with | some b => b.gids | none => [gid]
      (gids.foldl (fun s x => s.endGroup x) s).post g.part [logitRecord r g.block]
    match (logitMark ag (l.record.extractLsb' 704 64) g.block l.iface).run s with
    | .ok _ s1 => fail s1
    | .error .scrub s1 | .error .stall s1 => s.noted s1
    | .error _ s1 => fail s1

/-! Raising (R316, R329) -/

/-- The address of the lane word a group stands at (R166). -/
def Group.laneAddr (g : Group) : W64 := g.ln.lbase + BitVec.ofNat 64 (12 * g.ln.lpc.toNat)

/-- What a record names of its instruction: the instruction's own address where no other is concerned (R322; log 63). -/
def Info.named (i : Info) (addr : W64) : Info := if i.here then { i with va := addr } else i

/-- The recorded error of the array's sequencer, if the group holds the array: the step and the loop (R147). -/
def State.mxErrOf (s : State) (gid : Gid) : Option (BitVec 13 × Loop) :=
  let x := (s.core gid.core).mx
  match x.err, x.loop with
  | some e, some l => if s.holds gid then some (e.2, l) else none
  | _, _ => none
/-- The error has been raised (R149). -/
def State.clearMxErr (s : State) (gid : Gid) : State :=
  let c := s.core gid.core
  s.setCore gid.core { c with mx := { c.mx with err := none } }
/-- The `data_error` of the sequencer names the `mloop` and the step (R147; log 22). -/
def mxErrInfo (step : BitVec 13) : Info := { cause := .dataError, here := true, aux := step.setWidth 32 }

/-- A trap that has reached a group: it enters the handler, or the group ends where R202, R329 or R334 says so. -/
def State.takeTrap (s : State) (gid : Gid) (lane : Bool) (info : Info) (addr : W64) (word : BitVec 96) (spc : W64) : State :=
  let g := s.group gid
  let info := info.named addr
  if g.h.on then (s.post g.part [groupRecord 5 gid g info lane addr word 0 0 false]).exitGroup gid
  else if s.isLogit g.part g.launch && info.cause != .preempt && info.cause != .restore then
    s.logitFail gid (groupRecord 0 gid g info lane addr word 0 0 false)
  else if g.st = .exiting then (s.post g.part [groupRecord 0 gid g info lane addr word 0 0 false]).exitGroup gid
  else s.enterHandler gid info.cause (groupRecord 0 gid g info lane addr word 0 0 false) spc g.ln.lpc
/-- The device takes a trap with a cause at an instruction. `spc`: where the program continues. At the trap point a recorded
error of the array comes first (R147). -/
def State.raiseTrap (s : State) (gid : Gid) (lane : Bool) (info : Info) (addr : W64) (word : BitVec 96) (spc : W64) : State :=
  match s.mxErrOf gid with
  | some (k, l) => (s.clearMxErr gid).takeTrap gid true (mxErrInfo k) l.addr l.word spc
  | none => s.takeTrap gid lane info addr word spc

/-- The device takes a trap that no instruction of the moving stream has raised, at a group's scalar pc as its place to go on from; one
that reaches a halted group is taken when it resumes, the first to come (R389). -/
def State.reachTrap (s : State) (gid : Gid) (lane : Bool) (info : Info) (addr : W64) (word : BitVec 96) : State :=
  let g := s.group gid
  if g.h.halted then
    if g.h.pend.isSome then s
    else
      let x : PendTrap := { cause := info.cause, record := groupRecord 0 gid g (info.named addr) lane addr word 0 0 false, pc := g.pc, lpc := g.ln.lpc }
      s.setGroup gid { g with h := { g.h with pend := some x } }
  else s.raiseTrap gid lane info addr word g.pc

/-- Posts the records of deferred faults of one instruction, one for each page, up to 64 (R318, R321). -/
def State.postDeferred (s : State) (gid : Gid) (lane : Bool) (l : List Info) (more : Bool) (addr : W64) (word : BitVec 96) : State :=
  let g := s.group gid
  let n := l.length
  s.post g.part ((List.range n).map (fun i =>
    groupRecord 0 gid g (l.getD i { cause := .dataError }) lane addr word (BitVec.ofNat 6 (n - 1)) (BitVec.ofNat 6 i) more))

/-- The operands of an instruction that may be logged (R320): executing threads, scalar words, source A, register data; and the
threads that take a uniform result, 0 where that is not known. -/
structure Srcs where
  exec : W64 := 0
  wmask : W64 := 0
  sc   : List W64 := []
  a    : VReg := 0
  d    : List VReg := []
deriving DecidableEq, Repr

/-- The log entry of an instruction with its operands (R320). -/
def Srcs.toLog (x : Srcs) (addr : W64) (word : BitVec 96) (lane : Bool) : OpLog :=
  { addr := addr, word := word, lane := lane, valid := true, exec := x.exec, wmask := x.wmask,
    scalars := BitVec.ofNat 256 (packFields (x.sc.map (fun v => (64, v.toNat)))), srcA := x.a,
    regd := BitVec.ofNat 8192 (packFields (x.d.map (fun v => (2048, v.toNat)))) }
def OpLog.srcs (l : OpLog) : Srcs :=
  { exec := l.exec, wmask := l.wmask, sc := (List.range 4).map (fun i => l.scalars.extractLsb' (64 * i) 64), a := l.srcA,
    d := (List.range 4).map (fun i => l.regd.extractLsb' (2048 * i) 2048) }

/-- The stream that waits moves aside for the group's other stream (log 13). -/
def State.stalled (s : State) : State := { s with curLane := !s.curLane }

/-- What an outcome of the machine is: always a next state. -/
abbrev Out := Host.Outcome State Fault Refusal

/-- The current group's streams, the program counter past a word or at it, and the stream's operand log. -/
def Group.advance (g : Group) (lane : Bool) : Group := if lane then g.lpc1 else g.pc4
def Group.setLog (g : Group) (lane : Bool) (l : Option OpLog) : Group := if lane then { g with llog := l } else { g with slog := l }
/-- The operand log of a stream. -/
def Group.log (g : Group) (lane : Bool) : Option OpLog := if lane then g.llog else g.slog

/-- An instruction enters its stream's operand log; the stream goes on behind it (R319, R320). `record`: its deferred fault's;
without one it waits for a scrub (R37). -/
def State.logIt (s : State) (lane replay : Bool) (l : OpLog) : State :=
  let g := s.cur.setLog lane (some l)
  s.setCur (if replay then g else g.advance lane)
/-- Ends an instruction of the current group's stream: done, waiting, or trapped or deferred at `addr`. `x` holds the
operands that a deferral logs, none where the instruction is never deferred; `replay` says that the instruction ran from its
log entry and its pc has moved already, and `s0` is the state before it (R37, R316, R318, R320). -/
def finish (lane replay : Bool) (addr : W64) (word : BitVec 96) (x : Option Srcs) (s0 : State) :
    EStateM.Result Stop State Unit → Out
  | .ok _ s => .next s
  | .error .stall s => .next s.stalled
  | .error .scrub s => match x with
    | some y => .next (s.logIt lane replay { y.toLog addr word lane with valid := false, scrub := true })
    | none => .next s.stalled
  | .error (.fault i) s =>
    match x, i.cause.deferred with
    | some y, true => .next (deferIt y [i] false s)
    | _, _ => .next (s.raiseTrap s0.curG lane i addr word s0.cur.pc)
  | .error (.pages l more) s => .next (deferIt (x.getD {}) l more s)
where
  /-- The records are posted, and the instruction is logged. -/
  deferIt (y : Srcs) (l : List Info) (more : Bool) (s : State) : State :=
    let s := s.postDeferred s0.curG lane l more addr word
    let r := groupRecord 0 s0.curG s.cur (l.headD { cause := .dataError }) lane addr word 0 0 false
    s.logIt lane replay { y.toLog addr word lane with valid := false, record := r }

/-- Changes the current group. -/
def modifyCur (f : Group → Group) : Acc Unit := modify (fun s => s.setCur (f s.cur))
/-- The current group. -/
def getCur : Acc Group := do pure (← get).cur
/-- The agent of the current group. -/
def curAgent : Acc Agent := do let s ← get; pure (groupAgent s.curG s.cur)

/-- Runs a scalar instruction's effect on the current group; the effect itself moves the pc. -/
def scalarAcc (i : Instr) (body : Acc Unit) (s : State) : Out :=
  finish false false s.cur.pc ((encodeScalar i).setWidth 96) none s (body.run s)

/-- A logged instruction that waits for no reply is issued again (R36, R37, R275; logs 76 and 104). -/
def OpLog.woken (l : OpLog) : OpLog := if l.scrub then { l with valid := true } else l
def Group.wakeScrub (g : Group) : Group := { g with slog := g.slog.map OpLog.woken, llog := g.llog.map OpLog.woken }

/-- Runs a logged instruction from its entry (R320, R325). -/
def replayAcc (lane : Bool) (l : OpLog) (body : Srcs → Acc Unit) (s : State) : Out :=
  finish lane true l.addr l.word (some l.srcs) s ((do body l.srcs; modifyCur (fun g => g.setLog lane none) : Acc Unit).run s)
/-- The log entry that a stream replays at its next issue (R320). -/
def Group.replaying (g : Group) (lane : Bool) : Option OpLog :=
  match g.log lane with
  | some l => if l.valid then some l else none
  | none => none

/-- Runs a scalar instruction that may be deferred: its effect from operands `x`, then on to the next word; or its replay
from the log. -/
def scalarMem (i : Instr) (x : Srcs) (body : Srcs → Acc Unit) (s : State) : Out :=
  match s.cur.replaying false with
  | some l => replayAcc false l body s
  | none =>
    finish false false s.cur.pc ((encodeScalar i).setWidth 96) (some x) s
      ((do body x; modifyCur Group.pc4 : Acc Unit).run s)

/-- A register field of a scalar instruction, as an `operand_range` record names it (R185; log 63). -/
inductive RegField where | sd | sa | sb | so
deriving DecidableEq, Repr
def RegField.code : RegField → BitVec 2 | .sd => 0 | .sa => 1 | .sb => 2 | .so => 3
/-- A register operand holds a value outside its limit; the record names the field and the register (R185). -/
def raiseReg {α : Type} (f : RegField) (r : SReg) : Acc α :=
  throw (.fault { cause := .operandRange, here := true, aux := (f.code ++ 0#2 ++ r).setWidth 32 })

/-- A scalar instruction that only changes the group and goes on to the next word. -/
def scalarNext (f : Group → Group) (s : State) : Out := .next (s.setCur (f s.cur).pc4)

/-- The lane stream has finished every lane block enqueued before (R95, R201, R221, R225). -/
def Group.laneIdle (g : Group) : Bool := !g.ln.active && g.ln.runQ == []

end Sys2Proof.Machine
end

