-- ==== Sys2Proof/Machine/ScalarCtl.lean ====
section
/-! DEFINITION. Scalar control flow, yields, `exit`, `trap`, and scheduling instructions (R197 to R202, R313, R314, R328). -/

namespace Sys2Proof.Machine

/-- A target of an SB instruction (R156, R197). -/
def branchTarget (g : Group) (off : BitVec 20) : W64 := g.pc + (off.signExtend 64 <<< 2)

def execBr (neg : Bool) (p : BitVec 3) (off : BitVec 20) (s : State) : Out :=
  let g := s.cur
  .next (s.setCur (if g.spOf p != neg then { g with pc := branchTarget g off } else g.pc4))
def execJmp (off : BitVec 20) (s : State) : Out :=
  .next (s.setCur { s.cur with pc := branchTarget s.cur off })
def execCall (off : BitVec 20) (s : State) : Out :=
  let g := s.cur
  .next (s.setCur { g.setSr 63 (g.pc + 4) with pc := branchTarget g off })
/-- R165, R198. -/
def execJmpr (a : SReg) (s : State) : Out :=
  let t := s.cur.sr a
  if bitsOf t 0 2 = 0 then .next (s.setCur { s.cur with pc := t }) else scalarAcc (.jmpr a) (raise .pcAlign) s
def execCallr (d a : SReg) (s : State) : Out :=
  let g := s.cur
  let t := g.sr a
  if bitsOf t 0 2 = 0 then .next (s.setCur { g.setSr d (g.pc + 4) with pc := t }) else scalarAcc (.callr d a) (raise .pcAlign) s

/-- Appends a word index to the lane run queue (R169, R199). At a full queue the stream is not ready, whatever the index (R307). -/
def lrunAt (i : Instr) (w : Nat) (s : State) : Out :=
  let g := s.cur
  if 8 ≤ g.ln.runQ.length then .next s.stalled
  else if g.ln.lwords.toNat ≤ w ∨ 2 ^ 20 ≤ w then scalarAcc i (raise .lrunRange) s
  else scalarNext (fun g => { g with ln := { g.ln with runQ := g.ln.runQ ++ [BitVec.ofNat 20 w] } }) s
def execLrun (off : BitVec 20) (s : State) : Out := lrunAt (.lrun off) off.toNat s
/-- A register value with bits 63:20 set is at or beyond any count a 20-bit index reaches, and raises `lrun_range` (R166). -/
def execLrunr (a : SReg) (s : State) : Out :=
  lrunAt (.lrunr a) (s.cur.sr a).toNat s

def execNop (s : State) : Out := scalarNext id s

/-- R202: the group exits once its lane blocks have finished, by the GROUP_EXIT step. -/
def execExit (s : State) : Out :=
  scalarNext (fun g => { g with st := .exiting, mon := none, fired := false }) s

/-- `seq_done` of a queue, and a trigger counter, of a die. -/
def State.seqDone (s : State) (die : BitVec 3) (q : BitVec 7) : W64 := ((s.die die).queue q).seqDone
def State.ctr (s : State) (die : BitVec 3) (c : BitVec 8) : W64 := Sparse.get (s.die die).ctrs c.toNat

/-- Yields on a number, or goes on at once where it has been reached (R83, R201). -/
def yieldOn (d : SReg) (on : YieldOn) (done : Bool) (s : State) : Out :=
  if done then scalarNext (fun g => g.setSr d 0) s
  else scalarNext (fun g => { g with st := .yielding { on := on, d := d, cmd := false } }) s
def execYieldQ (d a b : SReg) (s : State) : Out :=
  let g := s.cur
  if bitsOf (g.sr a) 7 57 = 0 then
    let q := (g.sr a).extractLsb' 0 7
    yieldOn d (.queue q (g.sr b)) (reached (s.seqDone s.curG.die q) (g.sr b)) s
  else scalarAcc (.yieldQ d a b) (raiseReg .sa a) s
def execYieldCtr (d a b : SReg) (s : State) : Out :=
  let g := s.cur
  if bitsOf (g.sr a) 8 56 = 0 then
    let c := (g.sr a).extractLsb' 0 8
    yieldOn d (.ctr c (g.sr b)) (reached (s.ctr s.curG.die c) (g.sr b)) s
  else scalarAcc (.yieldCtr d a b) (raiseReg .sa a) s

/-- R328: completes, then traps; the saved pc is the next word. -/
def execTrap (i : BitVec 12) (s : State) : Out :=
  let g := s.cur
  .next (s.raiseTrap s.curG false { cause := .userTrap, here := true, code := i } g.pc ((encodeScalar (.trap i)).setWidth 96) (g.pc + 4))

/-! Scheduling (R305, R306, R313, R314) -/

/-- The partition's greatest class on a core (R305, R306). -/
def State.prioMax (s : State) (c : BitVec 10) (p : BitVec 3) : BitVec 2 :=
  ((s.core c).quotaA.getD p.toNat 0).extractLsb' 32 2
/-- The lesser of two classes. -/
def minCls (a b : BitVec 2) : BitVec 2 := if a.ult b then a else b
/-- R313: the old class to s(d), then the new class for the group or for every group of its block. -/
def execPrio (d : SReg) (blk : Bool) (k : BitVec 2) (s : State) : Out :=
  let gid := s.curG
  let g := s.cur
  let c := minCls k (s.prioMax gid.core g.part)
  let gids := match s.blockOf g.part g.launch g.block with | some b => if blk then gid :: b.gids else [gid] | none => [gid]
  let s1 := gids.foldl (fun s x => s.setGroup x { s.group x with cls := c }) s
  .next (s1.setCur ((s1.cur.setSr d (g.cls.setWidth 64)).pc4))

/-- Free room of a partition on a core: slots, granules, frames, tag-table entries (R300, R314). -/
def State.freeRoom (s : State) (c : BitVec 10) (p : BitVec 3) : Nat × Nat × Nat × Nat :=
  let qa := (s.core c).quotaA.getD p.toNat 0
  let qb := (s.core c).quotaB.getD p.toNat 0
  let gs := s.groups.filter (fun x => decide (x.1 / 64 = c.toNat) && x.2.live && x.2.part == p)
  let bs := s.blocks.filter (fun b => b.core == c && b.part == p)
  (bitsOf qa 8 8 - gs.length, bitsOf qa 24 8 - gs.foldl (fun n x => n + x.2.rg.granules.toNat) 0,
   bitsOf qb 16 16 - bs.foldl (fun n b => n + b.frames.length) 0, bitsOf qb 48 16 - bs.foldl (fun n b => n + b.slotCount.toNat) 0)

/-- A core's cycle count has moved on by a free number of cycles (R314; log 5). -/
def State.tick (s : State) (c : BitVec 10) : State :=
  let x := s.core c
  { s with fresh := s.fresh + 1 }.setCore c { x with cyc := x.cyc + BitVec.ofNat 64 (Config.freeCycles s.fresh) }

/-- The value of a `schrd` item (R2, R314). -/
def schedValue (s : State) (f : SchedItem) : W64 :=
  let gid := s.curG
  let g := s.cur
  let c := gid.core
  match f with
  | .core => 0#45 ++ gid.die ++ 0#4 ++ gid.die.extractLsb' 2 1 ++ c.extractLsb' 4 3 ++ 0#2 ++ gid.die.extractLsb' 0 2 ++
      c.extractLsb' 0 4
  | .blk => g.block.setWidth 64
  | .prio => 0#54 ++ (match s.launchOf g.part g.launch with | some l => l.cls | none => 0) ++ 0#6 ++ g.cls
  | .part => g.part.setWidth 64
  | .slot => 0#44 ++ g.gidx ++ 0#5 ++ gid.slot.extractLsb' 0 3 ++ 0#2 ++ gid.slot
  | .occ =>
    let r := s.freeRoom c g.part
    BitVec.ofNat 64 (packFields [(8, r.1), (8, r.2.1), (9, r.2.2.1), (7, 0), (9, r.2.2.2)])
  | .cyc => (s.core c).cyc
  | .tok => (s.die gid.die).pool.setWidth 64
/-- Items that depend on timing or placement (R314). -/
def schedTimed : SchedItem → Bool | .slot | .occ | .cyc | .tok => true | _ => false
/-- R314. -/
def execSchrd (d : SReg) (f : SchedItem) (s : State) : Out :=
  if schedTimed f && s.isDet s.cur.part s.cur.launch then scalarAcc (.schrd d f) (raise .detSched) s
  else
    let s1 := if f == .cyc then s.tick s.curG.core else s
    scalarNext (fun g => g.setSr d (schedValue s1 f)) s1

end Sys2Proof.Machine
end

