-- ==== Sys2Proof/Machine/Flags.lean ====
section
/-! DEFINITION. Conditions, truth tables and predicate values (R191, R192, R234, R241, R259). -/

namespace Sys2Proof.Machine

/-- An integer condition on two values of w bits (R191, R241). -/
def condHolds {w : Nat} (c : Cond) (a b : BitVec w) : Bool :=
  match c with
  | .eq => a == b
  | .ne => a != b
  | .lt => a.slt b
  | .ge => !a.slt b
  | .ltu => a.ult b
  | .geu => !a.ult b
  | .le => a.sle b
  | .gt => !a.sle b

/-- A condition of `icmp`: signed or unsigned as the type states (R241). -/
def icondHolds {w : Nat} (c : Cond) (signed : Bool) (a b : BitVec w) : Bool :=
  let lt := if signed then a.slt b else a.ult b
  match c with
  | .eq => a == b
  | .ne => a != b
  | .lt => lt
  | .ge => !lt
  | .le => lt || a == b
  | .gt => !(lt || a == b)
  | .ltu => a.ult b
  | .geu => !a.ult b

/-- Bit 2a + b of a truth table (R192, R259). -/
def tableBit (t : BitVec 4) (a b : Bool) : Bool := t.getLsbD (2 * a.toNat + b.toNat)

/-- The same for every thread at once. -/
def tableMask (t : BitVec 4) (a b : W64) : W64 :=
  (if t.getLsbD 0 then ~~~a &&& ~~~b else 0) ||| (if t.getLsbD 1 then ~~~a &&& b else 0) |||
  (if t.getLsbD 2 then a &&& ~~~b else 0) ||| (if t.getLsbD 3 then a &&& b else 0)

/-- The mask word of a lane compare (R234). -/
def maskWord (b : Bool) : Nat := if b then 0xFFFFFFFF else 0

end Sys2Proof.Machine
end

