-- ==== Sys2Proof/Machine/Numbers.lean ====
section
/-! DEFINITION. Number formats, exact values, the one rounding procedure, zhash64 and the special functions (R111 to R127). -/

namespace Sys2Proof

/-- A signed type. -/
def LTy.signed : LTy → Bool
  | .i4 | .i8 | .i16 | .i32 | .i64 => true | _ => false

end Sys2Proof

namespace Sys2Proof.Machine

/-- An exact value: `fin m e` is m * 2^e with m not 0. -/
inductive FVal where
  | nan
  | inf (neg : Bool)
  | zero (neg : Bool)
  | fin (m : Int) (e : Int)
deriving DecidableEq, Repr

/-- Layout of a floating-point format (R113): exponent bits, fraction bits, bias, whether it has infinities, and the
largest finite value as significand and exponent. -/
structure FFmt where
  ew : Nat
  fw : Nat
  bias : Int
  hasInf : Bool
  maxM : Nat
  maxE : Int
  nanBits : Nat

/-- R113. -/
def fmtOf : LTy → Option FFmt
  | .f32  => some ⟨8, 23, 127, true, 2 ^ 24 - 1, 104, 0x7FC00000⟩
  | .f16  => some ⟨5, 10, 15, true, 2 ^ 11 - 1, 5, 0x7E00⟩
  | .bf16 => some ⟨8, 7, 127, true, 2 ^ 8 - 1, 120, 0x7FC0⟩
  | .e5m2 => some ⟨5, 2, 15, true, 7, 13, 0x7E⟩
  | .e4m3 => some ⟨4, 3, 7, false, 14, 5, 0x7F⟩
  | .e2m1 => some ⟨2, 1, 1, false, 3, 1, 0⟩
  | _ => none

/-- m * 2^e, zero included. -/
def mkVal (m e : Int) : FVal := if m = 0 then .zero false else .fin m e

/-- Decodes one element (R113, R115); `h` is the block special value of E2M1 in half-units. -/
def decodeElem (ty : LTy) (h : Int) (b : Nat) : FVal :=
  match fmtOf ty with
  | none => if ty.signed then mkVal (BitVec.ofNat ty.width b).toInt 0 else mkVal (b % 2 ^ ty.width) 0
  | some f =>
    let neg := decide (b / 2 ^ (f.ew + f.fw) % 2 = 1)
    let ex := b / 2 ^ f.fw % 2 ^ f.ew
    let fr := b % 2 ^ f.fw
    let sg : Int := if neg then -1 else 1
    if ty == .e2m1 && b % 16 == 8 then mkVal h (-1)
    else if f.hasInf && ex == 2 ^ f.ew - 1 then (if fr = 0 then .inf neg else .nan)
    else if ty == .e4m3 && b % 128 == 127 then .nan
    else if ex = 0 then (if fr = 0 then .zero neg else .fin (sg * fr) (1 - f.bias - f.fw))
    else .fin (sg * (2 ^ f.fw + fr)) (ex - f.bias - f.fw)

/-- m * 2^k for any k, rounded down when k is negative. -/
def shiftFloor (m : Int) (k : Int) : Int := if 0 ≤ k then m * 2 ^ k.toNat else m / 2 ^ (-k).toNat

/-- floor(log2 |m * 2^e|) for m not 0. -/
def flog2 (m e : Int) : Int := Nat.log2 m.natAbs + e

/-- zhash64 (R123). -/
def zhash64 (seed ctr : W64) : W64 :=
  let round := fun (x : W64) (k m : W64) =>
    let x := x + k
    let x := x ^^^ (x >>> 29)
    let x := x * m
    x ^^^ (x >>> 32)
  let x := ctr ^^^ seed.rotateLeft 17
  let x := round x 0xA3B19C5D2E07F641 0xB7E34A19C2D56F0B
  let x := round x 0x5D2CE81397AB0F6D 0x8F1C3A57E4B29D65
  let x := round x 0xC41F7A265B39E085 0xC9A705E31B6D48F7
  let x := round x 0x1E95D0B76C48A2F3 0xE35B2C91A7F40D39
  x ^^^ seed

/-- The stochastic key (R124). -/
def rsKey (block : W32) (source : BitVec 11) (element : BitVec 10) (seq : BitVec 19) : W64 :=
  block.extractLsb' 0 24 ++ source ++ element ++ seq

/-- What a rounding draws on: the mode, saturation, the seed and the key. -/
structure RndCtx where
  rnd : Rnd
  sat : Bool := false
  seed : W64 := 0
  key : W64 := 0

/-- Rounds m * 2^e to a multiple of 2^ge and gives the multiple (R120). -/
def roundGrid (c : RndCtx) (m e ge : Int) : Int :=
  if ge ≤ e then m * 2 ^ (e - ge).toNat
  else
    let d := (ge - e).toNat
    let q := m / 2 ^ d
    let r := m - q * 2 ^ d
    if r = 0 then q
    else match c.rnd with
      | .rn => if 2 * r < 2 ^ d then q else if 2 ^ d < 2 * r then q + 1 else if q % 2 = 0 then q else q + 1
      | .rz => if q.natAbs < (q + 1).natAbs then q else q + 1
      | .rd => q
      | .ru => q + 1
      | .rs =>
        let t := (r * 2 ^ 32 / 2 ^ d).toNat
        if ((zhash64 c.seed c.key).extractLsb' 0 32).toNat < t then q + 1 else q

/-- The infinity, or the largest finite value where the format has none or `sat` asks (R121, R122). -/
def infBits (f : FFmt) (neg sat : Bool) : Nat :=
  let sg := if neg then 2 ^ (f.ew + f.fw) else 0
  if f.hasInf then (if sat then sg + (2 ^ f.ew - 1) * 2 ^ f.fw - 1 else sg + (2 ^ f.ew - 1) * 2 ^ f.fw)
  else sg + (if f.fw = 3 then 0x7E else 7)

/-- The largest finite value (R113). -/
def maxBits (f : FFmt) (neg : Bool) : Nat :=
  (if neg then 2 ^ (f.ew + f.fw) else 0) + (if f.hasInf then (2 ^ f.ew - 1) * 2 ^ f.fw - 1 else if f.fw = 3 then 0x7E else 7)

/-- The code of a zero of either sign; E2M1 has only +0 (R122). -/
def zeroBits (f : FFmt) (neg : Bool) : Nat := if neg && f.fw != 1 then 2 ^ (f.ew + f.fw) else 0

/-- The code of k * 2^ge, a grid point of the format or beyond its range (R121). `neg` is the sign of what was rounded. -/
def encodeGrid (c : RndCtx) (f : FFmt) (neg : Bool) (k ge : Int) : Nat :=
  if k = 0 then zeroBits f neg
  else
    let a := k.natAbs
    let big := if f.maxE ≤ ge then decide (f.maxM < a * 2 ^ (ge - f.maxE).toNat)
      else decide (f.maxM * 2 ^ (f.maxE - ge).toNat < a)
    if big then
      if c.sat || !f.hasInf then maxBits f neg
      else match c.rnd with
        | .rn | .rs => infBits f neg false
        | .rz => maxBits f neg
        | .rd => if neg then infBits f true false else maxBits f false
        | .ru => if neg then maxBits f true else infBits f false false
    else
      let l := Nat.log2 a
      let ex := (l : Int) + ge
      let sg := if neg then 2 ^ (f.ew + f.fw) else 0
      if ex < 1 - f.bias then sg + a
      else sg + (ex + f.bias).toNat * 2 ^ f.fw + (if l ≤ f.fw then a * 2 ^ (f.fw - l) else a / 2 ^ (l - f.fw)) - 2 ^ f.fw

/-- Clamps to the range of an integer type (R121, R243). -/
def clampInt (ty : LTy) (v : Int) : Int :=
  if ty.signed then max (-(2 ^ (ty.width - 1))) (min v (2 ^ (ty.width - 1) - 1)) else max 0 (min v (2 ^ ty.width - 1))

/-- Rounds any value to a type and gives its code (R120 to R122, R243). -/
def roundFmt (c : RndCtx) (ty : LTy) (v : FVal) : Nat :=
  match fmtOf ty with
  | none =>
    let enc := fun (z : Int) => (BitVec.ofInt ty.width (clampInt ty z)).toNat
    match v with
    | .nan => 0
    | .zero _ => 0
    | .inf neg => if neg then enc (-(2 ^ 128)) else enc (2 ^ 128)
    | .fin m e => enc (roundGrid c m e 0)
  | some f =>
    match v with
    | .nan => f.nanBits
    | .zero neg => zeroBits f neg
    | .inf neg => infBits f neg c.sat
    | .fin m e =>
      let ge := max (flog2 m e) (1 - f.bias) - f.fw
      encodeGrid c f (decide (m < 0)) (roundGrid c m e ge) ge

/-- Rounds the result of an arithmetic operation: an infinite result stays infinite under `.sat` (R126, R232). -/
def roundArith (c : RndCtx) (ty : LTy) (v : FVal) : Nat :=
  match v with
  | .inf _ => roundFmt { c with sat := false } ty v
  | _ => roundFmt c ty v

def FVal.neg : FVal → FVal
  | .nan => .nan | .inf n => .inf (!n) | .zero n => .zero (!n) | .fin m e => .fin (-m) e
def FVal.isNeg : FVal → Bool
  | .nan => false | .inf n => n | .zero n => n | .fin m _ => decide (m < 0)
def FVal.isZero : FVal → Bool | .zero _ => true | _ => false
def FVal.isNan : FVal → Bool | .nan => true | _ => false

/-- Exact sum; an exact zero sum of operands of opposite sign is +0, and -0 under `.rd` (R126). -/
def FVal.add (rd : Bool) : FVal → FVal → FVal
  | .nan, _ | _, .nan => .nan
  | .inf a, .inf b => if a = b then .inf a else .nan
  | .inf a, _ | _, .inf a => .inf a
  | .zero a, .zero b => if a = b then .zero a else .zero rd
  | .zero _, x | x, .zero _ => x
  | .fin m e, .fin n f =>
    let g := min e f
    let r := m * 2 ^ (e - g).toNat + n * 2 ^ (f - g).toNat
    if r = 0 then .zero rd else .fin r g

/-- Exact product. -/
def FVal.mul (a b : FVal) : FVal :=
  let ng := a.isNeg != b.isNeg
  match a, b with
  | .nan, _ | _, .nan => .nan
  | .inf _, .zero _ | .zero _, .inf _ => .nan
  | .inf _, _ | _, .inf _ => .inf ng
  | .zero _, _ | _, .zero _ => .zero ng
  | .fin m e, .fin n f => .fin (m * n) (e + f)

/-- Multiplies by 2^k exactly (R118). -/
def FVal.scale (k : Int) : FVal → FVal
  | .fin m e => .fin m (e + k) | v => v

/-- Compares two values, -0 equal to +0; none where a NaN is involved. -/
def FVal.cmp : FVal → FVal → Option Ordering
  | .nan, _ | _, .nan => none
  | .inf a, .inf b => some (if a = b then .eq else if a then .lt else .gt)
  | .inf a, _ => some (if a then .lt else .gt)
  | _, .inf b => some (if b then .gt else .lt)
  | .zero _, .zero _ => some .eq
  | .zero _, .fin n _ => some (if n < 0 then .gt else .lt)
  | .fin m _, .zero _ => some (if m < 0 then .lt else .gt)
  | .fin m e, .fin n f =>
    let g := min e f
    some (compare (m * 2 ^ (e - g).toNat) (n * 2 ^ (f - g).toNat))

/-- Floating-point conditions (R234). -/
def fcondHolds (c : FCond) (a b : FVal) : Bool :=
  match c, a.cmp b with
  | .eq, o => o == some .eq
  | .ne, o => o != some .eq
  | .lt, o => o == some .lt
  | .ge, o => o == some .gt || o == some .eq
  | .un, o => o == none
  | .num, o => o != none
  | .le, o => o == some .lt || o == some .eq
  | .gt, o => o == some .gt

/-- The lesser or the greater of two codes of a type, -0 below +0, a lone NaN giving the other (R233). -/
def minMaxBits (ty : LTy) (wantMax : Bool) (a b : Nat) : Nat :=
  let x := decodeElem ty 0 a
  let y := decodeElem ty 0 b
  match x, y with
  | .nan, .nan => roundFmt { rnd := .rn } ty .nan
  | .nan, _ => b
  | _, .nan => a
  | _, _ =>
    let less := match x.cmp y with
      | some .lt => true
      | some .eq => x.isNeg && !y.isNeg
      | _ => false
    if less != wantMax then a else b

/-! Special functions (R127). Each gives the exact value, or a value with one more bit set below every rounding boundary
(log 9), so that the one rounding of R120 is the rounding of the exact value. -/

/-- floor(sqrt n) for n below 2^(2 k), bit by bit. -/
def isqrtFrom : Nat → Nat → Nat → Nat
  | 0, _, r => r
  | k + 1, n, r => if (r + 2 ^ k) * (r + 2 ^ k) ≤ n then isqrtFrom k n (r + 2 ^ k) else isqrtFrom k n r

/-- Appends a bit that says whether something was cut off. -/
def jam (q : Nat) (exact : Bool) : Int := if exact then 2 * q else 2 * q + 1

def rcpVal : FVal → FVal
  | .nan => .nan
  | .zero n => .inf n
  | .inf n => .zero n
  | .fin m e =>
    let a := m.natAbs
    let k := Nat.log2 a + 64
    let q := 2 ^ k / a
    let z := jam q (decide (q * a = 2 ^ k))
    .fin (if m < 0 then -z else z) (-e - k - 1)

/-- sqrt(m * 2^e) for m above 0. -/
def sqrtPos (m : Nat) (e : Int) : FVal :=
  let odd := decide (e % 2 ≠ 0)
  let n := (if odd then 2 * m else m) * 2 ^ 128
  let e2 := ((if odd then e - 1 else e) - 128) / 2
  let r := isqrtFrom 96 n 0
  .fin (jam r (decide (r * r = n))) (e2 - 1)

def sqrtVal : FVal → FVal
  | .nan => .nan
  | .zero n => .zero n
  | .inf n => if n then .nan else .inf false
  | .fin m e => if m < 0 then .nan else sqrtPos m.natAbs e

def rsqVal : FVal → FVal
  | .nan => .nan
  | .zero n => .inf n
  | .inf n => if n then .nan else .zero false
  | .fin m e =>
    if m < 0 then .nan
    else
      let odd := decide (e % 2 ≠ 0)
      let n := if odd then 2 * m.natAbs else m.natAbs
      let e2 := (if odd then e - 1 else e) / 2
      let r := isqrtFrom 120 (2 ^ 200 / n) 0
      .fin (jam r (decide (r * r * n = 2 ^ 200))) (-e2 - 100 - 1)

/-- Sum of z^(2j+1) / (2j+1), scaled by 2^384, over `k` terms. -/
def atanhSum : Nat → Nat → Nat → Nat → Nat
  | 0, _, _, _ => 0
  | k + 1, p, z2, j => p / (2 * j + 1) + atanhSum k (p * z2 / 2 ^ 384) z2 (j + 1)

/-- ln((1 + z) / (1 - z)) scaled by 2^384, z scaled likewise and at most 1/3. -/
def lnRatio (z : Nat) : Nat := 2 * atanhSum 125 z (z * z / 2 ^ 384) 0
/-- ln 2 scaled by 2^384. -/
def ln2 : Nat := lnRatio (2 ^ 384 / 3)

/-- Sum of t^j / j!, scaled by 2^384. -/
def expSum : Nat → Nat → Nat → Nat → Nat
  | 0, _, _, _ => 0
  | k + 1, p, t, j => p + expSum k (p * t / 2 ^ 384 / (j + 1)) t (j + 1)

def exp2Val : FVal → FVal
  | .nan => .nan
  | .zero _ => .fin 1 0
  | .inf n => if n then .zero false else .inf false
  | .fin m e =>
    if 0 ≤ e then (if 8 < flog2 m e then (if m < 0 then .fin 1 (-1000) else .fin 1 1000) else .fin 1 (m * 2 ^ e.toNat))
    else if 8 < flog2 m e then (if m < 0 then .fin 1 (-1000) else .fin 1 1000)
    else
      let k := (-e).toNat
      let n := m / 2 ^ k
      let fr := (m - n * 2 ^ k).toNat
      if fr = 0 then .fin 1 n
      else .fin (jam (expSum 80 (2 ^ 384) (fr * ln2 / 2 ^ k) 0 / 2 ^ 64) false) (n - 321)

def log2Val : FVal → FVal
  | .nan => .nan
  | .zero _ => .inf true
  | .inf n => if n then .nan else .inf false
  | .fin m e =>
    if m < 0 then .nan
    else
      let a := m.natAbs
      let l := Nat.log2 a
      let n := (l : Int) + e
      if a = 2 ^ l then mkVal n 0
      else
        let z := (a - 2 ^ l) * 2 ^ 384 / (a + 2 ^ l)
        let v : Nat := lnRatio z * 2 ^ 320 / ln2
        .fin (2 * (n * 2 ^ 320 + (v : Int)) + 1) (-321)

/-- The FP32 code of a value rounded to nearest even. -/
def f32rn (v : FVal) : W32 := BitVec.ofNat 32 (roundArith { rnd := .rn } .f32 v)
/-- The exact value of an FP32 code. -/
def f32val (b : W32) : FVal := decodeElem .f32 0 b.toNat

/-- `fadd.rn`, `fmul.rn` and `ffma.rn` on FP32 codes (R126). -/
def faddRn (a b : W32) : W32 := f32rn (FVal.add false (f32val a) (f32val b))
def fmulRn (a b : W32) : W32 := f32rn (FVal.mul (f32val a) (f32val b))
def ffmaRn (a b c : W32) : W32 := f32rn (FVal.add false (FVal.mul (f32val a) (f32val b)) (f32val c))
def fnegBits (a : W32) : W32 := f32rn (f32val a).neg
def fmaxBits (a b : W32) : W32 := BitVec.ofNat 32 (minMaxBits .f32 true a.toNat b.toNat)
def exp2Rn (a : W32) : W32 := f32rn (exp2Val (f32val a))
def log2Rn (a : W32) : W32 := f32rn (log2Val (f32val a))

/-- The integer an element's code stands for. -/
def intOf (ty : LTy) (x : Nat) : Int := if ty.signed then (BitVec.ofNat ty.width x).toInt else (x % 2 ^ ty.width : Nat)
/-- The code of an integer modulo 2^w. -/
def codeOf (ty : LTy) (z : Int) : Nat := (z % 2 ^ ty.width).toNat

end Sys2Proof.Machine
end

