-- ==== Sys2Proof/Machine/Operands.lean ====
section
/-! DEFINITION. Operands of lane instructions, the guard, queue operands, and the shared run of a lane instruction (R96, R97,
R159, R160, R227 to R231, R248, R257, R264). -/

namespace Sys2Proof

/-- The form whose guard no thread meets (R160). -/
def LHdr.never (h : LHdr) : Bool := h.gneg && h.gpred == 7

end Sys2Proof

namespace Sys2Proof.Machine

/-! Threads (R160, R230, R261, R264) -/

/-- The vlane of physical lane j (R269). -/
def Lane.vl (l : Lane) (j : Nat) : Nat := bitsOf (l.remap.getD j 0) 0 10
/-- The active threads: not masked off and not exited. -/
def Lane.act (l : Lane) : W64 := l.run &&& ~~~l.exited
/-- The lane of the lowest vlane in a mask. -/
def Lane.lowest (l : Lane) (m : W64) : Option Nat :=
  (List.range 64).foldl (fun b j =>
    if bitOf m j then (match b with
      | none => some j
      | some k => if l.vl j < l.vl k then some j else some k) else b) none
/-- Threads whose guard is true. -/
def Group.guardMask (g : Group) (h : LHdr) : W64 := if h.gneg then ~~~(g.pr h.gpred) else g.pr h.gpred
/-- The threads that compute, the threads that take the result, and the lane of thread v, the active thread with the lowest
vlane (R160, R257). -/
structure Sel where
  exec  : W64
  write : W64
  v     : Nat := 0
deriving DecidableEq, Repr

/-- R160, R230: a uniform instruction computes in the lowest-vlane active thread, whose guard decides, and writes every
active thread. -/
def Group.sel (g : Group) (h : LHdr) : Sel :=
  let a := g.ln.act
  let m := g.guardMask h
  if h.uni then
    match g.ln.lowest a with
    | some v => if bitOf m v then ⟨1#64 <<< v, a, v⟩ else ⟨0, 0, v⟩
    | none => ⟨0, 0, 0⟩
  else ⟨a &&& m, a &&& m, 0⟩

/-- The lane that computes thread j's result. -/
def Sel.from (x : Sel) (uni : Bool) (j : Nat) : Nat := if uni then x.v else j

/-! Register operands (R96) -/

/-- Register i of the vector view lies in the view and in the declared space. -/
def RegSpace.vecIn (r : RegSpace) (i : Nat) : Bool :=
  decide (i < bitsOf r.vview 24 11) && decide (bitsOf r.vview 0 17 + 256 * i + 256 ≤ r.declared.toNat)
/-- First byte and length of a tile. -/
def RegSpace.tileSpan (r : RegSpace) (t : Nat) : Nat × Nat :=
  let d := r.tdesc.getD t 0
  (bitsOf r.tview 0 17 + tdOff d, tdRows d * tdBytes d)
/-- First byte and length of an accumulator. -/
def RegSpace.accSpan (r : RegSpace) (a : Nat) : Nat × Nat :=
  let n := (bitsOf r.aview 35 5 + 1) * 128
  (bitsOf r.aview 0 17 + a * n, n)
/-- Every byte that an operand of n registers names lies in its view and in the declared space (R96). -/
def RegSpace.opOk (r : RegSpace) (o : Opnd) (n : Nat) : Bool :=
  match o with
  | .vec i => (List.range n).all (fun k => r.vecIn (i.toNat + k))
  | .tile t => decide (t.toNat < bitsOf r.tview 24 11) &&
      decide ((r.tileSpan t.toNat).1 + (r.tileSpan t.toNat).2 ≤ r.declared.toNat)
  | .acc a => decide (a.toNat < bitsOf r.aview 24 11) &&
      decide ((r.accSpan a.toNat).1 + (r.accSpan a.toNat).2 ≤ r.declared.toNat)
  | _ => true

/-- The word at an offset of a range of register space; zero beyond its end (R258). -/
def RegSpace.spanWord (r : RegSpace) (sp : Nat × Nat) (o : Nat) : Nat :=
  if o + 4 ≤ sp.2 then bytesToNat (r.bytes (sp.1 + o) 4) else 0
/-- The range with the words of the threads of a mask written; nothing beyond its end is written (R258). -/
def RegSpace.putSpan (r : RegSpace) (sp : Nat × Nat) (mask : W64) (f : Nat → Nat) (n : Nat) : RegSpace :=
  (List.range n).foldl (fun r k => (List.range 64).foldl (fun r j =>
    if bitOf mask j && decide (256 * k + 4 * j + 4 ≤ sp.2) then
      r.setBytes (sp.1 + 256 * k + 4 * j) (natToBytes 4 (f j / 2 ^ (32 * k))) else r) r) r

/-- Thread j's value of a source of n registers (R159, R227, R228, R229, R258). -/
def Group.srcVal (g : Group) (o : Opnd) (n j : Nat) : Nat :=
  match o with
  | .vec i => packNat 32 (fun k => (vword (g.rg.row (g.rg.vrow (i.toNat + k))) j).toNat) n
  | .q i | .qp i _ => match g.q.getD i.toNat [] with | [] => 0 | e :: _ => (vword e j).toNat
  | .tile t => packNat 32 (fun k => g.rg.spanWord (g.rg.tileSpan t.toNat) (256 * k + 4 * j)) n
  | .acc a => packNat 32 (fun k => g.rg.spanWord (g.rg.accSpan a.toNat) (256 * k + 4 * j)) n
  | .vlane => g.ln.vl j
  | .lane => j
  | .gidx => g.gidx.toNat
  | .const k => k.toNat
  | _ => 0
/-- The words of a source of one register, thread by thread (R320). -/
def Group.srcReg (g : Group) (o : Opnd) (k : Nat) : VReg :=
  vbuild (fun j => BitVec.ofNat 32 (g.srcVal o (k + 1) j / 2 ^ (32 * k)))

/-! Queue operands (R159, R202, R257, R272) -/

/-- The scalar stream has executed `exit`. -/
def Group.hasExited (g : Group) : Bool := g.st == .exiting
/-- What holds an operand back: a blocking pop from an empty queue, or a blocking push to a full one. -/
def Group.queueStop (g : Group) (o : Opnd) : Option Stop :=
  match o with
  | .q i => if g.q.getD i.toNat [] = [] then
      (if g.hasExited then some (.fault { cause := .queueDead, here := true }) else some .stall) else none
  | .y i => if 16 ≤ (g.y.getD i.toNat []).length ∧ !g.hasExited then some .stall else none
  | _ => none
/-- First byte and length of the register space that an operand names. -/
def RegSpace.opSpan (r : RegSpace) (o : Opnd) (n : Nat) : Nat × Nat :=
  match o with
  | .vec i => (256 * r.vrow i.toNat, 256 * n)
  | .tile t => r.tileSpan t.toNat
  | .acc a => r.accSpan a.toNat
  | _ => (0, 0)
/-- Two ranges of register space meet. -/
def spansMeet (x y : Nat × Nat) : Bool := decide (x.1 < y.1 + y.2 ∧ y.1 < x.1 + x.2)
/-- `reg_range`: the record names the operand field (0 destination, 1 to 3 sources A to C, 4 a tile that xf names), the view selector and the
index (R97; log 63). -/
def rangeInfo (field sel index : Nat) : Info :=
  { cause := .regRange, here := true, code := BitVec.ofNat 12 (16 * field + sel), aux := BitVec.ofNat 32 index }
/-- The same of an operand, by its code (R159): the index is the operand's own, also where only a later register of its pair or run is out of
range (DEDUCED, log 63). -/
def opRange (o : Opnd) (field : Nat) : Info :=
  rangeInfo field (bitsOf o.code 10 2) (bitsOf o.code 0 10)
/-- The ranges of register space that operands name. -/
def RegSpace.spans (r : RegSpace) (l : List (Opnd × Nat)) : List (Nat × Nat) := l.map (fun o => r.opSpan o.1 o.2)
/-- Some range of one list meets one of the other. -/
def anyMeet (x y : List (Nat × Nat)) : Bool := x.any (fun a => y.any (spansMeet a))
/-- A range of a list lies in a drowsy granule (R101, R102). -/
def RegSpace.drowsyIn (r : RegSpace) (l : List (Nat × Nat)) : Bool :=
  r.drowsy != 0 && (List.range 32).any (fun k => bitOf r.drowsy k && anyMeet l [(4096 * k, 4096)])
/-- What stops a lane instruction of its operands: queues in a region, ranges, waits (R97, R202, R272). `fields`: the operand fields of
the sources. -/
def Group.opStop (g : Group) (fields : List Nat) (dst src : List (Opnd × Nat)) : Option Stop :=
  let ops := dst ++ src
  if g.ln.inRegion && ops.any (fun o => o.1.isQueue) then some (.fault { cause := .queueCompact, here := true })
  else match (ops.zip (dst.map (fun _ => 0) ++ fields)).find? (fun o => !g.rg.opOk o.1.1 o.1.2) with
    | some o => some (.fault (opRange o.1.1 o.2))
    | none => ops.findSome? (fun o => g.queueStop o.1)
/-- A source has a word that could not be corrected (R335). -/
def Group.badSrc (g : Group) (src : List (Opnd × Nat)) : Bool :=
  src.any (fun o => g.rg.badIn (g.rg.opSpan o.1 o.2).1 (g.rg.opSpan o.1 o.2).2)
/-- Everything that stops a lane instruction before it has an effect: its operands, and a source with a word that could not be
corrected (R97, R202, R272, R335). -/
def Group.laneStop (g : Group) (dst src : List (Opnd × Nat)) (fields : List Nat := [1, 2, 3]) : Option Stop :=
  match g.opStop fields dst src with
  | some st => some st
  | none => if g.badSrc src then some (.fault { cause := .dataError, here := true }) else none
/-- The pop of a source: once an issue, whichever threads execute (R257). -/
def Group.popQ (g : Group) (o : Opnd) : Group :=
  let cut := fun (i : BitVec 3) => { g with q := vset g.q i.toNat ((g.q.getD i.toNat []).drop 1) }
  match o with
  | .q i => cut i
  | .qp i p => if g.q.getD i.toNat [] = [] then g.setPrAll p false else (cut i).setPrAll p true
  | _ => g
def Group.popAll (g : Group) (ops : List (Opnd × Nat)) : Group := ops.foldl (fun g o => g.popQ o.1) g

/-! Rounding keys (R124, R125) -/

/-- The context of a rounding in thread j, element e. -/
def Group.laneRnd (g : Group) (seed : W64) (r : Rnd) (sat : Bool) (j e : Nat) : RndCtx :=
  { rnd := r, sat := sat, seed := seed,
    key := rsKey g.block (BitVec.ofNat 11 (g.ln.vl j)) (BitVec.ofNat 10 e) (g.ln.rs.getD j 0) }
/-- A `.rs` instruction counts once in each thread that it rounds for. -/
def Group.countRs (g : Group) (exec : W64) : Group :=
  { g with ln := { g.ln with rs := Vector.ofFn (fun j : Fin 64 => if bitOf exec j.val then g.ln.rs[j] + 1 else g.ln.rs[j]) } }

/-! The run of a lane instruction that touches only the group -/

/-- Operands of such an instruction: destination and its registers, sources and their operand fields, the predicate written, whether
it draws. -/
structure LaneOp where
  h    : LHdr
  d    : Opnd
  dn   : Nat := 1
  src  : List (Opnd × Nat)
  fields : List Nat := [1, 2, 3]
  pd   : Option (BitVec 3) := none
  rs   : Bool := false

/-- All operands, the destination first, and what stops them. -/
def LaneOp.ops (o : LaneOp) : List (Opnd × Nat) := (o.d, o.dn) :: o.src
def LaneOp.stop (o : LaneOp) (g : Group) : Option Stop := g.laneStop [(o.d, o.dn)] o.src o.fields

/-- What thread j computes: the result and the predicate. The group is read as it stood before the instruction. -/
abbrev LaneFn := Group → W64 → Nat → List Nat → Nat × Bool

/-- Thread j's result from its own sources. -/
def LaneOp.at (o : LaneOp) (f : LaneFn) (g : Group) (seed : W64) (j : Nat) : Nat × Bool :=
  f g seed j (o.src.map (fun x => g.srcVal x.1 x.2 j))

/-- The words of the threads of a mask written to a register operand of n registers (R227, R228, R252, R258). -/
def Group.putOpnd (g : Group) (o : Opnd) (mask : W64) (f : Nat → Nat) (n : Nat) : Group :=
  if mask = 0 then g
  else match o with
    | .vec i => g.putVec i.toNat mask f n
    | .tile t => { g with rg := g.rg.putSpan (g.rg.tileSpan t.toNat) mask f n }
    | .acc a => { g with rg := g.rg.putSpan (g.rg.accSpan a.toNat) mask f n }
    | _ => g

/-- Predicates as a mask over the threads. -/
def predMask (f : Nat → Bool) : W64 := BitVec.ofNat 64 (packNat 1 (fun j => (f j).toNat) 64)

/-- The effect: pops, the destination, the predicate, the counts (R227 to R230). A push takes the result of thread v even where its
guard is false, under `.rs` rounded with v's key and not counted (R125, R257; log 57). -/
def LaneOp.effect (o : LaneOp) (f : LaneFn) (g : Group) (seed : W64) : Group :=
  let x := g.sel o.h
  let val := fun j => o.at f g seed (x.from o.h.uni j)
  let g1 := g.popAll o.src
  let g2 := match o.d with
    | .y _ | .yp _ _ => g1.pushY o.d (BitVec.ofNat 64 (val 0).1)
    | d => g1.putOpnd d x.write (fun j => (val j).1) o.dn
  let g3 := match o.pd with
    | some p => if x.write = 0 then g2 else g2.setPr p x.write (predMask (fun j => bitOf x.write j && (val j).2))
    | none => g2
  if o.rs then g3.countRs x.exec else g3

/-- Runs an instruction of the lane slice (R227 to R231, R248). -/
def laneAlu (i : Instr) (o : LaneOp) (f : LaneFn) (s : State) : Out :=
  if o.h.never then .next (s.setCur s.cur.lpc1)
  else
    let g := s.cur.settle
    match o.stop g with
    | some st => finish true false s.cur.laneAddr (encodeLane i) none s (.error st (s.setCur g))
    | none => .next (s.setCur (o.effect f g (s.seedOf g)).lpc1)

/-! The SFU and conversion queues (R248) -/

/-- A queued result that an instruction would read, overwrite or overtake. -/
def Queued.meets (x : Queued) (r : RegSpace) (ops : List (Opnd × Nat)) : Bool :=
  match x.d with
  | .vec i => ops.any (fun o => spansMeet (r.opSpan (.vec i) (if x.w64 then 2 else 1)) (r.opSpan o.1 o.2))
  | .zero => false
  | _ => true

/-- The group once the queue has room and no result waits that the instruction depends on. -/
def Group.roomFor (g : Group) (conv : Bool) (ops : List (Opnd × Nat)) : Group :=
  let l := if conv then g.ln.cvtQ else g.ln.sfuQ
  if 8 ≤ l.length ∨ (g.ln.sfuQ ++ g.ln.cvtQ).any (fun x => x.meets g.rg ops) then g.drainQueues.landTlds else g.landTlds

/-- The effect at issue: pops and counts; the result enters the queue. -/
def LaneOp.enqueue (o : LaneOp) (conv : Bool) (f : LaneFn) (g : Group) (seed : W64) : Group :=
  let x := g.sel o.h
  let val := fun j => (o.at f g seed (x.from o.h.uni j)).1
  let isY := o.d.isQueue
  let mask := if isY then x.exec else x.write
  let word := fun (k j : Nat) =>
    if isY then (if j = 0 then BitVec.ofNat 32 (val 0 / 2 ^ (32 * k)) else 0)
    else if bitOf mask j then BitVec.ofNat 32 (val j / 2 ^ (32 * k)) else 0
  let r : Queued := { d := o.d, w64 := o.dn == 2, uni := o.h.uni, mask := mask, lo := vbuild (word 0),
                      hi := if o.dn = 2 then vbuild (word 1) else 0 }
  let g1 := g.popAll o.src
  let g2 := if conv then { g1 with ln := { g1.ln with cvtQ := g1.ln.cvtQ ++ [r] } }
    else { g1 with ln := { g1.ln with sfuQ := g1.ln.sfuQ ++ [r] } }
  if o.rs then g2.countRs x.exec else g2

/-- Runs an instruction that goes through the SFU queue or the conversion queue (R248). -/
def laneQueued (conv : Bool) (i : Instr) (o : LaneOp) (f : LaneFn) (s : State) : Out :=
  if o.h.never then .next (s.setCur s.cur.lpc1)
  else
    let g := s.cur.roomFor conv o.ops
    match o.stop g with
    | some st => finish true false s.cur.laneAddr (encodeLane i) none s (.error st (s.setCur g))
    | none => .next (s.setCur (o.enqueue conv f g (s.seedOf g)).lpc1)

/-! Other lane instructions -/

/-- Runs a lane instruction as a computation over the state, on the settled group. The effect itself moves the lpc. -/
def laneAcc (i : Instr) (h : LHdr) (body : Acc Unit) (s : State) : Out :=
  if h.never then .next (s.setCur s.cur.lpc1)
  else finish true false s.cur.laneAddr (encodeLane i) none s (body.run (s.setCur s.cur.settle))

/-- `reg_range` of an operand, which stands in an operand field (R97). -/
def rangeOf {α : Type} (field : Nat) (o : Opnd) : Acc α := throw (.fault (opRange o field))
/-- Raises what stops the operands of the current group. -/
def checkOps (fields : List Nat) (dst src : List (Opnd × Nat)) : Acc Unit := do
  match (← getCur).opStop fields dst src with
  | some st => throw st
  | none => pure ()
/-- A source word that could not be corrected is not consumed (R335). -/
def needData (src : List (Opnd × Nat)) : Acc Unit := do if (← getCur).badSrc src then raise .dataError

end Sys2Proof.Machine
end

