-- ==== Sys2Proof/Machine/Access.lean ====
section
/-! DEFINITION. Accesses of an instruction: every address resolved before any access performs (R203, R252, R253, R318, R321),
and the atomic operations (R61 to R66). -/

namespace Sys2Proof

/-- Width of an atomic type. -/
def AtomTy.bits : AtomTy → Nat | .i64 | .n64 => 64 | _ => 32
/-- The lane type of the same width and sign. -/
def AtomTy.lty : AtomTy → LTy | .i32 => .i32 | .n32 => .n32 | .i64 => .i64 | .n64 => .n64 | .f32 => .f32
/-- The operation needs a 16-byte cell of region 0, or an ordered-add window. -/
def AtomOp.special : AtomOp → Bool | .fxadd | .oadd | .oclose => true | _ => false

end Sys2Proof

namespace Sys2Proof.Machine

/-- What a computation answers, as a value. -/
def attempt {α : Type} (m : Acc α) : Acc (Except Stop α) := fun s =>
  match m s with
  | .ok a s' => .ok (.ok a) s'
  | .error e s' => .ok (.error e) s'
/-- A computation that changes nothing where it stops but the note of a stall (R36). -/
def wholly {α : Type} (m : Acc α) : Acc α := fun s =>
  match m s with
  | .ok a s' => .ok a s'
  | .error e s' => .error e (s.noted s')
/-- A fault of a computation names a thread. -/
def withVlane {α : Type} (v : Option (BitVec 11)) (m : Acc α) : Acc α := fun s =>
  match m s with
  | .error (.fault i) s' => .error (.fault { i with vlane := v }) s'
  | r => r

/-- Raises a cause at an address. -/
def raiseAt {α : Type} (c : Cause) (va : W64) : Acc α := throw (.fault { cause := c, va := va })

/-- One access: whose it is, its offset for the translation, its virtual address. -/
structure OneAcc where
  vlane : Option (BitVec 11) := none
  off   : Nat
  va    : W64

/-- The fault is one of translation (R24). -/
def Cause.isXlat : Cause → Bool | .xlat _ => true | _ => false

/-- Resolves one part of an access; a translation fault is noted once for each page (R321). -/
def resolvePart (tr : Nat → Acc Nat) (v : Option (BitVec 11)) (o : Nat) (va : W64) (fs : List Info) : Acc (Option Nat × List Info) := do
  if fs.any (fun i => i.va.toNat / 2 ^ 16 == va.toNat / 2 ^ 16) then pure (none, fs)
  else
    match ← attempt (tr o) with
    | .ok p => pure (some p, fs)
    | .error (.fault i) => if i.cause.isXlat then pure (none, fs ++ [{ i with va := va, vlane := v }]) else throw (.fault i)
    | .error e => throw e

/-- The addresses of the bytes of an access of n bytes, one translation for each page (R40). -/
def resolveOne (tr : Nat → Acc Nat) (n : Nat) (a : OneAcc) (fs : List Info) : Acc (List Nat × List Info) := do
  let room := 0x10000 - a.va.toNat % 0x10000
  let (p, fs) ← resolvePart tr a.vlane a.off a.va fs
  if n ≤ room then pure ((List.range n).map (p.getD 0 + ·), fs)
  else
    let (q, fs) ← resolvePart tr a.vlane (a.off + room) (a.va + BitVec.ofNat 64 room) fs
    pure ((List.range n).map (fun i => if i < room then p.getD 0 + i else q.getD 0 + (i - room)), fs)

/-- The addresses of all accesses, in their order. -/
def resolveList (tr : Nat → Acc Nat) (n : Nat) : List OneAcc → List Info → Acc (List (List Nat) × List Info)
  | [], fs => pure ([], fs)
  | a :: t, fs => do
    let (l, fs) ← resolveOne tr n a fs
    let (r, fs) ← resolveList tr n t fs
    pure (l :: r, fs)

/-- Resolves every access of an instruction. A cause that is not deferred traps with the first such page; else the deferred
pages, at most 64, are posted (R318, R321). -/
def resolveAll (tr : Nat → Acc Nat) (n : Nat) (l : List OneAcc) : Acc (List (List Nat)) := do
  let (as, fs) ← resolveList tr n l []
  match fs.find? (fun i => !i.cause.deferred) with
  | some i => throw (.fault i)
  | none => if fs = [] then pure as else throw (.pages (fs.take 64) (decide (64 < fs.length)))

/-- The virtual address of an offset in a window of a group. -/
def Group.winVa (g : Group) (w : BitVec 3) (o : Nat) : W64 := (g.win.getD w.toNat {}).base + BitVec.ofNat 64 o

/-- Bytes of a size (R155). -/
def sizeBytes : Size → Nat | .b8 => 1 | .b16 => 2 | .b32 => 4 | .b64 => 8 | .b128 => 16

/-- The bytes of one access through a window of the current group. -/
def windowOne (w : BitVec 3) (o n : Nat) (k : AKind) : Acc (List Nat) := do
  let s ← get
  let l ← resolveAll (fun o => windowAccess s.curG w o k) n [{ off := o, va := s.cur.winVa w o }]
  pure (l.getD 0 [])

/-- Reads resolved bytes as the current group; a fault names the access. -/
def readAt (va : W64) (as : List Nat) : Acc Nat := do readAddrs (← curAgent) va as
/-- Writes resolved bytes as the current group. -/
def writeAt (as : List Nat) (l : List Byte) : Acc Unit := do writeAddrs (← curAgent) as l

/-! Atomics (R61 to R68) -/

/-- FP32 or wrapping sum of two codes (R65, R66). -/
def addTyped (t : AtomTy) (a b : Nat) : Nat :=
  match t with | .f32 => (faddRn (BitVec.ofNat 32 a) (BitVec.ofNat 32 b)).toNat | _ => codeOf t.lty (intOf t.lty a + intOf t.lty b)
/-- The new value at the location for the codes 0x00 to 0x09 (R61). -/
def atomNew (op : AtomOp) (t : AtomTy) (old b c : Nat) : Nat :=
  match op with
  | .add => codeOf t.lty (intOf t.lty old + intOf t.lty b)
  | .sadd => codeOf t.lty (clampInt t.lty (intOf t.lty old + intOf t.lty b))
  | .min => codeOf t.lty (min (intOf t.lty old) (intOf t.lty b))
  | .max => codeOf t.lty (max (intOf t.lty old) (intOf t.lty b))
  | .and => old &&& b
  | .or => old ||| b
  | .xor => old ^^^ b
  | .exch => b
  | .cas => if old = c then b else old
  | .fadd => addTyped .f32 old b
  | _ => old
/-- Bytes of the target (R62). -/
def targetBytes (op : AtomOp) (t : AtomTy) : Nat := match op with | .fxadd => 16 | _ => t.bits / 8

/-- An `fxadd` operand outside the range (R62). -/
def fxBad (b : Nat) : Bool :=
  match decodeElem .f32 0 b with
  | .nan | .inf _ => true
  | .zero _ => false
  | .fin m e => decide (62 ≤ flog2 m e)
/-- x * 2^64 rounded to the nearest integer (R64). -/
def fxInt (b : Nat) : Int :=
  match decodeElem .f32 0 b with | .fin m e => roundGrid { rnd := .rn } m (e + 64) 0 | _ => 0

/-- The checks of R62 for one target, in the table's order. -/
def atomCheck (det : Bool) (op : AtomOp) (t : AtomTy) (pa b : Nat) : Option Cause :=
  if pa % targetBytes op t ≠ 0 then some .atomAlign
  else if !(paRegion pa == 0 || (paRegion pa == 1 && !op.special)) then some .atomRegion
  else if det && (op == .fadd || op == .sadd) then some .atomDet
  else if op == .fxadd && fxBad b then some .fxRange
  else none

/-- Contributions in the order of application (R66). -/
def Contrib.before (a b : Contrib) : Bool :=
  decide (a.block.toNat < b.block.toNat ∨ (a.block = b.block ∧ (a.vlane.toNat < b.vlane.toNat ∨ (a.vlane = b.vlane ∧ a.seq ≤ b.seq))))
def insertContrib (x : Contrib) : List Contrib → List Contrib
  | [] => [x]
  | y :: t => if x.before y then x :: y :: t else y :: insertContrib x t
def sortContribs : List Contrib → List Contrib
  | [] => []
  | x :: t => insertContrib x (sortContribs t)
/-- The window's value (R66). -/
def OWin.apply (w : OWin) (v : Nat) : Nat := (sortContribs w.cs).foldl (fun v c => addTyped w.ty v c.value.toNat) v
/-- The open window at a location. One that overlaps it without starting at its address is another location's (R65; DESIGN CHOICE, log
108). -/
def State.winAt (s : State) (pa : Nat) : Option OWin := s.owins.find? (fun w => w.loc == pa)
/-- Closes a window: one write of the location (R66, R361). -/
def State.closeWindow (s : State) (w : OWin) (who : Option (BitVec 3 × W32 × W32)) : State :=
  let n := w.ty.bits / 8
  let s1 := (s.write w.loc (natToBytes n (w.apply (peek s.mem w.loc n)))).tagWrite who w.loc n
  { s1 with owins := s1.owins.filter (fun x => x.loc != w.loc) }

/-- An ordered-add contribution (R62, R65). -/
def contribute (part : BitVec 3) (launch block : W32) (vlane : BitVec 11) (t : AtomTy) (va : W64) (pa b : Nat) : Acc Unit := do
  let s ← get
  match s.winAt pa with
  | none =>
    if 1024 ≤ (s.owins.filter (fun w => paDie w.loc == paDie pa)).length then raiseAt .oaddFull va
    else set { s with owins := { loc := pa, ty := t, part := part, launch := launch,
                                 cs := [{ block := block, vlane := vlane, seq := 0, value := BitVec.ofNat 64 b }] } :: s.owins }
  | some w =>
    if w.ty ≠ t then raiseAt .oaddType va
    else if w.part ≠ part ∨ w.launch ≠ launch then raiseAt .oaddForeign va
    else if 65536 ≤ w.cs.length then raiseAt .oaddFull va
    else
      let k := (w.cs.filter (fun c => c.block == block && c.vlane == vlane)).length
      let c : Contrib := { block := block, vlane := vlane, seq := k, value := BitVec.ofNat 64 b }
      set { s with owins := s.owins.map (fun (x : OWin) => if x.loc == pa then { x with cs := x.cs ++ [c] } else x) }

/-- One read-modify-write at its home, and the value it returns (R61, R64 to R68). `va` names it in a fault. -/
def atomApply (ag : Agent) (g : Group) (vlane : BitVec 11) (op : AtomOp) (t : AtomTy) (va : W64) (pa b c : Nat) : Acc Nat := do
  let n := targetBytes op t
  if paNode pa ≠ 0 then
    let v ← physRead ag va pa n
    pure (v % 2 ^ t.bits)
  else match op with
    | .oadd => do contribute g.part g.launch g.block vlane t va pa b; pure 0
    | .oclose => do
      let s ← get
      match s.winAt pa with
      | some w =>
        if w.ty ≠ t then raiseAt .oaddType va
        else do
          let v ← physRead ag va pa n
          set (s.closeWindow w ag.who)
          pure (w.apply v)
      | none => physRead ag va pa n
    | .fxadd => do
      let old ← physRead { ag with who := none } va pa 16
      physWrite ag pa (natToBytes 16 ((old + fxInt b) % 2 ^ 128).toNat)
      pure 0
    | _ => do
      let old ← physRead ag va pa n
      physWrite ag pa (natToBytes n (atomNew op t old b c))
      pure old

end Sys2Proof.Machine
end

