-- ==== Sys2Proof/Machine/ScalarMem.lean ====
section
/-! DEFINITION. Scalar loads, stores, atomics, fences, windows, queues, shelf, watch and park (R203 to R214, R223 to R226). -/

namespace Sys2Proof.Machine

/-- Scalar operand k of a logged or issuing instruction. -/
def Srcs.s (x : Srcs) (k : Nat) : W64 := x.sc.getD k 0
/-- The low 32 bits of an offset register (R203). -/
def Srcs.off (x : Srcs) : Nat := bitsOf (x.s 0) 0 32
/-- A loaded value to s(d), or to the pair from s(d) (R203). -/
def putLoad (d : SReg) (z : Size) (v : Nat) : Acc Unit :=
  modifyCur (fun g => if z == .b128 then (g.setSr d (BitVec.ofNat 64 v)).setSrAt d 1 (BitVec.ofNat 64 (v / 2 ^ 64))
    else g.setSr d (BitVec.ofNat 64 v))

/-- R203. -/
def ldBody (d : SReg) (w : BitVec 3) (z : Size) (x : Srcs) : Acc Unit := do
  let as ← windowOne w x.off (sizeBytes z) .read
  let v ← readAt ((← getCur).winVa w x.off) as
  putLoad d z v
def execLd (d o : SReg) (w : BitVec 3) (z : Size) (r : Order) (s : State) : Out :=
  scalarMem (.ld d o w z r) { sc := [s.cur.sr o] } (ldBody d w z) s
/-- Registers of a stored value (R203). -/
def storeRegs (z : Size) : Nat := if z == .b128 then 2 else 1
/-- R203. The sources are logged in field order: the value's registers, then the offset's (R320). -/
def stBody (w : BitVec 3) (z : Size) (x : Srcs) : Acc Unit := do
  let n := storeRegs z
  let as ← windowOne w (bitsOf (x.s n) 0 32) (sizeBytes z) .write
  writeAt as (natToBytes (sizeBytes z) (packNat 64 (fun k => (x.s k).toNat) n))
def execSt (d o : SReg) (w : BitVec 3) (z : Size) (r : Order) (s : State) : Out :=
  scalarMem (.st d o w z r) { sc := (List.range (storeRegs z)).map (s.cur.srAt d) ++ [s.cur.sr o] } (stBody w z) s

/-- A vlane of the scalar stream (R65, R322). -/
def Group.scalarVlane (g : Group) : BitVec 11 := 1024 + BitVec.ofNat 11 g.gidx.toNat
/-- A 32-bit result in a scalar register (R204). -/
def atomResult (t : AtomTy) (v : Nat) : W64 :=
  match t with | .i32 => (BitVec.ofNat 32 v).signExtend 64 | _ => BitVec.ofNat 64 v
/-- Registers of the operands b and c (R204). -/
def atomSrcs (op : AtomOp) : Nat := match op with | .oclose => 0 | .cas => 2 | _ => 1
/-- R204. The sources are logged in field order: b and c where the operation has them, then the address (R320). Only the page of
the target's first byte is translated; a target that would reach into the next page is not aligned (DEDUCED, log 80). -/
def atomBody (d : SReg) (op : AtomOp) (t : AtomTy) (x : Srcs) : Acc Unit := do
  let ag ← curAgent
  let va := x.s (atomSrcs op)
  let l ← resolveAll (fun o => translate ag (va + BitVec.ofNat 64 o) .atomic) 1 [{ off := 0, va := va }]
  let pa := (l.getD 0 []).getD 0 0
  let g ← getCur
  let b := if op == .oclose then 0 else (x.s 0).toNat % 2 ^ t.bits
  let c := if op == .cas then (x.s 1).toNat % 2 ^ t.bits else 0
  match atomCheck ((← get).isDet g.part g.launch) op t pa b with
  | some e => asKind .atomic (raiseAt e va)
  | none =>
    let v ← wholly (asKind .atomic (atomApply ag g g.scalarVlane op t va pa b c))
    if op == .fxadd || op == .oadd then pure () else modifyCur (fun g => g.setSr d (atomResult t v))
def execAtom (d o : SReg) (op : AtomOp) (ty : AtomTy) (r : Order) (s : State) : Out :=
  scalarMem (.atom d o op ty r) { sc := (List.range (atomSrcs op)).map (s.cur.srAt d) ++ [s.cur.sr o] } (atomBody d op ty) s

/-- R205: accesses perform in order (log 2), so a fence changes no state. -/
def execFenceMem (_r : Order) (s : State) : Out := scalarNext id s
/-- R52, R205: walks read the tables as they stand (log 2, log 8). -/
def execFencePt (s : State) : Out := scalarNext id s

/-- The range of an `invpg` (R206). -/
def invpgRangeOk (n va len : W64) : Bool :=
  bitsOf n 20 44 == 0 && canonical va &&
  (len == 0 ||
    let last := va.toNat + len.toNat - 1
    if va.toNat < 2 ^ 54 then decide (last < 2 ^ 54) else decide (last < 2 ^ 64))
/-- R206: the operand limits come before the privilege (log 20); the wait ends by INVPG_COMPLETE. -/
def execInvpg (d a b : SReg) (sc : Scope) (s : State) : Out :=
  let g := s.cur
  let i : Instr := .invpg d a b sc
  if !invpgRangeOk (g.sr d) (g.sr a) (g.sr b) then
    scalarAcc i (if bitsOf (g.sr d) 20 44 ≠ 0 then raiseReg .sd d else if canonical (g.sr a) = false then raiseReg .sa a
      else raiseReg .sb b) s
  else if !g.priv then scalarAcc i (raise .privInstr) s
  else .next (s.setCur { g with wait := .invpg ((g.sr d).extractLsb' 0 20) (g.sr a) (g.sr b) sc }).stalled

/-- R207, R28. -/
def wsetBody (w : BitVec 3) (x : Srcs) : Acc Unit := do
  let y ← windowOf (← curAgent) (x.s 0)
  modifyCur (fun g => { g with win := vset g.win w.toNat y })
def execWset (w : BitVec 3) (a : SReg) (s : State) : Out :=
  if !s.cur.laneIdle && (s.cur.replaying false).isNone then .next s.stalled
  else scalarMem (.wset w a) { sc := [s.cur.sr a] } (wsetBody w) s

/-! Queues (R208 to R210) -/

/-- The predicate of a non-blocking form. -/
def Group.setSpIf (g : Group) (nb : Bool) (p : BitVec 3) (b : Bool) : Group := if nb then g.setSp p b else g
/-- An entry of a data queue pushed. -/
def Group.pushQ (g : Group) (q : BitVec 3) (v : VReg) : Group := { g with q := vset g.q q.toNat (g.q.getD q.toNat [] ++ [v]) }
def Group.qFull (g : Group) (q : BitVec 3) : Bool := decide (4 ≤ (g.q.getD q.toNat []).length)
/-- The units of a `qld`, one after the other from an offset. -/
def qldAccs (g : Group) (w : BitVec 3) (off n : Nat) : List OneAcc :=
  (List.range (256 / n)).map (fun k => { off := off + n * k, va := g.winVa w (off + n * k) })
/-- Reads each unit; the bytes in order. -/
def readUnits : List (OneAcc × List Nat) → Acc (List Byte)
  | [] => pure []
  | x :: t => do
    let v ← readAt x.1.va x.2
    let r ← readUnits t
    pure (natToBytes x.2.length v ++ r)
/-- R208. A replay meets a full queue as the issue does. -/
def qldBody (p q : BitVec 3) (w : BitVec 3) (z : Size) (nb : Bool) (x : Srcs) : Acc Unit := do
  let s ← get
  if s.cur.qFull q then (if nb then modifyCur (fun g => g.setSp p false) else notReady)
  else do
    let l := qldAccs s.cur w x.off (sizeBytes z)
    let as ← resolveAll (fun o => windowAccess s.curG w o .read) (sizeBytes z) l
    let bs ← readUnits (l.zip as)
    modifyCur (fun g => (g.pushQ q (BitVec.ofNat 2048 (bytesToNat bs))).setSpIf nb p true)
def execQld (p q : BitVec 3) (o : SReg) (w : BitVec 3) (z : Size) (r : Order) (nb : Bool) (s : State) : Out :=
  scalarMem (.qld p q o w z r nb) { sc := [s.cur.sr o] } (qldBody p q w z nb) s
/-- The entry of a `qpush` (R209). -/
def qpushEntry (z : Size) (v : W64) : VReg :=
  vbuild (fun j => match z with
    | .b8 => (v.extractLsb' 0 8).setWidth 32
    | .b16 => (v.extractLsb' 0 16).setWidth 32
    | .b64 => if j % 2 = 0 then v.extractLsb' 0 32 else v.extractLsb' 32 32
    | _ => v.extractLsb' 0 32)
/-- R209. -/
def execQpush (p q : BitVec 3) (o : SReg) (z : Size) (nb : Bool) (s : State) : Out :=
  if s.cur.qFull q then (if nb then scalarNext (fun g => g.setSp p false) s else .next s.stalled)
  else scalarNext (fun g => (g.pushQ q (qpushEntry z (g.sr o))).setSpIf nb p true) s
/-- R210. -/
def execYpop (p : BitVec 3) (q : BitVec 2) (o : SReg) (nb : Bool) (s : State) : Out :=
  match s.cur.y.getD q.toNat [] with
  | [] => if nb then scalarNext (fun g => g.setSp p false) s else .next s.stalled
  | v :: t => scalarNext (fun g => ({ g with y := vset g.y q.toNat t }.setSr o v).setSpIf nb p true) s

/-! The shelf (R70 to R73, R211 to R214) -/

/-- A slot and an offset as a record names them: the byte of the block's slots taken as one range, cut to 64 bits where an operand of
2^52 or more leaves it (R73, R135; DEDUCED, log 63). -/
def slotVa (sl : W64) (o : Nat) : W64 := BitVec.ofNat 64 (sl.toNat * 4096 + o)
/-- The slot and the offset that an operand of a scalar shelf access names, as one number (R211). -/
def slotOperand (o : W64) : W64 := slotVa (o &&& 0xFF#64) (bitsOf o 8 12)
/-- Slot and offset of a scalar shelf access (R211). -/
def shelfAt (o : W64) (n : Nat) : Acc Nat := do
  if bitsOf o 20 44 ≠ 0 then raiseAt .shelfRange (slotOperand o)
  else shelfResolve (← get).curG (bitsOf o 0 8) (bitsOf o 8 12) n
def execShld (d o : SReg) (z : Size) (r : Order) (s : State) : Out :=
  scalarMem (.shld d o z r) {} (fun _ => do
    let a ← shelfAt (s.cur.sr o) (sizeBytes z)
    let v ← physRead (← curAgent) (slotOperand (s.cur.sr o)) a (sizeBytes z)
    putLoad d z v) s
def execShst (d o : SReg) (z : Size) (r : Order) (s : State) : Out :=
  scalarMem (.shst d o z r) {} (fun _ => do
    let a ← shelfAt (s.cur.sr o) (sizeBytes z)
    physWrite (← curAgent) a (natToBytes (sizeBytes z) ((s.cur.sr d).toNat + 2 ^ 64 * (s.cur.srAt d 1).toNat))) s

/-- The lookup of R71. -/
def lookup (s : State) (b : Block) (k : BitVec 40) : W64 :=
  let sl := List.range b.slotCount.toNat
  match sl.find? (fun i => bitOf (s.tagOf b i) 63 && (s.tagOf b i).extractLsb' 0 40 == k) with
  | some i => BitVec.ofNat 64 i
  | none => match sl.find? (fun i => !bitOf (s.tagOf b i) 63) with
    | some i => BitVec.ofNat 64 (0x100 + i)
    | none => 0x200
/-- A group without a block has no slots. -/
def noBlock : Block :=
  { part := 0, launch := 0, idx := 0, core := 0, gids := [], slotBase := 0, slotCount := 0, frames := [],
    bars := Vector.replicate 16 {}, begun := 0, budget := 0 }
def State.curBlock (s : State) : Block := (s.blockAt s.cur).getD noBlock
/-- R212. -/
def execLkup (d a : SReg) (s : State) : Out :=
  if bitsOf (s.cur.sr a) 40 24 ≠ 0 then scalarAcc (.lkup d a) (raiseReg .sa a) s
  else scalarNext (fun g => g.setSr d (lookup s s.curBlock ((g.sr a).extractLsb' 0 40))) s
/-- A slot number within the block's slots (R213, R214). -/
def slotIn (b : Block) (v : W64) : Bool := decide (v.toNat < b.slotCount.toNat)
/-- R71, R213. -/
def execSlotInst (a b : SReg) (s : State) : Out :=
  let i : Instr := .slotInst a b
  let blk := s.curBlock
  let sl := s.cur.sr a
  let k := s.cur.sr b
  if !slotIn blk sl then scalarAcc i (raiseAt .shelfRange (slotVa sl 0)) s
  else if bitsOf k 40 24 ≠ 0 then scalarAcc i (raiseReg .sb b) s
  else
    let e := s.tagOf blk sl.toNat
    if bitOf e 63 then .next ((s.setTag blk sl.toNat ((e &&& ~~~0xFFFFFFFFFF#64) ||| k)).setCur s.cur.pc4)
    else match freeFrames s blk with
      | [] => scalarAcc i (raiseAt .shelfFull (slotVa sl 0)) s
      | f :: t =>
        let f := t.foldl (fun (m : BitVec 8) x => if x.ult m then x else m) f
        .next ((s.setTag blk sl.toNat (1#1 ++ 0#7 ++ f ++ 0#8 ++ k.extractLsb' 0 40)).setCur s.cur.pc4)
/-- A loop of the core's array that has steps left reads the slot in one of its steps (R140). -/
def slotPinned (s : State) (blk : Block) (sl : Nat) : Bool :=
  match (s.core blk.core).mx.loop, (s.core blk.core).mx.holder with
  | some l, some h =>
    let g := s.group (Gid.of blk.core h)
    let reads := fun (v : Option W32) (d : W64) (inc : BitVec 12) (k : Nat) => match v with
      | some o =>
        let a : Int := o.toNat + 16 * inc.toInt * k
        decide (a < (sl + 1) * 4096 ∧ sl * 4096 < a + (tdRows d * tdBytes d : Nat))
      | none => false
    g.part == blk.part && g.launch == blk.launch && g.block == blk.idx && decide (l.done < l.steps) &&
    (List.range l.steps).any (fun k => reads l.aShf l.aDesc l.incA k ||
      (l.reload && decide (k + 1 < l.steps) && reads l.wShf l.wDesc l.incW (k + 1)))
  | _, _ => false
/-- R71, R140, R213. -/
def execSlotEvict (d a : SReg) (s : State) : Out :=
  let blk := s.curBlock
  let sl := s.cur.sr a
  if !slotIn blk sl then scalarAcc (.slotEvict d a) (raiseAt .shelfRange (slotVa sl 0)) s
  else
    let e := s.tagOf blk sl.toNat
    let st : W64 := if !bitOf e 63 then 2 else if bitOf e 62 || slotPinned s blk sl.toNat then 1 else 0
    let s1 := if st = 0 then s.setTag blk sl.toNat (e &&& 0x00FFFFFFFFFFFFFF#64) else s
    .next (s1.setCur (s.cur.setSr d st).pc4)
/-- R213. -/
def execSlotRd (d a : SReg) (s : State) : Out :=
  let sl := s.cur.sr a
  if !slotIn s.curBlock sl then scalarAcc (.slotRd d a) (raiseAt .shelfRange (slotVa sl 0)) s
  else scalarNext (fun g => g.setSr d (s.tagOf s.curBlock sl.toNat)) s
/-- R71, R214: the wait ends by PUBLISH_SWAP. -/
def execPublSlot (d a : SReg) (s : State) : Out :=
  let sl := s.cur.sr a
  if !slotIn s.curBlock sl then scalarAcc (.publSlot d a) (raiseAt .shelfRange (slotVa sl 0)) s
  else if !bitOf (s.tagOf s.curBlock sl.toNat) 62 then scalarNext (fun g => g.setSr d 1) s
  else .next (s.setCur { s.cur with wait := .publSlot (sl.extractLsb' 0 8) d }).stalled
/-- R85, R214: the publish has begun, and takes the die's next number; the wait ends by PBUF_PUBLISH_SWAP. -/
def execPublBuf (d a : SReg) (s : State) : Out :=
  let b := s.cur.sr a
  if bitsOf b 8 56 ≠ 0 then scalarAcc (.publBuf d a) (raiseReg .sa a) s
  else if !bitOf (Sparse.get (s.die s.curG.die).pbufs (bitsOf b 0 8)) 168 then scalarNext (fun g => g.setSr d 1) s
  else
    let die := s.die s.curG.die
    .next ((s.setCur { s.cur with wait := .publBuf (b.extractLsb' 0 8) d die.publs }).setDie s.curG.die { die with publs := die.publs + 1 }).stalled

/-! Watch and park (R223 to R226, R329) -/

/-- R223. -/
def watchBody (d : SReg) (w : BitVec 3) (z : Size) (x : Srcs) : Acc Unit := do
  let as ← windowOne w x.off (sizeBytes z) .read
  let va := (← getCur).winVa w x.off
  let pa := as.getD 0 0
  if !inHbm pa then raiseAt .watchRegion va
  else do
    let v ← readAt va as
    modifyCur (fun g => { g.setSr d (BitVec.ofNat 64 v) with
      mon := some (BitVec.ofNat 64 (pa / 128 * 128)), fired := false, restored := false })
def execWatch (d o : SReg) (w : BitVec 3) (z : Size) (r : Order) (s : State) : Out :=
  if s.cur.h.on then scalarAcc (.watch d o w z r) (raise .illegalInstr) s
  else scalarMem (.watch d o w z r) { sc := [s.cur.sr o] } (watchBody d w z) s
/-- R225: the park takes effect by PARK_EFFECT. -/
def execPark (d a : SReg) (s : State) : Out :=
  if s.cur.h.on then scalarAcc (.park d a) (raise .illegalInstr) s
  else scalarNext (fun g => { g with st := .parking d (g.sr a) }) s

end Sys2Proof.Machine
end

