-- ==== Sys2Proof/Machine/Engine.lean ====
section
/-! DEFINITION. Copy engines: commands, queues, chains, counters, published buffers (R74 to R88, R215 to R220). -/

namespace Sys2Proof.Machine

/-! The command record (R77) -/

def cKind (w : BitVec 512) : Nat := bitsOf w 440 8
def cTrig (w : BitVec 512) : Bool := bitOf w 439
def cDst (w : BitVec 512) : Nat := bitsOf w 437 2
def cDims (w : BitVec 512) : Nat := bitsOf w 433 4
def cElem (w : BitVec 512) : Nat := bitsOf w 430 3
def cLen (w : BitVec 512) : Nat := bitsOf w 384 32
def cSrc (w : BitVec 512) : W64 := w.extractLsb' 320 64
def cDest (w : BitVec 512) : W64 := w.extractLsb' 256 64
def cAux0 (w : BitVec 512) : W64 := w.extractLsb' 192 64
def cAux1 (w : BitVec 512) : W64 := w.extractLsb' 128 64
def cMask (w : BitVec 512) : W64 := w.extractLsb' 0 64

/-- The place of a block's rectangle position: the core at a row and column of the package (R2). -/
def coreAt (row col : Nat) : BitVec 10 :=
  BitVec.ofNat 3 (row / 8 * 4 + col / 16) ++ BitVec.ofNat 3 (row % 8) ++ BitVec.ofNat 4 (col % 16)
/-- The rectangle of a multicast: origin and the logarithms of its sides (R77). -/
def mcRect (w : BitVec 512) : Nat × Nat × Nat × Nat :=
  let a := cAux1 w
  (bitsOf a 0 4, bitsOf a 4 6, bitsOf a 10 3, bitsOf a 13 3)
/-- Aligned to its sides, at most 64 cores, within one die, with no mask bit beyond it (R78). -/
def mcRectOk (w : BitVec 512) : Bool :=
  let (r, c, h, v) := mcRect w
  decide (h ≤ 3 ∧ v ≤ 4 ∧ h + v ≤ 6 ∧ r % 2 ^ h = 0 ∧ c % 2 ^ v = 0 ∧ (cMask w).toNat < 2 ^ 2 ^ (h + v))
/-- The cores of a multicast, by ascending mask bit. -/
def mcCores (w : BitVec 512) : List (BitVec 10) :=
  let (r, c, _, v) := mcRect w
  ((List.range 64).filter (fun j => bitOf (cMask w) j)).map (fun j => coreAt (r + j / 2 ^ v) (c + j % 2 ^ v))

/-- A destination word's bits beyond its fields are zero (R77). -/
def destOk (k : Nat) (v : W64) : Bool :=
  match k with | 1 => bitsOf v 20 44 == 0 | 2 => bitsOf v 41 23 == 0 | 3 => false | _ => true
/-- The record's fields lie in their ranges (R77, R78). Bits that R77 neither reserves nor uses are ignored: 63:32 of a split tile's
mask, and those of aux1 above its field (DESIGN CHOICE, log 65). -/
def recordOk (w : BitVec 512) : Bool :=
  decide (1 ≤ cKind w ∧ cKind w ≤ 5) && bitsOf w 424 6 == 0 && destOk (cDst w) (cDest w) &&
  (match cKind w with
   | 2 => decide (1 ≤ cDims w ∧ cDims w ≤ 9 ∧ cElem w ≤ 4)
   | 3 => decide (1 ≤ cLen w ∧ cLen w ≤ 65536)
   | 4 => cDst w == 1 && mcRectOk w
   | 5 => let n := bitsOf (cMask w) 0 32
          decide (n % 2 = 0 ∧ 2 ≤ n ∧ n ≤ 65536) && destOk (cDst w) (cAux1 w)
   | _ => true)

/-- The agent of a command: its die's engines in the issuer's address space, for the issuing block (R68, R77). -/
def Cmd.agent (die : BitVec 3) (c : Cmd) : Agent :=
  { die := die, core := none, pasid := c.pasid, priv := c.priv,
    who := some (c.part, c.launch, c.block) }
/-- A command of the current group. Its address space is the one that the group runs in now, which for handler code is `hpasid`
(DEDUCED, log 94). -/
def ownCmd (s : State) : Cmd :=
  let g := s.cur
  { gid := s.curG, part := g.part, launch := g.launch, block := g.block, pasid := g.pasid, priv := g.priv }

/-! Slots and buffers that a command fills (R71, R78, R84) -/

/-- The blocks and slots that a command fills, by ascending mask bit for a multicast; none where a masked core does not hold
exactly one block of the launch. -/
def Cmd.slots (s : State) (c : Cmd) : Option (List (Block × Nat)) :=
  let sl := fun (v : W64) => bitsOf v 0 8
  if cKind c.words = 4 then
    (mcCores c.words).mapM (fun k =>
      match s.blocks.filter (fun b => b.core == k && b.part == c.part && b.launch == c.launch) with
      | [b] => some (b, sl (cDest c.words))
      | _ => none)
  else if cDst c.words = 1 then
    match s.blockOf c.part c.launch c.block with
    | some b => some ((b, sl (cDest c.words)) :: (if cKind c.words = 5 then [(b, sl (cAux1 c.words))] else []))
    | none => some []
  else some []
/-- The blocks and slots whose shadows a command has taken and still fills (R71, R78). -/
def Cmd.filling (s : State) (c : Cmd) : List (Block × Nat) :=
  c.targets.filterMap (fun t =>
    (s.blocks.find? (fun b => b.core == t.1 && b.part == c.part && b.launch == c.launch && b.idx == t.2.1)).map (fun b => (b, t.2.2)))
/-- The buffers that a command fills. -/
def Cmd.bufs (c : Cmd) : List Nat :=
  if cDst c.words = 2 then
    bitsOf (cDest c.words) 0 8 :: (if cKind c.words = 5 then [bitsOf (cAux1 c.words) 0 8] else [])
  else []
/-- A command's bytes at its home, read by its engine. -/
def engRead (die : BitVec 3) (c : Cmd) (va : W64) (n : Nat) : Acc Nat := readVirt (c.agent die) va n .read
/-- The record of a `cmd`, as the engine reads it (R218); kind 0 gives `bad_command`. -/
def readRecord (die : BitVec 3) (c : Cmd) : Acc Cmd := do
  match c.recAt with
  | none => pure c
  | some a =>
    if bitsOf a 0 6 ≠ 0 then pure { c with recAt := none, words := 0 }
    else
      let w := BitVec.ofNat 512 (← engRead die c a 64)
      pure { c with recAt := none, words := if bitsOf w 448 64 = 0 then w else 0 }
/-- A command with its record; that of a `cmd` which has not begun counts as it stands in memory now, for its trigger (R81) and
its buffers (R85), and one that cannot be read names neither (DESIGN CHOICE, log 83). -/
def Cmd.look (s : State) (die : BitVec 3) (c : Cmd) : Cmd :=
  match c.recAt with
  | none => c
  | some _ => match (readRecord die c).run s with
    | .ok c1 _ => { c with words := c1.words }
    | .error _ _ => { c with words := 0 }
/-- What stops a copy into a slot of a block (R71). -/
def slotStop (s : State) (b : Block) (sl : Nat) : Option Cause :=
  if b.slotCount.toNat ≤ sl ∨ bitOf (s.tagOf b sl) 63 = false then some .shelfInvalid
  else if bitOf (s.tagOf b sl) 62 then none
  else if freeFrames s b = [] then some .shelfFull else none
/-- A free frame, the lowest, becomes the slot's shadow unless it has one (R71). -/
def State.takeShadow (s : State) (b : Block) (sl : Nat) : State :=
  let e := s.tagOf b sl
  if bitOf e 62 then s
  else match freeFrames s b with
    | [] => s
    | f :: t =>
      let f := t.foldl (fun (m : BitVec 8) x => if x.ult m then x else m) f
      s.setTag b sl (putBits (putBits (putBit e 61 false) 62 1 1) 40 8 f.toNat)
/-- The slots of a command take their shadows one after the other, or the first that cannot says why (R71, R78). -/
def State.takeShadows (s : State) : List (Block × Nat) → Except Cause State
  | [] => .ok s
  | x :: t => match slotStop s x.1 x.2 with
    | some e => .error e
    | none => (s.takeShadow x.1 x.2).takeShadows t
/-- A command with the shadows it fills. -/
def Cmd.fills (c : Cmd) (l : List (Block × Nat)) : Cmd :=
  { c with took := true, targets := l.map (fun x => (x.1.core, x.1.idx, x.2)) }
/-- The publishes of a die that wait: of groups in their slots, behind their handlers, and saved, each with its buffer (R85, R317). -/
def State.publishes (s : State) (die : BitVec 3) : List (Nat × Nat) :=
  let here := (s.groups.filter (fun p => decide (p.1 / 8192 = die.toNat))).flatMap
    (fun p => if p.2.h.on then [p.2.h.kept.wait, p.2.wait] else [p.2.wait])
  let saved := ((s.launches.flatMap Launch.saved).filter (fun x => x.core.extractLsb' 7 3 == die)).map (fun x => x.kept.wait)
  (here ++ saved).filterMap (fun w => match w with | .publBuf b _ n => some (b.toNat, n) | _ => none)
/-- The publishes of buffer b that wait. -/
def publWaits (s : State) (die : BitVec 3) (b : Nat) : List Nat := ((s.publishes die).filter (fun p => p.1 == b)).map Prod.snd
/-- A publish that began before the command was accepted has not returned (R85). -/
def Cmd.isHeld (c : Cmd) (s : State) (die : BitVec 3) : Bool := c.held.any (fun n => (s.publishes die).any (fun p => p.2 == n))
/-- A copy into a slot or a buffer ended with an error. Where a publish still holds it back, its buffer takes the error once the publish
has returned (R85, R88). -/
def State.markErr (s : State) (die : BitVec 3) (c : Cmd) : State :=
  let s1 := (c.filling s).foldl (fun s x =>
    let e := s.tagOf x.1 x.2
    if bitOf e 62 then s.setTag x.1 x.2 (putBit e 61 true) else s) s
  if c.isHeld s die then
    let d := s1.die die
    s1.setDie die { d with spoilt := (c.look s die).bufs.map (fun b => (b, c.held)) ++ d.spoilt }
  else (c.look s die).bufs.foldl (fun s b =>
    let d := s.die die
    let x := Sparse.get d.pbufs b
    if bitOf x 168 then s.setDie die { d with pbufs := Sparse.set d.pbufs b (putBit x 167 true) } else s) s1
/-- Copies into a buffer are outstanding (R84). -/
def State.pendBufs (s : State) (die : BitVec 3) (l : List Nat) : State :=
  l.foldl (fun s b =>
    let d := s.die die
    let x := Sparse.get d.pbufs b
    if bitOf x 169 then s.setDie die { d with pbufs := Sparse.set d.pbufs b (putBit x 168 true) } else s) s
/-- Copies into a buffer that ended with an error while publishes held them back, all of which have returned: the buffer is pending with
its error (R84, R85, R88). -/
def State.settleSpoilt (s : State) (die : BitVec 3) (b : Nat) : State :=
  let d := s.die die
  let gone := fun (x : Nat × List Nat) => x.1 == b && !x.2.any (fun n => (s.publishes die).any (fun p => p.2 == n))
  let x := Sparse.get d.pbufs b
  s.setDie die { d with
    spoilt := d.spoilt.filter (fun x => !gone x),
    pbufs := if d.spoilt.any gone && bitOf x 169 then Sparse.set d.pbufs b (putBits x 167 2 3) else d.pbufs }
/-- Copies of a buffer that a publish has let go are outstanding (R84, R85). -/
def State.letGo (s0 : State) (die : BitVec 3) (b : Nat) : State :=
  let s := s0.settleSpoilt die b
  if (s.die die).queues.any (fun p => p.2.cmds.any (fun c => c.held != [] && !c.isHeld s die && (c.look s die).bufs.contains b)) then
    s.pendBufs die [b] else s
/-- Some command that publish n of buffer b waits for, one accepted before it, has not completed (R47, R85). -/
def bufFilling (s : State) (die : BitVec 3) (b n : Nat) : Bool :=
  (s.die die).queues.any (fun p => p.2.cmds.any (fun c => !c.held.contains n && (c.look s die).bufs.contains b))
/-- Some command that fills a slot has not completed (R47, R48, R71). -/
def slotFilling (s : State) (b : Block) (sl : Nat) : Bool :=
  s.dies.any (fun d => d.2.queues.any (fun p => p.2.cmds.any (fun c =>
    (c.filling s).any (fun x => x.1.core == b.core && x.1.part == b.part && x.1.launch == b.launch && x.1.idx == b.idx && x.2 == sl))))

/-! Queues (R74, R75, R88) -/

def State.queue (s : State) (die : BitVec 3) (q : BitVec 7) : Queue := (s.die die).queue q
def State.setQueue (s : State) (die : BitVec 3) (q : BitVec 7) (x : Queue) : State := s.setDie die ((s.die die).setQueue q x)
/-- Commands accepted and not completed (R74). -/
def Queue.count (x : Queue) : Nat := x.cmds.length
def Queue.setCmd (x : Queue) (c : Cmd) : Queue := { x with cmds := x.cmds.map (fun y => if y.n == c.n then c else y) }
/-- Commands at the head that have ended leave in order; `n` bounds them (R75). -/
def Queue.retire (x : Queue) : Nat → Queue
  | 0 => x
  | n + 1 =>
    match x.cmds with
    | c :: t => match c.st with
      | .ended st => Queue.retire { x with cmds := t, seqDone := c.n, ended := if st = 0 then x.ended else (c.n, st) :: x.ended } n
      | _ => x
    | [] => x
/-- A command ends with a status (R75, R86, R88). `last_status` and `last_err_seq` are set as it ends, though it completes in its
queue's order (DESIGN CHOICE, log 84). -/
def State.endCmd (s : State) (die : BitVec 3) (q : BitVec 7) (c : Cmd) (st : BitVec 8) : State :=
  let s1 := if st = 0 then s else s.markErr die c
  let x := (s1.queue die q).setCmd { c with st := .ended st }
  let y := if st = 0 then x else { x with lastStatus := st, lastErr := c.n }
  s1.setQueue die q (y.retire y.cmds.length)
/-- The status that a fault of an engine access gives (R86). -/
def statusOf : Cause → BitVec 8
  | .xlat c => 0#4 ++ c
  | .dataError => 0x10 | .detOrder => 0x11 | .scaleFormat => 0x14 | .shelfInvalid => 0x17 | .shelfFull => 0x18 | _ => 0x12
/-- The record of an engine fault (R87, R322). -/
def engineRecord (die : BitVec 3) (q : BitVec 7) (c : Cmd) (i : Info) : BitVec 512 :=
  recWords (1#4 ++ i.cause.code ++ 0#13 ++ die ++ c.gid.core.extractLsb' 0 7 ++ c.gid.slot ++ c.part ++ c.pasid)
    i.va i.entry c.n (i.acc ++ 0#1 ++ i.hint ++ 0#11 ++ q ++ 0#35) (c.block ++ 0#32) 0 0
/-- A command halts for fault service, keeping its progress (R87). -/
def State.haltCmd (s : State) (die : BitVec 3) (q : BitVec 7) (c : Cmd) (i : Info) : State :=
  (s.setQueue die q ((s.queue die q).setCmd { c with st := .halted i.cause.code, begun := true })).post c.part [engineRecord die q c i]
/-- A command of the queue waits for fault service. -/
def Queue.halted (x : Queue) : Bool := x.cmds.any Cmd.isHalted || x.fetchHalt != 0

/-- The trigger of a command has been reached (R80, R81). -/
def Cmd.triggered (c : Cmd) (s : State) (die : BitVec 3) : Bool :=
  reached (s.ctr die (c.words.extractLsb' 416 8)) (c.words.extractLsb' 64 64)
/-- A command is accepted: it takes the next number (R75, R81, R84). -/
def State.accept (s : State) (die : BitVec 3) (q : BitVec 7) (c : Cmd) : State :=
  let x := s.queue die q
  let l := c.look s die
  let c1 := { c with n := x.seqNext, held := l.bufs.flatMap (publWaits s die), hit := cTrig l.words && l.triggered s die }
  let s1 := s.setQueue die q { x with seqNext := x.seqNext + 1, cmds := x.cmds ++ [c1] }
  if c1.held = [] then s1.pendBufs die l.bufs else s1

/-! The copy instructions (R215 to R218) -/

/-- Packs the fields of a record (R77). -/
def mkRecord (kind : BitVec 8) (trig : Bool) (dk : BitVec 2) (ndims : BitVec 4) (el : BitVec 3) (ctr : BitVec 8) (len : W32)
    (src dest aux0 aux1 tv mask : W64) : BitVec 512 :=
  0#64 ++ kind ++ bit trig ++ dk ++ ndims ++ el ++ 0#6 ++ ctr ++ len ++ src ++ dest ++ aux0 ++ aux1 ++ tv ++ mask

/-- The record and whether every value fits its field, from the run of registers: `n` operands, then the trigger's two
(R216). A value that does not fit gives kind 0, which completes with `bad_command`. -/
def runRecord (g : Group) (a : SReg) (kind : BitVec 8) (dk : BitVec 2) (trig : Bool) (n : Nat) : BitVec 512 :=
  let r := g.srAt a
  let t := fun (k : Nat) => if trig then r (n + k) else 0
  let fits := decide (kind = 2 ∨ bitsOf (r 2) 32 32 = 0) && decide (kind ≠ 2 ∨ bitsOf (r 2) 7 57 = 0) &&
    decide (kind ≠ 3 ∨ bitsOf (r 4) 32 32 = 0) && decide (kind ≠ 4 ∨ bitsOf (r 3) 16 48 = 0) && decide (bitsOf (t 0) 8 56 = 0)
  let k : BitVec 8 := if fits then kind else 0
  let tr := trig && fits
  let ctr := (t 0).extractLsb' 0 8
  if kind = 2 then mkRecord k tr dk ((r 2).extractLsb' 0 4) ((r 2).extractLsb' 4 3) ctr 0 (r 0) (r 1) (r 3) 0 (t 1) 0
  else if kind = 3 then mkRecord k tr dk 0 0 ctr ((r 2).extractLsb' 0 32) (r 0) (r 1) (r 3) (r 4) (t 1) 0
  else if kind = 4 then mkRecord k tr dk 0 0 ctr ((r 2).extractLsb' 0 32) (r 0) (r 1) 0 (r 3) (t 1) (r 4)
  else mkRecord k tr dk 0 0 ctr ((r 2).extractLsb' 0 32) (r 0) (r 1) 0 0 (t 1) 0

/-- The group after a command was accepted: its number in s(d); with `.cont` it yields at the continuation (R83, R217). -/
def afterIssue (d : SReg) (n : W64) (q : BitVec 7) (cont : Option W64) (g : Group) : Group :=
  let g1 := g.setSr d n
  match cont with
  | some a => { g1 with pc := a, st := .yielding { on := .queue q n, d := d + 1, cmd := true } }
  | none => g1.pc4
/-- A group may take a place of a queue: one is free for it and for those that came before it (R74, R311). -/
def Queue.turn (x : Queue) (s : State) (gid : Gid) : Bool :=
  let l := x.line.filter (fun g => (s.group g).live && !(s.group g).h.halted)
  decide (x.count + (if l.contains gid then l.idxOf gid else l.length) < 64)
/-- R217: a full queue holds the group; checks on the issuing block's own slot; then the command is accepted. A slot that the block
does not have is a slot that is not valid (R71; log 64). -/
def issueCmd (i : Instr) (d : SReg) (q : BitVec 7) (c : Cmd) (ownSlot : Bool) (cont : Option W64) (s : State) : Out :=
  let die := s.curG.die
  let x := s.queue die q
  let own := if ownSlot then [(s.curBlock, bitsOf (cDest c.words) 0 8)] else []
  if !x.turn s s.curG then .next (s.setQueue die q { x with line := if x.line.contains s.curG then x.line else x.line ++ [s.curG] }).stalled
  else match s.takeShadows own with
    | .error e => scalarAcc i (raiseAt e (BitVec.ofNat 64 (bitsOf (cDest c.words) 0 8 * 4096 + bitsOf (cDest c.words) 8 12))) s
    | .ok s1 =>
      let s1 := s1.setQueue die q { x with line := x.line.filter (· != s.curG) }
      let s2 := s1.accept die q (if ownSlot then c.fills own else c)
      .next (s2.setCur (afterIssue d x.seqNext q cont s2.cur))
/-- The continuation address behind a run of n registers. -/
def contAt (g : Group) (a : SReg) (cont : Bool) (n : Nat) : Option W64 := if cont then some (g.srAt a n) else none
/-- Registers of the run before the continuation. -/
def runLen (n : Nat) (trig : Bool) : Nat := if trig then n + 2 else n
def execCpy (d a : SReg) (q : BitVec 7) (cont trig : Bool) (k : DstKind) (s : State) : Out :=
  issueCmd (.cpy d a q cont trig k) d q { ownCmd s with words := runRecord s.cur a 1 k.code trig 3 } (k == .slot)
    (contAt s.cur a cont (runLen 3 trig)) s
def execTcpy (d a : SReg) (q : BitVec 7) (cont trig : Bool) (k : DstKind) (s : State) : Out :=
  issueCmd (.tcpy d a q cont trig k) d q { ownCmd s with words := runRecord s.cur a 2 k.code trig 4 } (k == .slot)
    (contAt s.cur a cont (runLen 4 trig)) s
def execGath (d a : SReg) (q : BitVec 7) (cont trig : Bool) (k : DstKind) (s : State) : Out :=
  issueCmd (.gath d a q cont trig k) d q { ownCmd s with words := runRecord s.cur a 3 k.code trig 5 } (k == .slot)
    (contAt s.cur a cont (runLen 5 trig)) s
def execMcast (d a : SReg) (q : BitVec 7) (cont trig : Bool) (s : State) : Out :=
  issueCmd (.mcast d a q cont trig) d q { ownCmd s with words := runRecord s.cur a 4 1 trig 5 } false
    (contAt s.cur a cont (runLen 5 trig)) s
/-- R218: the engine reads the record when the command begins. -/
def execCmd (d a : SReg) (q : BitVec 7) (cont : Bool) (s : State) : Out :=
  issueCmd (.cmd d a q cont) d q { ownCmd s with recAt := some (s.cur.sr a) } false (contAt s.cur a cont 1) s

/-- R79, R219: one atomic action at the queue page; the tail's next field is written through the issuer's address space. -/
def chainBody (a b : SReg) (x : Srcs) : Acc Unit := do
  let v := x.sc.getD 0 0
  let k := x.sc.getD 1 0
  if bitsOf k 7 57 ≠ 0 then raiseReg .sb b
  if canonical v = false ∨ bitsOf v 0 6 ≠ 0 then raiseReg .sa a
  let s ← get
  let q := k.extractLsb' 0 7
  let y := s.queue s.curG.die q
  if y.tail ≠ 0 then
    let as ← resolveAll (fun o => translate (groupAgent s.curG s.cur) (y.tail + 56 + BitVec.ofNat 64 o) .write) 8
      [{ off := 0, va := y.tail + 56 }]
    writeAt (as.getD 0 []) (natToBytes 8 v.toNat)
  modify (fun s1 =>
    let y := s1.queue s.curG.die q
    s1.setQueue s.curG.die q { y with tail := v, fetch := if y.tail = 0 ∨ y.fetch = 0 then v else y.fetch,
                                      appends := y.appends ++ [(v, ownCmd s)] })
def execChain (a b : SReg) (s : State) : Out := scalarMem (.chain a b) { sc := [s.cur.sr a, s.cur.sr b] } (chainBody a b) s

/-! Counters and queue numbers (R80 to R82, R220) -/

/-- The object of a `seq` within range (R220). -/
def seqRange (q : Bool) (v : W64) : Bool := if q then bitsOf v 7 57 == 0 else bitsOf v 8 56 == 0
/-- A command that waits for trigger counter i (R81). -/
def Cmd.waitsFor (c : Cmd) (s : State) (die : BitVec 3) (i : BitVec 8) : Bool :=
  let l := c.look s die
  c.st == .accepted && !c.started && !c.begun && !c.hit && !c.cancel && cTrig l.words && l.words.extractLsb' 416 8 == i && !l.triggered s die
/-- An armed operation references trigger counter i (R81). -/
def ctrArmed (s : State) (die : BitVec 3) (i : BitVec 8) : Bool :=
  (s.die die).queues.any (fun p => p.2.cmds.any (fun c => c.waitsFor s die i)) ||
  yieldsOn s die (fun y => match y with | .ctr c n => c == i && !reached (s.ctr die i) n | _ => false)
/-- A change of the commands of every queue of a die. -/
def State.mapCmds (s : State) (die : BitVec 3) (f : Cmd → Cmd) : State :=
  let d := s.die die
  s.setDie die { d with queues := d.queues.map (fun p => (p.1, { p.2 with cmds := p.2.cmds.map f })) }
def execSeqRd (d a : SReg) (q : Bool) (s : State) : Out :=
  let v := s.cur.sr a
  if !seqRange q v then scalarAcc (.seqRd d a q) (raiseReg .sa a) s
  else scalarNext (fun g => g.setSr d (if q then s.seqDone s.curG.die (v.extractLsb' 0 7) else s.ctr s.curG.die (v.extractLsb' 0 8))) s
/-- What a yield of a die waits on has been reached (R80, R83). -/
def YieldOn.reached (s : State) (die : BitVec 3) : YieldOn → Bool
  | .queue q n => Machine.reached (s.seqDone die q) n
  | .ctr c n => Machine.reached (s.ctr die c) n
  | _ => false
/-- The status of a yield that has been reached (R83, R201). -/
def yieldStatus (s : State) (die : BitVec 3) (y : YieldRec) : BitVec 8 :=
  match y.on with
  | .queue q n => if y.cmd then (((s.queue die q).ended.find? (fun x => x.1 == n)).map (fun x => x.2)).getD 0 else 0
  | _ => 0
/-- The yields of a die on an object, of groups in their slots, in their handlers and saved: those reached keep their status, and
with `force` the others are cancelled (R82, R83). -/
def State.settleYields (s : State) (die : BitVec 3) (on : YieldOn → Bool) (force : Bool) : State :=
  let upd := fun (y : YieldRec) =>
    if on y.on && y.got.isNone then
      (if y.on.reached s die then { y with got := some (yieldStatus s die y) }
       else if force then { y with got := some 0x15 } else y)
    else y
  let st := fun (r : RunState) => match r with
    | .yielding y => .yielding (upd y)
    | .yielded y => .yielded (upd y)
    | r => r
  let kept := fun (k : Kept) => { k with st := st k.st }
  { s with
    groups := s.groups.map (fun p => if p.1 / 8192 = die.toNat then
      (p.1, { p.2 with st := st p.2.st, h := { p.2.h with kept := kept p.2.h.kept } }) else p),
    launches := s.launches.map (fun l => { l with saved := l.saved.map (fun x =>
      if x.core.extractLsb' 7 3 = die then { x with kept := kept x.kept } else x) }) }
/-- A counter takes a value; the triggers and the yields that it reaches stay reached (R80, R81, R83). -/
def State.setCtr (s : State) (die : BitVec 3) (i : Nat) (v : W64) : State :=
  let d := s.die die
  let c8 := BitVec.ofNat 8 i
  let s1 := s.setDie die { d with ctrs := Sparse.set d.ctrs i v }
  let s2 := s1.mapCmds die (fun c => if c.waitsFor s die c8 && (c.look s1 die).triggered s1 die then { c with hit := true } else c)
  s2.settleYields die (fun y => match y with | .ctr c _ => c == c8 | _ => false) false
def execSeqAdd (d a b : SReg) (s : State) : Out :=
  let v := s.cur.sr a
  if !seqRange false v then scalarAcc (.seqAdd d a b) (raiseReg .sa a) s
  else
    let old := s.ctr s.curG.die (v.extractLsb' 0 8)
    scalarNext (fun g => g.setSr d old) (s.setCtr s.curG.die (bitsOf v 0 8) (old + s.cur.sr b))
/-- A counter is written (R82). -/
def State.writeCtr (s : State) (die : BitVec 3) (i : BitVec 8) (v : W64) (force : Bool) : State :=
  let s1 := s.settleYields die (fun y => match y with | .ctr c _ => c == i | _ => false) force
  let s2 := if force then s1.mapCmds die (fun c => if c.waitsFor s1 die i then { c with cancel := true } else c) else s1
  s2.setCtr die i.toNat v
/-- A queue's numbers are written; no command is open (R82). -/
def State.writeNumbers (s : State) (die : BitVec 3) (q : BitVec 7) (v : W64) (force : Bool) : State :=
  let s1 := s.settleYields die (fun y => match y with | .queue k _ => k == q | _ => false) force
  let x := s1.queue die q
  s1.setQueue die q { x with seqDone := v, seqNext := v + 1, ended := [] }
def execSeqSet (p : BitVec 3) (a b : SReg) (q : Bool) (s : State) : Out :=
  let v := s.cur.sr a
  let die := s.curG.die
  if !seqRange q v then scalarAcc (.seqSet p a b q) (raiseReg .sa a) s
  else if (if q then queueArmed s die (v.extractLsb' 0 7) else ctrArmed s die (v.extractLsb' 0 8)) then
    scalarNext (fun g => g.setSp p true) s
  else
    let s1 := if q then s.writeNumbers die (v.extractLsb' 0 7) (s.cur.sr b) false
      else s.writeCtr die (v.extractLsb' 0 8) (s.cur.sr b) false
    scalarNext (fun g => g.setSp p false) s1
/-- A forced write of a queue's numbers first cancels what is armed on them: continuations, and commands not begun (R82). While the
force waits, each of its tries does so anew, so that what is armed meanwhile counts as before it (DESIGN CHOICE, log 95). -/
def State.cancelQueue (s : State) (die : BitVec 3) (q : BitVec 7) : State :=
  let s1 := s.settleYields die (fun y => match y with | .queue k _ => k == q | _ => false) true
  let x := s1.queue die q
  s1.setQueue die q { x with cmds := x.cmds.map (fun c =>
    if c.st == .accepted && !c.started && !c.begun then { c with cancel := true } else c) }
/-- R82: a queue's numbers are written once every command has completed. -/
def execSeqSetForce (p : BitVec 3) (a b : SReg) (q : Bool) (s : State) : Out :=
  let v := s.cur.sr a
  let die := s.curG.die
  if !seqRange q v then scalarAcc (.seqSetForce p a b q) (raiseReg .sa a) s
  else if q then
    let k := v.extractLsb' 0 7
    if (s.queue die k).cmds = [] then scalarNext (fun g => g.setSp p false) (s.writeNumbers die k (s.cur.sr b) true)
    else .next (s.cancelQueue die k).stalled
  else scalarNext (fun g => g.setSp p false) (s.writeCtr die (v.extractLsb' 0 8) (s.cur.sr b) true)

/-! Beginning (R75, R77, R78) -/

/-- The dimension entries that a table holds. -/
def dimEntries (n v : Nat) : List (BitVec 192) := (List.range n).map (fun k => BitVec.ofNat 192 (v / 2 ^ (192 * k)))
/-- The elements of a tensor copy. -/
def dimTotal (l : List (BitVec 192)) : Nat := l.foldl (fun n d => n * bitsOf d 0 32) 1
def dimsOk (l : List (BitVec 192)) : Bool :=
  l.all (fun d => bitsOf d 32 32 == 0 && bitsOf d 0 32 != 0) && decide (dimTotal l ≤ 2 ^ 40)
/-- Bytes of a stream whose extent is known at the beginning, and where it lies (R78). -/
def cmdStreams (w : BitVec 512) : List (W64 × Nat) :=
  match cKind w with
  | 1 | 4 => [(cDest w, cLen w)]
  | 3 => [(cDest w, bitsOf (cAux1 w) 0 32 * cLen w)]
  | 5 => [(cDest w, cLen w), (cAux1 w, bitsOf (cMask w) 0 32)]
  | _ => []
/-- Bytes of a published buffer (R84). -/
def bufSize (x : BitVec 256) : Nat := if bitsOf x 170 2 = 0 then 0x10000 else 0x20000000
/-- Every stream lies in its slot or buffer (R78, R85). -/
def rangesOk (d : Die) (w : BitVec 512) : Bool :=
  (cmdStreams w).all (fun x => match cDst w with
    | 1 => decide (bitsOf x.1 8 12 + x.2 ≤ 4096)
    | 2 => decide (bitsOf x.1 8 33 + x.2 ≤ bufSize (Sparse.get d.pbufs (bitsOf x.1 0 8)))
    | _ => true)
/-- The status that keeps a command from beginning, from its record: format, targets, slots, buffers, ranges (R77, R78). -/
def beginStatus (s : State) (die : BitVec 3) (c : Cmd) : BitVec 8 :=
  if !recordOk c.words || c.bufs.any (fun b => !bitOf (Sparse.get (s.die die).pbufs b) 169) then 0x12
  else match c.slots s with
    | none => 0x13
    | some l =>
      match (if c.took then .ok s else s.takeShadows l) with
      | .error e => statusOf e
      | .ok _ => if rangesOk (s.die die) c.words then 0 else 0x19

/-- The dimension table of a tensor copy. -/
def readDims (die : BitVec 3) (c : Cmd) : Acc Cmd := do
  if cKind c.words = 2 ∧ recordOk c.words = true then
    let v ← engRead die c (cAux0 c.words) (24 * cDims c.words)
    pure { c with dims := dimEntries (cDims c.words) v }
  else pure c

/-- The next command that may begin: the first not begun, unless the queue is halted (R75, R87). -/
def Queue.nextBegin (x : Queue) : Option Cmd := if x.halted then none else x.cmds.find? (fun c => c.st == .accepted)

/-- What a fault of the engine does to a command (R87). -/
def State.cmdFault (s : State) (die : BitVec 3) (q : BitVec 7) (c : Cmd) (i : Info) : State :=
  if i.cause.deferred then s.haltCmd die q c i else s.endCmd die q c (statusOf i.cause)

/-- A command as it stands in its queue. -/
def State.putCmd (s : State) (die : BitVec 3) (q : BitVec 7) (c : Cmd) : State := s.setQueue die q ((s.queue die q).setCmd c)
/-- A command whose record is at hand begins once its trigger is reached (R81, R85), and one that halts or stalls as it begins has begun and
need not reach it again. One that is `bad_command` completes at its turn
and does not wait for its trigger (DESIGN CHOICE, log 85). -/
def beginWith (die : BitVec 3) (q : BitVec 7) (c : Cmd) (s : State) : State :=
  let trigOk := !cTrig c.words || c.hit || c.triggered s die
  if (recordOk c.words && !trigOk) || c.isHeld s die then s.putCmd die q { c with begun := false }
  else
    match (readDims die c).run s with
    | .error (.fault i) s1 => s1.cmdFault die q { c with hit := cTrig c.words } i
    | .error _ s1 => s1.putCmd die q { c with hit := cTrig c.words, begun := true }
    | .ok c1 s1 =>
      let st := beginStatus s1 die c1
      let st := if st = 0 && !dimsOk c1.dims then 0x12 else st
      if st ≠ 0 then s1.endCmd die q c1 st
      else
        let l := (c1.slots s1).getD []
        let c2 := if c1.took ∨ l = [] then c1 else c1.fills l
        let s2 := if c1.took then s1 else match s1.takeShadows l with | .ok x => x | .error _ => s1
        let s3 := s2.pendBufs die c1.bufs
        s3.setQueue die q ((s3.queue die q).setCmd { c2 with st := .begun, started := true, begun := true })

/-- The next command of a queue begins, if it may (R75, R82, R218). -/
def State.commandBegin (s : State) (die : BitVec 3) (q : BitVec 7) : State :=
  match (s.queue die q).nextBegin with
  | none => s
  | some c =>
    if c.cancel then s.endCmd die q c 0x15
    else match (readRecord die c).run s with
      | .error (.fault i) s1 => s1.cmdFault die q c i
      | .error _ s1 => s1.putCmd die q { c with begun := true }
      | .ok c1 s1 => beginWith die q c1 s1
/-- COMMAND_BEGIN (R75, R77, R78, R81, R82, R218). -/
def execCommandBegin (die : BitVec 3) (q : BitVec 7) (s : State) : Out := .next (s.commandBegin die q)

/-! Copying (R78, R85, R88) -/

/-- The index vector of element k of a tensor, dotted with the strides that start at bit `lo` (R78). -/
def tensorOff (lo : Nat) : List (BitVec 192) → Nat → Int
  | [], _ => 0
  | d :: t, k => (k % bitsOf d 0 32 : Nat) * (d.extractLsb' lo 64).toInt + tensorOff lo t (k / bitsOf d 0 32)

/-- One element: where it is read, its bytes, its displacement from a destination word, whether it is a scale entry. -/
structure Elem where
  src  : W64
  n    : Nat
  dest : W64
  disp : Int
  sc   : Bool := false

/-- The number of elements of a command. -/
def Cmd.total (c : Cmd) : Nat :=
  match cKind c.words with
  | 2 => dimTotal c.dims
  | 3 => bitsOf (cAux1 c.words) 0 32 * cLen c.words
  | 5 => cLen c.words + bitsOf (cMask c.words) 0 32 / 2
  | _ => cLen c.words
/-- Element k of a command; `x` is the index of a gather's row. -/
def Cmd.elem (c : Cmd) (k : Nat) (x : Nat) : Elem :=
  let w := c.words
  let at' := fun (b : W64) (i : Int) => b + BitVec.ofInt 64 i
  match cKind w with
  | 2 => { src := at' (cSrc w) (tensorOff 64 c.dims k), n := 2 ^ cElem w, dest := cDest w, disp := tensorOff 128 c.dims k }
  | 3 => { src := at' (cSrc w) ((x * cLen w + k % cLen w : Nat) : Int), n := 1, dest := cDest w, disp := (k : Int) }
  | 5 => if k < cLen w then { src := at' (cSrc w) k, n := 1, dest := cDest w, disp := k }
         else { src := at' (cAux0 w) (2 * (k - cLen w) : Nat), n := 2, dest := cAux1 w, disp := (2 * (k - cLen w) : Nat), sc := true }
  | _ => { src := at' (cSrc w) k, n := 1, dest := cDest w, disp := k }

/-- Why a copy stops short: a status, or a wait. -/
inductive CopyStop where
  | status (st : BitVec 8)
  | go
deriving DecidableEq, Repr

/-- Writes bytes at an offset of each of a list of frames. -/
def writeFrames (ag : Agent) (o : Nat) (l : List Byte) : List Nat → Acc Unit
  | [] => pure ()
  | f :: t => do
    physWrite ag (f + o) l
    writeFrames ag o l t
/-- Writes an element to where a destination word points; a slot whose block is gone discards it (log 25). -/
def putElem (die : BitVec 3) (c : Cmd) (e : Elem) (l : List Byte) : Acc CopyStop := do
  let s ← get
  let ag := c.agent die
  match cDst c.words with
  | 1 =>
    let o : Int := (bitsOf e.dest 8 12 : Nat) + e.disp
    if o < 0 ∨ 4096 < o + e.n then pure (.status 0x19)
    else do
      writeFrames ag o.toNat l ((c.filling s).filter (fun x => cKind c.words == 4 || x.2 == bitsOf e.dest 0 8) |>.map
        (fun x => frameBase x.1.core (bitsOf (s.tagOf x.1 x.2) 40 8)))
      pure .go
  | 2 =>
    let b := Sparse.get (s.die die).pbufs (bitsOf e.dest 0 8)
    let o : Int := (bitsOf e.dest 8 33 : Nat) + e.disp
    if o < 0 ∨ (bufSize b : Int) < o + e.n then pure (.status 0x19)
    else do
      physWrite ag (bitsOf b 64 64 + o.toNat) l
      pure .go
  | _ => do
    writeVirt ag (e.dest + BitVec.ofInt 64 e.disp) l
    pure .go

/-- Copies element k; a gather reads its row's index at the row's first byte and after a halt (R78). -/
def copyElem (die : BitVec 3) (c : Cmd) (k : Nat) (x : Option Nat) : Acc (CopyStop × Option Nat) := do
  let x1 ← if cKind c.words = 3 then
      (match x with
       | some i => if k % cLen c.words = 0 then engRead die c (cAux0 c.words + BitVec.ofNat 64 (4 * (k / cLen c.words))) 4 else pure i
       | none => engRead die c (cAux0 c.words + BitVec.ofNat 64 (4 * (k / cLen c.words))) 4)
    else pure 0
  let e := c.elem k x1
  let v ← engRead die c e.src e.n
  if e.sc && decide (2 ^ 14 ≤ v) then pure (.status 0x14, some x1)
  else
    let r ← putElem die c e (natToBytes e.n v)
    pure (r, some x1)

/-- How far a copy got: to its end, to a status, to a fault, or to an element that waits; with its progress. -/
inductive CopyOut where
  | done
  | fail (st : BitVec 8) (k : Nat)
  | fault (i : Info) (k : Nat)
  | wait (k : Nat)
deriving DecidableEq, Repr

/-- Copies n elements from element k on. -/
def copyFrom (die : BitVec 3) (c : Cmd) : Nat → Nat → Option Nat → State → CopyOut × State
  | 0, _, _, s => (.done, s)
  | n + 1, k, x, s =>
    match (copyElem die c k x).run s with
    | .ok (.go, x1) s1 => copyFrom die c n (k + 1) x1 s1
    | .ok (.status st, _) s1 => (.fail st k, s1)
    | .error (.fault i) s1 => (.fault i k, s1)
    | .error _ s1 => (.wait k, s1)

/-- The first begun command (log 2). -/
def Queue.nextRun (x : Queue) : Option Cmd := x.cmds.find? (fun c => c.st == .begun)
/-- Runs a command on from its progress: it ends, halts, or waits. -/
def runCmd (die : BitVec 3) (q : BitVec 7) (c : Cmd) (s : State) : State :=
  match copyFrom die c (c.total - c.progress) c.progress none s with
  | (.done, s1) => s1.endCmd die q c 0
  | (.fail st k, s1) => s1.endCmd die q { c with progress := k } st
  | (.fault i k, s1) => s1.cmdFault die q { c with progress := k } i
  | (.wait k, s1) => s1.setQueue die q ((s1.queue die q).setCmd { c with progress := k })
/-- The first begun command of a queue runs on. -/
def State.commandRun (s : State) (die : BitVec 3) (q : BitVec 7) : State :=
  match (s.queue die q).nextRun with
  | none => s
  | some c => runCmd die q c s
/-- COMMAND_COMPLETE (R47, R75, R78, R88). -/
def execCommandComplete (die : BitVec 3) (q : BitVec 7) (s : State) : Out := .next (s.commandRun die q)
/-- ENGINE_HALT (R87): a begun command that meets a deferred fault halts. -/
def execEngineHalt (die : BitVec 3) (q : BitVec 7) (s : State) : Out :=
  match (s.queue die q).nextRun with
  | none => .next s
  | some c => match copyFrom die c (c.total - c.progress) c.progress none s with
    | (.fault i _, _) => .next (if i.cause.deferred then runCmd die q c s else s)
    | _ => .next s

/-- Who appended the entry that a queue fetches next: the owner of the entry before it where no append names it (R79). -/
def Queue.fetcher (x : Queue) : Option Cmd := match x.appends.find? (fun p => p.1 == x.fetch) with | some p => some p.2 | none => x.owner
/-- An entry of the chain that is still to be fetched belongs to one of some launches (R77, R79). -/
def Queue.chainOpen (x : Queue) (mine : BitVec 3 → W32 → Bool) : Bool :=
  x.appends.any (fun p => mine p.2.part p.2.launch) || (x.fetch != 0 && x.fetcher.any (fun c => mine c.part c.launch))
/-- A chain entry whose fetch failed gets a number and ends with a status; the engine waits there (R219). What has been appended behind it
is not reached any more (DEDUCED, log 105). -/
def State.chainFail (s : State) (die : BitVec 3) (q : BitVec 7) (c : Cmd) (st : BitVec 8) : State :=
  let s1 := s.accept die q { c with st := .accepted }
  let x := s1.queue die q
  let y : Queue := { x with fetch := 0, fetchHalt := 0, fetchEnd := 0, appends := [] }
  (s1.setQueue die q y).endCmd die q (y.cmds.getLastD c) st
/-- CHAIN_FETCH (R79, R219). An entry whose launch was aborted before its fetch ends so (R88). The record of an entry whose fetch halts
names the number that the entry would take then (DESIGN CHOICE, log 105). -/
def execChainFetch (die : BitVec 3) (q : BitVec 7) (s : State) : Out :=
  let x := s.queue die q
  match x.fetcher with
  | none => .next s
  | some c =>
    if x.fetch = 0 ∨ 64 ≤ x.count ∨ x.fetchHalt ≠ 0 then .next s
    else if x.fetchEnd ≠ 0 then .next (s.chainFail die q c x.fetchEnd)
    else
      let s0 := s.setQueue die q { x with owner := some c, appends := x.appends.filter (fun p => p.1 != x.fetch) }
      if bitsOf x.fetch 0 6 ≠ 0 then .next (s0.chainFail die q c 0x12)
      else match (engRead die c x.fetch 64).run s0 with
        | .ok v s1 =>
          let w := BitVec.ofNat 512 v
          let s2 := s1.accept die q { c with words := w, st := .accepted }
          let y := s2.queue die q
          let s3 := s2.setQueue die q { y with fetch := w.extractLsb' 448 64 }
          match c.st with
          | .ended st => .next (s3.endCmd die q (y.cmds.getLastD c) st)
          | _ => .next s3
        | .error (.fault i) s1 =>
          if i.cause.deferred then
            let y := s1.queue die q
            .next ((s1.setQueue die q { y with fetchHalt := i.cause.code }).post c.part [engineRecord die q { c with n := y.seqNext } i])
          else .next (s1.chainFail die q c (statusOf i.cause))
        | .error _ s1 => .next s1

/-- Halted commands go on, or begin again (R76, R87). -/
def execQueueResume (die : BitVec 3) (q : BitVec 7) (s : State) : Out :=
  let x := s.queue die q
  .next (s.setQueue die q { x with fetchHalt := 0, cmds := x.cmds.map (fun c =>
    if c.isHalted then { c with st := if c.started then .begun else .accepted } else c) })
/-- Every halted command ends with the status of its own fault (R76, R87). A halted fetch of the chain ends so too: its entry takes a number, as
soon as the queue has a place for it (R74), and ends with that status, and the engine waits there (DESIGN CHOICE, log 105). -/
def State.abandon (s : State) (die : BitVec 3) (q : BitVec 7) : State :=
  let x := s.queue die q
  let s1 := (x.cmds.filter Cmd.isHalted).foldl (fun s c => s.endCmd die q c c.haltOf) s
  let y := s1.queue die q
  match x.fetchHalt, x.owner with
  | 0, _ => s1
  | st, some c => if 64 ≤ y.count then s1.setQueue die q { y with fetchHalt := 0, fetchEnd := st } else s1.chainFail die q c st
  | _, none => s1
def execQueueAbandon (die : BitVec 3) (q : BitVec 7) (s : State) : Out := .next (s.abandon die q)

/-! Published buffers and publishes (R71, R84, R85, R214) -/

/-- PBUF_DESC_WRITE (R84): software writes a descriptor while valid = 0; setting valid takes effect only with an acceptable
back frame. Word 2 holds the low half of the descriptor's upper 128 bits, where valid stands. While valid = 1 a write of word 2 with
valid = 0 clears valid and does nothing else, and any other write is ignored (DESIGN CHOICE, log 86). -/
def pbufWrite (old : BitVec 256) (word : Nat) (v : W64) : BitVec 256 :=
  let v1 := if word = 2 then v &&& 0xFFFFFE0000000000#64 else v
  let keep := if word = 2 then old.extractLsb' 128 64 &&& 0x0000018000000000#64 else 0
  let w := putBits old (64 * word) 64 (v1 ||| keep).toNat
  let back := bitsOf w 64 64
  let ok := decide (bitsOf w 170 2 < 2) && decide (paNode back = 0 ∧ paRegion back = 0 ∧ back % bufSize w = 0 ∧
    w.extractLsb' 64 64 ≠ w.extractLsb' 0 64)
  if bitOf w 169 && !ok then putBit w 169 false else w
def execPbufDescWrite (die : BitVec 3) (b : BitVec 8) (word : BitVec 2) (v : W64) (s : State) : Out :=
  let d := s.die die
  let old := Sparse.get d.pbufs b.toNat
  let new := if bitOf old 169 then (if word = 2 && !bitOf v 41 then putBit old 169 false else old) else pbufWrite old word.toNat v
  .next (s.setDie die { d with pbufs := Sparse.set d.pbufs b.toNat new })

/-- The wait of the current instruction of a group ends with a status in its register; the pc moves on. -/
def Group.endWait (g : Group) (d : SReg) (st : BitVec 8) : Group := { g.setSr d (st.setWidth 64) with wait := .none, pc := g.pc + 4 }
/-- PUBLISH_SWAP (R71, R214). The shadow of an entry that is no longer pending reads 0 (DESIGN CHOICE, log 106). -/
def execPublishSwap (g : Gid) (s : State) : Out :=
  let x := s.group g
  match x.wait, s.blockAt x with
  | .publSlot sl d, some b =>
    let e := s.tagOf b sl.toNat
    if !bitOf e 62 then .next (s.setGroup g (x.endWait d 1))
    else if slotFilling s b sl.toNat then .next s
    else if bitOf e 61 then .next ((s.setTag b sl.toNat (putBits (putBits e 61 2 0) 40 8 0)).setGroup g (x.endWait d 2))
    else .next ((s.setTag b sl.toNat (putBits (putBits (putBits e 61 2 0) 48 8 (bitsOf e 40 8)) 40 8 0)).setGroup g (x.endWait d 0))
  | _, _ => .next s
/-- The scalar word at which a group waits. -/
def State.wordAt (s : State) (gid : Gid) : BitVec 96 :=
  match (readVirt (groupAgent gid (s.group gid)) (s.group gid).pc 4 .fetch).run s with
  | .ok v _ => BitVec.ofNat 96 v
  | .error _ _ => 0
/-- A group's publish of buffer b returns a status; the copies that it held back go on (R85). -/
def State.publDone (s : State) (g : Gid) (b : Nat) (d : SReg) (st : BitVec 8) : State :=
  (s.setGroup g ((s.group g).endWait d st)).letGo g.die b
/-- PBUF_PUBLISH_SWAP (R85, R214). An entry of the tables that could not be corrected is consumed by the publish (R335). An address for
which the walk gives no leaf is no page of the front frame either: `pbuf_stale` (DEDUCED, log 96). -/
def execPbufPublishSwap (g : Gid) (s : State) : Out :=
  let x := s.group g
  match x.wait with
  | .publBuf b r n =>
    if x.h.pend.isSome then .next s else
    let d := s.die g.die
    let e := Sparse.get d.pbufs b.toNat
    let put := fun (s : State) (v : BitVec 256) =>
      let d := s.die g.die
      s.setDie g.die { d with pbufs := Sparse.set d.pbufs b.toNat v }
    if !bitOf e 168 then .next (s.publDone g b.toNat r 1)
    else if bufFilling s g.die b.toNat n then .next s
    else if bitOf e 167 then .next ((put s (putBits e 167 2 0)).publDone g b.toNat r 2)
    else
      let va := e.extractLsb' 192 64
      let pasid := e.extractLsb' 172 20
      match walkTables s g.die pasid va with
      | .leaf lvl l a =>
        if leafFrame l = bitsOf e 0 64 then
          let back := e.extractLsb' 64 64
          let s1 := s.write64 a ((back &&& 0xFFFFFFFFFFFF0000#64) ||| (l &&& 0xFFFF#64))
          let s2 := s1.invalidate (fun _ => true) pasid (va.toNat / pageSize lvl * pageSize lvl) (pageSize lvl)
          let e1 := e.extractLsb' 192 64 ++ putBits (e.extractLsb' 128 64) 40 1 0 ++ e.extractLsb' 0 64 ++ back
          .next ((put s2 e1).publDone g b.toNat r 0)
        else .next (s.publDone g b.toNat r 0x1A)
      | .ecc => .next (s.reachTrap g false { cause := .dataError, va := va } x.pc (s.wordAt g))
      | _ => .next (s.publDone g b.toNat r 0x1A)
  | _ => .next s

end Sys2Proof.Machine
end

