-- ==== Sys2Proof/Machine/LaneFp.lean ====
section
/-! DEFINITION. FP32, packed 16-bit and special-function lane instructions (R232 to R237, R247). -/

namespace Sys2Proof.Machine

/-- Element k of width w. -/
def elemOf (w x k : Nat) : Nat := x / 2 ^ (w * k) % 2 ^ w
/-- Source n of a thread. -/
def nth (l : List Nat) (n : Nat) : Nat := l.getD n 0

/-- A rounded operation on n elements of a floating-point type (R126, R232, R236). The flag tells the mode `.rd`. -/
def fpFn (ty : LTy) (n : Nat) (r : Rnd) (sat : Bool) (f : Bool → List FVal → FVal) : LaneFn := fun g seed j vs =>
  (packNat ty.width (fun k =>
    roundArith (g.laneRnd seed r sat j k) ty (f (r == .rd) (vs.map (fun x => decodeElem ty 0 (elemOf ty.width x k))))) n, false)
/-- An operation on the codes of n elements that rounds nothing. -/
def codeFn (ty : LTy) (n : Nat) (f : List Nat → Nat) : LaneFn := fun _ _ _ vs =>
  (packNat ty.width (fun k => f (vs.map (fun x => elemOf ty.width x k))) n, false)

def fAdd (rd : Bool) (l : List FVal) : FVal := FVal.add rd (l.getD 0 .nan) (l.getD 1 .nan)
def fSub (rd : Bool) (l : List FVal) : FVal := FVal.add rd (l.getD 0 .nan) (l.getD 1 .nan).neg
def fMul (_ : Bool) (l : List FVal) : FVal := FVal.mul (l.getD 0 .nan) (l.getD 1 .nan)
def fMad (rd : Bool) (l : List FVal) : FVal := FVal.add rd (FVal.mul (l.getD 0 .nan) (l.getD 1 .nan)) (l.getD 2 .nan)

/-- Destination and sources of one register each. -/
def op (h : LHdr) (d : Opnd) (src : List Opnd) (r : Rnd := .rn) (pd : Option (BitVec 3) := none) : LaneOp :=
  { h := h, d := d, src := src.map (fun o => (o, 1)), rs := r == .rs, pd := pd }

def execFadd (h : LHdr) (d a b : Opnd) (r : Rnd) (sat : Bool) (s : State) : Out :=
  laneAlu (.fadd h d a b r sat) (op h d [a, b] r) (fpFn .f32 1 r sat fAdd) s
def execFsub (h : LHdr) (d a b : Opnd) (r : Rnd) (sat : Bool) (s : State) : Out :=
  laneAlu (.fsub h d a b r sat) (op h d [a, b] r) (fpFn .f32 1 r sat fSub) s
def execFmul (h : LHdr) (d a b : Opnd) (r : Rnd) (sat : Bool) (s : State) : Out :=
  laneAlu (.fmul h d a b r sat) (op h d [a, b] r) (fpFn .f32 1 r sat fMul) s
def execFfma (h : LHdr) (d a b c : Opnd) (r : Rnd) (sat : Bool) (s : State) : Out :=
  laneAlu (.ffma h d a b c r sat) (op h d [a, b, c] r) (fpFn .f32 1 r sat fMad) s
/-- R233. -/
def execFmin (h : LHdr) (d a b : Opnd) (s : State) : Out :=
  laneAlu (.fmin h d a b) (op h d [a, b]) (codeFn .f32 1 (fun l => minMaxBits .f32 false (nth l 0) (nth l 1))) s
def execFmax (h : LHdr) (d a b : Opnd) (s : State) : Out :=
  laneAlu (.fmax h d a b) (op h d [a, b]) (codeFn .f32 1 (fun l => minMaxBits .f32 true (nth l 0) (nth l 1))) s

/-- A NaN code becomes the canonical NaN; any other code stays (R114). -/
def canonNan (ty : LTy) (x : Nat) : Nat := if (decodeElem ty 0 x).isNan then roundFmt { rnd := .rn } ty .nan else x
/-- R232. -/
def execFabs (h : LHdr) (d a : Opnd) (s : State) : Out :=
  laneAlu (.fabs h d a) (op h d [a]) (codeFn .f32 1 (fun l => canonNan .f32 (nth l 0 % 2 ^ 31))) s
def execFneg (h : LHdr) (d a : Opnd) (s : State) : Out :=
  laneAlu (.fneg h d a) (op h d [a]) (codeFn .f32 1 (fun l =>
    canonNan .f32 (if nth l 0 < 2 ^ 31 then nth l 0 + 2 ^ 31 else nth l 0 - 2 ^ 31))) s

/-- Whether a floating-point condition holds of two codes (R234). -/
def fcond (ty : LTy) (c : FCond) (x y : Nat) : Bool := fcondHolds c (decodeElem ty 0 x) (decodeElem ty 0 y)
/-- R234. -/
def execFcmp (h : LHdr) (d a b : Opnd) (c : FCond) (pd : BitVec 3) (s : State) : Out :=
  laneAlu (.fcmp h d a b c pd) (op h d [a, b] .rn (some pd))
    (fun _ _ _ l => let t := fcond .f32 c (nth l 0) (nth l 1); (maskWord t, t)) s
/-- The predicate that selects source A in thread j (R235). -/
def selBit (g : Group) (p : BitVec 3) (neg : Bool) (j : Nat) : Bool := bitOf (g.pr p) j != neg
/-- R235. -/
def execFsel (h : LHdr) (d a b : Opnd) (neg : Bool) (p : BitVec 3) (s : State) : Out :=
  laneAlu (.fsel h d a b neg p) (op h d [a, b])
    (fun g _ j l => (canonNan .f32 (if selBit g p neg j then nth l 0 else nth l 1), false)) s

/-- The 16-bit type of a packed instruction. -/
def hTy (bf : Bool) : LTy := if bf then .bf16 else .f16
def execHadd (h : LHdr) (d a b : Opnd) (r : Rnd) (sat bf : Bool) (s : State) : Out :=
  laneAlu (.hadd h d a b r sat bf) (op h d [a, b] r) (fpFn (hTy bf) 2 r sat fAdd) s
def execHsub (h : LHdr) (d a b : Opnd) (r : Rnd) (sat bf : Bool) (s : State) : Out :=
  laneAlu (.hsub h d a b r sat bf) (op h d [a, b] r) (fpFn (hTy bf) 2 r sat fSub) s
def execHmul (h : LHdr) (d a b : Opnd) (r : Rnd) (sat bf : Bool) (s : State) : Out :=
  laneAlu (.hmul h d a b r sat bf) (op h d [a, b] r) (fpFn (hTy bf) 2 r sat fMul) s
def execHfma (h : LHdr) (d a b c : Opnd) (r : Rnd) (sat bf : Bool) (s : State) : Out :=
  laneAlu (.hfma h d a b c r sat bf) (op h d [a, b, c] r) (fpFn (hTy bf) 2 r sat fMad) s
def execHmin (h : LHdr) (d a b : Opnd) (bf : Bool) (s : State) : Out :=
  laneAlu (.hmin h d a b bf) (op h d [a, b]) (codeFn (hTy bf) 2 (fun l => minMaxBits (hTy bf) false (nth l 0) (nth l 1))) s
def execHmax (h : LHdr) (d a b : Opnd) (bf : Bool) (s : State) : Out :=
  laneAlu (.hmax h d a b bf) (op h d [a, b]) (codeFn (hTy bf) 2 (fun l => minMaxBits (hTy bf) true (nth l 0) (nth l 1))) s
/-- R237. -/
def execHcmp (h : LHdr) (d a b : Opnd) (c : FCond) (sl : HSel) (pw : Bool) (pd : BitVec 3) (bf : Bool) (s : State) : Out :=
  laneAlu (.hcmp h d a b c sl pw pd bf) (op h d [a, b] .rn (if pw then some pd else none))
    (fun _ _ _ l =>
      let t := fun k => fcond (hTy bf) c (elemOf 16 (nth l 0) k) (elemOf 16 (nth l 1) k)
      (packNat 16 (fun k => if t k then 0xFFFF else 0) 2,
       match sl with | .lo => t 0 | .all => t 0 && t 1 | .any => t 0 || t 1)) s

/-- A special function (R127, R247). -/
def sfuFn (r : Rnd) (f : FVal → FVal) : LaneFn := fun _ _ _ l =>
  (roundArith { rnd := r } .f32 (f (decodeElem .f32 0 (nth l 0))), false)
def execRcp (h : LHdr) (d a : Opnd) (r : Rnd) (s : State) : Out :=
  laneQueued false (.rcp h d a r) (op h d [a]) (sfuFn r rcpVal) s
def execRsq (h : LHdr) (d a : Opnd) (r : Rnd) (s : State) : Out :=
  laneQueued false (.rsq h d a r) (op h d [a]) (sfuFn r rsqVal) s
def execSqrt (h : LHdr) (d a : Opnd) (r : Rnd) (s : State) : Out :=
  laneQueued false (.sqrt h d a r) (op h d [a]) (sfuFn r sqrtVal) s
def execExp2 (h : LHdr) (d a : Opnd) (r : Rnd) (s : State) : Out :=
  laneQueued false (.exp2 h d a r) (op h d [a]) (sfuFn r exp2Val) s
def execLog2 (h : LHdr) (d a : Opnd) (r : Rnd) (s : State) : Out :=
  laneQueued false (.log2 h d a r) (op h d [a]) (sfuFn r log2Val) s

end Sys2Proof.Machine
end

