-- ==== Sys2Proof/Machine/ScalarInt.lean ====
section
/-! DEFINITION. Scalar integer arithmetic, logic, compares, predicates, bit fields and control registers (R187 to R196). -/

namespace Sys2Proof.Machine

/-- s(d) takes a function of s(a) and s(b) (R184, R187). -/
def alu3 (d a b : SReg) (f : W64 → W64 → W64) (s : State) : Out :=
  scalarNext (fun g => g.setSr d (f (g.sr a) (g.sr b))) s
/-- s(d) takes a function of s(a) (R189, R195). -/
def alu2 (d a : SReg) (f : W64 → W64) (s : State) : Out := scalarNext (fun g => g.setSr d (f (g.sr a))) s
/-- An immediate of 12 bits, sign-extended (R189). -/
def simm (i : BitVec 12) : W64 := i.signExtend 64

/-- High half of the product (R187). -/
def mulHigh (n : Bool) (a b : W64) : W64 :=
  if n then BitVec.ofNat 64 (a.toNat * b.toNat / 2 ^ 64) else BitVec.ofInt 64 (a.toInt * b.toInt / 2 ^ 64)
/-- Quotient of R188. -/
def divQuot (n : Bool) (a b : W64) : W64 := if b = 0 then BitVec.allOnes 64 else if n then a / b else a.sdiv b
/-- Remainder of R188. -/
def divRem (n : Bool) (a b : W64) : W64 := if b = 0 then a else if n then a % b else a.srem b
/-- The lesser of two values, per type. -/
def minOf (n : Bool) (a b : W64) : W64 := if (if n then a.ult b else a.slt b) then a else b
/-- The greater of two values, per type. -/
def maxOf (n : Bool) (a b : W64) : W64 := if (if n then a.ult b else a.slt b) then b else a

def execAdd (d a b : SReg) (s : State) : Out := alu3 d a b (fun x y => x + y) s
def execSub (d a b : SReg) (s : State) : Out := alu3 d a b (fun x y => x - y) s
def execMul (d a b : SReg) (s : State) : Out := alu3 d a b (fun x y => x * y) s
def execMulh (d a b : SReg) (n : Bool) (s : State) : Out := alu3 d a b (mulHigh n) s
def execDiv (d a b : SReg) (n : Bool) (s : State) : Out := alu3 d a b (divQuot n) s
def execRem (d a b : SReg) (n : Bool) (s : State) : Out := alu3 d a b (divRem n) s
def execAnd (d a b : SReg) (s : State) : Out := alu3 d a b (fun x y => x &&& y) s
def execOr (d a b : SReg) (s : State) : Out := alu3 d a b (fun x y => x ||| y) s
def execXor (d a b : SReg) (s : State) : Out := alu3 d a b (fun x y => x ^^^ y) s
/-- R187: the shift is b[5:0]. -/
def execShl (d a b : SReg) (s : State) : Out := alu3 d a b (fun x y => x <<< bitsOf y 0 6) s
def execShr (d a b : SReg) (s : State) : Out := alu3 d a b (fun x y => x >>> bitsOf y 0 6) s
def execSra (d a b : SReg) (s : State) : Out := alu3 d a b (fun x y => x.sshiftRight (bitsOf y 0 6)) s
def execMin (d a b : SReg) (n : Bool) (s : State) : Out := alu3 d a b (minOf n) s
def execMax (d a b : SReg) (n : Bool) (s : State) : Out := alu3 d a b (maxOf n) s
/-- R193. -/
def execSel (d a b : SReg) (neg : Bool) (p : BitVec 3) (s : State) : Out :=
  scalarNext (fun g => g.setSr d (if g.spOf p != neg then g.sr a else g.sr b)) s

def execAddi (d a : SReg) (i : BitVec 12) (s : State) : Out := alu2 d a (fun x => x + simm i) s
def execMuli (d a : SReg) (i : BitVec 12) (s : State) : Out := alu2 d a (fun x => x * simm i) s
def execAndi (d a : SReg) (i : BitVec 12) (s : State) : Out := alu2 d a (fun x => x &&& simm i) s
def execOri (d a : SReg) (i : BitVec 12) (s : State) : Out := alu2 d a (fun x => x ||| simm i) s
def execXori (d a : SReg) (i : BitVec 12) (s : State) : Out := alu2 d a (fun x => x ^^^ simm i) s
def execShli (d a : SReg) (k : BitVec 6) (s : State) : Out := alu2 d a (fun x => x <<< k.toNat) s
def execShri (d a : SReg) (k : BitVec 6) (s : State) : Out := alu2 d a (fun x => x >>> k.toNat) s
def execSrai (d a : SReg) (k : BitVec 6) (s : State) : Out := alu2 d a (fun x => x.sshiftRight k.toNat) s
def execMini (d a : SReg) (i : BitVec 12) (s : State) : Out := alu2 d a (fun x => minOf false x (simm i)) s
def execMaxi (d a : SReg) (i : BitVec 12) (s : State) : Out := alu2 d a (fun x => maxOf false x (simm i)) s
/-- R190. -/
def execLimSet (d : SReg) (i : BitVec 12) (s : State) : Out := alu2 d d (fun _ => simm i) s
def execLimCat (d : SReg) (i : BitVec 12) (s : State) : Out := alu2 d d (fun x => (x <<< 12) + i.setWidth 64) s

/-- R191. -/
def execCmp (p : BitVec 3) (a b : SReg) (c : Cond) (s : State) : Out :=
  scalarNext (fun g => g.setSp p (condHolds c (g.sr a) (g.sr b))) s
def execCmpi (c : Cond) (p : BitVec 3) (a : SReg) (i : BitVec 12) (s : State) : Out :=
  scalarNext (fun g => g.setSp p (condHolds c (g.sr a) (simm i))) s
/-- R192. -/
def execPlog (d a b : BitVec 3) (t : BitVec 4) (s : State) : Out :=
  scalarNext (fun g => g.setSp d (tableBit t (g.spOf a) (g.spOf b))) s

/-- The control word of R194 names a field inside 64 bits. -/
def fieldOk (c : W64) : Bool :=
  bitsOf c 14 50 == 0 && bitsOf c 6 2 == 0 && decide (bitsOf c 0 6 + (bitsOf c 8 6 + 1) ≤ 64)
/-- The field of x, zero- or sign-extended (R194). -/
def extField (sgn : Bool) (x c : W64) : W64 :=
  let len := bitsOf c 8 6 + 1
  let v := (x >>> bitsOf c 0 6) <<< (64 - len)
  if sgn then v.sshiftRight (64 - len) else v >>> (64 - len)
/-- R194. -/
def execExt (d a b : SReg) (sgn : Bool) (s : State) : Out :=
  if fieldOk (s.cur.sr b) then alu3 d a b (fun x c => extField sgn x c) s
  else scalarAcc (.ext d a b sgn) (raiseReg .sb b) s
/-- R194. -/
def execIns (d a b : SReg) (s : State) : Out :=
  if fieldOk (s.cur.sr b) then
    scalarNext (fun g => let c := g.sr b
      g.setSr d (putBits (g.sr d) (bitsOf c 0 6) (bitsOf c 8 6 + 1) (g.sr a).toNat)) s
  else scalarAcc (.ins d a b) (raiseReg .sb b) s

/-- Leading zero bits of the low w bits of a number. -/
def leadingZeros (w x : Nat) : Nat := if x % 2 ^ w = 0 then w else w - 1 - Nat.log2 (x % 2 ^ w)
/-- One bits among the low w bits. -/
def oneBits (x : Nat) : Nat → Nat
  | 0 => 0
  | w + 1 => x % 2 + oneBits (x / 2) w
/-- The low w bits in reverse order. -/
def reverseBits (x : Nat) : Nat → Nat
  | 0 => 0
  | w + 1 => x % 2 * 2 ^ w + reverseBits (x / 2) w
def execClz (d a : SReg) (s : State) : Out := alu2 d a (fun x => BitVec.ofNat 64 (leadingZeros 64 x.toNat)) s
def execPopc (d a : SReg) (s : State) : Out := alu2 d a (fun x => BitVec.ofNat 64 (oneBits x.toNat 64)) s
def execBrev (d a : SReg) (s : State) : Out := alu2 d a (fun x => BitVec.ofNat 64 (reverseBits x.toNat 64)) s
/-- R195. -/
def execPget (d : SReg) (s : State) : Out := scalarNext (fun g => g.setSr d (g.sp.setWidth 64)) s
def execPset (a : SReg) (s : State) : Out := scalarNext (fun g => { g with sp := (g.sr a).extractLsb' 0 8 }) s

/-- `reg_size` (R92). -/
def regSize (r : RegSpace) : W64 := 0#26 ++ r.granules ++ 0#14 ++ r.declared
/-- The control register of an index (R92). -/
def ctlRead (r : RegSpace) (f : BitVec 6) : W64 :=
  match f.toNat with
  | 0 => regSize r | 1 => r.vview | 2 => r.tview | 3 => r.aview
  | n => if 16 ≤ n ∧ n < 32 then r.tdesc.getD (n - 16) 0 else 0
/-- A move to a view register is accepted (R93). -/
def viewOk (v : W64) (acc : Bool) (lim : Nat) : Bool :=
  bitsOf v 40 24 == 0 && (acc || bitsOf v 35 5 == 0) && bitsOf v 17 7 == 0 && bitsOf v 0 8 == 0 && decide (bitsOf v 24 11 ≤ lim)
/-- A move to a tile descriptor is accepted (R94, R111); the binding fields are read-only. -/
def tdescOk (v : W64) : Bool :=
  bitsOf v 44 2 == 0 && bitsOf v 17 11 == 0 && bitsOf v 0 4 == 0 && decide (bitsOf v 39 4 ≤ 8)
/-- The register space after a move to a control register; none where it raises `desc_format` (R92 to R94). -/
def ctlWrite (r : RegSpace) (f : BitVec 6) (v : W64) : Option RegSpace :=
  match f.toNat with
  | 1 => if viewOk v false 1024 then some { r with vview := v } else none
  | 2 => if viewOk v false 16 then some { r with tview := v } else none
  | 3 => if viewOk v true 16 then some { r with aview := v } else none
  | n =>
    if 16 ≤ n ∧ n < 32 ∧ tdescOk v = true then
      let keep := (r.tdesc.getD (n - 16) 0) &&& 0x7FFFC00000000000#64
      some { r with tdesc := vset r.tdesc (n - 16) (keep ||| (v &&& 0x00000FFFFFFFFFFF#64)) }
    else none
/-- The move waits for the lane blocks enqueued before it (R95). -/
def mtcWaits (f : BitVec 6) : Bool := decide (1 ≤ f.toNat ∧ f.toNat ≤ 3) || decide (16 ≤ f.toNat ∧ f.toNat < 32)
def execMtc (a : SReg) (f : BitVec 6) (s : State) : Out :=
  let g := s.cur
  if mtcWaits f && !g.laneIdle then .next s.stalled
  else match ctlWrite g.rg f (g.sr a) with
    | some r => scalarNext (fun g => { g with rg := r }) s
    | none => scalarAcc (.mtc a f) (raise .descFormat) s
/-- A move from a tile descriptor waits likewise (R95). -/
def execMfc (d : SReg) (f : BitVec 6) (s : State) : Out :=
  if decide (16 ≤ f.toNat ∧ f.toNat < 32) && !s.cur.laneIdle then .next s.stalled
  else scalarNext (fun g => g.setSr d (ctlRead g.rg f)) s

end Sys2Proof.Machine
end

