-- ==== Sys2Proof/Machine/LaneInt.lean ====
section
/-! DEFINITION. Integer lane instructions (R235, R238 to R241). -/

namespace Sys2Proof.Machine

/-- Registers of an operand of a type (R228). -/
def tyRegs (ty : LTy) : Nat := if ty.is64 then 2 else 1
/-- Registers of an operand of width 32 or 64. -/
def wRegs (w64 : Bool) : Nat := if w64 then 2 else 1
/-- The unsigned type of width 32 or 64. -/
def nTy (w64 : Bool) : LTy := if w64 then .n64 else .n32

/-- An operation on the integers of each element (R238, R239). -/
def intFn (ty : LTy) (f : List Int → Int) : LaneFn := fun _ _ _ vs =>
  (packNat ty.width (fun k => codeOf ty (f (vs.map (fun x => intOf ty (elemOf ty.width x k)))))
    (if ty.is64 then 1 else 32 / ty.width), false)
/-- Element n of a list of integers. -/
def inth (l : List Int) (n : Nat) : Int := l.getD n 0
/-- Operands that all have a type's registers. -/
def tyOp (h : LHdr) (d : Opnd) (src : List Opnd) (ty : LTy) : LaneOp :=
  { h := h, d := d, dn := tyRegs ty, src := src.map (fun o => (o, tyRegs ty)) }
/-- Operands of which the second source is a 32-bit control word (R228). -/
def ctlOp (h : LHdr) (d a b : Opnd) (n : Nat) : LaneOp := { h := h, d := d, dn := n, src := [(a, n), (b, 1)] }
/-- Clamped under `.sat` (R239). -/
def satInt (ty : LTy) (sat : Bool) (z : Int) : Int := if sat then clampInt ty z else z

def execIadd (h : LHdr) (d a b : Opnd) (ty : LTy) (sat : Bool) (s : State) : Out :=
  laneAlu (.iadd h d a b ty sat) (tyOp h d [a, b] ty) (intFn ty (fun l => satInt ty sat (inth l 0 + inth l 1))) s
def execIsub (h : LHdr) (d a b : Opnd) (ty : LTy) (sat : Bool) (s : State) : Out :=
  laneAlu (.isub h d a b ty sat) (tyOp h d [a, b] ty) (intFn ty (fun l => satInt ty sat (inth l 0 - inth l 1))) s
def execImul (h : LHdr) (d a b : Opnd) (ty : LTy) (s : State) : Out :=
  laneAlu (.imul h d a b ty) (tyOp h d [a, b] ty) (intFn ty (fun l => inth l 0 * inth l 1)) s
def execImulh (h : LHdr) (d a b : Opnd) (ty : LTy) (s : State) : Out :=
  laneAlu (.imulh h d a b ty) (tyOp h d [a, b] ty) (intFn ty (fun l => inth l 0 * inth l 1 / 2 ^ ty.width)) s
def execImad (h : LHdr) (d a b c : Opnd) (ty : LTy) (s : State) : Out :=
  laneAlu (.imad h d a b c ty) (tyOp h d [a, b, c] ty) (intFn ty (fun l => inth l 0 * inth l 1 + inth l 2)) s
def execImin (h : LHdr) (d a b : Opnd) (ty : LTy) (s : State) : Out :=
  laneAlu (.imin h d a b ty) (tyOp h d [a, b] ty) (intFn ty (fun l => min (inth l 0) (inth l 1))) s
def execImax (h : LHdr) (d a b : Opnd) (ty : LTy) (s : State) : Out :=
  laneAlu (.imax h d a b ty) (tyOp h d [a, b] ty) (intFn ty (fun l => max (inth l 0) (inth l 1))) s

def execIand (h : LHdr) (d a b : Opnd) (w64 : Bool) (s : State) : Out :=
  laneAlu (.iand h d a b w64) (tyOp h d [a, b] (nTy w64)) (fun _ _ _ l => (nth l 0 &&& nth l 1, false)) s
def execIor (h : LHdr) (d a b : Opnd) (w64 : Bool) (s : State) : Out :=
  laneAlu (.ior h d a b w64) (tyOp h d [a, b] (nTy w64)) (fun _ _ _ l => (nth l 0 ||| nth l 1, false)) s
def execIxor (h : LHdr) (d a b : Opnd) (w64 : Bool) (s : State) : Out :=
  laneAlu (.ixor h d a b w64) (tyOp h d [a, b] (nTy w64)) (fun _ _ _ l => (nth l 0 ^^^ nth l 1, false)) s

/-- Width of a form of 32 or 64 bits. -/
def bitsW (w64 : Bool) : Nat := if w64 then 64 else 32
/-- Shifts by B[log2 w - 1 : 0] (R238). -/
def execIshl (h : LHdr) (d a b : Opnd) (w64 : Bool) (s : State) : Out :=
  laneAlu (.ishl h d a b w64) (ctlOp h d a b (wRegs w64))
    (fun _ _ _ l => (nth l 0 * 2 ^ (nth l 1 % bitsW w64) % 2 ^ bitsW w64, false)) s
def execIshr (h : LHdr) (d a b : Opnd) (w64 : Bool) (s : State) : Out :=
  laneAlu (.ishr h d a b w64) (ctlOp h d a b (wRegs w64)) (fun _ _ _ l => (nth l 0 / 2 ^ (nth l 1 % bitsW w64), false)) s
def execIsra (h : LHdr) (d a b : Opnd) (w64 : Bool) (s : State) : Out :=
  let ty : LTy := if w64 then .i64 else .i32
  laneAlu (.isra h d a b w64) (ctlOp h d a b (wRegs w64))
    (fun _ _ _ l => (codeOf ty (intOf ty (nth l 0) / 2 ^ (nth l 1 % bitsW w64)), false)) s

/-- R241: the mask word is 32 bits for every type. -/
def execIcmp (h : LHdr) (d a b : Opnd) (ty : LTy) (c : Cond) (pd : BitVec 3) (s : State) : Out :=
  laneAlu (.icmp h d a b ty c pd) { tyOp h d [a, b] ty with dn := 1, pd := some pd }
    (fun _ _ _ l =>
      let t := icondHolds c ty.signed (BitVec.ofNat ty.width (nth l 0)) (BitVec.ofNat ty.width (nth l 1))
      (maskWord t, t)) s
/-- R235. -/
def execIsel (h : LHdr) (d a b : Opnd) (w64 neg : Bool) (p : BitVec 3) (s : State) : Out :=
  laneAlu (.isel h d a b w64 neg p) (tyOp h d [a, b] (nTy w64))
    (fun g _ j l => (if selBit g p neg j then nth l 0 else nth l 1, false)) s

def execLanePopc (h : LHdr) (d a : Opnd) (w64 : Bool) (s : State) : Out :=
  laneAlu (.lanePopc h d a w64) { tyOp h d [a] (nTy w64) with dn := 1 } (fun _ _ _ l => (oneBits (nth l 0) (bitsW w64), false)) s
def execLaneClz (h : LHdr) (d a : Opnd) (w64 : Bool) (s : State) : Out :=
  laneAlu (.laneClz h d a w64) { tyOp h d [a] (nTy w64) with dn := 1 } (fun _ _ _ l => (leadingZeros (bitsW w64) (nth l 0), false)) s

/-- Position and length of a control word, and how much of the field lies below bit w (R240). -/
def fieldPos (c : Nat) : Nat := c % 64
def fieldLen (w c : Nat) : Nat := min (fieldPos c + (c / 256 % 64 + 1)) w - fieldPos c
/-- R240. -/
def execBfe (h : LHdr) (d a b : Opnd) (ty : LTy) (s : State) : Out :=
  laneAlu (.bfe h d a b ty) (ctlOp h d a b (tyRegs ty))
    (fun _ _ _ l =>
      let n := fieldLen ty.width (nth l 1)
      let f := nth l 0 / 2 ^ fieldPos (nth l 1) % 2 ^ n
      (if ty.signed && decide (0 < n) && decide (2 ^ (n - 1) ≤ f) then codeOf ty ((f : Int) - 2 ^ n) else f, false)) s
/-- R240. -/
def execBfi (h : LHdr) (d a b c : Opnd) (w64 : Bool) (s : State) : Out :=
  laneAlu (.bfi h d a b c w64) { h := h, d := d, dn := wRegs w64, src := [(a, wRegs w64), (b, 1), (c, wRegs w64)] }
    (fun _ _ _ l =>
      let p := fieldPos (nth l 1)
      let n := fieldLen (bitsW w64) (nth l 1)
      (nth l 2 % 2 ^ p + nth l 0 % 2 ^ n * 2 ^ p + nth l 2 / 2 ^ (p + n) * 2 ^ (p + n), false)) s

end Sys2Proof.Machine
end

