-- ==== Sys2Proof/Machine/LaneCtl.lean ====
section
/-! DEFINITION. Lane control, cross-lane and move instructions, and compaction regions (R256 to R273). -/

namespace Sys2Proof.Machine

/-! Moves, permutes, shuffles, votes (R258 to R263) -/

def execMovi (h : LHdr) (d : Opnd) (imm : W32) (ty : LTy) (s : State) : Out :=
  laneAlu (.movi h d imm ty) (op h d []) (fun _ _ _ _ => (imm.toNat, false)) s

/-- The register that thread j's control word selects from register i on (R258). -/
def idxReg (i : BitVec 10) (b : Nat) : Nat := i.toNat + b % 1024
def Opnd.vecIdx : Opnd → BitVec 10 | .vec i => i | _ => 0
/-- The first register computed by an executing thread that fails the check of R96 (R258). -/
def idxBad (g : Group) (h : LHdr) (i : BitVec 10) (b : Opnd) (n : Nat) : Option Nat :=
  (List.range 64).findSome? (fun j =>
    let k := idxReg i (g.srcVal b 1 j)
    if bitOf (g.sel h).exec j && !(List.range n).all (fun m => g.rg.vecIn (k + m)) then some k else none)
/-- `reg_range` of a computed register, which stands for operand field `f` (R97, R258). -/
def idxRange {α : Type} (f k : Nat) : Acc α :=
  throw (.fault (rangeInfo f 0 k))
/-- A word that a computed source names could not be corrected (R335). -/
def idxEcc (g : Group) (h : LHdr) (i : BitVec 10) (b : Opnd) (n : Nat) : Bool :=
  (List.range 64).any (fun j => bitOf (g.sel h).exec j &&
    (List.range n).any (fun m => g.rg.badIn (256 * g.rg.vrow (idxReg i (g.srcVal b 1 j) + m) + 4 * j) 4))
/-- The effect of the write-indexed mode: thread j writes its word of its own register (R258). -/
def wrxEffect (g : Group) (h : LHdr) (d a b : Opnd) (n : Nat) : Group :=
  let x := g.sel h
  (List.range 64).foldl (fun g1 j =>
    if bitOf x.write j then
      let v := x.from h.uni j
      g1.putVec (idxReg (Opnd.vecIdx d) (g.srcVal b 1 v)) (1#64 <<< j) (fun _ => g.srcVal a n v) n
    else g1) (g.popAll [(a, n), (b, 1)])
/-- R258. -/
def execMov (h : LHdr) (d a b : Opnd) (w64 : Bool) (m : MovMode) (s : State) : Out :=
  let i : Instr := .mov h d a b w64 m
  let n := wRegs w64
  let g := s.cur.settle
  match m with
  | .dir => laneAlu i { h := h, d := d, dn := n, src := [(a, n)] } (fun _ _ _ l => (nth l 0, false)) s
  | .rdx =>
    match (if h.never || (g.laneStop [(d, n)] [(b, 1)] [2]).isSome then none else some (idxBad g h (Opnd.vecIdx a) b n)) with
    | some (some k) => laneAcc i h (idxRange 1 k) s
    | some none =>
      if idxEcc g h (Opnd.vecIdx a) b n then laneAcc i h (raise .dataError) s
      else laneAlu i { h := h, d := d, dn := n, src := [(b, 1)], fields := [2] }
      (fun g _ j l => (g.srcVal (.vec (BitVec.ofNat 10 (idxReg (Opnd.vecIdx a) (nth l 0)))) n j, false)) s
    | none => laneAlu i { h := h, d := d, dn := n, src := [(b, 1)], fields := [2] } (fun _ _ _ _ => (0, false)) s
  | .wrx =>
    laneAcc i h (do
      checkOps [1, 2] [] [(a, n), (b, 1)]
      needData [(a, n), (b, 1)]
      match idxBad g h (Opnd.vecIdx d) b n with
      | some k => idxRange 0 k
      | none => modifyCur (fun g => (wrxEffect g h d a b n).lpc1)) s

/-- R259. -/
def execLanePlog (h : LHdr) (pd pa pb : BitVec 3) (t : BitVec 4) (s : State) : Out :=
  laneAlu (.lanePlog h pd pa pb t) (op h .zero [] .rn (some pd))
    (fun g _ j _ => (0, tableBit t (bitOf (g.pr pa) j) (bitOf (g.pr pb) j))) s

/-- R260: the table is the 16 bytes of four registers, in order. -/
def permWord (m : PermMode) (a tab : Nat) : Nat :=
  packNat 8 (fun k =>
    let x := elemOf 8 a k
    match m with
    | .lo => elemOf 8 tab (x % 16)
    | .hi => elemOf 8 tab (x / 16)
    | .x => if 128 ≤ x then 0 else elemOf 8 tab (x % 16)) 4
def execPerm (h : LHdr) (d a b : Opnd) (m : PermMode) (s : State) : Out :=
  laneAlu (.perm h d a b m) { h := h, d := d, src := [(a, 1), (b, 4)] } (fun _ _ _ l => (permWord m (nth l 0) (nth l 1), false)) s

/-- The lane of a vlane that is a present member (R261). -/
def Lane.member (l : Lane) (u : Nat) : Option Nat :=
  (List.range 64).find? (fun k => bitOf l.act k && bitOf (l.remap.getD k 0) 10 && l.vl k == u)
/-- The target vlane of a shuffle (R262). -/
def shflTarget (m : ShflMode) (u b : Nat) : Option Nat :=
  match m with
  | .idx => some b
  | .up => if u < b then none else some (u - b)
  | .down => if 1023 < u + b then none else some (u + b)
  | .xor => some (u ^^^ b)
/-- R262. -/
def execShfl (h : LHdr) (d a b : Opnd) (w64 : Bool) (m : ShflMode) (pw : Bool) (pd : BitVec 3) (s : State) : Out :=
  let n := wRegs w64
  laneAlu (.shfl h d a b w64 m pw pd) { h := h, d := d, dn := n, src := [(a, n), (b, 1)], pd := if pw then some pd else none }
    (fun g _ j l =>
      match (shflTarget m (g.ln.vl j) (nth l 1 % 1024)).bind g.ln.member with
      | some k => (g.srcVal a n k, false)
      | none => (nth l 0, true)) s

/-- The result of a vote over the members whose guard is true (R263). -/
def voteResult (g : Group) (h : LHdr) (k : VoteKind) (neg : Bool) (p : BitVec 3) : Nat × Bool :=
  let mem := g.ln.act &&& g.guardMask h
  let inp := (if neg then ~~~(g.pr p) else g.pr p) &&& mem
  match k with
  | .all => let t := inp == mem; (maskWord t, t)
  | .any => let t := inp != 0; (maskWord t, t)
  | .ballot => (inp.toNat, false)
  | .count => (oneBits inp.toNat 64, false)
/-- R263. -/
def execVote (h : LHdr) (d : Opnd) (k : VoteKind) (neg : Bool) (p pd : BitVec 3) (s : State) : Out :=
  laneAlu (.vote h d k neg p pd)
    { h := h, d := d, dn := if k == .ballot then 2 else 1, src := [], pd := if k == .all || k == .any then some pd else none }
    (fun g _ _ _ => voteResult g h k neg p) s

/-! Control (R256, R264 to R268) -/

def execLnop (h : LHdr) (s : State) : Out := laneAcc (.lnop h) h (modifyCur Group.lpc1) s
/-- R256: accesses perform in order (log 2), so the fence changes no state. -/
def execLfence (h : LHdr) (r : Order) (s : State) : Out := laneAcc (.lfence h r) h (modifyCur Group.lpc1) s

/-- The lane block ends (R264): the lane stream is idle. -/
def Lane.endBlock (l : Lane) : Lane := { l with active := false, run := 0, stack := [] }
/-- R267: threads that wait on the stack go on; with none left the block ends. The stack is given, the top first. -/
def Lane.resume (l : Lane) : List DivEntry → Lane
  | [] => l.endBlock
  | e :: t =>
    if e.mask = 0 then Lane.resume l t
    else if e.join then { l with run := e.mask, lpc := e.pc, stack := t }
    else { l with run := e.mask, lpc := e.pc, stack := { e with join := true, mask := 0 } :: t }

/-- R264, R272. -/
def execLend (h : LHdr) (s : State) : Out :=
  laneAcc (.lend h) h (do
    let g ← getCur
    if g.ln.inRegion then raise .compactState
    else if g.ln.stack ≠ [] then raise .divStack
    else modifyCur (fun g => { g with ln := g.ln.endBlock })) s

/-- The threads that an `lbr` takes (R267). -/
def Group.taken (g : Group) (h : LHdr) : W64 := g.ln.act &&& g.guardMask h
/-- A target within the kernel's lane words (R266). -/
def checkTarget (imm : W32) : Acc Unit := do
  if (← getCur).ln.lwords.toNat ≤ imm.toNat then raise .lbrRange
/-- The stack after a diverging branch (R267); none where it is full. -/
def pushPending (st : List DivEntry) (tgt : BitVec 20) (t : W64) : Option (List DivEntry) :=
  match st with
  | e :: r =>
    if !e.join && e.pc == tgt then some ({ e with mask := e.mask ||| t } :: r)
    else if 32 ≤ st.length then none else some (⟨false, tgt, t⟩ :: st)
  | [] => some [⟨false, tgt, t⟩]
/-- R266, R267. -/
def execLbr (h : LHdr) (imm : W32) (s : State) : Out :=
  laneAcc (.lbr h imm) h (do
    checkTarget imm
    let g ← getCur
    let t := g.taken h
    match pushPending g.ln.stack (imm.setWidth 20) t with
    | none => raise .divStack
    | some st =>
      let run := g.ln.act &&& ~~~t
      let l : Lane := { g.ln with run := run, lpc := g.ln.lpc + 1, stack := st }
      modifyCur (fun g => { g with ln := if run = 0 then l.resume st else l })) s
/-- R268. -/
def execLbrJ (h : LHdr) (imm : W32) (s : State) : Out :=
  laneAcc (.lbrJ h imm) h (do
    checkTarget imm
    let g ← getCur
    let t := g.taken h
    if t = 0 then modifyCur Group.lpc1
    else if t = g.ln.act then modifyCur (fun g => { g with ln := { g.ln with lpc := imm.setWidth 20 } })
    else raise .lbrSplit) s
/-- R267. -/
def execLsync (h : LHdr) (s : State) : Out :=
  laneAcc (.lsync h) h (do
    let g ← getCur
    match g.ln.stack with
    | [] => raise .divStack
    | e :: t =>
      let next := g.ln.lpc + 1
      modifyCur (fun g => { g with ln :=
        if e.join then { g.ln with run := g.ln.run ||| e.mask, stack := t, lpc := next }
        else if e.mask = 0 then { g.ln with stack := t, lpc := next }
        else { g.ln with run := e.mask, lpc := e.pc, stack := ⟨true, next, g.ln.run⟩ :: t } })) s

/-- The next part of a shared group begins (R270). -/
def Lane.nextPart (l : Lane) : Option Lane :=
  match l.parts with
  | x :: t => some { l with run := x.1, lpc := x.2, parts := t, stack := [] }
  | [] => none
/-- R264, R267: the executing threads end for good. Inside a region a part that has no thread left gives way to the group's
next part; with none left the instruction behaves as at `lend` and raises `compact_state` (log 18). -/
def execLexit (h : LHdr) (s : State) : Out :=
  laneAcc (.lexit h) h (do
    let g ← getCur
    let x := g.taken h
    let st := g.ln.stack.map (fun e => { e with mask := e.mask &&& ~~~x })
    let l : Lane := { g.ln with exited := g.ln.exited ||| x, run := g.ln.run &&& ~~~x, stack := st }
    if l.run ≠ 0 then modifyCur (fun g => { g with ln := { l with lpc := l.lpc + 1 } })
    else
      let l2 := l.resume st
      if l2.active || !g.ln.inRegion then modifyCur (fun g => { g with ln := l2 })
      else match l.nextPart with
        | some l3 => modifyCur (fun g => { g with ln := l3 })
        | none => raise .compactState) s

/-! Compaction regions (R269 to R273) -/

/-- R270: the group waits at the word; the threads move by COMPACT_REGROUP. -/
def execLbrC (h : LHdr) (imm : W32) (s : State) : Out :=
  laneAcc (.lbrC h imm) h (do
    checkTarget imm
    let g ← getCur
    if g.ln.inRegion || g.ln.stack != [] then raise .compactState
    else
      modifyCur (fun g => { g with ln := { g.ln with cwait := .atLbr g.ln.lpc (imm.setWidth 20) (g.taken h) } })
      modify State.stalled) s
/-- R273: a part that ends gives way to the next one; after the last the group waits. -/
def execLsyncC (h : LHdr) (s : State) : Out :=
  laneAcc (.lsyncC h) h (do
    let g ← getCur
    if !g.ln.inRegion || g.ln.stack != [] || (g.ln.partAt.isSome && g.ln.partAt != some g.ln.lpc) then
      raise (if g.ln.inRegion && g.ln.stack == [] then .compactMismatch else .compactState)
    else match g.ln.nextPart with
      | some l => modifyCur (fun g => { g with ln := { l with partAt := some g.ln.lpc } })
      | none =>
        modifyCur (fun g => { g with ln := { g.ln with cwait := .atSync g.ln.lpc } })
        modify State.stalled) s

/-- What a thread takes along (R271): its vlane, its count, its predicates, its column of the rows that `vview` covers. -/
structure Thread where
  vlane : Nat
  rs    : BitVec 19
  p     : List Bool
  col   : List W32

/-- Rows of the vector view that lie in the declared space. -/
def viewRows (r : RegSpace) : Nat :=
  min (bitsOf r.vview 24 11) ((r.declared.toNat - bitsOf r.vview 0 17) / 256)
/-- The thread at lane j. -/
def Group.thread (g : Group) (j : Nat) : Thread :=
  { vlane := g.ln.vl j, rs := g.ln.rs.getD j 0, p := (List.range 7).map (fun i => bitOf (g.ln.p.getD i 0) j),
    col := (List.range (viewRows g.rg)).map (fun k => vword (g.rg.row (g.rg.vrow k)) j) }
/-- Threads placed at lanes, from lists of (lane, thread); other lanes keep what they hold. -/
def Group.seat (g : Group) (l : List (Nat × Thread)) : Group :=
  let at' := fun (j : Nat) => (l.find? (fun x => x.1 == j)).map Prod.snd
  let mask := BitVec.ofNat 64 (packNat 1 (fun j => (at' j).isSome.toNat) 64)
  let rg := (List.range (viewRows g.rg)).foldl (fun r k =>
    r.mergeF (r.vrow k) mask (fun j => match at' j with | some t => (t.col.getD k 0).toNat | none => 0)) g.rg
  { g with rg := rg,
           ln := { g.ln with
             rs := Vector.ofFn (fun j : Fin 64 => match at' j.val with | some t => t.rs | none => g.ln.rs[j]),
             p := Vector.ofFn (fun i : Fin 7 => (g.ln.p[i] &&& ~~~mask) |||
               predMask (fun j => match at' j with | some t => t.p.getD i.val false | none => false)) } }

/-- The groups of a group's block, in ascending gidx (R301). -/
def State.blockGroups (s : State) (gid : Gid) : List Gid :=
  let g := s.group gid
  match s.blockOf g.part g.launch g.block with
  | some b => (List.range 16).filterMap (fun k => b.gids.find? (fun x => (s.group x).gidx.toNat == k))
  | none => [gid]
/-- A group that takes part: it holds a thread that has not exited (R270). -/
def Group.takesPart (g : Group) : Bool := g.live && !(~~~g.ln.exited == 0)
def Group.atLbr (g : Group) : Option (BitVec 20 × BitVec 20 × W64) :=
  match g.ln.cwait with | .atLbr w t m => some (w, t, m) | _ => none

/-- Threads of a list of groups, by ascending vlane: gidx rises along the list and lanes rise in each group. -/
def threadsOf (gs : List Group) (sel : Group → Nat → Bool) : List Thread :=
  gs.flatMap (fun g => ((List.range 64).filter (fun j => !bitOf g.ln.exited j && sel g j)).map g.thread)
/-- Cuts a list into packs of 64. -/
def packs (l : List Thread) : Nat → List (List Thread)
  | 0 => []
  | n + 1 => if l = [] then [] else l.take 64 :: packs (l.drop 64) n
/-- The threads of a group may move: every earlier instruction of its lane stream has completed, and no granule of its vector view is
drowsy (R101, R102, R271). -/
def Group.movable (g : Group) : Bool :=
  g.llog.isNone && !g.rg.drowsyIn [(bitsOf g.rg.vview 0 17, 256 * viewRows g.rg)]
/-- Raises a compaction fault in each group of a list at the word it stands at, which is issued again on return (R270, R273, R316). -/
def State.mismatch (s : State) (gids : List Gid) : State :=
  gids.foldl (fun s x =>
    let g : Group := { s.group x with ln := { (s.group x).ln with cwait := .none } }
    let s := s.setGroup x g
    let w := match (readVirt (groupAgent x g) g.laneAddr 12 .fetch).run s with | .ok v _ => v | .error .. => 0
    s.reachTrap x true { cause := .compactMismatch, here := true } g.laneAddr (BitVec.ofNat 96 w)) s

/-- Lanes k, k + 1, ... with the threads of a pack. -/
def seatsFrom (k : Nat) (l : List Thread) : List (Nat × Thread) := (List.range l.length).zip l |>.map (fun x => (k + x.1, x.2))
/-- Lanes k to k + n - 1 as a mask. -/
def laneRun (k n : Nat) : W64 := BitVec.ofNat 64 (2 ^ (k + n) - 2 ^ k)

/-- One group after the regrouping (R270): threads at lanes 0.. that start at `pc`, perhaps a second part behind them. -/
def Group.regroup (g : Group) (a : List Thread) (pc : BitVec 20) (b : List Thread) (pcB : BitVec 20) : Group :=
  let l := seatsFrom 0 a ++ seatsFrom a.length b
  let g1 := g.seat l
  let rm : Vector (BitVec 11) 64 := Vector.ofFn (fun j : Fin 64 =>
    match l.find? (fun x => x.1 == j.val) with | some x => BitVec.ofNat 11 (1024 + x.2.vlane) | none => 0)
  { g1 with ln := { g1.ln with remap := rm, inRegion := true, exited := 0, stack := [], run := laneRun 0 a.length, lpc := pc,
                               parts := if b = [] then [] else [(laneRun a.length b.length, pcB)], partAt := none,
                               cwait := .none } }

/-- The packs in the order of the groups: a pack, where it starts, and the pack that shares its group (R270). -/
def seatPlan (n : Nat) (ts fs : List Thread) (tgt nxt : BitVec 20) : List (List Thread × BitVec 20 × List Thread) :=
  let tp := packs ts (n + 1)
  let fp := packs fs (n + 1)
  if n < tp.length + fp.length then
    tp.dropLast.map (fun x => (x, tgt, [])) ++ [(tp.getLastD [], tgt, fp.getLastD [])] ++ fp.dropLast.map (fun x => (x, nxt, []))
  else tp.map (fun x => (x, tgt, [])) ++ fp.map (fun x => (x, nxt, []))

/-- COMPACT_REGROUP (R270): once every group that takes part waits at an `lbr.c`, all at one word, the threads regroup. They wait for
what their earlier instructions still have to do (R271). -/
def execCompactRegroup (g : Gid) (s : State) : Out :=
  let gids := (s.blockGroups g).filter (fun x => (s.group x).takesPart)
  let ws := gids.map (fun x => (s.group x).atLbr)
  match ws with
  | some (w, tgt, _) :: _ =>
    if ws.all Option.isSome && gids.all (fun x => (s.group x).movable) then
      if ws.all (fun x => x.map Prod.fst == some w) then
        let gs := gids.map s.group
        let took := fun (g : Group) (j : Nat) => match g.atLbr with | some x => bitOf x.2.2 j | none => false
        let plan := seatPlan gids.length (threadsOf gs took) (threadsOf gs (fun g j => !took g j)) tgt (w + 1)
        .next ((List.range gids.length).foldl (fun s1 k =>
          let x := gids.getD k 0
          let p := plan.getD k ([], w, [])
          s1.setGroup x ((s.group x).regroup p.1 p.2.1 p.2.2 (w + 1))) s)
      else .next (s.mismatch gids)
    else .next s
  | _ => .next s

/-- A group home again after a region (R273). `ts` are the threads of its own vlanes that have not exited. -/
def Group.home (g : Group) (ts : List Thread) (pc : BitVec 20) : Group :=
  let seats := ts.map (fun t => (t.vlane % 64, t))
  let g1 := g.seat seats
  let alive := BitVec.ofNat 64 (packNat 1 (fun j => (seats.any (fun x => x.1 == j)).toNat) 64)
  { g1 with ln := { g1.ln with remap := identityRemap g.gidx, inRegion := false, exited := ~~~alive, run := alive, stack := [],
                               parts := [], partAt := none, cwait := .none, lpc := pc, active := true } }
/-- The `lsync.c` at which a group of a region has ended; `some none` for a group without threads. -/
def Group.atSync (g : Group) : Option (Option (BitVec 20)) :=
  match g.ln.cwait with
  | .atSync w => some (some w)
  | _ => if g.ln.inRegion && g.ln.run == 0 then some none else none
/-- A group takes part in a region, in its program or behind its handler (R273). -/
def Group.inRegion (g : Group) : Bool := g.ln.inRegion || (g.h.on && g.h.kept.inRegion)
/-- COMPACT_RETURN (R273): once every group of the region has ended at one `lsync.c`, every thread returns home. -/
def execCompactReturn (g : Gid) (s : State) : Out :=
  let gids := (s.blockGroups g).filter (fun x => (s.group x).inRegion)
  let ws := gids.map (fun x => (s.group x).atSync)
  if gids ≠ [] ∧ ws.all Option.isSome ∧ gids.all (fun x => (s.group x).movable) then
    match ws.filterMap (fun x => x.bind id) with
    | w :: t =>
      if t.all (fun x => x == w) then
        let all := gids.flatMap (fun x => let g := s.group x
          ((List.range 64).filter (fun j => bitOf (g.ln.remap.getD j 0) 10 && !bitOf g.ln.exited j)).map g.thread)
        .next (gids.foldl (fun s1 x =>
          let y := s.group x
          let y1 := y.home (all.filter (fun t => t.vlane / 64 == y.gidx.toNat)) (w + 1)
          s1.setGroup x (if y1.ln.run = 0 then { y1 with ln := y1.ln.endBlock } else y1)) s)
      else .next (s.mismatch (gids.filter (fun x => (s.group x).atSync != some none)))
    | [] => .next s
  else .next s

end Sys2Proof.Machine
end

