-- ==== Sys2Proof/Machine/LaneMem.lean ====
section
/-! DEFINITION. Lane loads, stores and atomics (R252 to R255). -/

namespace Sys2Proof.Machine

/-- Threads of a mask by ascending vlane (R40, R253). -/
def insertLane (l : Lane) (j : Nat) : List Nat → List Nat
  | [] => [j]
  | k :: t => if l.vl j < l.vl k then j :: k :: t else k :: insertLane l j t
def Lane.byVlane (l : Lane) (m : W64) : List Nat :=
  ((List.range 64).filter (fun j => bitOf m j)).foldr (insertLane l) []
/-- The threads that make an access: all of the mask, or the lowest vlane of a uniform instruction (R254). -/
def accLanes (g : Group) (uni : Bool) (m : W64) : List Nat :=
  if uni then (g.ln.byVlane m).take 1 else g.ln.byVlane m
def vlaneOf (g : Group) (j : Nat) : Option (BitVec 11) := some (BitVec.ofNat 11 (g.ln.vl j))

/-- The threads that make an access, and those that take its result: of a uniform instruction thread v and every active thread
(R254, R320). -/
def Group.accSel (g : Group) (h : LHdr) : W64 × W64 := let x := g.sel h; (x.exec, x.write)
/-- The threads that take the result of an access whose operands are `x`: a replay that does not know them writes the threads
active then (log 76). -/
def Srcs.takers (x : Srcs) (uni : Bool) (g : Group) : W64 := if !uni then x.exec else if x.wmask = 0 then g.ln.act else x.wmask
/-- A push whose guard was false makes no access: the entry it pushes is a free value of its width, zero-extended (R257; log 57). -/
def pushFree (d : Opnd) (bits : Nat) (s : State) : State :=
  match d with
  | .y _ | .yp _ _ =>
    let (v, s1) := s.free
    s1.setCur (s1.cur.pushY d (BitVec.ofNat 64 (v.toNat % 2 ^ bits)))
  | _ => s
/-- Runs a lane memory instruction: checks, sources, effect, pops, deferral (R253, R257, R320), or its replay, which waits for a full
queue as the issue does. `d`: the destination, if it has one, and `bits` the width of its result. -/
def laneMem (i : Instr) (h : LHdr) (d : Option (Opnd × Nat)) (bits : Nat) (rd : List (Opnd × Nat)) (src : Group → Srcs) (body : Srcs → Acc Unit)
    (s : State) : Out :=
  match s.cur.replaying true with
  | some l => if d.toList.any (fun o => s.cur.queueStop o.1 == some .stall) then .next s.stalled else replayAcc true l body s
  | none =>
  if h.never then .next (s.setCur s.cur.lpc1)
  else
    let g := s.cur.settle
    let s1 := s.setCur g
    let fin := finish true false s.cur.laneAddr (encodeLane i)
    match g.laneStop d.toList rd with
    | some st => fin none s (.error st s1)
    | none =>
      let x := { src g with exec := (g.accSel h).1, wmask := if h.uni then (g.accSel h).2 else 0 }
      if x.exec = 0 then .next (pushFree ((d.map Prod.fst).getD .zero) bits (s1.setCur (g.popAll rd).lpc1))
      else match (do body x; modifyCur (fun g => (g.popAll rd).lpc1) : Acc Unit).run s1 with
        | .error (.pages l m) s' => fin (some x) s (.error (.pages l m) (s'.setCur (s'.cur.popAll rd)))
        | .error .scrub s' => fin (some x) s (.error .scrub (s'.setCur (s'.cur.popAll rd)))
        | r => fin (some x) s r

/-- The registers of a memory operand (R252). -/
def sizeRegs : Size → Nat | .b64 => 2 | .b128 => 4 | _ => 1

/-- The offset of thread j (R252). -/
def laneOff (x : Srcs) (off j : Nat) : Nat := (vword x.a j).toNat + off
/-- Resolves the shelf addresses of a list of threads (R72, R252). -/
def shelfList (gid : Gid) (g : Group) (n : Nat) (f : Nat → Nat) : List Nat → Acc (List (List Nat))
  | [] => pure []
  | j :: t => do
    let a ← withVlane (vlaneOf g j) (shelfResolve gid (f j / 4096) (f j % 4096) n)
    let r ← shelfList gid g n f t
    pure ((List.range n).map (a + ·) :: r)
/-- Resolves the accesses of n bytes of a list of threads (R252, R253). -/
def laneAddrs (m : LMem) (off : Nat) (k : AKind) (n : Nat) (x : Srcs) (ls : List Nat) : Acc (List (List Nat)) := do
  let s ← get
  let g := s.cur
  let accs := ls.map (fun j => ({ vlane := vlaneOf g j, off := laneOff x off j, va := g.winVa m.win (laneOff x off j) } : OneAcc))
  if m.shf then shelfList s.curG g n (laneOff x off) ls
  else resolveAll (fun o => windowAccess s.curG m.win o k) n accs
/-- The address that names an access of thread j in a fault. -/
def laneVa (g : Group) (m : LMem) (x : Srcs) (off j : Nat) : W64 :=
  if m.shf then BitVec.ofNat 64 (laneOff x off j) else g.winVa m.win (laneOff x off j)

/-- Writes per-thread results, or pushes the result of a uniform instruction (R230, R254, R257). -/
def putLane (d : Opnd) (uni : Bool) (mask : W64) (l : List (Nat × Nat)) (n : Nat) : Acc Unit :=
  modifyCur (fun g =>
    let val := fun (j : Nat) => if uni then (l.getD 0 (0, 0)).2 else ((l.find? (fun x => x.1 == j)).getD (0, 0)).2
    match d with
    | .y _ | .yp _ _ => g.pushY d (BitVec.ofNat 64 (val 0))
    | d => g.putOpnd d mask val n)

/-- Reads each thread's bytes. -/
def readLanes (g : Group) (va : Nat → W64) : List (Nat × List Nat) → Acc (List (Nat × Nat))
  | [] => pure []
  | p :: t => do
    let v ← withVlane (vlaneOf g p.1) (readAt (va p.1) p.2)
    let r ← readLanes g va t
    pure ((p.1, v) :: r)
/-- R252 to R254. -/
def lldBody (h : LHdr) (d : Opnd) (z : Size) (m : LMem) (x : Srcs) : Acc Unit := do
  let g ← getCur
  let ls := accLanes g h.uni x.exec
  let as ← laneAddrs m m.off.toNat .read (sizeBytes z) x ls
  let vs ← wholly (readLanes g (laneVa g m x m.off.toNat) (ls.zip as))
  putLane d h.uni (x.takers h.uni g) vs (sizeRegs z)
def execLld (h : LHdr) (d a : Opnd) (z : Size) (m : LMem) (s : State) : Out :=
  laneMem (.lld h d a z m) h (some (d, sizeRegs z)) (8 * sizeBytes z) [(a, 1)] (fun g => { a := g.srcReg a 0 }) (lldBody h d z m) s

/-- Thread j's words of up to four registers as one number. -/
def regWords (d : List VReg) (j : Nat) : Nat := packNat 32 (fun k => (vword (d.getD k 0) j).toNat) 4
/-- Writes each thread's bytes in turn. -/
def writeLanes (n : Nat) (f : Nat → Nat) : List (Nat × List Nat) → Acc Unit
  | [] => pure ()
  | p :: t => do
    writeAt p.2 (natToBytes n (f p.1))
    writeLanes n f t
/-- R252 to R254. -/
def lstBody (h : LHdr) (z : Size) (m : LMem) (x : Srcs) : Acc Unit := do
  let g ← getCur
  let ls := accLanes g h.uni x.exec
  let as ← laneAddrs m m.off.toNat .write (sizeBytes z) x ls
  writeLanes (sizeBytes z) (regWords x.d) (ls.zip as)
def execLst (h : LHdr) (a b : Opnd) (z : Size) (m : LMem) (s : State) : Out :=
  laneMem (.lst h a b z m) h none 0 [(a, 1), (b, sizeRegs z)]
    (fun g => { a := g.srcReg a 0, d := (List.range (sizeRegs z)).map (g.srcReg b) }) (lstBody h z m) s

/-- Registers of an atomic operand (R228, R255). -/
def atomRegs (t : AtomTy) : Nat := t.bits / 32
/-- The place of a cause in the table of R62. -/
def atomRank : Cause → Nat | .atomAlign => 0 | .atomRegion => 1 | .atomDet => 2 | _ => 3
/-- The refusal that comes first in the table, and of its threads the lowest vlane (R62). -/
def firstRefused : List (Nat × Cause) → Option (Nat × Cause)
  | [] => none
  | x :: t => match firstRefused t with
    | none => some x
    | some y => if atomRank y.2 < atomRank x.2 then some y else some x
/-- Performs each thread's read-modify-write in turn (R255). -/
def atomLanes (ag : Agent) (g : Group) (op : AtomOp) (t : AtomTy) (va : Nat → W64) (b c : Nat → Nat) :
    List (Nat × Nat) → Acc (List (Nat × Nat))
  | [] => pure []
  | p :: r => do
    let v ← withVlane (vlaneOf g p.1) (atomApply ag g (BitVec.ofNat 11 (g.ln.vl p.1)) op t (va p.1) p.2 (b p.1) (c p.1))
    let rest ← atomLanes ag g op t va b c r
    pure ((p.1, v) :: rest)
/-- R255: every check comes before any access; a window's refusal withdraws the whole instruction. -/
def laneAtomBody (h : LHdr) (d : Opnd) (t : AtomTy) (op : AtomOp) (m : LMem) (x : Srcs) : Acc Unit := do
  let ag ← curAgent
  let g ← getCur
  let ls := accLanes g h.uni x.exec
  let as ← laneAddrs m m.off.toNat .atomic (if m.shf then targetBytes op t else 1) x ls
  let n := atomRegs t
  let b := fun (j : Nat) => regWords (x.d.take n) j % 2 ^ t.bits
  let c := fun (j : Nat) => regWords (x.d.drop n) j % 2 ^ t.bits
  let ps := (ls.zip as).map (fun p => (p.1, p.2.getD 0 0))
  let va := laneVa g m x m.off.toNat
  let det := (← get).isDet g.part g.launch
  match firstRefused (ps.filterMap (fun p => (atomCheck det op t p.2 (b p.1)).map (fun e => (p.1, e)))) with
  | some (j, e) => withVlane (vlaneOf g j) (asKind .atomic (raiseAt e (va j)))
  | none =>
    let vs ← wholly (asKind .atomic (atomLanes ag g op t va b c ps))
    if op == .fxadd || op == .oadd then pure () else putLane d h.uni (x.takers h.uni g) vs n
def execLaneAtom (h : LHdr) (d a b c : Opnd) (ty : AtomTy) (op : AtomOp) (m : LMem) (s : State) : Out :=
  let n := atomRegs ty
  let cas := op == .cas
  let rd := [(a, 1)] ++ (if op == .oclose then [] else [(b, n)]) ++ (if cas then [(c, n)] else [])
  laneMem (.laneAtom h d a b c ty op m) h (some (d, n)) ty.bits rd
    (fun g => { a := g.srcReg a 0,
                d := (List.range n).map (g.srcReg b) ++ (if cas then (List.range n).map (g.srcReg c) else []) })
    (laneAtomBody h d ty op m) s

end Sys2Proof.Machine
end

