-- ==== Sys2Proof/Machine/Matrix.lean ====
section
/-! DEFINITION. Tile loads and stores, the matrix array and its sequencer (R128 to R151, R275 to R288). -/

namespace Sys2Proof

/-- A two's-complement integer format of R134. -/
def LTy.isInt48 (t : LTy) : Bool := t == .i8 || t == .i4
/-- A narrow floating-point format of R134. -/
def LTy.isFp8 (t : LTy) : Bool := t == .e5m2 || t == .e4m3 || t == .e2m1
/-- A 16-bit floating-point format. -/
def LTy.isFp16 (t : LTy) : Bool := t == .f16 || t == .bf16

end Sys2Proof

namespace Sys2Proof.Machine

/-! Tiles and bindings (R94, R105) -/

/-- The scales of an unscaled tile (R117). -/
def unitScales : BitVec 512 := BitVec.ofNat 512 (packNat 16 (fun _ => 0x7F) 32)
/-- R105. -/
def RegSpace.binding (r : RegSpace) (t : Nat) : Option (BitVec 512) :=
  let d := r.tdesc.getD t 0
  if !tdScaled d then some unitScales
  else if tdBvalid d && tdBtag d == r.etag.getD (tdSreg d).toNat 0 then some (r.e.getD (tdSreg d).toNat 0)
  else none
/-- A scale register whose word could not be corrected is not consumed (R335). -/
def needScale (e : BitVec 5) : Acc Unit := do if bitOf (← getCur).rg.ebad e.toNat then raise .dataError
/-- The record of a `stale_binding`: operand field, tile, scale register, `bvalid`, bound tag, and the current tag (R105; log 63). -/
def staleInfo (r : RegSpace) (field : BitVec 3) (t : BitVec 4) : Info :=
  let d := r.tdesc.getD t.toNat 0
  { cause := .staleBinding, here := true, code := r.etag.getD (tdSreg d).toNat 0,
    aux := (tdBtag d ++ field ++ bit (tdBvalid d) ++ tdSreg d ++ t).setWidth 32 }
/-- R105 for a tile of an instruction of the current group, named by source A. -/
def needBinding (t : BitVec 4) : Acc (BitVec 512) := do
  let r := (← getCur).rg
  match r.binding t.toNat with
  | some e => pure e
  | none => throw (.fault (staleInfo r 1 t))
/-- The entries that a tile's binding gives are consumed (R335). -/
def needEntries (t : BitVec 4) : Acc Unit := do
  let d := (← getCur).rg.tdesc.getD t.toNat 0
  if tdScaled d then needScale (tdSreg d)
/-- The bytes of a tile, row after row. -/
def RegSpace.tileBytes (r : RegSpace) (t : Nat) : List Byte := r.bytes (r.tileSpan t).1 (r.tileSpan t).2

/-! Address words and the shelf (R276, R277, R281) -/

/-- The lane that `exec` names. -/
def Srcs.lane (x : Srcs) : Nat := ((List.range 64).find? (fun k => bitOf x.exec k)).getD 0
/-- The address word. -/
def Srcs.addr (x : Srcs) : Nat := (vword x.a x.lane).toNat
/-- The frames of the slots that offsets touch, each slot resolved once (R72, R281). -/
def shelfTable (gid : Gid) : List Nat → List (Nat × Nat) → Acc (List (Nat × Nat))
  | [], t => pure t
  | o :: r, t =>
    if t.any (fun x => x.1 == o / 4096) then shelfTable gid r t
    else do
      let a ← shelfResolve gid (o / 4096) (o % 4096) 1
      shelfTable gid r (t ++ [(o / 4096, a - o % 4096)])
/-- The physical address of an offset whose slot is resolved. -/
def shelfPa (t : List (Nat × Nat)) (o : Nat) : Nat := ((t.find? (fun x => x.1 == o / 4096)).getD (0, 0)).2 + o % 4096
/-- Reads bytes at physical addresses one by one. -/
def readEach (ag : Agent) (va : W64) : List Nat → Acc (List Byte)
  | [] => pure []
  | a :: t => do
    let v ← physRead ag va a 1
    let r ← readEach ag va t
    pure (BitVec.ofNat 8 v :: r)
/-- Writes bytes at physical addresses. -/
def writeEach (ag : Agent) : List (Nat × Byte) → Acc Unit
  | [] => pure ()
  | p :: t => do
    physWrite ag p.1 [p.2]
    writeEach ag t
/-- Bytes of the shelf from an offset, by one visible frame a slot. -/
def shelfBytes (gid : Gid) (o n : Nat) : Acc (List Byte) := do
  let l := (List.range n).map (o + ·)
  let t ← shelfTable gid l []
  readEach (groupAgent gid ((← get).group gid)) (BitVec.ofNat 64 o) (l.map (shelfPa t))

/-- One range of an instruction's address stream: its window and its first offset. -/
structure Span where
  win : BitVec 3
  off : Nat
  len : Nat

/-- Resolves every range, all pages before any access (R277): the addresses of the bytes, range by range. -/
def resolveSpans (k : AKind) : List Span → List Info → Acc (List (List Nat) × List Info)
  | [], fs => pure ([], fs)
  | x :: t, fs => do
    let s ← get
    let (l, fs) ← resolveOne (fun o => windowAccess s.curG x.win o k) x.len { off := x.off, va := s.cur.winVa x.win x.off } fs
    let (r, fs) ← resolveSpans k t fs
    pure (l :: r, fs)
/-- The addresses of ranges through windows or, with `shf`, the shelf (R277, R318, R321). -/
def spanAddrs (shf : Bool) (k : AKind) (l : List Span) : Acc (List (List Nat)) := do
  if shf then
    let offs := l.map (fun x => (List.range x.len).map (x.off + ·))
    let t ← shelfTable (← get).curG offs.flatten []
    pure (offs.map (fun os => os.map (shelfPa t)))
  else
    let (as, fs) ← resolveSpans k l []
    match fs.find? (fun i => !i.cause.deferred) with
    | some i => throw (.fault i)
    | none => if fs = [] then pure as else throw (.pages (fs.take 64) (decide (64 < fs.length)))
/-- The address that names a range in a fault. -/
def spanVa (g : Group) (shf : Bool) (x : Span) : W64 := if shf then BitVec.ofNat 64 x.off else g.winVa x.win x.off
/-- Reads resolved ranges. -/
def readSpans (shf : Bool) : List (Span × List Nat) → Acc (List (List Byte))
  | [] => pure []
  | p :: t => do
    let b ← readEach (← curAgent) (spanVa (← getCur) shf p.1) p.2
    let r ← readSpans shf t
    pure (b :: r)
/-- Writes resolved ranges in order. -/
def writeSpans : List (List Nat × List Byte) → Acc Unit
  | [] => pure ()
  | p :: t => do
    writeEach (← curAgent) (p.1.zip p.2)
    writeSpans t

/-! The shared run (R275, R278) -/

/-- A thread of the group is masked off by divergence, or the group is inside a region (R148). -/
def Group.diverged (g : Group) : Bool := g.ln.inRegion || (g.ln.run ||| g.ln.exited) != BitVec.allOnes 64
/-- The sources of an instruction whose thread v gives an address word and parameter words. -/
def mxSrcs (a : Opnd) (ps : List Nat) (g : Group) (v : Nat) : Srcs :=
  { exec := 1#64 <<< v, a := g.srcReg a 0, sc := ps.map (fun w => BitVec.ofNat 64 w) }
/-- Parameter words of thread v (R276). -/
def paramWords (g : Group) (c : Opnd) (n v : Nat) : List Nat :=
  (List.range n).map (fun k => g.srcVal c n v / 2 ^ (32 * k) % 2 ^ 32)

/-- Runs an instruction of classes 6 and 7: guard in thread v, convergence, `pre` (the array's own conditions), operand
ranges, effect, pops (R275 to R278). `fields`: the operand fields of the operands. The effect checks, once nothing else stops it, that no
word of the operands it is given is uncorrectable (R278, R335). One whose words are logged is given only its tile at its replay; an
instruction is not logged with a word that could not be corrected (log 101). -/
def mxRun (i : Instr) (h : LHdr) (pre : Acc Unit) (fields : List Nat) (dst ops pops : List (Opnd × Nat)) (src : Group → Nat → Srcs)
    (body : (List (Opnd × Nat) → Acc Unit) → Srcs → Acc Unit) (s : State) : Out :=
  match s.cur.replaying true with
  | some l => replayAcc true l (fun x => do pre; body (fun o => needData (o.filter (fun y => y.1.isView))) x) s
  | none =>
  if h.never then .next (s.setCur s.cur.lpc1)
  else
    let g := s.cur.settle
    let s1 := s.setCur g
    let fin := finish true false s.cur.laneAddr (encodeLane i)
    match g.ln.lowest g.ln.act with
    | none => .next (s.setCur s.cur.lpc1)
    | some v =>
      if !bitOf (g.guardMask h) v then .next (s.setCur s.cur.lpc1)
      else if g.diverged then fin none s (.error (.fault { cause := .mxDiverged, here := true }) s1)
      else
        let x := src g v
        let late := g.badSrc (ops.filter (fun y => !y.1.isView))
        match (do pre; checkOps fields dst ops; body needData x; modifyCur (fun g => (g.popAll pops).lpc1) : Acc Unit).run s1 with
        | .error (.pages l m) s' =>
          if late then fin none s (.error (.fault { cause := .dataError, here := true }) s')
          else fin (some x) s (.error (.pages l m) (s'.setCur (s'.cur.popAll pops)))
        | .error .scrub s' =>
          if late then fin none s (.error (.fault { cause := .dataError, here := true }) s')
          else fin (some x) s (.error .scrub (s'.setCur (s'.cur.popAll pops)))
        | r => fin (some x) s r

/-! Tile loads and stores (R280, R281) -/

/-- The ranges of a tile's rows at an address word and pitch. -/
def rowSpans (d : W64) (win : BitVec 3) (a p : Nat) : List Span :=
  let pitch := if p % 2 ^ 20 = 0 then tdBytes d else p % 2 ^ 20
  (List.range (tdRows d)).map (fun m => { win := win, off := a + m * pitch, len := tdBytes d })
/-- The ranges of a `tld` or `tst`: the rows, then the scales. -/
def tileSpans (d : W64) (win swin : BitVec 3) (sc : Bool) (x : Srcs) : List Span :=
  rowSpans d win x.addr (x.s 0).toNat ++ (if sc then [{ win := swin, off := bitsOf (x.s 1) 0 32, len := 64 }] else [])
/-- The upper bits of the pitch word must be zero (R276, R280). -/
def checkPitch (x : Srcs) : Acc Unit := do if bitsOf (x.s 0) 20 12 ≠ 0 then raise .mxFormat

/-- R280. The load lands by TLD_LAND or before anything depends on it (log 12). -/
def tldBody (t : BitVec 4) (win swin : BitVec 3) (shf sc : Bool) (e : BitVec 5) (land : Acc Unit) (x : Srcs) : Acc Unit := do
  let d := (← getCur).rg.tdesc.getD t.toNat 0
  let sp := tileSpans d win swin sc x
  let as ← spanAddrs shf .read sp
  checkPitch x
  land
  let bs ← readSpans shf (sp.zip as)
  let e512 := BitVec.ofNat 512 (bytesToNat (bs.getD (tdRows d) []))
  if sc && scaleBad e512 then raise .scaleFormat
  else
    let p : PendTld := { tile := t, sc := sc, e := e, rows := (bs.take (tdRows d)).flatten, scales := e512 }
    modifyCur (fun g => { g with ln := { g.ln with tlds := g.ln.tlds ++ [p] } })
def execTld (h : LHdr) (t : BitVec 4) (a c : Opnd) (win swin : BitVec 3) (shf sc : Bool) (e : BitVec 5) (os : Order) (s : State) : Out :=
  let i : Instr := .tld h t a c win swin shf sc e os
  mxRun i h (pure ()) [1, 3] [(.tile t, 1)] [(a, 1), (c, 2)] [(a, 1)] (fun g v => mxSrcs a (paramWords g c 2 v) g v)
    (fun need => tldBody t win swin shf sc e (need [(a, 1), (c, 2)])) s

/-- Cuts a list into pieces of n. -/
def cutRows (n : Nat) : Nat → List Byte → List (List Byte)
  | 0, _ => []
  | k + 1, l => l.take n :: cutRows n k (l.drop n)
/-- R280. -/
def tstBody (t : BitVec 4) (win swin : BitVec 3) (shf sc : Bool) (land : Acc Unit) (x : Srcs) : Acc Unit := do
  let g ← getCur
  let d := g.rg.tdesc.getD t.toNat 0
  let as ← spanAddrs shf .write (tileSpans d win swin sc x)
  let tag := g.rg.etag.getD (tdSreg d).toNat 0
  if sc && !(tdBvalid d && tdBtag d == tag) then throw (.fault (staleInfo g.rg 2 t))
  else
    checkPitch x
    land
    if sc then needScale (tdSreg d)
    let e := g.rg.e.getD (tdSreg d).toNat 0
    writeSpans (as.zip (cutRows (tdBytes d) (tdRows d) (g.rg.tileBytes t.toNat) ++ [natToBytes 64 e.toNat]))
def execTst (h : LHdr) (t : BitVec 4) (a c : Opnd) (win swin : BitVec 3) (shf sc : Bool) (os : Order) (s : State) : Out :=
  mxRun (.tst h t a c win swin shf sc os) h (pure ()) [1, 2, 3] [] [(a, 1), (.tile t, 1), (c, 2)] [(a, 1)]
    (fun g v => mxSrcs a (paramWords g c 2 v) g v) (fun need => tstBody t win swin shf sc (need [(a, 1), (.tile t, 1), (c, 2)])) s

/-! The array: holder, freeze, token (R132, R145 to R147) -/

/-- The array of a group's core. -/
def State.mx (s : State) (gid : Gid) : MxArray := (s.core gid.core).mx
def State.setMx (s : State) (gid : Gid) (x : MxArray) : State := s.setCore gid.core { s.core gid.core with mx := x }
/-- The array of the current group's core. -/
def getMx : Acc MxArray := do let s ← get; pure (s.mx s.curG)
def modifyMx (f : MxArray → MxArray) : Acc Unit := modify (fun s => s.setMx s.curG (f (s.mx s.curG)))

/-- System code of the holder's partition (R146). -/
def State.systemOfHolder (s : State) (gid : Gid) : Bool :=
  match (s.mx gid).holder with
  | some h => (s.group gid).priv && (s.group (Gid.of gid.core h)).part == (s.group gid).part
  | none => false

/-- The waiting group that takes an array without a holder: a boosted one, else the highest class, the earliest first (R309,
R311). -/
def State.arrayNext (s : State) (core : BitVec 10) : Option (BitVec 6) :=
  let grp := fun (k : BitVec 6) => s.group (Gid.of core k)
  let l := (s.core core).mx.line.filter (fun k => (grp k).live && !(grp k).h.halted)
  match l.find? (fun k => (grp k).ln.boost) with
  | some k => some k
  | none => l.foldl (fun b k => match b with
      | none => some k
      | some x => if (grp x).cls.ult (grp k).cls then some k else some x) none
/-- A group joins, or leaves, the line of those that wait for the array (R311). -/
def MxArray.join (x : MxArray) (k : BitVec 6) : MxArray := if x.line.contains k then x else { x with line := x.line ++ [k] }
def MxArray.leave (x : MxArray) (k : BitVec 6) : MxArray := if x.line.contains k then { x with line := x.line.filter (· != k) } else x
/-- The class of an array's request: the highest of the groups that wait with it, as it is now (R311). -/
def State.reqClass (s : State) (core : BitVec 10) : BitVec 2 :=
  (s.core core).mx.reqs.foldl (fun m k =>
    let g := s.group (Gid.of core k)
    if g.live && !g.h.halted && m.ult g.cls then g.cls else m) 0
/-- An array's request for a token stands in its die's queue, with the groups that wait for it (R311). -/
def State.requestToken (s : State) (gid : Gid) : State :=
  let x := s.mx gid
  let x := if x.reqs.contains gid.slot then x else { x with reqs := x.reqs ++ [gid.slot] }
  let d := s.die gid.die
  if x.waiting then s.setMx gid x
  else (s.setDie gid.die { d with tokQ := d.tokQ.filter (fun c => c != gid.core) ++ [gid.core] }).setMx gid
    { x with waiting := true, passed := 0 }
/-- The request that a free token serves: one passed over by 64 grants, else the highest class, the earliest first (R311). -/
def tokenNext (s : State) (d : BitVec 3) : Option (BitVec 10) :=
  let l := (s.die d).tokQ.filter (fun c => (s.core c).mx.waiting)
  match l.find? (fun c => decide (64 ≤ (s.core c).mx.passed.toNat)) with
  | some c => some c
  | none => l.foldl (fun b c => match b with
      | none => some c
      | some k => if (s.reqClass k).ult (s.reqClass c) then some c else some k) none
/-- A request that another has been served before. -/
def MxArray.passOver (x : MxArray) : MxArray := { x with passed := if x.passed = 127 then 127 else x.passed + 1 }
/-- A free token goes to an array; every other request has been passed over once more (R311). -/
def State.grantToken (s : State) (core : BitVec 10) : State :=
  let d : BitVec 3 := core.extractLsb' 7 3
  let rest := (s.die d).tokQ.filter (fun k => k != core && (s.core k).mx.waiting)
  let s1 := rest.foldl (fun s k => s.setCore k { s.core k with mx := (s.core k).mx.passOver }) s
  let s2 := s1.setDie d { s1.die d with tokQ := rest, pool := (s1.die d).pool - 1 }
  s2.setCore core { s2.core core with mx := { (s2.core core).mx with token := true, waiting := false, reqs := [] } }
/-- The array holds a token, or the next free one is its own if it asks now (R145, R311). -/
def State.tokenReady (s : State) (gid : Gid) : Bool :=
  (s.mx gid).token || ((s.die gid.die).pool != 0 && tokenNext (s.requestToken gid) gid.die == some gid.core)
/-- R145: an array that gets no token waits for one. -/
def mxToken : Acc Unit := do
  let s ← get
  if s.tokenReady s.curG then pure ()
  else do
    modify (fun s => s.requestToken s.curG)
    notReady
/-- R132, R146, R311: another group waits while the array has a holder, and for those that come before it; a frozen array executes
only what `frozenOk` allows; the holder's own loop or drain is `mxOwn`'s. A group that waits for a token as well, `tok`, stays in the
line. -/
def mxReady (frozenOk tok : Bool) : Acc Unit := do
  let s ← get
  let me := s.curG.slot
  let x := s.mx s.curG
  match x.holder with
  | none =>
    let s1 := s.setMx s.curG (x.join me)
    if x.outQ = [] ∧ s1.arrayNext s.curG.core = some me then
      if tok && !s.tokenReady s.curG then set s1
      else if x.line.contains me then set (s.setMx s.curG (x.leave me)) else pure ()
    else do set s1; notReady
  | some h =>
    if h = me ∨ (x.mode = .frozen ∧ s.systemOfHolder s.curG = true) then
      if x.mode = .frozen ∧ frozenOk = false then raise .arrayFrozen
    else do
      set (s.setMx s.curG (x.join me))
      notReady
/-- The array takes a token if it holds none (R145). -/
def State.takeToken (s : State) (gid : Gid) : State :=
  if (s.mx gid).token then s.setMx gid { s.mx gid with waiting := false, reqs := [] }
  else if (s.die gid.die).pool = 0 then s
  else s.grantToken gid.core
/-- The idle array returns its token (R145). -/
def State.giveToken (s : State) (gid : Gid) : State :=
  let x := s.mx gid
  let d := s.die gid.die
  if x.token then (s.setDie gid.die { d with pool := d.pool + 1 }).setMx gid { x with token := false, passed := 0, reqs := [] }
  else s
/-- The issuing group becomes the holder of an array without one (R132). -/
def mxClaim : Acc Unit := modify (fun s => s.setMx s.curG { s.mx s.curG with holder := some s.curG.slot })
/-- The holder is cleared: a later holder has latched no buffer, and no loop is left to resume (R132, R146, R284). Chains that
are live stay live, and the next holder meets them; a recorded error that nothing has raised is dropped (R147; DESIGN CHOICE, log 82). -/
def MxArray.release (x : MxArray) : MxArray :=
  { x with holder := none, mode := .idle, buf0 := { x.buf0 with latched := false }, buf1 := { x.buf1 with latched := false },
           loop := none, err := none }
/-- An instruction of the array that waits for its group's own loop or drain is issued again (R275; log 104). -/
def State.wakeArray (s : State) (gid : Gid) : State :=
  let g := s.group gid
  if g.live && g.llog.any OpLog.scrub then s.setGroup gid { g with llog := g.llog.map OpLog.woken } else s
/-- The array resumes with its holder (R146, R288). -/
def State.thawArray (s : State) (gid : Gid) : State :=
  let x := s.mx gid
  if s.holds gid ∧ x.mode = .frozen then
    let going := match x.loop with | some l => decide (l.done < l.steps) | none => false
    s.setMx gid { x with mode := if going then .running else .idle }
  else s

/-- A recorded error of the array is raised at the holder's next matrix instruction that has an effect (R147, R275): at the trap point
it comes before any other fault. -/
def mxErrFirst : Acc Unit := do
  let s ← get
  match s.mxErrOf s.curG with
  | some (k, _) => throw (.fault (mxErrInfo k))
  | none => pure ()

/-! Pairings and shapes (R134, R135, R142) -/

/-- N of a sparsity code; 0 is dense. -/
def spN (sp : BitVec 2) : Nat := if sp = 1 then 8 else if sp = 2 then 12 else if sp = 3 then 16 else 0
/-- The chain kind of a pairing, true for grouped (R134). -/
def pairKind (w a : LTy) : Option Bool :=
  if (w.isFp8 && a.isFp8) || (w.isInt48 && a.isInt48) then some false
  else if (w.isFp16 && (a.isFp16 || a.isFp8)) || (w.isFp8 && a.isFp16) then some true
  else none
/-- Runs of 24 positions in a sparse step (R134). -/
def stepG (w a : LTy) (n : Nat) : Nat := min (3072 / (w.width * n)) (6144 / (a.width * 24))
/-- K of a step (R134). -/
def stepK (w a : LTy) (sp : BitVec 2) : Nat :=
  if sp = 0 then 3072 / max w.width a.width else 24 * stepG w a (spN sp)
/-- Bytes of a weight row (R135). -/
def wLen (w a : LTy) (sp : BitVec 2) : Nat :=
  if sp = 0 then stepK w a sp * w.width / 8 else stepG w a (spN sp) * spN sp * w.width / 8
/-- Bytes of an activation row (R135). -/
def aLen (w a : LTy) (sp : BitVec 2) : Nat := stepK w a sp * a.width / 8
/-- The formats that stream into the array. -/
def streamTys : List LTy := [.f16, .bf16, .e5m2, .e4m3, .e2m1, .i8, .i4]
/-- A weight row length that some pairing of W gives (R135). -/
def wLenOk (w : LTy) (sp : BitVec 2) (l : Nat) : Bool := streamTys.any (fun a => (pairKind w a).isSome && wLen w a sp == l)
/-- G of a latched row length (R135). -/
def lenG (w : LTy) (sp : BitVec 2) (l : Nat) : Nat := l * 8 / (spN sp * w.width)
/-- A mask tile of `ncols` rows of 4 G bytes, INT32 and unscaled (R135). -/
def maskShape (d : W64) (ncols g : Nat) : Bool :=
  tdRows d == ncols && tdBytes d == 4 * g && tdFmt d == 6 && !tdScaled d
/-- Every word of masks has N bits set, all in 23:0 (R142). -/
def masksOk (n : Nat) : List Byte → Bool
  | a :: b :: c :: d :: t => d == 0 && oneBits (bytesToNat [a, b, c]) 24 == n && masksOk n t
  | _ => true
/-- Masks in register space are good; a word that could not be corrected is not looked at (R142, R335). -/
def RegSpace.masksOk (r : RegSpace) (n a len : Nat) : Bool :=
  (List.range (len / 4)).all (fun i => r.badIn (a + 4 * i) 4 || Machine.masksOk n (r.bytes (a + 4 * i) 4))
/-- Rows of L bytes as words, each from its own place. -/
def rowTable {w : Nat} (l n : Nat) (bs : List Byte) : Sparse w :=
  ((cutRows l n bs).zip (List.range n)).foldl (fun m p => Sparse.set m p.2 (BitVec.ofNat w (bytesToNat p.1))) []

/-- Latches a weight buffer (R136). -/
def latch (fmt : BitVec 4) (sp : BitVec 2) (ncols l : Nat) (ws ms : List Byte) (e : BitVec 512) : WBuf :=
  { latched := true, fmt := fmt, sparse := sp, ncols := ncols, rowLen := l, data := rowTable l ncols ws,
    masks := if sp = 0 then [] else rowTable (ms.length / ncols) ncols ms, scales := e }
def MxArray.actBuf (x : MxArray) : WBuf := if x.act then x.buf1 else x.buf0
def MxArray.setBuf (x : MxArray) (one : Bool) (b : WBuf) : MxArray := if one then { x with buf1 := b } else { x with buf0 := b }

/-! Chains (R128 to R131, R151) -/

/-- A chain's state, and a chain from its state, kind and value; one that is not finite computes no value (R130, R151). -/
def chainSt (c : BitVec 128) : BitVec 2 := c.extractLsb' 126 2
def packChain (st : BitVec 2) (k : Bool) (v : BitVec 112) : BitVec 128 := st ++ bit k ++ 0#13 ++ (if st = 0 then v else 0)
/-- The state after one product (R130). -/
def stateAdd (st : BitVec 2) (p : FVal) : BitVec 2 :=
  match p with
  | .nan => 3
  | .inf n => let x : BitVec 2 := if n then 2 else 1
              if st = 0 ∨ st = x then x else 3
  | _ => st
/-- The chain's value of the record's kind: m * 2^e. -/
def chainVal (grouped : Bool) (c : BitVec 128) : Int × Int :=
  if grouped then
    let sg : Nat := bitsOf c 16 48
    (if bitOf c 64 then -(sg : Int) else sg, (c.extractLsb' 96 16).toInt)
  else ((c.extractLsb' 0 112).toInt, -32)
/-- An exact chain plus products (R128). -/
def addExact (c : BitVec 128) (ps : List FVal) : BitVec 128 :=
  packChain (ps.foldl stateAdd (chainSt c)) false (BitVec.ofInt 112 (ps.foldl (fun v p => match p with
    | .fin m e => v + shiftFloor m (e + 32)
    | _ => v) (c.extractLsb' 0 112).toInt))
/-- The partial of a group as m * 2^e (R129). -/
def groupSum (ps : List FVal) : Int × Int :=
  let big := ps.foldl (fun (b : Option Int) p => match p, b with
    | .fin m e, none => some (flog2 m e)
    | .fin m e, some x => some (max x (flog2 m e))
    | _, b => b) none
  match big with
  | none => (0, 0)
  | some e0 =>
    let u := e0 - 48
    (ps.foldl (fun q p => match p with
      | .fin m e => q + (if u ≤ e then m * 2 ^ (e - u).toNat else m.tdiv (2 ^ (u - e).toNat))
      | _ => q) 0, u)
/-- The value field of m * 2^e kept to 48 significant bits toward zero (R129, R151; log 23). -/
def packGroup (m e : Int) : BitVec 112 :=
  if m = 0 then 0
  else
    let a := m.natAbs
    let l := Nat.log2 a
    let sg : Nat := if 47 < l then a / 2 ^ (l - 47) else a * 2 ^ (47 - l)
    BitVec.ofInt 16 (e + l - 47) ++ 0#31 ++ bit (decide (m < 0)) ++ BitVec.ofNat 48 sg ++ 0#16
/-- A grouped chain plus a partial (R129). -/
def addPartial (v p : Int × Int) : Int × Int :=
  let g := min v.2 p.2
  if p.1 = 0 then v else if v.1 = 0 then p
  else (v.1 * 2 ^ (v.2 - g).toNat + p.1 * 2 ^ (p.2 - g).toNat, g)
/-- A grouped chain plus the products of a step, in groups of 32; `n` bounds the groups (R129). -/
def addGroups : Nat → BitVec 112 → List FVal → BitVec 112
  | 0, v, _ => v
  | n + 1, v, ps =>
    if ps = [] then v
    else
      let r := addPartial (chainVal true (0#16 ++ v)) (groupSum (ps.take 32))
      addGroups n (packGroup r.1 r.2) (ps.drop 32)
def addGrouped (c : BitVec 128) (ps : List FVal) : BitVec 128 :=
  packChain (ps.foldl stateAdd (chainSt c)) true (addGroups ((ps.length + 31) / 32) (c.extractLsb' 0 112) ps)

/-- The special value of an entry (R116). -/
def entryH (e : BitVec 512) (i : Nat) : Int := ((scaleEntry e i).extractLsb' 8 6).toInt
/-- The K positions that a column keeps (R142). -/
def WBuf.kept (b : WBuf) (n k : Nat) : List Nat :=
  if b.sparse = 0 then List.range k
  else
    let ms := Sparse.get b.masks n
    (List.range k).filter (fun p => bitOf ms (32 * (p / 24) + p % 24))
/-- The products of a row of activations with a column, in K order (R128, R142). -/
def products (b : WBuf) (a : LTy) (ha : Int) (row n k : Nat) : List FVal :=
  let w := LTy.ofCode b.fmt
  let ks := b.kept n k
  let col := (Sparse.get b.data n).toNat
  ((List.range ks.length).zip ks).map (fun p =>
    FVal.mul (decodeElem w (entryH b.scales n) (elemOf w.width col p.1)) (decodeElem a ha (elemOf a.width row p.2)))
/-- One step: every chain of the loop's M rows and `ncols` columns takes its products (R139). -/
def MxArray.accumulate (x : MxArray) (a : LTy) (ea : BitVec 512) (rows : List Nat) (m k : Nat) : MxArray :=
  let b := x.actBuf
  { x with chains := (List.range m).foldl (fun cs m => (List.range b.ncols).foldl (fun cs n =>
      let ps := products b a (entryH ea m) (rows.getD m 0) n k
      let old := Sparse.get cs (32 * m + n)
      Sparse.set cs (32 * m + n) (if x.kind then addGrouped old ps else addExact old ps)) cs) x.chains }

/-- The drained value of output (m, n) (R131). -/
def drainVal (x : MxArray) (ea eb : BitVec 512) (m n : Nat) : FVal :=
  let a := bitsOf (scaleEntry ea m) 0 8
  let b := bitsOf (scaleEntry eb n) 0 8
  let c := Sparse.get x.chains (32 * m + n)
  let v := chainVal (bitOf c 125) c
  if a = 255 ∨ b = 255 ∨ chainSt c = 3 then .nan
  else if chainSt c = 1 then .inf false
  else if chainSt c = 2 then .inf true
  else mkVal v.1 (v.2 + (a - 127) + (b - 127))
/-- The rounding of output (m, n) of a group's drain (R124). -/
def drainCtx (g : Group) (seed : W64) (r : Rnd) (sat : Bool) (m n : Nat) : RndCtx :=
  { rnd := r, sat := sat, seed := seed,
    key := rsKey g.block (1024 + BitVec.ofNat 11 g.gidx.toNat) (BitVec.ofNat 10 (32 * m + n)) g.ln.drainRs }
/-- Old + v in an accumulator: an exact zero is +0, but -0 where the old value is -0 and v is 0 (R131). -/
def accSum (c : RndCtx) (old : W32) (v : FVal) : Nat :=
  let o := f32val old
  let r := match FVal.add false o v with
    | .zero _ => .zero (o == .zero true && v.isZero)
    | y => y
  roundArith c .f32 r
/-- Rows of an accumulator (R96). -/
def accRows (r : RegSpace) : Nat := bitsOf r.aview 35 5 + 1
/-- Every chain added to an accumulator (R131, R139, R285). -/
def Group.drainAcc (g : Group) (x : MxArray) (ea eb : BitVec 512) (acc : Nat) (r : Rnd) (seed : W64) : Group :=
  let lo := (g.rg.accSpan acc).1
  { g with rg := (List.range (min x.m (accRows g.rg))).foldl (fun rg m => (List.range x.ncols).foldl (fun rg n =>
      let p := lo + 128 * m + 4 * n
      rg.setBytes p (natToBytes 4 (accSum (drainCtx g seed r false m n) (BitVec.ofNat 32 (bytesToNat (rg.bytes p 4)))
        (drainVal x ea eb m n)))) rg) g.rg }
/-- Row m of a narrow drain as packed elements (R112, R131). -/
def drainRow (g : Group) (x : MxArray) (ty : LTy) (r : Rnd) (sat : Bool) (seed : W64) (m : Nat) : Nat :=
  packNat ty.width (fun n => roundFmt (drainCtx g seed r sat m n) ty (drainVal x x.ea x.eb m n)) x.ncols
/-- Every chain into a tile; the tile's other bits are unchanged (R285). -/
def Group.drainTile (g : Group) (x : MxArray) (t : Nat) (r : Rnd) (sat : Bool) (seed : W64) : Group :=
  let d := g.rg.tdesc.getD t 0
  let ty := LTy.ofCode (tdFmt d)
  let w := ty.width * x.ncols
  { g with rg := (List.range x.m).foldl (fun rg m =>
      let p := (g.rg.tileSpan t).1 + m * tdBytes d
      let old := bytesToNat (rg.bytes p (tdBytes d))
      rg.setBytes p (natToBytes (tdBytes d) (old / 2 ^ w * 2 ^ w + drainRow g x ty r sat seed m))) g.rg }
/-- A row of the port: whole 64-byte flits (R144). -/
def portRow (g : Group) (x : MxArray) (ty : LTy) (r : Rnd) (sat : Bool) (seed : W64) (m : Nat) : List Byte :=
  natToBytes ((ty.width * x.ncols + 511) / 512 * 64) (drainRow g x ty r sat seed m)
/-- One more drain of the group under `.rs` (R125). -/
def Group.countDrain (g : Group) (r : Rnd) : Group :=
  if r == .rs then { g with ln := { g.ln with drainRs := g.ln.drainRs + 1 } } else g
/-- Chains cleared (R138). -/
def MxArray.clearChains (x : MxArray) : MxArray := { x with chains := [], live := false }

/-- `.fin` clears the holder (R132). -/
def finish132 (fin : Bool) (x : MxArray) : MxArray := if fin then x.release else x

/-! What an instruction meets once its group's own loop or drain has ended (R275; log 104) -/

/-- Finite zero of a chain kind (R151). -/
def kindZero (kind : Bool) : BitVec 128 := packChain 0 kind 0
/-- Chain i lies within a record of m rows and n columns. -/
def inRecord (m n i : Nat) : Bool := decide (i / 32 < m ∧ i % 32 < n)
/-- A live record widened; the chains it takes in hold zero of its kind. -/
def MxArray.widen (x : MxArray) (m n : Nat) : MxArray :=
  { x with m := m, ncols := n,
           chains := (List.range 1024).foldl (fun cs i =>
             if inRecord m n i && !inRecord x.m x.ncols i then Sparse.set cs i (kindZero x.kind) else cs) x.chains }
/-- The record as a step finds it: a chain's first step makes it. A `.dstep` loop of another shape meets a live chain's record
widened to hold both (DESIGN CHOICE, log 21). -/
def MxArray.record (x : MxArray) (l : Loop) (kind : Bool) (m : Nat) (ea : BitVec 512) : MxArray :=
  let b := x.actBuf
  if !x.live then { x with live := true, kind := kind, m := m, ncols := b.ncols, ea := ea, eb := b.scales, chains := [] }
  else if l.dstep then x.widen (max x.m m) (max x.ncols b.ncols) else x
/-- The scale register of step s under `.dstep` (R284). -/
def stepScales (r : RegSpace) (d : W64) (inc : BitVec 5) (s : Nat) : BitVec 512 :=
  if tdScaled d then r.e.getD (((tdSreg d).toNat + s * inc.toNat) % 32) 0 else unitScales
/-- Bytes of an activation step of a loop: M rows of L. -/
def aBytes (d : W64) : Nat := tdRows d * tdBytes d
/-- Register space as a loop sees it: the bytes as they stand, the views and the scale registers as at the `mloop`'s place
(R137, R139, R141). -/
def Loop.regs (l : Loop) (r : RegSpace) : RegSpace := { r with tview := l.tview, aview := l.aview, e := l.es, ebad := l.ebad }
/-- Step k reloads the buffer that does not compute (R139). -/
def Loop.reloadsAt (l : Loop) (k : Nat) : Bool := l.reload && decide (k + 1 < l.steps)
/-- The scales that the reload of step k latches (R139, R284). -/
def Loop.scalesAt (l : Loop) (r : RegSpace) (x : MxArray) (k : Nat) : BitVec 512 :=
  if l.dstep then stepScales r l.wDesc l.incEb (k + 1) else x.actBuf.scales
/-- The record once step k has its buffers (R138, R139, R284). -/
def Loop.recordAt (l : Loop) (r : RegSpace) (x : MxArray) (k : Nat) : MxArray :=
  let b := x.actBuf
  let w := LTy.ofCode b.fmt
  let a := LTy.ofCode (tdFmt l.aDesc)
  x.record l ((pairKind w a).getD false) (aBytes l.aDesc / aLen w a b.sparse) (stepScales r l.aDesc (if l.dstep then l.incEa else 0) k)
/-- The array with its loop past a step: a `.dstep` step has drained the chains, and a reload has swapped the buffers (R138, R139). -/
def MxArray.past (x : MxArray) (l : Loop) : MxArray :=
  { (if l.dstep then x.clearChains else x) with
      act := if l.reload then !x.act else x.act, loop := some { l with done := l.done + 1 },
      mode := if l.done + 1 < l.steps then .running else .idle }
/-- The array's shape, scales and record n steps on, whatever the bytes that they add. -/
def MxArray.stepsOn (x : MxArray) (r : RegSpace) : Nat → MxArray
  | 0 => x
  | n + 1 =>
    match x.loop with
    | none => x
    | some l =>
      let x1 := if l.reloadsAt l.done then x.setBuf (!x.act) { x.actBuf with scales := l.scalesAt (l.regs r) x l.done } else x
      ((l.recordAt (l.regs r) x1 l.done).past l).stepsOn r n
/-- The array as its holder's loop or drain will leave it. -/
def MxArray.ahead (x : MxArray) (r : RegSpace) : MxArray :=
  let y := match x.mode, x.loop with | .running, some l => x.stepsOn r (l.steps - l.done) | _, _ => x
  { finish132 x.outFin y with outQ := [], outFin := false }
/-- The current group holds the array, and its loop runs or its drain is in flight. -/
def State.ownBusy (s : State) : Bool :=
  let x := s.mx s.curG
  s.holds s.curG && (x.mode == .running || (x.mode == .idle && x.outQ != []))
/-- The array of the core runs a loop of this group. -/
def State.loopRuns (s : State) (gid : Gid) : Bool := s.holds gid && (s.mx gid).mode == .running
/-- The group's running loop has shelf reads left (R140). -/
def State.loopReads (s : State) (gid : Gid) : Bool :=
  match (s.mx gid).loop with
  | some l => s.loopRuns gid && decide (l.done < l.steps) && (l.aShf.isSome || (l.wShf.isSome && l.reloadsAt l.done))
  | none => false
/-- An instruction of the array that finds its group's own loop or drain under way enters the operand log and waits there, and what
follows it goes on (R144, R275; DESIGN CHOICE, log 104). It faults at its place where it would fault once that has ended (R316). -/
def mxOwn (body : Acc Unit) : Acc Unit := fun s =>
  if s.ownBusy then
    match body (s.setMx s.curG ((s.mx s.curG).ahead s.cur.rg)) with
    | .ok _ _ => .error .scrub s
    | .error e _ => .error e s
  else body s
/-- Runs an instruction of the array: a recorded error first (R147), then as `mxRun`. -/
def mxArr (i : Instr) (h : LHdr) (pre : Acc Unit) (fields : List Nat) (dst ops pops : List (Opnd × Nat)) (src : Group → Nat → Srcs)
    (body : (List (Opnd × Nat) → Acc Unit) → Srcs → Acc Unit) (s : State) : Out :=
  mxRun i h (do mxErrFirst; pre) fields dst ops pops src (fun need x => mxOwn (body need x)) s

/-! `mload` (R135, R136, R282) -/

/-- The weight stream's bytes: the tile, or the shelf from an offset (R135). -/
def streamBytes (shf : Bool) (t : BitVec 4) (o : Nat) : Acc (List Byte) := do
  let s ← get
  if shf then shelfBytes s.curG o (s.cur.rg.tileSpan t.toNat).2 else pure (s.cur.rg.tileBytes t.toNat)
def mloadBody (t m : BitVec 4) (shf : Bool) (sp : BitVec 2) (land : Acc Unit) (x : Srcs) : Acc Unit := do
  let s ← get
  let r := s.cur.rg
  let d := r.tdesc.getD t.toNat 0
  let w := LTy.ofCode (tdFmt d)
  let n := tdRows d
  if shf then
    let _ ← shelfTable s.curG ((List.range (r.tileSpan t.toNat).2).map (x.addr + ·)) []
  let e ← needBinding t
  if 32 < n ∨ wLenOk w sp (tdBytes d) = false then raise .mxFormat
  else if sp ≠ 0 ∧ maskShape (r.tdesc.getD m.toNat 0) n (lenG w sp (tdBytes d)) = false then raise .mxFormat
  else
    let ms := if sp = 0 then [] else r.tileBytes m.toNat
    if sp ≠ 0 ∧ r.masksOk (spN sp) (r.tileSpan m.toNat).1 (r.tileSpan m.toNat).2 = false then raise .sparseMask
    else do
      land
      needEntries t
      let ws ← streamBytes shf t x.addr
      mxClaim
      modify (fun s => s.takeToken s.curG)
      modifyMx (fun x => { x.setBuf (!x.act) (latch (tdFmt d) sp n (tdBytes d) ws ms e) with act := !x.act })
      modify (fun s => s.giveToken s.curG)
def execMload (h : LHdr) (t m : BitVec 4) (c : Opnd) (shf : Bool) (sp : BitVec 2) (s : State) : Out :=
  let ops := (if shf then [] else [(.tile t, 1)]) ++ (if sp = 0 then [] else [(.tile m, 1)]) ++ (if shf then [(c, 1)] else [])
  mxArr (.mload h t m c shf sp) h (do mxReady false true; mxToken)
    ((if shf then [] else [1]) ++ (if sp = 0 then [] else [2]) ++ [3]) [] ops (if shf then [(c, 1)] else [])
    (mxSrcs c []) (fun need => mloadBody t m shf sp (need ops)) s

/-! `mloop` (R138 to R141, R283, R284) -/

/-- An increment in bytes. -/
def incBytes (i : BitVec 12) : Int := 16 * i.toInt
/-- The first byte of a stream's step s: from the view's base, or from the shelf offset (R139, R140). -/
def streamAt (r : RegSpace) (d : W64) (shf : Option W32) (delta : Int) : Int :=
  (match shf with | some o => (o.toNat : Int) | none => ((bitsOf r.tview 0 17 + tdOff d : Nat) : Int)) + delta
/-- Every byte of every step lies in the declared space; a stream advances evenly (R140). -/
def stepsInRange (r : RegSpace) (d : W64) (n : Nat) (inc : Int) (steps : Nat) : Bool :=
  let a := streamAt r d none 0
  let b := streamAt r d none (inc * (steps - 1 : Nat))
  decide (0 ≤ a ∧ 0 ≤ b ∧ a + n ≤ r.declared.toNat ∧ b + n ≤ r.declared.toNat)
/-- Every shelf offset of every step resolves (R140). -/
def shelfSteps (gid : Gid) (o n : Nat) (inc : Int) : List Nat → List (Nat × Nat) → Acc Unit
  | [], _ => pure ()
  | s :: l, t => do
    let a := (o : Int) + inc * s
    if a < 0 then raiseAt .shelfRange (BitVec.ofInt 64 a)
    else
      let t1 ← shelfTable gid ((List.range n).map (a.toNat + ·)) t
      shelfSteps gid o n inc l t1
/-- Activation rows: M of one tile row each, or of two where L is above 512 (R135). -/
def actRows (d : W64) (l : Nat) : Option Nat :=
  if l ≤ 512 then (if tdBytes d = l ∧ tdRows d ≤ 32 then some (tdRows d) else none)
  else if tdBytes d * 2 = l ∧ tdRows d % 2 = 0 then some (tdRows d / 2)
  else none
/-- The bytes of one step of a stream (R139, R140). -/
def stepBytes (gid : Gid) (r : RegSpace) (d : W64) (shf : Option W32) (delta : Int) (n : Nat) : Acc (List Byte) :=
  let a := (streamAt r d shf delta).toNat
  match shf with
  | some _ => shelfBytes gid a n
  | none => if r.badIn a n then raise .dataError else pure (r.bytes a n)
/-- The masks of the reloads of steps 1 to S - 1 are good (R142). -/
def reloadMasksOk (r : RegSpace) (d : W64) (ncols g n steps : Nat) : Bool :=
  (List.range (steps - 1)).all (fun s =>
    r.masksOk n (streamAt r d none ((s + 1 : Nat) * (ncols * 4 * g : Nat))).toNat (ncols * 4 * g))

/-- A register-space stream of a loop lies in the declared space at every step (R140). -/
def needRange (r : RegSpace) (field : Nat) (t : BitVec 4) (d : W64) (inc : Int) (steps : Nat) : Acc Unit := do
  if !stepsInRange r d (aBytes d) inc steps then rangeOf field (.tile t)
/-- The bytes by which a reload's masks advance: ncols rows of 4 G of the active buffer (R139). -/
def maskStep (b : WBuf) : Nat := b.ncols * (4 * lenG (LTy.ofCode b.fmt) b.sparse b.rowLen)
/-- Ranges and shelf offsets of a loop (R140). A record names the mask tile, which xf names, as field 4 (DEDUCED, log 63). -/
def loopRanges (l : Loop) : Acc Unit := do
  let s ← get
  let r := s.cur.rg
  if l.aShf = none then needRange r 1 l.aTile l.aDesc (incBytes l.incA) l.steps
  if l.reload ∧ l.wShf = none then needRange r 2 l.wTile l.wDesc (incBytes l.incW) l.steps
  if l.reload ∧ l.sp ≠ 0 then needRange r 4 l.mTile l.mDesc (maskStep (s.mx s.curG).actBuf : Int) l.steps
  match l.aShf with
  | some o => shelfSteps s.curG o.toNat (aBytes l.aDesc) (incBytes l.incA) (List.range l.steps) []
  | none => pure ()
  match l.reload, l.wShf with
  | true, some o => shelfSteps s.curG o.toNat (aBytes l.wDesc) (incBytes l.incW) ((List.range l.steps).drop 1) []
  | _, _ => pure ()
/-- The loop's pairing, M and chain kind, or nothing where a condition of `mx_format` holds (R134, R135, R284). -/
def loopShape (r : RegSpace) (x : MxArray) (l : Loop) (ps : List Nat) : Option (Nat × Bool) :=
  let b := x.actBuf
  let w := LTy.ofCode b.fmt
  let a := LTy.ofCode (tdFmt l.aDesc)
  let p := fun (i : Nat) => ps.getD i 0
  let g := lenG w b.sparse b.rowLen
  if p 0 / 2 ^ 29 ≠ 0 ∨ p 1 / 2 ^ 5 ≠ 0 ∨ p 2 / 2 ^ 20 ≠ 0 ∨ p 3 / 2 ^ 20 ≠ 0 ∨ b.latched = false then none
  else match pairKind w a, actRows l.aDesc (aLen w a b.sparse) with
    | some k, some m =>
      if wLen w a b.sparse ≠ b.rowLen ∨ (l.dstep = true ∧ accRows r < m) then none
      else if l.reload = true ∧ (tdFmt l.wDesc ≠ b.fmt ∨ tdRows l.wDesc ≠ b.ncols ∨ tdBytes l.wDesc ≠ b.rowLen ∨ l.sp ≠ b.sparse ∨
        (l.sp ≠ 0 ∧ maskShape l.mDesc b.ncols g = false)) then none
      else some (m, k)
    | _, _ => none

/-- R284. -/
def mloopBody (l : Loop) (land : Acc Unit) (x : Srcs) : Acc Unit := do
  let s ← get
  let r := s.cur.rg
  let ps := x.sc.map BitVec.toNat
  loopRanges l
  let ea ← needBinding l.aTile
  let y := s.mx s.curG
  match loopShape r y l ps with
  | none => raise .mxFormat
  | some (m, k) =>
    let b := y.actBuf
    let w := LTy.ofCode b.fmt
    if l.reload ∧ l.sp ≠ 0 ∧ reloadMasksOk r l.mDesc b.ncols (lenG w b.sparse b.rowLen) (spN l.sp) l.steps = false then
      raise .sparseMask
    else if l.dstep = false ∧ y.live ∧ (y.m ≠ m ∨ y.ncols ≠ b.ncols ∨ y.kind ≠ k ∨ y.ea ≠ ea ∨ y.eb ≠ b.scales) then
      raise .chainMismatch
    else do
      land
      mxClaim
      modify (fun s => s.takeToken s.curG)
      modifyMx (fun y => { y with loop := some l, mode := .running })
/-- The loop of an `mloop` at an address, with operands `x` (R283). -/
def mloopOf (g : RegSpace) (addr : W64) (acc a : BitVec 4) (rl : Bool) (w : BitVec 4) (dstep sa sw : Bool) (sp : BitVec 2) (mt : BitVec 4)
    (steps : BitVec 12) (r : Rnd) (x : Srcs) (i : Instr) : Loop :=
  let td := fun (t : BitVec 4) => g.tdesc.getD t.toNat 0
  { addr := addr, word := encodeLane i, steps := steps.toNat + 1, done := 0, aDesc := td a, aTile := a,
    aShf := if sa then some ((x.s 2).extractLsb' 0 20 |>.setWidth 32) else none, reload := rl, wDesc := if rl then td w else 0,
    wTile := w, wShf := if rl && sw then some ((x.s 3).extractLsb' 0 20 |>.setWidth 32) else none,
    mDesc := if rl && sp != 0 then td mt else 0, mTile := mt, sp := sp, incA := (x.s 0).extractLsb' 0 12,
    incW := (x.s 0).extractLsb' 12 12, incEa := (x.s 0).extractLsb' 24 5, incEb := (x.s 1).extractLsb' 0 5,
    dstep := dstep, acc := acc, rnd := r, es := g.e, ebad := g.ebad, tview := g.tview, aview := g.aview }
def execMloop (h : LHdr) (acc a : BitVec 4) (rl : Bool) (w : BitVec 4) (c : Opnd) (dstep sa sw : Bool) (sp : BitVec 2)
    (mt : BitVec 4) (steps : BitVec 12) (r : Rnd) (s : State) : Out :=
  let i : Instr := .mloop h acc a rl w c dstep sa sw sp mt steps r
  let at0 := match s.cur.replaying true with | some l => l.addr | none => s.cur.laneAddr
  mxArr i h (do mxReady false true; mxToken)
    ((if sa then [] else [1]) ++ (if rl && !sw then [2] else []) ++ (if rl && sp != 0 then [4] else []) ++ [3])
    (if dstep then [(.acc acc, 1)] else [])
    ((if sa then [] else [(.tile a, 1)]) ++ (if rl && !sw then [(.tile w, 1)] else []) ++
      (if rl && sp != 0 then [(.tile mt, 1)] else []) ++ [(c, 4)]) []
    (fun g v => mxSrcs .zero (paramWords g c 4 v) g v) 
    (fun need x => mloopBody (mloopOf s.cur.settle.rg at0 acc a rl w dstep sa sw sp mt steps r x i) (need [(c, 4)]) x) s

/-- The ranges of register space that step k of a loop reads (R139). -/
def Loop.rowsAt (l : Loop) (r : RegSpace) (k : Nat) : List (Nat × Nat) :=
  let x := l.regs r
  let at0 := fun (d : W64) (delta : Int) => ((streamAt x d none delta).toNat, aBytes d)
  (if l.aShf = none then [at0 l.aDesc ((k : Int) * incBytes l.incA)] else []) ++
  (if l.reloadsAt k then
    (if l.wShf = none then [at0 l.wDesc (((k + 1 : Nat) : Int) * incBytes l.incW)] else []) ++
    (if l.sp = 0 then [] else [at0 l.mDesc (((k + 1) * aBytes l.mDesc : Nat) : Int)])
   else [])
/-- The next step of a group's loop would touch a drowsy granule, and waits for its wake (R101, R102). -/
def Group.stepDrowsy (g : Group) (l : Loop) : Bool :=
  g.rg.drowsyIn (l.rowsAt g.rg l.done ++ if l.dstep then [(l.regs g.rg).accSpan l.acc.toNat] else [])
/-- A scale register that step k of a loop takes could not be corrected at the `mloop`'s place (R139, R141, R147). -/
def Loop.scaleLost (l : Loop) (k : Nat) : Bool :=
  let lost := fun (d : W64) (n : Nat) => tdScaled d && bitOf l.ebad (((tdSreg d).toNat + n) % 32)
  lost l.aDesc (if l.dstep then k * l.incEa.toNat else 0) ||
  (l.dstep && l.reloadsAt k && lost l.wDesc ((k + 1) * l.incEb.toNat))
/-- Reads what a step needs: the next step's weights and masks, the step's activations, and with `.dstep` the accumulator
(R139). -/
def stepReads (gid : Gid) (l : Loop) : Acc (List Byte × List Byte × List Byte) := do
  let r := l.regs ((← get).group gid).rg
  let more := l.reloadsAt l.done
  let n : Int := (l.done + 1 : Nat)
  let ws ← if more then stepBytes gid r l.wDesc l.wShf (n * incBytes l.incW) (aBytes l.wDesc) else pure []
  let mb := aBytes l.mDesc
  let ms ← if more && l.sp != 0 then stepBytes gid r l.mDesc none (n * (mb : Int)) mb else pure []
  let as ← stepBytes gid r l.aDesc l.aShf ((l.done : Int) * incBytes l.incA) (aBytes l.aDesc)
  if l.scaleLost l.done then raise .dataError
  if l.dstep && r.badIn (r.accSpan l.acc.toNat).1 (r.accSpan l.acc.toNat).2 then raise .dataError
  pure (ws, ms, as)

/-- The step once its bytes are read: reload, record, accumulate, drain, swap (R138, R139, R284). Every step drains with the scales of
its buffer, step 0 with those that `mload` latched (R139; log 81). -/
def stepApply (g : Group) (seed : W64) (x : MxArray) (l : Loop) (ws ms as : List Byte) : Group × MxArray :=
  let b := x.actBuf
  let r := l.regs g.rg
  let w := LTy.ofCode b.fmt
  let a := LTy.ofCode (tdFmt l.aDesc)
  let la := aLen w a b.sparse
  let m := aBytes l.aDesc / la
  let ea := stepScales r l.aDesc (if l.dstep then l.incEa else 0) l.done
  let eb := b.scales
  let x1 := if l.reloadsAt l.done then
      x.setBuf (!x.act) (latch (tdFmt l.wDesc) l.sp (tdRows l.wDesc) (tdBytes l.wDesc) ws ms (l.scalesAt r x l.done)) else x
  let x2 := (l.recordAt r x1 l.done).accumulate a ea ((cutRows la m as).map bytesToNat) m (stepK w a b.sparse)
  let g1 := if l.dstep then (({ g with rg := r }).drainAcc x2 ea eb l.acc.toNat l.rnd seed).countDrain l.rnd else g
  ({ g1 with rg := { g.rg with rows := g1.rg.rows, bad := g1.rg.bad } }, x2.past l)

/-- SEQUENCER_STEP (R102, R139, R140, R145, R147): one step of the loop of a core's running array. A read that fails stops the loop before
the step adds anything, also where it is the reload for the step after (DESIGN CHOICE, log 22). -/
def execSequencerStep (core : BitVec 10) (s : State) : Out :=
  let x := (s.core core).mx
  match x.holder, x.loop, x.mode with
  | some h, some l, .running =>
    let gid := Gid.of core h
    if (s.group gid).stepDrowsy l then .next s
    else if !s.tokenReady gid then .next (s.requestToken gid)
    else match (stepReads gid l).run (s.takeToken gid) with
      | .ok (ws, ms, as) s2 =>
        let g := s2.group gid
        let r := stepApply g (s2.seedOf g) (s2.mx gid) l ws ms as
        let s3 := (s2.setGroup gid r.1).setMx gid r.2
        .next (if r.2.mode = .running then s3 else (s3.giveToken gid).wakeArray gid)
      | .error _ s2 =>
        .next (((s2.giveToken gid).setMx gid { (s2.giveToken gid).mx gid with
          mode := .frozen, err := some (0x10, BitVec.ofNat 13 l.done) }).wakeArray gid)
  | _, _, _ => .next s

/-! Drains (R144, R285 to R287) -/

/-- The launch binds a collective to the port: one of the valid `.collective` entries of its kernel names the group (R144, R371; no rule
says what binds one to the port itself, DESIGN CHOICE, log 34). -/
def State.portBound (s : State) (g : Group) : Bool :=
  match s.launchOf g.part g.launch with
  | some l => (List.range 4).any (fun k =>
      let e := l.kdesc.extractLsb' (8 * 0xE0 + 64 * k) 64
      bitOf e 63 && bitsOf e 4 4 == g.gidx.toNat)
  | none => false
/-- A destination that the chains fit (R285). -/
def drainFits (r : RegSpace) (x : MxArray) (k : DrainKind) (d : BitVec 4) : Bool :=
  match k with
  | .acc => decide (x.m ≤ accRows r)
  | .cvt => let t := r.tdesc.getD d.toNat 0
            decide (x.m ≤ tdRows t ∧ (x.ncols * (LTy.ofCode (tdFmt t)).width + 7) / 8 ≤ tdBytes t)
  | .port => true
/-- Rows of a drain move into the port while it has room; it holds 8 (R144). -/
def MxArray.fillPort (x : MxArray) : MxArray :=
  let n := 8 - x.port.length
  { x with port := x.port ++ x.outQ.take n, outQ := x.outQ.drop n }
/-- Rows have left a drain: with the last one it has ended, `.fin` clears the holder, and the idle array returns its token (R132,
R144, R145). -/
def State.settlePort (s : State) (gid : Gid) : State :=
  let x := (s.mx gid).fillPort
  if x.outQ = [] then
    let s1 := (s.wakeArray gid).setMx gid { finish132 x.outFin x with outFin := false }
    if x.mode = .running then s1 else s1.giveToken gid
  else s.setMx gid x
/-- A drain of the group that holds the array waits for room in the port (R144). -/
def State.portBusy (s : State) (gid : Gid) : Bool := s.holds gid && (s.mx gid).outQ != []
/-- R285. A drain into the port goes on by itself once it has been issued (R144). -/
def mdrainBody (k : DrainKind) (d pf : BitVec 4) (fin : Bool) (r : Rnd) (sat : Bool) (land : Acc Unit) : Acc Unit := do
  let s ← get
  let g := s.cur
  let x := s.mx s.curG
  let seed := s.seedOf g
  if k == .port && !s.portBound g then raise .mxFormat
  else if !x.live then do
    modify (fun s => s.takeToken s.curG)
    modifyMx (fun x => { x with outFin := fin })
  else if !drainFits g.rg x k d then raise .mxFormat
  else do
    land
    modify (fun s => s.takeToken s.curG)
    match k with
    | .acc => modifyCur (fun g => g.drainAcc x x.ea x.eb d.toNat r seed)
    | .cvt => modifyCur (fun g => g.drainTile x d.toNat r sat seed)
    | .port => modifyMx (fun y => { y with outQ := (List.range x.m).map (portRow g x (LTy.ofCode pf) r sat seed) })
    modifyCur (fun g => g.countDrain r)
    modifyMx (fun x => { x.clearChains with outFin := fin })
  modify (fun s => s.settlePort s.curG)
def execMdrain (h : LHdr) (k : DrainKind) (d pf : BitVec 4) (fin : Bool) (r : Rnd) (sat : Bool) (s : State) : Out :=
  let ops := match k with | .acc => [(Opnd.acc d, 1)] | _ => []
  mxArr (.mdrain h k d pf fin r sat) h (do mxReady false true; mxToken) [0] (match k with | .cvt => [(.tile d, 1)] | _ => [])
    ops [] (mxSrcs .zero []) (fun need _ => mdrainBody k d pf fin r sat (need ops)) s

/-- The 16 bytes of chain (m, n) (R151, R286). -/
def rawChain (x : MxArray) (i : Nat) : BitVec 128 :=
  if x.live && inRecord x.m x.ncols i then Sparse.get x.chains i else kindZero x.kind
/-- A range from the address word. -/
def wordSpan (win : BitVec 3) (x : Srcs) (o n : Nat) : Span := { win := win, off := x.addr + o, len := n }
/-- The virtual address of the address word. -/
def wordVa (win : BitVec 3) (x : Srcs) : Acc W64 := do pure ((← getCur).winVa win x.addr)
/-- R286. `.fin` clears the holder of a frozen array too, as R132 and R285 say of the form, where R146 says that the instruction
changes no state (DESIGN CHOICE, log 82). -/
def mdrainRawBody (fin : Bool) (win : BitVec 3) (land : Acc Unit) (x : Srcs) : Acc Unit := do
  let y ← getMx
  let sp := (List.range 1024).map (fun i => wordSpan win x (16 * i) 16)
  let as ← spanAddrs false .write sp
  if x.addr % 16 ≠ 0 then raise .mxFormat
  else do
    land
    writeSpans (as.zip ((List.range 1024).map (fun i => natToBytes 16 (rawChain y i).toNat)))
    modifyMx (finish132 fin)
def execMdrainRaw (h : LHdr) (a : Opnd) (fin : Bool) (win : BitVec 3) (os : Order) (s : State) : Out :=
  mxArr (.mdrainRaw h a fin win os) h (mxReady true false) [1] [] [(a, 1)] [(a, 1)] (mxSrcs a [])
    (fun need => mdrainRawBody fin win (need [(a, 1)])) s
/-- No drain is in flight on the frozen array (R132, R144, R146); `mxOwn` sees to an idle one. -/
def mxDrained : Acc Unit := do
  let x ← getMx
  if x.mode = .frozen ∧ x.outQ ≠ [] then notReady
/-- R287. -/
def execMzero (h : LHdr) (fin : Bool) (s : State) : Out :=
  mxArr (.mzero h fin) h (do mxReady true false; mxDrained) [] [] [] [] (mxSrcs .zero [])
    (fun _ _ => do
      if (← getMx).holder.isNone then mxClaim
      modifyMx (fun x => finish132 fin { x.clearChains with kind := false, m := 0, ncols := 0, ea := 0, eb := 0 })) s

/-! Images (R150, R151, R288) -/

/-- A buffer's format among the sequencer's bytes (log 24). -/
def WBuf.fields (b : WBuf) : List (Nat × Nat) := [(1, b.latched.toNat), (4, b.fmt.toNat), (2, b.sparse.toNat), (6, b.ncols), (10, b.rowLen), (9, 0)]
/-- Bytes 0x0018 to 0x00FF: the loop in the field order of the `mloop` encoding (dst, src_a, src_b, src_c with its four words, rnd,
then xf from its highest bit), the descriptors of its streams and its word, and the formats of the two buffers (log 24). -/
def seqFields (x : MxArray) : List (Nat × Nat) :=
  (match x.loop with
   | none => [(808, 0)]
   | some l => [(12, if l.dstep then (Opnd.acc l.acc).code.toNat else 0), (12, (Opnd.tile l.aTile).code.toNat),
      (12, if l.reload then (Opnd.tile l.wTile).code.toNat else 0), (12, bitsOf l.word 28 12),
      (32, packFields [(12, l.incA.toNat), (12, l.incW.toNat), (5, l.incEa.toNat)]), (32, l.incEb.toNat),
      (32, (l.aShf.getD 0).toNat), (32, (l.wShf.getD 0).toNat), (3, l.rnd.code.toNat),
      (1, l.dstep.toNat), (1, l.aShf.isSome.toNat), (1, l.wShf.isSome.toNat), (2, l.sp.toNat), (4, l.mTile.toNat), (12, l.steps - 1),
      (64, l.aDesc.toNat), (64, l.wDesc.toNat), (64, l.mDesc.toNat), (96, l.word.toNat), (1, 1), (1, l.reload.toNat), (318, 0)]) ++
  x.buf0.fields ++ x.buf1.fields
/-- The image (R150). -/
def image (x : MxArray) : List Byte :=
  natToBytes 8 (mxStatus x).toNat ++ natToBytes 8 (mxProg x).toNat ++ natToBytes 8 (mxLoop x).toNat ++
  natToBytes 232 (packFields (seqFields x)) ++ natToBytes 64 x.ea.toNat ++ natToBytes 64 x.eb.toNat ++
  natToBytes 64 x.buf0.scales.toNat ++ natToBytes 64 x.buf1.scales.toNat ++
  (List.range 32).flatMap (fun n => natToBytes 384 (Sparse.get x.buf0.data n).toNat) ++
  (List.range 32).flatMap (fun n => natToBytes 384 (Sparse.get x.buf1.data n).toNat) ++
  (List.range 32).flatMap (fun n => natToBytes 256 (Sparse.get x.buf0.masks n).toNat) ++
  (List.range 32).flatMap (fun n => natToBytes 256 (Sparse.get x.buf1.masks n).toNat)

/-- Pieces of 256 bytes of an image. -/
def imageSpans (win : BitVec 3) (x : Srcs) : List Span := (List.range 162).map (fun i => wordSpan win x (256 * i) 256)
/-- R288. -/
def msaveBody (win : BitVec 3) (land : Acc Unit) (x : Srcs) : Acc Unit := do
  let y ← getMx
  let as ← spanAddrs false .write (imageSpans win x)
  if (← wordVa win x).toNat % 256 ≠ 0 then raise .mxFormat
  else do
    land
    writeSpans (as.zip (cutRows 256 162 (image y)))
def execMsave (h : LHdr) (a : Opnd) (win : BitVec 3) (os : Order) (s : State) : Out :=
  mxArr (.msave h a win os) h (mxReady true false) [1] [] [(a, 1)] [(a, 1)] (mxSrcs a [])
    (fun need => msaveBody win (need [(a, 1)])) s

/-- n bits from a place in a byte list. -/
def fieldAt (l : List Byte) (lo n : Nat) : Nat := bytesToNat ((l.drop (lo / 8)).take ((lo % 8 + n + 7) / 8)) / 2 ^ (lo % 8) % 2 ^ n
/-- A buffer from an image: its format at bit `g`, scales at `e`, columns at `d`, masks at `m`. -/
def imageBuf (l : List Byte) (g e d m : Nat) : WBuf :=
  { latched := fieldAt l g 1 == 1, fmt := BitVec.ofNat 4 (fieldAt l (g + 1) 4), sparse := BitVec.ofNat 2 (fieldAt l (g + 5) 2),
    ncols := fieldAt l (g + 7) 6, rowLen := fieldAt l (g + 13) 10, scales := BitVec.ofNat 512 (fieldAt l (8 * e) 512),
    data := rowTable 384 32 (l.drop d), masks := rowTable 256 32 (l.drop m) }
/-- n bits of the sequencer's bytes from a place on. -/
def seqAt (l : List Byte) (lo n : Nat) : Nat := fieldAt l (0x18 * 8 + lo) n
/-- The loop of an image; `r`: the register space of the group named in it (R288; log 24). -/
def imageLoop (l : List Byte) (r : RegSpace) : Option Loop :=
  let f := seqAt l
  if f 488 1 = 0 then none
  else some {
    acc := BitVec.ofNat 4 (f 0 4), aTile := BitVec.ofNat 4 (f 12 4), wTile := BitVec.ofNat 4 (f 24 4),
    incA := BitVec.ofNat 12 (f 48 12), incW := BitVec.ofNat 12 (f 60 12), incEa := BitVec.ofNat 5 (f 72 5), incEb := BitVec.ofNat 5 (f 80 5),
    aShf := if f 180 1 = 1 then some (BitVec.ofNat 32 (f 112 32)) else none,
    wShf := if f 181 1 = 1 then some (BitVec.ofNat 32 (f 144 32)) else none,
    rnd := Rnd.ofCode (BitVec.ofNat 3 (f 176 3)), dstep := f 179 1 == 1, sp := BitVec.ofNat 2 (f 182 2), mTile := BitVec.ofNat 4 (f 184 4),
    aDesc := BitVec.ofNat 64 (f 200 64), wDesc := BitVec.ofNat 64 (f 264 64), mDesc := BitVec.ofNat 64 (f 328 64),
    word := BitVec.ofNat 96 (f 392 96), reload := f 489 1 == 1,
    addr := BitVec.ofNat 64 (fieldAt l 128 64), steps := fieldAt l (64 + 13) 13 + 1, done := fieldAt l 64 13,
    es := r.e, ebad := r.ebad, tview := r.tview, aview := r.aview }
/-- Reserved bits of an image are zero, those of its scale entries too (R117), its mode fits its holder (R288), and a buffer has at
most the array's 32 columns (log 24). -/
def imageOk (l : List Byte) : Bool :=
  let mode := fieldAt l 62 2
  let f := seqAt l
  fieldAt l 0 39 == 0 && fieldAt l (64 + 27) 37 == 0 && mode != 3 && !(fieldAt l 57 1 == 0 && mode != 0) &&
  f 77 3 == 0 && f 85 27 == 0 && f 132 12 == 0 && f 164 12 == 0 && f 490 318 == 0 && f 831 9 == 0 && f 863 9 == 0 && f 872 (232 * 8 - 872) == 0 &&
  decide (f 815 6 ≤ 32) && decide (f 847 6 ≤ 32) &&
  ([0x100, 0x140, 0x180, 0x1C0].all (fun o => !scaleBad (BitVec.ofNat 512 (fieldAt l (8 * o) 512))))
/-- The array that an image gives; chains are kept (R288). A recorded error that nothing has raised is dropped with the array that it was
recorded of (R147; DESIGN CHOICE, log 82). -/
def MxArray.ofImage (x : MxArray) (l : List Byte) (r : RegSpace) : MxArray :=
  let f := fieldAt l
  { holder := if f 57 1 = 1 then some (BitVec.ofNat 6 (f 51 6)) else none, mode := if f 62 2 = 0 then .idle else .frozen,
    token := false, act := f 58 1 == 1, buf0 := imageBuf l (0x18 * 8 + 808) 0x180 0x200 0x6200,
    buf1 := imageBuf l (0x18 * 8 + 840) 0x1C0 0x3200 0x8200, chains := x.chains, live := f 60 1 == 1, kind := f 59 1 == 1,
    m := f 46 5 + 1, ncols := f 41 5 + 1, ea := BitVec.ofNat 512 (f (0x100 * 8) 512), eb := BitVec.ofNat 512 (f (0x140 * 8) 512),
    loop := imageLoop l r, err := none, port := x.port, outQ := x.outQ, line := x.line }
/-- R288: accepted without a holder, on a frozen array, or on the issuer's own idle array, as `mxReady` says. -/
def mrestImgBody (win : BitVec 3) (land : Acc Unit) (x : Srcs) : Acc Unit := do
  let sp := imageSpans win x
  let as ← spanAddrs false .read sp
  if (← wordVa win x).toNat % 256 ≠ 0 then raise .mxFormat
  else do
    land
    let l := (← readSpans false (sp.zip as)).flatten
    if !imageOk l then raise .mxFormat
    else do
      modify (fun s => s.giveToken s.curG)
      modify (fun s => s.setMx s.curG ((s.mx s.curG).ofImage l (s.group (Gid.of s.curG.core (BitVec.ofNat 6 (fieldAt l 51 6)))).rg))
def execMrestImg (h : LHdr) (a : Opnd) (win : BitVec 3) (os : Order) (s : State) : Out :=
  mxArr (.mrestImg h a win os) h (mxReady true false) [1] [] [(a, 1)] [(a, 1)] (mxSrcs a [])
    (fun need => mrestImgBody win (need [(a, 1)])) s

/-- A raw chain that may be restored (R151, R288). -/
def rawOk (c : BitVec 128) : Bool :=
  bitsOf c 112 13 == 0 && (!bitOf c 125 || (bitsOf c 65 31 == 0 && bitsOf c 0 16 == 0))
/-- R286, R288. -/
def mrestRawBody (win : BitVec 3) (land : Acc Unit) (x : Srcs) : Acc Unit := do
  let sp := (List.range 1024).map (fun i => wordSpan win x (16 * i) 16)
  let as ← spanAddrs false .read sp
  if (← wordVa win x).toNat % 16 ≠ 0 then raise .mxFormat
  else do
    land
    let l := (← readSpans false (sp.zip as)).map (fun b => BitVec.ofNat 128 (bytesToNat b))
    if !l.all rawOk then raise .mxFormat
    else modifyMx (fun y => { y with chains := ((List.range 1024).zip l).foldl (fun cs p => Sparse.set cs p.1 p.2) [] })
def execMrestRaw (h : LHdr) (a : Opnd) (win : BitVec 3) (os : Order) (s : State) : Out :=
  mxArr (.mrestRaw h a win os) h (mxReady true false) [1] [] [(a, 1)] [(a, 1)] (mxSrcs a [])
    (fun need => mrestRawBody win (need [(a, 1)])) s

end Sys2Proof.Machine
end

