-- ==== Sys2Proof/Machine/Barrier.lean ====
section
/-! DEFINITION. Barriers (R221, R222). -/

namespace Sys2Proof.Machine

/-- The latest arrival of a group at the barrier of an index (R222). -/
def Group.latest (g : Group) (kind : BitVec 2) (idx : BitVec 4) : Option (BarId × Nat) :=
  g.arrived.find? (fun x => x.1.kind == kind && x.1.idx == idx)
/-- Records an arrival. -/
def Group.arrive (g : Group) (b : BarId) (phase : Nat) : Group :=
  { g with arrived := (b, phase) :: g.arrived.filter (fun x => !(x.1.kind == b.kind && x.1.idx == b.idx)) }

/-- A wide barrier of a group's launch, as it stands or new. -/
def State.wideBar (s : State) (die : BitVec 3) (g : Group) (b : BarId) : WideBar :=
  (s.bars.find? (fun w => w.part == g.part && w.launch == g.launch && w.id == b && (b.kind != 2 || w.die == die))).getD
    { part := g.part, launch := g.launch, die := die, id := b, phase := 0, arrived := [], fin := [], failed := false }
def State.setWideBar (s : State) (w : WideBar) : State :=
  { s with bars := w :: s.bars.filter (fun x => !(x.part == w.part && x.launch == w.launch && x.id == w.id && x.die == w.die)) }

/-- The current group may arrive: its lane blocks have finished, and the shelf reads of its running loop, which are events of its lane
stream, have been made (R141, R221). -/
def State.mayArrive (s : State) : Bool := s.cur.laneIdle && !s.loopReads s.curG
/-- The phase of an arrival has completed (R221). -/
def State.phaseDone (s : State) (gid : Gid) (b : BarId) (phase : Nat) : Bool :=
  let g := s.group gid
  if b.kind = 0 then
    match s.blockAt g with
    | some x => decide (phase < (x.bars.getD b.idx.toNat {}).phase)
    | none => true
  else decide (phase < (s.wideBar gid.die g b).phase)

/-- The end of a `.sync` or `.wait`: on if the phase has completed, else the stream waits. -/
def barWait (b : BarId) (phase : Nat) (s : State) : Out :=
  if s.phaseDone s.curG b phase then .next (s.setCur { s.cur with wait := .none }.pc4)
  else .next (s.setCur { s.cur with wait := .bar b phase }).stalled
/-- After an arrival in a phase. -/
def afterArrive (m : BarMode) (b : BarId) (phase : Nat) (s : State) : Out :=
  let s1 := s.setCur (s.cur.arrive b phase)
  if m == .sync then barWait b phase s1 else scalarNext id s1
/-- A `.wait` at the barrier of an index (R221). -/
def barOnly (kind : BitVec 2) (idx : BitVec 4) (s : State) : Out :=
  match s.cur.latest kind idx with
  | some x => barWait x.1 x.2 s
  | none => scalarNext id s

/-- An arrival at a block barrier; none where the count differs from the open phase's (R222). -/
def Bar.arriveOne (x : Bar) (n : Nat) : Option Bar :=
  if x.isOpen ∧ x.count.toNat ≠ n then none
  else
    let k := if x.isOpen then x.arr.toNat + 1 else 1
    some (if n ≤ k then { count := BitVec.ofNat 5 n, arr := 0, isOpen := false, phase := x.phase + 1 }
      else { count := BitVec.ofNat 5 n, arr := BitVec.ofNat 5 k, isOpen := true, phase := x.phase })
/-- R221, R222. Only a form that arrives waits, as `mayArrive` says. A stream that waits already goes on waiting, without arriving
again. -/
def execBar (a : SReg) (m : BarMode) (i : BitVec 4) (s : State) : Out :=
  let id : BarId := { kind := 0, idx := i, rect := 0 }
  let v := s.cur.sr a
  match s.cur.wait with
  | .bar b p => barWait b p s
  | _ =>
    if m == .wait then barOnly 0 i s
    else if !s.mayArrive then .next s.stalled
    else if v.toNat = 0 ∨ 16 < v.toNat then scalarAcc (.bar a m i) (raiseReg .sa a) s
    else
      let blk := s.curBlock
      let x := blk.bars.getD i.toNat {}
      match x.arriveOne v.toNat with
      | none => scalarAcc (.bar a m i) (raise .barCount) s
      | some y => afterArrive m id x.phase (s.setBlock { blk with bars := vset blk.bars i.toNat y })

/-- Residency mode of a launch is `all` or `one` (R303, R358). -/
def State.resident (s : State) (g : Group) : Bool :=
  match s.launchOf g.part g.launch with | some l => bitsOf l.record 124 2 != 0 | none => false

/-- An arrival of the current group at a wide barrier: counted once a phase (R222). -/
def wideArrive (m : BarMode) (b : BarId) (s : State) : Out :=
  let g := s.cur
  let w := s.wideBar s.curG.die g b
  let w1 := if w.arrived.contains (g.block, g.gidx) then w else { w with arrived := (g.block, g.gidx) :: w.arrived }
  let left := match s.blockAt g with | some x => s.members x | none => [g.gidx]
  afterArrive m b w.phase (s.setWideBar (s.settleBar w1 g.block left))

/-- A rectangle of the logical mesh, laid out as aux1 of R77, aligned and inside it (R222). -/
def rbarRectOk (v : W64) : Bool :=
  let h := bitsOf v 10 3
  let w := bitsOf v 13 3
  bitsOf v 16 48 == 0 && decide (bitsOf v 0 4 % 2 ^ h = 0 ∧ bitsOf v 4 6 % 2 ^ w = 0 ∧ bitsOf v 0 4 + 2 ^ h ≤ 16 ∧
    bitsOf v 4 6 + 2 ^ w ≤ 64)
/-- The cores of a rectangle. -/
def rectCores (v : BitVec 16) : List (BitVec 10) :=
  (List.range (2 ^ bitsOf v 10 3)).flatMap (fun i => (List.range (2 ^ bitsOf v 13 3)).map (fun j =>
    coreAt (bitsOf v 0 4 + i) (bitsOf v 4 6 + j)))
/-- Each core holds exactly one block of the launch (R222, R303). -/
def rectFull (s : State) (g : Group) (v : BitVec 16) : Bool :=
  (rectCores v).all (fun c => (s.blocks.filter (fun b => b.core == c && b.part == g.part && b.launch == g.launch)).length == 1)
/-- R222: the occupancy is checked at the first arrival of a phase. -/
def execRbar (a : SReg) (m : BarMode) (i : BitVec 2) (s : State) : Out :=
  let v := s.cur.sr a
  let ins : Instr := .rbar a m i
  let id : BarId := { kind := 1, idx := i.setWidth 4, rect := v.extractLsb' 0 16 }
  match s.cur.wait with
  | .bar b p => barWait b p s
  | _ =>
    if m == .wait then barOnly 1 (i.setWidth 4) s
    else if !s.mayArrive then .next s.stalled
    else if !rbarRectOk v then scalarAcc ins (raiseReg .sa a) s
    else if !(rectCores id.rect).contains s.curG.core then scalarAcc ins (raise .rbarTarget) s
    else
      let w := s.wideBar s.curG.die s.cur id
      if w.failed then scalarAcc ins (raise .rbarTarget) s
      else if w.arrived = [] ∧ rectFull s s.cur id.rect = false then
        scalarAcc ins (raise .rbarTarget) (s.setWideBar { w with failed := true })
      else wideArrive m id s
/-- R222: `dbar` and `pbar` need a resident launch. -/
def wideRun (i : Instr) (m : BarMode) (id : BarId) (s : State) : Out :=
  match s.cur.wait with
  | .bar b p => barWait b p s
  | _ =>
    if !s.resident s.cur then scalarAcc i (raise .barResident) s
    else if m == .wait then barOnly id.kind id.idx s
    else if !s.mayArrive then .next s.stalled
    else wideArrive m id s
def execDbar (m : BarMode) (i : BitVec 2) (s : State) : Out := wideRun (.dbar m i) m { kind := 2, idx := i.setWidth 4, rect := 0 } s
def execPbar (m : BarMode) (i : BitVec 2) (s : State) : Out := wideRun (.pbar m i) m { kind := 3, idx := i.setWidth 4, rect := 0 } s

end Sys2Proof.Machine
end

