-- ==== Sys2Proof/Machine/Gang.lean ====
section
/-! DEFINITION. Gangs, membership views and sequence control records (R337 to R351). -/

namespace Sys2Proof.Machine

/-- A sequence control record (R337). -/
abbrev Scr := BitVec 2048

/-- Bits lo + n - 1 to lo of the word at a byte offset, and the record with them replaced. -/
def Scr.f (x : Scr) (o lo n : Nat) : Nat := bitsOf x (8 * o + lo) n
def Scr.put (x : Scr) (o lo n v : Nat) : Scr := putBits x (8 * o + lo) n v
def Scr.live (x : Scr) : Bool := x.f 0 63 1 == 1
def Scr.ended (x : Scr) : Bool := x.f 0 62 1 == 1
def Scr.pend (x : Scr) : Bool := x.f 0 60 1 == 1
def Scr.halt (x : Scr) : Bool := x.f 0 59 1 == 1
def Scr.bank (x : Scr) : Nat := x.f 0 58 1
def Scr.mask (x : Scr) : Nat := x.f 0 48 8
def Scr.omask (x : Scr) : Nat := x.f 0 40 8
def Scr.view (x : Scr) : Nat := x.f 0 0 32
def Scr.len (x : Scr) : Nat := x.f 0x08 0 64
def Scr.specEnd (x : Scr) : Nat := x.f 0x10 0 64
def Scr.vg (x : Scr) : Nat := x.f 0x18 48 16
def Scr.genLow (x : Scr) : Nat := x.f 0x18 32 16
def Scr.entryLog (x : Scr) : Nat := x.f 0x18 16 5
def Scr.chunkLog (x : Scr) : Nat := x.f 0x18 8 5
def Scr.curPins (x : Scr) : Nat := x.f 0x20 40 24
def Scr.retPins (x : Scr) : Nat := x.f 0x20 16 24
def Scr.ret (x : Scr) : Bool := x.f 0x20 15 1 == 1
def Scr.prog (x : Scr) : Nat := x.f 0x28 0 64
def Scr.cap (x : Scr) (b : Nat) : Nat := x.f 0x30 (32 * b) 32
def Scr.pasid (x : Scr) : BitVec 20 := BitVec.ofNat 20 (x.f 0x38 0 20)
def Scr.base (x : Scr) (b d : Nat) : Nat := x.f (0x40 + 0x40 * b + 8 * d) 0 64

/-- Members of a mask. -/
def popMask (m : Nat) : Nat := oneBits m 8
/-- A width that a view may have. -/
def widthOk (m : Nat) : Bool := popMask m == 1 || popMask m == 2 || popMask m == 4 || popMask m == 8
/-- R338: the record is out of range. -/
def Scr.outOfRange (x : Scr) : Bool :=
  x.f 0 56 2 != 0 || x.f 0x18 21 11 != 0 || x.f 0x18 13 3 != 0 || x.f 0x18 0 8 != 0 || x.f 0x20 0 15 != 0 ||
  x.f 0x38 20 44 != 0 || x.f 0xC8 8 56 != 0 ||
  decide (x.entryLog < 6 ∨ 16 < x.entryLog ∨ 20 < x.chunkLog ∨ x.specEnd < x.len) ||
  !widthOk x.mask || (x.pend && x.ret) || ((x.pend || x.ret) && !widthOk x.omask) ||
  decide (popMask x.mask * x.cap x.bank < x.specEnd) ||
  (x.pend && decide (popMask x.omask * x.cap (1 - x.bank) < x.specEnd))

/-- The k-th lowest set bit of a mask. -/
def nthMember (m k : Nat) : Nat := ((List.range 8).filter (fun d => m / 2 ^ d % 2 == 1)).getD k 0
/-- R339: the die and the virtual address of a position's home; none beyond the capacity. -/
def Scr.home (x : Scr) (p m b : Nat) : Option (Nat × W64) :=
  let w := popMask m
  let c := p / 2 ^ x.chunkLog
  let d := nthMember m (c % w)
  let i := c / w * 2 ^ x.chunkLog + p % 2 ^ x.chunkLog
  if x.cap b ≤ i then none else some (d, BitVec.ofNat 64 (x.base b d + i * 2 ^ x.entryLog))

/-! The shared run (R341) -/

/-- What a form does: its status, the record after it, its further results. -/
abbrev GangFn := Scr → Nat × Scr × List W64
/-- Results to a run of registers. -/
def putRun (d : SReg) : List W64 → Nat → Group → Group
  | [], _, g => g
  | v :: t, k, g => putRun d t (k + 1) (g.setSrAt d k v)
/-- Outcomes other than ok. -/
def gBusy : Nat := 1
def gEnded : Nat := 2
def gMoved : Nat := 3
def gRange : Nat := 4
/-- The physical address of a record: what translates to anything else than region 0 of node 0 is out of range (R341). -/
def scrAddr (a : SReg) (ag : Agent) (va : W64) : Acc Nat := do
  if bitsOf va 0 8 ≠ 0 then raiseReg .sa a
  else
    let (pa, _) ← translateLeaf ag va .atomic
    if inHbm pa then pure pa else raiseReg .sa a
/-- One atomic action on the record; a status other than ok changes nothing (R338, R341). It writes the whole record, with `rmw`
also where no bit changes, so that a monitor fires (R224, R338; log 87). -/
def scrBody (d a : SReg) (f : Srcs → GangFn) (always rmw : Bool) (x : Srcs) (after : Nat → Acc Unit) : Acc Unit := do
  let ag ← curAgent
  let pa ← scrAddr a ag (x.s 0)
  let r : Scr := BitVec.ofNat 2048 (← physRead ag (x.s 0) pa 256)
  let (st, r1, l) := if !always && !r.live then (6, r, []) else if !always && r.outOfRange then (gRange, r, []) else f x r
  if rmw then physWrite ag pa (natToBytes 256 (if st = 0 then r1 else r).toNat)
  if st = 0 then
    after pa
    modifyCur (fun g => putRun d l 1 (g.setSr d 0))
  else modifyCur (fun g => g.setSr d (BitVec.ofNat 64 st))
/-- Runs a form: the record's address, the operands, what the form does. R341's table calls `gang.home` and `gang.rd` reads; every
other form is a read-modify-write. -/
def gangRun (i : Instr) (d a b : SReg) (f : Srcs → GangFn) (always rmw : Bool) (after : Srcs → Nat → Acc Unit) (s : State) : Out :=
  scalarMem i { sc := [s.cur.sr a, s.cur.sr b, s.cur.srAt b 1] } (fun x => scrBody d a f always rmw x (after x)) s

/-- The view word (R341). -/
def Scr.viewWord (x : Scr) : W64 := BitVec.ofNat 16 x.vg ++ BitVec.ofNat 8 x.mask ++ 0#8 ++ BitVec.ofNat 32 x.view
/-- The view number that a view word names. -/
def viewNo (w : W64) : Nat := bitsOf w 0 32

/-- R342: the pending view, once caught up, becomes current. -/
def Scr.publish (x : Scr) : Scr :=
  if x.pend && !x.halt && x.prog == x.len then
    let x1 := ((x.put 0x20 16 24 x.curPins).put 0x20 15 1 (if x.curPins = 0 then 0 else 1)).put 0x20 40 24 0
    let x2 := ((x1.put 0 48 8 x.omask).put 0 40 8 x.mask).put 0 58 1 (1 - x.bank)
    let x3 := (((x2.put 0 0 32 (x.view + 1)).put 0 60 1 0).put 0x28 0 64 0).put 0x10 0 64 x.len
    x3.put 0x18 32 16 x.vg
  else x
def execGangPin (d a : SReg) (s : State) : Out :=
  gangRun (.gangPin d a) d a a (fun _ r =>
    if r.ended then (gEnded, r, [])
    else
      let x := r.publish
      if x.curPins = 2 ^ 24 - 1 then (gBusy, r, [])
      else (0, x.put 0x20 40 24 (x.curPins + 1), [x.viewWord, BitVec.ofNat 64 x.len, BitVec.ofNat 64 x.specEnd])) false true (fun _ _ => pure ()) s
/-- R343. -/
def Scr.unpin (x : Scr) (v : Nat) : Nat × Scr × List W64 :=
  if v = x.view then (if x.curPins = 0 then (gRange, x, []) else (0, x.put 0x20 40 24 (x.curPins - 1), []))
  else if x.ret ∧ v = (x.view + 2 ^ 32 - 1) % 2 ^ 32 then
    if x.retPins = 0 then (gRange, x, [])
    else
      let y := x.put 0x20 16 24 (x.retPins - 1)
      (0, if x.retPins = 1 then y.put 0x20 15 1 0 else y, [])
  else (gMoved, x, [])
def execGangUnpin (d a b : SReg) (s : State) : Out :=
  gangRun (.gangUnpin d a b) d a b (fun x r => r.unpin (viewNo (x.s 1))) false true (fun _ _ => pure ()) s
/-- R344. -/
def Scr.homeOf (x : Scr) (p v : Nat) : Nat × Scr × List W64 :=
  let out := fun (m b : Nat) => match x.home p m b with
    | some h => (0, x, [h.2, BitVec.ofNat 64 h.1])
    | none => (gRange, x, [])
  if v = x.view then out x.mask x.bank
  else if x.ret ∧ v = (x.view + 2 ^ 32 - 1) % 2 ^ 32 then out x.omask (1 - x.bank)
  else (gMoved, x, [])
def execGangHome (d a b : SReg) (s : State) : Out :=
  gangRun (.gangHome d a b) d a b (fun x r => r.homeOf (x.s 1).toNat (viewNo (x.s 2))) false false (fun _ _ => pure ()) s
/-- R345. -/
def Scr.request (x : Scr) (m c : Nat) : Nat × Scr × List W64 :=
  if x.ended then (gEnded, x, [])
  else if x.pend || x.ret then (gBusy, x, [])
  else if !widthOk m || decide (popMask m * c < x.specEnd) then (gRange, x, [])
  else
    let y := (x.put 0 40 8 m).put 0x30 (32 * (1 - x.bank)) 32 c
    (0, ((y.put 0 60 1 1).put 0x28 0 64 0).put 0 59 1 0, [])
def execGangReq (d a b : SReg) (s : State) : Out :=
  gangRun (.gangReq d a b) d a b (fun x r => r.request (bitsOf (x.s 1) 0 8) (bitsOf (x.s 2) 0 32)) false true
    (fun x pa => modify (fun s => { s with gangs :=
      { scr := pa, va := x.s 0, priv := s.cur.priv, part := s.cur.part } :: s.gangs.filter (fun y => y.scr != pa) })) s
/-- R347. -/
def execGangRes (d a : SReg) (s : State) : Out :=
  gangRun (.gangRes d a) d a a (fun _ r => if !r.pend || !r.halt then (7, r, []) else (0, r.put 0 59 1 0, [])) false true (fun _ _ => pure ()) s
/-- R347. -/
def execGangCxl (d a : SReg) (s : State) : Out :=
  gangRun (.gangCxl d a) d a a (fun _ r =>
    if !r.pend then (7, r, []) else (0, ((r.put 0 60 1 0).put 0 59 1 0).put 0x28 0 64 0, [])) false true
    (fun _ pa => modify (fun s => { s with gangs := s.gangs.filter (fun y => y.scr != pa) })) s
/-- R348. -/
def execGangRd (d a b : SReg) (s : State) : Out :=
  gangRun (.gangRd d a b) d a b (fun x r =>
    let o := (x.s 1).toNat
    if o % 8 ≠ 0 ∨ 256 ≤ o then (gRange, r, []) else (0, r, [BitVec.ofNat 64 (r.f o 0 64)])) true false (fun _ _ => pure ()) s

/-! Commit, rollback, end (R349, R350) -/

/-- R349: the forms that need the current view. -/
def onView (v : W64) (f : GangFn) : GangFn := fun r =>
  if r.ended then (gEnded, r, []) else if viewNo v ≠ r.view then (gMoved, r, []) else f r
def execKvcCmt (d a b : SReg) (s : State) : Out :=
  gangRun (.kvcCmt d a b) d a b (fun x => onView (x.s 1) (fun r =>
    let n := (x.s 2).toNat
    if r.len ≤ n ∧ n ≤ r.specEnd then (0, r.put 0x08 0 64 n, []) else (gRange, r, []))) false true (fun _ _ => pure ()) s
def execKvcRsv (d a b : SReg) (s : State) : Out :=
  gangRun (.kvcRsv d a b) d a b (fun x => onView (x.s 1) (fun r =>
    let e := (x.s 2).toNat
    if r.len ≤ e ∧ e ≤ popMask r.mask * r.cap r.bank ∧ (r.pend = false ∨ e ≤ popMask r.omask * r.cap (1 - r.bank)) then
      (0, r.put 0x10 0 64 e, [])
    else (gRange, r, []))) false true (fun _ _ => pure ()) s
def execKvcPurge (d a b : SReg) (s : State) : Out :=
  gangRun (.kvcPurge d a b) d a b (fun x => onView (x.s 1) (fun r =>
    (0, (r.put 0x10 0 64 r.len).put 0x18 32 16 r.vg, []))) false true (fun _ _ => pure ()) s
def execKvcEnd (d a b : SReg) (s : State) : Out :=
  gangRun (.kvcEnd d a b) d a b (fun x r =>
    if r.ended then (gEnded, r, [])
    else if bitsOf (x.s 1) 1 63 ≠ 0 then (gRange, r, [])
    else (0, (r.put 0 62 1 1).put 0 61 1 (bitsOf (x.s 1) 0 1), [])) false true (fun _ _ => pure ()) s
def execVgen (d a b : SReg) (s : State) : Out :=
  gangRun (.vgen d a b) d a b (fun x => onView (x.s 1) (fun r =>
    let n := (r.vg + 1) % 2 ^ 16
    if n = r.genLow then (5, r, []) else (0, r.put 0x18 48 16 n, [BitVec.ofNat 64 n]))) false true (fun _ _ => pure ()) s

/-! Redistribution (R346, R347) -/

/-- Copies one entry from its home under the current view to its home under the pending view, by the engine of the die that
homes it. -/
def copyEntry (x : Scr) (priv : Bool) (p : Nat) : Acc Unit := do
  match x.home p x.mask x.bank, x.home p x.omask (1 - x.bank) with
  | some (d, va), some (_, dst) => do
    let ag : Agent := { die := BitVec.ofNat 3 d, core := none, pasid := x.pasid, priv := priv }
    let v ← readVirt ag va (2 ^ x.entryLog) .read
    writeVirt ag dst (natToBytes (2 ^ x.entryLog) v)
  | _, _ => pure ()
/-- Copies n entries from position p on: where it stopped with what, or nothing. -/
def copyEntries (x : Scr) (priv : Bool) : Nat → Nat → State → Option (Nat × Option Info) × State
  | 0, _, s => (none, s)
  | n + 1, p, s =>
    match (copyEntry x priv p).run s with
    | .ok _ s1 => copyEntries x priv n (p + 1) s1
    | .error (.fault i) s1 => (some (p, some i), s1)
    | .error _ s1 => (some (p, none), s1)
/-- The engine record of a failed redistribution: queue 0, code 1, the record's address (R347). -/
def gangRecord (q : GangReq) (x : Scr) (die : BitVec 3) (i : Info) : BitVec 512 :=
  recWords (1#4 ++ i.cause.code ++ 0#13 ++ die ++ 0#13 ++ q.part ++ x.pasid) i.va i.entry q.va
    (i.acc ++ 0#1 ++ i.hint ++ 0#52 ++ 1#1) 0 0 0
def State.putScr (s : State) (pa : Nat) (x : Scr) : State := s.write pa (natToBytes 256 x.toNat)
/-- GANG_COPY_PASS (R346, R347): one pass up to the committed length. -/
def execGangCopyPass (scr : W64) (s : State) : Out :=
  match s.gangs.find? (fun q => q.scr == scr.toNat) with
  | none => .next s
  | some q =>
    let x : Scr := BitVec.ofNat 2048 (peek s.mem q.scr 256)
    if !x.pend || x.halt || x.outOfRange || decide (x.len = x.prog) then .next s
    else match copyEntries x q.priv (x.len - x.prog) x.prog s with
      | (none, s1) => .next (s1.putScr q.scr (x.put 0x28 0 64 x.len))
      | (some (_, none), s1) => .next s1
      | (some (p, some i), s1) =>
        let y := ((x.put 0x28 0 64 (p / 2 ^ x.chunkLog * 2 ^ x.chunkLog)).put 0 59 1 1).put 0 32 8 (statusOf i.cause).toNat
        let die := BitVec.ofNat 3 (match x.home p x.mask x.bank with | some h => h.1 | none => 0)
        .next ((s1.putScr q.scr y).post q.part [gangRecord q x die i])

end Sys2Proof.Machine
end

