-- ==== Sys2Proof/Machine/Coll.lean ====
section
/-! DEFINITION. Collectives and sampling (R366 to R377). -/

namespace Sys2Proof.Machine

/-! Descriptors (R366) -/

def dOp (w : BitVec 512) : Nat := bitsOf w 56 8
def dFed (w : BitVec 512) : Bool := bitOf w 55
def dMem (w : BitVec 512) : Nat := bitsOf w 40 6 + 1
def dChunk (w : BitVec 512) : Nat := bitsOf w 0 32
def dWord (w : BitVec 512) (k : Nat) : W64 := w.extractLsb' (64 * k) 64
/-- Reserved fields are zero. -/
def descClean (w : BitVec 512) : Bool := bitsOf w 46 9 == 0 && bitsOf w 32 8 == 0 && bitsOf w 320 192 == 0
/-- A contribution length that R366 allows. -/
def chunkOk (w : BitVec 512) : Bool :=
  dChunk w % 4 == 0 && decide (4 ≤ dChunk w ∧ dChunk w ≤ 65536) &&
  (dOp w != 4 || decide (8 ≤ dChunk w)) && (dOp w != 5 || dChunk w == 8)
/-- Bytes of a chunk's result (R368). -/
def outBytes (w : BitVec 512) : Nat := if dOp w = 3 then dMem w * dChunk w else dChunk w
/-- A member: its node and die, and whether every other bit is zero. -/
def memNode (e : W64) : Nat := bitsOf e 52 12
def memDie (e : W64) : BitVec 3 := e.extractLsb' 49 3
def memOk (e : W64) : Bool := bitsOf e 0 49 == 0
/-- The ranks at which a die of this package stands (R367). -/
def ranksOf (t : List W64) (die : BitVec 3) : List Nat :=
  (List.range t.length).filter (fun r => memNode (t.getD r 0) == 0 && memDie (t.getD r 0) == die)

/-! Combining (R368, R374) -/

/-- The FP32 words of a list of bytes, and back. -/
def toWords : List Byte → List W32
  | a :: b :: c :: d :: t => BitVec.ofNat 32 (bytesToNat [a, b, c, d]) :: toWords t
  | _ => []
def ofWords (l : List W32) : List Byte := l.flatMap (fun w => natToBytes 4 w.toNat)
def isNan32 (a : W32) : Bool := (f32val a).isNan
def fsubRn (a b : W32) : W32 := f32rn (FVal.add false (f32val a) (f32val b).neg)
def nan32 : W32 := 0x7FC00000
def negInf32 : W32 := 0xFF800000
/-- A value, a NaN as the canonical one (R114). -/
def canon32 (a : W32) : W32 := if isNan32 a then nan32 else a
/-- The softmax combination. -/
def combineSmc (a b : List W32) : List W32 :=
  let x := fun (l : List W32) (i : Nat) => l.getD i 0
  if isNan32 (x a 0) || isNan32 (x a 1) || isNan32 (x b 0) || isNan32 (x b 1) then a.map (fun _ => nan32)
  else
    let m := fmaxBits (x a 0) (x b 0)
    if m = negInf32 then a.map canon32
    else
      let wa := exp2Rn (fsubRn (x a 0) m)
      let wb := exp2Rn (fsubRn (x b 0) m)
      m :: (a.drop 1).zipWith (fun p q => ffmaRn p wa (fmulRn q wb)) (b.drop 1)
/-- The better of two pairs (key, index). -/
def better (a b : W32 × W32) : W32 × W32 :=
  let low := if b.2.ult a.2 then b else a
  match isNan32 a.1, isNan32 b.1 with
  | true, true => low
  | true, false => b
  | false, true => a
  | _, _ => if fcondHolds .lt (f32val b.1) (f32val a.1) then a else if fcondHolds .lt (f32val a.1) (f32val b.1) then b else low
/-- A pair as the bytes of its 8-byte word: the index in the low half. -/
def pairBytes (p : W32 × W32) : List Byte := natToBytes 4 p.2.toNat ++ natToBytes 4 p.1.toNat
def combineSamp (a b : List W32) : List W32 :=
  let r := better (a.getD 1 0, a.getD 0 0) (b.getD 1 0, b.getD 0 0)
  [r.2, r.1]
/-- The combination of an op; the lower rank stands first. -/
def combine (op : Nat) (a b : List W32) : List W32 :=
  match op with
  | 1 => a.zipWith faddRn b
  | 2 => a.zipWith fmaxBits b
  | 4 => combineSmc a b
  | _ => combineSamp a b
/-- One level of the tree. -/
def treePass (op : Nat) : List (List W32) → List (List W32)
  | a :: b :: t => combine op a b :: treePass op t
  | l => l
/-- The fixed tree over at most 2^n ranks. -/
def tree (op : Nat) : Nat → List (List W32) → List W32
  | 0, l => l.headD []
  | n + 1, l => tree op n (treePass op l)
/-- The result of an occasion whose ranks' bytes are given in rank order. -/
def collResult (w : BitVec 512) (l : List (List Byte)) : List Byte :=
  if dOp w = 3 then l.flatten else ofWords (tree (dOp w) 6 (l.map toWords))

/-! Results to issuers (R369, R373) -/

/-- The status of a failed access of a collective engine (R357). An uncorrectable word gives bad_record (log 29). -/
def collStatus : Cause → BitVec 8 | .xlat c => 0#4 ++ c | _ => 0x23
/-- A run state and a wait after a result has come for what `on` names. -/
def giveSt (on : YieldOn → Bool) (st : BitVec 8) (res : Option (W64 × W64)) : RunState → RunState
  | .yielding y => .yielding (if on y.on && y.got.isNone then { y with got := some st, res := res } else y)
  | .yielded y => .yielded (if on y.on && y.got.isNone then { y with got := some st, res := res } else y)
  | r => r
def giveWait (on : YieldOn → Bool) (st : BitVec 8) (res : Option (W64 × W64)) : SWait → SWait
  | .coll desc key d => if on (.coll desc key) then .done d st res else .coll desc key d
  | .put dst src len d => if on (.put dst src len) then .done d st res else .put dst src len d
  | w => w
def giveKept (on : YieldOn → Bool) (st : BitVec 8) (res : Option (W64 × W64)) (k : Kept) : Kept :=
  { k with st := giveSt on st res k.st, wait := giveWait on st res k.wait }
/-- Hands a result to an issuer: its group's code at work, the program behind its handler, or the program saved (R317, R373).
`handler`: the issuer is a handler. -/
def State.give (s : State) (gid : Gid) (part : BitVec 3) (launch block : W32) (handler : Bool) (on : YieldOn → Bool) (st : BitVec 8)
    (res : Option (W64 × W64)) : State :=
  let g := s.group gid
  if g.live && g.part == part && g.launch == launch && g.block == block then
    if g.h.on = handler then s.setGroup gid { g with st := giveSt on st res g.st, wait := giveWait on st res g.wait }
    else if handler then s
    else s.setGroup gid { g with h := { g.h with kept := giveKept on st res g.h.kept } }
  else match s.launchOf part launch with
    | some l => s.setLaunch { l with saved := l.saved.map (fun x =>
        if x.gid == gid && x.block == block && !handler then { x with kept := giveKept on st res x.kept } else x) }
    | none => s
/-- The yields and waits of an instance. -/
def onColl (desc key : W64) : YieldOn → Bool | .coll d k => d == desc && k == key | _ => false
/-- A contribution's issuer learns its status: a group, or for a bound tile its launch (R369, R371). -/
def State.tellMember (s : State) (desc key : W64) (chunk : W32) (bitmap : W64) (c : CollC) (st : BitVec 8) (res : Option (W64 × W64)) : State :=
  match c.bound with
  | none => s.give c.gid c.part c.launch c.block c.handler (onColl desc key) st res
  | some sl => match s.launchOf c.part c.launch with
    | some l =>
      let l1 := { l with bound := l.bound.filter (fun b => !(b.1 == sl && b.2 == chunk)) }
      s.setLaunch (if st ≠ 0 ∧ l.status = 0 then { l1 with status := st, coll := sl.setWidth 8, contrib := bitmap }
        else if l.status = 0 then { l1 with contrib := bitmap } else l1)
    | none => s

/-! Issue (R373, R374) -/

/-- An address that is canonical and aligned. -/
def addrOk (v : W64) (n : Nat) : Bool := canonical v && decide (v.toNat % n = 0)
/-- The PASID of the launch that a group belongs to; its handler runs in another (R366, R369). -/
def State.launchPasid (s : State) (g : Group) : BitVec 20 :=
  match s.launchOf g.part g.launch with | some l => l.record.extractLsb' 128 20 | none => g.pasid
/-- The CLE of a group's die, in the group's launch's address space with the group's privilege (R366, R369). -/
def State.cleAgent (s : State) (gid : Gid) (g : Group) : Agent := { die := gid.die, core := none, pasid := s.launchPasid g, priv := g.priv }
/-- The issuer waits or yields on an object; `st`: the status, where it has one already (R373). -/
def collWait (d : SReg) (cont : Option W64) (on : YieldOn) (w : SWait) (st : Option (BitVec 8)) (s : State) : Out :=
  match cont, st with
  | some a, st => .next (s.setCur { s.cur with pc := a, st := .yielding { on := on, d := d, cmd := false, got := st } })
  | none, some x => scalarNext (fun g => g.setSr d (x.setWidth 64)) s
  | none, none => .next (s.setCur { s.cur with wait := w }).stalled
/-- Operand k of a run: where the instruction replays, the log holds the first four; the others stand in their registers, since
nothing issues past it (R319, R320; log 29). -/
def Group.runAt (g : Group) (a : SReg) (k : Nat) : W64 :=
  match g.replaying false with
  | some l => if k < 4 then l.srcs.sc.getD k 0 else g.srAt a k
  | none => g.srAt a k
/-- Ends a `coll` or a `samp` that has not sent: a deferred fault logs it, and its stream stays at it (R318, R319; log 29). -/
def collEnds (i : Instr) (a : SReg) (s0 : State) (r : EStateM.Result Stop State Unit) : Out :=
  finish false true s0.cur.pc ((encodeScalar i).setWidth 96) (some { sc := (List.range 4).map (s0.cur.runAt a) }) s0 r
/-- FP32 words from an address on, each translated before any is read; the accesses are the group's (R318, R321). -/
def collWords (x : W64) (n : Nat) : Acc (List Byte) := do
  let ag ← curAgent
  let l := (List.range n).map (fun i => ({ off := 4 * i, va := x + BitVec.ofNat 64 (4 * i) } : OneAcc))
  let as ← resolveAll (fun o => translate ag (x + BitVec.ofNat 64 o) .read) 4 l
  readUnits (l.zip as)
/-- Sends a contribution: the descriptor is read, then `data` gives the bytes. -/
def collSend (i : Instr) (d a : SReg) (cont : Option W64) (desc key : W64) (opOk : Nat → Bool) (tok : Bool) (scr : W64)
    (data : Nat → Acc (List Byte)) (s0 : State) : Out :=
  let on : YieldOn := .coll desc key
  let w : SWait := .coll desc key d
  let ag := s0.cleAgent s0.curG s0.cur
  let s := s0.setCur (s0.cur.setLog false none)
  match (readVirt ag desc 64 .read).run s with
  | .error (.fault x) s1 => collWait d cont on w (some (collStatus x.cause)) s1
  | .error _ s1 => .next (s0.noted s1).stalled
  | .ok v s1 =>
    let words := BitVec.ofNat 512 v
    if !opOk (dOp words) || !chunkOk words then collWait d cont on w (some 0x23) s1
    else match (data (dChunk words)).run s1 with
      | .error e s2 => collEnds i a s0 (.error e s2)
      | .ok bs s2 =>
        let g := s2.cur
        let c : CollC := { die := s.curG.die, data := bs, gid := s.curG, part := g.part, launch := g.launch, block := g.block,
                           bound := none, tok := tok, scr := scr, pasid := ag.pasid, priv := ag.priv, handler := g.h.on }
        let s3 := { s2 with sends := s2.sends ++ [{ desc := desc, key := key, chunk := 0, words := words, c := c }] }
        collWait d cont on w none s3
/-- The first operand of a run that breaks its rule, of (place, whether it keeps it). -/
def runBad (a : SReg) (l : List (Nat × Bool)) : Option SReg := (l.find? (fun p => !p.2)).map (fun p => a + BitVec.ofNat 6 p.1)
def execCollRun (d a : SReg) (cont : Bool) (s : State) : Out :=
  let r := s.cur.runAt a
  let i : Instr := .collRun d a cont
  match runBad a [(0, addrOk (r 0) 64), (1, addrOk (r 1) 4)] with
  | some x => scalarAcc i (raiseReg .sa x) s
  | none => collSend i d a (contAt s.cur a cont 3) (r 0) (r 2) (fun o => decide (1 ≤ o ∧ o ≤ 4)) false 0
      (fun n => collWords (r 1) (n / 4)) s
/-- R372: the communication group of the block. -/
def State.isComm (s : State) (g : Group) : Bool :=
  match s.launchOf g.part g.launch with
  | some l => bitOf l.record 109 && l.record.extractLsb' 110 4 == g.gidx
  | none => false
/-- R372, R373. The CLE's copy reports what fails in it as the status (log 29). -/
def execCollPut (d a : SReg) (cont : Bool) (s : State) : Out :=
  let r := s.cur.srAt a
  let i : Instr := .collPut d a cont
  if !s.isComm s.cur then scalarAcc i (raise .illegalInstr) s
  else match runBad a [(0, canonical (r 0)), (1, canonical (r 1))] with
    | some x => scalarAcc i (raiseReg .sa x) s
    | none =>
      let bad := decide ((r 2).toNat = 0 ∨ 2 ^ 24 < (r 2).toNat)
      collWait d (contAt s.cur a cont 3) (.put (r 0) (r 1) (r 2)) (.put (r 0) (r 1) (r 2) d) (if bad then some 0x23 else none) s

/-- The key of one logit (R114, R374). -/
def sampKey (grd : Bool) (seed pos base : W64) (r x : W32) (i : Nat) : W32 :=
  if grd then canon32 x
  else
    let h := zhash64 seed (BitVec.ofNat 64 (bitsOf pos 0 32 * 2 ^ 32 + base.toNat + i))
    let u : FVal := .fin (2 * bitsOf h 41 23 + 1 : Nat) (-24)
    ffmaRn x r (fnegBits (log2Rn (fnegBits (f32rn (log2Val u)))))
/-- The best pair of the logits from index i on. -/
def sampBest (grd : Bool) (seed pos base : W64) (r : W32) : List W32 → Nat → Option (W32 × W32) → W32 × W32
  | [], _, b => b.getD (nan32, 0)
  | x :: t, i, b =>
    let p := (sampKey grd seed pos base r x i, BitVec.ofNat 32 (base.toNat + i))
    sampBest grd seed pos base r t (i + 1) (some (match b with | some q => better q p | none => p))
def execSamp (d a : SReg) (cont grd tok : Bool) (s : State) : Out :=
  let r := s.cur.runAt a
  let i : Instr := .samp d a cont grd tok
  let n := (r 1).toNat
  match runBad a [(0, addrOk (r 0) 4), (1, decide (1 ≤ n ∧ n ≤ 2 ^ 20)), (2, decide ((r 2).toNat + n ≤ 2 ^ 32)), (5, bitsOf (r 5) 32 32 == 0),
      (6, addrOk (r 6) 64), (7, !tok || addrOk (r 7) 256)] with
  | some x => scalarAcc i (raiseReg .sa x) s
  | none => collSend i d a (contAt s.cur a cont 8) (r 6) (r 4) (fun o => o == 5) tok (r 7)
      (fun _ => do
        let bs ← collWords (r 0) n
        pure (pairBytes (sampBest grd (r 3) (r 4) (r 2) ((r 5).setWidth 32) (toWords bs) 0 none))) s

/-! At the root (R367, R370, R377) -/

/-- The member table, entry after entry. -/
def readTable (ag : Agent) (a : W64) : Nat → Acc (List W64)
  | 0 => pure []
  | n + 1 => do
    let v ← readVirt ag a 8 .read
    let t ← readTable ag (a + 8) n
    pure (BitVec.ofNat 64 v :: t)
/-- An entry of the access-control table admits a node's access (R364). -/
def admits (s : State) (node : BitVec 12) (right : Nat) (i : Option (BitVec 12)) : Bool :=
  s.act.any (fun p => bitOf p.2 63 && bitOf p.2 right && p.2.extractLsb' 0 12 == node &&
    (match i with | some k => p.2.extractLsb' 32 12 == k | none => true))
/-- A member of a partition lets every node of the instance in, by its own table (R364, R377). -/
def fedOk (s : State) (p : BitVec 3) (fed : Bool) (t : List W64) : Bool :=
  t.all (fun e => memNode e == 0 || s.act.any (fun x =>
    bitOf x.2 63 && bitOf x.2 59 && bitsOf x.2 0 12 == memNode e &&
    ((bitOf x.2 57 && x.2.extractLsb' 52 3 == p) || (bitOf x.2 58 && fed))))
/-- An instance is the pair of the descriptor's address and the key (R367). -/
def Coll.of (o : Coll) (desc key : W64) : Bool := o.desc == desc && o.key == key
def Coll.is (o : Coll) (desc key : W64) (chunk : W32) : Bool := o.of desc key && o.chunk == chunk
def State.setColl (s : State) (o : Coll) : State := { s with colls := o :: s.colls.filter (fun x => !x.is o.desc o.key o.chunk) }
/-- The chunks of an instance. -/
def State.instanceOf (s : State) (desc key : W64) : List Coll := s.colls.filter (fun o => o.of desc key)
/-- The instance fails: each chunk that has not completed, and by `State.joins` each later one, takes the status (R367, R370, R377). -/
def State.failPair (s : State) (desc key : W64) (st : BitVec 8) : State :=
  { s with colls := s.colls.map (fun o => if o.of desc key && !o.done && o.status == 0 then { o with status := st } else o) }
/-- The ranks that have contributed, as bits (R370). -/
def Coll.bitmap (o : Coll) : W64 := o.cs.foldl (fun m p => m ||| (1#64 <<< p.1.toNat)) 0
/-- The die whose engine is the root; another package's root shares no clock with this one. -/
def Coll.root (o : Coll) : BitVec 3 := memDie (o.table.headD 0)
/-- The core whose cycles the root counts. -/
def rootCore (d : BitVec 3) : BitVec 10 := d ++ 0#7
/-- The status word of a member (R370). -/
def statusBytes (st : BitVec 8) (bitmap : W64) : List Byte := natToBytes 8 st.toNat ++ natToBytes 8 bitmap.toNat
/-- Bytes from an address on, cut at the pages' ends; `n` bounds the cuts. -/
def pieces (va : W64) (l : List Byte) : Nat → List (W64 × List Byte)
  | 0 => [(va, l)]
  | n + 1 =>
    let room := 0x10000 - va.toNat % 0x10000
    if l.length ≤ room then [(va, l)] else (va, l.take room) :: pieces (va + BitVec.ofNat 64 room) (l.drop room) n
/-- The pieces at their physical addresses, each translated as a write. -/
def placePieces (ag : Agent) : List (W64 × List Byte) → Acc (List (Nat × List Byte))
  | [] => pure []
  | p :: t => do
    let a ← translate ag p.1 .write
    let r ← placePieces ag t
    pure ((a, p.2) :: r)
def writePieces (ag : Agent) : List (Nat × List Byte) → Acc Unit
  | [] => pure ()
  | p :: t => do physWrite ag p.1 p.2; writePieces ag t
/-- A write of a collective's engine: made whole or not at all (R369). Its status, unless it stalls (R36). -/
def State.collWrite (s : State) (ag : Agent) (va : W64) (l : List Byte) : Tried (BitVec 8 × State) :=
  match (do writePieces ag (← placePieces ag (pieces va l (l.length / 0x10000 + 1))) : Acc Unit).run s with
  | .ok _ s1 => .ok (0, s1)
  | .error (.fault x) s1 => .ok (collStatus x.cause, s1)
  | .error _ s1 => .error s1
/-- Completes an instance on one member, unless one of its writes stalls: the result where there is one, the status word, the issuer
(R369, R370). Its writes name no block: they tag no chunk, as those of a token slot and of a redistribution do not (DESIGN CHOICE,
log 99). -/
def State.tellOne (s : State) (o : Coll) (st : BitVec 8) (out : List Byte) (res : Option (W64 × W64)) (c : CollC) : Tried State := do
  let ag : Agent := { die := c.die, core := none, pasid := c.pasid, priv := c.priv }
  let w := o.words
  let (e1, s1) ← if st = 0 then s.collWrite ag (dWord w 2 + BitVec.ofNat 64 (o.chunk.toNat * outBytes w)) out else pure (0, s)
  let st1 := if st = 0 then e1 else st
  let (e2, s2) ← if dWord w 3 = 0 then pure (0, s1) else s1.collWrite ag (dWord w 3) (statusBytes st1 o.bitmap)
  let st2 := if e2 = 0 then st1 else e2
  pure (s2.tellMember o.desc o.key o.chunk o.bitmap c st2 (if st2 = 0 then res else none))
/-- A rank of another package. -/
def Coll.isPeer (o : Coll) (r : BitVec 6) : Bool := memNode (o.table.getD r.toNat 0) != 0
/-- Completes a chunk on every member that has contributed, unless a write stalls; the chunk stays known to the members that
have not (log 30). -/
def State.closeColl (s : State) (o : Coll) (st : BitVec 8) (stOf : CollC → BitVec 8) (out : List Byte) (res : Option (W64 × W64)) : Tried State :=
  (o.cs.filter (fun p => !o.isPeer p.1)).foldl (fun s p => s.bind (fun s => s.tellOne o (stOf p.2) out res p.2))
    (.ok (s.setColl { o with done := true, status := st }))

/-- The member has contributed to a chunk before. -/
def Coll.has (o : Coll) (r : BitVec 6) : Bool := o.cs.any (fun p => p.1 == r) || bitOf o.late r.toNat
/-- The member contributes to the instance anew: to a chunk that has its contribution, or for another launch (R367). -/
def Send.again (x : Send) (o : Coll) (r : BitVec 6) : Bool :=
  (o.chunk == x.chunk && o.has r) || o.cs.any (fun p => p.1 == r && (p.2.part != x.c.part || p.2.launch != x.c.launch))
/-- The chunk that a contribution joins, with the state that holds it: an instance all of whose chunks have completed is followed by a
new one where a member comes again; a chunk begins with its instance's first cycle, and with the status of an instance that has
failed (R367, R370; log 30). -/
def State.joins (s : State) (x : Send) (t : List W64) (r : Option (BitVec 6)) : State × Coll :=
  let l := s.instanceOf x.desc x.key
  let fresh := l.all (fun o => o.done) && (match r with | some r => l.any (fun o => x.again o r) | none => false)
  let s1 := if fresh then { s with colls := s.colls.filter (fun o => !o.of x.desc x.key) } else s
  let l := s1.instanceOf x.desc x.key
  let begun := match l with | o :: _ => o.begun | [] => (s.core (rootCore (memDie (t.headD 0)))).cyc
  let st := match l.find? (fun o => o.status != 0) with | some o => o.status | none => 0
  (s1, (l.find? (fun o => o.chunk == x.chunk)).getD
    { desc := x.desc, key := x.key, chunk := x.chunk, pasid := x.c.pasid, words := x.words, table := t, cs := [], begun := begun,
      status := st, done := st != 0 && l.all (fun o => o.done), token := false })
/-- A contribution arrives at the root (R367, R370, R377), unless an access stalls. A second one to an open instance concerns its
issuer only; then the member's own check; a chunk that has completed answers with its status. -/
def State.arrive (s : State) (x : Send) : Tried State :=
  let c := x.c
  let tell := fun (s : State) (st : BitVec 8) => s.tellMember x.desc x.key x.chunk 0 c st none
  match (readTable { die := c.die, core := none, pasid := c.pasid, priv := c.priv } (dWord x.words 1) (dMem x.words)).run s with
  | .error (.fault i) s1 => .ok (tell s1 (collStatus i.cause))
  | .error _ s1 => .error s1
  | .ok t s1 =>
    let rs := ranksOf t c.die
    let one := decide (rs.length = 1)
    let r := BitVec.ofNat 6 (rs.headD 0)
    let (s2, o) := s1.joins x t (if one then some r else none)
    let bad := !one || !t.all memOk || !descClean x.words || dOp x.words != dOp o.words || dMem x.words != dMem o.words ||
      dChunk x.words != dChunk o.words
    if one && o.has r then .ok (tell s2 0x23)
    else if !fedOk s2 c.part (dFed x.words) t then
      .ok (tell ((s2.setColl { o with late := if one then putBit o.late r.toNat true else o.late }).failPair x.desc x.key 0x25) 0x24)
    else if !one then .ok (tell ((s2.setColl o).failPair x.desc x.key 0x23) 0x23)
    else if o.done then (s2.setColl { o with late := putBit o.late r.toNat true }).tellOne o o.status [] none c
    else
      let s3 := s2.setColl { o with cs := o.cs ++ [(r, c)] }
      .ok (if bad then s3.failPair x.desc x.key 0x23 else s3)

/-- COLL_CONTRIBUTION: a contribution of a die of this package, or one that a peer sends, if the table admits the peer's collective
traffic and its link is up (R364, R391). The peer's bytes are free, and so is whether its own check has failed or its descriptor
disagrees (R377; log 7). -/
def execCollContribution (desc key : W64) (rank : BitVec 6) (chunk : W32) (s : State) : Out :=
  let hit := fun (x : Send) => x.desc == desc && x.key == key && x.chunk == chunk
  let mine := fun (x : Send) =>
    match (readTable { die := x.c.die, core := none, pasid := x.c.pasid, priv := x.c.priv } (dWord x.words 1) (dMem x.words)).run s with
    | .ok t _ => decide ((ranksOf t x.c.die).length ≠ 1) || ranksOf t x.c.die == [rank.toNat]
    | .error _ _ => true
  match s.sends.find? (fun x => hit x && mine x) with
  | some x => .next (s.orWait ({ s with sends := s.sends.erase x }.arrive x))
  | none =>
    match s.colls.find? (fun o => o.is desc key chunk && !o.done) with
    | none => .next s
    | some o =>
      let node := memNode (o.table.getD rank.toNat 0)
      if dMem o.words ≤ rank.toNat ∨ o.isPeer rank = false ∨ o.has rank = true ∨ admits s (BitVec.ofNat 12 node) 59 none = false ∨
         s.linkDown node = true then .next s
      else
        let (v, s1) := s.free
        if bitOf v 0 then .next (s1.failPair desc key (if bitOf v 1 then 0x25 else 0x23))
        else
          let n := dChunk o.words
          let c : CollC := { die := memDie (o.table.getD rank.toNat 0), data := natToBytes n (peerBytes n s1.fresh), gid := 0, part := 0,
                             launch := 0, block := 0, bound := none, tok := false, scr := 0, pasid := o.pasid, priv := false }
          .next ({ s1 with fresh := s1.fresh + n }.setColl { o with cs := o.cs ++ [(rank, c)] })

/-- Every rank has contributed. -/
def Coll.full (o : Coll) : Bool := (List.range (dMem o.words)).all (fun r => o.cs.any (fun p => p.1.toNat == r))
/-- The contribution of rank 0 asks for a token (R375). -/
def Coll.tokenOf (o : Coll) : Option CollC := (o.cs.find? (fun p => p.1 == 0 && p.2.tok)).map (fun p => p.2)
/-- The bytes by rank. -/
def Coll.data (o : Coll) : List (List Byte) :=
  (List.range (dMem o.words)).map (fun r => ((o.cs.find? (fun p => p.1.toNat == r)).map (fun p => p.2.data)).getD [])
/-- The winner's index and key from a result of 8 bytes (R374). -/
def winner (op : Nat) (out : List Byte) : Option (W64 × W64) :=
  if op = 5 then some (BitVec.ofNat 64 (bytesToNat (out.take 4)), BitVec.ofNat 64 (bytesToNat (out.drop 4))) else none
/-- The root lies in another package. -/
def Coll.away (o : Coll) : Bool := o.isPeer 0
/-- The first occasion of a name that has not completed. -/
def State.openColl (s : State) (desc key : W64) (chunk : W32) : Option Coll :=
  s.colls.find? (fun o => o.desc == desc && o.key == key && o.chunk == chunk && !o.done)
/-- Every rank of this package has contributed. -/
def Coll.localFull (o : Coll) : Bool :=
  (List.range (dMem o.words)).all (fun r => o.isPeer (BitVec.ofNat 6 r) || o.cs.any (fun p => p.1.toNat == r))
/-- COLL_COMPLETE (R368, R369, R375). The outcome of a root in another package is free, but it is never ok before every rank of this
package has contributed (R367), nor over a lost link (log 7). -/
def execCollComplete (desc key : W64) (chunk : W32) (s : State) : Out :=
  match s.openColl desc key chunk with
  | none => .next s
  | some o =>
    if o.status ≠ 0 then .next (s.orWait (s.closeColl o o.status (fun _ => o.status) [] none))
    else if o.away then
      let (v, s1) := s.free
      let n := outBytes o.words
      let out := natToBytes n (peerBytes n s1.fresh)
      let s2 := { s1 with fresh := s1.fresh + n }
      if bitOf v 0 then
        if o.localFull && !s.linkDown (memNode (o.table.headD 0)) then
          .next (s.orWait (s2.closeColl o 0 (fun _ => 0) out (winner (dOp o.words) out)))
        else .next s
      else .next (s2.failPair desc key (if bitOf v 1 then 0x25 else if bitOf v 2 then 0x26 else 0x23))
    else if !o.full || (o.tokenOf.isSome && !o.token) then .next s
    else
      let out := collResult o.words o.data
      .next (s.orWait (s.closeColl o 0 (fun _ => 0) out (winner (dOp o.words) out)))
/-- COLL_DEADLINE (R370): the root's cycles reach the deadline (log 5), and the instance completes with timeout: every chunk that still
waits for a contribution. -/
def execCollDeadline (desc key : W64) (s : State) : Out :=
  let late := fun (o : Coll) => o.of desc key && !o.done && o.status == 0 && !o.away && !o.full && dWord o.words 4 != 0
  match s.colls.find? late with
  | none => .next s
  | some o =>
    let c := rootCore o.root
    let x := s.core c
    let s1 := s.setCore c { x with cyc := if (x.cyc - o.begun).ult (dWord o.words 4) then o.begun + dWord o.words 4 else x.cyc }
    .next (s.orWait ((s1.colls.filter late).foldl (fun s o => s.bind (fun s => s.closeColl o 0x26 (fun _ => 0x26) [] none)) (.ok s1)))

/-- The token slot and the entry of an occasion's winner, as the root's engine reaches them (R375). -/
def tokenPlace (c : CollC) (token : W32) : Acc (W64 × List Nat × W64) := do
  let ag : Agent := { die := c.die, core := none, pasid := c.pasid, priv := c.priv }
  let _ ← translate ag c.scr .read
  let seq ← readVirt ag (c.scr + 0xD0) 8 .read
  let slot ← readVirt ag (c.scr + 0xC0) 8 .read
  let pasid ← readVirt ag (c.scr + 0x38) 8 .read
  let va := BitVec.ofNat 64 slot
  let ag2 := { ag with pasid := BitVec.ofNat 20 pasid }
  let as ← byteAddrs (fun o => translate ag2 (va + BitVec.ofNat 64 o) .write) 0 8 va
  pure (va, as, tokenEntry (BitVec.ofNat 64 seq) 0 token)
/-- The root's issuer's interface. -/
def State.tokenIface (s : State) (c : CollC) : BitVec 12 := match s.launchOf c.part c.launch with | some l => l.iface | none => 0
/-- A token entry written in the token slot goes to the ring once that has room; an interface that appends none is done (R375). -/
def State.tokenRing (s : State) (o : Coll) (c : CollC) (e : W64) : State :=
  let i := s.tokenIface c
  let x := s.iface i
  if bitOf x.tokCtl 63 && (!x.tokRoom || x.tokens != []) then s.setColl { o with slot := some e }
  else (s.appendToken i e).setColl { o with slot := some e, token := true }
/-- TOKEN_APPEND (R375): the root writes the token slot, then, once the ring has room, the ring. -/
def execTokenAppend (desc key : W64) (s : State) : Out :=
  match s.openColl desc key 0 with
  | none => .next s
  | some o =>
    match o.tokenOf with
    | none => .next s
    | some c =>
      if o.status ≠ 0 ∨ o.away = true ∨ o.full = false ∨ o.token = true then .next s
      else match o.slot with
        | some e => .next (s.tokenRing o c e)
        | none =>
          let out := collResult o.words o.data
          match (tokenPlace c (BitVec.ofNat 32 (bytesToNat (out.take 4)))).run s with
          | .error (.fault f) s1 => .next (s1.setColl { o with status := collStatus f.cause })
          | .error _ s1 => .next (s.noted s1)
          | .ok (_, as, e) s1 =>
            match (writeAddrs { die := c.die, core := none, pasid := c.pasid, priv := c.priv } as (natToBytes 8 e.toNat)).run s1 with
            | .ok _ s2 | .error _ s2 => .next (s2.tokenRing o c e)

/-! `coll.put` (R373) -/

/-- Copies n bytes from place k on. -/
def putCopy (ag : Agent) (dst src : W64) : Nat → Nat → Acc Unit
  | 0, _ => pure ()
  | n + 1, k => do
    let v ← readVirt ag (src + BitVec.ofNat 64 k) 1 .read
    writeVirt ag (dst + BitVec.ofNat 64 k) [BitVec.ofNat 8 v]
    putCopy ag dst src n (k + 1)
/-- The `coll.put` that a group waits for. -/
def putOf (st : RunState) (w : SWait) : Option (W64 × W64 × W64) :=
  match st, w with
  | .yielding y, _ | .yielded y, _ => match y.on, y.got with | .put d r n, none => some (d, r, n) | _, _ => none
  | _, .put d r n _ => some (d, r, n)
  | _, _ => none
/-- The address space and privilege of a group's program, which its handler replaces. -/
def State.program (s : State) (g : Group) : BitVec 20 × Bool :=
  match s.launchOf g.part g.launch with
  | some l => if g.h.on then (l.record.extractLsb' 128 20, l.priv) else (g.pasid, g.priv)
  | none => (g.pasid, g.priv)
/-- The `coll.put` that a group's code at work waits for, else its program behind a handler; with the address space and privilege, and
whether a handler waits. -/
def State.putAt (s : State) (g : Group) : Option ((W64 × W64 × W64) × (BitVec 20 × Bool) × Bool) :=
  if !g.live then none
  else match putOf g.st g.wait with
    | some p => some (p, (g.pasid, g.priv), g.h.on)
    | none => if g.h.on then (putOf g.h.kept.st g.h.kept.wait).map (fun p => (p, s.program g, false)) else none
/-- COLL_PUT_COMPLETION: the copy through the engine completes and ends the issuer's wait or yield. -/
def execCollPutCompletion (gid : Gid) (s : State) : Out :=
  let g := s.group gid
  match s.putAt g with
  | none => .next s
  | some ((dst, src, len), p, h) =>
    let ag : Agent := { die := gid.die, core := none, pasid := p.1, priv := p.2, who := some (g.part, g.launch, g.block) }
    let fin := fun (s : State) (st : BitVec 8) =>
      s.give gid g.part g.launch g.block h (fun y => match y with | .put .. => true | _ => false) st none
    match (putCopy ag dst src len.toNat 0).run s with
    | .ok _ s1 => .next (fin s1 0)
    | .error (.fault x) s1 => .next (fin s1 (collStatus x.cause))
    | .error _ s1 => .next (s.noted s1)

end Sys2Proof.Machine
end

