-- ==== Sys2Proof/Machine/Context.lean ====
section
/-! DEFINITION. Returns from handlers, saved state, pre-emption, deferred-fault replies and the fault queue (R316, R323 to R332). -/

namespace Sys2Proof.Machine

/-! Loading a state area (R327, R331) -/

/-- An image: `n` bytes at an offset as one number. -/
abbrev Image := Nat → Nat → Nat
/-- A word of an image. -/
def word64 (f : Image) (o : Nat) : W64 := BitVec.ofNat 64 (f o 8)
/-- Entry k of a saved divergence stack. -/
def stackAt (f : Image) (k : Nat) : DivEntry :=
  let v := f (0x200 + 16 * k) 16
  { join := v / 2 ^ 84 % 2 == 1, pc := BitVec.ofNat 20 (v / 2 ^ 64), mask := BitVec.ofNat 64 v }
/-- The lane stream that an image gives; a lane whose valid bit is 0 holds no thread (log 16). The parts of a shared group and the
wait of the stream are the device's own (R317). -/
def Lane.load (f : Image) (k : Kept) (gidx : BitVec 4) (l : Lane) : Lane :=
  let c := word64 f 0x18
  let region := bitOf c 60
  let depth := bitsOf c 50 6
  let rm : Vector (BitVec 11) 64 := Vector.ofFn (fun j : Fin 64 => BitVec.ofNat 11 (f (0x400 + 2 * j.val) 2))
  let run := word64 f 0x10
  { l with
    lpc := BitVec.ofNat 20 (f 8 4), run := run, active := run != 0 || region,
    runQ := (List.range (min (bitsOf (word64 f 8) 28 4) 8)).map (fun i => BitVec.ofNat 20 (f (0x4C0 + 4 * i) 4)),
    stack := ((List.range (min depth 32)).map (stackAt f)).reverse,
    remap := if region then rm else identityRemap gidx,
    exited := BitVec.ofNat 64 (packNat 1 (fun j => (!bitOf (rm.getD j 0) 10).toNat) 64),
    rs := Vector.ofFn (fun j : Fin 64 => BitVec.ofNat 19 (f (0x100 + 4 * j.val) 4)), drainRs := c.extractLsb' 8 19,
    p := Vector.ofFn (fun i : Fin 7 => word64 f (0x480 + 8 * i.val)),
    inRegion := region, cwait := k.cwait, parts := k.parts, partAt := k.partAt, boost := false, passed := 0 }
/-- Window i of an image: what the device kept of it, or, changed by system code, a window to be retranslated (R27, R30; log 75). -/
def windowAt (f : Image) (k : Kept) (i : Nat) : Window :=
  let w := Window.ofBits (BitVec.ofNat 192 (f (0x700 + 24 * i) 24))
  let y := k.win.getD i {}
  if { w with stale := false, lvl := y.lvl, mig := y.mig } = { y with stale := false } then { y with stale := y.stale || w.stale }
  else { w with stale := w.stale || w.limit != 0 }
/-- The queue or counter, and the number, that an image has a yield wait for (R327); a collective's stay the device's own. -/
def YieldRec.load (f : Image) (y : YieldRec) : YieldRec :=
  let w := word64 f 0x38
  let n := word64 f 0x40
  { y with on := match y.on with
      | .queue .. | .ctr .. => if bitOf w 8 then .ctr (w.extractLsb' 0 8) n else .queue (w.extractLsb' 0 7) n
      | .coll d _ => .coll d n
      | o => o }
/-- The run state that an image gives (R317, R327): `left` is what is left of a park's timeout at the cycle `since`. A park or a
yield that the device has no record of names no status register, and what the device kept stands (DESIGN CHOICE, log 88). -/
def RunState.load (f : Image) (st : RunState) (left since : W64) : RunState :=
  match bitsOf (word64 f 0x18) 57 2, st with
  | 0, .exiting => .exiting
  | 0, _ => .running
  | 1, .parking d _ => .parking d left
  | 1, .parked d _ _ => .parked d left since
  | 2, .yielding y => .yielding (y.load f)
  | 2, .yielded y => .yielded (y.load f)
  | _, st => st
/-- What the word at 0x030 leaves a park: it holds the block's budget instead where there is one, and the device's own record
counts (R327, R334; log 77). -/
def parkLeft (f : Image) (k : Kept) (budget : Bool) : W64 :=
  if budget then (match k.st with | .parking _ t => t | .parked _ t b => leftOf t b k.since | _ => 0) else word64 f 0x30
/-- The wait that an image gives (R317, R327). -/
def SWait.load (f : Image) (w : SWait) : SWait :=
  if bitOf (word64 f 0x18) 61 then
    (match w with | .bar b p => .bar { b with idx := (word64 f 0x38).extractLsb' 9 4 } p | w => w)
  else .none
/-- What `hret.resume` takes from the image: everything that the handler's start reset or replaced, and the control words
(R326, R327, R328). `budget`: the block has a cycle budget; `since`: the cycle that a park's timeout is counted from. -/
def Group.loadControl (f : Image) (k : Kept) (budget : Bool) (since : W64) (g : Group) : Group :=
  let c := word64 f 0x18
  { g with
    pc := word64 f 0, s := Vector.ofFn (fun i : Fin 64 => word64 f (0x500 + 8 * i.val)), sp := BitVec.ofNat 8 (f 0x858 1),
    win := Vector.ofFn (fun i : Fin 8 => windowAt f k i.val),
    ln := g.ln.load f k g.gidx, cls := c.extractLsb' 48 2,
    st := k.st.load f (parkLeft f k budget) since, wait := k.wait.load f,
    mon := if bitOf c 56 then some (word64 f 0x48) else none,
    slog := OpLog.ofBits (BitVec.ofNat 16384 (f 0x4000 2048)), llog := OpLog.ofBits (BitVec.ofNat 16384 (f 0x4800 2048)),
    sfetch := none, lfetch := none, boost := false, passed := 0 }
/-- What a context restore or a debug write takes beside that: views, descriptors, scale registers, tags, queues. A bound tile's
descriptor, tag and entries stand in an image twice: those at 0x7D8, 0x860 and 0x900 count, not the paired heads (R110; DESIGN
CHOICE, log 93). -/
def Group.loadRest (f : Image) (g : Group) : Group :=
  let cnt := word64 f 0x20
  { g with
    q := Vector.ofFn (fun i : Fin 8 => (List.range (min (bitsOf cnt (3 * i.val) 3) 4)).map (fun k =>
      BitVec.ofNat 2048 (f (0x2000 + 1024 * i.val + 256 * k) 256))),
    y := Vector.ofFn (fun i : Fin 4 => (List.range (min (bitsOf cnt (24 + 5 * i.val) 5) 16)).map (fun k =>
      word64 f (0x1900 + 128 * i.val + 8 * k))),
    rg := { g.rg with
      vview := word64 f 0x7C0, tview := word64 f 0x7C8, aview := word64 f 0x7D0,
      tdesc := Vector.ofFn (fun i : Fin 16 => word64 f (0x7D8 + 8 * i.val)),
      etag := Vector.ofFn (fun i : Fin 32 => BitVec.ofNat 12 (f (0x860 + 2 * i.val) 2)),
      e := Vector.ofFn (fun i : Fin 32 => BitVec.ofNat 512 (f (0x900 + 64 * i.val) 64)) } }
/-- The reserved fields of a state area as (offset of the word, lowest bit, bits) (R27, R93, R94, R109, R117, R265, R320, R322,
R327). -/
def reservedFields : List (Nat × Nat × Nat) :=
  [(0x008, 32, 32), (0x008, 20, 8), (0x018, 27, 3), (0x018, 0, 8), (0x020, 44, 20), (0x038, 13, 51), (0x0A0, 12, 23), (0x0B0, 0, 32),
    (0x7C0, 35, 29), (0x7C0, 17, 7), (0x7C8, 35, 29), (0x7C8, 17, 7), (0x7D0, 40, 24), (0x7D0, 17, 7), (0x4010, 32, 30), (0x4810, 32, 30)] ++
  (List.range 32).map (fun k => (0x208 + 16 * k, 21, 43)) ++
  (List.range 8).flatMap (fun i => [(0x700 + 24 * i, 0, 5), (0x700 + 24 * i, 12, 18)]) ++
  (List.range 16).flatMap (fun t => [(0x7D8 + 8 * t, 17, 11), (0x7D8 + 8 * t, 44, 2), (0x1100 + 128 * t, 17, 11), (0x1100 + 128 * t, 44, 2),
    (0x1108 + 128 * t, 12, 4), (0x1108 + 128 * t, 21, 43)]) ++
  (List.range 32).flatMap (fun e => (List.range 32).map (fun i => (0x900 + 64 * e + 2 * i, 14, 2)))
/-- An image that `hret.resume` accepts: valid, no reserved field set (R328). -/
def imageValid (f : Image) : Bool :=
  bitOf (word64 f 0x18) 63 && reservedFields.all (fun r => bitsOf (word64 f r.1) r.2.1 r.2.2 == 0) &&
  (List.range 16).all (fun t => f (0x1110 + 128 * t) 0x30 == 0) && f 0x4540 0x2C0 == 0 && f 0x4D40 0x2C0 == 0

/-! Pre-emption (R330, R331) -/

/-- A range of memory copied whole. -/
def copyRange (m : Sparse 8) (src dst n : Nat) : Sparse 8 :=
  (m.filter (fun p => decide (src ≤ p.1 ∧ p.1 < src + n))).foldl (fun m p => Sparse.set m (p.1 - src + dst) p.2) (Sparse.clear m dst n)
/-- A range of memory written with a copy of another; the writes perform at the home (R224). -/
def State.copyMem (s : State) (src dst n : Nat) : State :=
  let s1 := s.zeroRange dst n
  { s1 with mem := copyRange s.mem src dst n }
/-- The area of a core (R331). -/
def coreArea (s : State) (c : BitVec 10) (p : BitVec 3) : Nat := (s.part p).ctxBase.toNat + c.toNat * 0x1000000
/-- Writes a group's register space behind its state area; a word that could not be corrected as the bytes it holds (DESIGN CHOICE,
log 91). -/
def State.saveRegs (s : State) (gid : Gid) : State :=
  let g := s.group gid
  let a := g.h.area.toNat + 0x6000
  let s := s.zeroRange a g.rg.declared.toNat
  (g.rg.rows.filter (fun r => decide (r.1 * 256 < g.rg.declared.toNat))).foldl (fun s r =>
    s.write (a + 256 * r.1) (natToBytes 256 r.2.toNat)) s
/-- A block's record of 128 bytes; `slot_count` takes two bytes, since it may be 256. -/
def blockRecord (b : Block) : Nat :=
  packFields (b.bars.toList.map (fun x => (32, packFields [(5, x.count.toNat), (5, x.arr.toNat), (1, x.isOpen.toNat), (21, x.phase)])) ++
    [(256, b.frames.foldl (fun m f => m ||| 2 ^ f.toNat) 0), (8, b.slotBase.toNat), (16, b.slotCount.toNat), (232, 0)])
/-- The lowest slot of a block, saved groups counted. -/
def lowSlot (s : State) (b : Block) : Nat :=
  let old := match s.launchOf b.part b.launch with | some l => (l.saved.filter (fun x => x.block == b.idx)).map Saved.gid | none => []
  (b.gids ++ old).foldl (fun m g => min m g.slot.toNat) 63
/-- Writes the shelf area of a core: its blocks' records and frames, and the partition's tag-table entries, of which those of a block that
has left already stand as they were saved (R331). -/
def State.saveShelf (s : State) (c : BitVec 10) (p : BitVec 3) : State :=
  let a := coreArea s c p
  let qb := (s.core c).quotaB.getD p.toNat 0
  let bs := s.blocks.filter (fun b => b.core == c && b.part == p)
  let kept := s.launches.any (fun l => l.part == p && l.saved.any (fun x => x.core == c))
  let s := (List.range (bitsOf qb 48 16)).foldl (fun s i =>
    let e := bitsOf qb 32 16 + i
    if kept && !bs.any (fun b => decide (b.slotBase.toNat ≤ e ∧ e < b.slotBase.toNat + b.slotCount.toNat)) then s
    else s.write64 (a + 8 * e) (Sparse.get (s.core c).tags e)) s
  bs.foldl (fun s b =>
    let s := s.write (a + 0x1000 + 128 * lowSlot s b) (natToBytes 128 (blockRecord b))
    b.frames.foldl (fun s f => s.copyMem (frameBase c f.toNat) (a + 0x3000 + 4096 * f.toNat) 4096) s) s
/-- The open commands that fill the shelf of a partition's blocks, each with its queue (R71, R330). -/
def shelfWriters (s : State) (p : BitVec 3) : List (BitVec 3 × BitVec 7 × Cmd) :=
  s.dies.flatMap (fun d => d.2.queues.flatMap (fun q => (q.2.cmds.filter (fun c =>
    c.open && (c.filling s).any (fun x => x.1.part == p))).map (fun c => (BitVec.ofNat 3 d.1, BitVec.ofNat 7 q.1, c))))
/-- Every such command that waits for fault service ends with its cause (R330). -/
def State.endHalted (s : State) (p : BitVec 3) : State :=
  ((shelfWriters s p).filter (fun w => w.2.2.isHalted)).foldl (fun s w => s.endCmd w.1 w.2.1 w.2.2 w.2.2.haltOf) s
/-- A queue goes on until no command of it fills the shelf of a partition's blocks; `n` bounds the commands (R330). -/
def State.driveQueue (s : State) (p : BitVec 3) (die : BitVec 3) (q : BitVec 7) : Nat → State
  | 0 => s
  | n + 1 =>
    if (shelfWriters s p).any (fun w => w.1 == die && w.2.1 == q) then
      (((s.commandBegin die q).commandRun die q).endHalted p).driveQueue p die q n
    else s
/-- The group is in its handler for another cause than pre-emption, and has yet to halt at its `hret.resume`, to vacate or to end (R330). -/
def State.inOther (s : State) (gid : Gid) : Bool := let h := (s.group gid).h; h.on && h.cause != Cause.preempt.code
/-- A halt of the debug port is cleared for a group in its handler, which goes on to its `hret` (R330, R389). -/
def State.freeHandler (s : State) (gid : Gid) : State :=
  let g := s.group gid
  if g.h.on && g.h.halted then s.setGroup gid { g with h := { g.h with halted := false } } else s
/-- A group of a pre-empted partition enters its handler (R330). -/
def State.preemptGroup (s : State) (gid : Gid) : State :=
  let g := s.group gid
  let s := s.setGroup gid { g with h := { g.h with halted := false } }
  if g.h.on then s
  else
    let s := s.raiseTrap gid false { cause := .preempt, here := true } g.pc 0 g.pc
    if (s.group gid).live ∧ (s.group gid).h.cause = Cause.preempt.code then (s.saveRegs gid).saveShelf gid.core g.part else s
/-- The groups of a partition. -/
def State.groupsOf (s : State) (p : BitVec 3) : List Gid := (s.groups.filter (fun y => y.2.live && y.2.part == p)).map (fun y => (BitVec.ofNat 16 y.1 : Gid))
/-- The groups of a pre-empted partition are saved and enter their handlers, once every one of them has halted and no command still fills
the shelf of one of its blocks; one that cannot begin yet, such as behind a trigger, is waited for (R330). -/
def State.preemptSave (s : State) (p : BitVec 3) : State :=
  let s := (s.groupsOf p).foldl State.freeHandler s
  let s := (shelfWriters s p).foldl (fun s w => s.driveQueue p w.1 w.2.1 (s.queue w.1 w.2.1).cmds.length) (s.endHalted p)
  if shelfWriters s p = [] ∧ (s.groupsOf p).any s.inOther = false then ((s.groupsOf p).foldl (fun s g => s.preemptGroup g) s).settlePre p
  else s
/-- The groups of a partition halt; one in its handler goes on (R330). No cycle budget counts meanwhile (R334). -/
def State.haltGroups (s : State) (p : BitVec 3) : State :=
  let s1 : State := { s with blocks := s.blocks.map (fun b => if b.part == p then b.pause (s.core b.core).cyc else b) }
  (s1.groupsOf p).foldl (fun s gid => let g := s.group gid
    if g.h.on then s else s.setGroup gid g.halt) s1
/-- Tenant-debug of a partition ends (R390). -/
def Platform.endTenant (x : Platform) (p : BitVec 3) : Platform :=
  let t := putBit x.tdbg p.toNat false
  { x with tdbg := t, sec := if t = 0 ∧ x.sec = 2 then 1 else x.sec }
/-- PREEMPT_REQUEST (R330): a write of 1 to `pre_ctl.req`; while it stands, the step goes on with what it waits for. -/
def execPreemptRequest (p : BitVec 3) (s : State) : Out :=
  let x := s.part p
  if x.preReq then .next (s.preemptSave p)
  else
    let s := { s.setPart p { x with preReq := true, preDone := false } with plat := s.plat.endTenant p }
    .next ((s.haltGroups p).preemptSave p)

/-! `hret` (R328) -/

/-- The group continues its program from an image: privilege, PASID and lane words from its launch (R317, R327, R328). The
monitor of a group that pre-emption saved is not armed again by the image (R226, R332). Its block's cycle budget counts again (R334). A
pre-emption that waits for the group takes it at once (R330). -/
def State.resume (s : State) (gid : Gid) (f : Image) : State :=
  let x := s.group gid
  let budget := match s.blockAt x with | some b => b.budget != 0 | none => false
  let g := { x.loadControl f x.h.kept budget x.h.kept.since with mon := if x.restored then none else if bitOf (word64 f 0x18) 56 then some (word64 f 0x48) else none }
  let g := match s.launchOf g.part g.launch with
    | some l => { g with priv := l.priv, pasid := l.record.extractLsb' 128 20,
                         ln := { g.ln with lbase := descWord l.kdesc 8, lwords := l.kdesc.extractLsb' 160 32 } }
    | none => { g with priv := false }
  let pre := (s.part g.part).preReq
  let s := ((s.leaveLines gid).setGroup gid { g with h := { halted := g.h.halted || pre } }).thawArray gid
  if pre then s.preemptSave g.part
  else match s.blockAt g with
    | some b => if b.paused then s.setBlock { b with paused := false, begun := (s.core b.core).cyc } else s
    | none => s

/-- Every form of `hret` needs a handler and waits for its lane blocks. -/
def hretRun (i : Instr) (s : State) (f : State → Out) : Out :=
  if !s.cur.h.on then scalarAcc i (raise .privInstr) s
  else if !s.cur.laneIdle then .next s.stalled
  else f s
def execHretResume (a : SReg) (s : State) : Out :=
  let i : Instr := .hretResume a
  hretRun i s (fun s =>
    let v := s.cur.sr a
    let f : Image := fun o n => peek s.mem (v.toNat + o) n
    if bitsOf v 0 12 ≠ 0 ∨ inHbm v.toNat = false then scalarAcc i (raiseReg .sa a) s
    else if s.bad v.toNat 0x6000 then scalarAcc i (raiseAt .dataError v) s
    else if !imageValid f then scalarAcc i (raiseReg .sa a) s
    else if !bitOf (word64 f 0x18) 62 then .next (s.exitGroup s.curG)
    else .next (s.resume s.curG f))
def execHretVacate (a : SReg) (s : State) : Out :=
  hretRun (.hretVacate a) s (fun s =>
    .next (if s.cur.h.cause = Cause.preempt.code then s.vacateGroup s.curG else s.exitGroup s.curG))
def execHretEnd (a : SReg) (s : State) : Out := hretRun (.hretEnd a) s (fun s => .next (s.exitGroup s.curG))

/-! Traps at a boundary, replies (R316, R325, R389) -/

/-- A pending trap is taken as a trap raised at an instruction is (R202, R316, R329, R334); a recorded error of the array comes
first at the trap point (R147). -/
def State.takePend (s0 : State) (gid : Gid) (x : PendTrap) : State :=
  let g := s0.group gid
  let s := s0.setGroup gid { g with h := { g.h with pend := none } }
  let rec5 := x.record &&& ~~~(0xF#512 <<< 60) ||| (5#512 <<< 60)
  match s.mxErrOf gid with
  | some (k, l) => (s.clearMxErr gid).takeTrap gid true (mxErrInfo k) l.addr l.word g.pc
  | none =>
    if g.h.on then (s.post g.part [rec5]).exitGroup gid
    else if s.isLogit g.part g.launch then s0.logitFail gid x.record
    else if g.st = .exiting then (s.post g.part [x.record]).exitGroup gid
    else s.enterHandler gid x.cause x.record g.pc g.ln.lpc
/-- TRAP_ENTRY (R316): the group takes a trap that has reached it. -/
def execTrapEntry (gid : Gid) (s : State) : Out :=
  let g := s.group gid
  if !g.live || g.h.halted then .next s
  else match g.h.pend with
    | some x => .next (s.takePend gid x)
    | none => .next s

/-- The record of a deferred fault as a trap's record: one record, no more (R322). -/
def soloRecord (r : BitVec 512) : BitVec 512 := r &&& ~~~(0x1FFF#512 <<< 39)
/-- The record of what a stream waits for: its logged instruction or its held fetch (R318, R325). -/
def Group.pendingFault (g : Group) (lane : Bool) : Option (BitVec 512) :=
  match g.log lane with
  | some l => if l.valid || l.scrub then none else some l.record
  | none => if lane then g.lfetch else g.sfetch
/-- FQ_REPLY_REPLAY (R325). -/
def execFqReplyReplay (p : BitVec 3) (gid : Gid) (lane : Bool) (s : State) : Out :=
  let g := s.group gid
  if !g.live || g.part != p || (g.pendingFault lane).isNone then .next s
  else match g.log lane with
    | some l => .next (s.setGroup gid (g.setLog lane (some { l with valid := true })))
    | none => .next (s.setGroup gid (if lane then { g with lfetch := none } else { g with sfetch := none }))
/-- FQ_REPLY_TRAP (R325). -/
def execFqReplyTrap (p : BitVec 3) (gid : Gid) (lane : Bool) (s : State) : Out :=
  let g := s.group gid
  match g.pendingFault lane with
  | some r =>
    if !g.live || g.part != p then .next s
    else
      let x : PendTrap := { cause := .xlat (r.extractLsb' 52 4), record := soloRecord r, pc := g.pc, lpc := g.ln.lpc }
      .next (s.setGroup gid { g with h := { g.h with pend := some x } })
  | none => .next s

/-! The fault queue (R323, R324) -/

/-- FAULT_RECORD_DELIVER (R324): the oldest waiting record, if the ring has room. -/
def execFaultRecordDeliver (p : BitVec 3) (s : State) : Out :=
  let x := s.part p
  match x.waiting with
  | [] => .next s
  | r :: t =>
    if !x.fqEn || ringFull x.fqTail x.fqHead x.fqLog2.toNat then .next s
    else
      let s1 := s.write (x.fqBase.toNat + 64 * (x.fqTail.toNat % 2 ^ x.fqLog2.toNat)) (natToBytes 64 r.toNat)
      let s2 := s1.setPart p { x with waiting := t, fqTail := x.fqTail + 1 }
      let s3 := if x.mirror = 0 then s2 else s2.write64 x.mirror.toNat ((x.fqTail + 1).setWidth 64)
      .next (if x.fqTail = x.fqHead then s3.raiseMsix false x.fqMsix else s3)
/-- A ring size of R323 and R354. -/
def ringOk (n : Nat) : Bool := decide (4 ≤ n ∧ n ≤ 16)
/-- FQ_CTL_WRITE (R323). -/
def execFqCtlWrite (p : BitVec 3) (v : W64) (s : State) : Out :=
  let x := s.part p
  .next (s.setPart p { x with fqEn := bitOf v 63 && ringOk (bitsOf v 0 5), fqMsix := v.extractLsb' 8 8, fqLog2 := v.extractLsb' 0 5 })

end Sys2Proof.Machine
end

