-- ==== Sys2Proof/Machine/Sha.lean ====
section
/-! DEFINITION. SHAKE256 with 512 bits of output, which R183, R384 and R386 name and do not define. PRESUMED (log 10): the
function of FIPS 202. The sponge's state is one number of 1,600 bits; lane (x, y) is its bits 64 (x + 5 y) and up. -/

namespace Sys2Proof.Machine

/-- The sponge's state. -/
abbrev Sponge := BitVec 1600
/-- Lane (x, y), both taken modulo 5. -/
def Sponge.lane (a : Sponge) (x y : Nat) : W64 := a.extractLsb' (64 * (x % 5 + 5 * (y % 5))) 64
/-- The state whose lane (x, y) is `f x y`. -/
def Sponge.build (f : Nat → Nat → W64) : Sponge :=
  (List.range 25).foldl (fun (v : Sponge) k => v ||| (f (k % 5) (k / 5)).setWidth 1600 <<< (64 * k)) 0

/-- One step of the register of 8 bits whose low bits make the round constants. -/
def lfsrStep (r : BitVec 8) : BitVec 8 := r <<< 1 ^^^ (if r.getLsbD 7 then 0x71 else 0)
/-- The constant that the register makes in seven steps, and the register behind them. Bit 2^j - 1 is step j's. -/
def roundConst (r : BitVec 8) : W64 × BitVec 8 :=
  (List.range 7).foldl (fun p j => (p.1 ||| (if p.2.getLsbD 0 then 1#64 <<< (2 ^ j - 1) else 0), lfsrStep p.2)) (0, r)

/-- Column parities mixed into every lane. -/
def Sponge.theta (a : Sponge) : Sponge :=
  let par := fun (x : Nat) => (List.range 5).foldl (fun v y => v ^^^ a.lane x y) 0
  let mix : List W64 := (List.range 5).map (fun x => par (x + 4) ^^^ (par (x + 1)).rotateLeft 1)
  Sponge.build (fun x y => a.lane x y ^^^ mix.getD x 0)
/-- The lanes of the walk (x, y) to (y, 2 x + 3 y) from (1, 0), each turned by the walk's next triangular number and put
where the walk goes on; lane (0, 0) stays. -/
def Sponge.walk (a : Sponge) : Nat → Nat → Nat → Nat → Sponge → Sponge
  | 0, _, _, _, v => v
  | n + 1, t, x, y, v =>
    let z := (2 * x + 3 * y) % 5
    a.walk n (t + 1) y z (v ||| ((a.lane x y).rotateLeft (t * (t + 1) / 2 % 64)).setWidth 1600 <<< (64 * (y + 5 * z)))
/-- Rows mixed, and the constant on lane (0, 0). -/
def Sponge.chi (a : Sponge) (rc : W64) : Sponge :=
  Sponge.build (fun x y => a.lane x y ^^^ (~~~a.lane (x + 1) y &&& a.lane (x + 2) y)) ^^^ rc.setWidth 1600
/-- n rounds, with the constants' register. -/
def Sponge.rounds : Nat → BitVec 8 → Sponge → Sponge
  | 0, _, a => a
  | n + 1, r, a =>
    let c := roundConst r
    let b := a.theta
    Sponge.rounds n c.2 ((b.walk 24 1 1 0 ((b.lane 0 0).setWidth 1600)).chi c.1)

/-- Bytes as one number, the first lowest. -/
def bytesNum : List Byte → Nat
  | [] => 0
  | b :: t => b.toNat + 256 * bytesNum t
/-- The message with its padding: the domain's bits 1111 and a first 1, and a last 1 at the end of a block of 136 bytes. -/
def shakePad (m : List Byte) : List Byte :=
  let room := 136 - m.length % 136
  m ++ natToBytes room (0x1F + 2 ^ (8 * room - 1))
/-- Takes n blocks in. -/
def absorb : Nat → List Byte → Sponge → Sponge
  | 0, _, a => a
  | n + 1, m, a => absorb n (m.drop 136) (Sponge.rounds 24 1 (a ^^^ BitVec.ofNat 1600 (bytesNum (m.take 136))))
/-- The first 512 bits of SHAKE256 of a message. -/
def shake512 (m : List Byte) : BitVec 512 :=
  let p := shakePad m
  (absorb (p.length / 136) p 0).extractLsb' 0 512

end Sys2Proof.Machine
end

