-- ==== Sys2Proof/Machine/Platform.lean ====
section
/-! DEFINITION. Power, boot, the mantel, debug, errors and sensors (R101, R102, R299, R335, R336, R381 to R391). -/

namespace Sys2Proof

/-- The memory word or the register word that holds an error; a die's memory error names the die alone. -/
def ErrWord.norm : ErrWord → ErrWord
  | .mem a => .mem (a &&& ~~~7#64)
  | w => w
/-- The die, core and slot that a kind 4 record names, and its entry: a register has no physical address (log 27). -/
def ErrWord.place : ErrWord → BitVec 16 × W64
  | .mem a => (Machine.paDie a.toNat ++ 0#13, a)
  | .reg g _ | .scale g _ => (g, 0)

end Sys2Proof

namespace Sys2Proof.Machine

/-! Power (R382, R383, R101, R102) -/

/-- PWR_CAP_WRITE (R382). -/
def execPwrCapWrite (v : W64) (s : State) : Out :=
  let n := bitsOf v 0 16
  .next { s with plat := { s.plat with pwrCap := BitVec.ofNat 16 (min (max n 600) 3600) } }
/-- POWER_MANAGER_MOVE (R382): places 0 to 7 are the dies' pools, 8 is the reserve. Tokens go to the reserve while the measured
power exceeds the cap, and come back from it otherwise (log 28). -/
def execPowerManagerMove (src dst : BitVec 4) (n : BitVec 10) (s : State) : Out :=
  let hot := s.plat.pwrCap.ult s.plat.pwrNow
  let sd := src.extractLsb' 0 3
  let dd := dst.extractLsb' 0 3
  if src.toNat < 8 ∧ dst.toNat < 8 then
    if (s.die sd).pool.ult n ∨ src = dst then .next s
    else
      let s1 := s.setDie sd { s.die sd with pool := (s.die sd).pool - n }
      .next (s1.setDie dd { s1.die dd with pool := (s1.die dd).pool + n })
  else if src.toNat < 8 ∧ dst = 8 ∧ hot then
    if (s.die sd).pool.ult n then .next s
    else .next { s.setDie sd { s.die sd with pool := (s.die sd).pool - n } with plat := { s.plat with reserve := s.plat.reserve + n } }
  else if src = 8 ∧ dst.toNat < 8 ∧ !hot then
    if s.plat.reserve.ult n then .next s
    else .next { s.setDie dd { s.die dd with pool := (s.die dd).pool + n } with plat := { s.plat with reserve := s.plat.reserve - n } }
  else .next s

/-- A core lies in a launch's rectangle (R298). -/
def inRect (rec : BitVec 2048) (c : BitVec 10) : Bool :=
  let die := c.extractLsb' 7 3
  let row := bitsOf die 2 1 * 8 + bitsOf c 4 3
  let col := bitsOf die 0 2 * 16 + bitsOf c 0 4
  decide (bitsOf rec 84 4 ≤ row ∧ row ≤ bitsOf rec 84 4 + bitsOf rec 74 4 ∧ bitsOf rec 78 6 ≤ col ∧ col ≤ bitsOf rec 78 6 + bitsOf rec 68 6)
/-- A placement is pending on a core: an accepted launch with blocks to place has it in its rectangle, or one that restores a context has
yet to place a block that was saved on it (R332). -/
def placePending (s : State) (c : BitVec 10) : Bool :=
  s.launches.any (fun l => !l.done && (if bitOf l.record 121 then
      l.status == 0 && (match s.launchOf l.part (l.record.extractLsb' 608 32) with
        | some o => o.saved.any (fun x => x.core == c && !l.placed.any (fun p => p.1 == x.block))
        | none => false)
    else decide (l.placed.length < l.grid.toNat) && inRect l.record c))
/-- CORE_POWER_OFF (R383). -/
def execCorePowerOff (c : BitVec 10) (s : State) : Out :=
  if s.blocks.any (fun b => b.core == c) || placePending s c then .next s
  else .next (s.setCore c { s.core c with off := true })
/-- CORE_POWER_ON (R383). -/
def execCorePowerOn (c : BitVec 10) (s : State) : Out :=
  if s.blocks.any (fun b => b.core == c) || placePending s c then .next (s.setCore c { s.core c with off := false })
  else .next s

/-- Results that the group's instructions have yet to write into its register space. -/
def Group.resultsDue (g : Group) : Bool := g.ln.sfuQ != [] || g.ln.cvtQ != [] || g.ln.tlds != []
/-- GRANULE_DROWSY (R101): a granule of a parked or yielded group, where an idle time is set. Results on the way are accesses to come
(DEDUCED, log 103). -/
def execGranuleDrowsy (gid : Gid) (k : BitVec 5) (s : State) : Out :=
  let g := s.group gid
  let idle := match g.st with | .parked .. | .yielded .. => true | _ => false
  if g.live && idle && !g.resultsDue && (s.core gid.core).rfDrowsy.extractLsb' 0 32 != 0 && decide (k.toNat < g.rg.granules.toNat) then
    .next (s.setGroup gid { g with rg := { g.rg with drowsy := putBit g.rg.drowsy k.toNat true } })
  else .next s
/-- GRANULE_WAKE (R102). -/
def execGranuleWake (gid : Gid) (k : BitVec 5) (s : State) : Out :=
  let g := s.group gid
  .next (if g.live then s.setGroup gid { g with rg := { g.rg with drowsy := putBit g.rg.drowsy k.toNat false } } else s)

/-! Sensors and errors (R299, R335, R336, R382, R391) -/

/-- SENSOR_READING. -/
def execSensorReading (x : Sensor) (s : State) : Out :=
  match x with
  | .power w => .next { s with plat := { s.plat with pwrNow := w } }
  | .temp c v => .next (s.setCore c { s.core c with temp := v })
  | .droop c v => .next (s.setCore c { s.core c with droop := v })
/-- A kind 4 record: posted to partition 0, with the cause `data_error` (log 27). -/
def State.postError (s : State) (place : BitVec 16) (code : BitVec 2) (entry : W64) : State :=
  s.post 0 [recWords (4#4 ++ Cause.dataError.code ++ 0#13 ++ place ++ 0#23) 0 entry 0 (0#62 ++ code) 0 0 0]
/-- The word of a live group, or of HBM or a shelf, becomes uncorrectable (R335). -/
def State.strike (s : State) (w : ErrWord) : Option State :=
  match w with
  | .mem a =>
    if paNode a.toNat = 0 ∧ paRegion a.toNat < 2 then
      some { s with badWords := if s.badWords.contains a.toNat then s.badWords else s.badWords ++ [a.toNat] }
    else none
  | .reg gid k =>
    let g := s.group gid
    if g.live ∧ 4 * k.toNat < g.rg.declared.toNat then
      some (s.setGroup gid { g with rg := { g.rg with bad := if g.rg.bad.contains k.toNat then g.rg.bad else k.toNat :: g.rg.bad } })
    else none
  | .scale gid e =>
    let g := s.group gid
    if g.live then some (s.setGroup gid { g with rg := { g.rg with ebad := putBit g.rg.ebad e.toNat true } }) else none
/-- UNCORRECTED_ERROR (R335, R336): the word stays uncorrectable until written; its row is self-tested. -/
def execUncorrectedError (w : ErrWord) (s : State) : Out :=
  match s.strike w.norm with
  | some s1 => .next { s1 with tests := if s.tests.contains w.norm then s.tests else s.tests ++ [w.norm] }
  | none => .next s
/-- SELF_TEST_COMPLETE (R336): code 1 soft, 2 lasting and spared, 3 lasting and unspared. -/
def execSelfTestComplete (w : ErrWord) (code : BitVec 2) (s : State) : Out :=
  if s.tests.contains w.norm ∧ code ≠ 0 then
    .next ({ s with tests := s.tests.filter (fun x => x != w.norm) }.postError w.norm.place.1 code w.norm.place.2)
  else .next s
/-- FABRIC_LINK_LOST (R391): port 3 d + k of die d; the link stays down until the next boot. -/
def execFabricLinkLost (port : BitVec 5) (s : State) : Out :=
  if 24 ≤ port.toNat then .next s
  else
    let d := BitVec.ofNat 3 (port.toNat / 3)
    .next ((s.setDie d { s.die d with portsDown := putBit (s.die d).portsDown (port.toNat % 3) true }).postError (d ++ 0#13) 3 (port.setWidth 64))
/-- HOST_LINK_ERROR (R391). -/
def execHostLinkError (link : Bool) (code : BitVec 8) (s : State) : Out := .next { s with aer := s.aer ++ [(link, code)] }

/-! Boot (R384, R385, R390) -/

/-- The configuration records whose signature is valid, each with its kind and sequence number (R384). -/
def validRecords (flash : Sparse 8) : List (Nat × BitVec 16 × List Byte) :=
  ((Config.flashRecords flash).filter (fun r => Config.vendorSigned (shake512 r.2.2.1) r.2.2.2)).map (fun r => (r.1, r.2.1, r.2.2.1))
/-- Of each kind the record with the highest sequence number applies (R384). -/
def appliedRecords (flash : Sparse 8) : List (Nat × BitVec 16 × List Byte) :=
  let l := validRecords flash
  l.filter (fun r => l.all (fun x => x.1 != r.1 || !r.2.1.ult x.2.1))
/-- The newest of the records that apply (R384). -/
def newestRecord (flash : Sparse 8) : Option (BitVec 16 × List Byte) :=
  (appliedRecords flash).foldl (fun b r => match b with
    | none => some r.2
    | some x => if x.1.ult r.2.1 then some r.2 else some x) none
/-- The firmware's version and hash, where its signature is valid and its version not below the newest record's floor (R384). -/
def bootFirmware (flash : Sparse 8) : Option (W32 × BitVec 512) :=
  let floor := match newestRecord flash with | some r => (Config.recordNames r.2).1 | none => 0
  match Config.flashFirmware flash with
  | some (v, body, sig) => if Config.vendorSigned (shake512 body) sig && !v.ult floor then some (v, shake512 body) else none
  | none => none
/-- The identity of the module, the same on every boot (R385): the hash of the device secret and the string `id`. -/
def identityKey : BitVec 456 := Config.publicKey (shake512 (Config.deviceSecret ++ [0x69, 0x64]))
/-- The tenant key that the records which apply name (R390). -/
def tenantKeyOf (flash : Sparse 8) : Option (BitVec 456) := (appliedRecords flash).findSome? (fun r => Config.tenantKey r.2.2)
/-- The defaults of the records that apply, as the register writes that set them (R384; log 79). -/
def bootDefaults (flash : Sparse 8) : List Move :=
  (appliedRecords flash).flatMap (fun r => (Config.recordDefaults r.2.2).map (fun d => .event (.registerWrite d.1 d.2)))
/-- The package's registers after a boot (R384, R385, R390), or in recovery where no valid firmware or no valid spare map exists
(log 79). -/
def bootPlatform (x : Platform) : Platform :=
  let p : Platform := { boots := x.boots + 1, flash := x.flash, idPub := identityKey, tenantKey := tenantKeyOf x.flash }
  match bootFirmware x.flash, newestRecord x.flash with
  | some (v, h), some (seq, body) =>
    if (appliedRecords x.flash).any (fun r => (Config.recordNames r.2.2).2.2) then
      { p with fwVer := v, cfgSeq := seq, sec := (Config.recordNames body).2.1, fwHash := h, attPub := Config.publicKey (Config.attestKey h) }
    else { p with recovery := true }
  | _, _ => { p with recovery := true }
/-- BOOT: the machine after reset with what the root finds in the flash, or in recovery; else the defaults of its records are applied next.
Host memory and what was reported to
the host stay; the package's memory stays too but for a cold boot (log 11). -/
def execBoot (b : BootKind) (s : State) : Out :=
  let p := bootPlatform s.plat
  let r := { State.reset with host0 := s.host0, host1 := s.host1, msix := s.msix, aer := s.aer, fresh := s.fresh, plat := p,
                              agenda := (if p.recovery then [] else bootDefaults s.plat.flash) ++ s.agenda }
  match b with
  | .warm => .next { r with mem := s.mem, badWords := s.badWords }
  | .cold => .next r

/-! The mantel (R386, R387) -/

/-- Extends an accumulator with an entry. -/
def Mantel.extend (m : Mantel) (entry : List Byte) : Mantel :=
  { m with acc := shake512 (natToBytes 64 m.acc.toNat ++ entry), count := m.count + 1 }
/-- MANTEL_QUOTE (R387): takes the bytes to sign; a request during a quote is ignored. -/
def execMantelQuote (p : BitVec 3) (s : State) : Out :=
  let m := s.mantel p
  if m.quoting.isSome then .next (s.setMantel p { m with qstatus := 1 })
  else
    let msg := natToBytes 64 m.acc.toNat ++ natToBytes 4 m.count.toNat ++ natToBytes 32 m.nonce.toNat ++ [p.setWidth 8] ++
      natToBytes 64 s.plat.fwHash.toNat
    .next (s.setMantel p { m with quoting := some msg, done := false, qstatus := 0 })
/-- QUOTE_COMPLETE (R387). -/
def execQuoteComplete (p : BitVec 3) (s : State) : Out :=
  let m := s.mantel p
  match m.quoting with
  | some msg => .next (s.setMantel p { m with quoting := none, done := true, sig := Config.sign msg })
  | none => .next s
/-- MANTEL_CLEAR (R387). -/
def execMantelClear (p : BitVec 3) (s : State) : Out := .next (s.setMantel p { s.mantel p with acc := 0, count := 0 })

/-! Debug (R388 to R390) -/

/-- A request that is bad: an unknown op, a reserved bit, an offset not 8-byte aligned. -/
def dbgBad (v : W64) : Bool := decide (4 ≤ bitsOf v 60 3) || bitsOf v 18 26 != 0 || bitsOf v 0 3 != 0
/-- Bad requests at the head complete with status bad; `n` bounds them. -/
def Platform.dropBad (p : Platform) : Nat → Platform
  | 0 => p
  | n + 1 =>
    match p.dbgReqs with
    | x :: t => if dbgBad x.1 then Platform.dropBad { p with dbgReqs := t, dbgStatus := 5 } n else { p with dbgBusy := true }
    | [] => { p with dbgBusy := false }
/-- A write of the port (R388). -/
def Platform.dbgWrite (p : Platform) (v : W64) : Platform :=
  if bitOf v 63 then
    let q := { p with dbgReqs := p.dbgReqs ++ [(v, p.dbgData)] }
    q.dropBad (q.dbgReqs.length + 1)
  else p
/-- The request at the head is this one: its op, group and offset. -/
def dbgHead (s : State) (op : Nat) (gid : Gid) (off : BitVec 18) : Option W64 :=
  match s.plat.dbgReqs with
  | x :: _ => if bitsOf x.1 60 3 == op && x.1.extractLsb' 44 16 == gid && (x.1.extractLsb' 0 18 == off || decide (2 ≤ op)) then some x.2
      else none
  | [] => none
/-- The request at the head is served: status and, for a read, data. -/
def State.dbgDone (s : State) (st : BitVec 8) (v : Option W64) : State :=
  let p := { s.plat with dbgReqs := s.plat.dbgReqs.drop 1, dbgStatus := st, dbgData := v.getD s.plat.dbgData }
  { s with plat := p.dropBad (p.dbgReqs.length + 1) }
/-- The partition whose range holds a slot of a core (R305). -/
def slotPart (s : State) (gid : Gid) : Option (BitVec 3) :=
  ((List.range 8).find? (fun p =>
    let qa := (s.core gid.core).quotaA.getD p 0
    bitOf qa 63 && decide (bitsOf qa 0 8 ≤ gid.slot.toNat ∧ gid.slot.toNat < bitsOf qa 0 8 + bitsOf qa 8 8))).map (BitVec.ofNat 3)
/-- R389: the request is admitted by the security state. -/
def dbgAdmit (s : State) (gid : Gid) : Bool :=
  match s.plat.sec.toNat with
  | 0 | 3 => true
  | 2 => match slotPart s gid with | some p => bitOf s.plat.tdbg p.toNat | none => false
  | _ => false
/-- What stands before every request: denied, off, no group. -/
def dbgGate (s : State) (gid : Gid) : Option (BitVec 8) :=
  if !dbgAdmit s gid then some 3
  else if (s.core gid.core).off then some 4
  else if !(s.group gid).live then some 1 else none
/-- The state area of a group as it stands. -/
def liveArea (s : State) (gid : Gid) : Sparse 8 :=
  let g := s.group gid
  (areaWords gid g g.pc g.ln.lpc g.h.cause true 0 (s.holds gid) (s.remainOf gid g)).foldl (fun m w =>
    pokeBytes m w.1 (natToBytes w.2.1 w.2.2)) []
/-- A granule wakes for an access of the debugger (R102). -/
def RegSpace.wake (r : RegSpace) (o : Nat) : RegSpace := { r with drowsy := putBit r.drowsy (o / 4096) false }
/-- Where an offset of a group's image lies: in its state area, in the declared space, in the slack, or beyond its granules. -/
inductive DbgPlace where
  | area | regs (o : Nat) | slack | gated
deriving DecidableEq, Repr
def dbgPlace (r : RegSpace) (off : Nat) : DbgPlace :=
  if off < 0x6000 then .area
  else if off - 0x6000 < r.declared.toNat then .regs (off - 0x6000)
  else if off - 0x6000 < 4096 * r.granules.toNat then .slack else .gated
/-- An offset of the scale registers or of their tags in a group's image (R331); they follow the first granule (R101). -/
def inScales (off : Nat) : Bool := decide (0x860 ≤ off ∧ off < 0x8A0) || decide (0x900 ≤ off ∧ off < 0x1100)
/-- DEBUG_READ (R389). -/
def execDebugRead (gid : Gid) (off : BitVec 18) (s : State) : Out :=
  match dbgHead s 0 gid off with
  | none => .next s
  | some _ =>
    match dbgGate s gid with
    | some st => .next (s.dbgDone st (if st = 3 then none else some 0))
    | none =>
      let g := s.group gid
      match dbgPlace g.rg off.toNat with
      | .area =>
        let v := BitVec.ofNat 64 (peek (liveArea s gid) off.toNat 8)
        let s1 := if inScales off.toNat then s.setGroup gid { g with rg := g.rg.wake 0 } else s
        .next (s1.dbgDone 0 (some v))
      | .regs o =>
        let v := BitVec.ofNat 64 (bytesToNat (g.rg.bytes o 8))
        .next ((s.setGroup gid { g with rg := g.rg.wake o }).dbgDone 0 (some v))
      | .slack => .next (s.dbgDone 0 (some 0))
      | .gated => .next (s.dbgDone 1 (some 0))
/-- A debugger's write of a scale register's entries, whatever it holds, assigns a new tag (R103). -/
def RegSpace.retag (r : RegSpace) (old : RegSpace) (off : Nat) : RegSpace :=
  if 0x900 ≤ off ∧ off < 0x1100 then
    let i := (off - 0x900) / 64
    ({ r with etag := vset r.etag i (old.etag.getD i 0) } : RegSpace).scaleWrite (BitVec.ofNat 5 i) (r.e.getD i 0) 0
  else r
/-- A log entry after a write: one that waits goes on waiting, and keeps what R320's layout has no place for. -/
def keepLog : Option OpLog → Option OpLog → Option OpLog
  | some a, some b => some { b with valid := a.valid, scrub := a.scrub, wmask := a.wmask, record := a.record }
  | _, b => b
/-- The group after a write of an image word at an offset, at a cycle of its core (R331, R389). A lane stream that has no block to run
stays so unless its running mask is written. -/
def Group.patch (g : Group) (m : Sparse 8) (off : Nat) (budget : Bool) (now : W64) : Group :=
  let f : Image := fun o n => peek m o n
  let g1 := (g.loadControl f (g.keep now) budget now).loadRest f
  let on := if off / 8 * 8 = 0x10 then g1.ln.active else g.ln.active
  { g1 with ln := { g1.ln with active := on }, rg := g1.rg.retag g.rg off, slog := keepLog g.slog g1.slog, llog := keepLog g.llog g1.llog, sfetch := g.sfetch,
            lfetch := g.lfetch }
/-- A write of an image word of a group that a debugger makes. -/
def State.patchGroup (s : State) (gid : Gid) (off : Nat) (v : W64) : State :=
  let g := s.group gid
  let budget := match s.blockAt g with | some b => b.budget != 0 | none => false
  s.setGroup gid (g.patch (pokeBytes (liveArea s gid) off (natToBytes 8 v.toNat)) off budget (s.core gid.core).cyc)
/-- A write needs a halted group, or it finds its granule drowsy and wakes it, also one of a group that runs (R102, R389; DESIGN CHOICE,
log 89). -/
def dbgMay (g : Group) (granule : Option Nat) : Bool :=
  g.h.halted || (match granule with | some k => bitOf g.rg.drowsy k | none => false)
/-- DEBUG_WRITE (R389). A write of a slack byte or of gated storage is answered as R102's table says, also for a running group
(DESIGN CHOICE, log 89). -/
def execDebugWrite (gid : Gid) (off : BitVec 18) (v : W64) (s : State) : Out :=
  match dbgHead s 1 gid off with
  | none => .next s
  | some d =>
    if d ≠ v then .next s
    else match dbgGate s gid with
      | some st => .next (s.dbgDone st none)
      | none =>
        let g := s.group gid
        match dbgPlace g.rg off.toNat with
        | .slack => .next (s.dbgDone 0 none)
        | .gated => .next (s.dbgDone 1 none)
        | .area =>
          if !dbgMay g (if inScales off.toNat then some 0 else none) then .next (s.dbgDone 2 none)
          else
            let s1 := s.patchGroup gid off.toNat v
            let g1 := s1.group gid
            .next ((if inScales off.toNat then s1.setGroup gid { g1 with rg := g1.rg.wake 0 } else s1).dbgDone 0 none)
        | .regs o =>
          if !dbgMay g (some (o / 4096)) then .next (s.dbgDone 2 none)
          else .next ((s.setGroup gid { g with rg := (g.rg.setBytes o (natToBytes 8 v.toNat)).wake o }).dbgDone 0 none)
/-- R316, steps 1 to 3, with no handler: results written, the array frozen, a waiting `invpg` completed. -/
def State.haltGroup (s : State) (gid : Gid) : State :=
  let s1 := ((s.setGroup gid (s.group gid).settle).completeInvpg gid).freezeArray gid
  s1.setGroup gid (s1.group gid).halt
/-- DEBUG_HALT (R389). -/
def execDebugHalt (gid : Gid) (s : State) : Out :=
  match dbgHead s 2 gid 0 with
  | none => .next s
  | some _ => match dbgGate s gid with
    | some st => .next (s.dbgDone st none)
    | none => .next ((s.haltGroup gid).dbgDone 0 none)
/-- DEBUG_RESUME (R389): the array of a program that was halted, but not of a handler, goes on (R146), and what waits in its log looks again (R275). A group that halts for a
pre-emption stays halted (R330). -/
def execDebugResume (gid : Gid) (s : State) : Out :=
  match dbgHead s 3 gid 0 with
  | none => .next s
  | some _ => match dbgGate s gid with
    | some st => .next (s.dbgDone st none)
    | none =>
      let g := s.group gid
      if !g.h.halted || (s.part g.part).preReq then .next (s.dbgDone 0 none)
      else
        let s1 := s.setGroup gid { g with h := { g.h with halted := false }, llog := if g.h.on then g.llog else g.llog.map OpLog.woken }
        .next ((if g.h.on then s1 else s1.thawArray gid).dbgDone 0 none)

/-- A tenant's token is signed by the tenant key, and names the partition, the hash of the identity and a boot count (R390). -/
def Platform.tenantValid (x : Platform) (p : BitVec 3) (boot : W32) (body : W64) : Bool :=
  match x.tenantKey with
  | some key => Config.tokenValid (some key) (packFields [(3, p.toNat), (32, boot.toNat), (64, body.toNat),
      (512, (shake512 (natToBytes 57 x.idPub.toNat)).toNat)])
  | none => false
/-- TENANT_DEBUG_TOKEN (R390): valid in the boot whose count it names. -/
def execTenantDebugToken (p : BitVec 3) (boot : W32) (body : W64) (s : State) : Out :=
  let x := s.plat
  if boot = x.boots ∧ x.tenantValid p boot body then
    .next { s with plat := { x with tdbg := putBit x.tdbg p.toNat true, sec := if x.sec = 1 then 2 else x.sec } }
  else .next s
/-- A byte that the wipe scrubs: below `hbm_limit` in region 0, or on a shelf (R390). -/
def wiped (pa : Nat) : Bool := paNode pa == 0 && (paRegion pa == 1 || (paRegion pa == 0 && decide (paOff pa < Config.hbmLimit.toNat)))
/-- The wipe before vendor-debug (R390): groups end without a save, frames and granules are scrubbed, mantels cleared. -/
def State.wipe (s : State) : State :=
  let gids := (s.groups.filter (fun y => y.2.live)).map (fun y => (BitVec.ofNat 16 y.1 : Gid))
  let s1 := gids.foldl (fun s g => s.endGroup g) s
  { s1 with
    mem := s1.mem.filter (fun p => !wiped p.1), badWords := s1.badWords.filter (fun b => !wiped b),
    mantels := s1.mantels.map (fun m => (m.1, { m.2 with acc := 0, count := 0 })) }
/-- VENDOR_DEBUG_TOKEN (R390): in the order of debug requests, so those before it are served first. -/
def execVendorDebugToken (body : W64) (s : State) : Out :=
  let x := s.plat
  if x.dbgReqs = [] ∧ Config.tokenValid none (packFields [(64, body.toNat), (456, x.idPub.toNat)]) then
    .next { s.wipe with plat := { x with sec := 3 } }
  else .next s

end Sys2Proof.Machine
end

