-- ==== Sys2Proof/Machine/LaneCvt.lean ====
section
/-! DEFINITION. Conversions (R242 to R246). -/

namespace Sys2Proof.Machine

/-- The destination word with elements d n to d n + n - 1 replaced, the others from the merge source (R242). -/
def mergeElems (ty ty2 : LTy) (d b : Nat) (f : Nat → Nat) : Nat :=
  let n := cvtN ty ty2
  packNat ty.width (fun e => if d * n ≤ e ∧ e < d * n + n then f (e - d * n) else elemOf ty.width b e) ty.perWord

/-- R242, R243: between equal types an infinity stays under `.sat`. -/
def execCvt (h : LHdr) (d a b : Opnd) (r : Rnd) (sat : Bool) (ty ty2 : LTy) (sl dl : BitVec 3) (s : State) : Out :=
  laneQueued true (.cvt h d a b r sat ty ty2 sl dl)
    { h := h, d := d, dn := tyRegs ty, src := [(a, tyRegs ty2), (b, tyRegs ty)], rs := r == .rs }
    (fun g seed j l =>
      let n := cvtN ty ty2
      (mergeElems ty ty2 dl.toNat (nth l 1) (fun i =>
        roundFmt (g.laneRnd seed r (sat && ty != ty2) j (dl.toNat * n + i)) ty
          (decodeElem ty2 0 (elemOf ty2.width (nth l 0) (sl.toNat * n + i)))), false)) s

/-- The exponent and the block special value of a scale entry (R115, R117). -/
def entryExp (x : BitVec 16) : Nat := bitsOf x 0 8
def entrySpecial (x : BitVec 16) : Int := (x.extractLsb' 8 6).toInt

/-- R244; the scale register is a source of its own (R335). -/
def execCvts (h : LHdr) (d a b c : Opnd) (r : Rnd) (sat : Bool) (ty ty2 : LTy) (e : BitVec 5) (k : BitVec 3) (s : State) : Out :=
  let i : Instr := .cvts h d a b c r sat ty ty2 e k
  let o := op h d [a, b, c] r
  let g0 := s.cur.roomFor true o.ops
  if bitOf g0.rg.ebad e.toNat && (o.stop g0).isNone then laneAcc i h (raise .dataError) s
  else laneQueued true i o
    (fun g seed j l =>
      let n := cvtN ty ty2
      let enc := ty.narrow
      let x := scaleEntry (g.rg.e.getD e.toNat 0) (nth l 2 % 32)
      let ds := if enc then k.toNat else 0
      let ss := if enc then 0 else k.toNat
      let sh : Int := if enc then 127 - (entryExp x : Int) else (entryExp x : Int) - 127
      (mergeElems ty ty2 ds (nth l 1) (fun i =>
        let v := decodeElem ty2 (entrySpecial x) (elemOf ty2.width (nth l 0) (ss * n + i))
        roundFmt (g.laneRnd seed r sat j (ds * n + i)) ty (if entryExp x = 0xFF then .nan else v.scale sh)), false)) s

/-- R245. -/
def execPack (h : LHdr) (d a b : Opnd) (ty : LTy) (k : BitVec 3) (s : State) : Out :=
  laneAlu (.pack h d a b ty k) (op h d [a, b])
    (fun _ _ _ l => (packNat ty.width (fun i => if i = k.toNat then nth l 0 else elemOf ty.width (nth l 1) i) (32 / ty.width), false)) s
def execUnpack (h : LHdr) (d a : Opnd) (ty : LTy) (k : BitVec 3) (s : State) : Out :=
  laneAlu (.unpack h d a ty k) (op h d [a]) (fun _ _ _ l => (elemOf ty.width (nth l 0) k.toNat, false)) s

/-- R246: a cell is a signed 128-bit integer N that stands for N / 2^64. -/
def execFxcvt (h : LHdr) (d a : Opnd) (r : Rnd) (s : State) : Out :=
  laneQueued true (.fxcvt h d a r) { h := h, d := d, src := [(a, 4)], rs := r == .rs }
    (fun g seed j l => (roundFmt (g.laneRnd seed r false j 0) .f32 (mkVal (BitVec.ofNat 128 (nth l 0)).toInt (-64)), false)) s

end Sys2Proof.Machine
end

