-- ==== Sys2Proof/Machine/Scale.lean ====
section
/-! DEFINITION. Scale-only instructions and paired images (R103 to R109, R279, R289 to R292). -/

namespace Sys2Proof.Machine

/-- A scale register from its entries. -/
def scaleBuild (f : Nat → BitVec 16) : BitVec 512 := BitVec.ofNat 512 (packNat 16 (fun i => (f i).toNat) 32)
/-- An entry's exponent, and an entry with another one. -/
def entExp (a : BitVec 16) : Nat := bitsOf a 0 8
def withExp (a : BitVec 16) (x : Nat) : BitVec 16 := 0#2 ++ a.extractLsb' 8 6 ++ BitVec.ofNat 8 x
/-- fix of R290. -/
def fixExp (sat : Bool) (x : Int) : Nat :=
  if 0 ≤ x ∧ x ≤ 254 then x.toNat else if sat then (min (max x 0) 254).toNat else 0xFF
/-- The entries of a scale register of the current group. -/
def RegSpace.ereg (r : RegSpace) (e : BitVec 5) : BitVec 512 := r.e.getD e.toNat 0

/-- New entries from the current group, or a fault; then `scale_write` (R279, R290). `es`: the scale registers that it reads. -/
def scaleRun (i : Instr) (h : LHdr) (ops : List (Opnd × Nat)) (es : List (BitVec 5)) (d : BitVec 5) (rb : Bool) (tiles : BitVec 16)
    (new : RegSpace → BitVec 512) (s : State) : Out :=
  mxRun i h (pure ()) [1] [] ops [] (mxSrcs .zero []) (fun need _ => do
    need ops
    es.forM needScale
    let e := new (← getCur).rg
    if scaleBad e then raise .scaleFormat
    else modifyCur (fun g => { g with rg := g.rg.scaleWrite d e (if rb then tiles else 0) })) s

/-- Entry by entry from one register, or from two (R290). -/
def each1 (a : BitVec 512) (f : Nat → Nat) : BitVec 512 :=
  scaleBuild (fun i => let x := scaleEntry a i; withExp x (if entExp x = 0xFF then 0xFF else f (entExp x)))
def each2 (a b : BitVec 512) (f : Nat → Nat → Nat) : BitVec 512 :=
  scaleBuild (fun i =>
    let x := scaleEntry a i
    let y := scaleEntry b i
    withExp x (if entExp x = 0xFF ∨ entExp y = 0xFF then 0xFF else f (entExp x) (entExp y)))

def execSadd (h : LHdr) (d a : BitVec 5) (b : BitVec 12) (reg sat rb : Bool) (tiles : BitVec 16) (s : State) : Out :=
  scaleRun (.sadd h d a b reg sat rb tiles) h [] (a :: if reg then [b.extractLsb' 0 5] else []) d rb tiles (fun r =>
    if reg then each2 (r.ereg a) (r.ereg (b.extractLsb' 0 5)) (fun x y => fixExp sat ((x : Int) + y - 127))
    else each1 (r.ereg a) (fun x => fixExp sat (x + b.toInt))) s
def execSmax (h : LHdr) (d a b : BitVec 5) (rb : Bool) (tiles : BitVec 16) (s : State) : Out :=
  scaleRun (.smax h d a b rb tiles) h [] [a, b] d rb tiles (fun r => each2 (r.ereg a) (r.ereg b) max) s
def execSmin (h : LHdr) (d a b : BitVec 5) (rb : Bool) (tiles : BitVec 16) (s : State) : Out :=
  scaleRun (.smin h d a b rb tiles) h [] [a, b] d rb tiles (fun r => each2 (r.ereg a) (r.ereg b) min) s
/-- The greatest exponent that is not 0xFF (R290). -/
def topExp (a : BitVec 512) : Option Nat :=
  (List.range 32).foldl (fun m i =>
    let x := entExp (scaleEntry a i)
    if x = 0xFF then m else some (max x (m.getD 0))) none
def execSrebias (h : LHdr) (d a : BitVec 5) (k : BitVec 12) (sat rb : Bool) (tiles : BitVec 16) (s : State) : Out :=
  scaleRun (.srebias h d a k sat rb tiles) h [] [a] d rb tiles (fun r =>
    each1 (r.ereg a) (fun e => fixExp sat ((e : Int) - (topExp (r.ereg a)).getD 0 + k.toNat))) s
/-- R290; `.vec` reads physical lanes 0 to 31, exited or not. A copy has bits 15:14 zero, as every new entry has. -/
def execSmov (h : LHdr) (d : BitVec 5) (m : SmovMode) (a : BitVec 10) (k : BitVec 6) (rb : Bool) (tiles : BitVec 16) (s : State) : Out :=
  scaleRun (.smov h d m a k rb tiles) h (match m with | .vec => [(.vec a, 1)] | _ => [])
    (match m with | .vec => [] | _ => [a.extractLsb' 0 5]) d rb tiles (fun r =>
    match m with
    | .cp => each1 (r.ereg (a.extractLsb' 0 5)) id
    | .sp => scaleBuild (fun i => 0#2 ++ k ++ (scaleEntry (r.ereg (a.extractLsb' 0 5)) i).extractLsb' 0 8)
    | .vec => scaleBuild (fun i => (vword (r.row (r.vrow a.toNat)) i).extractLsb' 0 16)) s
/-- R291. -/
def execSbind (h : LHdr) (d : BitVec 5) (tiles : BitVec 16) (s : State) : Out :=
  mxRun (.sbind h d tiles) h (pure ()) [] [] [] [] (mxSrcs .zero []) (fun _ _ => modifyCur (fun g =>
    let tag := g.rg.etag.getD d.toNat 0
    { g with rg := { g.rg with tdesc := Vector.ofFn (fun i : Fin 16 =>
        if bitOf tiles i.val then bindTd g.rg.tdesc[i] d tag else g.rg.tdesc[i]) } })) s

/-! Paired images (R108, R109, R292) -/

/-- The address of an image: through a window its virtual address, through the shelf its offset. -/
def imageVa (win : BitVec 3) (shf : Bool) (x : Srcs) : Acc W64 := do
  pure (spanVa (← getCur) shf { win := win, off := x.addr, len := 0 })
/-- The first 0x80 bytes of an image (R109). -/
def pairHead (d : W64) (tag : BitVec 12) (e : BitVec 512) : List Byte :=
  natToBytes 0x80 (packFields (if tdBvalid d then
    [(64, d.toNat), (12, tag.toNat), (4, 0), (5, (tdSreg d).toNat), (43, 0), (384, 0), (512, e.toNat)] else [(64, d.toNat)]))
/-- R292. -/
def ssaveBody (win : BitVec 3) (shf : Bool) (t : BitVec 4) (land : Acc Unit) (x : Srcs) : Acc Unit := do
  let r := (← getCur).rg
  let d := r.tdesc.getD t.toNat 0
  let tag := r.etag.getD (tdSreg d).toNat 0
  let n := 0x80 + tdRows d * tdBytes d
  let as ← spanAddrs shf .write [{ win := win, off := x.addr, len := n }]
  if tdBvalid d && tdBtag d != tag then throw (.fault (staleInfo r 4 t))
  else if (← imageVa win shf x).toNat % 128 ≠ 0 then raise .mxFormat
  else do
    land
    if tdBvalid d then needScale (tdSreg d)
    writeSpans [(as.getD 0 [], pairHead d tag (r.ereg (tdSreg d)) ++ r.tileBytes t.toNat)]
def execSsave (h : LHdr) (a : Opnd) (win : BitVec 3) (shf : Bool) (t : BitVec 4) (os : Order) (s : State) : Out :=
  mxRun (.ssave h a win shf t os) h (pure ()) [1, 4] [] [(a, 1), (.tile t, 1)] [(a, 1)] (mxSrcs a [])
    (fun need => ssaveBody win shf t (need [(a, 1), (.tile t, 1)])) s

/-- The checks of an image's head (R292). -/
def headOk (l : List Byte) : Bool :=
  let d := BitVec.ofNat 64 (fieldAt l 0 64)
  let e := BitVec.ofNat 512 (fieldAt l 512 512)
  tdescOk d && fieldAt l 128 384 == 0 &&
  (if tdBvalid d then
    fieldAt l 80 5 == (tdSreg d).toNat && fieldAt l 64 12 == (tdBtag d).toNat && fieldAt l 76 4 == 0 && fieldAt l 85 43 == 0 && !scaleBad e
   else fieldAt l 64 64 == 0 && e == 0)
/-- The restored tile, register, tag and binding in one step (R108). -/
def RegSpace.restorePair (r : RegSpace) (t : BitVec 4) (d : W64) (e : BitVec 512) (rows : List Byte) : RegSpace :=
  let r1 := { r with tdesc := vset r.tdesc t.toNat d }
  let r2 := r1.writeTile t.toNat rows
  if tdBvalid d then
    { r2 with e := vset r2.e (tdSreg d).toNat e, ebad := putBit r2.ebad (tdSreg d).toNat false, etag := vset r2.etag (tdSreg d).toNat (tdBtag d),
              tdesc := Vector.ofFn (fun i : Fin 16 =>
                if i.val ≠ t.toNat ∧ tdSreg r2.tdesc[i] = tdSreg d then putBit r2.tdesc[i] 63 false else r2.tdesc[i]) }
  else r2
/-- R292. The whole image is resolved and its placement checked before its alignment and its head are (R278); a head that cannot be
read gives no more of the image, and its fault comes after the alignment's. -/
def srestBody (win : BitVec 3) (shf : Bool) (t : BitVec 4) (land : Acc Unit) (x : Srcs) : Acc Unit := do
  let r := (← getCur).rg
  if bitsOf r.tview 24 11 ≤ t.toNat then rangeOf 4 (.tile t)
  let h1 : Span := { win := win, off := x.addr, len := 0x80 }
  let as ← spanAddrs shf .read [h1]
  let aligned := decide ((← imageVa win shf x).toNat % 128 = 0)
  let head ← match ← attempt (readSpans shf ([h1].zip as)) with
    | .ok l => pure l.flatten
    | .error e => do
      if !aligned then raise .mxFormat
      throw e
  let d := BitVec.ofNat 64 (fieldAt head 0 64)
  let h2 : Span := { win := win, off := x.addr + 0x80, len := tdRows d * tdBytes d }
  let bs ← spanAddrs shf .read [h1, h2]
  if r.declared.toNat < bitsOf r.tview 0 17 + tdOff d + tdRows d * tdBytes d then rangeOf 4 (.tile t)
  if !aligned then raise .mxFormat
  if !headOk head then raise .descFormat
  land
  let rows := (← readSpans shf ([h2].zip (bs.drop 1))).flatten
  modifyCur (fun g => { g with rg := g.rg.restorePair t d (BitVec.ofNat 512 (fieldAt head 512 512)) rows })
def execSrest (h : LHdr) (a : Opnd) (win : BitVec 3) (shf : Bool) (t : BitVec 4) (os : Order) (s : State) : Out :=
  mxRun (.srest h a win shf t os) h (pure ()) [1] [] [(a, 1)] [(a, 1)] (mxSrcs a []) (fun need => srestBody win shf t (need [(a, 1)])) s

end Sys2Proof.Machine
end

