-- ==== Sys2Proof/Machine/Ready.lean ====
section
/-! DEFINITION. What an instruction reads and writes, as far as it decides whether the instruction may issue, and what holds a
stream (R101, R102, R141, R225, R270, R307, R309, R317 to R319, R389). -/

namespace Sys2Proof.Machine

/-! Operands -/

/-- The register operands that a lane instruction writes, and those that it reads: at `lbr.c` and `lsync.c` the rows that threads take
along (R271). `srest` writes the tile that its image names. -/
def laneIO (g : Group) : Instr → List (Opnd × Nat) × List (Opnd × Nat)
  | .fadd _ d a b _ _ | .fsub _ d a b _ _ | .fmul _ d a b _ _ | .fmin _ d a b | .fmax _ d a b | .fcmp _ d a b _ _
  | .fsel _ d a b _ _ | .hadd _ d a b _ _ _ | .hsub _ d a b _ _ _ | .hmul _ d a b _ _ _ | .hmin _ d a b _ | .hmax _ d a b _
  | .hcmp _ d a b _ _ _ _ _ => ([(d, 1)], [(a, 1), (b, 1)])
  | .ffma _ d a b c _ _ | .hfma _ d a b c _ _ _ | .cvts _ d a b c _ _ _ _ _ _ => ([(d, 1)], [(a, 1), (b, 1), (c, 1)])
  | .fabs _ d a | .fneg _ d a | .rcp _ d a _ | .rsq _ d a _ | .sqrt _ d a _ | .exp2 _ d a _ | .log2 _ d a _ => ([(d, 1)], [(a, 1)])
  | .iadd _ d a b ty _ | .isub _ d a b ty _ | .imul _ d a b ty | .imulh _ d a b ty | .imin _ d a b ty | .imax _ d a b ty =>
    ([(d, tyRegs ty)], [(a, tyRegs ty), (b, tyRegs ty)])
  | .icmp _ d a b ty _ _ => ([(d, 1)], [(a, tyRegs ty), (b, tyRegs ty)])
  | .bfe _ d a b ty => ([(d, tyRegs ty)], [(a, tyRegs ty), (b, 1)])
  | .imad _ d a b c ty => ([(d, tyRegs ty)], [(a, tyRegs ty), (b, tyRegs ty), (c, tyRegs ty)])
  | .iand _ d a b w | .ior _ d a b w | .ixor _ d a b w | .isel _ d a b w _ _ => ([(d, wRegs w)], [(a, wRegs w), (b, wRegs w)])
  | .ishl _ d a b w | .ishr _ d a b w | .isra _ d a b w | .shfl _ d a b w _ _ _ => ([(d, wRegs w)], [(a, wRegs w), (b, 1)])
  | .bfi _ d a b c w => ([(d, wRegs w)], [(a, wRegs w), (b, 1), (c, wRegs w)])
  | .lanePopc _ d a w | .laneClz _ d a w => ([(d, 1)], [(a, wRegs w)])
  | .cvt _ d a b _ _ ty ty2 _ _ => ([(d, tyRegs ty)], [(a, tyRegs ty2), (b, tyRegs ty)])
  | .pack _ d a b _ _ => ([(d, 1)], [(a, 1), (b, 1)])
  | .unpack _ d a _ _ => ([(d, 1)], [(a, 1)])
  | .fxcvt _ d a _ => ([(d, 1)], [(a, 4)])
  | .vote _ d k _ _ _ => ([(d, if k == .ballot then 2 else 1)], [])
  | .perm _ d a b _ => ([(d, 1)], [(a, 1), (b, 4)])
  | .movi _ d _ _ => ([(d, 1)], [])
  | .mov h d a b w m =>
    let n := wRegs w
    let regs := fun (i : BitVec 10) => ((List.range 64).filter (fun j => bitOf (g.sel h).exec j)).map (fun j =>
      (Opnd.vec (BitVec.ofNat 10 (idxReg i (g.srcVal b 1 j))), n))
    match m with
    | .dir => ([(d, n)], [(a, n)])
    | .rdx => ([(d, n)], (b, 1) :: regs (Opnd.vecIdx a))
    | .wrx => (regs (Opnd.vecIdx d), [(a, n), (b, 1)])
  | .lld _ d a z _ => ([(d, sizeRegs z)], [(a, 1)])
  | .lst _ a b z _ => ([], [(a, 1), (b, sizeRegs z)])
  | .laneAtom _ d a b c ty op _ =>
    ([(d, atomRegs ty)], [(a, 1), (b, atomRegs ty)] ++ (if op == .cas then [(c, atomRegs ty)] else []))
  | .tld _ t a c .. => ([(.tile t, 1)], [(a, 1), (c, 2)])
  | .tst _ t a c .. => ([], [(a, 1), (.tile t, 1), (c, 2)])
  | .mload _ t m c shf sp => ([], (if shf then [(c, 1)] else [(.tile t, 1)]) ++ (if sp = 0 then [] else [(.tile m, 1)]))
  | .mloop _ acc a rl w c dstep sa sw sp mt _ _ =>
    (if dstep then [(.acc acc, 1)] else [],
      (if sa then [] else [(.tile a, 1)]) ++ (if rl && !sw then [(.tile w, 1)] else []) ++ (if rl && sp != 0 then [(.tile mt, 1)] else []) ++
        [(c, 4)])
  | .mdrain _ k d .. => ((match k with | .acc => [(.acc d, 1)] | .cvt => [(.tile d, 1)] | .port => []), [])
  | .mdrainRaw _ a .. | .msave _ a .. | .mrestImg _ a .. | .mrestRaw _ a .. => ([], [(a, 1)])
  | .smov _ _ m a .. => ([], match m with | .vec => [(.vec a, 1)] | _ => [])
  | .ssave _ a _ _ t _ => ([], [(a, 1), (.tile t, 1)])
  | .srest _ a .. => ([], [(a, 1)])
  | .lbrC .. | .lsyncC .. => ([(.vec 0, viewRows g.rg)], [(.vec 0, viewRows g.rg)])
  | _ => ([], [])
/-- The predicates that a lane instruction reads or writes beside its guard. -/
def lanePreds : Instr → List (BitVec 3)
  | .fcmp _ _ _ _ _ p | .icmp _ _ _ _ _ _ p | .hcmp _ _ _ _ _ _ _ p _ | .fsel _ _ _ _ _ p | .isel _ _ _ _ _ _ p | .shfl _ _ _ _ _ _ _ p => [p]
  | .vote _ _ _ _ p pd => [p, pd]
  | .lanePlog _ pd pa pb _ => [pd, pa, pb]
  | _ => []
/-- The descriptor in the image that an `srest` reads from its operands, if it can be read now (R292). -/
def srestDesc (s : State) (win : BitVec 3) (shf : Bool) (x : Srcs) : Option W64 :=
  let h1 : Span := { win := win, off := x.addr, len := 0x80 }
  match (do readSpans shf ([h1].zip (← spanAddrs shf .read [h1])) : Acc (List (List Byte))).run s with
  | .ok l _ => some (BitVec.ofNat 64 (fieldAt l.flatten 0 64))
  | .error _ _ => none
/-- The operands of an instruction of classes 6 and 7 as thread v gives them. -/
def mxOperands (g : Group) (a c : Opnd) (n : Nat) : Srcs :=
  match g.ln.lowest g.ln.act with
  | some v => mxSrcs a (paramWords g c n v) g v
  | none => {}
/-- What an `srest` writes: the place of its tile and, with a binding, its scale register; all of register space where its image
cannot be read yet (R292). -/
def srestRows (r : RegSpace) : Option W64 → List (Nat × Nat)
  | some d => [(bitsOf r.tview 0 17 + tdOff d, tdRows d * tdBytes d)]
  | none => [(0, r.declared.toNat)]
def srestScales : Option W64 → List (BitVec 5)
  | some d => if tdBvalid d then [tdSreg d] else []
  | none => (List.range 32).map (BitVec.ofNat 5)
/-- The ranges of register space and the scale registers that a lane instruction of the current group writes. -/
def rowsWritten (s : State) (i : Instr) : List (Nat × Nat) :=
  let g := s.cur
  match i with
  | .srest _ a win shf _ _ => srestRows g.rg (srestDesc s win shf (mxOperands g a .zero 0))
  | _ => g.rg.spans (laneIO g i).1
def scalesWritten (s : State) : Instr → List (BitVec 5)
  | .sadd _ d .. | .smax _ d .. | .smin _ d .. | .srebias _ d .. | .smov _ d .. => [d]
  | .tld _ _ _ _ _ _ _ sc e _ => if sc then [e] else []
  | .srest _ a win shf _ _ => srestScales (srestDesc s win shf (mxOperands s.cur a .zero 0))
  | _ => []
/-- A lane instruction that reads or writes scale registers or their tags. -/
def usesScales : Instr → Bool
  | .cvts .. | .mload .. | .mloop .. | .sadd .. | .smax .. | .smin .. | .srebias .. | .smov .. | .sbind .. | .ssave .. | .srest .. => true
  | .tld _ _ _ _ _ _ _ sc _ _ | .tst _ _ _ _ _ _ _ sc _ => sc
  | _ => false

/-! A loop of the array (R141) -/

/-- The ranges of register space that the steps left of a loop read. -/
def Loop.rowsLeft (l : Loop) (r : RegSpace) : List (Nat × Nat) := ((List.range l.steps).drop l.done).flatMap (l.rowsAt r)
/-- The scale registers that the steps left of a loop read (R139). -/
def Loop.scalesLeft (l : Loop) : List (BitVec 5) :=
  ((List.range l.steps).drop l.done).flatMap (fun k =>
    (if tdScaled l.aDesc then [tdSreg l.aDesc + BitVec.ofNat 5 (if l.dstep then k * l.incEa.toNat else 0)] else []) ++
    (if l.dstep && l.reloadsAt k && tdScaled l.wDesc then
      [tdSreg l.wDesc + BitVec.ofNat 5 ((k + 1) * l.incEb.toNat)] else []))
/-- The shelf ranges that the steps left of a loop read (R140). -/
def Loop.shelfLeft (l : Loop) : List (Nat × Nat) :=
  let at0 := fun (o : W32) (d : W64) (inc : BitVec 12) (k : Nat) => (((o.toNat : Int) + incBytes inc * k).toNat, aBytes d)
  ((List.range l.steps).drop l.done).flatMap (fun k =>
    (match l.aShf with | some o => [at0 o l.aDesc l.incA k] | none => []) ++
    (match l.wShf with | some o => if l.reloadsAt k then [at0 o l.wDesc l.incW (k + 1)] else [] | none => []))
/-- A loop's accumulator tile with `.dstep` (R139). -/
def Loop.accLeft (l : Loop) (r : RegSpace) : List (Nat × Nat) := if l.dstep then [(l.regs r).accSpan l.acc.toNat] else []
/-- The loop that an `mloop` with operands `x` would run. -/
def mloopIs (g : Group) (x : Srcs) : Instr → Option Loop
  | .mloop h acc a rl w c dstep sa sw sp mt steps r =>
    some (mloopOf g.rg 0 acc a rl w dstep sa sw sp mt steps r x (.mloop h acc a rl w c dstep sa sw sp mt steps r))
  | _ => none
/-- Lane instruction i has to wait for the steps left of a loop: it writes what they read, or touches the accumulator of a `.dstep` loop
(R141). -/
def loopBars (s : State) (l : Loop) (i : Instr) : Bool :=
  let g := s.cur
  let w := rowsWritten s i
  anyMeet w (l.rowsLeft g.rg) || (scalesWritten s i).any (fun e => l.scalesLeft.contains e) ||
  anyMeet (w ++ g.rg.spans (laneIO g i).2) (l.accLeft g.rg)

/-! What may issue past a logged instruction (R319) -/

/-- The scalar registers of an arithmetic, logic, compare, select, move or branch instruction of the scalar stream, and its
predicates; none for any other. -/
def scalarUse : Instr → Option (List SReg × List (BitVec 3))
  | .add d a b | .sub d a b | .mul d a b | .mulh d a b _ | .div d a b _ | .rem d a b _ | .and d a b | .or d a b | .xor d a b
  | .shl d a b | .shr d a b | .sra d a b | .min d a b _ | .max d a b _ | .ext d a b _ | .ins d a b => some ([d, a, b], [])
  | .sel d a b _ p => some ([d, a, b], [p])
  | .addi d a _ | .muli d a _ | .andi d a _ | .ori d a _ | .xori d a _ | .shli d a _ | .shri d a _ | .srai d a _ | .mini d a _
  | .maxi d a _ | .clz d a | .popc d a | .brev d a => some ([d, a], [])
  | .limSet d _ | .limCat d _ | .mfc d _ => some ([d], [])
  | .mtc a _ => some ([a], [])
  | .cmp p a b _ => some ([a, b], [p])
  | .cmpi _ p a _ => some ([a], [p])
  | .plog d a b _ => some ([], [d, a, b])
  | .pget d => some ([d], (List.range 8).map (BitVec.ofNat 3))
  | .pset a => some ([a], (List.range 8).map (BitVec.ofNat 3))
  | .br _ p _ => some ([], [p])
  | .jmp _ => some ([], [])
  | .call _ => some ([63], [])
  | .jmpr a => some ([a], [])
  | .callr d a => some ([d, a], [])
  | _ => none
/-- The registers and the predicates that a scalar instruction which may be deferred writes (R203, R204, R208, R223, R341, R362). -/
def scalarDests : Instr → List SReg × List (BitVec 3)
  | .ld d _ _ z _ => (if z = .b128 then [d, d + 1] else [d], [])
  | .atom d _ op _ _ => (if op == .fxadd || op == .oadd then [] else [d], [])
  | .watch d .. | .launch d _ | .gangUnpin d _ _ | .gangReq d _ _ | .gangRes d _ | .gangCxl d _ | .kvcCmt d _ _
  | .kvcRsv d _ _ | .kvcPurge d _ _ | .kvcEnd d _ _ => ([d], [])
  | .qld p _ _ _ _ _ nb => ([], if nb then [p] else [])
  | .gangPin d _ => ([d, d + 1, d + 2, d + 3], [])
  | .gangHome d _ _ => ([d, d + 1, d + 2], [])
  | .gangRd d _ _ | .vgen d _ _ => ([d, d + 1], [])
  | _ => ([], [])
/-- A lane instruction of the classes that may pass. -/
def lanePasses : Instr → Bool
  | .lnop _ | .lend _ | .lexit _ | .lfence .. | .lld .. | .lst .. | .laneAtom .. | .tld .. | .tst .. | .mload .. | .mloop .. | .mdrain ..
  | .mdrainRaw .. | .mzero .. | .msave .. | .mrestImg .. | .mrestRaw .. | .sadd .. | .smax .. | .smin .. | .srebias .. | .smov .. | .sbind ..
  | .ssave .. | .srest .. => false
  | _ => true
/-- The ranges that a logged lane instruction writes; the tile that it reads in place; the predicate of a `y:p` destination; the scale
registers that it writes, and the one that it reads in place. -/
def laneDests (s : State) (x : Srcs) : Instr → List (Nat × Nat)
  | .lld _ d _ z _ => [s.cur.rg.opSpan d (sizeRegs z)]
  | .laneAtom _ d _ _ _ ty op _ => if op == .fxadd || op == .oadd then [] else [s.cur.rg.opSpan d (atomRegs ty)]
  | .tld _ t .. => [s.cur.rg.tileSpan t.toNat]
  | .srest _ _ win shf _ _ => srestRows s.cur.rg (srestDesc s win shf x)
  | .mdrain _ .acc d .. => [s.cur.rg.accSpan d.toNat]
  | .mdrain _ .cvt d .. => [s.cur.rg.tileSpan d.toNat]
  | _ => []
def laneTiles (r : RegSpace) : Instr → List (Nat × Nat)
  | .tst _ t .. | .ssave _ _ _ _ t _ => [r.tileSpan t.toNat]
  | .mload _ t m _ shf sp => (if shf then [] else [r.tileSpan t.toNat]) ++ (if sp = 0 then [] else [r.tileSpan m.toNat])
  | _ => []
def lanePushes : Instr → List (BitVec 3)
  | .lld _ (.yp _ p) _ _ _ | .laneAtom _ (.yp _ p) _ _ _ _ _ _ => if p = 7 then [] else [p]
  | _ => []
def laneScaleDests (s : State) (x : Srcs) : Instr → List (BitVec 5)
  | .tld _ _ _ _ _ _ _ sc e _ => if sc then [e] else []
  | .srest _ _ win shf _ _ => srestScales (srestDesc s win shf x)
  | _ => []
def laneScaleSrcs (r : RegSpace) : Instr → List (BitVec 5)
  | .tst _ t _ _ _ _ _ sc _ => if sc then [tdSreg (r.tdesc.getD t.toNat 0)] else []
  | .ssave _ _ _ _ t _ => let d := r.tdesc.getD t.toNat 0; if tdBvalid d then [tdSreg d] else []
  | .mload _ t .. => let d := r.tdesc.getD t.toNat 0; if tdScaled d then [tdSreg d] else []
  | _ => []
/-- The instruction of a log entry. -/
def OpLog.instr (l : OpLog) : Option Instr :=
  match (if l.lane then decodeLane l.word else decodeScalar (l.word.extractLsb' 0 32)) with | .ok i => some i | .error _ => none
/-- Registers, tiles and predicates of lane instruction i keep clear of those of logged lane instruction k, whose operands are `x`. -/
def laneClear (s : State) (x : Srcs) (k i : Instr) : Bool :=
  let g := s.cur
  let w := rowsWritten s i
  let ps := (encodeLane i).extractLsb' 80 3 :: lanePreds i
  !anyMeet (w ++ g.rg.spans (laneIO g i).2) (laneDests s x k) && !anyMeet w (laneTiles g.rg k) &&
  ps.all (fun p => !(lanePushes k).contains p) &&
  (match i with | .cvts _ _ _ _ _ _ _ _ _ e _ => !(laneScaleDests s x k).contains e | _ => true)
/-- Lane instruction i may issue past lane instruction k. -/
def lanePast (s : State) (x : Srcs) (k i : Instr) : Bool :=
  let (w, r) := laneIO s.cur i
  lanePasses i && !(w ++ r).any (fun o => o.1.isQueue) && laneClear s x k i
/-- Nothing issues past a `coll` or a `samp`, which has its stream wait or yield (R373). -/
def staysAt : Instr → Bool | .collRun .. | .samp .. => true | _ => false
/-- Scalar registers and predicates keep clear of those that logged scalar instruction k writes. -/
def scalarClear (k : Instr) (u : List SReg × List (BitVec 3)) : Bool :=
  u.1.all (fun r => !(scalarDests k).1.contains r) && u.2.all (fun p => !(scalarDests k).2.contains p)
/-- An instruction that may issue while a deferred one waits (R319). -/
def mayPassFault (s : State) (l : OpLog) (i : Instr) : Bool :=
  match l.instr with
  | none => false
  | some k =>
    if l.lane then lanePast s l.srcs k i
    else !staysAt k && (match scalarUse i with | some u => scalarClear k u | none => false)

/-! What may issue past an instruction that waits for a scrub, or of the array for its own group (R37, R43, R46, R275; logs 76 and 104) -/

/-- Where an access lies: at an offset of a window, at one of the shelf, or at a virtual address. -/
inductive Place where
  | win (w : BitVec 3) (o : Nat)
  | shelf (o : Nat)
  | va (a : W64)
/-- An access of an instruction: its kind, its order, its ranges with their lengths. -/
structure Plain where
  kind  : AKind
  order : Order
  parts : List (Place × Nat)
/-- The places of ranges through windows or, with `shf`, of the shelf. -/
def spanPlaces (shf : Bool) (l : List Span) : List (Place × Nat) :=
  l.map (fun x => (if shf then .shelf x.off else .win x.win x.off, x.len))
/-- The places of a lane access of n bytes a thread. -/
def lanePlaces (g : Group) (h : LHdr) (m : LMem) (x : Srcs) (n : Nat) : List (Place × Nat) :=
  spanPlaces m.shf ((accLanes g h.uni x.exec).map (fun j => { win := m.win, off := laneOff x m.off.toNat j, len := n }))
/-- The access of an instruction with operands `x`; none of one that makes none (R40 to R43, R219, R341, R362). -/
def plainOf (s : State) (x : Srcs) (i : Instr) : Option Plain :=
  let g := s.cur
  let td := fun (t : BitVec 4) => g.rg.tdesc.getD t.toNat 0
  let scr := fun (k : AKind) (r : Order) => some { kind := k, order := r, parts := [(Place.va (x.s 0), 256)] }
  match i with
  | .ld _ _ w z r => some { kind := .read, order := r, parts := [(.win w x.off, sizeBytes z)] }
  | .st _ _ w z r => some { kind := .write, order := r, parts := [(.win w (bitsOf (x.s (storeRegs z)) 0 32), sizeBytes z)] }
  | .atom _ _ op ty r => some { kind := .atomic, order := r, parts := [(.va (x.s (atomSrcs op)), targetBytes op ty)] }
  | .qld _ _ _ w _ r _ => some { kind := .read, order := r, parts := [(.win w x.off, 256)] }
  | .watch _ _ w z r => some { kind := .read, order := r, parts := [(.win w x.off, sizeBytes z)] }
  | .shld _ _ z r => some { kind := .read, order := r, parts := [(.shelf (bitsOf (x.s 0) 0 20), sizeBytes z)] }
  | .shst _ _ z r => some { kind := .write, order := r, parts := [(.shelf (bitsOf (x.s 0) 0 20), sizeBytes z)] }
  | .chain _ _ =>
    let q := s.queue s.curG.die ((x.s 1).extractLsb' 0 7)
    some { kind := .write, order := .rel .die, parts := if q.tail = 0 then [] else [(.va (q.tail + 56), 8)] }
  | .launch _ _ => some { kind := .read, order := .rel .pkg, parts := [(.va (x.s 0), 256)] }
  | .gangPin .. | .kvcCmt .. | .kvcRsv .. | .kvcPurge .. | .kvcEnd .. | .vgen .. => scr .atomic (.ar .pkg)
  | .gangUnpin .. | .gangReq .. | .gangRes .. | .gangCxl .. => scr .atomic (.rel .pkg)
  | .gangHome .. => scr .read .rlx
  | .gangRd .. => scr .read (.acq .pkg)
  | .lld h _ _ z m => some { kind := .read, order := m.os, parts := lanePlaces g h m x (sizeBytes z) }
  | .lst h _ _ z m => some { kind := .write, order := m.os, parts := lanePlaces g h m x (sizeBytes z) }
  | .laneAtom h _ _ _ _ ty op m => some { kind := .atomic, order := m.os, parts := lanePlaces g h m x (targetBytes op ty) }
  | .tld _ t _ _ win swin shf sc _ os =>
    some { kind := .read, order := os, parts := spanPlaces shf (tileSpans (td t) win swin sc x) }
  | .tst _ t _ _ win swin shf sc os =>
    some { kind := .write, order := os, parts := spanPlaces shf (tileSpans (td t) win swin sc x) }
  | .ssave _ _ win shf t os =>
    some { kind := .write, order := os, parts := spanPlaces shf [{ win := win, off := x.addr, len := 0x80 + (g.rg.tileSpan t.toNat).2 }] }
  | .srest _ _ win shf _ os =>
    let n := match srestDesc s win shf x with | some d => tdRows d * tdBytes d | none => g.rg.declared.toNat
    some { kind := .read, order := os, parts := spanPlaces shf [{ win := win, off := x.addr, len := 0x80 + n }] }
  | .mload _ t _ _ true _ => some { kind := .read, order := .rlx, parts := [(.shelf x.addr, (g.rg.tileSpan t.toNat).2)] }
  | .mloop .. => match (mloopIs g x i).map Loop.shelfLeft with
    | none | some [] => none
    | some l => some { kind := .read, order := .rlx, parts := l.map (fun p => (.shelf p.1, p.2)) }
  | .mdrainRaw _ _ _ win os => some { kind := .write, order := os, parts := [(.win win x.addr, 16384)] }
  | .msave _ _ win os => some { kind := .write, order := os, parts := [(.win win x.addr, 162 * 256)] }
  | .mrestImg _ _ win os => some { kind := .read, order := os, parts := [(.win win x.addr, 162 * 256)] }
  | .mrestRaw _ _ win os => some { kind := .read, order := os, parts := [(.win win x.addr, 16384)] }
  | _ => none
/-- The operands that decide the accesses of an instruction which has not issued. -/
def operandsOf (g : Group) : Instr → Srcs
  | .ld _ o .. | .qld _ _ o .. | .watch _ o .. | .shld _ o .. | .shst _ o .. => { sc := [g.sr o] }
  | .st d o _ z _ => { sc := (List.range (storeRegs z)).map (g.srAt d) ++ [g.sr o] }
  | .atom d o op _ _ => { sc := (List.range (atomSrcs op)).map (g.srAt d) ++ [g.sr o] }
  | .gangPin _ a | .gangRes _ a | .gangCxl _ a => { sc := [g.sr a] }
  | .gangUnpin _ a _ | .gangHome _ a _ | .gangReq _ a _ | .gangRd _ a _ | .kvcCmt _ a _ | .kvcRsv _ a _ | .kvcPurge _ a _
  | .kvcEnd _ a _ | .vgen _ a _ => { sc := [g.sr a] }
  | .lld h _ a .. | .lst h a .. | .laneAtom h _ a .. => { a := g.srcReg a 0, exec := (g.accSel h).1 }
  | .tld _ _ a c .. | .tst _ _ a c .. => mxOperands g a c 2
  | .mload _ _ _ c .. => mxOperands g c .zero 0
  | .mloop _ _ _ _ _ c .. => mxOperands g .zero c 4
  | .ssave _ a .. | .srest _ a .. | .mdrainRaw _ a .. | .msave _ a .. | .mrestImg _ a .. | .mrestRaw _ a .. => mxOperands g a .zero 0
  | _ => {}
/-- The physical address of a place for the current group, of a page under scrub that of its leaf. -/
def placeOf (s : State) (k : AKind) (p : Place) : Option Nat :=
  let (va, r) := match p with
    | .shelf o => (0, (shelfResolve s.curG (o / 4096) (o % 4096) 1).run s)
    | .win w o => (s.cur.winVa w o, (windowAccess s.curG w o k).run s)
    | .va a => (a, (translate (groupAgent s.curG s.cur) a k).run s)
  match r with
  | .ok a _ => some a
  | .error .scrub _ =>
    match walkTables s s.curG.die s.cur.pasid va with
    | .leaf lvl e _ => some (leafFrame e + bitsOf va 0 55 % pageSize lvl)
    | _ => none
  | .error _ _ => none
/-- A range cut where a page, or a slot of the shelf, ends; `n` bounds the pieces. -/
def cutPlace (g : Group) : Nat → Place → Nat → List (Place × Nat)
  | 0, _, _ => []
  | n + 1, p, len =>
    let room := match p with
      | .shelf o => 4096 - o % 4096
      | .win w o => 0x10000 - (g.winVa w o).toNat % 0x10000
      | .va a => 0x10000 - a.toNat % 0x10000
    if len ≤ room then [(p, len)]
    else (p, room) :: cutPlace g n (match p with
      | .shelf o => .shelf (o + room)
      | .win w o => .win w (o + room)
      | .va a => .va (a + BitVec.ofNat 64 room)) (len - room)
/-- The places of an access, cut at the pages and slots of its addresses; none where one is not known. -/
def placesOf (s : State) (p : Plain) : Option (List (Nat × Nat)) :=
  (p.parts.flatMap (fun x => cutPlace s.cur (x.2 / 4096 + 2) x.1 x.2)).mapM (fun c => (placeOf s p.kind c.1).map (fun a => (a, c.2)))
/-- A read or a read-modify-write; an acquire; a release (R39, R43). -/
def AKind.reads (k : AKind) : Bool := k != .write
def isAcq : Order → Bool | .acq _ | .ar _ => true | _ => false
def isRel : Order → Bool | .rel _ | .ar _ => true | _ => false
/-- Access q may perform before the earlier access p: p does not acquire, q does not release, no write comes before a read, and they
share no location (R43). -/
def mayOvertake (s : State) (p q : Plain) : Bool :=
  !isAcq p.order && !(isRel q.order && q.kind.writes) && !(p.kind.reads && q.kind.writes) &&
  (match placesOf s p, placesOf s q with | some a, some b => !anyMeet a b | _, _ => false)
/-- Instruction i, with operands `y`, accesses no memory, or may do so before instruction k, with operands `x`, does. -/
def mayAccess (s : State) (x y : Srcs) (k i : Instr) : Bool :=
  match plainOf s y i, plainOf s x k with
  | some q, some p => mayOvertake s p q
  | _, _ => true
/-- The scale registers that a lane instruction with operands `x` reads or writes, and the tiles that it binds. -/
def scalesTouched (g : Group) (x : Srcs) : Instr → List (BitVec 5)
  | .cvts _ _ _ _ _ _ _ _ _ e _ => [e]
  | .sadd _ d a b reg .. => [d, a] ++ if reg then [b.extractLsb' 0 5] else []
  | .smax _ d a b .. | .smin _ d a b .. => [d, a, b]
  | .srebias _ d a .. => [d, a]
  | .smov _ d m a .. => [d] ++ match m with | .vec => [] | _ => [a.extractLsb' 0 5]
  | .sbind _ d _ => [d]
  | .mload _ t .. | .ssave _ _ _ _ t _ => [tdSreg (g.rg.tdesc.getD t.toNat 0)]
  | .tld _ _ _ _ _ _ _ sc e _ => if sc then [e] else []
  | .tst _ t _ _ _ _ _ sc _ => if sc then [tdSreg (g.rg.tdesc.getD t.toNat 0)] else []
  | i => match mloopIs g x i with | some l => l.scalesLeft | none => []
def tilesBound : Instr → BitVec 16
  | .sadd _ _ _ _ _ _ rb ts | .smax _ _ _ _ rb ts | .smin _ _ _ _ rb ts | .srebias _ _ _ _ _ rb ts | .smov _ _ _ _ _ rb ts =>
    if rb then ts else 0
  | .sbind _ _ ts => ts
  | _ => 0
/-- The tiles that a lane instruction names in place. -/
def tilesNamed : Instr → List (BitVec 4)
  | .tld _ t .. | .tst _ t .. | .ssave _ _ _ _ t _ | .srest _ _ _ _ t _ => [t]
  | .mload _ t m .. => [t, m]
  | .mloop _ _ a _ w _ _ _ _ _ mt _ _ => [a, w, mt]
  | .mdrain _ .cvt d .. => [d]
  | _ => []
/-- An instruction of the array. -/
def usesArray : Instr → Bool
  | .mload .. | .mloop .. | .mdrain .. | .mdrainRaw .. | .mzero .. | .msave .. | .mrestImg .. | .mrestRaw .. => true
  | _ => false
/-- A lane instruction that is no release, no fence and no end of the thread or the block. A push is a release, which nothing may come
before (R46). -/
def laneFree (i : Instr) : Bool :=
  (match i with | .lend _ | .lexit _ | .lfence .. => false | _ => true) && !(laneIO {} i).1.any (fun o => o.1.isQueue)
/-- Lane instruction i is independent of a waiting lane instruction k with operands `x`. -/
def lanePastScrub (s : State) (x : Srcs) (k i : Instr) : Bool :=
  let g := s.cur
  let y := operandsOf g i
  laneFree i && !(usesArray k && usesArray i) && laneClear s x k i &&
  (scalesTouched g y i ++ scalesWritten s i).all (fun e => !(laneScaleDests s x k ++ laneScaleSrcs g.rg k).contains e) &&
  (tilesNamed k).all (fun t => !bitOf (tilesBound i) t.toNat) &&
  (match mloopIs g x k with | some l => !loopBars s l i | none => true) &&
  (match mloopIs g y i with | some l => !anyMeet (l.rowsLeft g.rg) (laneDests s x k) | none => true) &&
  mayAccess s x y k i
/-- The scalar registers and the predicates of a scalar instruction that may come before an earlier one. -/
def scalarTouch (i : Instr) : Option (List SReg × List (BitVec 3)) :=
  let dst := scalarDests i
  match i with
  | .nop => some ([], [])
  | .schrd d _ | .prio d _ _ => some ([d], [])
  | .ypop p _ d nb => some ([d], if nb then [p] else [])
  | .ld _ o .. | .watch _ o .. => some (o :: dst.1, [])
  | .shld d o z _ | .shst d o z _ | .st d o _ z _ => some ([d, o] ++ (if z = .b128 then [d + 1] else []), [])
  | .atom d o op .. => some ([d, o] ++ (if op == .cas then [d + 1] else []), [])
  | .wset _ a => some ([a], [])
  | .lkup d a | .slotEvict d a | .slotRd d a | .slotInst d a => some ([d, a], [])
  | .gangPin _ a | .gangRes _ a | .gangCxl _ a => some (a :: dst.1, [])
  | .gangUnpin _ a b | .gangHome _ a b | .gangReq _ a b | .gangRd _ a b | .kvcCmt _ a b | .kvcRsv _ a b | .kvcPurge _ a b
  | .kvcEnd _ a b | .vgen _ a b => some ([a, b, b + 1] ++ dst.1, [])
  | i => scalarUse i
/-- The window that a scalar instruction goes through, and the one that it sets. -/
def winUsed : Instr → Option (BitVec 3)
  | .ld _ _ w .. | .st _ _ w .. | .qld _ _ _ w .. | .watch _ _ w .. | .wset w _ => some w
  | _ => none
def winSet : Instr → Option (BitVec 3) | .wset w _ => some w | _ => none
/-- Neither instruction sets a window, or a monitor, that the other uses (R207, R223). -/
def groupClear (k i : Instr) : Bool :=
  (match winSet k with | some w => winUsed i != some w | none => true) && (match winSet i with | some w => winUsed k != some w | none => true) &&
  (match k, i with | .watch .., .watch .. => false | _, _ => true)
/-- Scalar instruction i is independent of a waiting scalar instruction k. -/
def scalarPastScrub (s : State) (x : Srcs) (k i : Instr) : Bool :=
  !staysAt k && (match scalarTouch i with | some u => scalarClear k u | none => false) && groupClear k i &&
  mayAccess s x (operandsOf s.cur i) k i
/-- An instruction that may issue while a stalled one waits (R37). -/
def mayPassScrub (s : State) (l : OpLog) (i : Instr) : Bool :=
  match l.instr with
  | none => false
  | some k => if l.lane then lanePastScrub s l.srcs k i else scalarPastScrub s l.srcs k i
/-- An instruction that may issue while an entry of its stream waits (R37, R319). -/
def mayPass (s : State) (l : OpLog) (i : Instr) : Bool := if l.scrub then mayPassScrub s l i else mayPassFault s l i

/-! What the loop of the array holds (R141, R392) -/

/-- The shelf reads that a running loop of a group has yet to make, as an access of the lane stream (R141). -/
def State.loopAccess (s : State) (gid : Gid) : Option Plain :=
  let x := s.mx gid
  match x.loop with
  | some l =>
    if s.loopReads gid then some { kind := .read, order := .rlx, parts := l.shelfLeft.map (fun p => (.shelf p.1, p.2)) } else none
  | none => none
/-- A lane instruction of the current group waits for the group's loop: for the rows, scales and accumulator of its steps, also while the
array is frozen (R141); for its shelf reads, which come before it in the lane stream, where it is a fence or a push, or an access that R43
orders behind them (R392). -/
def loopWaits (s : State) (i : Instr) : Bool :=
  (match (s.mx s.curG).loop with
   | some l => s.holds s.curG && decide (l.done < l.steps) && loopBars s l i
   | none => false) ||
  (match s.loopAccess s.curG with
   | some p => (match i with | .lfence .. => true | _ => false) || (laneIO s.cur i).1.any (fun o => o.1.isQueue) ||
      (match plainOf s (operandsOf s.cur i) i with | some q => !mayOvertake s p q | none => false)
   | none => false)
/-- A lane instruction of the current group touches a drowsy granule; the scale registers follow the first one (R101, R102). -/
def drowsyHit (s : State) (i : Instr) : Bool :=
  let r := s.cur.rg
  r.drowsy != 0 && (r.drowsyIn (rowsWritten s i ++ r.spans (laneIO s.cur i).2) || (usesScales i && bitOf r.drowsy 0))

/-! What holds a stream whatever its instruction (R225, R270, R307, R317, R389) -/

/-- The lane stream of a group waits. -/
def Group.laneHeld (g : Group) : Bool :=
  g.lfetch.isSome || g.ln.cwait != .none || (g.ln.inRegion && g.ln.run == 0) ||
  (match g.st with | .parked .. | .yielded .. => true | _ => false)
/-- The scalar stream of a group waits. A stream at a barrier looks again. -/
def Group.scalarHeld (g : Group) : Bool :=
  g.sfetch.isSome || g.st != .running || (match g.wait with | .none | .bar .. | .done .. => false | _ => true)
/-- Neither of a group's streams moves. -/
def State.groupHeld (s : State) (gid : Gid) : Bool :=
  let g := s.group gid
  !g.live || g.h.halted || (s.core gid.core).off

/-! The word that a stream stands at -/

/-- The address of the word that the current stream runs next (R165, R166). -/
def State.wordAddr (s : State) : W64 := if s.curLane then s.cur.laneAddr else s.cur.pc
/-- A fetch is a relaxed read of kind fetch (R165, R166). Of the values that R168 allows a byte of code which the launch stores to, it takes
the latest (DESIGN CHOICE, log 107). A scalar pc that is no multiple of 4 raises `pc_align` here too, where no
jump has checked it (DESIGN CHOICE, log 90). -/
def fetchWord : Acc Nat := do
  let s ← get
  if !s.curLane && bitsOf s.cur.pc 0 2 != 0 then raise .pcAlign
  else readVirt { groupAgent s.curG s.cur with who := none } s.wordAddr (if s.curLane then 12 else 4) .fetch
/-- The word's instruction (R164). -/
def wordInstr (lane : Bool) (w : Nat) : Option Instr :=
  match (if lane then decodeLane (BitVec.ofNat 96 w) else decodeScalar (BitVec.ofNat 32 w)) with | .ok i => some i | .error _ => none
/-- An instruction waits for something that the group still uses: what the stream's log entry holds (R319), and in the lane stream what
the array's loop reads (R141) or a drowsy granule (R101). -/
def instrHeld (s : State) (i : Instr) : Bool :=
  (match s.cur.log s.curLane with | some l => !mayPass s l i | none => false) ||
  (s.curLane && (loopWaits s i || drowsyHit s i))
/-- A stream that has issued, or that is not ready, keeps neither boost nor count. A matrix instruction that waits for the array
counts as a ready lane stream (R309, R311). -/
def State.unboost (s : State) (gid : Gid) (lane : Bool) : State :=
  let g := s.group gid
  if (if lane then g.ln.boost || g.ln.passed != 0 else g.boost || g.passed != 0) && !(lane && (s.mx gid).line.contains gid.slot) then
    s.setGroup gid (g.unboost lane)
  else s

end Sys2Proof.Machine
end

