-- ==== Sys2Proof/Machine/Launch.lean ====
section
/-! DEFINITION. Interfaces, launches, placement, completion and context restore (R298 to R306, R330 to R332, R354 to R365, R376). -/

namespace Sys2Proof.Machine

/-! Record and descriptor fields (R179, R358) -/

def rMode (r : BitVec 2048) : Nat := bitsOf r 124 2
def rPrio (r : BitVec 2048) : BitVec 2 := r.extractLsb' 126 2
def rDet (r : BitVec 2048) : Bool := bitOf r 123
def rCtx (r : BitVec 2048) : Bool := bitOf r 121
/-- Origin row and column, rows, columns. -/
def rRect (r : BitVec 2048) : Nat × Nat × Nat × Nat := (bitsOf r 84 4, bitsOf r 78 6, bitsOf r 74 4 + 1, bitsOf r 68 6 + 1)
def rLeft (r : BitVec 2048) : BitVec 16 := r.extractLsb' 560 16
/-- Positions of a rectangle, and the core at one (R298). -/
def rCount (r : BitVec 2048) : Nat := (rRect r).2.2.1 * (rRect r).2.2.2
def rCore (r : BitVec 2048) (q : Nat) : BitVec 10 :=
  let (r0, c0, _, w) := rRect r
  coreAt (r0 + q / w) (c0 + q % w)
def kGroups (k : BitVec 2048) : Nat := bitsOf k 216 8
def kRegs (k : BitVec 2048) : Nat := bitsOf k 128 18
def kGrans (k : BitVec 2048) : Nat := (kRegs k + 4095) / 4096
def kShelf (k : BitVec 2048) : Bool := bitOf k 225
def kSlots (k : BitVec 2048) : Nat := if kShelf k then bitsOf k 192 8 + 1 else 0
def kFrames (k : BitVec 2048) : Nat := if kShelf k then bitsOf k 200 8 + 1 else 0
/-- The four `.collective` entries. -/
def kColls (k : BitVec 2048) : List W64 := (List.range 4).map (fun i => descWord k (0xE0 + 8 * i))

/-- No reserved field of the record is set and its fields lie in their ranges (R358). -/
def recordClean (r : BitVec 2048) (pasid : BitVec 20) : Bool :=
  bitsOf r 88 21 == 0 && bitsOf r 64 4 == 0 && bitsOf r 148 12 == 0 && bitsOf r 512 40 == 0 && bitsOf r 576 32 == 0 &&
  bitsOf r 1536 512 == 0 && r.extractLsb' 128 20 == pasid && bitsOf r 0 8 == 0 && bitsOf r 448 8 == 0 &&
  decide (bitsOf r 552 8 ≤ 2) && bitsOf r 192 2 == 0
/-- No reserved field of the kernel descriptor is set and its fields lie in their ranges (R90, R93, R94, R179). An `lbase` that is not
16-byte aligned is taken as it stands, though R152 says it is aligned (DESIGN CHOICE, log 102). -/
def kdescClean (k : BitVec 2048) : Bool :=
  bitsOf k 146 14 == 0 && bitsOf k 232 24 == 0 && bitsOf k 226 6 == 0 && bitsOf k 208 8 == 0 &&
  decide (1 ≤ kGroups k ∧ kGroups k ≤ 16) && decide (256 ≤ kRegs k ∧ kRegs k ≤ 131072) && kRegs k % 256 == 0 &&
  (if kShelf k then decide (bitsOf k 192 8 ≤ bitsOf k 200 8) else bitsOf k 192 16 == 0) &&
  viewOk (descWord k 0x20) false 1024 && viewOk (descWord k 0x28) false 16 && viewOk (descWord k 0x30) true 16 &&
  (List.range 16).all (fun i => tdescOk (descWord k (0x38 + 8 * i))) &&
  bitsOf k 1474 30 == 0 && bitsOf k 1620 44 == 0 && bitsOf k 1664 128 == 0
/-- A valid `.collective` entry and its descriptor (R371). -/
def entryOk (k : BitVec 2048) (e : W64) (w : BitVec 512) : Bool :=
  let d := descWord k (0x38 + 8 * bitsOf e 0 4)
  bitsOf e 10 53 == 0 && decide (bitsOf e 4 4 < kGroups k) && decide (1 ≤ dOp w ∧ dOp w ≤ 4) && tdFmt d == 0 && !tdScaled d &&
  decide (tdRows d * tdBytes d = dChunk w)

/-! Room on a core (R300, R301, R305) -/

/-- What a block takes: slots in ascending gidx, its tag-table run, its frames. -/
structure Room where
  slots  : List (BitVec 6)
  base   : Nat
  frames : List (BitVec 8)
deriving DecidableEq, Repr

/-- The lowest free run of n entries in [lo, lo + k). -/
def freeRun (bs : List Block) (lo k n : Nat) : Option Nat :=
  if n = 0 then some lo
  else ((List.range (k + 1 - n)).map (lo + ·)).find? (fun b =>
    decide (n ≤ k) && bs.all (fun x => decide (b + n ≤ x.slotBase.toNat ∨ x.slotBase.toNat + x.slotCount.toNat ≤ b ∨ x.slotCount = 0)))
/-- The room that a block of a kernel would take on a core, if its partition has it free; `bs` are the core's blocks and
`used` its slots and granules in use (R300, R301). -/
def roomFor (qa qb : W64) (bs : List Block) (taken : BitVec 6 → Bool) (grans : Nat) (k : BitVec 2048) : Option Room :=
  let slots := ((List.range (bitsOf qa 8 8)).map (fun i => BitVec.ofNat 6 (bitsOf qa 0 8 + i))).filter (fun x => !taken x)
  let frames := ((List.range (bitsOf qb 16 16)).map (fun i => BitVec.ofNat 8 (bitsOf qb 0 16 + i))).filter (fun f =>
    !bs.any (fun b => b.frames.contains f))
  if !bitOf qa 63 ∨ slots.length < kGroups k ∨ bitsOf qa 24 8 < grans + kGroups k * kGrans k ∨ frames.length < kFrames k then none
  else (freeRun bs (bitsOf qb 32 16) (bitsOf qb 48 16) (kSlots k)).map (fun b =>
    { slots := slots.take (kGroups k), base := b, frames := frames.take (kFrames k) })
/-- The room on a core as it stands. -/
def State.room (s : State) (c : BitVec 10) (p : BitVec 3) (k : BitVec 2048) : Option Room :=
  let x := s.core c
  let gs := s.groups.filter (fun y => y.2.live && y.2.part == p && decide (y.1 / 64 = c.toNat))
  roomFor (x.quotaA.getD p.toNat 0) (x.quotaB.getD p.toNat 0) (s.blocks.filter (fun b => b.core == c))
    (fun sl => (s.group (Gid.of c sl)).live) (gs.foldl (fun n y => n + y.2.rg.granules.toNat) 0) k
/-- Blocks that fit on a core with the quota wholly free (R300, R303). -/
def capacity (qa qb : W64) (k : BitVec 2048) : Nat :=
  if !bitOf qa 63 then 0
  else
    let m := min (bitsOf qa 8 8 / kGroups k) (bitsOf qa 24 8 / (kGroups k * kGrans k))
    if kShelf k then min m (min (bitsOf qb 48 16 / kSlots k) (bitsOf qb 16 16 / kFrames k)) else m

/-! Permitted positions (R299, R302, R303) -/

/-- The launch's blocks stand at their nominal positions. -/
def Launch.fixed (l : Launch) : Bool := l.det || rMode l.record == 2
/-- Positions permitted for a block. -/
def Launch.window (l : Launch) (i : Nat) : List Nat :=
  let c := rCount l.record
  let n := i % c
  if l.fixed then [n] else (List.range c).filter (fun q => decide (q ≤ n + 8 ∧ n ≤ q + 8))
/-- Block indices in the order of their nominal positions. -/
def byNominal (grid c : Nat) : List Nat :=
  (List.range c).flatMap (fun q => (List.range ((grid + c - 1 - q) / c)).map (fun j => q + c * j))
/-- Gives each block of a list the lowest permitted position with capacity left; none where one has no place. -/
def seatAll (l : Launch) : List Nat → List Nat → Option (List (Nat × Nat))
  | [], _ => some []
  | i :: t, caps =>
    match (l.window i).find? (fun q => caps.getD q 0 != 0) with
    | none => none
    | some q => (seatAll l t (caps.set q (caps.getD q 0 - 1))).map (fun r => (i, q) :: r)
/-- Every block of a launch in mode `all` or `one` at once, from the capacities of its positions (R302, R303). -/
def allSeats (l : Launch) (cap : Nat → Nat) : Option (List (Nat × Nat)) :=
  let c := rCount l.record
  if 64 * c < l.grid.toNat then none
  else seatAll l (byNominal l.grid.toNat c) ((List.range c).map cap)

/-! Acceptance (R354, R355, R359, R360) -/

/-- A record's 256 bytes in a slot of an interface page. -/
def slotRecord (x : Iface) (k : Nat) : BitVec 2048 :=
  BitVec.ofNat 2048 (packFields ((List.range 32).map (fun i => (64, (Sparse.get x.slots (32 * k + i)).toNat))))
/-- The front end's agent for an interface: the die of its link, its PASID, its privilege (R359). -/
def lfeAgent (x : Iface) : Agent :=
  { die := if x.link then 4 else 0, core := none, pasid := x.cfg.extractLsb' 0 20, priv := bitOf x.cfg 60 }
/-- The descriptors of the valid `.collective` entries, by coll slot. -/
def readColls (ag : Agent) (r : BitVec 2048) : List W64 → Acc (List (BitVec 2 × W64 × BitVec 512))
  | [] => pure []
  | e :: t => do
    if bitOf e 63 then
      let a := r.extractLsb' (768 + 64 * bitsOf e 8 2) 64
      let w ← readVirt ag a 64 .read
      let l ← readColls ag r t
      pure ((e.extractLsb' 8 2, a, BitVec.ofNat 512 w) :: l)
    else readColls ag r t
/-- What acceptance reads: the kernel descriptor, the collective descriptors, the grid word. -/
def readLaunch (ag : Agent) (r : BitVec 2048) : Acc (BitVec 2048 × List (BitVec 2 × W64 × BitVec 512) × W32) := do
  let k := BitVec.ofNat 2048 (← readVirt ag (r.extractLsb' 0 64) 256 .read)
  let cs ← readColls ag r (kColls k)
  let ga := r.extractLsb' 192 64
  if ga = 0 then pure (k, cs, r.extractLsb' 160 32)
  else pure (k, cs, BitVec.ofNat 32 (← readVirt ag ga 4 .read))
/-- R359: bad_record. -/
def badRecord (s : State) (r k : BitVec 2048) (cs : List (BitVec 2 × W64 × BitVec 512)) (pasid : BitVec 20) (p : BitVec 3) : Bool :=
  !recordClean r pasid || !kdescClean k || (bitOf r 109 && decide (kGroups k ≤ bitsOf r 110 4)) ||
  (kColls k).any (fun e => if bitOf e 63 then
    (match cs.find? (fun c => c.1 == e.extractLsb' 8 2) with | some c => !entryOk k e c.2.2 | none => true) else e != 0) ||
  (rCtx r && (s.launchOf p (r.extractLsb' 608 32)).isNone)
/-- R298, R306: bad_rect. -/
def badRect (s : State) (r : BitVec 2048) (p : BitVec 3) : Bool :=
  let (r0, c0, h, w) := rRect r
  decide (16 < r0 + h ∨ 64 < c0 + w) ||
  (List.range (h * w)).any (fun q => !bitOf ((s.core (rCore r q)).quotaA.getD p.toNat 0) 63)
/-- R300, R303: bad_block, then no_room. -/
def fitStatus (s : State) (l : Launch) : BitVec 8 :=
  let cap := fun (q : Nat) => let c := s.core (rCore l.record q)
    capacity (c.quotaA.getD l.part.toNat 0) (c.quotaB.getD l.part.toNat 0) l.kdesc
  let c := rCount l.record
  if rMode l.record = 3 ∨ (rMode l.record = 2 ∧ c < l.grid.toNat) ∨ (List.range c).any (fun q => cap q == 0) then 0x21
  else if rMode l.record ≠ 0 ∧ (allSeats l cap).isNone = true then 0x22 else 0
/-- The launch's class: clamped over its rectangle (R306). -/
def clampCls (s : State) (r : BitVec 2048) (p : BitVec 3) : BitVec 2 :=
  (List.range (rCount r)).foldl (fun m q => minCls m (s.prioMax (rCore r q) p)) (rPrio r)
/-- A kernel's descriptor with other addresses of its scalar and its lane words (R179). -/
def withBases (k : BitVec 2048) (entry lbase : W64) : BitVec 2048 := putBits (putBits k 0 64 entry.toNat) 64 64 lbase.toNat
/-- A kernel's descriptor whatever its image's base, which is a multiple of 64 KiB (R182). -/
def formOf (k : BitVec 2048) : BitVec 2048 := withBases k (descWord k 0 &&& 0xFFFF#64) (descWord k 8 - descWord k 0)
/-- Words from a place on as bytes from memory (R152, R179); the reads leave nothing behind (log 10). -/
def codeBytes (s : State) (ag : Agent) (k : BitVec 2048) (lane : Bool) (n : Nat) : List Byte :=
  let size := if lane then 12 else 4
  let base := descWord k (if lane then 8 else 0)
  (List.range n).flatMap (fun i =>
    match (readVirt ag (base + BitVec.ofNat 64 (size * i)) size .fetch).run s with
    | .ok v _ => natToBytes size v
    | .error .. => (List.range size).map (fun j => Config.unreadCode (formOf k) lane (size * i + j)))
/-- The bytes of words of which only those in `at0` stay as they are when the image is mapped at another multiple of 64 KiB. -/
def steadyBytes (size : Nat) (at0 : List Nat) (l : List Byte) : List Byte :=
  ((List.range l.length).zip l).filterMap (fun p => if at0.contains (p.1 % size) then some p.2 else none)
/-- A kernel's form: a relocated field of 32 bits is a scalar word, a third of a lane word, or a lane word's bits 39:8, and a base changes its
upper half alone (R176, R181, R182). -/
def kernelForm (s : State) (ag : Agent) (k : BitVec 2048) : Config.KernelForm :=
  { desc := formOf k,
    scalar := steadyBytes 4 [0, 1] (codeBytes s ag k false ((descWord k 8 - descWord k 0).toNat / 4)),
    lane := steadyBytes 12 [0, 1, 5, 8, 9] (codeBytes s ag k true (bitsOf k 160 32)) }
/-- The base of a kernel's image (R182; log 10). -/
def imageBase (f : Config.KernelForm) (k : BitVec 2048) : W64 := (descWord k 0 &&& ~~~0xFFFF#64) - (Config.entryPage f ++ 0#16)
/-- A part of the hashed text, behind its length in bytes (R183). -/
def hashPart (l : List Byte) : List Byte := natToBytes 8 l.length ++ l
/-- Words with their relocated fields as for image base 0 (R181, R183). -/
def codeAtZero (f : Config.KernelForm) (b : W64) (lane : Bool) (l : List Byte) : List Byte :=
  (Config.relocated f).foldl (fun l p =>
    let v := BitVec.ofNat 32 (bytesToNat ((l.drop p.2).take 4)) - b.setWidth 32
    if p.1 == lane then (l.take p.2 ++ natToBytes 4 v.toNat ++ l.drop (p.2 + 4)).take l.length else l) l
/-- R183: the kernel hash, over the scalar words, the lane words and the descriptor. -/
def kernelHash (s : State) (ag : Agent) (k : BitVec 2048) : BitVec 512 :=
  let f := kernelForm s ag k
  let b := imageBase f k
  shake512 (hashPart (codeAtZero f b false (codeBytes s ag k false (Config.scalarWords f))) ++
    hashPart (codeAtZero f b true (codeBytes s ag k true (bitsOf k 160 32))) ++
    hashPart (natToBytes 256 (withBases k (descWord k 0 - b) (descWord k 8 - b)).toNat))
/-- The entry of the mantel (R386). -/
def mantelEntry (s : State) (ag : Agent) (l : Launch) : List Byte :=
  natToBytes 64 (kernelHash s ag l.kdesc).toNat ++ natToBytes 8 (bitsOf l.record 256 64) ++ natToBytes 8 (bitsOf l.record 64 64) ++
  natToBytes 8 l.grid.toNat ++
  (List.range 4).flatMap (fun i => match l.colls.find? (fun c => c.1.toNat == i) with
    | some c => natToBytes 2 (dOp c.2.2 + 256 * (dMem c.2.2 - 1))
    | none => [0, 0]) ++
  natToBytes 8 0x100000001 ++ natToBytes 8 1024
/-- The status that R359's table gives, in its order. -/
def launchStatus (s : State) (l : Launch) (pasid : BitVec 20) : BitVec 8 :=
  if badRecord s l.record l.kdesc l.colls pasid l.part then 0x23
  else if badRect s l.record l.part then 0x20
  else fitStatus s l
/-- R359: a record of a partition is taken: identifier, reads, checks, mantel. A launch refused has no blocks and its status. A
read may stall (R36). -/
def State.accepts (s : State) (i : BitVec 12) (p : BitVec 3) (r : BitVec 2048) : Tried State :=
  let x := s.iface i
  let id := (s.part p).nextId
  let s0 := s.setPart p { s.part p with nextId := id + 1 }
  let l0 : Launch := { part := p, id := id, iface := i, record := r, kdesc := 0, grid := 0, det := false, cls := rPrio r,
                       priv := bitOf x.cfg 60, next := 0, placed := [], ended := 0, status := 0, coll := 0xFF, contrib := 0,
                       bound := [], done := false, passedOver := 0, hold := false, pasid := x.cfg.extractLsb' 0 20 }
  let add := fun (s : State) (l : Launch) => { s with launches := s.launches ++ [l] }
  match (readLaunch (lfeAgent x) r).run s0 with
  | .error (.fault f) s1 => .ok (add s1 { l0 with status := collStatus f.cause })
  | .error _ s1 => .error s1
  | .ok (k, cs, grid) s1 =>
    let l := { l0 with kdesc := k, grid := grid, colls := cs, det := rDet r || bitOf k 224 }
    let st := launchStatus s1 l (x.cfg.extractLsb' 0 20)
    if st ≠ 0 then .ok (add s1 { l0 with kdesc := k, status := st })
    else
      let l1 := { l with cls := clampCls s1 r p }
      .ok ((add s1 l1).setMantel p ((s1.mantel p).extend (mantelEntry s1 (lfeAgent x) l1)))
/-- The lowest partition whose device-side queue stands at a record of an interface (R362). -/
def queuedPart (s : State) (i : BitVec 12) : Option (BitVec 3) :=
  ((List.range 8).map (BitVec.ofNat 3)).find? (fun p => match (s.part p).devQ with | (o, _) :: _ => o == i | [] => false)
/-- LAUNCH_ACCEPT (R355, R359, R362): the next record of an interface, or one of its launches' records from the device-side queue of
their partition. -/
def execLaunchAccept (i : BitVec 12) (dev : Bool) (s : State) : Out :=
  let x := s.iface i
  if dev then
    match queuedPart s i with
    | some p => match (s.part p).devQ with
      | (_, r) :: t => .next (s.orWait ((s.setPart p { s.part p with devQ := t }).accepts i p r))
      | [] => .next s
    | none => .next s
  else if x.subHead = x.subTail ∨ bitOf x.cfg 63 = false ∨ x.resetting = true then .next s
  else .next (s.orWait ((s.setIface i { x with subHead := x.subHead + 1 }).accepts i (x.cfg.extractLsb' 20 3)
    (slotRecord x (x.subHead.toNat % 8))))

/-! Placement (R299 to R304) -/

/-- The state of a group of a block at its creation (R89, R301, R359). -/
def newGroup (l : Launch) (idx : W32) (gidx : BitVec 4) : Group :=
  let k := l.kdesc
  let args : Vector W64 64 := Vector.ofFn (fun i : Fin 64 => if i.val < 8 then l.record.extractLsb' (1024 + 64 * i.val) 64 else 0)
  { live := true, s := if bitOf l.record 120 then vset args (bitsOf l.record 114 6) (idx.setWidth 64) else args,
    pc := descWord k 0, part := l.part, launch := l.id, block := idx, gidx := gidx, pasid := l.record.extractLsb' 128 20,
    priv := l.priv, cls := l.cls,
    ln := { lbase := descWord k 8, lwords := k.extractLsb' 160 32, remap := identityRemap gidx },
    rg := { declared := BitVec.ofNat 18 (kRegs k), granules := BitVec.ofNat 6 (kGrans k), vview := descWord k 0x20,
            tview := descWord k 0x28, aview := descWord k 0x30,
            tdesc := Vector.ofFn (fun i : Fin 16 => descWord k (0x38 + 8 * i.val) &&& 0x00003FFFFFFFFFFF#64) } }
/-- A placed block. -/
def newBlock (l : Launch) (idx : W32) (core : BitVec 10) (x : Room) (cyc : W64) : Block :=
  { part := l.part, launch := l.id, idx := idx, core := core, gids := x.slots.map (Gid.of core), slotBase := BitVec.ofNat 8 x.base,
    slotCount := BitVec.ofNat 9 (kSlots l.kdesc), frames := x.frames, bars := Vector.replicate 16 {}, begun := cyc,
    budget := if bitOf l.record 122 then l.record.extractLsb' 640 64 else 0 }
/-- The lowest block index from n on that has not been placed; k bounds the search. -/
def lowestLeft (placed : List (W32 × BitVec 10)) : Nat → W32 → W32
  | 0, n => n
  | k + 1, n => if placed.any (fun p => p.1 == n) then lowestLeft placed k (n + 1) else n
/-- Groups at their slots, gidx by gidx. -/
def State.seatGroups (s : State) (l : Launch) (idx : W32) (core : BitVec 10) : List (BitVec 6) → Nat → State
  | [], _ => s
  | sl :: t, k => (s.setGroup (Gid.of core sl) (newGroup l idx (BitVec.ofNat 4 k))).seatGroups l idx core t (k + 1)
/-- The block is placed whole: groups, tag-table run, frames that read as zero (R69, R300, R301). -/
def State.place (s : State) (l : Launch) (idx : W32) (core : BitVec 10) (x : Room) : State :=
  let s1 := s.seatGroups l idx core x.slots 0
  let s2 := x.frames.foldl (fun s f => s.zeroRange (frameBase core f.toNat) 4096) s1
  let c := s2.core core
  let s3 := s2.setCore core { c with off := false, tags := Sparse.clear c.tags x.base (kSlots l.kdesc) }
  let l1 := (s3.launchOf l.part l.id).getD l
  let placed := (idx, core) :: l1.placed
  { s3.setLaunch { l1 with placed := placed, next := lowestLeft placed placed.length l1.next } with
    blocks := s3.blocks ++ [newBlock l idx core x c.cyc] }
/-- Places a block at a position, if the core has room. -/
def State.placeAt (s : State) (l : Launch) (i q : Nat) : Option State :=
  let c := rCore l.record q
  (s.room c l.part l.kdesc).map (fun x => s.place l (BitVec.ofNat 32 i) c x)
/-- Places every block of a list of block and position; none where one has no room. -/
def State.placeList (l : Launch) : List (Nat × Nat) → State → Option State
  | [], s => some s
  | x :: t, s => (s.placeAt l x.1 x.2).bind (State.placeList l t)
/-- Blocks that a core could take now. -/
def State.capNow (s : State) (c : BitVec 10) (p : BitVec 3) (k : BitVec 2048) : Nat → Nat
  | 0 => 0
  | n + 1 =>
    match s.room c p k with
    | none => 0
    | some x =>
      let b : Block := { noBlock with core := c, part := p, slotBase := BitVec.ofNat 8 x.base, slotCount := BitVec.ofNat 9 (kSlots k), frames := x.frames }
      let g : Group := { live := true, part := p, rg := { granules := BitVec.ofNat 6 (kGrans k) } }
      let s1 := x.slots.foldl (fun s sl => s.setGroup (Gid.of c sl) g) s
      1 + ({ s1 with blocks := b :: s1.blocks }).capNow c p k n
/-- What of a saved launch a restoring one has yet to place (R332); a block that it has placed and that is saved again waits for another. -/
def Launch.toRestore (r l : Launch) : List Saved := l.saved.filter (fun x => !r.placed.any (fun p => p.1 == x.block))
/-- The launch whose saved blocks the launch r is to restore, once its partition is not pre-empted (R330, R332). -/
def Launch.restores (s : State) (r : Launch) : Option Launch :=
  if r.done || r.status != 0 || !rCtx r.record || (s.part r.part).preReq then none
  else (s.launchOf r.part (r.record.extractLsb' 608 32)).filter (fun l => r.toRestore l != [])
/-- A launch in mode `all` or `one` waits unplaced (R304), also one that restores a saved context (R332). -/
def Launch.waitsAll (s : State) (l : Launch) : Bool :=
  !l.done && rMode l.record != 0 && l.placed == [] && (if rCtx l.record then (l.restores s).isSome else l.grid != 0)
/-- The cores that a waiting launch needs: those where one of its blocks may stand (R299, R304, R332). -/
def Launch.needs (s : State) (l : Launch) (c : BitVec 10) : Bool :=
  if rCtx l.record then (match l.restores s with | some o => (l.toRestore o).any (fun x => x.core == c) | none => false)
  else (List.range (rCount l.record)).any (fun q => rCore l.record q == c &&
    (List.range (min l.grid.toNat (rCount l.record))).any (fun i => (l.window i).contains q))
/-- A launch waits unplaced and 16 blocks have been placed meanwhile (R304). -/
def Launch.held (s : State) (l : Launch) : Bool := l.waitsAll s && (l.hold || decide (16 ≤ l.passedOver))
/-- R304: no block of l goes to a core that a held launch of the same partition needs. Where l is itself held and of the same class, each
would keep the other out for good: the earlier accepted goes first, as R302 serves them (DEDUCED, log 47). -/
def heldBack (s : State) (l : Launch) (c : BitVec 10) : Bool :=
  let before := fun (w : Launch) => ((s.launches.takeWhile (fun x => x.id != l.id || x.part != l.part)).any (fun x => x.id == w.id && x.part == w.part))
  s.launches.any (fun w => w.part == l.part && w.id != l.id && w.held s && !w.cls.ult l.cls && w.needs s c &&
    !(l.held s && l.cls == w.cls && !before w))

/-! Restore of saved blocks (R332) -/

/-- A tag-table entry with its frames renamed. -/
def renameTag (e : W64) (f : BitVec 8 → BitVec 8) : W64 :=
  putBits (putBits e 48 8 (f (e.extractLsb' 48 8)).toNat) 40 8 (f (e.extractLsb' 40 8)).toNat
/-- The blocks of a launch have a cycle budget (R334). -/
def Launch.budgeted (l : Launch) : Bool := bitOf l.record 122 && l.record.extractLsb' 640 64 != 0
/-- The image of a saved group. -/
def savedImage (s : State) (l : Launch) (x : Saved) : Image := fun o n => peek s.mem (areaOf s x.gid l.part + o) n
/-- One saved group in a new slot, as its image and the device's record give it; its monitor is not restored (R332). -/
def loadGroup (s : State) (l : Launch) (x : Saved) : Group :=
  let f := savedImage s l x
  let g := ((newGroup l x.block x.gidx).loadControl f x.kept l.budgeted (s.core x.core).cyc).loadRest f
  let rows := (List.range ((kRegs l.kdesc + 255) / 256)).foldl (fun (m : Sparse 2048) i => Sparse.set m i (BitVec.ofNat 2048 (f (0x6000 + 256 * i) 256))) []
  { g with rg := { g.rg with rows := rows }, mon := none, fired := false, arrived := x.arrived, restored := true }
/-- The restored holder of an array enters its handler with cause `restore`; `s62` names the image it was saved in (R332). -/
def Group.startRestore (g : Group) (s : State) (l : Launch) (x : Saved) : Group :=
  if x.holder then g.startHandler (s.part l.part) (areaOf s x.gid l.part) .restore (s.core x.core).cyc else g
/-- The record of a saved block in its core's area, and the frames it names (R331). -/
def savedRecord (s : State) (l : Launch) (core : BitVec 10) (xs : List Saved) : Nat × List Nat :=
  let a := coreArea s core l.part + 0x1000 + 128 * xs.foldl (fun m x => min m x.gid.slot.toNat) 63
  (a, (List.range 256).filter (fun i => (peek s.mem (a + 0x40) 32) / 2 ^ i % 2 == 1))
/-- A word that the restore of a saved block reads could not be corrected (R335): its record, its tag-table entries, its frames, its
groups' images (log 91). -/
def imageSpoilt (s : State) (l : Launch) (core : BitVec 10) (xs : List Saved) : Bool :=
  let a := coreArea s core l.part
  let (rec0, old) := savedRecord s l core xs
  s.bad rec0 128 || s.bad (a + 8 * peek s.mem (rec0 + 0x60) 1) (8 * kSlots l.kdesc) || old.any (fun f => s.bad (a + 0x3000 + 4096 * f) 4096) ||
  xs.any (fun x => s.bad (areaOf s x.gid l.part) (0x6000 + kRegs l.kdesc))
/-- One saved block on its core in the room given: groups, tag-table entries, frames, barriers, budget. A barrier's phase is its image's with
the 2^21 phases that the device counts itself (R331). -/
def State.restoreBlock (s : State) (l : Launch) (idx : W32) (core : BitVec 10) (xs : List Saved) (r : Room) : State :=
  let a := coreArea s core l.part
  let (rec0, old) := savedRecord s l core xs
  let name := fun (f : BitVec 8) => match ((old.zip r.frames).find? (fun p => p.1 == f.toNat)) with | some p => p.2 | none => f
  let oldBase := peek s.mem (rec0 + 0x60) 1
  let gs := (r.slots.zip xs).map (fun p => (Gid.of core p.1, (loadGroup s l p.2).startRestore s l p.2))
  let bars : Vector Bar 16 := Vector.ofFn (fun i : Fin 16 =>
    let v := peek s.mem (rec0 + 4 * i.val) 4
    { count := BitVec.ofNat 5 v, arr := BitVec.ofNat 5 (v / 32), isOpen := v / 1024 % 2 == 1,
      phase := v / 2048 + 2 ^ 21 * (match xs with | x :: _ => x.phases.getD i.val 0 | [] => 0) })
  let remain := match xs with | x :: _ => BitVec.ofNat 64 (peek s.mem (areaOf s x.gid l.part + 0x30) 8) | [] => 0
  let c := s.core core
  let tags := (List.range (kSlots l.kdesc)).foldl (fun t i =>
    Sparse.set t (r.base + i) (renameTag (s.read64 (a + 8 * (oldBase + i))) name)) c.tags
  let b := { newBlock l idx core r c.cyc with gids := gs.map (fun p => p.1), bars := bars, budget := if l.budgeted then remain else 0,
                                              cut := xs.any Saved.cut, ran := xs.any Saved.ran }
  let s1 := gs.foldl (fun s p => s.setGroup p.1 p.2) (s.setCore core { c with off := false, tags := tags })
  let s2 := (old.zip r.frames).foldl (fun (s : State) p => s.copyMem (a + 0x3000 + 4096 * p.1) (frameBase core p.2.toNat) 4096) s1
  { s2 with blocks := s2.blocks ++ [b] }
/-- The room for n groups of a kernel. -/
def State.roomN (s : State) (c : BitVec 10) (p : BitVec 3) (k : BitVec 2048) (n : Nat) : Option Room :=
  s.room c p (putBits k 216 8 n)
/-- Restores a list of blocks; none where one has no room. -/
def State.restoreAll (l : Launch) : List W32 → State → Option State
  | [], s => some s
  | i :: t, s =>
    let xs := l.saved.filter (fun x => x.block == i)
    match xs with
    | [] => State.restoreAll l t s
    | x :: _ => (s.roomN x.core l.part l.kdesc xs.length).bind (fun r => State.restoreAll l t (s.restoreBlock l i x.core xs r))
/-- The lowest of some block indices. -/
def lowestBlock (l : List W32) : Option W32 := l.foldl (fun b i => match b with | some j => some (if i.ult j then i else j) | none => some i) none
/-- A saved block of l may be restored by r now: not held back, with room on its core (R304, R332). -/
def canRestore (s : State) (r l : Launch) (i : W32) : Bool :=
  match l.saved.filter (fun x => x.block == i) with
  | [] => false
  | x :: t => !heldBack s r x.core && (s.roomN x.core l.part l.kdesc (t.length + 1)).isSome
/-- The blocks that a restoring launch places next: in mode `free` one, the lowest that has room of those that may go, else all (R302,
R332). -/
def nextRestore (s : State) (r l : Launch) : List W32 :=
  let blocks := ((r.toRestore l).map Saved.block).eraseDups
  if rMode r.record ≠ 0 then (if (r.toRestore l).any (fun x => heldBack s r x.core) then [] else blocks)
  else match lowestBlock blocks with
    | none => []
    | some n => (lowestBlock (blocks.filter (fun i =>
        (if r.det || l.det then i == n else decide (i.toNat < n.toNat + 64)) && canRestore s r l i))).toList
/-- The machine with those blocks placed again, each on its core; none where one has no place (R304, R332). -/
def State.restored (s : State) (r l : Launch) : Option State :=
  if nextRestore s r l = [] then none else State.restoreAll l (nextRestore s r l) s

/-! The order of placement (R302, R304) -/

/-- Block i may go to position q now: permitted, not held back, with room. -/
def seatFree (s : State) (l : Launch) (i q : Nat) : Bool :=
  (l.window i).contains q && !heldBack s l (rCore l.record q) && (s.room (rCore l.record q) l.part l.kdesc).isSome
/-- The seats of a launch in mode `all` or `one`, once every block fits at once. -/
def seatsNow (s : State) (l : Launch) : Option (List (Nat × Nat)) :=
  allSeats l (fun q => if heldBack s l (rCore l.record q) then 0 else s.capNow (rCore l.record q) l.part l.kdesc 64)
/-- Blocks that a launch in mode `free` may place next, if a position is free (R302). -/
def freeCands (l : Launch) : List Nat :=
  let n := l.next.toNat
  if l.det then [n]
  else ((List.range 64).map (n + ·)).filter (fun j => decide (j < l.grid.toNat) && !l.placed.any (fun p => p.1.toNat == j))
/-- A launch that may place blocks: with blocks left, its partition not pre-empted (R330). A launch refused has none; one with a failed
collective goes on (R369, R371). -/
def Launch.places (s : State) (l : Launch) : Bool :=
  !l.done && !rCtx l.record && decide (l.placed.length < l.grid.toNat) && !(s.part l.part).preReq
/-- The launch has a block ready to place (R302), one that it restores among them (R332). -/
def hasReady (s : State) (l : Launch) : Bool :=
  ((l.restores s).bind (s.restored l)).isSome || l.places s && (if rMode l.record = 0 then (freeCands l).any (fun i => (l.window i).any (seatFree s l i)) else (seatsNow s l).isSome)
/-- No launch of its partition goes before l (R302). -/
def firstServed (s : State) (l : Launch) : Bool :=
  !(s.launches.any (fun w => w.part == l.part && l.cls.ult w.cls && hasReady s w)) &&
  !((s.launches.takeWhile (fun x => x.id != l.id || x.part != l.part)).any (fun w => w.part == l.part && w.cls == l.cls && hasReady s w))
/-- Counts n placements of l against the launches that wait (R304). -/
def State.passOver (s : State) (l : Launch) (n : Nat) : State :=
  { s with launches := s.launches.map (fun w =>
      if w.part == l.part && w.id != l.id && w.waitsAll s && !w.cls.ult l.cls then { w with passedOver := w.passedOver + n } else w) }
/-- BLOCK_PLACE (R299, R302): one block of a launch in mode `free` at a permitted position, or every block of the others. -/
def execBlockPlace (p : BitVec 3) (id block : W32) (pos : BitVec 10) (s : State) : Out :=
  match s.launchOf p id with
  | none => .next s
  | some l =>
    if l.places s = false ∨ firstServed s l = false then .next s
    else if rMode l.record = 0 then
      let i := block.toNat
      let low := (freeCands l).takeWhile (fun j => j != i)
      if (freeCands l).contains i = false ∨ seatFree s l i pos.toNat = false ∨
         low.any (fun j => (l.window j).any (seatFree s l j)) = true then .next s
      else match s.placeAt l i pos.toNat with
        | some s1 => .next (s1.passOver l 1)
        | none => .next s
    else match seatsNow s l with
      | none => .next s
      | some seats => match State.placeList l seats s with
        | some s1 => .next (s1.passOver l seats.length)
        | none => .next s
/-- DISPATCH_HOLD (R304). -/
def execDispatchHold (p : BitVec 3) (id : W32) (s : State) : Out :=
  match s.launchOf p id with
  | some l => .next (if l.waitsAll s && decide (16 ≤ l.passedOver) then s.setLaunch { l with hold := true } else s)
  | none => .next s

/-- A restoring launch has placed blocks of a saved one (R302, R332). -/
def State.afterRestore (s : State) (r l : Launch) (blocks : List W32) : State :=
  let core := fun (i : W32) => match l.saved.find? (fun x => x.block == i) with | some x => x.core | none => 0
  let l1 := (s.launchOf l.part l.id).getD l
  let s1 := s.setLaunch { l1 with saved := l1.saved.filter (fun x => !blocks.contains x.block) }
  (s1.setLaunch { r with placed := blocks.map (fun i => (i, core i)) ++ r.placed }).passOver r blocks.length
/-- CONTEXT_RESTORE (R332): the saved blocks of the launch that the record names; their groups keep that launch's identity (log 31). It is a
placement, in the order of R302 and R304. A word that could not be corrected ends the launch with a status (DESIGN CHOICE, log 91). -/
def execContextRestore (p : BitVec 3) (id : W32) (s : State) : Out :=
  match s.launchOf p id with
  | none => .next s
  | some r =>
    match r.restores s with
    | none => .next s
    | some l =>
      if (r.toRestore l).any (fun x => imageSpoilt s l x.core (l.saved.filter (fun y => y.block == x.block))) then
        .next (s.setLaunch { r with status := collStatus .dataError, grid := 0 })
      else if !firstServed s r then .next s
      else match s.restored r l with
        | none => .next s
        | some s1 => .next (s1.afterRestore r l (nextRestore s r l))

/-! Completion and successors (R356, R361, R363) -/

/-- A copy command of the launch is open, or one that it has appended to a chain is still to be fetched (R77, R79, R361). -/
def copiesOpen (s : State) (l : Launch) : Bool :=
  let mine := fun (p : BitVec 3) (id : W32) => p == l.part && id == l.id
  s.dies.any (fun d => d.2.queues.any (fun q => q.2.cmds.any (fun c => mine c.part c.launch) || q.2.chainOpen mine))
/-- Everything that R361 asks for. -/
def Launch.finished (s : State) (l : Launch) : Bool :=
  if rCtx l.record && l.status == 0 then
    (match s.launchOf l.part (l.record.extractLsb' 608 32) with | some o => o.done | none => true)
  else
    decide (l.grid.toNat ≤ l.ended.toNat) && !copiesOpen s l && l.bound == [] &&
    !s.blocks.any (fun b => b.part == l.part && b.launch == l.id)
/-- Whether the successor's rule holds, or the cause that the condition word's read gives (R363). -/
def condHoldsAcc (ag : Agent) (r : BitVec 2048) : Acc Bool := do
  let a := r.extractLsb' 384 64
  let rule := bitsOf r 552 8
  if a = 0 ∨ rule = 0 ∨ 2 < rule then pure false
  else
    let c ← readVirt ag a 4 .read
    pure (if rule = 1 then c != 0 else c == 0)
/-- The successor's record: the record at `succ` with one relaunch less. -/
def succRecord (ag : Agent) (r : BitVec 2048) : Acc (BitVec 2048) := do
  let v ← readVirt ag (r.extractLsb' 448 64) 256 .read
  pure (putBits (BitVec.ofNat 2048 v) 560 16 ((rLeft r) - 1).toNat)
/-- The status, the successor, and the state after the reads of R363, made in the launch's own address space (R359); one of
them may stall (R36). -/
def succession (s : State) (l : Launch) : Tried (BitVec 8 × Option (BitVec 2048) × State) :=
  let ag := { lfeAgent (s.iface l.iface) with pasid := l.pasid, priv := l.priv }
  let worse := fun (st : BitVec 8) => if l.status ≠ 0 then l.status else st
  match (condHoldsAcc ag l.record).run s with
  | .error (.fault f) s1 => .ok (worse (collStatus f.cause), none, s1)
  | .error _ s1 => .error s1
  | .ok false s1 => .ok (l.status, none, s1)
  | .ok true s1 =>
    if rLeft l.record = 0 then .ok (worse 0x27, none, s1)
    else match (succRecord ag l.record).run s1 with
      | .ok r s2 => .ok (l.status, some r, s2)
      | .error (.fault f) s2 => .ok (worse (collStatus f.cause), none, s2)
      | .error _ s2 => .error s2
/-- The completion record (R356). -/
def completionRecord (l : Launch) (status : BitVec 8) (succ : Bool) : BitVec 256 :=
  let left := if succ then rLeft l.record - 1 else rLeft l.record
  l.exited ++ 0#32 ++ l.contrib ++ l.id ++ status ++ l.coll ++ left ++ l.record.extractLsb' 320 64
/-- The windows that a launch has left open; one whose location could not be corrected (R335). -/
def Launch.windows (s : State) (l : Launch) : List OWin := s.owins.filter (fun w => w.part == l.part && w.launch == l.id)
def OWin.spoilt (s : State) (w : OWin) : Bool := s.bad w.loc (w.ty.bits / 8)
/-- What a launch leaves behind at its end goes: its windows close, its tags and barriers are dropped (R361). A window whose location could
not be corrected writes nothing (R335; DESIGN CHOICE, log 91). -/
def State.closeLaunch (s : State) (l : Launch) : State :=
  let s1 := (l.windows s).foldl (fun s w =>
    if w.spoilt s then { s with owins := s.owins.filter (fun x => x.loc != w.loc) } else s.closeWindow w none) s
  { s1 with dtags := s1.dtags.filter (fun t => !(t.part == l.part && t.launch == l.id)),
            bars := s1.bars.filter (fun b => !(b.part == l.part && b.launch == l.id)) }
/-- The launch has completed with a status and a successor; its record is due where the ring is enabled (R356, R378). -/
def State.recordDue (s : State) (l : Launch) (st : BitVec 8) (succ : Option (BitVec 2048)) : State :=
  let s1 := s.setLaunch { (s.launchOf l.part l.id).getD l with done := true, status := st, succ := succ }
  let x := s1.iface l.iface
  if bitOf x.cqCtl 63 then s1.setIface l.iface { x with records := x.records ++ [(completionRecord l st succ.isSome, l.part, l.id)] } else s1
/-- An aborted launch completes; it has no successor (R376). -/
def State.abortsLaunch (s : State) (l : Launch) : State := (s.closeLaunch l).recordDue { l with status := 0x16 } 0x16 none
/-- LAUNCH_COMPLETE (R361, R363). With a window that could not close, the launch ends with the error (R335; DESIGN CHOICE, log 91). -/
def execLaunchComplete (p : BitVec 3) (id : W32) (s : State) : Out :=
  match s.launchOf p id with
  | some l =>
    if !l.done && l.finished s then
      let l := if l.status == 0 && (l.windows s).any (OWin.spoilt s) then { l with status := collStatus .dataError } else l
      match succession (s.closeLaunch l) l with
      | .ok (st, succ, s1) => .next (s1.recordDue l st succ)
      | .error s1 => .next (s.noted s1)
    else .next s
  | none => .next s
/-- COMPLETION_RECORD_WRITE (R354, R356, R375): the oldest record, once the ring has room; none while it is off. With the token ring
off no token vector is raised. -/
def State.writeRecord (s : State) (i : BitVec 12) : State :=
  let x := s.iface i
  let n := bitsOf x.cqCtl 0 5
  match x.records with
  | [] => s
  | (r, _, _) :: t =>
    if !bitOf x.cqCtl 63 then s.setIface i { x with records := t }
    else if ringFull x.cqTail x.cqHead n then s
    else
      let tok := decide (x.unsignalled ≠ 0) && bitOf x.tokCtl 63
      let s1 := s.hostWrite x.link (x.cqBase.toNat + 32 * (x.cqTail.toNat % 2 ^ n)) (natToBytes 32 r.toNat)
      let s2 := (s1.setIface i { x with records := t, cqTail := x.cqTail + 1, unsignalled := if tok then 0 else x.unsignalled }).raiseMsix
        x.link (x.cqCtl.extractLsb' 8 8)
      if tok then s2.raiseMsix x.link (x.tokCtl.extractLsb' 8 8) else s2
def execCompletionRecordWrite (i : BitVec 12) (s : State) : Out := .next (s.writeRecord i)
/-- SUCCESSOR_ENQUEUE (R356, R363): after the completion record, once the queue has room. -/
def execSuccessorEnqueue (p : BitVec 3) (id : W32) (s : State) : Out :=
  match s.launchOf p id with
  | none => .next s
  | some l =>
    match l.succ with
    | none => .next s
    | some r =>
      let q := s.part p
      if l.done = false ∨ 64 ≤ q.devQ.length ∨ (s.iface l.iface).records.any (fun x => x.2.1 == p && x.2.2 == id) = true then .next s
      else .next ((s.setPart p { q with devQ := q.devQ ++ [(l.iface, r)] }).setLaunch { l with succ := none })

/-! `launch` (R362) -/

/-- R362: the record is copied, and belongs to the issuing launch's interface and partition. -/
def launchBody (d r : SReg) (x : Srcs) : Acc Unit := do
  let a := x.s 0
  if bitsOf a 0 8 ≠ 0 ∨ canonical a = false then raiseReg .sa r
  let v ← readVirt (← curAgent) a 256 .read
  let s ← get
  let g := s.cur
  let q := s.part g.part
  match s.launchOf g.part g.launch with
  | some l =>
    if 64 ≤ q.devQ.length then modifyCur (fun g => g.setSr d 1)
    else do
      set (s.setPart g.part { q with devQ := q.devQ ++ [(l.iface, BitVec.ofNat 2048 v)] })
      modifyCur (fun g => g.setSr d 0)
  | none => modifyCur (fun g => g.setSr d 1)
def execLaunch (d a : SReg) (s : State) : Out := scalarMem (.launch d a) { sc := [s.cur.sr a] } (launchBody d a) s

/-! Interface registers, packets, reset (R354, R355, R365, R376) -/

/-- SUB_TAIL_WRITE (R355). -/
def State.subTail (s : State) (i : BitVec 12) (v : W64) : State :=
  let x := s.iface i
  let t := v.extractLsb' 0 32
  if !bitOf x.cfg 63 || x.resetting || decide (8 < (t - x.subHead).toNat) then s else s.setIface i { x with subTail := t }
def execSubTailWrite (i : BitVec 12) (v : W64) (s : State) : Out := .next (s.subTail i v)
/-- A ring's control word as it is stored: reserved bits zero, en only with a valid size (R354). -/
def ringCtl (mask v : W64) : W64 := putBit (v &&& mask) 63 (bitOf v 63 && ringOk (bitsOf v 0 5))
/-- CQ_CTL_WRITE (R354): records that wait are dropped where the ring is turned off. -/
def execCqCtlWrite (i : BitVec 12) (v : W64) (s : State) : Out :=
  let x := s.iface i
  let c := ringCtl 0x800000000000FF1F#64 v
  .next (s.setIface i { x with cqCtl := c, records := if bitOf c 63 then x.records else [] })
/-- TOK_CTL_WRITE (R354). -/
def execTokCtlWrite (i : BitVec 12) (v : W64) (s : State) : Out :=
  let x := s.iface i
  let c := ringCtl 0x8000000000FFFF1F#64 v
  .next (s.setIface i { x with tokCtl := c, tokens := if bitOf c 63 then x.tokens else [] })
/-- LAUNCH_PACKET (R365, R391). -/
def execLaunchPacket (node i : BitVec 12) (r : BitVec 2048) (s : State) : Out :=
  if !admits s node 62 (some i) || s.linkDown node.toNat then .next s
  else
    let x := s.iface i
    let k := x.subTail.toNat % 8
    let slots := (List.range 32).foldl (fun m j => Sparse.set m (32 * k + j) (r.extractLsb' (64 * j) 64)) x.slots
    .next ((s.setIface i { x with slots := slots }).subTail i ((x.subTail + 1).setWidth 64))

/-- A record dropped by a reset completes with aborted, under an identifier of its own (R376). -/
def State.dropRecord (s : State) (i : BitVec 12) (p : BitVec 3) (r : BitVec 2048) : State :=
  let id := (s.part p).nextId
  let s1 := s.setPart p { s.part p with nextId := id + 1 }
  let l : Launch := { part := p, id := id, iface := i, record := r, kdesc := 0, grid := 0, det := false, cls := 0, priv := false,
                      next := 0, placed := [], ended := 0, status := 0x16, coll := 0xFF, contrib := 0, bound := [], done := false,
                      passedOver := 0, hold := false }
  ({ s1 with launches := s1.launches ++ [l] }).abortsLaunch l
/-- A launch of the interface that has not completed. -/
def ifaceLaunch (s : State) (i : BitVec 12) (p : BitVec 3) (id : W32) : Bool :=
  match s.launchOf p id with | some l => l.iface == i && !l.done | none => false
/-- An open launch of the interface is a member of an instance by a binding, whether or not one of its groups has exited yet (R371). -/
def boundTo (s : State) (i : BitVec 12) (o : Coll) : Option Launch :=
  s.launches.find? (fun l => l.iface == i && !l.done && l.record.extractLsb' 320 64 == o.key && l.colls.any (fun c => c.2.1 == o.desc))
/-- The ranks of an instance that are dies of a launch's rectangle, as bits. -/
def Coll.ranksIn (o : Coll) (l : Launch) : W64 :=
  (List.range (rCount l.record)).foldl (fun m q =>
    (ranksOf o.table ((rCore l.record q).extractLsb' 7 3)).foldl (fun m r => m ||| (1#64 <<< r)) m) 0
/-- Every open instance with a member in the interface's launches completes aborted for it and peer_aborted for the others (R376);
a write may stall. -/
def State.abortColls (s : State) (i : BitVec 12) : Tried State :=
  let mine := fun (s : State) (c : CollC) => ifaceLaunch s i c.part c.launch
  let s1 := (s.sends.filter (fun x => mine s x.c)).foldl (fun (s : Tried State) x =>
    s.bind (fun s => { s with sends := s.sends.erase x }.arrive x)) (.ok s)
  s1.bind (fun s1 =>
    (s1.colls.filter (fun o => !o.done && (o.cs.any (fun p => !o.isPeer p.1 && mine s1 p.2) || (boundTo s1 i o).isSome))).foldl (fun s o =>
      let late := match boundTo s1 i o with | some l => o.ranksIn l &&& ~~~o.bitmap | none => 0
      s.bind (fun s => s.closeColl { o with late := o.late ||| late } 0x25 (fun c => if mine s c then 0x16 else 0x25) [] none)) (.ok s1))
/-- The chain entries that launches have appended and that are not yet fetched end aborted at their fetch (R79, R88). -/
def Queue.abortChain (x : Queue) (mine : BitVec 3 → W32 → Bool) : Queue :=
  let f := fun (c : Cmd) => if mine c.part c.launch then { c with st := .ended 0x16 } else c
  { x with appends := x.appends.map (fun p => (p.1, f p.2)), owner := x.owner.map f }
/-- The launches of the interface end: groups, commands, chain entries, records (R376); a successor that waits for its queue, also of a
launch that has completed, is dropped. The records are due at once, though an aborted command behind one of another launch completes
in its queue's order only later (DESIGN CHOICE, log 84). -/
def State.abortLaunches (s0 : State) (i : BitVec 12) : State :=
  let s : State := { s0 with launches := s0.launches.map (fun l => if l.iface == i then { l with succ := none } else l) }
  let ls := s.launches.filter (fun l => l.iface == i && !l.done)
  let mine := fun (p : BitVec 3) (id : W32) => ls.any (fun l => l.part == p && l.id == id)
  let gids := (s.groups.filter (fun y => y.2.live && mine y.2.part y.2.launch)).map (fun y => (BitVec.ofNat 16 y.1 : Gid))
  let s1 := gids.foldl (fun s g => s.endGroup g) s
  let cmds := s1.dies.flatMap (fun d => d.2.queues.flatMap (fun q => (q.2.cmds.filter (fun c => c.open && mine c.part c.launch)).map (fun c =>
    ((BitVec.ofNat 3 d.1 : BitVec 3), (BitVec.ofNat 7 q.1 : BitVec 7), c))))
  let s2 := cmds.foldl (fun s c => s.endCmd c.1 c.2.1 c.2.2 0x16) s1
  let s3 := { s2 with dies := s2.dies.map (fun d => (d.1, { d.2 with queues := d.2.queues.map (fun q => (q.1, q.2.abortChain mine)) })) }
  ls.foldl (fun s l => let l1 := { (s.launchOf l.part l.id).getD l with bound := [], saved := [] }
    (s.setLaunch l1).abortsLaunch l1) s3
/-- The records not yet taken, of the page and of the device-side queues, each with its partition. -/
def untaken (s : State) (i : BitVec 12) : List (BitVec 3 × BitVec 2048) :=
  let x := s.iface i
  (List.range (min (x.subTail - x.subHead).toNat 8)).map (fun k => (x.cfg.extractLsb' 20 3, slotRecord x ((x.subHead.toNat + k) % 8))) ++
  ((List.range 8).map (BitVec.ofNat 3)).flatMap (fun p => ((s.part p).devQ.filter (fun q => q.1 == i)).map (fun q => (p, q.2)))
/-- Writes every record that the ring still takes; n bounds them. -/
def State.writeRecords (s : State) (i : BitVec 12) : Nat → State
  | 0 => s
  | n + 1 => (s.writeRecord i).writeRecords i n
/-- Every record not yet taken is dropped (R376). -/
def State.dropRecords (s : State) (i : BitVec 12) : State :=
  let x := s.iface i
  let rs := untaken s i
  let s1 := ((List.range 8).map (BitVec.ofNat 3)).foldl (fun s p =>
    s.setPart p { s.part p with devQ := (s.part p).devQ.filter (fun q => q.1 != i) }) s
  rs.foldl (fun s r => s.dropRecord i r.1 r.2) (s1.setIface i { x with subHead := x.subTail })
/-- IFACE_RESET (R376). The registers of the page return to reset, and `resetting` clears, once the rings have taken what waits: no
completion record and no token entry is dropped (R354, R356; log 32). -/
def execIfaceReset (i : BitVec 12) (s : State) : Out :=
  if !(s.iface i).resetting then .next s
  else match (s.dropRecords i).abortColls i with
    | .error s1 => .next (s.noted s1)
    | .ok s1 =>
      let s2 := s1.abortLaunches i
      let s3 := (s2.writeRecords i (s2.iface i).records.length).flushTokens i (s2.iface i).tokens.length
      let x := s3.iface i
      .next (if x.records = [] ∧ x.tokens = [] then s3.setIface i { cfg := x.cfg } else s3)

end Sys2Proof.Machine
end

