-- ==== Sys2Proof/Machine/RegWrite.lean ====
section
/-! DEFINITION. Writes of the device's registers (R6, R15, R18, R34, R76, R84, R101, R305, R323, R325, R330, R354, R364, R382,
R387, R388). A reserved field is stored as zero, a write of a field that is read only is ignored. -/

namespace Sys2Proof.Machine

/-! The translation control block (R18, R34) -/

/-- FTZ_TAIL_WRITE (R34): ignored where the unit is disabled or the ring would overfill. -/
def execFtzTailWrite (die : BitVec 3) (v : W64) (s : State) : Out :=
  let d := s.die die
  let t : W32 := v.extractLsb' 0 32
  if ftzOn d && decide ((t - d.ftzHead).toNat ≤ 2 ^ bitsOf d.ftzRing 0 5) then
    .next ((s.setDie die { d with ftzTail := t }).poolRearm die)
  else .next s
/-- A register of a die's translation control block. -/
def tcbWrite (die : BitVec 3) (off : Nat) (v : W64) (s : State) : Out :=
  let d := s.die die
  match off with
  | 0x00 => .next (s.setDie die { d with ptBase := v &&& 0x000E3FFFFF000001#64 })
  | 0x18 => .next (s.setDie die { d with ftzRing := v &&& 0x00003FFFFFFFF0FF#64 })
  | 0x28 => execFtzTailWrite die v s
  | 0x30 => .next ((s.setDie die { d with ftzLow := v.extractLsb' 0 32 }).poolRearm die)
  | _ => .next s

/-! Quotas (R305) -/

/-- Two ranges have a unit in common. -/
def rangesMeet (a n b m : Nat) : Bool := decide (n ≠ 0 ∧ m ≠ 0 ∧ a < b + m ∧ b < a + n)
/-- Every range of a partition lies within the core's resources. -/
def quotaFits (qa qb : W64) : Bool :=
  decide (bitsOf qa 0 8 + bitsOf qa 8 8 ≤ 64 ∧ bitsOf qa 16 8 + bitsOf qa 24 8 ≤ 128 ∧ bitsOf qb 32 16 + bitsOf qb 48 16 ≤ 256 ∧
    bitsOf qb 0 16 + bitsOf qb 16 16 ≤ 256 ∧ bitsOf qb 48 16 ≤ bitsOf qb 16 16)
/-- Ranges of two partitions overlap. -/
def quotaMeets (qa qb ra rb : W64) : Bool :=
  rangesMeet (bitsOf qa 0 8) (bitsOf qa 8 8) (bitsOf ra 0 8) (bitsOf ra 8 8) ||
  rangesMeet (bitsOf qa 16 8) (bitsOf qa 24 8) (bitsOf ra 16 8) (bitsOf ra 24 8) ||
  rangesMeet (bitsOf qb 32 16) (bitsOf qb 48 16) (bitsOf rb 32 16) (bitsOf rb 48 16) ||
  rangesMeet (bitsOf qb 0 16) (bitsOf qb 16 16) (bitsOf rb 0 16) (bitsOf rb 16 16)
/-- The quotas of partition p may be enabled on a core. -/
def quotaOk (c : Core) (p : Nat) (qa qb : W64) : Bool :=
  quotaFits qa qb && (List.range 8).all (fun k =>
    k == p || !bitOf (c.quotaA.getD k 0) 63 || !quotaMeets qa qb (c.quotaA.getD k 0) (c.quotaB.getD k 0))
/-- QUOTA_WRITE (R305): `b` names quota_b, else quota_a. A write of quota_b keeps en only where the ranges go on being
valid. -/
def execQuotaWrite (core : BitVec 10) (p : BitVec 3) (b : Bool) (v : W64) (s : State) : Out :=
  let c := s.core core
  if s.blocks.any (fun x => x.core == core && x.part == p) then .next s
  else
    let qa := if b then c.quotaA.getD p.toNat 0 else v &&& 0x80000003FFFFFFFF#64
    let qb := if b then v else c.quotaB.getD p.toNat 0
    let qa := putBit qa 63 (bitOf qa 63 && quotaOk c p.toNat qa qb)
    .next (s.setCore core { c with quotaA := vset c.quotaA p.toNat qa, quotaB := vset c.quotaB p.toNat qb })
/-- A register of a core control page (R101, R149, R305). -/
def corePageWrite (core : BitVec 10) (off : Nat) (v : W64) (s : State) : Out :=
  if off = 0x040 then .next (s.setCore core { s.core core with rfDrowsy := v &&& 0xFFFFFFFF#64 })
  else if 0x200 ≤ off ∧ off < 0x280 then
    execQuotaWrite core (BitVec.ofNat 3 ((off - 0x200) / 16)) (decide (off % 16 = 8)) v s
  else .next s

/-! Partition registers (R323, R325, R330) -/

/-- A write of `fq_reply` (R325). -/
def replyWrite (p : BitVec 3) (v : W64) (s : State) : Out :=
  if !bitOf v 63 then .next s
  else if bitOf v 61 then execFqReplyTrap p (v.extractLsb' 40 16) (bitOf v 62) s
  else execFqReplyReplay p (v.extractLsb' 40 16) (bitOf v 62) s
/-- A partition's register. -/
def partWrite (p : BitVec 3) (off : Nat) (v : W64) (s : State) : Out :=
  let x := s.part p
  match off with
  | 0x00 => .next (s.setPart p { x with fqBase := v })
  | 0x08 => execFqCtlWrite p v s
  | 0x10 => .next (s.setPart p { x with fqHead := v.extractLsb' 0 32 })
  | 0x20 => .next (s.setPart p { x with mirror := if bitsOf v 0 3 = 0 then v else 0 })
  | 0x28 => replyWrite p v s
  | 0x30 => .next (s.setPart p { x with tvec := v })
  | 0x38 => .next (s.setPart p { x with tlbase := v })
  | 0x40 => .next (s.setPart p { x with hpasid := v.extractLsb' 0 20 })
  | 0x48 => .next (s.setPart p { x with ctxBase := v })
  | 0x50 => if bitOf v 63 then execPreemptRequest p s else .next s
  | 0x58 => .next (s.setPart p { x with tlwords := v.extractLsb' 0 32 })
  | _ => .next s

/-! Mantel, debug port, power, access-control table (R387, R388, R382, R364) -/

/-- A mantel's register: in one write a clear comes before a quote (log 26). -/
def mantelWrite (p : BitVec 3) (off : Nat) (v : W64) (s : State) : Out :=
  if off = 0x48 then
    let s1 := if bitOf v 0 then s.setMantel p { s.mantel p with acc := 0, count := 0 } else s
    if bitOf v 1 then execMantelQuote p s1 else .next s1
  else if 0x50 ≤ off ∧ off < 0x70 then
    let m := s.mantel p
    .next (s.setMantel p { m with nonce := putBits m.nonce (8 * (off - 0x50)) 64 v.toNat })
  else .next s
/-- One word of the access-control table. -/
def State.actWrite (s : State) (off : Nat) (v : W64) : State :=
  if off % 16 = 0 then
    { s with act := Sparse.set s.act (off / 16) (putBits (Sparse.get s.act (off / 16)) 0 64 (v &&& 0xFE700FFF00000FFF#64).toNat) }
  else s
/-- A register of region 3 that only die 0 has. -/
def die0Write (off : Nat) (v : W64) (s : State) : Out :=
  if 0x3000 ≤ off ∧ off < 0x3400 then partWrite (BitVec.ofNat 3 ((off - 0x3000) / 0x80)) (off % 0x80) v s
  else if off = 0x4000 then .next { s with plat := s.plat.dbgWrite v }
  else if off = 0x4008 then .next { s with plat := { s.plat with dbgData := v } }
  else if 0x5000 ≤ off ∧ off < 0x5800 then mantelWrite (BitVec.ofNat 3 ((off - 0x5000) / 0x100)) (off % 0x100) v s
  else if off = 0x7000 then execPwrCapWrite v s
  else if 0x1000000 ≤ off ∧ off < 0x1010000 then .next (s.actWrite (off - 0x1000000) v)
  else .next s

/-! Interface pages (R354, R376, R384) -/

/-- `iface_cfg` as it is stored; in recovery no interface can be enabled. -/
def cfgStored (recovery : Bool) (v : W64) : W64 := putBit (v &&& 0xD0000000007FFFFF#64) 63 (bitOf v 63 && !recovery)
/-- An interface page's register. -/
def ifaceWrite (i : BitVec 12) (off : Nat) (v : W64) (s : State) : Out :=
  let x := s.iface i
  match off with
  | 0x000 => execSubTailWrite i v s
  | 0x010 => .next (s.setIface i { x with cfg := cfgStored s.plat.recovery v })
  | 0x018 => if bitOf v 0 then
      .next { s.setIface i { x with resetting := true } with agenda := .event (.ifaceReset i) :: s.agenda } else .next s
  | 0x020 => .next (s.setIface i { x with cqBase := v })
  | 0x028 => execCqCtlWrite i v s
  | 0x038 => .next (s.setIface i { x with cqHead := v.extractLsb' 0 32 })
  | 0x040 => .next (s.setIface i { x with tokBase := v })
  | 0x048 => execTokCtlWrite i v s
  | 0x058 => .next ((s.setIface i { x with tokHead := v.extractLsb' 0 32 }).flushTokens i x.tokens.length)
  | _ => if 0x800 ≤ off then .next (s.setIface i { x with slots := Sparse.set x.slots ((off - 0x800) / 8) v }) else .next s

/-! Engine registers (R76, R84) -/

/-- A register of region 2. Sequence counters change only by the counter instructions and by completion. -/
def engineWrite (die : BitVec 3) (off : Nat) (v : W64) (s : State) : Out :=
  if off < 0x80000 then
    let q : BitVec 7 := BitVec.ofNat 7 (off / 0x1000)
    if off % 0x1000 ≠ 0x028 then .next s
    else if bitOf v 1 then execQueueAbandon die q s
    else if bitOf v 0 then execQueueResume die q s
    else .next s
  else if 0x90000 ≤ off ∧ off < 0x92000 then
    execPbufDescWrite die (BitVec.ofNat 8 ((off - 0x90000) / 32)) (BitVec.ofNat 2 (off / 8)) v s
  else .next s

/-- REGISTER_WRITE (R6): the write of the 8-byte register at an address, by what the register does. -/
def execRegisterWrite (addr v : W64) (s : State) : Out :=
  let pa := addr.toNat
  let d := paDie pa
  let off := paOff pa / 8 * 8
  if paNode pa ≠ 0 then .next s
  else match paRegion pa with
    | 2 => engineWrite d off v s
    | 3 =>
      if 0x2000 ≤ off ∧ off < 0x2038 then tcbWrite d (off - 0x2000) v s
      else if 0x100000 ≤ off ∧ off < 0x180000 then
        corePageWrite (d ++ BitVec.ofNat 7 ((off - 0x100000) / 0x1000)) (off % 0x1000) v s
      else if d = 0 then die0Write off v s else .next s
    | 4 => if (d = 0 ∨ d = 4) ∧ off < 0x1000000 then ifaceWrite (BitVec.ofNat 12 (off / 0x1000)) (off % 0x1000) v s else .next s
    | _ => .next s

end Sys2Proof.Machine
end

