-- ==== Sys2Proof/Machine/Events.lean ====
section
/-! DEFINITION. Steps of the walker, the groups' waits, the core's queues, the array and the accesses from outside the package
(R36, R37, R54, R60, R83, R144 to R146, R169, R202, R225, R248, R280, R309, R311, R334, R364, R381, R384). An event that finds nothing to do
changes nothing. -/

namespace Sys2Proof.Machine

/-! The walker's engines (R34, R36, R54) -/

/-- The scrub of a leaf's page ends: its bytes are zero, and scrub is cleared (R36). -/
def State.scrubLeaf (s : State) (a : Nat) (lvl : Nat) : State :=
  let e := s.read64 a
  (s.zeroRange (leafFrame e) (pageSize lvl)).write64 a (putBit e 7 false)
/-- A leaf at an address and a level, under scrub, that can be read (R21, R36, R335). -/
def scrubPending (s : State) (a lvl : Nat) : Bool :=
  let e := s.read64 a
  inHbm a && !s.bad a 8 && bitOf e 0 && bitOf e 1 && bitOf e 7 && inHbm (leafFrame e) && (checkLeaf s lvl e).isNone
/-- The leaves under scrub on a die that accesses have stalled on. -/
def stalledOn (s : State) (d : BitVec 3) : List (Nat × Nat) :=
  s.stalls.filter (fun x => scrubPending s x.1 x.2 && paDie (leafFrame (s.read64 x.1)) == d)
/-- A die's scrub engine serves a leaf: one that an access has stalled on at this level, or, while it has none such, any that is queued
(R36; log 76). -/
def scrubServes (s : State) (a lvl : Nat) : Bool :=
  let l := stalledOn s (paDie (leafFrame (s.read64 a)))
  scrubPending s a lvl && (l == [] || l.contains (a, lvl))
/-- The frame at a place of a die's ring has been zeroed (R34). -/
def State.scrubRing (s : State) (die : BitVec 3) (k : Nat) : State :=
  let d := s.die die
  let n := 2 ^ bitsOf d.ftzRing 0 5
  let e := ringEntry s die k
  if ftzOn d && decide ((k + n * 2 ^ 32 - d.ftzHead.toNat) % n < poolCount d) && goodFrame die e && !d.zeroed.contains e then
    (s.zeroRange e.toNat 0x10000).setDie die { d with zeroed := e :: d.zeroed }
  else s
/-- The instructions that wait for a scrub are issued again (R36, R37; log 76). -/
def State.wakeScrubs (s : State) : State := { s with groups := s.groups.map (fun p => (p.1, p.2.wakeScrub)) }
/-- SCRUB_COMPLETE (R34, R36): frames with stalled accesses come before all others. A leaf that could not be corrected is not consumed: what
waits for it is issued again, and meets the error itself (R335; DESIGN CHOICE, log 91). -/
def execScrubComplete (j : ScrubJob) (s : State) : Out :=
  match j with
  | .leaf a lvl =>
    let s1 : State := { s with stalls := s.stalls.filter (fun x => x.1 != a.toNat) }
    .next (if scrubServes s a.toNat lvl.toNat then (s1.scrubLeaf a.toNat lvl.toNat).wakeScrubs
      else if s.bad a.toNat 8 then s1.wakeScrubs else s)
  | .ring die k => .next (if stalledOn s die = [] then s.scrubRing die k.toNat else s)
/-- INVPG_COMPLETE (R54, R206). -/
def execInvpgComplete (gid : Gid) (s : State) : Out := .next (s.completeInvpg gid)

/-! Yields and parks (R82, R83, R201, R225, R226) -/

/-- The array of a group at rest returns its token (R83, R145). -/
def State.restArray (s : State) (gid : Gid) : State :=
  if s.holds gid && (s.mx gid).mode != .running then s.giveToken gid else s
/-- YIELD_EFFECT (R83, R201). -/
def execYieldEffect (gid : Gid) (s : State) : Out :=
  let g := s.group gid
  match g.st with
  | .yielding y => if g.live && g.laneIdle then .next ((s.setGroup gid { g with st := .yielded y }).restArray gid) else .next s
  | _ => .next s
/-- The status with which a yield ends, once it does (R82, R83). -/
def yieldEnd (s : State) (die : BitVec 3) (y : YieldRec) : Option (BitVec 8) :=
  match y.got with
  | some st => some st
  | none => if y.on.reached s die then some (yieldStatus s die y) else none
/-- The results of a collective or a command: the status in s(d), a winner in the two registers behind it (R83, R374). -/
def Group.putResult (g : Group) (d : SReg) (st : BitVec 8) (res : Option (W64 × W64)) : Group :=
  let g1 := g.setSr d (st.setWidth 64)
  match st, res with
  | 0, some r => (g1.setSrAt d 1 r.1).setSrAt d 2 r.2
  | _, _ => g1
/-- GROUP_REACTIVATE (R83, R201). -/
def execGroupReactivate (gid : Gid) (s : State) : Out :=
  let g := s.group gid
  match g.st with
  | .yielded y =>
    match yieldEnd s gid.die y with
    | some st => .next (if g.live then s.setGroup gid { g.putResult y.d st y.res with st := .running } else s)
    | none => .next s
  | _ => .next s
/-- PARK_EFFECT (R225). -/
def execParkEffect (gid : Gid) (s : State) : Out :=
  let g := s.group gid
  match g.st with
  | .parking d t =>
    if g.live && g.laneIdle then .next (s.setGroup gid { g with st := .parked d t (s.core gid.core).cyc }) else .next s
  | _ => .next s
/-- A park returns with a reason, and its monitor is disarmed (R225). -/
def Group.unpark (g : Group) (d : SReg) (reason : W64) : Group :=
  { g.setSr d reason with st := .running, mon := none, fired := false, restored := false }
/-- The reason that has come without time passing: written, else a lost monitor of a restored group, else none armed
(R225, R226, R332). -/
def Group.wakeReason (g : Group) : Option W64 :=
  if g.mon.isSome && g.fired then some 0
  else if g.mon.isSome then none
  else if g.restored then some 3 else some 2
/-- The timeout of a park that began at a cycle has elapsed (R225). -/
def elapsed (t since now : W64) : Bool := t != 0 && t.ule (now - since)
/-- The cycle at which a time that began at a cycle has elapsed, if it lies ahead. -/
def cycleAt (t since now : W64) : W64 := if (now - since).ult t then since + t else now
/-- PARK_WAKE (R225, R226). -/
def execParkWake (gid : Gid) (s : State) : Out :=
  let g := s.group gid
  match g.st, g.wakeReason with
  | .parked d t since, some r =>
    if !g.live then .next s
    else .next (s.setGroup gid (g.unpark d (if r != 0 && elapsed t since (s.core gid.core).cyc then 1 else r)))
  | _, _ => .next s
/-- PARK_TIMEOUT (R225): the core's cycles reach the end of the timeout (log 5). -/
def execParkTimeout (gid : Gid) (s : State) : Out :=
  let g := s.group gid
  match g.st with
  | .parked d t since =>
    if !g.live || t == 0 then .next s
    else
      let c := s.core gid.core
      let s1 := s.setCore gid.core { c with cyc := cycleAt t since c.cyc }
      .next (s1.setGroup gid (g.unpark d (if g.mon.isSome && g.fired then 0 else 1)))
  | _ => .next s

/-! The lane stream and the group's end (R169, R202, R248, R265, R280) -/

/-- LANE_BLOCK_START (R169, R265). With every thread exited, the run mask and the stack are empty, and the block ends at once
(R264). -/
def Group.startBlock (g : Group) : Group :=
  match g.ln.runQ with
  | w :: t => if g.ln.active then g
      else if g.ln.exited = BitVec.allOnes 64 then { g with ln := { g.ln with runQ := t } }
      else { g with ln := { g.ln with runQ := t, active := true, lpc := w, run := ~~~g.ln.exited, stack := [] } }
  | [] => g
def execLaneBlockStart (gid : Gid) (s : State) : Out :=
  let g := s.group gid
  .next (if g.live && !g.h.halted then s.setGroup gid g.startBlock else s)
/-- GROUP_EXIT (R202, R333): a drain of the group that waits for the port has to end (R144). -/
def execGroupExit (gid : Gid) (s : State) : Out :=
  let g := s.group gid
  .next (if g.live && g.st == .exiting && g.laneIdle && !g.h.halted && !s.portBusy gid then s.exitGroup gid else s)
/-- QUEUED_RESULT_WRITE (R248): the oldest instruction of the SFU queue or the conversion queue. -/
def execQueuedResultWrite (gid : Gid) (conv : Bool) (s : State) : Out :=
  let g := s.group gid
  match (if conv then g.ln.cvtQ else g.ln.sfuQ) with
  | x :: t =>
    let g1 := g.writeQueued x
    .next (s.setGroup gid { g1 with ln := if conv then { g1.ln with cvtQ := t } else { g1.ln with sfuQ := t } })
  | [] => .next s
/-- TLD_LAND (R107, R280). -/
def execTldLand (gid : Gid) (s : State) : Out :=
  let g := s.group gid
  match g.ln.tlds with
  | x :: t => .next (s.setGroup gid { g with rg := g.rg.landTld x, ln := { g.ln with tlds := t } })
  | [] => .next s

/-! The array and its tokens (R144 to R146, R311) -/

/-- ARRAY_FREEZE (R146): a trap or a halt has reached the holder. -/
def execArrayFreeze (core : BitVec 10) (s : State) : Out :=
  match (s.core core).mx.holder with
  | some h =>
    let gid := Gid.of core h
    let g := s.group gid
    .next (if g.h.pend.isSome || g.h.halted then s.freezeArray gid else s)
  | none => .next s
/-- STREAM_PORT_EMIT (R144): the port hands its oldest row on; a drain that waited for room goes on,
whether or not its group still holds the array. -/
def execStreamPortEmit (core : BitVec 10) (s : State) : Out :=
  let c := s.core core
  let s1 := s.setCore core { c with mx := { c.mx with port := c.mx.port.drop 1 } }
  .next (if c.mx.outQ = [] then s1 else s1.settlePort (Gid.of core (c.mx.holder.getD 0)))
/-- TOKEN_GRANT (R145, R311). -/
def execTokenGrant (d : BitVec 3) (s : State) : Out :=
  if (s.die d).pool = 0 then .next s
  else match tokenNext s d with
    | none => .next s
    | some c => .next (s.grantToken c)
/-- TOKEN_REQUEST_PROMOTE (R311): a request passed over by 64 grants stands first. -/
def execTokenRequestPromote (core : BitVec 10) (s : State) : Out :=
  let x := (s.core core).mx
  let k : BitVec 3 := core.extractLsb' 7 3
  let d := s.die k
  .next (if x.waiting && decide (64 ≤ x.passed.toNat) then
    s.setDie k { d with tokQ := core :: d.tokQ.filter (fun c => c != core) } else s)
/-- An instruction that needs a token (R145). -/
def needsToken : Instr → Bool | .mload .. | .mloop .. | .mdrain .. => true | _ => false
/-- A lane instruction of the current group stands at a blocking queue operand, or needs a token that neither its array nor the pool has
(R145, R307). -/
def laneWaits (s : State) (i : Instr) : Bool :=
  let (w, r) := laneIO s.cur i
  (encodeLane i).extractLsb' 80 4 != 15 &&
  ((w ++ r).any (fun o => s.cur.queueStop o.1 == some .stall) ||
   (needsToken i && !(s.mx s.curG).token && (s.die s.curG.die).pool == 0))
/-- A scalar instruction of the current group waits for a queue, a place of a copy queue or of the run queue, or for lane blocks
(R307). -/
def scalarWaits (s : State) (i : Instr) : Bool :=
  let g := s.cur
  match i with
  | .qld _ q _ _ _ _ nb | .qpush _ q _ _ nb => !nb && g.qFull q
  | .ypop _ q _ nb => !nb && g.y.getD q.toNat [] == []
  | .lrun _ | .lrunr _ => decide (8 ≤ g.ln.runQ.length)
  | .cpy _ _ q .. | .tcpy _ _ q .. | .gath _ _ q .. | .mcast _ _ q .. | .cmd _ _ q _ => !(s.queue s.curG.die q).turn s s.curG
  | .mtc _ f => mtcWaits f && !g.laneIdle
  | .mfc _ f => decide (16 ≤ f.toNat ∧ f.toNat < 32) && !g.laneIdle
  | .bar _ m _ | .rbar _ m _ | .dbar m _ | .pbar m _ => g.wait == .none && m != .wait && !s.mayArrive
  | .wset .. | .hretResume _ | .hretVacate _ | .hretEnd _ => !g.laneIdle
  | _ => false
/-- The instruction at which a stream stands is held (R307, R319). A word whose fetch stalls holds it too (R37). -/
def State.wordHeld (s : State) (gid : Gid) (lane : Bool) : Bool :=
  let s1 := { s with curG := gid, curLane := lane }
  match fetchWord.run s1 with
  | .ok w s2 =>
    (match wordInstr lane w with
     | some i => instrHeld s2 i || (if lane then laneWaits s2 i else scalarWaits s2 i)
     | none => (s.group gid).log lane != none)
  | .error (.fault _) _ => (s.group gid).log lane != none
  | .error _ _ => true
/-- A stream is ready for its next instruction (R307, R319). A matrix instruction that waits for the array counts as ready (R311). -/
def State.streamReady (s : State) (gid : Gid) (lane : Bool) : Bool :=
  let g := s.group gid
  !s.groupHeld gid && g.h.pend.isNone &&
  ((g.replaying lane).isSome ||
   (if lane then !g.laneHeld && (if g.ln.active then !s.wordHeld gid true else g.ln.runQ != [])
    else (match g.wait with
      | .done .. => true
      | .bar b p => !g.scalarHeld && s.phaseDone gid b p && !s.wordHeld gid false
      | _ => !g.scalarHeld && !s.wordHeld gid false)))
/-- ISSUE_BOOST (R309): a ready stream has been passed over in its 64th cycle (log 41). -/
def execIssueBoost (gid : Gid) (lane : Bool) (s : State) : Out :=
  let g := s.group gid
  .next (if s.streamReady gid lane then
    s.setGroup gid (if lane then { g with ln := { g.ln with boost := true, passed := 64 } } else { g with boost := true, passed := 64 })
  else s)

/-! Budgets (R334) -/

/-- LOGIT_BUDGET_EXPIRE (R334): the core's cycles reach the end of the block's budget (log 5). -/
def execLogitBudgetExpire (p : BitVec 3) (id block : W32) (s : State) : Out :=
  match s.blockOf p id block with
  | some b =>
    match b.gids with
    | gid :: _ =>
      if !s.isLogit p id || b.budget == 0 || !b.ran || b.paused || b.gids.any (fun x => (s.group x).h.on) then .next s
      else
        let c := s.core b.core
        let s1 := s.setCore b.core { c with cyc := cycleAt b.budget b.begun c.cyc }
        let g := s1.group gid
        .next (s1.logitFail gid (groupRecord 0 gid g { cause := .logitBudget, va := g.pc } false g.pc 0 0 0 false))
    | [] => .next s
  | none => .next s

/-! Accesses from outside (R15, R50, R60, R364, R384) -/

/-- Bytes of an outside write that lie in memory: below `hbm_limit`, or on the shelf. -/
def inMemory (pa : Nat) : Bool :=
  paNode pa == 0 && ((paRegion pa == 0 && decide (paOff pa < Config.hbmLimit.toNat)) || (paRegion pa == 1 && decide (paOff pa < 0x8000000)))
/-- A piece of an outside write at its home (R15, R60): memory, or the register it lies in where the agent may write it. -/
def State.outerPiece (s : State) (priv : Bool) (may : Nat → Bool) (p : Nat × List Byte) : State :=
  if inMemory p.1 then s.write p.1 p.2
  else if paNode p.1 ≠ 0 ∨ paRegion p.1 < 2 ∨ may p.1 = false then s
  else s.queueReg priv p.1 p.2
/-- A write from outside the package at its home (R15, R60): each register that it covers is written as one write of it would be. -/
def State.outerWrite (s : State) (priv : Bool) (may : Nat → Bool) (pa : Nat) (l : List Byte) : State :=
  if inMemory pa && inMemory (pa + l.length - 1) then s.write pa l else (regPieces pa l).foldl (fun u p => u.outerPiece priv may p) s
/-- An atomic from a peer at its home; a refused one, and an `oadd`, which no launch here issues, change nothing. -/
def State.outerAtom (s : State) (va : W64) (op : AtomOp) (t : AtomTy) (b c : W64) : State :=
  let ag : Agent := { die := 0, core := none, pasid := 0, priv := false }
  let n := 2 ^ t.bits
  let pa := va.toNat
  if op == .oadd || !inMemory pa || (atomCheck false op t pa (b.toNat % n)).isSome then s
  else match (atomApply ag {} 0 op t va pa (b.toNat % n) (c.toNat % n)).run s with
    | .ok _ s1 => s1
    | .error _ _ => s
/-- The interface page that an address lies in. -/
def pageOf (pa : Nat) : Option (BitVec 12) :=
  if paNode pa = 0 ∧ paRegion pa = 4 ∧ (paDie pa = 0 ∨ paDie pa = 4) ∧ paOff pa < 0x1000000 then some (BitVec.ofNat 12 (paOff pa / 0x1000)) else none
/-- A peer's write of a register or of memory is admitted (R364, R365; log 38): a launch packet, which is a slot or `sub_tail` of an
interface page, with the right launch for that interface, any other write with the right write. -/
def admitsAt (s : State) (node : BitVec 12) (pa : Nat) : Bool :=
  match pageOf pa with
  | some i => if paOff pa % 0x1000 < 8 ∨ 0x800 ≤ paOff pa % 0x1000 then admits s node 62 (some i) else admits s node 60 none
  | none => admits s node 60 none
/-- A peer's write of n bytes is admitted where all that it covers is; a refused one changes nothing (R365). -/
def admitsWrite (s : State) (node : BitVec 12) (pa : Nat) (l : List Byte) : Bool :=
  (regPieces pa l).all (fun p => admitsAt s node p.1)
/-- FABRIC_ACCESS (R50, R364, R365): what the table admits performs, over a link that is up (R391); the debug port takes an admitted
write (R388). -/
def execFabricAccess (node : BitVec 12) (r : FabricReq) (s : State) : Out :=
  if s.linkDown node.toNat then .next s
  else match r with
  | .read .. => .next s
  | .write a n v =>
    let l := natToBytes (sizeBytes n) v.toNat
    .next (if admitsWrite s node a.toNat l then s.outerWrite false (fun pa => !sysOnlyReg pa) a.toNat l else s)
  | .atom a op t b c => .next (if admits s node 60 none then s.outerAtom a op t b c else s)
/-- HOST_ACCESS (R60, R381, R384, R388; log 33). The management link reaches the debug port, and of the status blocks there is nothing to
write. A host link writes as the fabric does, the debug port by system code only; in recovery link 0 writes the flash-update window
and nothing else, link 1 nothing. -/
def execHostAccess (link : OuterLink) (sys : Bool) (a : W64) (n : Size) (v : Option (BitVec 128)) (s : State) : Out :=
  match v with
  | none => .next s
  | some d =>
    let l := natToBytes (sizeBytes n) d.toNat
    .next (match link with
    | .management => if isDebugPort a.toNat then s.outerWrite true isDebugPort a.toNat l else s
    | .host one =>
      if s.plat.recovery then
        (if one then s else { s with plat := { s.plat with flash := pokeBytes s.plat.flash a.toNat l } })
      else s.outerWrite sys (fun pa => sys || !(sysOnlyReg pa || isDebugPort pa)) a.toNat l)

end Sys2Proof.Machine
end

