-- ==== Sys2Proof/Machine/Dispatch.lean ====
section
/-! DEFINITION. One arm for each row of the opcode table. -/

namespace Sys2Proof.Machine

def exec (i : Instr) (s : State) : Host.Outcome State Fault Refusal :=
  match i with
  | .add d a b => Sys2Proof.Machine.execAdd d a b s
  | .sub d a b => Sys2Proof.Machine.execSub d a b s
  | .mul d a b => Sys2Proof.Machine.execMul d a b s
  | .mulh d a b n => Sys2Proof.Machine.execMulh d a b n s
  | .div d a b n => Sys2Proof.Machine.execDiv d a b n s
  | .rem d a b n => Sys2Proof.Machine.execRem d a b n s
  | .and d a b => Sys2Proof.Machine.execAnd d a b s
  | .or d a b => Sys2Proof.Machine.execOr d a b s
  | .xor d a b => Sys2Proof.Machine.execXor d a b s
  | .shl d a b => Sys2Proof.Machine.execShl d a b s
  | .shr d a b => Sys2Proof.Machine.execShr d a b s
  | .sra d a b => Sys2Proof.Machine.execSra d a b s
  | .min d a b n => Sys2Proof.Machine.execMin d a b n s
  | .max d a b n => Sys2Proof.Machine.execMax d a b n s
  | .sel d a b neg p => Sys2Proof.Machine.execSel d a b neg p s
  | .addi d a imm => Sys2Proof.Machine.execAddi d a imm s
  | .muli d a imm => Sys2Proof.Machine.execMuli d a imm s
  | .andi d a imm => Sys2Proof.Machine.execAndi d a imm s
  | .ori d a imm => Sys2Proof.Machine.execOri d a imm s
  | .xori d a imm => Sys2Proof.Machine.execXori d a imm s
  | .shli d a k => Sys2Proof.Machine.execShli d a k s
  | .shri d a k => Sys2Proof.Machine.execShri d a k s
  | .srai d a k => Sys2Proof.Machine.execSrai d a k s
  | .mini d a imm => Sys2Proof.Machine.execMini d a imm s
  | .maxi d a imm => Sys2Proof.Machine.execMaxi d a imm s
  | .limSet d imm => Sys2Proof.Machine.execLimSet d imm s
  | .limCat d imm => Sys2Proof.Machine.execLimCat d imm s
  | .cmp p a b c => Sys2Proof.Machine.execCmp p a b c s
  | .cmpi c p a imm => Sys2Proof.Machine.execCmpi c p a imm s
  | .plog d a b t => Sys2Proof.Machine.execPlog d a b t s
  | .ext d a b sgn => Sys2Proof.Machine.execExt d a b sgn s
  | .ins d a b => Sys2Proof.Machine.execIns d a b s
  | .clz d a => Sys2Proof.Machine.execClz d a s
  | .popc d a => Sys2Proof.Machine.execPopc d a s
  | .brev d a => Sys2Proof.Machine.execBrev d a s
  | .mtc a f => Sys2Proof.Machine.execMtc a f s
  | .mfc d f => Sys2Proof.Machine.execMfc d f s
  | .pget d => Sys2Proof.Machine.execPget d s
  | .pset a => Sys2Proof.Machine.execPset a s
  | .br neg p off => Sys2Proof.Machine.execBr neg p off s
  | .jmp off => Sys2Proof.Machine.execJmp off s
  | .call off => Sys2Proof.Machine.execCall off s
  | .jmpr a => Sys2Proof.Machine.execJmpr a s
  | .callr d a => Sys2Proof.Machine.execCallr d a s
  | .lrun off => Sys2Proof.Machine.execLrun off s
  | .lrunr a => Sys2Proof.Machine.execLrunr a s
  | .exit => Sys2Proof.Machine.execExit s
  | .yieldQ d a b => Sys2Proof.Machine.execYieldQ d a b s
  | .yieldCtr d a b => Sys2Proof.Machine.execYieldCtr d a b s
  | .trap imm => Sys2Proof.Machine.execTrap imm s
  | .hretResume a => Sys2Proof.Machine.execHretResume a s
  | .hretVacate a => Sys2Proof.Machine.execHretVacate a s
  | .hretEnd a => Sys2Proof.Machine.execHretEnd a s
  | .nop => Sys2Proof.Machine.execNop s
  | .ld d o w z r => Sys2Proof.Machine.execLd d o w z r s
  | .st d o w z r => Sys2Proof.Machine.execSt d o w z r s
  | .atom d o op ty r => Sys2Proof.Machine.execAtom d o op ty r s
  | .fenceMem r => Sys2Proof.Machine.execFenceMem r s
  | .fencePt => Sys2Proof.Machine.execFencePt s
  | .invpg d a b sc => Sys2Proof.Machine.execInvpg d a b sc s
  | .wset w a => Sys2Proof.Machine.execWset w a s
  | .qld p q o w z r nb => Sys2Proof.Machine.execQld p q o w z r nb s
  | .qpush p q o z nb => Sys2Proof.Machine.execQpush p q o z nb s
  | .ypop p q o nb => Sys2Proof.Machine.execYpop p q o nb s
  | .shld d o z r => Sys2Proof.Machine.execShld d o z r s
  | .shst d o z r => Sys2Proof.Machine.execShst d o z r s
  | .cpy d a q cont trig k => Sys2Proof.Machine.execCpy d a q cont trig k s
  | .tcpy d a q cont trig k => Sys2Proof.Machine.execTcpy d a q cont trig k s
  | .gath d a q cont trig k => Sys2Proof.Machine.execGath d a q cont trig k s
  | .mcast d a q cont trig => Sys2Proof.Machine.execMcast d a q cont trig s
  | .cmd d a q cont => Sys2Proof.Machine.execCmd d a q cont s
  | .chain a b => Sys2Proof.Machine.execChain a b s
  | .publSlot d a => Sys2Proof.Machine.execPublSlot d a s
  | .publBuf d a => Sys2Proof.Machine.execPublBuf d a s
  | .seqRd d a q => Sys2Proof.Machine.execSeqRd d a q s
  | .seqAdd d a b => Sys2Proof.Machine.execSeqAdd d a b s
  | .seqSet p a b q => Sys2Proof.Machine.execSeqSet p a b q s
  | .seqSetForce p a b q => Sys2Proof.Machine.execSeqSetForce p a b q s
  | .lkup d a => Sys2Proof.Machine.execLkup d a s
  | .slotInst a b => Sys2Proof.Machine.execSlotInst a b s
  | .slotEvict d a => Sys2Proof.Machine.execSlotEvict d a s
  | .slotRd d a => Sys2Proof.Machine.execSlotRd d a s
  | .bar a m imm => Sys2Proof.Machine.execBar a m imm s
  | .rbar a m imm => Sys2Proof.Machine.execRbar a m imm s
  | .dbar m imm => Sys2Proof.Machine.execDbar m imm s
  | .pbar m imm => Sys2Proof.Machine.execPbar m imm s
  | .watch d o w z r => Sys2Proof.Machine.execWatch d o w z r s
  | .park d a => Sys2Proof.Machine.execPark d a s
  | .prio d blk k => Sys2Proof.Machine.execPrio d blk k s
  | .schrd d f => Sys2Proof.Machine.execSchrd d f s
  | .gangPin d a => Sys2Proof.Machine.execGangPin d a s
  | .gangUnpin d a b => Sys2Proof.Machine.execGangUnpin d a b s
  | .gangHome d a b => Sys2Proof.Machine.execGangHome d a b s
  | .gangReq d a b => Sys2Proof.Machine.execGangReq d a b s
  | .gangRes d a => Sys2Proof.Machine.execGangRes d a s
  | .gangCxl d a => Sys2Proof.Machine.execGangCxl d a s
  | .gangRd d a b => Sys2Proof.Machine.execGangRd d a b s
  | .kvcCmt d a b => Sys2Proof.Machine.execKvcCmt d a b s
  | .kvcRsv d a b => Sys2Proof.Machine.execKvcRsv d a b s
  | .kvcPurge d a b => Sys2Proof.Machine.execKvcPurge d a b s
  | .kvcEnd d a b => Sys2Proof.Machine.execKvcEnd d a b s
  | .vgen d a b => Sys2Proof.Machine.execVgen d a b s
  | .launch d a => Sys2Proof.Machine.execLaunch d a s
  | .collRun d a cont => Sys2Proof.Machine.execCollRun d a cont s
  | .collPut d a cont => Sys2Proof.Machine.execCollPut d a cont s
  | .samp d a cont grd tok => Sys2Proof.Machine.execSamp d a cont grd tok s
  | .lnop h => Sys2Proof.Machine.execLnop h s
  | .lend h => Sys2Proof.Machine.execLend h s
  | .lbr h imm => Sys2Proof.Machine.execLbr h imm s
  | .lbrC h imm => Sys2Proof.Machine.execLbrC h imm s
  | .lbrJ h imm => Sys2Proof.Machine.execLbrJ h imm s
  | .lsync h => Sys2Proof.Machine.execLsync h s
  | .lsyncC h => Sys2Proof.Machine.execLsyncC h s
  | .lexit h => Sys2Proof.Machine.execLexit h s
  | .lfence h r => Sys2Proof.Machine.execLfence h r s
  | .vote h d k neg p pd => Sys2Proof.Machine.execVote h d k neg p pd s
  | .shfl h d a b w64 m pw pd => Sys2Proof.Machine.execShfl h d a b w64 m pw pd s
  | .perm h d a b m => Sys2Proof.Machine.execPerm h d a b m s
  | .mov h d a b w64 m => Sys2Proof.Machine.execMov h d a b w64 m s
  | .movi h d imm ty => Sys2Proof.Machine.execMovi h d imm ty s
  | .lanePlog h pd pa pb t => Sys2Proof.Machine.execLanePlog h pd pa pb t s
  | .fadd h d a b r sat => Sys2Proof.Machine.execFadd h d a b r sat s
  | .fsub h d a b r sat => Sys2Proof.Machine.execFsub h d a b r sat s
  | .fmul h d a b r sat => Sys2Proof.Machine.execFmul h d a b r sat s
  | .ffma h d a b c r sat => Sys2Proof.Machine.execFfma h d a b c r sat s
  | .fmin h d a b => Sys2Proof.Machine.execFmin h d a b s
  | .fmax h d a b => Sys2Proof.Machine.execFmax h d a b s
  | .fabs h d a => Sys2Proof.Machine.execFabs h d a s
  | .fneg h d a => Sys2Proof.Machine.execFneg h d a s
  | .fcmp h d a b c pd => Sys2Proof.Machine.execFcmp h d a b c pd s
  | .fsel h d a b neg p => Sys2Proof.Machine.execFsel h d a b neg p s
  | .hadd h d a b r sat bf => Sys2Proof.Machine.execHadd h d a b r sat bf s
  | .hsub h d a b r sat bf => Sys2Proof.Machine.execHsub h d a b r sat bf s
  | .hmul h d a b r sat bf => Sys2Proof.Machine.execHmul h d a b r sat bf s
  | .hfma h d a b c r sat bf => Sys2Proof.Machine.execHfma h d a b c r sat bf s
  | .hmin h d a b bf => Sys2Proof.Machine.execHmin h d a b bf s
  | .hmax h d a b bf => Sys2Proof.Machine.execHmax h d a b bf s
  | .hcmp h d a b c sl pw pd bf => Sys2Proof.Machine.execHcmp h d a b c sl pw pd bf s
  | .iadd h d a b ty sat => Sys2Proof.Machine.execIadd h d a b ty sat s
  | .isub h d a b ty sat => Sys2Proof.Machine.execIsub h d a b ty sat s
  | .imul h d a b ty => Sys2Proof.Machine.execImul h d a b ty s
  | .imulh h d a b ty => Sys2Proof.Machine.execImulh h d a b ty s
  | .imad h d a b c ty => Sys2Proof.Machine.execImad h d a b c ty s
  | .iand h d a b w64 => Sys2Proof.Machine.execIand h d a b w64 s
  | .ior h d a b w64 => Sys2Proof.Machine.execIor h d a b w64 s
  | .ixor h d a b w64 => Sys2Proof.Machine.execIxor h d a b w64 s
  | .ishl h d a b w64 => Sys2Proof.Machine.execIshl h d a b w64 s
  | .ishr h d a b w64 => Sys2Proof.Machine.execIshr h d a b w64 s
  | .isra h d a b w64 => Sys2Proof.Machine.execIsra h d a b w64 s
  | .imin h d a b ty => Sys2Proof.Machine.execImin h d a b ty s
  | .imax h d a b ty => Sys2Proof.Machine.execImax h d a b ty s
  | .icmp h d a b ty c pd => Sys2Proof.Machine.execIcmp h d a b ty c pd s
  | .isel h d a b w64 neg p => Sys2Proof.Machine.execIsel h d a b w64 neg p s
  | .lanePopc h d a w64 => Sys2Proof.Machine.execLanePopc h d a w64 s
  | .laneClz h d a w64 => Sys2Proof.Machine.execLaneClz h d a w64 s
  | .bfe h d a b ty => Sys2Proof.Machine.execBfe h d a b ty s
  | .bfi h d a b c w64 => Sys2Proof.Machine.execBfi h d a b c w64 s
  | .cvt h d a b r sat ty ty2 sl dl => Sys2Proof.Machine.execCvt h d a b r sat ty ty2 sl dl s
  | .cvts h d a b c r sat ty ty2 e k => Sys2Proof.Machine.execCvts h d a b c r sat ty ty2 e k s
  | .pack h d a b ty k => Sys2Proof.Machine.execPack h d a b ty k s
  | .unpack h d a ty k => Sys2Proof.Machine.execUnpack h d a ty k s
  | .fxcvt h d a r => Sys2Proof.Machine.execFxcvt h d a r s
  | .rcp h d a r => Sys2Proof.Machine.execRcp h d a r s
  | .rsq h d a r => Sys2Proof.Machine.execRsq h d a r s
  | .sqrt h d a r => Sys2Proof.Machine.execSqrt h d a r s
  | .exp2 h d a r => Sys2Proof.Machine.execExp2 h d a r s
  | .log2 h d a r => Sys2Proof.Machine.execLog2 h d a r s
  | .lld h d a z m => Sys2Proof.Machine.execLld h d a z m s
  | .lst h a b z m => Sys2Proof.Machine.execLst h a b z m s
  | .laneAtom h d a b c ty op m => Sys2Proof.Machine.execLaneAtom h d a b c ty op m s
  | .tld h t a c win swin shf sc e os => Sys2Proof.Machine.execTld h t a c win swin shf sc e os s
  | .tst h t a c win swin shf sc os => Sys2Proof.Machine.execTst h t a c win swin shf sc os s
  | .mload h t m c shf sp => Sys2Proof.Machine.execMload h t m c shf sp s
  | .mloop h acc a rl w c dstep sa sw sp mt steps r => Sys2Proof.Machine.execMloop h acc a rl w c dstep sa sw sp mt steps r s
  | .mdrain h k d pf fin r sat => Sys2Proof.Machine.execMdrain h k d pf fin r sat s
  | .mdrainRaw h a fin win os => Sys2Proof.Machine.execMdrainRaw h a fin win os s
  | .mzero h fin => Sys2Proof.Machine.execMzero h fin s
  | .msave h a win os => Sys2Proof.Machine.execMsave h a win os s
  | .mrestImg h a win os => Sys2Proof.Machine.execMrestImg h a win os s
  | .mrestRaw h a win os => Sys2Proof.Machine.execMrestRaw h a win os s
  | .sadd h d a b reg sat rb tiles => Sys2Proof.Machine.execSadd h d a b reg sat rb tiles s
  | .smax h d a b rb tiles => Sys2Proof.Machine.execSmax h d a b rb tiles s
  | .smin h d a b rb tiles => Sys2Proof.Machine.execSmin h d a b rb tiles s
  | .srebias h d a k sat rb tiles => Sys2Proof.Machine.execSrebias h d a k sat rb tiles s
  | .smov h d m a k rb tiles => Sys2Proof.Machine.execSmov h d m a k rb tiles s
  | .sbind h d tiles => Sys2Proof.Machine.execSbind h d tiles s
  | .ssave h a win shf t os => Sys2Proof.Machine.execSsave h a win shf t os s
  | .srest h a win shf t os => Sys2Proof.Machine.execSrest h a win shf t os s
  | .registerWrite addr v => Sys2Proof.Machine.execRegisterWrite addr v s
  | .scrubComplete j => Sys2Proof.Machine.execScrubComplete j s
  | .invpgComplete g => Sys2Proof.Machine.execInvpgComplete g s
  | .ftzTailWrite die v => Sys2Proof.Machine.execFtzTailWrite die v s
  | .commandBegin die q => Sys2Proof.Machine.execCommandBegin die q s
  | .commandComplete die q => Sys2Proof.Machine.execCommandComplete die q s
  | .chainFetch die q => Sys2Proof.Machine.execChainFetch die q s
  | .engineHalt die q => Sys2Proof.Machine.execEngineHalt die q s
  | .queueResume die q => Sys2Proof.Machine.execQueueResume die q s
  | .queueAbandon die q => Sys2Proof.Machine.execQueueAbandon die q s
  | .pbufDescWrite die b word v => Sys2Proof.Machine.execPbufDescWrite die b word v s
  | .publishSwap g => Sys2Proof.Machine.execPublishSwap g s
  | .pbufPublishSwap g => Sys2Proof.Machine.execPbufPublishSwap g s
  | .groupReactivate g => Sys2Proof.Machine.execGroupReactivate g s
  | .yieldEffect g => Sys2Proof.Machine.execYieldEffect g s
  | .parkEffect g => Sys2Proof.Machine.execParkEffect g s
  | .parkWake g => Sys2Proof.Machine.execParkWake g s
  | .parkTimeout g => Sys2Proof.Machine.execParkTimeout g s
  | .laneBlockStart g => Sys2Proof.Machine.execLaneBlockStart g s
  | .groupExit g => Sys2Proof.Machine.execGroupExit g s
  | .queuedResultWrite g conv => Sys2Proof.Machine.execQueuedResultWrite g conv s
  | .tldLand g => Sys2Proof.Machine.execTldLand g s
  | .granuleDrowsy g k => Sys2Proof.Machine.execGranuleDrowsy g k s
  | .granuleWake g k => Sys2Proof.Machine.execGranuleWake g k s
  | .sequencerStep core => Sys2Proof.Machine.execSequencerStep core s
  | .arrayFreeze core => Sys2Proof.Machine.execArrayFreeze core s
  | .streamPortEmit core => Sys2Proof.Machine.execStreamPortEmit core s
  | .tokenGrant die => Sys2Proof.Machine.execTokenGrant die s
  | .tokenRequestPromote core => Sys2Proof.Machine.execTokenRequestPromote core s
  | .compactRegroup g => Sys2Proof.Machine.execCompactRegroup g s
  | .compactReturn g => Sys2Proof.Machine.execCompactReturn g s
  | .issueBoost g lane => Sys2Proof.Machine.execIssueBoost g lane s
  | .blockPlace part id block pos => Sys2Proof.Machine.execBlockPlace part id block pos s
  | .dispatchHold part id => Sys2Proof.Machine.execDispatchHold part id s
  | .quotaWrite core part b v => Sys2Proof.Machine.execQuotaWrite core part b v s
  | .trapEntry g => Sys2Proof.Machine.execTrapEntry g s
  | .faultRecordDeliver part => Sys2Proof.Machine.execFaultRecordDeliver part s
  | .fqCtlWrite part v => Sys2Proof.Machine.execFqCtlWrite part v s
  | .fqReplyReplay part g lane => Sys2Proof.Machine.execFqReplyReplay part g lane s
  | .fqReplyTrap part g lane => Sys2Proof.Machine.execFqReplyTrap part g lane s
  | .preemptRequest part => Sys2Proof.Machine.execPreemptRequest part s
  | .contextRestore part id => Sys2Proof.Machine.execContextRestore part id s
  | .logitBudgetExpire part id block => Sys2Proof.Machine.execLogitBudgetExpire part id block s
  | .selfTestComplete w code => Sys2Proof.Machine.execSelfTestComplete w code s
  | .gangCopyPass scr => Sys2Proof.Machine.execGangCopyPass scr s
  | .subTailWrite imm v => Sys2Proof.Machine.execSubTailWrite imm v s
  | .cqCtlWrite imm v => Sys2Proof.Machine.execCqCtlWrite imm v s
  | .tokCtlWrite imm v => Sys2Proof.Machine.execTokCtlWrite imm v s
  | .ifaceReset imm => Sys2Proof.Machine.execIfaceReset imm s
  | .launchAccept imm dev => Sys2Proof.Machine.execLaunchAccept imm dev s
  | .launchComplete part id => Sys2Proof.Machine.execLaunchComplete part id s
  | .completionRecordWrite imm => Sys2Proof.Machine.execCompletionRecordWrite imm s
  | .successorEnqueue part id => Sys2Proof.Machine.execSuccessorEnqueue part id s
  | .launchPacket node imm rec => Sys2Proof.Machine.execLaunchPacket node imm rec s
  | .fabricAccess node r => Sys2Proof.Machine.execFabricAccess node r s
  | .collContribution desc key rank chunk => Sys2Proof.Machine.execCollContribution desc key rank chunk s
  | .collComplete desc key chunk => Sys2Proof.Machine.execCollComplete desc key chunk s
  | .collDeadline desc key => Sys2Proof.Machine.execCollDeadline desc key s
  | .tokenAppend desc key => Sys2Proof.Machine.execTokenAppend desc key s
  | .pwrCapWrite v => Sys2Proof.Machine.execPwrCapWrite v s
  | .powerManagerMove src dst n => Sys2Proof.Machine.execPowerManagerMove src dst n s
  | .corePowerOff core => Sys2Proof.Machine.execCorePowerOff core s
  | .corePowerOn core => Sys2Proof.Machine.execCorePowerOn core s
  | .boot b => Sys2Proof.Machine.execBoot b s
  | .mantelQuote part => Sys2Proof.Machine.execMantelQuote part s
  | .quoteComplete part => Sys2Proof.Machine.execQuoteComplete part s
  | .mantelClear part => Sys2Proof.Machine.execMantelClear part s
  | .debugRead g off => Sys2Proof.Machine.execDebugRead g off s
  | .debugWrite g off v => Sys2Proof.Machine.execDebugWrite g off v s
  | .debugHalt g => Sys2Proof.Machine.execDebugHalt g s
  | .debugResume g => Sys2Proof.Machine.execDebugResume g s
  | .tenantDebugToken part boot body => Sys2Proof.Machine.execTenantDebugToken part boot body s
  | .vendorDebugToken body => Sys2Proof.Machine.execVendorDebugToken body s
  | .fabricLinkLost port => Sys2Proof.Machine.execFabricLinkLost port s
  | .hostLinkError link code => Sys2Proof.Machine.execHostLinkError link code s
  | .hostAccess link sys addr n data => Sys2Proof.Machine.execHostAccess link sys addr n data s
  | .collPutCompletion g => Sys2Proof.Machine.execCollPutCompletion g s
  | .sensorReading x => Sys2Proof.Machine.execSensorReading x s
  | .uncorrectedError w => Sys2Proof.Machine.execUncorrectedError w s

end Sys2Proof.Machine
end

