-- ==== Sys2Proof/Machine/Issue.lean ====
section
/-! DEFINITION. What a stream does when it moves: what holds it, the fetch of its word, and the instruction (R141, R164 to R169,
R307, R309, R316 to R320, R325). -/

namespace Sys2Proof.Machine

/-! What holds a stream (R307, R316, R389) -/

/-- What the stream does instead of fetching a word, if anything. A lane stream that waits at its word still replays its logged
instruction (R319, R325). -/
def hold (s : State) : Option Out :=
  let g := s.cur
  if s.groupHeld s.curG then some (.next s.stalled)
  else match g.h.pend with
    | some x => some (.next (s.takePend s.curG x))
    | none =>
      if s.curLane then
        (if g.laneHeld && (g.replaying true).isNone then some (.next s.stalled)
         else if g.ln.active then none
         else if g.ln.runQ = [] then some (.next s.stalled) else some (.next (s.setCur g.startBlock)))
      else match g.wait with
        | .done d st res => some (.next (s.setCur { g.putResult d st res with wait := .none, pc := g.pc + 4 }))
        | _ => if g.scalarHeld then some (.next s.stalled) else none

/-! Fetch and run -/

/-- A fetch whose fault is deferred holds its stream at the word; its record is posted (R318). -/
def State.holdFetch (s : State) (i : Info) : State :=
  let s1 := s.postDeferred s.curG s.curLane [i] false s.wordAddr 0
  let r := groupRecord 0 s.curG s1.cur i s.curLane s.wordAddr 0 0 0 false
  s1.setCur (if s.curLane then { s1.cur with lfetch := some r } else { s1.cur with sfetch := some r })
/-- The current group has taken a trap: it has entered its handler, or it has ended. -/
def trapped (s t : State) : Bool :=
  let g := t.group s.curG
  g.h.on != s.cur.h.on || g.live != s.cur.live
/-- Runs an instruction. One that would trap, or would need the stream's log, waits while the log holds an earlier one (R316, R319). -/
def runInstr (i : Instr) (s : State) : Out :=
  match exec i s with
  | .next t =>
    .next (if (s.cur.log s.curLane).isSome && (trapped s t || (t.group s.curG).log s.curLane != s.cur.log s.curLane) then (s.noted t).stalled
      else t)
  | o => o
/-- Runs a word that the current stream has fetched, once nothing holds it. A word that no instruction has traps when every earlier
instruction of the stream has completed (R6, R164, R316). -/
def runWord (w : Nat) (s : State) : Out :=
  match wordInstr s.curLane w with
  | none =>
    if (s.cur.log s.curLane).isSome then .next s.stalled
    else .next (s.raiseTrap s.curG s.curLane { cause := .illegalInstr } s.wordAddr (BitVec.ofNat 96 w) s.cur.pc)
  | some i => if instrHeld s i then .next s.stalled else runInstr i s
/-- Fetches the stream's next word and runs it. A fault of the fetch comes when every earlier instruction of the stream has completed
(R167, R316). -/
def fetchAndRun (s : State) : Out :=
  match fetchWord.run s with
  | .ok w s1 => runWord w s1
  | .error (.fault i) s1 =>
    .next (if (s.cur.log s.curLane).isSome then s.stalled
      else if i.cause.deferred then s1.holdFetch i else s1.raiseTrap s.curG s.curLane i s.wordAddr 0 s.cur.pc)
  | .error _ s1 => .next s1.stalled
/-- What the current stream does next: what holds it, a replay from its log, or its next word. -/
def move (s : State) : Out :=
  match hold s with
  | some o => o
  | none => match (s.cur.replaying s.curLane).bind OpLog.instr with
    | some i => if s.curLane && drowsyHit s i then .next s.stalled else exec i s
    | none => fetchAndRun s
/-- The cycle budget of a group's block, if it has one, counts from the block's first instruction (R334). -/
def State.began (s : State) (gid : Gid) : State :=
  let g := s.group gid
  match s.blockAt g with
  | some b => if g.live && !g.h.on && b.budget != 0 && !b.ran then s.setBlock { b with ran := true, begun := (s.core b.core).cyc } else s
  | none => s
/-- One move of the current stream. The first instruction of a block starts its cycle budget (R334); a stream that has issued or that is not
ready keeps neither boost nor count (R309). -/
def issue (s : State) : Out :=
  match move (if (hold s).isNone then s.began s.curG else s) with
  | .next t => .next (t.unboost s.curG s.curLane)
  | o => o

/-! The move that an empty agenda makes (log 14) -/

/-- What the current group's own wait is for, once it is due. -/
def dueWait (s : State) (gid : Gid) (g : Group) : Option Instr :=
  match g.wait, g.st with
  | .invpg .., _ => some (.invpgComplete gid)
  | .publSlot sl _, _ =>
    match s.blockAt g with
    | some b => if slotFilling s b sl.toNat then none else some (.publishSwap gid)
    | none => none
  | .publBuf b _ n, _ =>
    if bufFilling s gid.die b.toNat n then none
    else some (.pbufPublishSwap gid)
  | _, .yielding _ => if g.laneIdle then some (.yieldEffect gid) else none
  | _, .yielded y => (yieldEnd s gid.die y).map (fun _ => .groupReactivate gid)
  | _, .parking .. => if g.laneIdle then some (.parkEffect gid) else none
  | _, .parked .. => g.wakeReason.map (fun _ => .parkWake gid)
  | _, .exiting => if g.laneIdle && !s.portBusy gid then some (.groupExit gid) else none
  | _, _ => none
/-- What moves before the current stream, if anything; for a group that a pre-emption has halted, its saving (R330). -/
def due (s : State) : Option Instr :=
  let gid := s.curG
  let g := s.cur
  let x := s.mx gid
  if !g.live then none
  else if g.h.halted then (if (s.part g.part).preReq && !g.h.on then some (.preemptRequest g.part) else none)
  else match (if g.h.pend.isSome then none else dueWait s gid g) with
    | some i => some i
    | none =>
      if s.loopRuns gid ∧ s.tokenReady gid ∧ (match x.loop with | some l => g.stepDrowsy l | none => false) = false then some (.sequencerStep gid.core)
      else if x.waiting ∧ (s.die gid.die).pool ≠ 0 then some (.tokenGrant gid.die)
      else if x.outQ ≠ [] then some (.streamPortEmit gid.core)
      else if g.rg.drowsy ≠ 0 then
        ((List.range 32).find? (fun k => bitOf g.rg.drowsy k)).map (fun k => .granuleWake gid (BitVec.ofNat 5 k))
      else none

/-! One instruction in place to be fetched (log 4) -/

/-- The frames of the tables and the page that `withFetchWord` lays out, as region 0 offsets. -/
def demoRoot : Nat := 0x1000000
def demoPage : Nat := 0x1030000
/-- A group as a launch of a kernel with 64 KiB of registers and one lane word would place it, its views over all of it. -/
def demoGroup : Group :=
  { live := true, ln := { lwords := 1 }, rg := { declared := 0x10000, granules := 16, vview := 0x80000000#64 } }
/-- The current group with nothing that holds it; for a lane word its lane stream stands at word 0 of a block of one word. -/
def State.clearHolds (s : State) (lane : Bool) : State :=
  let gid := s.curG
  let c := s.core gid.core
  let g := if s.cur.live then s.cur else demoGroup
  let g1 : Group := { g with pc := 0, pasid := 0, st := .running, wait := .none, slog := none, llog := none, sfetch := none,
                             lfetch := none, h := { g.h with pend := none, halted := false }, rg := { g.rg with drowsy := 0 },
                             ln := if lane then
                                 { g.ln with lbase := 0, lwords := 1, lpc := 0, active := true, run := BitVec.allOnes 64, exited := 0,
                                             stack := [], cwait := .none, inRegion := false, parts := [], partAt := none,
                                             runQ := [], remap := identityRemap g.gidx }
                               else g.ln }
  (s.setCur g1).setCore gid.core { c with off := false, tlb := [], mx := if s.holds gid then {} else c.mx }
/-- Tables of PASID 0 on a die that map the page at address 0 for fetches. -/
def demoTables (die : BitVec 3) : List (Nat × W64) :=
  let d : W64 := die.setWidth 64 <<< 49
  [(paOf die 0 0, d ||| 0x1000001#64), (paOf die 0 8, 0), (paOf die 0 demoRoot, d ||| 0x1010001#64),
   (paOf die 0 0x1010000, d ||| 0x1020001#64), (paOf die 0 0x1020000, d ||| 0x103001B#64)]

end Sys2Proof.Machine
end

