-- ==== Sys2Proof/Machine/Step.lean ====
section
/-! DEFINITION. One step of the machine (log 3). -/

namespace Sys2Proof.Machine

/-- The first move of the agenda; with an empty agenda what is due for the current group, else its current stream. -/
def step (s : State) : Host.Outcome State Fault Refusal :=
  match s.agenda with
  | .event i :: t => if i.isEvent then exec i { s with agenda := t } else .fault .notAnEvent
  | .issue g lane :: t => issue { s with agenda := t, curG := g, curLane := lane }
  | [] => match due s with
    | some i => exec i s
    | none => issue s

/-- `s` with an instruction of the opcode table where the current group fetches next (log 4): a scalar word at pc 0, or a lane
word as word 0 of a lane block. -/
def State.withFetchWord (s : State) (nbits w : Nat) : State :=
  let die := s.curG.die
  let lane := decide (32 < nbits)
  let s1 := s.clearHolds lane
  let s2 := (demoTables die).foldl (fun (s : State) x => s.write64 x.1 x.2) s1
  let s3 := s2.write (paOf die 0 demoPage) (natToBytes (if lane then 12 else 4) w)
  { s3.setDie die { s3.die die with ptBase := (die.setWidth 64 <<< 49) ||| 1 } with agenda := [.issue s.curG lane], curLane := lane }

end Sys2Proof.Machine
end

