-- ==== Sys2Proof/Safety.lean ====
section
/-! DEFINITION. What counts as a safe state and a safe run, and the terms in which the claims speak of a step: what an
instruction wrote, where an access lies, what a lane instruction does to its threads. -/

namespace Sys2Proof

open Machine

/-- One step goes from a state to a state. -/
def Goes (s t : State) : Prop := step s = .next t

/-- Any number of steps. -/
inductive Reaches : State → State → Prop where
  | refl (s : State) : Reaches s s
  | tail {s t u : State} (h : Reaches s t) (h1 : Goes t u) : Reaches s u

/-- Every event that the agenda names is an event row of the opcode table. -/
def AgendaOk (s : State) : Prop := ∀ i, Move.event i ∈ s.agenda → i.isEvent = true

/-- A state from which the machine goes on: it neither faults nor refuses. -/
def GoesOn (s : State) : Prop := ∃ t, Goes s t

/-- A run is safe if the machine goes on from every state that it reaches. -/
def SafeFrom (s : State) : Prop := ∀ t, Reaches s t → GoesOn t

/-- The invariant of every step: the package's memory, the host's and the flash are in their canonical form, and the agenda names only
events. -/
def Inv (s : State) : Prop := Memory.wf s.mem ∧ Memory.wf s.host0 ∧ Memory.wf s.host1 ∧ Memory.wf s.plat.flash ∧ AgendaOk s

/-! What a scalar instruction wrote -/

/-- `s` with v in s(d) and the program counter at the next word; nothing else of the machine differs. -/
def Machine.State.withS (s : State) (d : SReg) (v : W64) : State :=
  s.setCur { s.cur with s := s.cur.s.set d.toNat v d.isLt, pc := s.cur.pc + 4 }
/-- `s` with the program counter at an address; nothing else differs. -/
def Machine.State.withPc (s : State) (pc : W64) : State := s.setCur { s.cur with pc := pc }

/-- The instruction completes: it writes s(d) with a value that has a property, and nothing else but the pc. -/
def WritesS (i : Instr) (s : State) (d : SReg) (P : W64 → Prop) : Prop := ∃ v, exec i s = .next (s.withS d v) ∧ P v
/-- The instruction completes: it writes `sp`p with b, and nothing else but the pc. -/
def WritesP (i : Instr) (s : State) (p : BitVec 3) (b : Bool) : Prop :=
  ∃ sp, exec i s = .next (s.setCur { s.cur with sp := sp, pc := s.cur.pc + 4 }) ∧
    ∀ q : BitVec 3, sp.getLsbD q.toNat = if q = p then b else s.cur.sp.getLsbD q.toNat

/-- The scalar registers and the predicates that a scalar instruction writes, where it is one of those that only compute, compare
or select and never trap (R187 to R193, R195). -/
def plainDests : Instr → Option (List SReg × List (BitVec 3))
  | .add d _ _ | .sub d _ _ | .mul d _ _ | .mulh d _ _ _ | .div d _ _ _ | .rem d _ _ _ | .and d _ _ | .or d _ _ | .xor d _ _
  | .shl d _ _ | .shr d _ _ | .sra d _ _ | .min d _ _ _ | .max d _ _ _ | .sel d _ _ _ _ | .addi d _ _ | .muli d _ _
  | .andi d _ _ | .ori d _ _ | .xori d _ _ | .shli d _ _ | .shri d _ _ | .srai d _ _ | .mini d _ _ | .maxi d _ _ | .limSet d _
  | .limCat d _ | .clz d _ | .popc d _ | .brev d _ | .pget d => some ([d], [])
  | .cmp p _ _ _ | .cmpi _ p _ _ | .plog p _ _ _ => some ([], [p])
  | _ => none

/-! Traps -/

/-- A trap raised at an instruction of the current group enters the group's handler with its own cause: no handler runs, the launch
is no logit callable, the scalar stream has not exited, no error of the array is recorded, which would come first (R147, R202, R316,
R329, R334). -/
def TrapEnters (s : State) : Prop :=
  s.cur.h.on = false ∧ s.isLogit s.cur.part s.cur.launch = false ∧ s.cur.st ≠ .exiting ∧ s.mxErrOf s.curG = none
/-- A record of R322 that names a cause and an instruction's address. -/
def RecordOf (r : BitVec 512) (c : Cause) (addr : W64) : Prop :=
  r.extractLsb' 60 4 = 0#4 ∧ r.extractLsb' 52 8 = c.code ∧ r.extractLsb' 192 64 = addr
/-- The scalar instruction traps precisely with a cause: the handler is entered at the instruction, which did nothing. -/
def TrapsS (i : Instr) (s : State) (c : Cause) : Prop :=
  ∃ r, RecordOf r c s.cur.pc ∧ exec i s = .next (s.enterHandler s.curG c r s.cur.pc s.cur.ln.lpc)
/-- The lane instruction traps precisely with a cause, its queued results and tile loads written. -/
def TrapsL (i : Instr) (s : State) (c : Cause) : Prop :=
  ∃ r, RecordOf r c s.cur.laneAddr ∧
    exec i s = .next ((s.setCur s.cur.settle).enterHandler s.curG c r s.cur.pc s.cur.settle.ln.lpc)

/-! Accesses -/

/-- An access of n bytes at offset o through window w of the current group lies in one page, which the window serves as it stands,
at a home of this package; its first byte lies at `a` (R14, R29, R40). -/
def WindowHit (s : State) (w : BitVec 3) (o n : Nat) (k : AKind) (a : Nat) : Prop :=
  let x := s.cur.win.getD w.toNat {}
  x.stale = false ∧ o < x.limit.toNat ∧ x.permits s.cur.priv k = true ∧
  (x.base + BitVec.ofNat 64 o).toNat % 0x10000 + n ≤ 0x10000 ∧ a = x.pa.toNat + o ∧ paNode a = 0
/-- n bytes at a physical address are memory that a read of the current group takes as it is: region 0 or 1, no uncorrectable
word, no tag of a later block of a deterministic launch (R14, R68, R335). -/
def Readable (s : State) (a n : Nat) : Prop :=
  paNode a = 0 ∧ paRegion a < 2 ∧ s.bad a n = false ∧
  ((groupAgent s.curG s.cur).who.bind (fun x => if inHbm a then tagAbove s x a n else none)) = none
/-- `t` is `s` with at most the n bytes at `a` written: every byte outside [a, a + n) reads as before, and nothing else differs but
monitors that the write fires, write tags and uncorrectable words (R42, R67, R224, R335). -/
def StoredAt (s t : State) (a n : Nat) : Prop :=
  (∀ b, b < a ∨ a + n ≤ b → Sparse.get t.mem b = Sparse.get s.mem b) ∧
  (∀ g : Gid, t.group g = { s.group g with fired := (t.group g).fired }) ∧
  t = { s with mem := t.mem, groups := t.groups, dtags := t.dtags, badWords := t.badWords }
/-- A virtual address of the current group translates for an access (R23). -/
def Translates (s : State) (va : W64) (k : AKind) (pa : Nat) (s1 : State) : Prop :=
  (translate (groupAgent s.curG s.cur) va k).run s = .ok pa s1
/-- The current group's block holds the slot, and an access of n bytes at offset o of it lies at `a` (R69, R72). -/
def SlotHit (s : State) (sl o n a : Nat) : Prop :=
  ∃ b, s.blockAt s.cur = some b ∧ sl < b.slotCount.toNat ∧ o + n ≤ 4096 ∧
    bitOf (Sparse.get (s.core s.curG.core).tags (b.slotBase.toNat + sl)) 63 = true ∧
    a = frameBase s.curG.core (bitsOf (Sparse.get (s.core s.curG.core).tags (b.slotBase.toNat + sl)) 48 8) + o

/-! Lane instructions (R96, R159, R160, R227 to R231, R249, R257) -/

/-- The operands that pop data queue i. -/
def popsOf (l : List (Opnd × Nat)) (i : BitVec 3) : Nat :=
  (l.filter (fun o => match o.1 with | .q k | .qp k _ => k == i | _ => false)).length
/-- The operand writes predicate p, as a non-blocking queue operand does. -/
def Opnd.names (o : Opnd) (p : BitVec 3) : Bool := match o with | .qp _ k | .yp _ k => k == p | _ => false
/-- The range of register space of a tile or an accumulator named as an operand. -/
def spanOf (r : RegSpace) (o : Opnd) : Option (Nat × Nat) :=
  match o with | .tile i => some (r.tileSpan i.toNat) | .acc i => some (r.accSpan i.toNat) | _ => none
/-- The result queue that an operand pushes to. -/
def pushOf (o : Opnd) : Option (BitVec 2) := match o with | .y i | .yp i _ => some i | _ => none

/-- An operand of n registers over the range `sp` of register space has a whole word at address a, and the thread whose word it is writes
it (R258). -/
def spanByte (sp : Nat × Nat) (n : Nat) (mask : W64) (a : Nat) : Bool :=
  decide (sp.1 ≤ a ∧ (a - sp.1) / 256 < n ∧ (a - sp.1) / 4 * 4 + 4 ≤ sp.2) && mask.getLsbD ((a - sp.1) % 256 / 4)
/-- The byte at offset o of such a range as the threads' results give it: thread o mod 256 / 4, register o / 256 of the result. -/
def spanVal (val : Nat → Nat) (o : Nat) : Byte := BitVec.ofNat 8 (val (o % 256 / 4) / 2 ^ (32 * (o / 256)) / 2 ^ (8 * (o % 4)))
/-- What a lane instruction leaves in its destination: `t` after it, `g` the group before it with everything issued written, `x` the
threads that compute and that take the result, `val` the result of each thread. A vector register takes the words of the threads that write, and so does a
tile or an accumulator, word after word as far as its range goes; no word becomes uncorrectable; a push appends one word, also where the
guard is false; everything else of the register space and of the result queues is as before. -/
def DestHolds (g t : Group) (d : Opnd) (n : Nat) (x : Sel) (val : Nat → Nat) : Prop :=
  (∀ v : BitVec 10, d = .vec v →
    (∀ k, k < n → ∀ j, j < 64 → vword (t.rg.row (g.rg.vrow (v.toNat + k))) j =
      if x.write.getLsbD j then BitVec.ofNat 32 (val j / 2 ^ (32 * k)) else vword (g.rg.row (g.rg.vrow (v.toNat + k))) j) ∧
    ∀ r, (∀ k, k < n → r ≠ g.rg.vrow (v.toNat + k)) → t.rg.row r = g.rg.row r) ∧
  (∀ sp, spanOf g.rg d = some sp → ∀ a, t.rg.byte a = if spanByte sp n x.write a then spanVal val (a - sp.1) else g.rg.byte a) ∧
  ((∀ v, d ≠ .vec v) → spanOf g.rg d = none → t.rg.rows = g.rg.rows) ∧ t.rg = { g.rg with rows := t.rg.rows, bad := t.rg.bad } ∧ (∀ w ∈ t.rg.bad, w ∈ g.rg.bad) ∧
  ∀ i : BitVec 2, t.y.getD i.toNat [] = if pushOf d = some i ∧ (g.y.getD i.toNat []).length < 16
    then g.y.getD i.toNat [] ++ [BitVec.ofNat 64 (val 0)] else g.y.getD i.toNat []

/-- What a lane instruction does to the predicates: `pd` takes `b` in the threads that write, a non-blocking queue operand says in
every thread whether it moved its entry, every other predicate is as before. -/
def PredHolds (g t : Group) (d : Opnd) (src : List (Opnd × Nat)) (pd : Option (BitVec 3)) (x : Sel) (b : Nat → Bool) : Prop :=
  (∀ p, pd ≠ some p → d.names p = false → (∀ o ∈ src, o.1.names p = false) → t.pr p = g.pr p) ∧
  (∀ p, pd = some p → p ≠ 7 → d.names p = false → (∀ o ∈ src, o.1.names p = false) → ∀ j, j < 64 →
    (t.pr p).getLsbD j = if x.write.getLsbD j then b j else (g.pr p).getLsbD j) ∧
  (∀ i p n, pd ≠ some p → p ≠ 7 → d.isQueue = false → src.filter (fun o => o.1.isQueue) = [(.qp i p, n)] →
    t.pr p = if g.q.getD i.toNat [] = [] then 0 else BitVec.allOnes 64) ∧
  (∀ i p, pd ≠ some p → p ≠ 7 → d = .yp i p →
    t.pr p = if (g.y.getD i.toNat []).length < 16 then BitVec.allOnes 64 else 0)

/-- The instruction computes `f` in each executing thread, from the thread's sources as they stood before, writes its destination and
predicate, pops its queue sources, counts a stochastic rounding, moves to the next lane word, and changes nothing else of the
machine. -/
def LaneResult (i : Instr) (o : LaneOp) (f : LaneFn) (s : State) : Prop :=
  let g := s.cur.settle
  let x := g.sel o.h
  let val := fun j => let u := x.from o.h.uni j; f g (s.seedOf g) u (o.src.map (fun p => g.srcVal p.1 p.2 u))
  ∃ t : State, exec i s = .next t ∧
    DestHolds g t.cur o.d o.dn x (fun j => (val j).1) ∧ PredHolds g t.cur o.d o.src o.pd x (fun j => (val j).2) ∧
    (∀ q : BitVec 3, t.cur.q.getD q.toNat [] = (g.q.getD q.toNat []).drop (popsOf o.src q)) ∧
    (∀ j : Fin 64, t.cur.ln.rs[j] = if o.rs && x.exec.getLsbD j then g.ln.rs[j] + 1 else g.ln.rs[j]) ∧
    t = s.setCur { g with rg := t.cur.rg, q := t.cur.q, y := t.cur.y,
                          ln := { g.ln with lpc := g.ln.lpc + 1, p := t.cur.ln.p, rs := t.cur.ln.rs } }
/-- It does so whenever its guard is no `!p7`, its operands lie in their views and no queue holds it back. -/
def LaneDoes (i : Instr) (o : LaneOp) (f : LaneFn) : Prop :=
  ∀ s : State, o.h.never = false → o.stop s.cur.settle = none → LaneResult i o f s

/-- An instruction of the SFU or the conversion queue: the same at issue, but that the result waits at the end of its queue until
QUEUED_RESULT_WRITE or a reader (R248). `ok`: what the instruction asks of the group beside its operands. -/
def LaneQueues (conv : Bool) (i : Instr) (o : LaneOp) (f : LaneFn) (ok : Group → Prop := fun _ => True) : Prop :=
  ∀ s : State, o.h.never = false → o.stop (s.cur.roomFor conv o.ops) = none → ok (s.cur.roomFor conv o.ops) →
    let g := s.cur.roomFor conv o.ops
    let x := g.sel o.h
    let val := fun j => let u := x.from o.h.uni j; (f g (s.seedOf g) u (o.src.map (fun p => g.srcVal p.1 p.2 u))).1
    ∃ (t : State) (r : Queued), exec i s = .next t ∧
      r.d = o.d ∧ r.w64 = (o.dn == 2) ∧ r.mask = (if o.d.isQueue then x.exec else x.write) ∧
      (∀ j, j < 64 → o.d.isQueue = false → x.write.getLsbD j = true →
        vword r.lo j = BitVec.ofNat 32 (val j) ∧ (o.dn = 2 → vword r.hi j = BitVec.ofNat 32 (val j / 2 ^ 32))) ∧
      (o.d.isQueue = true → vword r.lo 0 = BitVec.ofNat 32 (val 0)) ∧
      (∀ q : BitVec 3, t.cur.q.getD q.toNat [] = (g.q.getD q.toNat []).drop (popsOf o.src q)) ∧
      (∀ j : Fin 64, t.cur.ln.rs[j] = if o.rs && x.exec.getLsbD j then g.ln.rs[j] + 1 else g.ln.rs[j]) ∧
      (∀ p, (∀ y ∈ o.src, y.1.names p = false) → t.cur.pr p = g.pr p) ∧
      t = s.setCur { g with q := t.cur.q,
                            ln := { g.ln with lpc := g.ln.lpc + 1, p := t.cur.ln.p, rs := t.cur.ln.rs,
                                              cvtQ := if conv then g.ln.cvtQ ++ [r] else g.ln.cvtQ,
                                              sfuQ := if conv then g.ln.sfuQ else g.ln.sfuQ ++ [r] } }

/-- Element k of source n of a thread as a number, as an integer of a type, and as a value of a floating-point type. -/
def elNat (w : Nat) (l : List Nat) (n k : Nat) : Nat := l.getD n 0 / 2 ^ (w * k) % 2 ^ w
def elInt (ty : LTy) (l : List Nat) (n k : Nat) : Int := intOf ty (elNat ty.width l n k)
def elVal (ty : LTy) (l : List Nat) (n k : Nat) : FVal := decodeElem ty 0 (elNat ty.width l n k)
/-- The codes of integers, modulo 2^w, in a word or a register pair. -/
def packInts (ty : LTy) (z : Nat → Int) : Nat :=
  packNat ty.width (fun k => (z k % 2 ^ ty.width).toNat) (if ty.is64 then 1 else 32 / ty.width)

/-! Fields, arrays, sequence control records -/

/-- `y` is `x` with fields written, each (lowest bit, width, value); every other bit is as before. -/
def bitsBecome {w : Nat} (y x : BitVec w) (l : List (Nat × Nat × Nat)) : Prop :=
  ∀ i, i < w → y.getLsbD i = match l.find? (fun p => decide (p.1 ≤ i ∧ i < p.1 + p.2.1)) with
    | some p => p.2.2.testBit (i - p.1)
    | none => x.getLsbD i

/-- An instruction of classes 6 and 7 runs: its guard holds in the lowest-vlane active thread v, the group has not diverged, every
operand lies in its view and is ready, no word of the operands that it reads is uncorrectable, its stream replays nothing (R275 to
R278). -/
def MxRuns (h : LHdr) (ops reads : List (Opnd × Nat)) (s : State) (v : Nat) : Prop :=
  let g := s.cur.settle
  h.never = false ∧ s.cur.replaying true = none ∧ g.ln.lowest g.ln.act = some v ∧ v < 64 ∧ (g.guardMask h).getLsbD v = true ∧
  g.diverged = false ∧ g.ln.inRegion = false ∧ (∀ o ∈ ops, g.rg.opOk o.1 o.2 = true ∧ g.queueStop o.1 = none) ∧ g.badSrc reads = false
/-- The group after an instruction of class 6 or 7 that writes nothing but what `f` names: results written, sources popped, the next
lane word. -/
def mxAfter (s : State) (pops : List (Opnd × Nat)) : Group := (s.cur.settle.popAll pops).lpc1
/-- Each byte of a list of ranges lies at `pa`, range by range: a range through a window in one page, a range of the shelf slot by
slot (R72, R277). A range is its window, its first offset and its length. -/
def RangesHit (s : State) (shf : Bool) (k : AKind) (l : List (BitVec 3 × Nat × Nat)) (pa : Nat → Nat → Nat) : Prop :=
  ∀ i, i < l.length → let x := l.getD i (0, 0, 0)
    if shf then ∀ j, j < x.2.2 → SlotHit s ((x.2.1 + j) / 4096) ((x.2.1 + j) % 4096) 1 (pa i j)
    else WindowHit s x.1 x.2.1 x.2.2 k (pa i 0) ∧ ∀ j, j < x.2.2 → pa i j = pa i 0 + j
/-- Each byte of the ranges is memory that a read takes as it is. -/
def RangesRead (s : State) (l : List (BitVec 3 × Nat × Nat)) (pa : Nat → Nat → Nat) : Prop :=
  ∀ i j, i < l.length → j < (l.getD i (0, 0, 0)).2.2 → Readable s (pa i j) 1
/-- The bytes of the ranges, in order. -/
def rangeBytes (m : Sparse 8) (l : List (BitVec 3 × Nat × Nat)) (pa : Nat → Nat → Nat) (i : Nat) : List Byte :=
  (List.range (l.getD i (0, 0, 0)).2.2).map (fun j => Sparse.get m (pa i j))
/-- `t` is `s` with the bytes of the ranges written with what `b` gives: where no two lie at one address each reads as given; every
other byte of memory is as before, and so is everything else but the current group, monitors, write tags and uncorrectable words. -/
def RangesStored (s t : State) (l : List (BitVec 3 × Nat × Nat)) (pa : Nat → Nat → Nat) (b : Nat → Nat → Byte) : Prop :=
  (∀ a, (∀ i j, i < l.length → j < (l.getD i (0, 0, 0)).2.2 → pa i j ≠ a) → Sparse.get t.mem a = Sparse.get s.mem a) ∧
  ((∀ i j i' j', i < l.length → j < (l.getD i (0, 0, 0)).2.2 → i' < l.length → j' < (l.getD i' (0, 0, 0)).2.2 → (i, j) ≠ (i', j') →
      pa i j ≠ pa i' j') →
    ∀ i j, i < l.length → j < (l.getD i (0, 0, 0)).2.2 → Sparse.get t.mem (pa i j) = b i j) ∧
  (∀ g : Gid, g ≠ s.curG → t.group g = { s.group g with fired := (t.group g).fired }) ∧
  t = { s with mem := t.mem, groups := t.groups, dtags := t.dtags, badWords := t.badWords }
/-- The array of the current group's core, without the group's place in the line of those that wait for it (R311). -/
def arrayAt (s : State) : MxArray :=
  let x := s.mx s.curG
  if x.holder = none then x.leave s.curG.slot else x
/-- An array instruction of the current group goes on: no error of the sequencer waits for it, and the array has no holder, no drain
on its way to the port, and no waiting group that comes before this one; or the group, or on a frozen array system code of its
partition, is in charge of an idle array, with no drain on its way, or of a frozen one, for the instructions that a frozen array
executes (R132, R144, R146, R147, R311). -/
def ArrayFree (s : State) (frozenOk : Bool) : Prop :=
  let x := s.mx s.curG
  let s1 := s.setCur s.cur.settle
  s.mxErrOf s.curG = none ∧
  ((x.holder = none ∧ x.outQ = [] ∧ (s1.setMx s.curG (x.join s.curG.slot)).arrayNext s.curG.core = some s.curG.slot) ∨
    ((x.holder = some s.curG.slot ∨ (x.mode = .frozen ∧ s1.systemOfHolder s.curG = true)) ∧
      ((x.mode = .idle ∧ x.outQ = []) ∨ (x.mode = .frozen ∧ frozenOk = true))))
/-- A group whose array instruction waits in its operand log for its own loop or drain has it issued again (R275; log 104). -/
def wokeArray (g : Group) : Group :=
  if g.live = true ∧ g.llog.any OpLog.scrub = true then { g with llog := g.llog.map OpLog.woken } else g
/-- The array holds a power token, or the next one that its die gives is its own (R145, R311). -/
def TokenFree (s : State) : Prop :=
  (s.mx s.curG).token = true ∨
    ((s.die s.curG.die).pool ≠ 0 ∧ tokenNext (s.requestToken s.curG) s.curG.die = some s.curG.core)
/-- `t` is `s` with the array of a group's core as `y`, the array's token taken from the die or back with it where `pool` says so, and
the group as `g`; of other arrays only the count of how often their requests were passed over differs (R145, R311). -/
def ArrayStep (s t : State) (gid : Gid) (g : Group) (y : MxArray) (pool : BitVec 10 → BitVec 10) : Prop :=
  t = { s.setGroup gid g with cores := t.cores, dies := t.dies } ∧
  t.core gid.core = { s.core gid.core with mx := y } ∧
  (∀ k : BitVec 10, k ≠ gid.core → t.core k = { s.core k with mx := { (s.core k).mx with passed := (t.core k).mx.passed } }) ∧
  ∀ k : BitVec 3, t.die k = if k = gid.die then { s.die k with pool := pool (s.die k).pool, tokQ := (t.die k).tokQ } else s.die k

end Sys2Proof
end

