-- ==== Sys2Proof/Certificates/Slice0/Obligations.lean ====
section
/-! DEFINITION. The statements about the model, for the provers. -/

open Sys2Proof Sys2Proof.Machine

/-! Scalar integers (R184, R187 to R196) -/

/-- R187, but for `div` and `rem`: each register form computes its table entry from the old values of s(a) and s(b), writes
s(d), and changes nothing else but the pc. -/
def Obligations.ScalarArithmeticResults : Prop :=
  ∀ (s : State) (d a b : SReg) (n : Bool),
    let x := s.cur.sr a
    let y := s.cur.sr b
    WritesS (.add d a b) s d (fun v => v.toNat = (x.toNat + y.toNat) % 2 ^ 64) ∧
    WritesS (.sub d a b) s d (fun v => (v.toNat : Int) = ((x.toNat : Int) - y.toNat) % 2 ^ 64) ∧
    WritesS (.mul d a b) s d (fun v => v.toNat = x.toNat * y.toNat % 2 ^ 64) ∧
    WritesS (.mulh d a b true) s d (fun v => v.toNat = x.toNat * y.toNat / 2 ^ 64) ∧
    WritesS (.mulh d a b false) s d (fun v => v.toInt = x.toInt * y.toInt / 2 ^ 64) ∧
    WritesS (.and d a b) s d (fun v => ∀ i, v.getLsbD i = (x.getLsbD i && y.getLsbD i)) ∧
    WritesS (.or d a b) s d (fun v => ∀ i, v.getLsbD i = (x.getLsbD i || y.getLsbD i)) ∧
    WritesS (.xor d a b) s d (fun v => ∀ i, v.getLsbD i = (x.getLsbD i ^^ y.getLsbD i)) ∧
    WritesS (.shl d a b) s d (fun v => v.toNat = x.toNat * 2 ^ (y.toNat % 64) % 2 ^ 64) ∧
    WritesS (.shr d a b) s d (fun v => v.toNat = x.toNat / 2 ^ (y.toNat % 64)) ∧
    WritesS (.sra d a b) s d (fun v => v.toInt = x.toInt / 2 ^ (y.toNat % 64)) ∧
    WritesS (.min d a b n) s d (fun v => if n then v.toNat = min x.toNat y.toNat else v.toInt = min x.toInt y.toInt) ∧
    WritesS (.max d a b n) s d (fun v => if n then v.toNat = max x.toNat y.toNat else v.toInt = max x.toInt y.toInt)

/-- R188: quotient and remainder, truncated toward zero, with the division by zero and the one overflow. Neither faults. -/
def Obligations.ScalarDivision : Prop :=
  ∀ (s : State) (d a b : SReg) (n : Bool),
    let x := s.cur.sr a
    let y := s.cur.sr b
    WritesS (.div d a b n) s d (fun q =>
      (y = 0 → q = 0xFFFFFFFFFFFFFFFF) ∧
      (y ≠ 0 → n = true → q.toNat = x.toNat / y.toNat) ∧
      (y ≠ 0 → n = false → q = BitVec.ofInt 64 (x.toInt.tdiv y.toInt))) ∧
    WritesS (.rem d a b n) s d (fun r =>
      (y = 0 → r = x) ∧
      (y ≠ 0 → n = true → r.toNat = x.toNat % y.toNat) ∧
      (y ≠ 0 → n = false → r.toInt = x.toInt.tmod y.toInt))

/-- R189: the immediate forms with a sign-extended immediate or a shift of six bits. R190: `lim.set` and `lim.cat`; and the six-instruction build of any 64-bit constant that the rule describes ends with that
constant. -/
def Obligations.ScalarImmediateResults : Prop :=
  (∀ (s : State) (d a : SReg) (m : BitVec 12) (k : BitVec 6),
     let x := s.cur.sr a
     WritesS (.addi d a m) s d (fun v => (v.toNat : Int) = ((x.toNat : Int) + m.toInt) % 2 ^ 64) ∧
     WritesS (.muli d a m) s d (fun v => (v.toNat : Int) = ((x.toNat : Int) * m.toInt) % 2 ^ 64) ∧
     WritesS (.andi d a m) s d (fun v => ∀ i < 64, v.getLsbD i = (x.getLsbD i && m.getLsbD (min i 11))) ∧
     WritesS (.ori d a m) s d (fun v => ∀ i < 64, v.getLsbD i = (x.getLsbD i || m.getLsbD (min i 11))) ∧
     WritesS (.xori d a m) s d (fun v => ∀ i < 64, v.getLsbD i = (x.getLsbD i ^^ m.getLsbD (min i 11))) ∧
     WritesS (.shli d a k) s d (fun v => v.toNat = x.toNat * 2 ^ k.toNat % 2 ^ 64) ∧
     WritesS (.shri d a k) s d (fun v => v.toNat = x.toNat / 2 ^ k.toNat) ∧
     WritesS (.srai d a k) s d (fun v => v.toInt = x.toInt / 2 ^ k.toNat) ∧
     WritesS (.mini d a m) s d (fun v => v.toInt = min x.toInt m.toInt) ∧
     WritesS (.maxi d a m) s d (fun v => v.toInt = max x.toInt m.toInt)) ∧
  ((∀ (s : State) (d : SReg) (m : BitVec 12),
     WritesS (.limSet d m) s d (fun v => v.toInt = m.toInt) ∧
     WritesS (.limCat d m) s d (fun v => v.toNat = ((s.cur.sr d).toNat * 2 ^ 12 + m.toNat) % 2 ^ 64)) ∧
   ∀ (s : State) (d : SReg) (c : W64), ∃ m0 m1 m2 m3 m4 m5 : BitVec 12, ∃ s0 s1 s2 s3 s4 s5 : State,
     exec (.limSet d m0) s = .next s0 ∧ exec (.limCat d m1) s0 = .next s1 ∧ exec (.limCat d m2) s1 = .next s2 ∧
     exec (.limCat d m3) s2 = .next s3 ∧ exec (.limCat d m4) s3 = .next s4 ∧ exec (.limCat d m5) s4 = .next s5 ∧
     s5.cur.sr d = c ∧ ∀ r, r ≠ d → s5.cur.sr r = s.cur.sr r)

/-- R191 to R193: the eight conditions, the truth table and the select. -/
def Obligations.ComparesPredicatesAndSelect : Prop :=
  ∀ (s : State) (a b d : SReg) (m : BitVec 12) (p q r : BitVec 3) (t : BitVec 4) (neg : Bool),
    let x := s.cur.sr a
    let y := s.cur.sr b
    (WritesP (.cmp p a b .eq) s p (x == y) ∧ WritesP (.cmp p a b .ne) s p (!(x == y)) ∧
      WritesP (.cmp p a b .lt) s p (decide (x.toInt < y.toInt)) ∧ WritesP (.cmp p a b .ge) s p (decide (y.toInt ≤ x.toInt)) ∧
      WritesP (.cmp p a b .ltu) s p (decide (x.toNat < y.toNat)) ∧ WritesP (.cmp p a b .geu) s p (decide (y.toNat ≤ x.toNat)) ∧
      WritesP (.cmp p a b .le) s p (decide (x.toInt ≤ y.toInt)) ∧ WritesP (.cmp p a b .gt) s p (decide (y.toInt < x.toInt))) ∧
    (WritesP (.cmpi .eq p a m) s p (decide (x.toInt = m.toInt)) ∧ WritesP (.cmpi .ne p a m) s p (decide (x.toInt ≠ m.toInt)) ∧
      WritesP (.cmpi .lt p a m) s p (decide (x.toInt < m.toInt)) ∧ WritesP (.cmpi .ge p a m) s p (decide (m.toInt ≤ x.toInt)) ∧
      WritesP (.cmpi .ltu p a m) s p (decide (x.toNat < (m.signExtend 64).toNat)) ∧
      WritesP (.cmpi .geu p a m) s p (decide ((m.signExtend 64).toNat ≤ x.toNat)) ∧
      WritesP (.cmpi .le p a m) s p (decide (x.toInt ≤ m.toInt)) ∧ WritesP (.cmpi .gt p a m) s p (decide (m.toInt < x.toInt))) ∧
    WritesP (.plog p q r t) s p (t.getLsbD (2 * (if s.cur.sp.getLsbD q.toNat then 1 else 0) + (if s.cur.sp.getLsbD r.toNat then 1 else 0))) ∧
    WritesS (.sel d a b neg p) s d (fun v => v = if (s.cur.sp.getLsbD p.toNat ^^ neg) then x else y)

/-- R194, R195: bit fields, counts, reversal and the predicate file. A control word that names no field inside 64 bits, or
sets another bit, traps instead. -/
def Obligations.BitFieldResults : Prop :=
  ∀ (s : State) (d a b : SReg),
    let x := s.cur.sr a
    let pos := (s.cur.sr b).toNat % 64
    let len := (s.cur.sr b).toNat / 256 % 64 + 1
    ((s.cur.sr b).toNat / 2 ^ 14 = 0 → (s.cur.sr b).toNat / 64 % 4 = 0 → pos + len ≤ 64 →
      WritesS (.ext d a b false) s d (fun v => v.toNat = x.toNat / 2 ^ pos % 2 ^ len) ∧
      WritesS (.ext d a b true) s d (fun v => v.toInt = ((x.toNat / 2 ^ pos % 2 ^ len : Nat) : Int).bmod (2 ^ len)) ∧
      WritesS (.ins d a b) s d (fun v => ∀ i < 64,
        v.getLsbD i = if pos ≤ i ∧ i < pos + len then x.getLsbD (i - pos) else (s.cur.sr d).getLsbD i)) ∧
    ((s.cur.sr b).toNat / 2 ^ 14 ≠ 0 ∨ (s.cur.sr b).toNat / 64 % 4 ≠ 0 ∨ 64 < pos + len → TrapEnters s →
      TrapsS (.ext d a b false) s .operandRange ∧ TrapsS (.ext d a b true) s .operandRange ∧ TrapsS (.ins d a b) s .operandRange) ∧
    WritesS (.clz d a) s d (fun v => v.toNat ≤ 64 ∧ (∀ i < 64, 64 ≤ i + v.toNat → x.getLsbD i = false) ∧
      (v.toNat < 64 → x.getLsbD (63 - v.toNat) = true)) ∧
    WritesS (.popc d a) s d (fun v => v.toNat = ((List.range 64).filter (fun i => x.getLsbD i)).length) ∧
    WritesS (.brev d a) s d (fun v => ∀ i < 64, v.getLsbD i = x.getLsbD (63 - i)) ∧
    WritesS (.pget d) s d (fun v => v.toNat = s.cur.sp.toNat) ∧
    exec (.pset a) s = .next (s.setCur { s.cur with sp := x.setWidth 8, pc := s.cur.pc + 4 })

/-- The frame of the scalar instructions that only compute, compare or select: every scalar register and predicate but the
destination, everything else of the group but the pc, every other group, every special register, accumulator and exception
register, and every byte of memory is as before. -/
def Obligations.ScalarFrame : Prop :=
  ∀ (i : Instr) (ds : List SReg) (ps : List (BitVec 3)), plainDests i = some (ds, ps) → ∀ s t : State, exec i s = .next t →
    (∀ r, r ∉ ds → t.cur.sr r = s.cur.sr r) ∧ (∀ p, p ∉ ps → t.cur.spOf p = s.cur.spOf p) ∧
    t.cur = { s.cur with s := t.cur.s, sp := t.cur.sp, pc := t.cur.pc } ∧
    (∀ g : Gid, g ≠ s.curG → t.group g = s.group g) ∧ t = { s with groups := t.groups } ∧
    ∀ a, Sparse.get t.mem a = Sparse.get s.mem a

/-- R92 to R95: once the lane stream is idle, `mfc` reads each control register, 0 where none lies; `mtc` writes a view register
whole, and of a tile descriptor bits 43:0, clearing its binding's valid bit and keeping the tag and register fields.
R92 to R95, R101: what a move to a control register refuses, and the wait for the lane stream. -/
def Obligations.ControlRegisters : Prop :=
  (∀ (s : State) (d a : SReg) (f : BitVec 6), s.cur.laneIdle = true →
     let x := s.cur.sr a
     let r := s.cur.rg
     let put := fun (r' : RegSpace) => exec (.mtc a f) s = .next (s.setCur { s.cur with rg := r', pc := s.cur.pc + 4 })
     WritesS (.mfc d f) s d (fun v =>
       (f = 0 → v.toNat = r.declared.toNat + 2 ^ 32 * r.granules.toNat) ∧ (f = 1 → v = r.vview) ∧ (f = 2 → v = r.tview) ∧
       (f = 3 → v = r.aview) ∧ (∀ k : Fin 16, f.toNat = 16 + k.val → v = r.tdesc[k]) ∧
       (4 ≤ f.toNat → f.toNat < 16 ∨ 32 ≤ f.toNat → v = 0)) ∧
     (f = 1 → viewOk x false 1024 = true → put { r with vview := x }) ∧
     (f = 2 → viewOk x false 16 = true → put { r with tview := x }) ∧
     (f = 3 → viewOk x true 16 = true → put { r with aview := x }) ∧
     (∀ k : Fin 16, f.toNat = 16 + k.val → tdescOk x = true → ∃ v : W64, put { r with tdesc := r.tdesc.set k v } ∧
       v.extractLsb' 0 44 = x.extractLsb' 0 44 ∧ v.extractLsb' 46 17 = r.tdesc[k].extractLsb' 46 17 ∧ v.getLsbD 63 = false)) ∧
  (∀ (s : State) (d a : SReg) (f : BitVec 6),
     (TrapEnters s → s.cur.laneIdle = true →
       (f = 0 ∨ (4 ≤ f.toNat ∧ f.toNat < 16) ∨ 32 ≤ f.toNat ∨ (f = 1 ∧ viewOk (s.cur.sr a) false 1024 = false) ∨
         (f = 2 ∧ viewOk (s.cur.sr a) false 16 = false) ∨ (f = 3 ∧ viewOk (s.cur.sr a) true 16 = false) ∨
         (16 ≤ f.toNat ∧ f.toNat < 32 ∧ tdescOk (s.cur.sr a) = false)) → TrapsS (.mtc a f) s .descFormat) ∧
     (s.cur.laneIdle = false → 1 ≤ f.toNat → f.toNat < 4 ∨ 16 ≤ f.toNat → f.toNat < 32 → exec (.mtc a f) s = .next s.stalled) ∧
     (s.cur.laneIdle = false → 16 ≤ f.toNat → f.toNat < 32 → exec (.mfc d f) s = .next s.stalled))

/-! Scalar control flow (R156, R197 to R202, R205, R256) -/

/-- R156, R197, R198: branches, jumps and calls. Targets of `br`, `jmp` and `call` count words from the instruction itself; a
call leaves the address behind it.
R166, R169, R199: `lrun` and `lrunr` append the index to the lane run queue, and trap at or beyond the kernel's lane word count with
nothing appended; while the queue holds eight they wait, whatever the index (R307). -/
def Obligations.BranchesCallsAndLaneRuns : Prop :=
  (∀ (s : State) (neg : Bool) (p : BitVec 3) (off : BitVec 20) (d a : SReg),
    let pc := s.cur.pc
    let tgt := pc + BitVec.ofInt 64 (4 * off.toInt)
    exec (.br neg p off) s = .next (s.withPc (if (s.cur.sp.getLsbD p.toNat ^^ neg) then tgt else pc + 4)) ∧
    exec (.jmp off) s = .next (s.withPc tgt) ∧
    exec (.call off) s = .next (s.setCur { s.cur with s := s.cur.s.set 63 (pc + 4), pc := tgt }) ∧
    ((s.cur.sr a).toNat % 4 = 0 →
      exec (.jmpr a) s = .next (s.withPc (s.cur.sr a)) ∧
      exec (.callr d a) s = .next (s.setCur { s.cur with s := s.cur.s.set d.toNat (pc + 4) d.isLt, pc := s.cur.sr a })) ∧
    ((s.cur.sr a).toNat % 4 ≠ 0 → TrapEnters s → TrapsS (.jmpr a) s .pcAlign ∧ TrapsS (.callr d a) s .pcAlign)) ∧
  ∀ (s : State) (off : BitVec 20) (a : SReg),
    let go := fun (i : Instr) (w : BitVec 20) =>
      (w.toNat < s.cur.ln.lwords.toNat → s.cur.ln.runQ.length < 8 →
        exec i s = .next (s.setCur { s.cur with ln := { s.cur.ln with runQ := s.cur.ln.runQ ++ [w] }, pc := s.cur.pc + 4 })) ∧
      (s.cur.ln.lwords.toNat ≤ w.toNat → s.cur.ln.runQ.length < 8 → TrapEnters s → TrapsS i s .lrunRange)
    go (.lrun off) off ∧ ((s.cur.sr a).toNat < 2 ^ 20 → go (.lrunr a) ((s.cur.sr a).setWidth 20)) ∧
    (2 ^ 20 ≤ (s.cur.sr a).toNat → s.cur.ln.runQ.length < 8 → TrapEnters s → TrapsS (.lrunr a) s .lrunRange) ∧
    (8 ≤ s.cur.ln.runQ.length → exec (.lrun off) s = .next s.stalled ∧ exec (.lrunr a) s = .next s.stalled)

/-- R202, R205: `nop` and the fences only go on; `exit` ends the scalar stream and disarms its monitor; the group leaves its slot
by GROUP_EXIT once its lane stream is idle and no drain of it waits for the port, and not before.
A group that exits or is vacated is gone from its slot, and no other group is (R202, R330, R333). That a fence goes on at once is the
model's choice: its accesses are performed when they issue, so nothing is in flight that a fence waits for (log 2). -/
def Obligations.ExitFencesAndNop : Prop :=
  (∀ (s : State) (r : Order) (g : Gid),
     exec .nop s = .next (s.withPc (s.cur.pc + 4)) ∧ exec (.fenceMem r) s = .next (s.withPc (s.cur.pc + 4)) ∧
     exec .fencePt s = .next (s.withPc (s.cur.pc + 4)) ∧
     exec .exit s = .next (s.setCur { s.cur with st := .exiting, mon := none, fired := false, pc := s.cur.pc + 4 }) ∧
     ((s.group g).live = true → (s.group g).st = .exiting → (s.group g).laneIdle = true → (s.group g).h.halted = false →
       s.portBusy g = false → exec (.groupExit g) s = .next (s.exitGroup g)) ∧
     ((s.group g).st = .exiting → (s.group g).laneIdle = false ∨ s.portBusy g = true → exec (.groupExit g) s = .next s)) ∧
  (∀ (s : State) (gid : Gid),
     ((s.exitGroup gid).group gid).live = false ∧ ((s.vacateGroup gid).group gid).live = false ∧
     ∀ g : Gid, g ≠ gid → (s.exitGroup gid).group g = s.group g ∧ (s.vacateGroup gid).group g = s.group g)

/-! Yields, monitors and parks (R80, R83, R201, R223 to R226) -/

/-- R80, R201: a yield on a number already reached writes 0 and goes on; on one not reached the group begins to yield; a queue or
counter out of range traps. Afterwards YIELD_EFFECT and GROUP_REACTIVATE (R83): the yield takes effect once the lane stream is
idle, an idle array's token goes back, and the group runs again with the status in the named register. -/
def Obligations.YieldsAndReactivation : Prop :=
  (∀ (s : State) (d a b : SReg),
    let x := s.cur.sr a
    let y := s.cur.sr b
    let go := fun (i : Instr) (on : YieldOn) (done : W64) =>
      ((done - y).toNat < 2 ^ 63 → WritesS i s d (fun v => v = 0)) ∧
      (2 ^ 63 ≤ (done - y).toNat → exec i s =
        .next (s.setCur { s.cur with st := .yielding { on := on, d := d, cmd := false }, pc := s.cur.pc + 4 }))
    (x.toNat < 128 → go (.yieldQ d a b) (.queue (x.setWidth 7) y) (s.seqDone s.curG.die (x.setWidth 7))) ∧
    (x.toNat < 256 → go (.yieldCtr d a b) (.ctr (x.setWidth 8) y) (s.ctr s.curG.die (x.setWidth 8))) ∧
    (128 ≤ x.toNat → TrapEnters s → TrapsS (.yieldQ d a b) s .operandRange) ∧
    (256 ≤ x.toNat → TrapEnters s → TrapsS (.yieldCtr d a b) s .operandRange)) ∧
  (∀ (s : State) (g : Gid) (y : YieldRec), (s.group g).live = true →
    ((s.group g).st = .yielding y → (s.group g).laneIdle = true → ∃ t, exec (.yieldEffect g) s = .next t ∧
      t.group g = { s.group g with st := .yielded y } ∧
      (s.holds g = true → (s.mx g).mode ≠ .running → (t.mx g).token = false)) ∧
    (∀ st, (s.group g).st = .yielded y → yieldEnd s g.die y = some st → ∃ t, exec (.groupReactivate g) s = .next t ∧
      (t.group g).st = .running ∧ (t.group g).sr y.d = st.setWidth 64 ∧ (t.group g).pc = (s.group g).pc ∧
      (∀ r, st = 0 → y.res = some r → (t.group g).sr (y.d + 1) = r.1 ∧ (t.group g).sr (y.d + 2) = r.2) ∧
      t = s.setGroup g (t.group g)) ∧
    ((s.group g).st = .yielded y → yieldEnd s g.die y = none → exec (.groupReactivate g) s = .next s))

/-- R223, R225: `watch` reads and arms the monitor of the line; `park` begins to park; PARK_EFFECT counts the timeout from the
moment the lane stream is idle; in a handler both are illegal instructions. R225, R226: how a park ends. A fired monitor is
never lost: the park returns `written` whether the write came before it or after it, and a timeout does not hide it. A park ends
with another reason without its timeout elapsing only if no monitor is armed. Each return writes the reason to the park's
register, disarms the monitor, and changes nothing else of the group. The model's own: a timeout event puts the core's cycle
count at the timeout's end (log 5), and a restored park that names no monitor answers `restored` before `unarmed` (log 35). -/
def Obligations.MonitorsAndParks : Prop :=
  ((∀ (s : State) (d o : SReg) (w : BitVec 3) (z : Size) (r : Order) (a : Nat),
     s.cur.h.on = false → z ≠ .b128 → s.cur.replaying false = none →
     WindowHit s w ((s.cur.sr o).toNat % 2 ^ 32) (sizeBytes z) .read a → Readable s a (sizeBytes z) → inHbm a = true →
     exec (.watch d o w z r) s = .next (s.setCur { s.cur with
       s := s.cur.s.set d.toNat (BitVec.ofNat 64 (peek s.mem a (sizeBytes z))) d.isLt, pc := s.cur.pc + 4,
       mon := some (BitVec.ofNat 64 (a / 128 * 128)), fired := false, restored := false })) ∧
   (∀ (s : State) (d a : SReg), s.cur.h.on = false →
     exec (.park d a) s = .next (s.setCur { s.cur with st := .parking d (s.cur.sr a), pc := s.cur.pc + 4 })) ∧
   (∀ (s : State) (g : Gid) (d : SReg) (n : W64), (s.group g).live = true → (s.group g).st = .parking d n →
     (s.group g).laneIdle = true →
     exec (.parkEffect g) s = .next (s.setGroup g { s.group g with st := .parked d n (s.core g.core).cyc })) ∧
   (∀ (s : State) (i : Instr), ((∃ d o w z r, i = .watch d o w z r) ∨ (∃ d a, i = .park d a)) → s.cur.h.on = true →
     s.mxErrOf s.curG = none →
     ∃ r, r.extractLsb' 60 4 = 5#4 ∧ r.extractLsb' 52 8 = 0x10#8 ∧ exec i s = .next ((s.post s.cur.part [r]).exitGroup s.curG))) ∧
  (∀ (s : State) (g : Gid) (d : SReg) (n since : W64), (s.group g).live = true → (s.group g).st = .parked d n since →
     let x := s.group g
     let back := fun (v : W64) => { x with s := x.s.set d.toNat v d.isLt, st := .running, mon := none, fired := false, restored := false }
     (x.mon.isSome = true → x.fired = true →
       exec (.parkWake g) s = .next (s.setGroup g (back 0)) ∧
       (n ≠ 0 → ∃ t, exec (.parkTimeout g) s = .next t ∧ t.group g = back 0)) ∧
     (x.mon.isSome = true → x.fired = false →
       exec (.parkWake g) s = .next s ∧
       (n ≠ 0 → ∃ t, exec (.parkTimeout g) s = .next t ∧ t.group g = back 1 ∧ n.toNat ≤ ((t.core g.core).cyc - since).toNat)) ∧
     (x.mon = none → n = 0 ∨ ((s.core g.core).cyc - since).toNat < n.toNat →
       exec (.parkWake g) s = .next (s.setGroup g (back (if x.restored then 3 else 2)))) ∧
     (x.mon = none → n ≠ 0 → n.toNat ≤ ((s.core g.core).cyc - since).toNat →
       exec (.parkWake g) s = .next (s.setGroup g (back 1))))

/-! Traps and handlers (R316, R317, R326 to R329) -/

/-- R316, R326: what taking a trap leaves. The group runs system code at `tvec` with the partition's handler PASID and lane words;
s62 holds the state area's address and s63 the cause; every other scalar register, every predicate and the register space stay as
they are once issued results are written; windows are unset and the lane stream stands at rest; a held array freezes and its token
goes back. The area holds the pc to return to and the trap's record. A group that waits at an `invpg` completes it first: the TLBs of
its scope are as its completion leaves them, and the pc to return to is the next word. -/
def Obligations.TrapEntryState : Prop :=
  ∀ (s : State) (gid : Gid) (c : Cause) (r : BitVec 512) (pc : W64) (lpc : BitVec 20),
    let x := (s.group gid).settle
    let p := s.part (s.group gid).part
    let a := areaOf s gid (s.group gid).part
    let t := s.enterHandler gid c r pc lpc
    let y := t.group gid
    y.pc = p.tvec ∧ y.priv = true ∧ y.pasid = p.hpasid ∧ y.h.on = true ∧ y.h.cause = c.code ∧ y.st = .running ∧ y.wait = .none ∧
    y.sr 62 = BitVec.ofNat 64 a ∧ y.sr 63 = BitVec.ofNat 64 c.code.toNat ∧ (∀ q, q ≠ 62 → q ≠ 63 → y.sr q = x.sr q) ∧
    y.sp = (s.group gid).sp ∧ y.rg = x.rg ∧ y.q = x.q ∧ y.y = x.y ∧ y.win = Vector.replicate 8 {} ∧
    y.ln.lbase = p.tlbase ∧ y.ln.lwords = p.tlwords ∧ y.ln.runQ = [] ∧ y.ln.active = false ∧ y.ln.stack = [] ∧
    y.ln.run = BitVec.allOnes 64 ∧ y.ln.exited = 0 ∧ y.ln.remap = identityRemap (s.group gid).gidx ∧
    (s.holds gid = true → (t.mx gid).mode = .frozen ∧ (t.mx gid).token = false) ∧
    (∀ k, (t.core k).tlb = ((s.completeInvpg gid).core k).tlb) ∧
    t.read64 a = (match (s.group gid).wait with | .invpg .. => (s.group gid).pc + 4 | _ => pc) ∧ BitVec.ofNat 512 (peek t.mem (a + 0x80) 64) = r ∧ (t.read64 (a + 0x18)).getLsbD 63 = true ∧
    (t.read64 (a + 0x18)).getLsbD 62 = c.resumable

/-- R316, R328: `trap` completes and then traps with `user_trap`, its immediate in the record's code and the next word's address
saved; TRAP_ENTRY takes a trap that has reached the group, unless an error of its array comes first; ARRAY_FREEZE freezes the array of a holder that a trap or a halt has
reached, and its token goes back. -/
def Obligations.TrapInstructionAndEntry : Prop :=
  (∀ (s : State) (m : BitVec 12), TrapEnters s → ∃ r, RecordOf r .userTrap s.cur.pc ∧ r.extractLsb' 256 12 = m ∧
    exec (.trap m) s = .next (s.enterHandler s.curG .userTrap r (s.cur.pc + 4) s.cur.ln.lpc)) ∧
  (∀ (s : State) (g : Gid) (x : PendTrap), (s.group g).live = true → (s.group g).h.halted = false →
    (s.group g).h.on = false → s.isLogit (s.group g).part (s.group g).launch = false → (s.group g).st ≠ .exiting →
    (s.group g).h.pend = some x → s.mxErrOf g = none →
    exec (.trapEntry g) s = .next ((s.setGroup g { s.group g with h := { (s.group g).h with pend := none } }).enterHandler g x.cause
      x.record (s.group g).pc (s.group g).ln.lpc)) ∧
  (∀ (s : State) (g : Gid), s.holds g = true → ((s.group g).h.pend.isSome || (s.group g).h.halted) = true →
    ∃ t, exec (.arrayFreeze g.core) s = .next t ∧ (t.mx g).mode = .frozen ∧ (t.mx g).token = false ∧
      ((s.mx g).token = true → (t.die g.die).pool = (s.die g.die).pool + 1) ∧ t = { s with cores := t.cores, dies := t.dies })

/-- R317, R327, R328: the returns from a handler, once its lane blocks have finished. `resume` takes scalar registers, predicates, pc
and class from the image at s(sa), and the run state and the waits that the image gives: a running program runs, a park goes on with
the image's remainder, a yield with the image's queue or counter and number, a wait with its kind as the trap found it, a monitor with the image's line
unless the group was restored; and privilege and PASID from the launch; an image that is
not resumable, `vacate` without a pre-emption, and `end` all end the group; outside a handler every form traps. -/
def Obligations.HandlerReturns : Prop :=
  ∀ (s : State) (a : SReg),
    let v := (s.cur.sr a).toNat
    let f : Image := fun o n => peek s.mem (v + o) n
    let k := s.cur.h.kept
    (s.cur.h.on = true → s.cur.laneIdle = true → v % 4096 = 0 → inHbm v = true → s.bad v 0x6000 = false → imageValid f = true →
      (s.part s.cur.part).preReq = false → (word64 f 0x18).getLsbD 62 = true →
      ∃ t, exec (.hretResume a) s = .next t ∧ t.cur.pc = word64 f 0 ∧ (∀ r : SReg, t.cur.sr r = word64 f (0x500 + 8 * r.toNat)) ∧
        t.cur.sp = BitVec.ofNat 8 (f 0x858 1) ∧ t.cur.h.on = false ∧ t.cur.cls = (word64 f 0x18).extractLsb' 48 2 ∧
        ((word64 f 0x18).extractLsb' 57 2 = 0#2 → k.st = .running → t.cur.st = .running) ∧
        (∀ d n b, (word64 f 0x18).extractLsb' 57 2 = 1#2 → k.st = .parked d n b → (∀ y, s.blockAt s.cur = some y → y.budget = 0) →
          t.cur.st = .parked d (word64 f 0x30) k.since) ∧
        (∀ y q n, (word64 f 0x18).extractLsb' 57 2 = 2#2 → k.st = .yielded y → y.on = .queue q n →
          t.cur.st = .yielded { y with on := if (word64 f 0x38).getLsbD 8 then .ctr ((word64 f 0x38).extractLsb' 0 8) (word64 f 0x40)
                                             else .queue ((word64 f 0x38).extractLsb' 0 7) (word64 f 0x40) }) ∧
        ((word64 f 0x18).getLsbD 61 = false → t.cur.wait = .none) ∧
        ((word64 f 0x18).getLsbD 61 = true → (∀ b p, k.wait ≠ .bar b p) → t.cur.wait = k.wait) ∧ t.cur.ln.cwait = k.cwait ∧
        t.cur.mon = (if s.cur.restored = false ∧ (word64 f 0x18).getLsbD 56 = true then some (word64 f 0x48) else none) ∧
        (∀ l, s.launchOf s.cur.part s.cur.launch = some l → t.cur.priv = l.priv ∧ t.cur.pasid = l.record.extractLsb' 128 20) ∧
        t.mem = s.mem) ∧
    (s.cur.h.on = true → s.cur.laneIdle = true → v % 4096 = 0 → inHbm v = true → s.bad v 0x6000 = false → imageValid f = true →
      (word64 f 0x18).getLsbD 62 = false → exec (.hretResume a) s = .next (s.exitGroup s.curG)) ∧
    (s.cur.h.on = true → s.cur.laneIdle = true →
      exec (.hretEnd a) s = .next (s.exitGroup s.curG) ∧
      (s.cur.h.cause = 0x50 → exec (.hretVacate a) s = .next (s.vacateGroup s.curG)) ∧
      (s.cur.h.cause ≠ 0x50 → exec (.hretVacate a) s = .next (s.exitGroup s.curG))) ∧
    (TrapEnters s → TrapsS (.hretResume a) s .privInstr ∧ TrapsS (.hretVacate a) s .privInstr ∧ TrapsS (.hretEnd a) s .privInstr) ∧
    (s.cur.h.on = true → s.cur.laneIdle = false →
      exec (.hretResume a) s = .next s.stalled ∧ exec (.hretVacate a) s = .next s.stalled ∧ exec (.hretEnd a) s = .next s.stalled)

/-! Lane arithmetic (R111 to R127, R227 to R248) -/

/-- R120, R121, R239, R243: a rounding gives the grid point that its mode names: within half a step with ties to even, toward zero,
down, up, or one of the two neighbours by the hash; an exact grid point is itself in every mode. A value beyond an integer type clamps
to its nearest end, a value inside it is itself; a NaN converts to 0. -/
def Obligations.RoundingAndClamping : Prop :=
  (∀ (c : RndCtx) (m e ge : Int) (d : Nat), ge = e + d →
     let k := roundGrid c m e ge
     let low := m / 2 ^ d
     (m % 2 ^ d = 0 → k * 2 ^ d = m) ∧
     (m % 2 ^ d ≠ 0 → k = low ∨ k = low + 1) ∧
     (c.rnd = .rn → 2 * (k * 2 ^ d - m).natAbs ≤ 2 ^ d ∧ (2 * (k * 2 ^ d - m).natAbs = 2 ^ d → k % 2 = 0)) ∧
     (c.rnd = .rz → (k * 2 ^ d).natAbs ≤ m.natAbs) ∧ (c.rnd = .rd → k * 2 ^ d ≤ m) ∧ (c.rnd = .ru → m ≤ k * 2 ^ d) ∧
     (c.rnd = .rs → m % 2 ^ d ≠ 0 →
       (k = low + 1 ↔ ((zhash64 c.seed c.key).toNat % 2 ^ 32 : Int) < m % 2 ^ d * 2 ^ 32 / 2 ^ d))) ∧
  (∀ (c : RndCtx) (ty : LTy) (z : Int), fmtOf ty = none →
     (roundFmt c ty .nan = 0) ∧
     (∀ lo hi : Int, lo = (if ty.signed then -(2 ^ (ty.width - 1)) else 0) →
       hi = (if ty.signed then 2 ^ (ty.width - 1) - 1 else 2 ^ ty.width - 1) →
       (lo ≤ z → z ≤ hi → clampInt ty z = z) ∧ (z < lo → clampInt ty z = lo) ∧ (hi < z → clampInt ty z = hi) ∧
       roundFmt c ty (.inf true) = (lo % 2 ^ ty.width).toNat ∧ roundFmt c ty (.inf false) = hi.toNat))

/-- R232, R234, R235: the FP32 lane instructions compute in each executing thread the one rounding of the exact result, and compare and
select; each completes whenever its operands are in their views and no queue holds it back, and changes nothing else. -/
def Obligations.LaneFloatResults : Prop :=
  ∀ (h : LHdr) (d a b c : Opnd) (r : Rnd) (sat neg : Bool) (p pd : BitVec 3) (k : FCond),
    let out := fun (g : Group) (seed : W64) (j : Nat) (v : FVal) => (roundArith (g.laneRnd seed r sat j 0) .f32 v % 2 ^ 32, false)
    let v := fun (l : List Nat) (n : Nat) => elVal .f32 l n 0
    let o2 : LaneOp := { h := h, d := d, src := [(a, 1), (b, 1)], rs := r == .rs }
    let p2 : LaneOp := { h := h, d := d, src := [(a, 1), (b, 1)] }
    let p1 : LaneOp := { h := h, d := d, src := [(a, 1)] }
    let quiet := fun (x : Nat) => if (decodeElem .f32 0 x).isNan then 0x7FC00000 else x
    LaneDoes (.fadd h d a b r sat) o2 (fun g seed j l => out g seed j (FVal.add (r == .rd) (v l 0) (v l 1))) ∧
    LaneDoes (.fsub h d a b r sat) o2 (fun g seed j l => out g seed j (FVal.add (r == .rd) (v l 0) (v l 1).neg)) ∧
    LaneDoes (.fmul h d a b r sat) o2 (fun g seed j l => out g seed j (FVal.mul (v l 0) (v l 1))) ∧
    LaneDoes (.ffma h d a b c r sat) { o2 with src := [(a, 1), (b, 1), (c, 1)] }
      (fun g seed j l => out g seed j (FVal.add (r == .rd) (FVal.mul (v l 0) (v l 1)) (v l 2))) ∧
    LaneDoes (.fabs h d a) p1 (fun _ _ _ l => (quiet (elNat 32 l 0 0 % 2 ^ 31), false)) ∧
    LaneDoes (.fneg h d a) p1 (fun _ _ _ l => (quiet ((elNat 32 l 0 0 + 2 ^ 31) % 2 ^ 32), false)) ∧
    LaneDoes (.fcmp h d a b k pd) { p2 with pd := some pd } (fun _ _ _ l =>
      let t := fcondHolds k (decodeElem .f32 0 (l.getD 0 0)) (decodeElem .f32 0 (l.getD 1 0))
      (if t then 0xFFFFFFFF else 0, t)) ∧
    LaneDoes (.fsel h d a b neg p) p2 (fun g _ j l => (quiet (if ((g.pr p).getLsbD j ^^ neg) then l.getD 0 0 else l.getD 1 0), false))

/-- R233: `fmin` and `fmax` give the lesser or the greater of the two, -0 below +0; the other one where one is a NaN; the canonical NaN
where both are. Of two codes that are no NaN the lesser is the one with the lesser sign and magnitude; its bits are returned as they are. -/
def Obligations.FloatMinAndMax : Prop :=
  ∀ (h : LHdr) (d a b : Opnd),
    let o : LaneOp := { h := h, d := d, src := [(a, 1), (b, 1)] }
    let isNaN := fun (x : Nat) => decide (0x7F800000 < x % 2 ^ 31)
    let key := fun (x : Nat) => if 2 ^ 31 ≤ x then 2 ^ 31 - 1 - (x : Int) else (x : Int)
    let pick := fun (better : Nat → Nat → Bool) (l : List Nat) =>
      let x := elNat 32 l 0 0
      let y := elNat 32 l 1 0
      if isNaN x && isNaN y then 0x7FC00000 else if isNaN x then y else if isNaN y then x else if better x y then x else y
    LaneDoes (.fmin h d a b) o (fun _ _ _ l => (pick (fun x y => decide (key x ≤ key y)) l, false)) ∧
    LaneDoes (.fmax h d a b) o (fun _ _ _ l => (pick (fun x y => decide (key y ≤ key x)) l, false))

/-- R236, R237: the packed forms compute each 16-bit half on its own, in FP16 or BF16; `hcmp` writes a predicate of the low half, of
both, or of either. -/
def Obligations.LanePackedResults : Prop :=
  ∀ (h : LHdr) (d a b c : Opnd) (r : Rnd) (sat bf pw : Bool) (pd : BitVec 3) (k : FCond) (sl : HSel),
    let ty : LTy := if bf then .bf16 else .f16
    let out := fun (g : Group) (seed : W64) (j : Nat) (v : Nat → FVal) =>
      (roundArith (g.laneRnd seed r sat j 0) ty (v 0) % 2 ^ 16 + roundArith (g.laneRnd seed r sat j 1) ty (v 1) % 2 ^ 16 * 2 ^ 16, false)
    let v := fun (l : List Nat) (n e : Nat) => elVal ty l n e
    let two := fun (f : Nat → Nat) => f 0 % 2 ^ 16 + f 1 % 2 ^ 16 * 2 ^ 16
    let o2 : LaneOp := { h := h, d := d, src := [(a, 1), (b, 1)], rs := r == .rs }
    let p2 : LaneOp := { h := h, d := d, src := [(a, 1), (b, 1)] }
    LaneDoes (.hadd h d a b r sat bf) o2 (fun g seed j l => out g seed j (fun e => FVal.add (r == .rd) (v l 0 e) (v l 1 e))) ∧
    LaneDoes (.hsub h d a b r sat bf) o2 (fun g seed j l => out g seed j (fun e => FVal.add (r == .rd) (v l 0 e) (v l 1 e).neg)) ∧
    LaneDoes (.hmul h d a b r sat bf) o2 (fun g seed j l => out g seed j (fun e => FVal.mul (v l 0 e) (v l 1 e))) ∧
    LaneDoes (.hfma h d a b c r sat bf) { o2 with src := [(a, 1), (b, 1), (c, 1)] }
      (fun g seed j l => out g seed j (fun e => FVal.add (r == .rd) (FVal.mul (v l 0 e) (v l 1 e)) (v l 2 e))) ∧
    LaneDoes (.hmin h d a b bf) p2 (fun _ _ _ l => (two (fun e => minMaxBits ty false (elNat 16 l 0 e) (elNat 16 l 1 e)), false)) ∧
    LaneDoes (.hmax h d a b bf) p2 (fun _ _ _ l => (two (fun e => minMaxBits ty true (elNat 16 l 0 e) (elNat 16 l 1 e)), false)) ∧
    LaneDoes (.hcmp h d a b k sl pw pd bf) { p2 with pd := if pw then some pd else none } (fun _ _ _ l =>
      let t := fun e => fcondHolds k (v l 0 e) (v l 1 e)
      (two (fun e => if t e then 0xFFFF else 0), match sl with | .lo => t 0 | .all => t 0 && t 1 | .any => t 0 || t 1))

/-- R238, R239, R241: the lane integer instructions work on each element, modulo 2^w or clamped under `.sat`. -/
def Obligations.LaneIntegerResults : Prop :=
  ∀ (h : LHdr) (d a b c : Opnd) (ty : LTy) (sat neg : Bool) (p pd : BitVec 3) (k : Cond),
    let n := if ty.is64 then 2 else 1
    let z := fun (l : List Nat) (i e : Nat) => elInt ty l i e
    let o2 : LaneOp := { h := h, d := d, dn := n, src := [(a, n), (b, n)] }
    let sum := fun (x : Int) => if sat then clampInt ty x else x
    LaneDoes (.iadd h d a b ty sat) o2 (fun _ _ _ l => (packInts ty (fun e => sum (z l 0 e + z l 1 e)), false)) ∧
    LaneDoes (.isub h d a b ty sat) o2 (fun _ _ _ l => (packInts ty (fun e => sum (z l 0 e - z l 1 e)), false)) ∧
    LaneDoes (.imul h d a b ty) o2 (fun _ _ _ l => (packInts ty (fun e => z l 0 e * z l 1 e), false)) ∧
    LaneDoes (.imulh h d a b ty) o2 (fun _ _ _ l => (packInts ty (fun e => z l 0 e * z l 1 e / 2 ^ ty.width), false)) ∧
    LaneDoes (.imad h d a b c ty) { o2 with src := [(a, n), (b, n), (c, n)] }
      (fun _ _ _ l => (packInts ty (fun e => z l 0 e * z l 1 e + z l 2 e), false)) ∧
    LaneDoes (.imin h d a b ty) o2 (fun _ _ _ l => (packInts ty (fun e => min (z l 0 e) (z l 1 e)), false)) ∧
    LaneDoes (.imax h d a b ty) o2 (fun _ _ _ l => (packInts ty (fun e => max (z l 0 e) (z l 1 e)), false)) ∧
    LaneDoes (.icmp h d a b ty k pd) { o2 with dn := 1, pd := some pd } (fun _ _ _ l =>
      let x := if ty.signed then (BitVec.ofNat ty.width (l.getD 0 0)).toInt else (BitVec.ofNat ty.width (l.getD 0 0)).toNat
      let y := if ty.signed then (BitVec.ofNat ty.width (l.getD 1 0)).toInt else (BitVec.ofNat ty.width (l.getD 1 0)).toNat
      let t := match k with
        | .eq => decide (x = y) | .ne => decide (x ≠ y) | .lt => decide (x < y) | .ge => decide (y ≤ x) | .le => decide (x ≤ y)
        | .gt => decide (y < x)
        | .ltu => decide ((BitVec.ofNat ty.width (l.getD 0 0)).toNat < (BitVec.ofNat ty.width (l.getD 1 0)).toNat)
        | .geu => decide ((BitVec.ofNat ty.width (l.getD 1 0)).toNat ≤ (BitVec.ofNat ty.width (l.getD 0 0)).toNat)
      (if t then 0xFFFFFFFF else 0, t)) ∧
    ∀ w : Bool,
      let m := if w then 2 else 1
      LaneDoes (.isel h d a b w neg p) { h := h, d := d, dn := m, src := [(a, m), (b, m)] }
        (fun g _ j l => (if ((g.pr p).getLsbD j ^^ neg) then l.getD 0 0 else l.getD 1 0, false))

/-- R238, R240: logic, shifts, counts and bit fields of lane registers, of 32 or 64 bits. -/
def Obligations.LaneBitResults : Prop :=
  ∀ (h : LHdr) (d a b c : Opnd) (w : Bool) (ty : LTy),
    let n := if w then 2 else 1
    let m := if ty.is64 then 2 else 1
    let bits := if w then 64 else 32
    let o2 : LaneOp := { h := h, d := d, dn := n, src := [(a, n), (b, n)] }
    let sh : LaneOp := { h := h, d := d, dn := n, src := [(a, n), (b, 1)] }
    let x := fun (l : List Nat) => l.getD 0 0
    let y := fun (l : List Nat) => l.getD 1 0
    let len := fun (width ctl : Nat) => min (ctl % 64 + (ctl / 256 % 64 + 1)) width - ctl % 64
    LaneDoes (.iand h d a b w) o2 (fun _ _ _ l => (x l &&& y l, false)) ∧
    LaneDoes (.ior h d a b w) o2 (fun _ _ _ l => (x l ||| y l, false)) ∧
    LaneDoes (.ixor h d a b w) o2 (fun _ _ _ l => (x l ^^^ y l, false)) ∧
    LaneDoes (.ishl h d a b w) sh (fun _ _ _ l => (x l * 2 ^ (y l % bits) % 2 ^ bits, false)) ∧
    LaneDoes (.ishr h d a b w) sh (fun _ _ _ l => (x l / 2 ^ (y l % bits), false)) ∧
    LaneDoes (.isra h d a b w) sh (fun _ _ _ l => (((BitVec.ofNat bits (x l)).toInt / 2 ^ (y l % bits) % 2 ^ bits).toNat, false)) ∧
    LaneDoes (.lanePopc h d a w) { h := h, d := d, src := [(a, n)] }
      (fun _ _ _ l => (((List.range bits).filter (fun i => (x l).testBit i)).length, false)) ∧
    LaneDoes (.laneClz h d a w) { h := h, d := d, src := [(a, n)] }
      (fun _ _ _ l => (bits - ((List.range bits).find? (fun i => x l % 2 ^ bits / 2 ^ i = 0)).getD bits, false)) ∧
    LaneDoes (.bfe h d a b ty) { h := h, d := d, dn := m, src := [(a, m), (b, 1)] } (fun _ _ _ l =>
      let k := len ty.width (y l)
      let f := x l / 2 ^ (y l % 64) % 2 ^ k
      (if ty.signed then ((f : Int).bmod (2 ^ k) % 2 ^ ty.width).toNat else f, false)) ∧
    LaneDoes (.bfi h d a b c w) { h := h, d := d, dn := n, src := [(a, n), (b, 1), (c, n)] } (fun _ _ _ l =>
      let p := y l % 64
      let k := len bits (y l)
      (l.getD 2 0 % 2 ^ p + x l % 2 ^ k * 2 ^ p + l.getD 2 0 / 2 ^ (p + k) * 2 ^ (p + k), false))

/-- R245, R258 to R263: moves, permutes, shuffles, votes, predicate logic, raw packing. A `mov` into a tile or an accumulator writes
the bytes 4j to 4j + 3 of its range for thread j, and with 64 bits those 256 further on, as far as the range goes. -/
def Obligations.LaneMoveResults : Prop :=
  ∀ (h : LHdr) (d a b : Opnd) (w neg pw : Bool) (imm : W32) (ty : LTy) (pa pb pd : BitVec 3) (tab : BitVec 4) (k : BitVec 3)
      (pm : PermMode) (sm : ShflMode) (vk : VoteKind),
    let n := if w then 2 else 1
    LaneDoes (.movi h d imm ty) { h := h, d := d, src := [] } (fun _ _ _ _ => (imm.toNat, false)) ∧
    LaneDoes (.mov h d a b w .dir) { h := h, d := d, dn := n, src := [(a, n)] } (fun _ _ _ l => (l.getD 0 0, false)) ∧
    LaneDoes (.lanePlog h pd pa pb tab) { h := h, d := .zero, src := [], pd := some pd } (fun g _ j _ =>
      (0, tab.getLsbD (2 * (if (g.pr pa).getLsbD j then 1 else 0) + (if (g.pr pb).getLsbD j then 1 else 0)))) ∧
    LaneDoes (.pack h d a b ty k) { h := h, d := d, src := [(a, 1), (b, 1)] } (fun _ _ _ l =>
      (packNat ty.width (fun i => if i = k.toNat then l.getD 0 0 else elNat ty.width l 1 i) (32 / ty.width), false)) ∧
    LaneDoes (.unpack h d a ty k) { h := h, d := d, src := [(a, 1)] } (fun _ _ _ l => (elNat ty.width l 0 k.toNat, false)) ∧
    LaneDoes (.perm h d a b pm) { h := h, d := d, src := [(a, 1), (b, 4)] } (fun _ _ _ l =>
      (packNat 8 (fun i => let x := elNat 8 l 0 i
        match pm with
        | .lo => elNat 8 l 1 (x % 16) | .hi => elNat 8 l 1 (x / 16) | .x => if 128 ≤ x then 0 else elNat 8 l 1 (x % 16)) 4, false)) ∧
    LaneDoes (.shfl h d a b w sm pw pd) { h := h, d := d, dn := n, src := [(a, n), (b, 1)], pd := if pw then some pd else none }
      (fun g _ j l =>
        let u := g.ln.vl j
        let c := l.getD 1 0 % 1024
        let from' : Option Nat := (match sm with
          | .idx => some c | .up => if c ≤ u then some (u - c) else none
          | .down => if u + c ≤ 1023 then some (u + c) else none | .xor => some (u ^^^ c)).bind (fun v =>
            (List.range 64).find? (fun i => g.ln.act.getLsbD i && (g.ln.remap.getD i 0).getLsbD 10 && g.ln.vl i == v))
        match from' with | some i => (g.srcVal a n i, false) | none => (l.getD 0 0, true)) ∧
    LaneDoes (.vote h d vk neg pa pd)
      { h := h, d := d, dn := if vk = .ballot then 2 else 1, src := [], pd := if vk = .all ∨ vk = .any then some pd else none }
      (fun g _ _ _ =>
        let members := g.ln.act &&& g.guardMask h
        let yes := members &&& (if neg then ~~~(g.pr pa) else g.pr pa)
        match vk with
        | .all => (if yes = members then 0xFFFFFFFF else 0, yes == members)
        | .any => (if yes ≠ 0 then 0xFFFFFFFF else 0, yes != 0)
        | .ballot => (yes.toNat, false)
        | .count => (((List.range 64).filter (fun i => yes.getLsbD i)).length, false))

/-- R258: the indexed moves. `rdx` reads in each thread the register that the thread's control word selects; `wrx` writes the thread's
word of the register that it selects, and no other word of register space. -/
def Obligations.LaneIndexedMoves : Prop :=
  ∀ (s : State) (h : LHdr) (d b : Opnd) (v : BitVec 10) (w : Bool), h.never = false →
    let n := if w then 2 else 1
    let g := s.cur.settle
    let x := g.sel h
    let idx := fun (j : Nat) => v.toNat + g.srcVal b 1 j % 1024
    (∀ j, j < 64 → x.exec.getLsbD j = true → ∀ k, k < n → g.rg.vecIn (idx j + k) = true) →
    (g.laneStop [(d, n)] [(b, 1)] [2] = none → idxEcc g h v b n = false →
      LaneResult (.mov h d (.vec v) b w .rdx) { h := h, d := d, dn := n, src := [(b, 1)] }
        (fun g _ j l => (g.srcVal (.vec (BitVec.ofNat 10 (v.toNat + l.getD 0 0 % 1024))) n j, false)) s) ∧
    (g.laneStop [] [(d, n), (b, 1)] [1, 2] = none → ∃ t, exec (.mov h (.vec v) d b w .wrx) s = .next t ∧
      (∀ j, j < 64 → x.write.getLsbD j = true → ∀ k, k < n →
        vword (t.cur.rg.row (g.rg.vrow (idx (x.from h.uni j) + k))) j =
          BitVec.ofNat 32 (g.srcVal d n (x.from h.uni j) / 2 ^ (32 * k))) ∧
      (∀ j r, j < 64 → (x.write.getLsbD j = true → ∀ k, k < n → r ≠ g.rg.vrow (idx (x.from h.uni j) + k)) →
        vword (t.cur.rg.row r) j = vword (g.rg.row r) j) ∧
      (∀ q : BitVec 3, t.cur.q.getD q.toNat [] = (g.q.getD q.toNat []).drop (popsOf [(d, n), (b, 1)] q)) ∧
      (∀ y ∈ t.cur.rg.bad, y ∈ g.rg.bad) ∧
      t = s.setCur { g with rg := { g.rg with rows := t.cur.rg.rows, bad := t.cur.rg.bad }, q := t.cur.q,
                            ln := { g.ln with lpc := g.ln.lpc + 1, p := t.cur.ln.p } })

/-- R127, R242 to R244, R246 to R248: a conversion and a special function compute at issue and wait in their queue;
QUEUED_RESULT_WRITE writes the oldest result of a queue to its register, or pushes it to its result queue, and nothing else. `cvts` reads
a scale register that has no uncorrectable word (R335). The special functions round a value that is the exact one, or that lies with it
between the same two neighbours far below the last bit kept: stated here for `rcp`, `sqrt`, `rsq`, for the table of R127, and for `exp2` and
`log2` where they are exact; for the other arguments of these two the statement names the model's own series (log 9). -/
def Obligations.QueuedResults : Prop :=
  (∀ (h : LHdr) (d a b c : Opnd) (r : Rnd) (sat : Bool) (ty ty2 : LTy) (sl dl k : BitVec 3) (e : BitVec 5),
    let tn := if ty.is64 then 2 else 1
    let t2 := if ty2.is64 then 2 else 1
    let n := cvtN ty ty2
    let one : LaneOp := { h := h, d := d, src := [(a, 1)] }
    let sfu := fun (f : FVal → FVal) (l : List Nat) => (roundArith { rnd := r } .f32 (f (decodeElem .f32 0 (l.getD 0 0))), false)
    LaneQueues true (.cvt h d a b r sat ty ty2 sl dl)
      { h := h, d := d, dn := tn, src := [(a, t2), (b, tn)], rs := r == .rs } (fun g seed j l =>
        (packNat ty.width (fun i => if dl.toNat * n ≤ i ∧ i < dl.toNat * n + n
          then roundFmt (g.laneRnd seed r (sat && ty != ty2) j i) ty (decodeElem ty2 0 (elNat ty2.width l 0 (sl.toNat * n + (i - dl.toNat * n))))
          else elNat ty.width l 1 i) ty.perWord, false)) ∧
    LaneQueues true (.cvts h d a b c r sat ty ty2 e k)
      { h := h, d := d, src := [(a, 1), (b, 1), (c, 1)], rs := r == .rs } (fun g seed j l =>
        let x := (g.rg.e.getD e.toNat 0).extractLsb' (16 * (l.getD 2 0 % 32)) 16
        let ex := (x.extractLsb' 0 8).toNat
        let lo := if ty.narrow then k.toNat * n else 0
        let from' := if ty.narrow then 0 else k.toNat * n
        (packNat ty.width (fun i => if lo ≤ i ∧ i < lo + n
          then roundFmt (g.laneRnd seed r sat j i) ty (if ex = 0xFF then .nan else
            (decodeElem ty2 (x.extractLsb' 8 6).toInt (elNat ty2.width l 0 (from' + (i - lo)))).scale
              (if ty.narrow then 127 - (ex : Int) else (ex : Int) - 127))
          else elNat ty.width l 1 i) ty.perWord, false)) (fun g => g.rg.ebad.getLsbD e.toNat = false) ∧
    LaneQueues true (.fxcvt h d a r) { h := h, d := d, src := [(a, 4)], rs := r == .rs } (fun g seed j l =>
      (roundFmt (g.laneRnd seed r false j 0) .f32 (mkVal (BitVec.ofNat 128 (l.getD 0 0)).toInt (-64)), false)) ∧
    LaneQueues false (.rcp h d a r) one (fun _ _ _ l => sfu rcpVal l) ∧ LaneQueues false (.rsq h d a r) one (fun _ _ _ l => sfu rsqVal l) ∧
    LaneQueues false (.sqrt h d a r) one (fun _ _ _ l => sfu sqrtVal l) ∧
    LaneQueues false (.exp2 h d a r) one (fun _ _ _ l => sfu exp2Val l) ∧
    LaneQueues false (.log2 h d a r) one (fun _ _ _ l => sfu log2Val l)) ∧
  (∀ (s : State) (g : Gid) (conv : Bool) (x : Queued) (rest : List Queued) (v : BitVec 10),
    (if conv then (s.group g).ln.cvtQ else (s.group g).ln.sfuQ) = x :: rest → x.d = .vec v →
    ∃ t, exec (.queuedResultWrite g conv) s = .next t ∧
      (∀ j, j < 64 → vword ((t.group g).rg.row ((s.group g).rg.vrow v.toNat)) j =
        if x.mask.getLsbD j then vword x.lo j else vword ((s.group g).rg.row ((s.group g).rg.vrow v.toNat)) j) ∧
      (x.w64 = true → ∀ j, j < 64 → vword ((t.group g).rg.row ((s.group g).rg.vrow (v.toNat + 1))) j =
        if x.mask.getLsbD j then vword x.hi j else vword ((s.group g).rg.row ((s.group g).rg.vrow (v.toNat + 1))) j) ∧
      (∀ r, r ≠ (s.group g).rg.vrow v.toNat → (x.w64 = true → r ≠ (s.group g).rg.vrow (v.toNat + 1)) →
        (t.group g).rg.row r = (s.group g).rg.row r) ∧
      (∀ y ∈ (t.group g).rg.bad, y ∈ (s.group g).rg.bad) ∧
      t = s.setGroup g { s.group g with
        rg := { (s.group g).rg with rows := (t.group g).rg.rows, bad := (t.group g).rg.bad }, ln := { (s.group g).ln with
          cvtQ := if conv then rest else (s.group g).ln.cvtQ, sfuQ := if conv then (s.group g).ln.sfuQ else rest } }) ∧
  (∀ (s : State) (g : Gid) (conv : Bool) (x : Queued) (rest : List Queued),
    (if conv then (s.group g).ln.cvtQ else (s.group g).ln.sfuQ) = x :: rest → (∀ v, x.d ≠ .vec v) →
    let full := fun (i : BitVec 2) => 16 ≤ ((s.group g).y.getD i.toNat []).length
    ∃ t, exec (.queuedResultWrite g conv) s = .next t ∧
      (∀ i : BitVec 2, (pushOf x.d = some i → ¬ full i → (t.group g).y.getD i.toNat [] =
          (s.group g).y.getD i.toNat [] ++ [vword x.hi 0 ++ vword x.lo 0]) ∧
        (pushOf x.d ≠ some i ∨ full i → (t.group g).y.getD i.toNat [] = (s.group g).y.getD i.toNat [])) ∧
      (∀ i p, x.d = .yp i p → p ≠ 7 → (full i → (t.group g).pr p = 0) ∧ (¬ full i → (t.group g).pr p = BitVec.allOnes 64)) ∧
      (∀ p, x.d.names p = false → (t.group g).pr p = (s.group g).pr p) ∧
      t = s.setGroup g { s.group g with y := (t.group g).y, ln := { (s.group g).ln with
          p := (t.group g).ln.p, cvtQ := if conv then rest else (s.group g).ln.cvtQ, sfuQ := if conv then (s.group g).ln.sfuQ else rest } }) ∧
  -- the exact cases of R127
  (∀ n : Bool, rcpVal (.zero n) = .inf n ∧ rcpVal (.inf n) = .zero n ∧ rsqVal (.zero n) = .inf n ∧ sqrtVal (.zero n) = .zero n ∧
    exp2Val (.zero n) = .fin 1 0 ∧ log2Val (.zero n) = .inf true) ∧
  (rsqVal (.inf false) = .zero false ∧ sqrtVal (.inf false) = .inf false ∧ exp2Val (.inf false) = .inf false ∧
    log2Val (.inf false) = .inf false ∧ exp2Val (.inf true) = .zero false ∧ ∀ f ∈ [rsqVal, sqrtVal, log2Val], f (.inf true) = .nan) ∧
  (∀ f ∈ [rcpVal, rsqVal, sqrtVal, exp2Val, log2Val], f .nan = .nan) ∧
  (∀ (m e : Int), m < 0 → ∀ f ∈ [rsqVal, sqrtVal, log2Val], f (.fin m e) = .nan) ∧
  -- finite arguments: z is even where the value is exact, else the exact value lies strictly between z - 1 and z + 1
  (∀ (m e : Int), m ≠ 0 → m.natAbs < 2 ^ 24 → ∃ (z : Int) (k : Nat), rcpVal (.fin m e) = .fin z (-e - k) ∧ (z < 0 ↔ m < 0) ∧
    2 ^ 64 ≤ z.natAbs ∧ (z % 2 = 0 → z.natAbs * m.natAbs = 2 ^ k) ∧
    (z % 2 ≠ 0 → (z.natAbs - 1) * m.natAbs < 2 ^ k ∧ 2 ^ k < (z.natAbs + 1) * m.natAbs)) ∧
  (∀ (m : Nat) (e : Int), 0 < m → m < 2 ^ 24 →
    (∃ (z k : Nat) (f : Int), sqrtVal (.fin m e) = .fin z f ∧ e = 2 * f + k ∧ 2 ^ 64 ≤ z ∧ (z % 2 = 0 → z * z = m * 2 ^ k) ∧
      (z % 2 ≠ 0 → (z - 1) * (z - 1) < m * 2 ^ k ∧ m * 2 ^ k < (z + 1) * (z + 1))) ∧
    ∃ (z k : Nat) (f : Int), rsqVal (.fin m e) = .fin z f ∧ e + 2 * f = -k ∧ 2 ^ 64 ≤ z ∧ (z % 2 = 0 → z * z * m = 2 ^ k) ∧
      (z % 2 ≠ 0 → (z - 1) * (z - 1) * m < 2 ^ k ∧ 2 ^ k < (z + 1) * (z + 1) * m)) ∧
  (∀ (n : Int) (k : Nat), n ≠ 0 → n.natAbs < 512 → exp2Val (.fin (n * 2 ^ k) (-k)) = .fin 1 n ∧
    ∀ m : Int, n = m * 2 ^ k → exp2Val (.fin m k) = .fin 1 n) ∧
  (∀ (l : Nat) (e : Int), log2Val (.fin (2 ^ l) e) = mkVal (l + e) 0)

/-! Lane control, regions (R256, R264 to R273) -/

/-- R256, R264 to R268: what each control instruction of the lane stream does once what was issued is written; the guard `!p7`
makes it do nothing. Of `lexit`: the last executing threads give way to the uppermost entry of the stack that still holds a thread; with
none the block ends, or inside a region the group's next part begins (log 18). -/
def Obligations.LaneControl : Prop :=
  ∀ (s : State) (h : LHdr) (imm : W32) (r : Order),
    let go := fun (i : Instr) (l : Lane) => exec i s = .next (s.setCur { s.cur.settle with ln := l })
    let l := s.cur.settle.ln
    let next : Lane := { l with lpc := l.lpc + 1 }
    let t := l.act &&& s.cur.settle.guardMask h
    let tgt : BitVec 20 := imm.setWidth 20
    (h.never = true → ∀ i, i ∈ [Instr.lnop h, .lfence h r, .lend h, .lbr h imm, .lbrJ h imm, .lsync h, .lexit h, .lbrC h imm, .lsyncC h] →
      exec i s = .next (s.setCur { s.cur with ln := { s.cur.ln with lpc := s.cur.ln.lpc + 1 } })) ∧
    (h.never = false →
      go (.lnop h) next ∧ go (.lfence h r) next ∧
      (l.inRegion = false → l.stack = [] → go (.lend h) { l with active := false, run := 0 }) ∧
      -- lbr: some threads stay, or all go
      (imm.toNat < l.lwords.toNat → l.act &&& ~~~t ≠ 0 →
        (∀ e st, l.stack = e :: st → e.join = false → e.pc = tgt →
          go (.lbr h imm) { next with run := l.act &&& ~~~t, stack := { e with mask := e.mask ||| t } :: st }) ∧
        ((∀ e st, l.stack = e :: st → e.join = true ∨ e.pc ≠ tgt) → l.stack.length < 32 →
          go (.lbr h imm) { next with run := l.act &&& ~~~t, stack := ⟨false, tgt, t⟩ :: l.stack })) ∧
      (imm.toNat < l.lwords.toNat → t = l.act → t ≠ 0 → (∀ e st, l.stack = e :: st → e.join = true ∨ e.pc ≠ tgt) → l.stack.length < 32 →
        go (.lbr h imm) { l with run := t, lpc := tgt, stack := ⟨true, tgt, 0⟩ :: l.stack }) ∧
      (imm.toNat < l.lwords.toNat → t = l.act → t ≠ 0 → ∀ e st, l.stack = e :: st → e.join = false → e.pc = tgt →
        go (.lbr h imm) { l with run := e.mask ||| t, lpc := tgt, stack := ⟨true, tgt, 0⟩ :: st }) ∧
      -- lbr.j
      (imm.toNat < l.lwords.toNat → t = 0 → go (.lbrJ h imm) next) ∧
      (imm.toNat < l.lwords.toNat → t ≠ 0 → t = l.act → go (.lbrJ h imm) { l with lpc := tgt }) ∧
      -- lsync
      (∀ e st, l.stack = e :: st →
        (e.join = true → go (.lsync h) { next with run := l.run ||| e.mask, stack := st }) ∧
        (e.join = false → e.mask = 0 → go (.lsync h) { next with stack := st }) ∧
        (e.join = false → e.mask ≠ 0 → go (.lsync h) { l with run := e.mask, lpc := e.pc, stack := ⟨true, l.lpc + 1, l.run⟩ :: st })) ∧
      -- lexit
      (l.run &&& ~~~t ≠ 0 → go (.lexit h) { next with
        exited := l.exited ||| t, run := l.run &&& ~~~t, stack := l.stack.map (fun e => { e with mask := e.mask &&& ~~~t }) }) ∧
      (let cut := fun (e : DivEntry) => { e with mask := e.mask &&& ~~~t }
       let x := l.exited ||| t
       l.run &&& ~~~t = 0 →
        (∀ pre e st, l.stack = pre ++ e :: st → (∀ y ∈ pre, y.mask &&& ~~~t = 0) → e.mask &&& ~~~t ≠ 0 →
          l.active = true ∨ l.inRegion = false →
          (e.join = true → go (.lexit h) { l with exited := x, run := e.mask &&& ~~~t, lpc := e.pc, stack := st.map cut }) ∧
          (e.join = false →
            go (.lexit h) { l with exited := x, run := e.mask &&& ~~~t, lpc := e.pc, stack := ⟨true, e.pc, 0⟩ :: st.map cut })) ∧
        ((∀ y ∈ l.stack, y.mask &&& ~~~t = 0) →
          (l.inRegion = false → go (.lexit h) { l with exited := x, run := 0, active := false, stack := [] }) ∧
          (l.inRegion = true → ∀ m w ps, l.parts = (m, w) :: ps →
            go (.lexit h) { l with exited := x, run := m, lpc := w, parts := ps, stack := [] }))))

/-- R264 to R268, R270 to R273: what the control instructions of the lane stream refuse; a `lexit` that leaves a region no thread is the
model's reading of R264 (log 18). -/
def Obligations.LaneControlTraps : Prop :=
  ∀ (s : State) (h : LHdr) (imm : W32), h.never = false → TrapEnters s →
    let l := s.cur.settle.ln
    let t := l.act &&& s.cur.settle.guardMask h
    (l.inRegion = true → TrapsL (.lend h) s .compactState) ∧
    (l.inRegion = true → l.run &&& ~~~t = 0 → (∀ e ∈ l.stack, e.mask &&& ~~~t = 0) → l.parts = [] → TrapsL (.lexit h) s .compactState) ∧
    (l.inRegion = false → l.stack ≠ [] → TrapsL (.lend h) s .divStack) ∧
    (l.lwords.toNat ≤ imm.toNat → TrapsL (.lbr h imm) s .lbrRange ∧ TrapsL (.lbrJ h imm) s .lbrRange ∧ TrapsL (.lbrC h imm) s .lbrRange) ∧
    (imm.toNat < l.lwords.toNat → 32 ≤ l.stack.length → (∀ e st, l.stack = e :: st → e.join = true ∨ e.pc ≠ imm.setWidth 20) →
      TrapsL (.lbr h imm) s .divStack) ∧
    (imm.toNat < l.lwords.toNat → t ≠ 0 → t ≠ l.act → TrapsL (.lbrJ h imm) s .lbrSplit) ∧
    (l.stack = [] → TrapsL (.lsync h) s .divStack) ∧
    (imm.toNat < l.lwords.toNat → l.inRegion = true ∨ l.stack ≠ [] → TrapsL (.lbrC h imm) s .compactState) ∧
    (l.inRegion = false ∨ l.stack ≠ [] → TrapsL (.lsyncC h) s .compactState) ∧
    (∀ w, l.inRegion = true → l.stack = [] → l.partAt = some w → w ≠ l.lpc → TrapsL (.lsyncC h) s .compactMismatch)

/-- R269 to R273: a group enters a region at `lbr.c` and waits. Once every group of its block that holds a thread waits at one word,
COMPACT_REGROUP cuts the threads that take the branch and the others, each by ascending vlane, into packs of 64 and gives them to the
groups in order, the first packs starting at the target, the others behind the `lbr.c`, as soon as no earlier instruction of their lane
streams waits for a fault (log 49) and their rows are awake; one pack too many shares the group of the last pack that takes the branch. A thread takes along its column of the rows under `vview`, its predicates and its count, and nothing else
moves. `lsync.c` ends a part; COMPACT_RETURN, once every group of the region has ended at one `lsync.c`, sends every thread home.
Groups at different words take `compact_mismatch` and wait at the word no longer, so that they issue it again on return; a block whose groups are not all waiting, one of them in its handler among them,
stays as it is. -/
def Obligations.CompactionRegion : Prop :=
  (∀ (s : State) (h : LHdr) (imm : W32), h.never = false →
    let g := s.cur.settle
    (imm.toNat < g.ln.lwords.toNat → g.ln.inRegion = false → g.ln.stack = [] → exec (.lbrC h imm) s =
      .next (s.setCur { g with ln := { g.ln with cwait := .atLbr g.ln.lpc (imm.setWidth 20) (g.ln.act &&& g.guardMask h) } }).stalled) ∧
    (g.ln.inRegion = true → g.ln.stack = [] → g.ln.partAt = none ∨ g.ln.partAt = some g.ln.lpc →
      (g.ln.parts = [] → exec (.lsyncC h) s = .next (s.setCur { g with ln := { g.ln with cwait := .atSync g.ln.lpc } }).stalled) ∧
      (∀ m w t, g.ln.parts = (m, w) :: t → exec (.lsyncC h) s =
        .next (s.setCur { g with ln := { g.ln with run := m, lpc := w, parts := t, partAt := some g.ln.lpc } })))) ∧
  (∀ (s : State) (gid : Gid) (w tgt : BitVec 20) (took : Gid → W64),
    let gids := (s.blockGroups gid).filter (fun x => (s.group x).takesPart)
    gids ≠ [] → gids.Nodup → (∀ x ∈ gids, (s.group x).ln.cwait = .atLbr w tgt (took x) ∧ (s.group x).movable = true) →
    let threads := fun (b : Bool) => gids.flatMap (fun x =>
      ((List.range 64).filter (fun j => !(s.group x).ln.exited.getLsbD j && ((took x).getLsbD j == b))).map (fun j => (x, j)))
    let ts := threads true
    let fs := threads false
    let a := (ts.length + 63) / 64
    let b := (fs.length + 63) / 64
    let pack := fun (l : List (Gid × Nat)) (k : Nat) => (l.drop (64 * k)).take 64
    let first := fun (k : Nat) => if k < a then pack ts k else pack fs (k - a)
    let second := fun (k : Nat) => if gids.length < a + b ∧ k + 1 = a then pack fs (b - 1) else []
    ∃ t, exec (.compactRegroup gid) s = .next t ∧ t = { s with groups := t.groups } ∧ (∀ x, x ∉ gids → t.group x = s.group x) ∧
      ∀ (k : Nat) (hk : k < gids.length),
        let g := s.group gids[k]
        let y := t.group gids[k]
        let seats := first k ++ second k
        y.ln.inRegion = true ∧ y.ln.cwait = .none ∧ y.ln.exited = 0 ∧ y.ln.stack = [] ∧ y.ln.partAt = none ∧
        (first k ≠ [] → y.ln.lpc = if k < a then tgt else w + 1) ∧
        (∀ j, j < 64 → y.ln.run.getLsbD j = decide (j < (first k).length)) ∧
        (second k = [] → y.ln.parts = []) ∧
        (second k ≠ [] → ∃ m, y.ln.parts = [(m, w + 1)] ∧
          ∀ j, j < 64 → m.getLsbD j = decide ((first k).length ≤ j ∧ j < seats.length)) ∧
        (∀ j : Fin 64, seats.length ≤ j.val → y.ln.remap[j] = 0) ∧
        (∀ (j : Fin 64) (hj : j.val < seats.length),
          let from' := s.group seats[j.val].1
          let i := seats[j.val].2
          y.ln.remap[j] = BitVec.ofNat 11 (1024 + from'.ln.vl i) ∧ y.ln.rs[j] = from'.ln.rs.getD i 0 ∧
          (∀ p, p ≠ 7 → (y.pr p).getLsbD j.val = (from'.pr p).getLsbD i) ∧
          ∀ r, r < viewRows g.rg → r < viewRows from'.rg →
            vword (y.rg.row (g.rg.vrow r)) j.val = vword (from'.rg.row (from'.rg.vrow r)) i) ∧
        (∀ r j, j < 64 → (seats.length ≤ j ∨ ∀ i, i < viewRows g.rg → r ≠ g.rg.vrow i) →
          vword (y.rg.row r) j = vword (g.rg.row r) j) ∧
        y = { g with rg := { g.rg with rows := y.rg.rows, bad := y.rg.bad },
                     ln := { g.ln with lpc := y.ln.lpc, run := y.ln.run, exited := 0, stack := [], remap := y.ln.remap, rs := y.ln.rs,
                                       p := y.ln.p, inRegion := true, parts := y.ln.parts, partAt := none, cwait := .none } }) ∧
  (∀ (s : State) (gid : Gid) (w : BitVec 20),
    let gids := (s.blockGroups gid).filter (fun x => (s.group x).inRegion)
    let at' := fun (x : Gid) (j : Nat) =>
      x ∈ gids ∧ j < 64 ∧ ((s.group x).ln.remap.getD j 0).getLsbD 10 = true ∧ (s.group x).ln.exited.getLsbD j = false
    gids.Nodup → (∃ x ∈ gids, (s.group x).ln.cwait = .atSync w) → (∀ x ∈ gids, (s.group x).movable = true) →
    (∀ x ∈ gids, (s.group x).ln.cwait = .atSync w ∨
      ((s.group x).ln.inRegion = true ∧ (s.group x).ln.run = 0 ∧ ∀ v, (s.group x).ln.cwait ≠ .atSync v)) →
    (∀ x i y j, at' x i → at' y j → (s.group x).ln.vl i = (s.group y).ln.vl j → x = y ∧ i = j) →
    ∃ t, exec (.compactReturn gid) s = .next t ∧ t = { s with groups := t.groups } ∧ (∀ x, x ∉ gids → t.group x = s.group x) ∧
      ∀ x ∈ gids,
        let g := s.group x
        let y := t.group x
        y.ln.inRegion = false ∧ y.ln.cwait = .none ∧ y.ln.remap = identityRemap g.gidx ∧ y.ln.lpc = w + 1 ∧ y.ln.stack = [] ∧
        y.ln.parts = [] ∧ y.ln.exited = ~~~y.ln.run ∧ (y.ln.run ≠ 0 → y.ln.active = true) ∧ (y.ln.run = 0 → y.ln.active = false) ∧
        (∀ k, k < 64 → y.ln.run.getLsbD k = true → ∃ z j, at' z j ∧ (s.group z).ln.vl j = 64 * g.gidx.toNat + k) ∧
        ∀ z j, at' z j → (s.group z).ln.vl j / 64 = g.gidx.toNat →
          let k := (s.group z).ln.vl j % 64
          y.ln.run.getLsbD k = true ∧ y.ln.rs.getD k 0 = (s.group z).ln.rs.getD j 0 ∧
          (∀ p, p ≠ 7 → (y.pr p).getLsbD k = ((s.group z).pr p).getLsbD j) ∧
          ∀ i, i < viewRows g.rg → i < viewRows (s.group z).rg →
            vword (y.rg.row (g.rg.vrow i)) k = vword ((s.group z).rg.row ((s.group z).rg.vrow i)) j) ∧
  (∀ (s : State) (gid x : Gid), x ∈ s.blockGroups gid →
    ((s.group x).movable = false → ((s.group x).takesPart = true → exec (.compactRegroup gid) s = .next s) ∧
      ((s.group x).inRegion = true → exec (.compactReturn gid) s = .next s)) ∧
    ((s.group x).takesPart = true → (∀ w tgt m, (s.group x).ln.cwait ≠ .atLbr w tgt m) → exec (.compactRegroup gid) s = .next s) ∧
    ((s.group x).ln.inRegion = true → (s.group x).ln.run ≠ 0 → (∀ w, (s.group x).ln.cwait ≠ .atSync w) →
      exec (.compactReturn gid) s = .next s) ∧
    ((s.group x).h.on = true → (s.group x).h.kept.inRegion = true → (s.group x).ln.inRegion = false →
      (∀ w, (s.group x).ln.cwait ≠ .atSync w) → exec (.compactReturn gid) s = .next s)) ∧
  ∀ (s : State) (gid : Gid) (word : Gid → BitVec 20),
    let enters := fun (x : Gid) => (s.group x).movable = true ∧ (s.group x).h.on = false ∧ s.isLogit (s.group x).part (s.group x).launch = false ∧
      (s.group x).st ≠ .exiting ∧ s.mxErrOf x = none
    let trapped := fun (t : State) (x : Gid) => (t.group x).h.on = true ∧ (t.group x).h.cause = Cause.compactMismatch.code ∧
      (t.group x).h.kept.cwait = .none
    let l := (s.blockGroups gid).filter (fun x => (s.group x).takesPart)
    let r := (s.blockGroups gid).filter (fun x => (s.group x).inRegion)
    (l.Nodup → (∀ x ∈ l, enters x ∧ ∃ tgt m, (s.group x).ln.cwait = .atLbr (word x) tgt m) → (∃ x ∈ l, ∃ y ∈ l, word x ≠ word y) →
      ∃ t, exec (.compactRegroup gid) s = .next t ∧ ∀ x ∈ l, trapped t x) ∧
    (r.Nodup → (∀ x ∈ r, enters x ∧ (s.group x).ln.cwait = .atSync (word x)) → (∃ x ∈ r, ∃ y ∈ r, word x ≠ word y) →
      ∃ t, exec (.compactReturn gid) s = .next t ∧ ∀ x ∈ r, trapped t x)

/-! Memory (R14, R29, R39, R61 to R66, R72, R203 to R211, R318, R320) -/

/-- R14, R29, R72, R203, R211: scalar loads. A load through a window that serves it, and a load from a valid slot of the shelf, write
s(d), or the pair from s(d) for 16 bytes, with the bytes at the address, zero-extended, and nothing else but the pc. -/
def Obligations.ScalarLoads : Prop :=
  ∀ (s : State) (d o : SReg) (w : BitVec 3) (z : Size) (r : Order) (a : Nat), s.cur.replaying false = none →
    let n := sizeBytes z
    let x := s.cur.sr o
    let loads := fun (i : Instr) =>
      (z ≠ .b128 → WritesS i s d (fun v => v.toNat = peek s.mem a n)) ∧
      (z = .b128 → exec i s = .next (s.setCur { s.cur with
        s := (s.cur.s.set d.toNat (BitVec.ofNat 64 (peek s.mem a 8)) d.isLt).set (d + 1).toNat (BitVec.ofNat 64 (peek s.mem (a + 8) 8)) (d + 1).isLt,
        pc := s.cur.pc + 4 }))
    (WindowHit s w (x.toNat % 2 ^ 32) n .read a → Readable s a n → loads (.ld d o w z r)) ∧
    (x.toNat < 2 ^ 20 → SlotHit s (x.toNat % 256) (x.toNat / 256) n a → s.bad a n = false → loads (.shld d o z r))

/-- R42, R203, R211: scalar stores. The n low bytes of s(d), or of the pair, stand at the address afterwards; every other byte, every
register and every special register is as before, but the pc and monitors that the write fires. -/
def Obligations.ScalarStores : Prop :=
  ∀ (s : State) (d o : SReg) (w : BitVec 3) (z : Size) (r : Order) (a : Nat), s.cur.replaying false = none →
    let n := sizeBytes z
    let x := s.cur.sr o
    let stores := fun (i : Instr) => ∃ t, exec i s = .next t ∧ StoredAt (s.withPc (s.cur.pc + 4)) t a n ∧
      peek t.mem a n = ((s.cur.sr d).toNat + 2 ^ 64 * (s.cur.sr (d + 1)).toNat) % 2 ^ (8 * n)
    (WindowHit s w (x.toNat % 2 ^ 32) n .write a → paRegion a < 2 → stores (.st d o w z r)) ∧
    (x.toNat < 2 ^ 20 → SlotHit s (x.toNat % 256) (x.toNat / 256) n a → stores (.shst d o z r))

/-- R61, R62, R64 to R66, R204: the scalar atomic at an address that translates. It reads and writes its target in one step and
writes s(d) with the old value, sign-extended for `i32`; `fxadd` adds to a 16-byte cell and `oadd` records a contribution, and
neither writes s(d): it opens a window, or joins the open one behind the contributions of its thread; one of another type, of another
launch, beyond 65,536, or that would open the die's window 1,025 traps. `oclose` without a window only reads; with one of its type it
writes the location once, with the contributions added in ascending order of block, vlane and number, and gives the sum back; with one of
another type it traps. A window is the location's that starts at its address (log 108, the model's choice). The first check of R62's list that
fails traps, and the record names the access and the target; that it comes once the page of the target's first byte has been translated is
the model's reading (log 80). -/
def Obligations.ScalarAtomics : Prop :=
  ∀ (s s1 : State) (d o : SReg) (op : AtomOp) (ty : AtomTy) (r : Order) (pa : Nat),
    s.cur.replaying false = none → Translates s (s.cur.sr o) .atomic pa s1 → s1.curG = s.curG →
    let wd := ty.bits
    let n := wd / 8
    let b := (s.cur.sr d).toNat % 2 ^ wd
    let c := (s.cur.sr (d + 1)).toNat % 2 ^ wd
    let old := peek s1.mem pa n
    let iv := fun (x : Nat) => if ty = .i32 ∨ ty = .i64 then (BitVec.ofNat wd x).toInt else ((x % 2 ^ wd : Nat) : Int)
    let code := fun (z : Int) => (z % 2 ^ wd).toNat
    let new : Nat := match op with
      | .add => code (iv old + iv b) | .sadd => code (clampInt ty.lty (iv old + iv b))
      | .min => code (min (iv old) (iv b)) | .max => code (max (iv old) (iv b))
      | .and => old &&& b | .or => old ||| b | .xor => old ^^^ b | .exch => b
      | .cas => if old = c then b else old
      | .fadd => (faddRn (BitVec.ofNat 32 old) (BitVec.ofNat 32 b)).toNat
      | _ => old
    let res : W64 := if ty = .i32 then (BitVec.ofNat 32 old).signExtend 64 else BitVec.ofNat 64 old
    let det := s1.isDet s1.cur.part s1.cur.launch
    (let check := atomCheck det op ty pa b
     let simple := op ≠ .fxadd ∧ op ≠ .oadd ∧ op ≠ .oclose
     let aligned := pa % (if op = .fxadd then 16 else n) = 0
     let region := paRegion pa = 0 ∨ (paRegion pa = 1 ∧ simple)
     let unordered := det = true ∧ (op = .fadd ∨ op = .sadd)
     let big := op = .fxadd ∧ 189 ≤ b / 2 ^ 23 % 2 ^ 8
     (¬ aligned → check = some .atomAlign) ∧ (aligned → ¬ region → check = some .atomRegion) ∧
     (aligned → region → unordered → check = some .atomDet) ∧ (aligned → region → ¬ unordered → big → check = some .fxRange) ∧
     (aligned → region → ¬ unordered → ¬ big → check = none)) ∧
    (∀ e, atomCheck det op ty pa b = some e → TrapEnters s1 → ∃ rec, RecordOf rec e s.cur.pc ∧ rec.extractLsb' 64 64 = s.cur.sr o ∧
      rec.extractLsb' 318 2 = 2#2 ∧ rec.extractLsb' 298 11 = 1024 + s1.cur.gidx.setWidth 11 ∧ exec (.atom d o op ty r) s = .next (s1.enterHandler s.curG e rec s.cur.pc s1.cur.ln.lpc)) ∧
    (atomCheck det op ty pa b = none → op.special = false → Readable s1 pa n →
      ∃ t, exec (.atom d o op ty r) s = .next t ∧ peek t.mem pa n = new % 2 ^ (8 * n) ∧
        StoredAt (s1.setCur { s1.cur with s := s1.cur.s.set d.toNat res d.isLt, pc := s1.cur.pc + 4 }) t pa n) ∧
    (op = .fxadd → ty = .f32 → atomCheck det op ty pa b = none → inHbm pa = true → s1.bad pa 16 = false →
      ∃ t, exec (.atom d o op ty r) s = .next t ∧
        (peek t.mem pa 16 : Int) = ((peek s1.mem pa 16 : Int) + fxInt b) % 2 ^ 128 ∧
        StoredAt (s1.withPc (s1.cur.pc + 4)) t pa 16) ∧
    (op = .oadd → atomCheck det op ty pa b = none → paNode pa = 0 → s1.winAt pa = none →
      (s1.owins.filter (fun v => paDie v.loc == paDie pa)).length < 1024 →
      let first : Contrib := { block := s1.cur.block, vlane := s1.cur.scalarVlane, seq := 0, value := BitVec.ofNat 64 b }
      let win : OWin := { loc := pa, ty := ty, part := s1.cur.part, launch := s1.cur.launch, cs := [first] }
      exec (.atom d o op ty r) s = .next ({ s1 with owins := win :: s1.owins }.withPc (s1.cur.pc + 4))) ∧
    (∀ w : OWin, op = .oadd → atomCheck det op ty pa b = none → paNode pa = 0 → s1.winAt pa = some w →
      let traps := fun (c : Cause) => TrapEnters s1 → ∃ rec, RecordOf rec c s.cur.pc ∧
        exec (.atom d o op ty r) s = .next (s1.enterHandler s.curG c rec s.cur.pc s1.cur.ln.lpc)
      let mine := w.ty = ty ∧ w.part = s1.cur.part ∧ w.launch = s1.cur.launch
      let next : Contrib := { block := s1.cur.block, vlane := s1.cur.scalarVlane, value := BitVec.ofNat 64 b,
                              seq := (w.cs.filter (fun c => c.block == s1.cur.block && c.vlane == s1.cur.scalarVlane)).length }
      (w.ty ≠ ty → traps .oaddType) ∧
      (w.ty = ty → w.part ≠ s1.cur.part ∨ w.launch ≠ s1.cur.launch → traps .oaddForeign) ∧
      (mine → 65536 ≤ w.cs.length → traps .oaddFull) ∧
      (mine → w.cs.length < 65536 → exec (.atom d o op ty r) s = .next ({ s1 with
        owins := s1.owins.map (fun (x : OWin) => if x.loc = pa then { x with cs := x.cs ++ [next] } else x) }.withPc (s1.cur.pc + 4)))) ∧
    (op = .oclose → atomCheck det op ty pa b = none → Readable s1 pa n →
      let put := fun (u : State) (v : Nat) => u.setCur { s1.cur with
        s := s1.cur.s.set d.toNat (if ty = .i32 then (BitVec.ofNat 32 v).signExtend 64 else BitVec.ofNat 64 v) d.isLt, pc := s1.cur.pc + 4 }
      let plus := fun (x y : Nat) => if ty = .f32 then (faddRn (BitVec.ofNat 32 x) (BitVec.ofNat 32 y)).toNat else code (iv x + iv y)
      let before := fun (x y : Contrib) => x.block.toNat < y.block.toNat ∨
        (x.block = y.block ∧ (x.vlane.toNat < y.vlane.toNat ∨ (x.vlane = y.vlane ∧ x.seq < y.seq)))
      (s1.winAt pa = none → exec (.atom d o op ty r) s = .next (put s1 old)) ∧
      (∀ (w : OWin) (l : List Contrib), s1.winAt pa = some w → w.ty = ty → l.Perm w.cs → l.Pairwise before →
        let v := l.foldl (fun x c => plus x c.value.toNat) old
        ∃ t, exec (.atom d o op ty r) s = .next t ∧ peek t.mem pa n = v % 2 ^ (8 * n) ∧
          StoredAt (put { s1 with owins := s1.owins.filter (fun (x : OWin) => x.loc ≠ pa) } v) t pa n)) ∧
    (let traps := fun (c : Cause) => TrapEnters s1 → ∃ rec, RecordOf rec c s.cur.pc ∧
       exec (.atom d o op ty r) s = .next (s1.enterHandler s.curG c rec s.cur.pc s1.cur.ln.lpc)
     (∀ w : OWin, op = .oclose → atomCheck det op ty pa b = none → Readable s1 pa n → s1.winAt pa = some w → w.ty ≠ ty → traps .oaddType) ∧
     (op = .oadd → atomCheck det op ty pa b = none → paNode pa = 0 → s1.winAt pa = none →
       1024 ≤ (s1.owins.filter (fun v => paDie v.loc == paDie pa)).length → traps .oaddFull))

/-- R15 to R26, R32 to R34, R318, R320: how an address translates. An address whose die translates nothing faults with cause 10, one
that is not canonical with cause 1. The walk reads the PASID's entry, then an entry a level, and ends at the first leaf, at an entry that
is not present, or at one that breaks its format; a leaf breaks its format, or its range, as R21 and R15 list. The checks of a leaf come in
order: privilege, write and its grant, fetch, migration, scrub; a walk that passes them sets the accessed bit, and the dirty bit for a
write, changes no other, and gives the page's address; the core's TLB takes the leaf. The first-touch unit serves an entry it may: a read
of a mostly unwritten page takes the zero frame, any other a fresh zeroed frame, and a write to the zero frame invalidates the page on
every die; what it does not serve is not_present. A fault of another kind than not_present and migrating traps precisely; the other two
enter the operand log with the operands, post their records to the partition's fault queue, and the stream goes on. That a record names
a hint presumes that the hint table can be read (R335). The model's own: a core's TLB is consulted first and filled by every walk (log 8);
a frame is zeroed as it is handed out (log 61); the unit is off where that of the home or that of the faulting die is (log 68); a first touch
is served before the entry's own sys, w and x are checked (log 97); and the leaf whose scrub an access waits for is kept in the list of the
leaves that accesses have stalled on (log 76). -/
def Obligations.TranslationFaults : Prop :=
  (∀ (s : State) (ag : Agent) (va : W64) (k : AKind), hintBad s ag.die ag.pasid va = false →
    ((s.die ag.die).ptBase.getLsbD 0 = false → ∃ i, (translate ag va k).run s = .error (.fault i) s ∧ i.cause = .xlat 10 ∧ i.va = va ∧
      i.acc = k.code) ∧
    ((s.die ag.die).ptBase.getLsbD 0 = true → canonical va = false → ∃ i, (translate ag va k).run s = .error (.fault i) s ∧
      i.cause = .xlat 1 ∧ i.va = va ∧ i.acc = k.code)) ∧
  -- the walk, level by level
  (∀ (s : State) (die : BitVec 3) (n : BitVec 20) (va : W64) (tab : Nat → Nat) (m : Nat),
    let lo := s.read64 (pasidAddr s die n)
    let hi := s.read64 (pasidAddr s die n + 8)
    let at' := fun (i : Nat) => tab i + va.toNat % 2 ^ (55 - 13 * i) / 2 ^ (42 - 13 * i) * 8
    let ent := fun (i : Nat) => s.read64 (at' i)
    let clear := lo.extractLsb' 1 15 = 0 ∧ lo.extractLsb' 46 3 = 0 ∧ lo.extractLsb' 52 12 = 0 ∧ hi.extractLsb' 46 3 = 0 ∧ hi.extractLsb' 52 12 = 0
    let plain := fun (e : W64) => e.extractLsb' 2 14 = 0 ∧ e.extractLsb' 46 3 = 0 ∧ e.extractLsb' 52 12 = 0
    s.bad (pasidAddr s die n) 16 = false → (∀ i, i ≤ m → s.bad (at' i) 8 = false) → m ≤ 2 →
    (lo.getLsbD 0 = false → walkTables s die n va = .bad 2 0) ∧ (lo.getLsbD 0 = true → ¬ clear → walkTables s die n va = .bad 4 0) ∧
    (lo.getLsbD 0 = true → clear → tab 0 = paOf (lo.extractLsb' 49 3) 0 ((lo.extractLsb' 16 30).toNat * 2 ^ 16) →
      (∀ i, i < m → (ent i).getLsbD 0 = true ∧ (ent i).getLsbD 1 = false ∧ plain (ent i) ∧
        tab (i + 1) = paOf ((ent i).extractLsb' 49 3) 0 (((ent i).extractLsb' 16 30).toNat * 2 ^ 16)) →
      ((ent m).getLsbD 0 = true → (ent m).getLsbD 1 = true →
        (checkLeaf s m (ent m) = none → walkTables s die n va = .leaf m (ent m) (at' m)) ∧
        ∀ c, checkLeaf s m (ent m) = some c → walkTables s die n va = .bad c (ent m)) ∧
      ((ent m).getLsbD 0 = true → (ent m).getLsbD 1 = false → m = 2 ∨ ¬ plain (ent m) → walkTables s die n va = .bad 4 (ent m)) ∧
      ((ent m).getLsbD 0 = false →
        let zf := m = 2 ∧ (ent m).getLsbD 1 = true ∧ (ent m).extractLsb' 11 53 = 0 ∧ (ent m).extractLsb' 4 4 = 0
        (zf → walkTables s die n va = .zeroFill (ent m) (at' m)) ∧ (¬ zf → walkTables s die n va = .bad 3 (ent m))))) ∧
  -- what breaks a leaf's format, then its range
  (∀ (s : State) (lvl : Nat) (e : W64), lvl ≤ 2 →
    let region := (e.extractLsb' 46 3).toNat
    let frame := (e.extractLsb' 16 30).toNat * 2 ^ 16
    let zero := e.extractLsb' 16 48 = ((s.die (e.extractLsb' 49 3)).zeroFrame).extractLsb' 16 48
    let broken := e.extractLsb' 11 4 ≠ 0 ∨ e.extractLsb' 9 2 = 3 ∨ (lvl = 1 ∧ e.extractLsb' 16 13 ≠ 0) ∨ (lvl = 0 ∧ e.extractLsb' 16 26 ≠ 0) ∨
      (e.getLsbD 6 = true ∧ e.getLsbD 7 = true) ∨
      (e.getLsbD 15 = true ∧ ¬ (lvl = 2 ∧ e.extractLsb' 52 12 = 0 ∧ region = 0 ∧ e.getLsbD 2 = false ∧ zero)) ∨
      (1 ≤ region ∧ region ≤ 4 ∧ ¬ (lvl = 2 ∧ e.extractLsb' 9 2 = 2))
    (s.die (e.extractLsb' 49 3)).zeroFrame.extractLsb' 0 16 = 0 →
    (checkLeaf s lvl e = some 4 ↔ broken) ∧
    (¬ broken → 5 ≤ region → checkLeaf s lvl e = some 5) ∧
    (¬ broken → 1 ≤ region → region ≤ 4 →
      (checkLeaf s lvl e = none ↔ frame < extent (e.extractLsb' 49 3) region) ∧ (checkLeaf s lvl e = none ∨ checkLeaf s lvl e = some 5)) ∧
    (¬ broken → region = 0 → e.extractLsb' 52 12 = 0 → ¬ (lvl = 2 ∧ e.getLsbD 2 = false ∧ zero) →
      (checkLeaf s lvl e = none ↔ frame + pageSize lvl ≤ Config.hbmLimit.toNat) ∧ (checkLeaf s lvl e = none ∨ checkLeaf s lvl e = some 5))) ∧
  -- what the walk's end means for an access
  (∀ (s : State) (ag : Agent) (va : W64) (k : AKind) (m : Nat), hintBad s ag.die ag.pasid va = false →
    let run := (translateWalk ag va k (m + 1)).run s
    let faults := fun (c : BitVec 4) (e : W64) => ∃ i, run = .error (.fault i) s ∧ i.cause = .xlat c ∧ i.va = va ∧ i.entry = e ∧ i.acc = k.code
    let writes := k = .write ∨ k = .atomic
    (∀ c e, walkTables s ag.die ag.pasid va = .bad c e → faults c e) ∧
    (∀ e a, walkTables s ag.die ag.pasid va = .zeroFill e a →
      (∀ i s1, (firstTouch ag va k e a true).run s = .error (.fault i) s1 → run = .error (.fault i) s1) ∧
      ∀ s1, (firstTouch ag va k e a true).run s = .ok () s1 → run = (translateWalk ag va k m).run s1) ∧
    ∀ lvl e a, walkTables s ag.die ag.pasid va = .leaf lvl e a →
      (e.getLsbD 8 = true ∧ ag.priv = false → faults 8 e) ∧
      (e.getLsbD 8 = false ∨ ag.priv = true →
        (writes → e.getLsbD 2 = false → e.getLsbD 15 = false → faults 6 e) ∧
        (writes → e.getLsbD 2 = false → e.getLsbD 15 = true → ∀ s1, (firstTouch ag va k e a false).run s = .ok () s1 →
          run = (translateWalk ag va k m).run s1) ∧
        (k = .fetch → e.getLsbD 3 = false → faults 7 e) ∧
        (writes → e.getLsbD 2 = true → e.getLsbD 6 = true → faults 9 e) ∧
        ((writes → e.getLsbD 2 = true ∧ e.getLsbD 6 = false) → (k = .fetch → e.getLsbD 3 = true) →
          (e.getLsbD 7 = true → ∃ s1, run = .error .scrub s1 ∧ (a, lvl) ∈ s1.stalls ∧ s1 = { s with stalls := s1.stalls }) ∧
          (e.getLsbD 7 = false → ∃ e1 s1, run = .ok (leafFrame e + va.toNat % 2 ^ 55 % pageSize lvl, e1, lvl) s1 ∧
            (∀ i, i < 64 → e1.getLsbD i = (e.getLsbD i || i == 4 || (i == 5 && (k == .write || k == .atomic)))) ∧
            s1 = if e1 = e then s else s.write64 a e1)))) ∧
  -- the TLB of the access's core
  (∀ (s s1 : State) (ag : Agent) (va : W64) (k : AKind) (c : BitVec 10), ag.core = some c → (s.die ag.die).ptBase.getLsbD 0 = true →
    canonical va = true →
    let serves := fun (t : TlbEntry) => t.covers ag.pasid va && leafPermits ag.priv t.leaf k
    (∀ t, (s.core c).tlb.find? serves = some t → paNode (leafFrame t.leaf + va.toNat % 2 ^ 55 % pageSize t.lvl.toNat) = 0 →
      (translate ag va k).run s = .ok (leafFrame t.leaf + va.toNat % 2 ^ 55 % pageSize t.lvl.toNat) s) ∧
    (∀ pa e lvl, (∀ t ∈ (s.core c).tlb, serves t = false) → (translateWalk ag va k 4).run s = .ok (pa, e, lvl) s1 → lvl ≤ 2 → paNode pa = 0 →
      ∃ s2, (translate ag va k).run s = .ok pa s2 ∧ s2 = { s1 with cores := s2.cores } ∧
        (∃ t ∈ (s2.core c).tlb, t.covers ag.pasid va = true ∧ t.leaf = e ∧ t.lvl.toNat = lvl) ∧ ∀ x, x ≠ c → s2.core x = s1.core x)) ∧
  -- first touch
  (∀ (s s1 : State) (ag : Agent) (va e f : W64) (k : AKind) (a : Nat) (zf : Bool), hintBad s ag.die ag.pasid va = false →
    let hint := hintOf s ag.die ag.pasid va
    let flag := fun (i : Nat) => ∃ x, hint = some x ∧ x.2.getLsbD i = true
    ∀ home : BitVec 3, (∀ x, hint = some x → x.2.getLsbD 139 = true → home = x.2.extractLsb' 136 3) → (¬ flag 139 → home = ag.die) →
    let off := flag 132 ∨ flag 133 ∨ ftzOn (s.die home) = false ∨ ftzOn (s.die ag.die) = false
    let writes := k = .write ∨ k = .atomic
    let take := (takeFrame home va k (poolCount (s.die home))).run s
    let leafOf := fun (l frame : W64) (w d zw : Bool) => l.extractLsb' 16 48 = frame.extractLsb' 16 48 ∧
      l.extractLsb' 0 2 = 3 ∧ l.getLsbD 2 = w ∧ l.getLsbD 3 = e.getLsbD 3 ∧ l.getLsbD 4 = true ∧ l.getLsbD 5 = d ∧
      l.extractLsb' 6 2 = 0 ∧ l.extractLsb' 8 3 = e.extractLsb' 8 3 ∧ l.extractLsb' 11 4 = 0 ∧ l.getLsbD 15 = zw
    (off → ∃ i, (firstTouch ag va k e a zf).run s = .error (.fault i) s ∧ i.cause = .xlat 3 ∧ i.entry = e) ∧
    (¬ off →
      (zf = true → ¬ writes → flag 128 → ∃ l, leafOf l (s.die home).zeroFrame false false (e.getLsbD 2) ∧
        (firstTouch ag va k e a zf).run s = .ok () (s.write64 a l)) ∧
      (zf = false ∨ writes ∨ ¬ flag 128 →
        (take = .ok none s1 → hintBad s1 ag.die ag.pasid va = false →
          ∃ i, (firstTouch ag va k e a zf).run s = .error (.fault i) s1 ∧ i.cause = .xlat 3 ∧ i.entry = e) ∧
        (take = .ok (some f) s1 → zf = true → ∃ l, leafOf l f (e.getLsbD 2) (k == .write || k == .atomic) false ∧
          (firstTouch ag va k e a zf).run s = .ok () (s1.write64 a l)) ∧
        (take = .ok (some f) s1 → zf = false → writes → ∃ l, leafOf l f true true false ∧
          (firstTouch ag va k e a zf).run s =
            .ok () ((s1.write64 a l).invalidate (fun _ => true) ag.pasid (va.toNat / 2 ^ 16 * 2 ^ 16) 0x10000))))) ∧
  -- the pool of fresh frames
  (∀ (s : State) (die : BitVec 3) (va : W64) (k : AKind) (n : Nat),
    let d := s.die die
    let e := ringEntry s die d.ftzHead.toNat
    (d.ftzTail = d.ftzHead → (takeFrame die va k (n + 1)).run s = .ok none s) ∧
    (d.ftzTail ≠ d.ftzHead → s.bad (ringPlace s die d.ftzHead.toNat) 8 = false → goodFrame die e = true →
      ∃ t, (takeFrame die va k (n + 1)).run s = .ok (some e) t ∧ (t.die die).ftzHead = d.ftzHead + 1 ∧
        (e ∈ d.zeroed → t.mem = s.mem) ∧
        (e ∉ d.zeroed → (∀ b, e.toNat ≤ b → b < e.toNat + 0x10000 → Sparse.get t.mem b = 0) ∧
          ∀ b, b < e.toNat ∨ e.toNat + 0x10000 ≤ b → Sparse.get t.mem b = Sparse.get s.mem b))) ∧
  ∀ (s s1 : State) (d o : SReg) (op : AtomOp) (ty : AtomTy) (r : Order) (i : Info), s.cur.replaying false = none →
    (translate (groupAgent s.curG s.cur) (s.cur.sr o) .atomic).run s = .error (.fault i) s1 → i.cause.isXlat = true →
    let srcs := (match op with | .oclose => [] | .cas => [s.cur.sr d, s.cur.sr (d + 1)] | _ => [s.cur.sr d]) ++ [s.cur.sr o]
    (i.cause.deferred = false → TrapEnters s1 → ∃ rec, RecordOf rec i.cause s.cur.pc ∧
      exec (.atom d o op ty r) s = .next (s1.enterHandler s.curG i.cause rec s.cur.pc s1.cur.ln.lpc)) ∧
    (i.cause.deferred = true → s1.cur.pc = s.cur.pc → ∃ t l rec, exec (.atom d o op ty r) s = .next t ∧
      t.cur = { s1.cur with pc := s1.cur.pc + 4, slog := some l } ∧ l.addr = s.cur.pc ∧ l.valid = false ∧ l.lane = false ∧
      (∀ k, k < srcs.length → l.scalars.extractLsb' (64 * k) 64 = srcs.getD k 0) ∧
      RecordOf rec i.cause s.cur.pc ∧ (t.part s1.cur.part).waiting = (s1.part s1.cur.part).waiting ++ [rec] ∧
      t = { s1 with groups := t.groups, parts := t.parts })

/-- R208 to R210: `qpush` and `qld` append one entry of 64 threads to a data queue that has room, `ypop` takes the oldest word of a
result queue; a full or empty queue makes a blocking form wait, and clears the predicate of a non-blocking one; so it does when a `qld` is
issued again from its log, where the pc has moved already. -/
def Obligations.QueueInstructions : Prop :=
  ∀ (s : State) (p q : BitVec 3) (y : BitVec 2) (o : SReg) (w : BitVec 3) (z : Size) (r : Order) (nb : Bool),
    let v := s.cur.sr o
    let l := s.cur.q.getD q.toNat []
    let sp' := fun (b : Bool) => if nb then putBit s.cur.sp p.toNat b else s.cur.sp
    let pushed := fun (i : Instr) (e : VReg) => exec i s = .next (s.setCur { s.cur with
      q := vset s.cur.q q.toNat (l ++ [e]), sp := sp' true, pc := s.cur.pc + 4 })
    (4 ≤ l.length →
      (nb = false → exec (.qpush p q o z nb) s = .next s.stalled) ∧ (nb = true → WritesP (.qpush p q o z nb) s p false) ∧
      (s.cur.replaying false = none → (nb = false → exec (.qld p q o w z r nb) s = .next s.stalled) ∧
        (nb = true → WritesP (.qld p q o w z r nb) s p false)) ∧
      (∀ x, s.cur.replaying false = some x → nb = true →
        exec (.qld p q o w z r nb) s = .next (s.setCur { s.cur with sp := sp' false, slog := none }))) ∧
    (l.length < 4 → ∃ e, pushed (.qpush p q o z nb) e ∧ ∀ j, j < 64 → (vword e j).toNat = match z with
      | .b8 => v.toNat % 2 ^ 8 | .b16 => v.toNat % 2 ^ 16
      | .b64 => if j % 2 = 0 then v.toNat % 2 ^ 32 else v.toNat / 2 ^ 32
      | _ => v.toNat % 2 ^ 32) ∧
    (l.length < 4 → s.cur.replaying false = none →
      ∀ a, WindowHit s w (v.toNat % 2 ^ 32) 256 .read a → Readable s a 256 →
      ∃ e, pushed (.qld p q o w z r nb) e ∧ ∀ j, j < 64 → (vword e j).toNat = peek s.mem (a + 4 * j) 4) ∧
    (s.cur.y.getD y.toNat [] = [] →
      (nb = false → exec (.ypop p y o nb) s = .next s.stalled) ∧ (nb = true → WritesP (.ypop p y o nb) s p false)) ∧
    (∀ x t, s.cur.y.getD y.toNat [] = x :: t → exec (.ypop p y o nb) s = .next (s.setCur { s.cur with
      y := vset s.cur.y y.toNat t, s := s.cur.s.set o.toNat x o.isLt, sp := sp' true, pc := s.cur.pc + 4 }))

/-! Invalidation, windows, counters (R27 to R30, R54, R80 to R82, R206, R207, R220) -/

/-- R54, R206: `invpg` checks its range, then the privilege, and waits; INVPG_COMPLETE drops every entry that covers a page of the
range in the TLBs of the dies in scope and marks stale every window there whose own page, of whatever size, overlaps the range,
those of programs behind their handlers and of saved groups among them; and the group goes on. The model's own: operands are
checked before the privilege (log 20), a completion waits for no access in flight (log 2), and a window without a translation
counts as of the largest page (log 75). -/
def Obligations.Invalidation : Prop :=
  (∀ (s : State) (d a b : SReg) (sc : Scope),
    let n := s.cur.sr d
    let va := s.cur.sr a
    let len := s.cur.sr b
    (invpgRangeOk n va len = true → s.cur.priv = true → exec (.invpg d a b sc) s =
      .next (s.setCur { s.cur with wait := .invpg (n.extractLsb' 0 20) va len sc }).stalled) ∧
    (TrapEnters s → invpgRangeOk n va len = false → TrapsS (.invpg d a b sc) s .operandRange) ∧
    (TrapEnters s → invpgRangeOk n va len = true → s.cur.priv = false → TrapsS (.invpg d a b sc) s .privInstr)) ∧
  ∀ (s : State) (g : Gid) (n : BitVec 20) (va len : W64) (sc : Scope), (s.group g).wait = .invpg n va len sc → len ≠ 0 →
    let inScope := fun (d : BitVec 3) => sc = .pkg ∨ sc = .sys ∨ d = g.die
    let overlaps := fun (x : Window) => pageIn (x.base.toNat % 2 ^ 55 / pageSize x.lvl.toNat) (pageSize x.lvl.toNat) va.toNat len.toNat = true
    ∃ t, exec (.invpgComplete g) s = .next t ∧ (t.group g).wait = .none ∧ (t.group g).pc = (s.group g).pc + 4 ∧
      (∀ (c : BitVec 10) (e : TlbEntry), e ∈ (t.core c).tlb ↔ e ∈ (s.core c).tlb ∧
        ¬ (inScope (c.extractLsb' 7 3) ∧ e.pasid = n ∧ pageIn e.page (pageSize e.lvl.toNat) va.toNat len.toNat = true)) ∧
      (∀ (x : Gid) (i : Fin 8), (s.group x).live = true → inScope x.die → (s.group x).pasid = n →
        overlaps (s.group x).win[i] → (t.group x).win[i].stale = true) ∧
      (∀ (x : Gid) (i : Fin 8), (s.group x).h.on = true → inScope x.die → (s.group x).h.kept.pasid = n →
        overlaps (s.group x).h.kept.win[i] → (t.group x).h.kept.win[i].stale = true) ∧
      (∀ l ∈ s.launches, ∀ x ∈ l.saved, ∀ i : Fin 8, inScope (x.core.extractLsb' 7 3) → x.kept.pasid = n → overlaps x.kept.win[i] →
        ∃ l1 ∈ t.launches, ∃ x1 ∈ l1.saved, l1.part = l.part ∧ l1.id = l.id ∧ x1.gid = x.gid ∧ x1.block = x.block ∧
          x1.kept.win[i].stale = true) ∧
      (∀ x : Gid, ¬ inScope x.die ∨ ((s.group x).pasid ≠ n ∧ ((s.group x).h.on = true → (s.group x).h.kept.pasid ≠ n)) → x ≠ g →
        t.group x = s.group x) ∧
      t = { s with cores := t.cores, groups := t.groups, launches := t.launches }

/-- R27, R28, R35, R36, R37, R207: `wset` waits for the lane stream; it sets the window from its base's leaf, marking a migrating page, and leaves
it unset, its `pa` and `pol` 0 by the model's choice (log entry 75), where the die translates nothing, the base is not canonical, or the
walk finds no leaf that the group may read; for a page to be scrubbed it waits in the operand log, while its stream goes on, and its replay sets the window from the
logged base. A table word that could not be corrected traps. That the wait is kept in the operand log is the model's form of it (log 76). -/
def Obligations.WindowSet : Prop :=
  (∀ (s : State) (w : BitVec 3) (a : SReg), s.cur.replaying false = none →
    let base := s.cur.sr a
    let unset := exec (.wset w a) s = .next (s.setCur { s.cur with win := vset s.cur.win w.toNat { base := base }, pc := s.cur.pc + 4 })
    (s.cur.laneIdle = false → exec (.wset w a) s = .next s.stalled) ∧
    (s.cur.laneIdle = true → (s.die s.curG.die).ptBase.getLsbD 0 = false ∨ canonical base = false → unset) ∧
    (s.cur.laneIdle = true → (s.die s.curG.die).ptBase.getLsbD 0 = true → canonical base = true →
      (∀ c e, walkTables s s.curG.die s.cur.pasid base = .bad c e → unset) ∧
      (∀ e ad, walkTables s s.curG.die s.cur.pasid base = .zeroFill e ad → unset) ∧
      (walkTables s s.curG.die s.cur.pasid base = .ecc → TrapEnters s → TrapsS (.wset w a) s .dataError) ∧
      ∀ lvl e ad, walkTables s s.curG.die s.cur.pasid base = .leaf lvl e ad →
        (e.getLsbD 8 = true → s.cur.priv = false → unset) ∧
        (e.getLsbD 8 = false ∨ s.cur.priv = true → e.getLsbD 7 = true → ∃ t l, exec (.wset w a) s = .next t ∧
          t.cur = { s.cur with pc := s.cur.pc + 4, slog := some l } ∧ l.addr = s.cur.pc ∧ l.valid = false ∧ l.scrub = true ∧ l.lane = false ∧
          l.scalars.extractLsb' 0 64 = base ∧ (ad, lvl) ∈ t.stalls ∧ t = { s with groups := t.groups, stalls := t.stalls }) ∧
        (e.getLsbD 8 = false ∨ s.cur.priv = true → e.getLsbD 7 = false →
          let off := base.toNat % 2 ^ 55 % pageSize lvl
          ∃ t, exec (.wset w a) s = .next t ∧ t.cur.pc = s.cur.pc + 4 ∧
            t.cur.win.getD w.toNat {} = { base := base, pa := BitVec.ofNat 64 (leafFrame e + off),
                                          limit := BitVec.ofNat 34 (min (pageSize lvl - off) (2 ^ 33)), pol := e.extractLsb' 9 2,
                                          sys := e.getLsbD 8, d := e.getLsbD 5, x := e.getLsbD 3, w := e.getLsbD 2,
                                          lvl := BitVec.ofNat 2 lvl, mig := e.getLsbD 6 } ∧
            (∀ v : BitVec 3, v ≠ w → t.cur.win.getD v.toNat {} = s.cur.win.getD v.toNat {}) ∧ t.cur.s = s.cur.s))) ∧
  ∀ (s : State) (w : BitVec 3) (a : SReg) (l : OpLog) (lvl : Nat) (e : W64) (ad : Nat), s.cur.replaying false = some l → s.cur.laneIdle = true →
    let base := l.scalars.extractLsb' 0 64
    let off := base.toNat % 2 ^ 55 % pageSize lvl
    (s.die s.curG.die).ptBase.getLsbD 0 = true → canonical base = true → walkTables s s.curG.die s.cur.pasid base = .leaf lvl e ad →
    e.getLsbD 8 = false ∨ s.cur.priv = true → e.getLsbD 7 = false →
      ∃ t, exec (.wset w a) s = .next t ∧ t.cur.pc = s.cur.pc ∧ t.cur.slog = none ∧
        t.cur.win.getD w.toNat {} = { base := base, pa := BitVec.ofNat 64 (leafFrame e + off),
                                      limit := BitVec.ofNat 34 (min (pageSize lvl - off) (2 ^ 33)), pol := e.extractLsb' 9 2,
                                      sys := e.getLsbD 8, d := e.getLsbD 5, x := e.getLsbD 3, w := e.getLsbD 2,
                                      lvl := BitVec.ofNat 2 lvl, mig := e.getLsbD 6 } ∧
        (∀ v : BitVec 3, v ≠ w → t.cur.win.getD v.toNat {} = s.cur.win.getD v.toNat {}) ∧ t.cur.s = s.cur.s

/-- R80 to R82, R220: `seq.rd`, `seq.add`, `seq.set` and its `.force` on a trigger counter and on a queue's numbers. An armed object
is not written but by force, which cancels what waits on it: commands that a trigger or their place in the queue has not let begin are
marked to end so, and groups that yield on a number not reached, in their slots, behind their handlers or saved, get the status 0x15; a
group whose number has been reached keeps its status. A trigger or a yield that a counter reaches stays reached. A forced write of the
numbers of a queue waits until every command has completed, and cancels at each of its tries (log 95). Of a triggered command the record
must be at hand. -/
def Obligations.QueueNumbersAndCounters : Prop :=
  ∀ (s : State) (d a b : SReg) (p : BitVec 3),
    let v := s.cur.sr a
    let y := s.cur.sr b
    let die := s.curG.die
    -- the yields of the die that meet a condition have ended with a status
    let yields := fun (t : State) (on : YieldOn → Prop) (st : BitVec 8) =>
      (∀ (g : Gid) (r : YieldRec), g.die = die → on r.on → r.got = none →
        let r1 : YieldRec := { r with got := some st }
        ((s.group g).st = .yielded r → (t.group g).st = .yielded r1) ∧ ((s.group g).st = .yielding r → (t.group g).st = .yielding r1) ∧
        ((s.group g).h.kept.st = .yielded r → (t.group g).h.kept.st = .yielded r1)) ∧
      ∀ l ∈ s.launches, ∀ x ∈ l.saved, ∀ r : YieldRec, x.core.extractLsb' 7 3 = die → x.kept.st = .yielded r → on r.on → r.got = none →
        ∃ l1 ∈ t.launches, ∃ x1 ∈ l1.saved, l1.part = l.part ∧ l1.id = l.id ∧ x1.gid = x.gid ∧ x1.block = x.block ∧
          x1.kept.st = .yielded { r with got := some st }
    -- a command that waits for its trigger
    let waits := fun (q : BitVec 7) (e : Cmd) (c : BitVec 8) => e ∈ (s.queue die q).cmds ∧ e.recAt = none ∧ e.st = .accepted ∧ e.started = false ∧
      e.begun = false ∧ e.hit = false ∧ e.cancel = false ∧ cTrig e.words = true ∧ e.words.extractLsb' 416 8 = c ∧
      reached (s.ctr die c) (e.words.extractLsb' 64 64) = false
    (v.toNat < 256 →
      let c : BitVec 8 := v.extractLsb' 0 8
      WritesS (.seqRd d a false) s d (fun x => x = s.ctr die c) ∧
      (∃ t, exec (.seqAdd d a b) s = .next t ∧ t.ctr die c = s.ctr die c + y ∧ (∀ k, k ≠ c → t.ctr die k = s.ctr die k) ∧
        t.cur = { s.cur with s := s.cur.s.set d.toNat (s.ctr die c) d.isLt, pc := s.cur.pc + 4, st := t.cur.st,
                             h := { s.cur.h with kept := { s.cur.h.kept with st := t.cur.h.kept.st } } } ∧
        (s.cur.st = .running → t.cur.st = .running) ∧ t.mem = s.mem ∧
        yields t (fun o => ∃ n, o = .ctr c n ∧ reached (s.ctr die c + y) n = true) 0 ∧
        ∀ q e, waits q e c → reached (s.ctr die c + y) (e.words.extractLsb' 64 64) = true →
          ∃ e1 ∈ (t.queue die q).cmds, e1 = { e with hit := true }) ∧
      (ctrArmed s die c = true → WritesP (.seqSet p a b false) s p true) ∧
      (ctrArmed s die c = false → ∃ t, exec (.seqSet p a b false) s = .next t ∧ t.ctr die c = y ∧
        (∀ k, k ≠ c → t.ctr die k = s.ctr die k) ∧ t.cur.sp.getLsbD p.toNat = false ∧ t.cur.pc = s.cur.pc + 4 ∧ t.mem = s.mem) ∧
      (∃ t, exec (.seqSetForce p a b false) s = .next t ∧ t.ctr die c = y ∧ (∀ k, k ≠ c → t.ctr die k = s.ctr die k) ∧
        t.cur.sp.getLsbD p.toNat = false ∧ t.cur.pc = s.cur.pc + 4 ∧ t.mem = s.mem ∧
        yields t (fun o => ∃ n, o = .ctr c n ∧ reached (s.ctr die c) n = false) 0x15 ∧
        yields t (fun o => ∃ n, o = .ctr c n ∧ reached (s.ctr die c) n = true) 0 ∧
        ∀ q e, waits q e c → ∃ e1 ∈ (t.queue die q).cmds, e1.n = e.n ∧ e1.cancel = true)) ∧
    (v.toNat < 128 →
      let q : BitVec 7 := v.extractLsb' 0 7
      WritesS (.seqRd d a true) s d (fun x => x = s.seqDone die q) ∧
      (queueArmed s die q = true → WritesP (.seqSet p a b true) s p true) ∧
      (queueArmed s die q = false → ∃ t, exec (.seqSet p a b true) s = .next t ∧ t.seqDone die q = y ∧ (t.queue die q).seqNext = y + 1 ∧
        t.cur.sp.getLsbD p.toNat = false ∧ t.cur.pc = s.cur.pc + 4 ∧ t.mem = s.mem) ∧
      ((s.queue die q).cmds = [] → ∃ t, exec (.seqSetForce p a b true) s = .next t ∧ t.seqDone die q = y ∧
        (t.queue die q).seqNext = y + 1 ∧ t.cur.sp.getLsbD p.toNat = false ∧ t.cur.pc = s.cur.pc + 4 ∧ t.mem = s.mem ∧
        yields t (fun o => ∃ n, o = .queue q n ∧ reached (s.seqDone die q) n = false) 0x15) ∧
      ((s.queue die q).cmds ≠ [] → ∃ t, exec (.seqSetForce p a b true) s = .next t ∧ t.cur.pc = s.cur.pc ∧
        t.cur.s = s.cur.s ∧ t.cur.sp = s.cur.sp ∧ t.seqDone die q = s.seqDone die q ∧
        (∀ c ∈ (t.queue die q).cmds, c.st = .accepted → c.started = false → c.begun = false → c.cancel = true) ∧ t.mem = s.mem ∧
        yields t (fun o => ∃ n, o = .queue q n ∧ reached (s.seqDone die q) n = false) 0x15)) ∧
    (128 ≤ v.toNat → TrapEnters s → TrapsS (.seqRd d a true) s .operandRange ∧ TrapsS (.seqSet p a b true) s .operandRange ∧
      TrapsS (.seqSetForce p a b true) s .operandRange) ∧
    (256 ≤ v.toNat → TrapEnters s → TrapsS (.seqRd d a false) s .operandRange ∧ TrapsS (.seqAdd d a b) s .operandRange ∧
      TrapsS (.seqSet p a b false) s .operandRange ∧ TrapsS (.seqSetForce p a b false) s .operandRange)

/-! Copy engines (R74 to R88, R215 to R219) -/

/-- R71, R75, R77, R83, R215 to R218, R311: a copy instruction on a queue with a place for it and for the groups that came before is
accepted: it takes the queue's next number, the record holds the registers of its run, with `.trig` the counter and the value, s(d) holds the number, and with `.cont`
the group begins to yield at the continuation; a register that does not fit its field gives a record that ends with
`bad_command`; a queue with no such place makes it wait in line; a slot that is not valid, or not one of the block's, traps. The
model's own: who waits in line and in which order places are taken (log 15), and `shelf_invalid` for a slot at or beyond the
block's count (log 64). -/
def Obligations.CopyCommandsAccepted : Prop :=
  ∀ (s : State) (d a : SReg) (q : BitVec 7) (cont trig : Bool) (k : DstKind),
    let die := s.curG.die
    let x := s.queue die q
    let r := fun (n : Nat) => s.cur.sr (a + BitVec.ofNat 6 n)
    let slot := bitsOf (r 1) 0 8
    let place := x.turn s s.curG
    let took := fun (i : Instr) (own : Bool) (n : Nat) (f : Cmd → Prop) => ∃ (t : State) (c : Cmd), exec i s = .next t ∧
      t.queue die q = { x with seqNext := x.seqNext + 1, cmds := x.cmds ++ [c], line := x.line.filter (· != s.curG) } ∧
      c.n = x.seqNext ∧ c.st = .accepted ∧ c.gid = s.curG ∧ c.part = s.cur.part ∧ c.launch = s.cur.launch ∧ c.block = s.cur.block ∧
      c.pasid = s.cur.pasid ∧ c.priv = s.cur.priv ∧ c.took = own ∧ f c ∧
      (cont = false → t.cur = { s.cur with s := s.cur.s.set d.toNat x.seqNext d.isLt, pc := s.cur.pc + 4 }) ∧
      (cont = true → t.cur = { s.cur with
        s := s.cur.s.set d.toNat x.seqNext d.isLt, pc := r n, st := .yielding { on := .queue q x.seqNext, d := d + 1, cmd := true } }) ∧
      t.mem = s.mem
    let run := fun (i : Instr) (own : Bool) (kind n : Nat) => (trig = true → (r n).toNat < 256) →
      (kind = 3 → (r 4).toNat < 2 ^ 32) → (kind = 4 → (r 3).toNat < 2 ^ 16) → (own = true → slotStop s s.curBlock slot = none) →
      took i own (if trig then n + 2 else n) (fun c => c.recAt = none ∧ cKind c.words = kind ∧ cSrc c.words = r 0 ∧ cDest c.words = r 1 ∧
        cTrig c.words = trig ∧ (trig = true → c.words.extractLsb' 416 8 = (r n).setWidth 8 ∧ c.words.extractLsb' 64 64 = r (n + 1)) ∧ (kind ≠ 2 → cLen c.words = (r 2).toNat) ∧ (kind = 2 → cDims c.words = (r 2).toNat % 16 ∧
          cElem c.words = (r 2).toNat / 16 ∧ cAux0 c.words = r 3) ∧ (kind = 3 → cAux0 c.words = r 3 ∧ cAux1 c.words = r 4) ∧
        (kind = 4 → cAux1 c.words = r 3 ∧ cMask c.words = r 4))
    (place = true → (r 2).toNat < 2 ^ 32 →
      run (.cpy d a q cont trig k) (k == .slot) 1 3 ∧ run (.gath d a q cont trig k) (k == .slot) 3 5 ∧
      run (.mcast d a q cont trig) false 4 5) ∧
    (place = true → (r 2).toNat < 2 ^ 7 → run (.tcpy d a q cont trig k) (k == .slot) 2 4) ∧
    (place = true → took (.cmd d a q cont) false 1 (fun c => c.recAt = some (r 0))) ∧
    (place = true → (k == .slot) = false →
      (2 ^ 32 ≤ (r 2).toNat → took (.cpy d a q cont trig k) false (if trig then 5 else 3) (fun c => cKind c.words = 0)) ∧
      (2 ^ 7 ≤ (r 2).toNat → took (.tcpy d a q cont trig k) false (if trig then 6 else 4) (fun c => cKind c.words = 0)) ∧
      (2 ^ 32 ≤ (r 4).toNat → took (.gath d a q cont trig k) false (if trig then 7 else 5) (fun c => cKind c.words = 0)) ∧
      (2 ^ 16 ≤ (r 3).toNat → took (.mcast d a q cont trig) false (if trig then 7 else 5) (fun c => cKind c.words = 0))) ∧
    (place = false → ∀ i, i ∈ [Instr.cpy d a q cont trig k, .tcpy d a q cont trig k, .gath d a q cont trig k, .mcast d a q cont trig,
      .cmd d a q cont] → exec i s =
        .next (s.setQueue die q { x with line := if s.curG ∈ x.line then x.line else x.line ++ [s.curG] }).stalled) ∧
    (∀ e, place = true → slotStop s s.curBlock slot = some e → TrapEnters s → (e = .shelfInvalid ∨ e = .shelfFull) ∧
      TrapsS (.cpy d a q cont trig .slot) s e ∧ TrapsS (.tcpy d a q cont trig .slot) s e ∧ TrapsS (.gath d a q cont trig .slot) s e) ∧
    (s.curBlock.slotCount.toNat ≤ slot ∨ (s.tagOf s.curBlock slot).getLsbD 63 = false → slotStop s s.curBlock slot = some .shelfInvalid) ∧
    (slot < s.curBlock.slotCount.toNat → (s.tagOf s.curBlock slot).getLsbD 63 = true → (s.tagOf s.curBlock slot).getLsbD 62 = false →
      freeFrames s s.curBlock = [] → slotStop s s.curBlock slot = some .shelfFull)

/-- R79, R219: `chain` appends an entry: an empty chain's tail and fetch become the entry; else the old tail's next field, 56 bytes into
it, is written in memory. CHAIN_FETCH reads the entry, accepts its record and moves to the next field; while the queue holds 64 commands it
waits (R74). -/
def Obligations.Chains : Prop :=
  (∀ (s : State) (a b : SReg), s.cur.replaying false = none →
    let v := s.cur.sr a
    let q : BitVec 7 := (s.cur.sr b).extractLsb' 0 7
    let x := s.queue s.curG.die q
    ((s.cur.sr b).toNat < 128 → canonical v = true → v.toNat % 64 = 0 → x.tail = 0 → ∃ t, exec (.chain a b) s = .next t ∧
      t.queue s.curG.die q = { x with tail := v, fetch := v, appends := x.appends ++ [(v, ownCmd s)] } ∧
      t.cur = { s.cur with pc := s.cur.pc + 4 } ∧ t.mem = s.mem) ∧
    (∀ pa s1, (s.cur.sr b).toNat < 128 → canonical v = true → v.toNat % 64 = 0 → x.tail ≠ 0 → Translates s (x.tail + 56) .write pa s1 →
      (x.tail + 56).toNat % 0x10000 ≤ 0xFFF8 → paNode pa = 0 → paRegion pa < 2 → ∃ t, exec (.chain a b) s = .next t ∧
      peek t.mem pa 8 = v.toNat ∧ (∀ y, y < pa ∨ pa + 8 ≤ y → Sparse.get t.mem y = Sparse.get s1.mem y) ∧ (t.queue s.curG.die q).tail = v) ∧
    ((128 ≤ (s.cur.sr b).toNat ∨ canonical v = false ∨ v.toNat % 64 ≠ 0) → TrapEnters s → TrapsS (.chain a b) s .operandRange)) ∧
  (∀ (s : State) (die : BitVec 3) (q : BitVec 7), 64 ≤ (s.queue die q).cmds.length → exec (.chainFetch die q) s = .next s) ∧
  ∀ (s s1 : State) (die : BitVec 3) (q : BitVec 7) (c : Cmd) (v : Nat),
    let x := s.queue die q
    let s0 := s.setQueue die q { x with owner := some c, appends := x.appends.filter (fun p => p.1 != x.fetch) }
    x.fetch ≠ 0 → x.fetch.toNat % 64 = 0 → x.cmds.length < 64 → x.fetchHalt = 0 → x.fetchEnd = 0 →
    (match x.appends.find? (fun p => p.1 == x.fetch) with | some p => some p.2 | none => x.owner) = some c → (∀ st, c.st ≠ .ended st) →
    (engRead die c x.fetch 64).run s0 = .ok v s1 →
    ∃ t e, exec (.chainFetch die q) s = .next t ∧ (t.queue die q).cmds = (s1.queue die q).cmds ++ [e] ∧ e.words = BitVec.ofNat 512 v ∧
      e.n = (s1.queue die q).seqNext ∧ (t.queue die q).seqNext = (s1.queue die q).seqNext + 1 ∧
      (t.queue die q).fetch = (BitVec.ofNat 512 v).extractLsb' 448 64 ∧ t.mem = s1.mem

/-- R75, R78, R81, R82, R87, R88: the steps of a copy queue; that one step copies what is left of the lowest begun command is the model's
choice (log 2). A command begins in order once its trigger is reached, or was; a cancelled one ends with
status 0x15; a contiguous copy moves its bytes; a command at the head that ends moves `seq_done`; a deferred fault halts the command
and posts its record; a resume lets halted commands go on; an abandoned command ends with the status of its fault, and so does the entry of
an abandoned chain fetch, which takes a number when the queue has a place for it (log 105, the model's choice). -/
def Obligations.EngineEvents : Prop :=
  (∀ (s : State) (die : BitVec 3) (q : BitVec 7) (c : Cmd), (s.queue die q).nextBegin = some c →
    let x := s.queue die q
    (c.cancel = true → exec (.commandBegin die q) s = .next (s.endCmd die q c 0x15)) ∧
    (c.cancel = false → c.recAt = none → recordOk c.words = true → cTrig c.words = true → c.hit = false →
      reached (s.ctr die (c.words.extractLsb' 416 8)) (c.words.extractLsb' 64 64) = false →
      ∃ t, exec (.commandBegin die q) s = .next t ∧ t.queue die q = x.setCmd { c with begun := false } ∧ t.mem = s.mem) ∧
    (c.cancel = false → c.recAt = none → recordOk c.words = true → cKind c.words = 1 → cDst c.words = 0 → c.dims = [] → c.took = false →
      c.isHeld s die = false →
      (cTrig c.words = true → c.hit = true ∨ reached (s.ctr die (c.words.extractLsb' 416 8)) (c.words.extractLsb' 64 64) = true) →
      ∃ t, exec (.commandBegin die q) s = .next t ∧
        t.queue die q = x.setCmd { c with st := .begun, started := true, begun := true } ∧ t.mem = s.mem)) ∧
  (∀ (s s1 s2 : State) (die : BitVec 3) (c : Cmd) (k pa pb : Nat), cKind c.words = 1 → cDst c.words = 0 →
    (translate (c.agent die) (cSrc c.words + BitVec.ofNat 64 k) .read).run s = .ok pa s1 →
    (physRead (c.agent die) (cSrc c.words + BitVec.ofNat 64 k) pa 1).run s1 = .ok (Sparse.get s1.mem pa).toNat s1 →
    (translate (c.agent die) (cDest c.words + BitVec.ofNat 64 k) .write).run s1 = .ok pb s2 → paNode pb = 0 → paRegion pb < 2 →
    ∃ t, (copyElem die c k none).run s = .ok (.go, some 0) t ∧ Sparse.get t.mem pb = Sparse.get s1.mem pa ∧
      ∀ y, y ≠ pb → Sparse.get t.mem y = Sparse.get s2.mem y) ∧
  (∀ (s s1 : State) (die : BitVec 3) (q : BitVec 7) (c : Cmd), (s.queue die q).nextRun = some c →
    (copyFrom die c (c.total - c.progress) c.progress none s = (.done, s1) →
      exec (.commandComplete die q) s = .next (s1.endCmd die q c 0)) ∧
    (∀ i k, copyFrom die c (c.total - c.progress) c.progress none s = (.fault i k, s1) → i.cause.deferred = true →
      ∃ t rec, exec (.engineHalt die q) s = .next t ∧ exec (.commandComplete die q) s = .next t ∧
        t.queue die q = (s1.queue die q).setCmd { c with progress := k, st := .halted i.cause.code, begun := true } ∧
        (t.part c.part).waiting = (s1.part c.part).waiting ++ [rec] ∧ rec.extractLsb' 60 4 = 1#4 ∧ rec.extractLsb' 52 8 = i.cause.code ∧
        t.mem = s1.mem)) ∧
  (∀ (s : State) (die : BitVec 3) (q : BitVec 7) (c : Cmd) (rest : List Cmd) (st : BitVec 8),
    (s.queue die q).cmds = c :: rest → (∀ e ∈ rest, e.n ≠ c.n ∧ e.open = true) → c.bufs = [] → c.recAt = none → c.targets = [] →
    let t := s.endCmd die q c st
    (t.queue die q).seqDone = c.n ∧ (t.queue die q).cmds = rest ∧
      (st = 0 → (t.queue die q).lastStatus = (s.queue die q).lastStatus) ∧
      (st ≠ 0 → (t.queue die q).lastStatus = st ∧ (t.queue die q).lastErr = c.n) ∧ t.mem = s.mem) ∧
  ∀ (s : State) (die : BitVec 3) (q : BitVec 7),
    let x := s.queue die q
    (exec (.queueResume die q) s = .next (s.setQueue die q { x with fetchHalt := 0, cmds := x.cmds.map (fun c =>
      match c.st with | .halted _ => { c with st := if c.started then .begun else .accepted } | _ => c) })) ∧
    (∀ o, x.cmds = [] → x.fetchHalt ≠ 0 → x.owner = some o → o.bufs = [] → o.recAt = none → o.targets = [] →
      ∃ t, exec (.queueAbandon die q) s = .next t ∧ (t.queue die q).seqDone = x.seqNext ∧ (t.queue die q).seqNext = x.seqNext + 1 ∧
        (t.queue die q).cmds = [] ∧ (t.queue die q).fetch = 0 ∧ (t.queue die q).fetchHalt = 0 ∧ (t.queue die q).lastStatus = x.fetchHalt ∧
        (t.queue die q).lastErr = x.seqNext ∧ t.mem = s.mem) ∧
    (∀ o, 64 ≤ x.cmds.length → (∀ c ∈ x.cmds, ∀ code, c.st ≠ .halted code) → x.fetchHalt ≠ 0 → x.owner = some o →
      exec (.queueAbandon die q) s = .next (s.setQueue die q { x with fetchHalt := 0, fetchEnd := x.fetchHalt })) ∧
    (∀ c code, x.cmds = [c] → c.st = .halted code → code ≠ 0 → x.fetchHalt = 0 → c.bufs = [] → c.recAt = none → c.targets = [] →
      ∃ t, exec (.queueAbandon die q) s = .next t ∧ (t.queue die q).seqDone = c.n ∧ (t.queue die q).cmds = [] ∧
        (t.queue die q).lastStatus = code ∧ (t.queue die q).lastErr = c.n ∧ t.mem = s.mem)

/-! The shelf, published buffers, barriers, scheduling (R69 to R73, R84, R85, R212 to R214, R221, R222, R313, R314) -/

/-- R71, R212 to R214: lookup, install, evict and read of a slot, the publish of a slot and PUBLISH_SWAP. -/
def Obligations.ShelfSlots : Prop :=
  (∀ (s : State) (d a b : SReg) (blk : Block), s.blockAt s.cur = some blk →
    let v := s.cur.sr a
    let k := s.cur.sr b
    let e := s.tagOf blk v.toNat
    let bad := fun (i : Instr) => v.toNat ≥ blk.slotCount.toNat → TrapEnters s → TrapsS i s .shelfRange
    bad (.slotInst a b) ∧ bad (.slotEvict d a) ∧ bad (.slotRd d a) ∧ bad (.publSlot d a) ∧
    (2 ^ 40 ≤ v.toNat → TrapEnters s → TrapsS (.lkup d a) s .operandRange) ∧
    -- lookup: the lowest valid slot of the key, else the lowest free slot, else neither
    (v.toNat < 2 ^ 40 → WritesS (.lkup d a) s d (fun x =>
      let valid := fun (i : Nat) => (s.tagOf blk i).getLsbD 63
      let has := fun (i : Nat) => valid i && ((s.tagOf blk i).toNat % 2 ^ 40 == v.toNat)
      (∀ i, i < blk.slotCount.toNat → has i = true → (∀ j, j < i → has j = false) → x.toNat = i) ∧
      ((∀ i, i < blk.slotCount.toNat → has i = false) →
        (∀ i, i < blk.slotCount.toNat → valid i = false → (∀ j, j < i → valid j = true) → x.toNat = 0x100 + i) ∧
        ((∀ i, i < blk.slotCount.toNat → valid i = true) → x.toNat = 0x200)))) ∧
    (v.toNat < blk.slotCount.toNat →
      WritesS (.slotRd d a) s d (fun x => x = e) ∧
      (k.toNat < 2 ^ 40 → e.getLsbD 63 = true → ∃ t, exec (.slotInst a b) s = .next t ∧
        (t.tagOf blk v.toNat).toNat % 2 ^ 40 = k.toNat ∧ (t.tagOf blk v.toNat).extractLsb' 40 24 = e.extractLsb' 40 24 ∧
        (∀ i, i ≠ v.toNat → t.tagOf blk i = s.tagOf blk i) ∧ t.cur = { s.cur with pc := s.cur.pc + 4 } ∧ t.mem = s.mem) ∧
      (k.toNat < 2 ^ 40 → e.getLsbD 63 = false → freeFrames s blk ≠ [] → ∃ t f, exec (.slotInst a b) s = .next t ∧
        f ∈ freeFrames s blk ∧ (∀ g ∈ freeFrames s blk, f.toNat ≤ g.toNat) ∧
        (t.tagOf blk v.toNat).getLsbD 63 = true ∧ (t.tagOf blk v.toNat).extractLsb' 48 8 = f ∧
        (t.tagOf blk v.toNat).toNat % 2 ^ 40 = k.toNat ∧ (∀ i, i ≠ v.toNat → t.tagOf blk i = s.tagOf blk i) ∧
        t.cur = { s.cur with pc := s.cur.pc + 4 } ∧ t.mem = s.mem) ∧
      (k.toNat < 2 ^ 40 → e.getLsbD 63 = false → freeFrames s blk = [] → TrapEnters s → TrapsS (.slotInst a b) s .shelfFull) ∧
      (e.getLsbD 63 = false → WritesS (.slotEvict d a) s d (fun x => x = 2)) ∧
      (e.getLsbD 63 = true → e.getLsbD 62 = true ∨ slotPinned s blk v.toNat = true → WritesS (.slotEvict d a) s d (fun x => x = 1)) ∧
      (e.getLsbD 63 = true → e.getLsbD 62 = false → slotPinned s blk v.toNat = false → ∃ t, exec (.slotEvict d a) s = .next t ∧
        (t.tagOf blk v.toNat).getLsbD 63 = false ∧ t.cur.sr d = 0 ∧ t.cur.pc = s.cur.pc + 4 ∧
        (∀ i, i ≠ v.toNat → t.tagOf blk i = s.tagOf blk i) ∧ t.mem = s.mem) ∧
      (e.getLsbD 62 = false → WritesS (.publSlot d a) s d (fun x => x = 1)) ∧
      (e.getLsbD 62 = true → exec (.publSlot d a) s =
        .next (s.setCur { s.cur with wait := .publSlot (v.extractLsb' 0 8) d }).stalled))) ∧
  ∀ (s : State) (g : Gid) (sl : BitVec 8) (d : SReg) (b : Block), (s.group g).wait = .publSlot sl d → s.blockAt (s.group g) = some b →
    let e := s.tagOf b sl.toNat
    let ends := fun (t : State) (st : W64) => exec (.publishSwap g) s = .next t ∧ t.group g = { s.group g with
      s := (s.group g).s.set d.toNat st d.isLt, wait := .none, pc := (s.group g).pc + 4 } ∧ t.mem = s.mem
    (e.getLsbD 62 = true → slotFilling s b sl.toNat = true → exec (.publishSwap g) s = .next s) ∧
    (e.getLsbD 62 = true → slotFilling s b sl.toNat = false → e.getLsbD 61 = false →
      ∃ t, ends t 0 ∧ (t.tagOf b sl.toNat).extractLsb' 48 8 = e.extractLsb' 40 8 ∧ (t.tagOf b sl.toNat).getLsbD 62 = false) ∧
    (e.getLsbD 62 = true → slotFilling s b sl.toNat = false → e.getLsbD 61 = true →
      ∃ t, ends t 2 ∧ (t.tagOf b sl.toNat).extractLsb' 48 8 = e.extractLsb' 48 8 ∧ (t.tagOf b sl.toNat).getLsbD 62 = false)

/-- R84, R85, R214: `publ.buf` of a buffer with nothing pending returns 1, else the publish has begun, takes its die's next number and the
group waits. PBUF_PUBLISH_SWAP leaves it waiting while a copy into the buffer that the publish does not hold back has not completed; else it
puts the back frame into the leaf of the buffer's address, invalidates the leaf's whole page on every die, exchanges the frames and goes on
with 0, with 2 where a copy failed, or with 0x1A where no leaf maps the front frame, an address with no leaf among them (log entry 96, the
model's choice); a table word that could not be corrected traps, a halted group when it resumes (R389). A copy that no publish holds back
any longer is outstanding, and one that ended with an error while it was held back leaves its error then. That publishes are numbered, that a
copy is held back by the numbers of those that began before it, and that the error is kept until the last of them returns, are the model's
reading of R85 (DEDUCED, log entry 55).
PBUF_DESC_WRITE writes a descriptor only while it is not valid; word 2 sets valid only with an acceptable back frame; a valid one
is cleared by a write of word 2 (log entry 86, the model's choice). A `cmd` that has not begun fills the buffers that its record names (log
entry 83). -/
def Obligations.PublishedBuffers : Prop :=
  (∀ (s : State) (d a : SReg),
    let v := s.cur.sr a
    let e := Sparse.get (s.die s.curG.die).pbufs v.toNat
    (256 ≤ v.toNat → TrapEnters s → TrapsS (.publBuf d a) s .operandRange) ∧
    (v.toNat < 256 → e.getLsbD 168 = false → WritesS (.publBuf d a) s d (fun x => x = 1)) ∧
    (v.toNat < 256 → e.getLsbD 168 = true → exec (.publBuf d a) s =
      let die := s.die s.curG.die
      .next ((s.setCur { s.cur with wait := .publBuf (v.extractLsb' 0 8) d die.publs }).setDie s.curG.die
        { die with publs := die.publs + 1 }).stalled)) ∧
  (∀ (s : State) (g : Gid) (b : BitVec 8) (d : SReg) (n : Nat), (s.group g).wait = .publBuf b d n →
    ((s.group g).h.pend ≠ none → exec (.pbufPublishSwap g) s = .next s) ∧
    ((s.group g).h.pend = none →
    let e := Sparse.get (s.die g.die).pbufs b.toNat
    let walk := walkTables s g.die (e.extractLsb' 172 20) (e.extractLsb' 192 64)
    let ends := fun (t : State) (st : W64) => exec (.pbufPublishSwap g) s = .next t ∧ (t.group g).sr d = st ∧ (t.group g).wait = .none ∧
      (t.group g).pc = (s.group g).pc + 4
    let after := fun (t : State) => Sparse.get (t.die g.die).pbufs b.toNat
    -- pending again only for a copy that this publish was the last to hold back
    let clean := ∀ x ∈ (s.die g.die).spoilt, x.1 ≠ b.toNat
    let settled := fun (t : State) =>
      (clean → (∀ p ∈ (s.die g.die).queues, ∀ c ∈ p.2.cmds, c.held = []) → (after t).getLsbD 168 = false) ∧
      (∀ x ∈ (s.die g.die).spoilt, x.1 = b.toNat → (∀ k ∈ x.2, ∀ p ∈ t.publishes g.die, p.2 ≠ k) → e.getLsbD 169 = true →
        (after t).getLsbD 167 = true ∧ (after t).getLsbD 168 = true) ∧
      ∀ p ∈ (s.die g.die).queues, ∀ c ∈ p.2.cmds, c.held ≠ [] → c.isHeld t g.die = false → c.recAt = none → b.toNat ∈ c.bufs →
        e.getLsbD 169 = true → (after t).getLsbD 168 = true
    (e.getLsbD 168 = true →
      (∃ p ∈ (s.die g.die).queues, ∃ c ∈ p.2.cmds, n ∉ c.held ∧ b.toNat ∈ (c.look s g.die).bufs) → exec (.pbufPublishSwap g) s = .next s) ∧
    (e.getLsbD 168 = true →
      (∀ p ∈ (s.die g.die).queues, ∀ c ∈ p.2.cmds, n ∉ c.held → b.toNat ∉ (c.look s g.die).bufs) →
      (e.getLsbD 167 = true → ∃ t, ends t 2 ∧ settled t ∧ (clean → (after t).getLsbD 167 = false) ∧
        (after t).extractLsb' 0 128 = e.extractLsb' 0 128 ∧ t.mem = s.mem) ∧
      (e.getLsbD 167 = false → walk ≠ .ecc → (∀ lvl l a, walk = .leaf lvl l a → leafFrame l ≠ (e.extractLsb' 0 64).toNat) →
        ∃ t, ends t 0x1A ∧ (clean → after t = e) ∧ t.mem = s.mem) ∧
      (e.getLsbD 167 = false → walk = .ecc → (s.group g).h.on = false → s.isLogit (s.group g).part (s.group g).launch = false →
        (s.group g).st ≠ .exiting → s.mxErrOf g = none → ∃ r, RecordOf r .dataError (s.group g).pc ∧
          exec (.pbufPublishSwap g) s = .next (if (s.group g).h.halted then
            s.setGroup g { s.group g with h := { (s.group g).h with
              pend := some { cause := .dataError, record := r, pc := (s.group g).pc, lpc := (s.group g).ln.lpc } } }
            else s.enterHandler g .dataError r (s.group g).pc (s.group g).ln.lpc)) ∧
      (∀ lvl l a, e.getLsbD 167 = false → walk = .leaf lvl l a → leafFrame l = (e.extractLsb' 0 64).toNat →
        ∃ t, ends t 0 ∧ (after t).extractLsb' 0 64 = e.extractLsb' 64 64 ∧ (after t).extractLsb' 64 64 = e.extractLsb' 0 64 ∧
          settled t ∧ (t.read64 a).toNat / 2 ^ 16 = (e.extractLsb' 64 64).toNat / 2 ^ 16 ∧
          (t.read64 a).toNat % 2 ^ 16 = l.toNat % 2 ^ 16 ∧
          ∀ (c : BitVec 10), ∀ x ∈ (t.core c).tlb, x.pasid = e.extractLsb' 172 20 →
            pageIn x.page (pageSize x.lvl.toNat) ((e.extractLsb' 192 64).toNat / pageSize lvl * pageSize lvl) (pageSize lvl) = false)))) ∧
  ∀ (s : State) (die : BitVec 3) (b : BitVec 8) (w : BitVec 2) (v : W64),
    let e := Sparse.get (s.die die).pbufs b.toNat
    ∃ t, exec (.pbufDescWrite die b w v) s = .next t ∧
      (∀ k, k ≠ b.toNat → Sparse.get (t.die die).pbufs k = Sparse.get (s.die die).pbufs k) ∧ t = { s with dies := t.dies } ∧
      let n := Sparse.get (t.die die).pbufs b.toNat
      (e.getLsbD 169 = true → w ≠ 2 ∨ v.getLsbD 41 = true → n = e) ∧
      (e.getLsbD 169 = true → w = 2 → v.getLsbD 41 = false → n.getLsbD 169 = false ∧ ∀ i, i ≠ 169 → n.getLsbD i = e.getLsbD i) ∧
      (e.getLsbD 169 = false → w ≠ 2 → n.extractLsb' (64 * w.toNat) 64 = v ∧
        ∀ k, k < 4 → k ≠ w.toNat → n.extractLsb' (64 * k) 64 = e.extractLsb' (64 * k) 64) ∧
      (e.getLsbD 169 = false → w = 2 →
        let front := e.extractLsb' 0 64
        let back := e.extractLsb' 64 64
        (∀ k, k < 4 → k ≠ 2 → n.extractLsb' (64 * k) 64 = e.extractLsb' (64 * k) 64) ∧
        n.extractLsb' 172 20 = v.extractLsb' 44 20 ∧ n.extractLsb' 170 2 = v.extractLsb' 42 2 ∧ n.extractLsb' 128 39 = 0 ∧
        n.extractLsb' 167 2 = e.extractLsb' 167 2 ∧
        (n.getLsbD 169 = true ↔ v.getLsbD 41 = true ∧ v.getLsbD 43 = false ∧ paNode back.toNat = 0 ∧ paRegion back.toNat = 0 ∧
          back.toNat % (if v.getLsbD 42 then 0x20000000 else 0x10000) = 0 ∧ back ≠ front))

/-- R221, R222: a block barrier. The arrival that reaches the count completes the phase and closes it; an earlier `.sync` waits, an earlier
`.arv` goes on; a stream that waits goes on once its phase has completed; a wrong count traps, and so does a count outside 1 to 16.
A form that arrives waits for the lane blocks first, the shelf reads of the group's running loop among their events (R141, R43, log 76);
`.wait` does not.
R221, R222: the rectangle, die and package barriers. Where the current group is the one of its block that is left, the phase completes with
the arrival of the last expected block; until then `.sync` waits and `.arv` goes on. A `.wait` waits for the phase of the group's latest
arrival with that index. `dbar` and `pbar` of a launch that is not resident trap, and so does `rbar` outside its rectangle, with no phase
opened (DEDUCED, log entry 66, the model's choice). A first `rbar` arrival at a rectangle that is not fully occupied traps and marks the
phase failed; every later one traps in the same way and leaves it as it is. -/
def Obligations.Barriers : Prop :=
  ((∀ (s : State) (a : SReg) (m : BarMode) (i : BitVec 4) (blk : Block), s.blockAt s.cur = some blk → s.cur.wait = .none →
     let n := (s.cur.sr a).toNat
     let x := blk.bars[i.toNat]
     let k := if x.isOpen then x.arr.toNat + 1 else 1
     let id : BarId := { kind := 0, idx := i, rect := 0 }
     let bar := fun (t : State) => (t.blockAt t.cur).map (fun b => b.bars[i.toNat])
     let may := s.cur.laneIdle = true ∧ s.loopReads s.curG = false
     (¬ may → m ≠ .wait → exec (.bar a m i) s = .next s.stalled) ∧
     (may → m ≠ .wait → n = 0 ∨ 16 < n → TrapEnters s → TrapsS (.bar a m i) s .operandRange) ∧
     (may → m ≠ .wait → 1 ≤ n → n ≤ 16 → x.isOpen = true → x.count.toNat ≠ n → TrapEnters s →
       TrapsS (.bar a m i) s .barCount) ∧
     (may → m ≠ .wait → 1 ≤ n → n ≤ 16 → (x.isOpen = true → x.count.toNat = n) →
       (n ≤ k → ∃ t, exec (.bar a m i) s = .next t ∧ t.cur = { s.cur.arrive id x.phase with pc := s.cur.pc + 4 } ∧
         bar t = some { count := BitVec.ofNat 5 n, arr := 0, isOpen := false, phase := x.phase + 1 } ∧ t = { s with groups := t.groups, blocks := t.blocks }) ∧
       (k < n → m = .arv → ∃ t, exec (.bar a m i) s = .next t ∧ t.cur = { s.cur.arrive id x.phase with pc := s.cur.pc + 4 } ∧
         bar t = some { count := BitVec.ofNat 5 n, arr := BitVec.ofNat 5 k, isOpen := true, phase := x.phase }) ∧
       (k < n → m = .sync → ∃ t, exec (.bar a m i) s = .next t ∧ t.cur = { s.cur.arrive id x.phase with wait := .bar id x.phase } ∧
         bar t = some { count := BitVec.ofNat 5 n, arr := BitVec.ofNat 5 k, isOpen := true, phase := x.phase })) ∧
     (m = .wait → s.cur.latest 0 i = none → exec (.bar a m i) s = .next (s.withPc (s.cur.pc + 4))) ∧
     (∀ b p, m = .wait → s.cur.latest 0 i = some (b, p) →
       (s.phaseDone s.curG b p = true → exec (.bar a m i) s = .next (s.setCur { s.cur with wait := .none, pc := s.cur.pc + 4 })) ∧
       (s.phaseDone s.curG b p = false → exec (.bar a m i) s = .next (s.setCur { s.cur with wait := .bar b p }).stalled))) ∧
   ∀ (s : State) (a : SReg) (m : BarMode) (i : BitVec 4) (b : BarId) (p : Nat), s.cur.wait = .bar b p →
     (s.phaseDone s.curG b p = true → exec (.bar a m i) s = .next (s.setCur { s.cur with wait := .none, pc := s.cur.pc + 4 })) ∧
     (s.phaseDone s.curG b p = false → exec (.bar a m i) s = .next s.stalled)) ∧
  (∀ (s : State) (a : SReg) (m : BarMode) (i : BitVec 2) (blk : Block), s.blockAt s.cur = some blk →
     s.members blk = [s.cur.gidx] → s.cur.wait = .none →
     let goes := fun (ins : Instr) (id : BarId) =>
       let w := s.wideBar s.curG.die s.cur id
       w.failed = false → w.fin.contains s.cur.block = false →
       (m = .arv ∨ s.barExpected w ≤ w.fin.length + 1 → m ≠ .wait → ∃ t, exec ins s = .next t ∧
         t.cur = { s.cur.arrive id w.phase with pc := s.cur.pc + 4 } ∧ t = { s with groups := t.groups, bars := t.bars } ∧
         (t.wideBar s.curG.die t.cur id).phase = if s.barExpected w ≤ w.fin.length + 1 then w.phase + 1 else w.phase) ∧
       (m = .sync → w.fin.length + 1 < s.barExpected w → ∃ t, exec ins s = .next t ∧
         t.cur = { s.cur.arrive id w.phase with wait := .bar id w.phase } ∧ t.mem = s.mem)
     let v := s.cur.sr a
     let rect : BarId := { kind := 1, idx := i.setWidth 4, rect := v.extractLsb' 0 16 }
     let w := s.wideBar s.curG.die s.cur rect
     let may := s.cur.laneIdle = true ∧ s.loopReads s.curG = false
     (may → rbarRectOk v = true → (rectCores rect.rect).contains s.curG.core = true →
       w.arrived ≠ [] ∨ rectFull s s.cur rect.rect = true → goes (.rbar a m i) rect) ∧
     (may → s.resident s.cur = true → goes (.dbar m i) { kind := 2, idx := i.setWidth 4, rect := 0 } ∧
       goes (.pbar m i) { kind := 3, idx := i.setWidth 4, rect := 0 }) ∧
     (TrapEnters s → s.resident s.cur = false → TrapsS (.dbar m i) s .barResident ∧ TrapsS (.pbar m i) s .barResident) ∧
     (TrapEnters s → may → m ≠ .wait →
       (rbarRectOk v = false → TrapsS (.rbar a m i) s .operandRange) ∧
       (rbarRectOk v = true → (rectCores rect.rect).contains s.curG.core = false → TrapsS (.rbar a m i) s .rbarTarget) ∧
       (rbarRectOk v = true → (rectCores rect.rect).contains s.curG.core = true →
         (w.failed = true → TrapsS (.rbar a m i) s .rbarTarget) ∧
         (w.failed = false → w.arrived = [] → rectFull s s.cur rect.rect = false → ∃ r, RecordOf r .rbarTarget s.cur.pc ∧
           exec (.rbar a m i) s =
             .next ((s.setWideBar { w with failed := true }).enterHandler s.curG .rbarTarget r s.cur.pc s.cur.ln.lpc)))) ∧
     (¬ may → m ≠ .wait → exec (.rbar a m i) s = .next s.stalled ∧
       (s.resident s.cur = true → exec (.dbar m i) s = .next s.stalled ∧ exec (.pbar m i) s = .next s.stalled)) ∧
     (m = .wait → ∀ (ins : Instr) (kind : BitVec 2),
       (ins = .rbar a m i ∧ kind = 1) ∨ (s.resident s.cur = true ∧ ((ins = .dbar m i ∧ kind = 2) ∨ (ins = .pbar m i ∧ kind = 3))) →
       (s.cur.latest kind (i.setWidth 4) = none → exec ins s = .next (s.withPc (s.cur.pc + 4))) ∧
       ∀ b p, s.cur.latest kind (i.setWidth 4) = some (b, p) →
         (s.phaseDone s.curG b p = true → exec ins s = .next (s.setCur { s.cur with wait := .none, pc := s.cur.pc + 4 })) ∧
         (s.phaseDone s.curG b p = false → exec ins s = .next (s.setCur { s.cur with wait := .bar b p }).stalled)))

/-- R313, R314: `prio` gives the old class and sets the least of the asked class and the partition's greatest; `schrd` reads its items,
those that depend on placement or timing only in a launch that is not deterministic. The cycles that `cyc` counts are free (log 5). -/
def Obligations.SchedulingInstructions : Prop :=
  ∀ (s : State) (d : SReg) (k : BitVec 2),
    let m := ((s.core s.curG.core).quotaA[s.cur.part.toNat]'(s.cur.part.isLt)).extractLsb' 32 2
    let c := if k.toNat < m.toNat then k else m
    let g := s.curG
    let timed := fun (f : SchedItem) (P : W64 → Prop) => (s.isDet s.cur.part s.cur.launch = false → WritesS (.schrd d f) s d P) ∧
      (s.isDet s.cur.part s.cur.launch = true → TrapEnters s → TrapsS (.schrd d f) s .detSched)
    exec (.prio d false k) s = .next (s.setCur { s.cur with
      s := s.cur.s.set d.toNat (s.cur.cls.setWidth 64) d.isLt, cls := c, pc := s.cur.pc + 4 }) ∧
    (∀ b, s.blockAt s.cur = some b → ∃ t, exec (.prio d true k) s = .next t ∧ t.cur.sr d = s.cur.cls.setWidth 64 ∧ t.cur.cls = c ∧
      t.cur.pc = s.cur.pc + 4 ∧ (∀ x ∈ b.gids, (t.group x).cls = c) ∧ (∀ x, x ≠ g → x ∉ b.gids → t.group x = s.group x) ∧ t.mem = s.mem) ∧
    WritesS (.schrd d .core) s d (fun v => v.extractLsb' 0 4 = g.core.extractLsb' 0 4 ∧ v.extractLsb' 4 2 = g.die.extractLsb' 0 2 ∧
      v.extractLsb' 8 3 = g.core.extractLsb' 4 3 ∧ v.getLsbD 11 = g.die.getLsbD 2 ∧ v.extractLsb' 16 3 = g.die) ∧
    WritesS (.schrd d .blk) s d (fun v => v = s.cur.block.setWidth 64) ∧
    WritesS (.schrd d .prio) s d (fun v => v.extractLsb' 0 2 = s.cur.cls ∧ v.extractLsb' 2 6 = 0 ∧ v.extractLsb' 10 54 = 0 ∧
      ∀ l, s.launchOf s.cur.part s.cur.launch = some l → v.extractLsb' 8 2 = l.cls) ∧
    WritesS (.schrd d .part) s d (fun v => v = s.cur.part.setWidth 64) ∧
    timed .slot (fun v => v.extractLsb' 0 6 = g.slot ∧ v.extractLsb' 8 3 = g.slot.extractLsb' 0 3 ∧ v.extractLsb' 16 4 = s.cur.gidx) ∧
    timed .tok (fun v => v.toNat = (s.die g.die).pool.toNat) ∧
    timed .occ (fun v =>
      let own := fun (x : Nat × Group) => x.1 / 64 = g.core.toNat ∧ x.2.live = true ∧ x.2.part = s.cur.part
      let gs := s.groups.filter (fun x => decide (own x))
      let bs := s.blocks.filter (fun b => b.core == g.core && b.part == s.cur.part)
      let qa := (s.core g.core).quotaA[s.cur.part.toNat]'(s.cur.part.isLt)
      let qb := (s.core g.core).quotaB[s.cur.part.toNat]'(s.cur.part.isLt)
      let granules := (gs.map (fun x => x.2.rg.granules.toNat)).sum
      let frames := (bs.map (fun b => b.frames.length)).sum
      let slots := (bs.map (fun b => b.slotCount.toNat)).sum
      (v.extractLsb' 0 8).toNat = (qa.extractLsb' 8 8).toNat - gs.length ∧
      (v.extractLsb' 8 8).toNat = (qa.extractLsb' 24 8).toNat - granules ∧
      (v.extractLsb' 16 9).toNat = ((qb.extractLsb' 16 16).toNat - frames) % 2 ^ 9 ∧
      (v.extractLsb' 32 9).toNat = ((qb.extractLsb' 48 16).toNat - slots) % 2 ^ 9 ∧
      v.extractLsb' 25 7 = 0 ∧ v.extractLsb' 41 23 = 0) ∧
    (s.isDet s.cur.part s.cur.launch = false → ∃ t, exec (.schrd d .cyc) s = .next t ∧
      t.cur = { s.cur with s := s.cur.s.set d.toNat ((s.core g.core).cyc + BitVec.ofNat 64 (Config.freeCycles s.fresh)) d.isLt,
                           pc := s.cur.pc + 4 } ∧
      (t.core g.core).cyc = (s.core g.core).cyc + BitVec.ofNat 64 (Config.freeCycles s.fresh) ∧ t.fresh = s.fresh + 1 ∧ t.mem = s.mem) ∧
    (s.isDet s.cur.part s.cur.launch = true → TrapEnters s → TrapsS (.schrd d .cyc) s .detSched)

/-! Encodings and steps (R152 to R164) -/

/-- R153 to R163: words written out from the spec's layouts decode to the instructions they stand for; words with an unassigned opcode, a
reserved bit, an unlisted code or a register run past s63 are refused. -/
def Obligations.DecodesSpecWords : Prop :=
  let n := natToBytes 4
  let l := natToBytes 12
  decode (n 0x010420C0) = .ok (.add 1 2 3) ∧ decode (n 0x1128BFFF) = .ok (.addi 10 11 0xFFF) ∧
  decode (n 0x401494D0) = .ok (.ld 5 9 2 .b64 (.acq .pkg)) ∧ decode (n 0x30BFFFFC) = .ok (.br true 3 0xFFFFC) ∧
  decode (n 0x303FFFFC) = .ok (.br false 3 0xFFFFC) ∧ decode (n 0x39000012) = .ok (.trap 0x12) ∧
  decode (n 0x3A03E000) = .ok (.hretResume 62) ∧ decode (n 0x3A03E001) = .ok (.hretVacate 62) ∧
  decode (n 0x46A84282) = .ok (.qld 5 2 4 1 .b32 .rlx true) ∧ decode (n 0x501080A9) = .ok (.cpy 4 8 5 false true .slot) ∧
  decode (l 0x100A40080030040000000000) = .ok (.fadd ⟨true, 2, false, 4⟩ (.vec 8) (.vec 3) (.vec 4) .rn false) ∧
  decode (l 0x20078005006D030000D00000) = .ok (.iadd ⟨false, 7, true, 0⟩ (.vec 5) (.vec 6) (.const 3) .n32 false) ∧
  decode (l 0x003700000000000000000200) = .ok (.lbr ⟨false, 7, false, 0⟩ 2) ∧
  decode (l 0x500700020090000006C80010) = .ok (.lld ⟨false, 7, false, 0⟩ (.vec 2) (.vec 9) .b64 ⟨3, .acq .blk, false, 16⟩) ∧
  decode (l 0x605780000000000000200000) = .ok (.mzero ⟨false, 7, true, 0⟩ true) ∧
  decode (l 0x705780040000000000008001) = .ok (.sbind ⟨false, 7, true, 0⟩ 4 0x8001) ∧
  decode (n 0x00000000) = .error .unassigned ∧ decode (n 0x010420C1) = .error .badFields ∧
  decode (n 0x313FFFFC) = .error .badFields ∧ decode (n 0x40FC9510) = .error .badFields ∧
  decode (l 0x100A40080030040000000001) = .error .badFields ∧ decode [0x01] = .error .badLength

/-- R152 to R157, R162, R164: every well-formed instruction of the scalar stream decodes from its encoding, with every operand at every
value; and a word that decodes is the encoding of what it decodes to. -/
def Obligations.ScalarRoundTrip : Prop :=
  (∀ i : Instr, i.wf = true → i.isScalar = true → decode (encode i) = .ok i) ∧
  ∀ (w : W32) (i : Instr), decodeScalar w = .ok i → i.wf = true ∧ i.isScalar = true ∧ encodeScalar i = w

/-- R158 to R161, R163, R164: the same for the lane stream. -/
def Obligations.LaneRoundTrip : Prop :=
  (∀ i : Instr, i.wf = true → i.isLane = true → decode (encode i) = .ok i) ∧
  ∀ (w : BitVec 96) (i : Instr), decodeLane w = .ok i → i.wf = true ∧ i.isLane = true ∧ encodeLane i = w

/-- R141, R164, R165, R166, R316, R319, R329: a step of a stream that nothing holds, whose log is empty and whose next word lies in one page
of memory, runs the instruction that the word decodes to, on the state after the fetch; a block's first instruction first starts the
block's cycle budget (R334). With an instruction in the log only one that may
pass runs, and none that would trap or would itself need the log; a lane instruction that writes what the array's loop has yet to read, or
that touches a drowsy granule, waits, and a logged one waits for its granule as well. Which instructions may pass is the model's reading (logs 49, 76, 104),
and so is that a fetch sees the latest bytes (log 107). A word that is no instruction is an illegal-instruction trap once the log is empty; in a handler it posts a record of kind 5 and the group exits. A stream that replays runs its logged instruction. After its move a stream's boost is cleared. The agenda's order and
the default move are the model's choice (log 3, log 14). -/
def Obligations.StepRunsDecoded : Prop :=
  (∀ (s s0 s1 : State) (g : Gid) (lane : Bool) (rest : List Move) (pa : Nat),
    (s.agenda = .issue g lane :: rest ∧ s0 = { s with agenda := rest, curG := g, curLane := lane }) ∨
      (s.agenda = [] ∧ due s = none ∧ s0 = s ∧ g = s.curG ∧ lane = s.curLane) →
    let n := if lane then 12 else 4
    let does := fun (o : Out) => step s = (match o with | .next t => .next (t.unboost g lane) | o => o)
    (∀ o, hold s0 = some o → does o) ∧
    (hold s0 = none →
      let u := s0.began g
      (∀ l i, u.cur.replaying lane = some l → l.instr = some i →
        (lane = false ∨ drowsyHit u i = false → does (exec i u)) ∧ (lane = true → drowsyHit u i = true → does (.next u.stalled))) ∧
      (u.cur.replaying lane = none → (lane = false → u.cur.pc.toNat % 4 = 0) →
        (translate { groupAgent g u.cur with who := none } u.wordAddr .fetch).run u = .ok pa s1 →
        u.wordAddr.toNat % 0x10000 + n ≤ 0x10000 → paNode pa = 0 → paRegion pa < 2 → s1.bad pa n = false → s1.curLane = lane →
        (∀ i, decode (peekBytes s1.mem pa n) = .ok i →
          let waits := lane = true ∧ (loopWaits s1 i = true ∨ drowsyHit s1 i = true)
          let ends := fun (t : State) => (t.group s1.curG).h.on ≠ s1.cur.h.on ∨ (t.group s1.curG).live ≠ s1.cur.live ∨
            (t.group s1.curG).log lane ≠ s1.cur.log lane
          (waits → does (.next s1.stalled)) ∧
          (¬ waits → s1.cur.log lane = none → does (exec i s1)) ∧
          (∀ l, ¬ waits → s1.cur.log lane = some l →
            (mayPass s1 l i = false → does (.next s1.stalled)) ∧
            ∀ t, mayPass s1 l i = true → exec i s1 = .next t →
              (¬ ends t → does (.next t)) ∧ (ends t → does (.next (s1.noted t).stalled)))) ∧
        (∀ e, decode (peekBytes s1.mem pa n) = .error e →
          (∀ l, s1.cur.log lane = some l → does (.next s1.stalled)) ∧
          (s1.cur.log lane = none → TrapEnters s1 → ∃ r, RecordOf r .illegalInstr s1.wordAddr ∧
            does (.next (s1.enterHandler s1.curG .illegalInstr r s1.cur.pc s1.cur.ln.lpc))) ∧
          (s1.cur.log lane = none → s1.cur.h.on = true → s1.mxErrOf s1.curG = none →
            ∃ r, r.extractLsb' 60 4 = 5#4 ∧ r.extractLsb' 52 8 = 0x10#8 ∧
              does (.next ((s1.post s1.cur.part [r]).exitGroup s1.curG))))))) ∧
  ∀ (s : State) (i : Instr),
    (∀ rest, s.agenda = .event i :: rest → step s = if i.isEvent then exec i { s with agenda := rest } else .fault .notAnEvent) ∧
    (s.agenda = [] → due s = some i → step s = exec i s)

/-! Safety and invariants -/

/-- No instruction and no event of the opcode table faults or refuses, in any state: each answers a next state; and a machine whose agenda
names only events goes on for ever. -/
def Obligations.MachineAlwaysGoesOn : Prop :=
  (∀ (i : Instr) (s : State), ∃ t, exec i s = .next t) ∧ ∀ s : State, AgendaOk s → SafeFrom s

/-- Every step keeps memory, the package's and the host's, in its canonical form and the agenda free of instruction rows. -/
def Obligations.StepKeepsInv : Prop :=
  ∀ s t : State, Inv s → Goes s t → Inv t

/-- What reset leaves: the values that the spec's tables give (R18, R69, R75, R76, R101, R133, R145, R305, R323, R354, R364, R382, R387):
no group lives, no launch is known, each die has 96 tokens and empty queues whose next number is 1, the power cap is 3,600, every register
listed here reads 0; memory reads as 0x00 (log 1, the model's choice); the invariant holds. -/
def Obligations.ResetState : Prop :=
  let s := State.reset
  Inv s ∧ (∀ g : Gid, (s.group g).live = false) ∧ s.blocks = [] ∧ s.launches = [] ∧
  (∀ d : BitVec 3, (s.die d).pool = 96 ∧ (s.die d).ptBase = 0 ∧ (s.die d).ftzRing = 0 ∧ (s.die d).ftzHead = 0 ∧ (s.die d).ftzTail = 0 ∧
    ∀ q : BitVec 7, (s.queue d q).seqDone = 0 ∧ (s.queue d q).seqNext = 1 ∧ (s.queue d q).tail = 0 ∧ (s.queue d q).cmds = []) ∧
  (∀ (d : BitVec 3) (c : BitVec 8), s.ctr d c = 0 ∧ Sparse.get (s.die d).pbufs c.toNat = 0) ∧
  (∀ c : BitVec 10, (s.core c).cyc = 0 ∧ (s.core c).rfDrowsy = 0 ∧ (s.core c).mx.holder = none ∧ (s.core c).mx.mode = .idle ∧
    ∀ p : Fin 8, (s.core c).quotaA[p] = 0 ∧ (s.core c).quotaB[p] = 0) ∧
  (∀ p : BitVec 3, (s.part p).fqEn = false ∧ (s.part p).tvec = 0 ∧ (s.part p).preReq = false ∧ (s.mantel p).acc = 0 ∧ (s.mantel p).count = 0) ∧
  (∀ i : BitVec 12, (s.iface i).cfg = 0 ∧ (s.iface i).subTail = (s.iface i).subHead) ∧ s.act = [] ∧ s.plat.pwrCap = 3600 ∧
  s.plat.reserve = 0 ∧ ∀ a, Sparse.get s.mem a = 0

/-! Gangs (R337 to R351) -/

/-- R337 to R350: the gang and sequence forms on a live record in range, whose address translates to `pa`: each performs one atomic action,
which gives status 0 and the record's new fields, or another status and no change: pin (with the publish of R342), unpin, home, request,
resume, cancel, read, commit, reserve, purge, end, next generation. A dead record answers 6 and one out of range 4; a misaligned one traps, and so
does one that translates to anything else than region 0 of node 0. Home and read only read; every other form writes the whole record, also
where no bit changes (R224, R338; log 87). -/
def Obligations.GangForms : Prop :=
  ∀ (s s1 : State) (d a b : SReg) (pa : Nat), s.cur.replaying false = none →
    let x := s.cur.sr b
    let y := s.cur.srAt b 1
    let forms : List Instr := [.gangPin d a, .gangUnpin d a b, .gangHome d a b, .gangReq d a b, .gangRes d a, .gangCxl d a, .kvcCmt d a b,
      .kvcRsv d a b, .kvcPurge d a b, .kvcEnd d a b, .vgen d a b]
    ((s.cur.sr a).toNat % 256 ≠ 0 → TrapEnters s → (∀ i ∈ forms, TrapsS i s .operandRange) ∧ TrapsS (.gangRd d a b) s .operandRange) ∧
    (∀ x, (s.cur.sr a).toNat % 256 = 0 → (translateLeaf (groupAgent s.curG s.cur) (s.cur.sr a) .atomic).run s = .ok (pa, x) s1 →
      inHbm pa = false → TrapEnters s1 → ∀ i ∈ Instr.gangRd d a b :: forms, ∃ rec, RecordOf rec .operandRange s.cur.pc ∧
        exec i s = .next (s1.enterHandler s.curG .operandRange rec s.cur.pc s1.cur.ln.lpc)) ∧
    ((s.cur.sr a).toNat % 256 = 0 → Translates s (s.cur.sr a) .atomic pa s1 → inHbm pa = true → s1.bad pa 256 = false →
      ((groupAgent s.curG s.cur).who.bind (fun w => tagAbove s1 w pa 256)) = none →
      let r : Scr := BitVec.ofNat 2048 (peek s1.mem pa 256)
      let status := fun (u : State) (st : Nat) =>
        u.setCur { u.cur with s := u.cur.s.set d.toNat (BitVec.ofNat 64 st) d.isLt, pc := u.cur.pc + 4 }
      let reads := fun (i : Instr) (st : Nat) => exec i s = .next (status s1 st)
      let no := fun (i : Instr) (st : Nat) => ∃ u, exec i s = .next (status u st) ∧
        (physWrite (groupAgent s.curG s.cur) pa (natToBytes 256 r.toNat)).run s1 = .ok () u ∧ (∀ q, Sparse.get u.mem q = Sparse.get s1.mem q)
      let okIf := fun (i : Instr) (fields : List (Nat × Nat × Nat)) (l : List W64) (f : State → Prop) => ∃ t, exec i s = .next t ∧
        bitsBecome (BitVec.ofNat 2048 (peek t.mem pa 256)) r fields ∧
        (∀ q, q < pa ∨ pa + 256 ≤ q → Sparse.get t.mem q = Sparse.get s1.mem q) ∧
        t.cur = { s1.cur with s := t.cur.s, pc := s1.cur.pc + 4, fired := t.cur.fired } ∧ t.cur.sr d = 0 ∧
        (∀ k, k < l.length → t.cur.sr (d + BitVec.ofNat 6 (k + 1)) = l.getD k 0) ∧
        (∀ q : SReg, q ≠ d → (∀ k, k < l.length → q ≠ d + BitVec.ofNat 6 (k + 1)) → t.cur.sr q = s1.cur.sr q) ∧
        (∀ g : Gid, g ≠ s.curG → t.group g = { s1.group g with fired := (t.group g).fired }) ∧
        t = { s1 with mem := t.mem, groups := t.groups, dtags := t.dtags, badWords := t.badWords, gangs := t.gangs } ∧ f t
      let ok := fun (i : Instr) (fields : List (Nat × Nat × Nat)) (l : List W64) => okIf i fields l (fun t => t.gangs = s1.gangs)
      let o := x.toNat
      (o % 8 = 0 → o < 256 → ok (.gangRd d a b) [] [r.extractLsb' (8 * o) 64]) ∧ (o % 8 ≠ 0 ∨ 256 ≤ o → reads (.gangRd d a b) 4) ∧
      (r.live = false → reads (.gangHome d a b) 6 ∧ ∀ i ∈ forms, i ≠ .gangHome d a b → no i 6) ∧
      (r.live = true → r.outOfRange = true → reads (.gangHome d a b) 4 ∧ ∀ i ∈ forms, i ≠ .gangHome d a b → no i 4) ∧
      (r.live = true → r.outOfRange = false →
        let word := fun (view mask : Nat) => BitVec.ofNat 64 (r.vg * 2 ^ 48 + mask * 2 ^ 40 + view)
        let view := x.toNat % 2 ^ 32
        let old := r.ret = true ∧ view = (r.view + 2 ^ 32 - 1) % 2 ^ 32
        let len := BitVec.ofNat 64 r.len
        -- R342: a caught-up pending view is published by the pin
        (r.ended = true → no (.gangPin d a) 2) ∧
        (r.ended = false → r.pend = true → r.halt = false → r.prog = r.len →
          ok (.gangPin d a) [(0, 32, (r.view + 1) % 2 ^ 32), (40, 8, r.mask), (48, 8, r.omask), (58, 1, 1 - r.bank), (60, 1, 0),
              (128, 64, r.len), (224, 16, r.vg), (271, 1, if r.curPins = 0 then 0 else 1), (272, 24, r.curPins), (296, 24, 1), (320, 64, 0)]
            [word ((r.view + 1) % 2 ^ 32) r.omask, len, len]) ∧
        (r.ended = false → r.pend = false ∨ r.halt = true ∨ r.prog ≠ r.len →
          (r.curPins = 2 ^ 24 - 1 → no (.gangPin d a) 1) ∧
          (r.curPins ≠ 2 ^ 24 - 1 → ok (.gangPin d a) [(296, 24, r.curPins + 1)] [word r.view r.mask, len, BitVec.ofNat 64 r.specEnd])) ∧
        -- R343
        (view = r.view → (r.curPins = 0 → no (.gangUnpin d a b) 4) ∧
          (r.curPins ≠ 0 → ok (.gangUnpin d a b) [(296, 24, r.curPins - 1)] [])) ∧
        (view ≠ r.view → old → (r.retPins = 0 → no (.gangUnpin d a b) 4) ∧
          (r.retPins = 1 → ok (.gangUnpin d a b) [(272, 24, 0), (271, 1, 0)] []) ∧
          (1 < r.retPins → ok (.gangUnpin d a b) [(272, 24, r.retPins - 1)] [])) ∧
        (view ≠ r.view → ¬ old → no (.gangUnpin d a b) 3) ∧
        -- R339, R344: position x under the view in the low half of y
        (let v := y.toNat % 2 ^ 32
         let home := fun (m bank : Nat) =>
          let c := x.toNat / 2 ^ r.chunkLog
          let i := c / popMask m * 2 ^ r.chunkLog + x.toNat % 2 ^ r.chunkLog
          let die := nthMember m (c % popMask m)
          (r.cap bank ≤ i → reads (.gangHome d a b) 4) ∧
          (i < r.cap bank → ok (.gangHome d a b) [] [BitVec.ofNat 64 (r.base bank die + i * 2 ^ r.entryLog), BitVec.ofNat 64 die])
         (v = r.view → home r.mask r.bank) ∧
         (v ≠ r.view → r.ret = true → v = (r.view + 2 ^ 32 - 1) % 2 ^ 32 → home r.omask (1 - r.bank)) ∧
         (v ≠ r.view → r.ret = false ∨ v ≠ (r.view + 2 ^ 32 - 1) % 2 ^ 32 → reads (.gangHome d a b) 3)) ∧
        -- R345 to R347
        (let m := x.toNat % 2 ^ 8
         let c := y.toNat % 2 ^ 32
         (r.ended = true → no (.gangReq d a b) 2) ∧
         (r.ended = false → r.pend = true ∨ r.ret = true → no (.gangReq d a b) 1) ∧
         (r.ended = false → r.pend = false → r.ret = false → widthOk m = false ∨ popMask m * c < r.specEnd → no (.gangReq d a b) 4) ∧
         (r.ended = false → r.pend = false → r.ret = false → widthOk m = true → r.specEnd ≤ popMask m * c →
           okIf (.gangReq d a b) [(40, 8, m), (384 + 32 * (1 - r.bank), 32, c), (60, 1, 1), (320, 64, 0), (59, 1, 0)] []
             (fun t => t.gangs = { scr := pa, va := s.cur.sr a, priv := s1.cur.priv, part := s1.cur.part } ::
               s1.gangs.filter (fun q => q.scr != pa)))) ∧
        (r.pend = false ∨ r.halt = false → no (.gangRes d a) 7) ∧ (r.pend = true → r.halt = true → ok (.gangRes d a) [(59, 1, 0)] []) ∧
        (r.pend = false → no (.gangCxl d a) 7) ∧
        (r.pend = true → okIf (.gangCxl d a) [(59, 1, 0), (60, 1, 0), (320, 64, 0)] []
          (fun t => t.gangs = s1.gangs.filter (fun q => q.scr != pa))) ∧
        -- R349, R350
        (∀ i ∈ [Instr.kvcCmt d a b, .kvcRsv d a b, .kvcPurge d a b, .vgen d a b],
          (r.ended = true → no i 2) ∧ (r.ended = false → view ≠ r.view → no i 3)) ∧
        (r.ended = true → no (.kvcEnd d a b) 2) ∧ (r.ended = false → 2 ≤ x.toNat → no (.kvcEnd d a b) 4) ∧
        (r.ended = false → x.toNat < 2 → ok (.kvcEnd d a b) [(62, 1, 1), (61, 1, x.toNat)] []) ∧
        (r.ended = false → view = r.view →
          let n := y.toNat
          (r.len ≤ n → n ≤ r.specEnd → ok (.kvcCmt d a b) [(64, 64, n)] []) ∧ (n < r.len ∨ r.specEnd < n → no (.kvcCmt d a b) 4) ∧
          (let fits := r.len ≤ n ∧ n ≤ popMask r.mask * r.cap r.bank ∧ (r.pend = true → n ≤ popMask r.omask * r.cap (1 - r.bank))
           (fits → ok (.kvcRsv d a b) [(128, 64, n)] []) ∧ (¬ fits → no (.kvcRsv d a b) 4)) ∧
          ok (.kvcPurge d a b) [(128, 64, r.len), (224, 16, r.vg)] [] ∧
          ((r.vg + 1) % 2 ^ 16 = r.genLow → no (.vgen d a b) 5) ∧
          ((r.vg + 1) % 2 ^ 16 ≠ r.genLow →
            ok (.vgen d a b) [(240, 16, (r.vg + 1) % 2 ^ 16)] [BitVec.ofNat 64 ((r.vg + 1) % 2 ^ 16)]))))

/-- R346, R347: a pass of a redistribution copies every committed entry from its home to its pending home and moves the progress to
the length; a fault halts it at its chunk's first position with the status in halt_cause, and posts an engine record with queue 0, code 1
and the sequence control record's address; a record that is not pending, halted, out of range or caught up is left alone. The model's own: one pass copies every entry in position
order and the first that fails ends it (log 69). -/
def Obligations.GangRedistribution : Prop :=
  ∀ (s : State) (scr : W64) (q : GangReq), s.gangs.find? (fun x => x.scr == scr.toNat) = some q →
    let r : Scr := BitVec.ofNat 2048 (peek s.mem q.scr 256)
    (r.pend = false ∨ r.halt = true ∨ r.outOfRange = true ∨ r.len = r.prog → exec (.gangCopyPass scr) s = .next s) ∧
    (r.pend = true → r.halt = false → r.outOfRange = false → r.prog ≠ r.len →
      (∀ s1, copyEntries r q.priv (r.len - r.prog) r.prog s = (none, s1) → ∃ t, exec (.gangCopyPass scr) s = .next t ∧
        bitsBecome (BitVec.ofNat 2048 (peek t.mem q.scr 256)) r [(320, 64, r.len)] ∧
        ∀ a, a < q.scr ∨ q.scr + 256 ≤ a → Sparse.get t.mem a = Sparse.get s1.mem a) ∧
      (∀ s1 p i, copyEntries r q.priv (r.len - r.prog) r.prog s = (some (p, some i), s1) → ∃ t rec, exec (.gangCopyPass scr) s = .next t ∧
        bitsBecome (BitVec.ofNat 2048 (peek t.mem q.scr 256)) r
          [(320, 64, p / 2 ^ r.chunkLog * 2 ^ r.chunkLog), (59, 1, 1), (32, 8, (statusOf i.cause).toNat)] ∧
        (t.part q.part).waiting = (s1.part q.part).waiting ++ [rec] ∧ rec.extractLsb' 60 4 = 1#4 ∧ rec.extractLsb' 52 8 = i.cause.code ∧
        rec.extractLsb' 192 64 = q.va ∧ rec.extractLsb' 256 12 = 1#12 ∧ rec.extractLsb' 291 7 = 0#7 ∧ rec.extractLsb' 64 64 = i.va ∧
        rec.extractLsb' 20 3 = q.part ∧ rec.extractLsb' 0 20 = r.pasid)) ∧
    (∀ (s1 s2 : State) (p die : Nat) (va dst : W64) (v : Nat), r.home p r.mask r.bank = some (die, va) →
      (∃ e, r.home p r.omask (1 - r.bank) = some (e, dst)) →
      let ag : Agent := { die := BitVec.ofNat 3 die, core := none, pasid := r.pasid, priv := q.priv }
      (readVirt ag va (2 ^ r.entryLog) .read).run s = .ok v s1 →
      (writeVirt ag dst (natToBytes (2 ^ r.entryLog) v)).run s1 = .ok () s2 → (copyEntry r q.priv p).run s = .ok () s2)

/-! Launches from the device, collectives and sampling (R362, R366 to R375) -/

/-- R362, R372 to R374: `launch` queues the record at s(a) on the device-side queue, with 1 where the queue is full; `coll.run` and `samp` read
their descriptor and send their bytes to the root, `coll.put` asks for a copy, and each waits, or yields with `.cont`, for its status; a bad
operation or length answers 0x23 at once, and a descriptor that cannot be read its fault's status; bytes that are not present leave the
instruction in the operand log, and its stream stays at it (log 29); the engine reads in the launch's address space, the bytes are the
group's accesses; operands out of range, and `coll.put` outside the communication group, trap. -/
def Obligations.LaunchAndCollectiveIssue : Prop :=
  (∀ (s s1 : State) (d a : SReg), s.cur.replaying false = none →
    let v := s.cur.sr a
    (v.toNat % 256 ≠ 0 ∨ canonical v = false → TrapEnters s → TrapsS (.launch d a) s .operandRange) ∧
    ∀ n, v.toNat % 256 = 0 → canonical v = true → (readVirt (groupAgent s.curG s.cur) v 256 .read).run s = .ok n s1 →
      let g := s1.cur
      let q := (s1.part g.part).devQ
      (∀ l, s1.launchOf g.part g.launch = some l → q.length < 64 → ∃ t, exec (.launch d a) s = .next t ∧
        (t.part g.part).devQ = q ++ [(l.iface, BitVec.ofNat 2048 n)] ∧
        t.cur = { g with s := g.s.set d.toNat 0 d.isLt, pc := g.pc + 4 } ∧ t = { s1 with groups := t.groups, parts := t.parts }) ∧
      (s1.launchOf g.part g.launch = none ∨ 64 ≤ q.length →
        exec (.launch d a) s = .next (s1.setCur { g with s := g.s.set d.toNat 1 d.isLt, pc := g.pc + 4 }))) ∧
  (∀ (s s1 s2 : State) (d a : SReg) (cont grd tok : Bool) (n : Nat) (bs : List Byte) (fs : List Info) (more : Bool),
    s.cur.replaying false = none →
    let s0 := s.setCur (s.cur.setLog false none)
    let cle := s.cleAgent s.curG s.cur
    let r := fun (k : Nat) => s.cur.sr (a + BitVec.ofNat 6 k)
    let goes := fun (i : Instr) (on : YieldOn) (w : SWait) (k : Nat) (st : Option (BitVec 8)) (u : State) =>
      (cont = true → exec i s = .next (u.setCur { u.cur with pc := r k, st := .yielding { on := on, d := d, cmd := false, got := st } })) ∧
      (cont = false → st = none → exec i s = .next (u.setCur { u.cur with wait := w }).stalled) ∧
      (∀ c, cont = false → st = some c →
        exec i s = .next (u.setCur { u.cur with s := u.cur.s.set d.toNat (c.setWidth 64) d.isLt, pc := u.cur.pc + 4 }))
    let sent := fun (desc key : W64) (w : BitVec 512) (bytes : List Byte) (tk : Bool) (scr : W64) =>
      let c : CollC := { die := s.curG.die, data := bytes, gid := s.curG, part := s2.cur.part, launch := s2.cur.launch,
                         block := s2.cur.block, bound := none, tok := tk, scr := scr, pasid := s.launchPasid s.cur,
                         priv := s.cur.priv, handler := s2.cur.h.on }
      ({ s2 with sends := s2.sends ++ [{ desc := desc, key := key, chunk := 0, words := w, c := c }] } : State)
    let logged := fun (i : Instr) => ∃ t l, exec i s = .next t ∧ t.cur = s2.cur.setLog false (some l) ∧ l.valid = false ∧
      l.addr = s.cur.pc ∧ l.word = (encodeScalar i).setWidth 96
    let w := BitVec.ofNat 512 n
    let run : Instr := .collRun d a cont
    let put : Instr := .collPut d a cont
    let smp : Instr := .samp d a cont grd tok
    let runOk := canonical (r 0) = true ∧ (r 0).toNat % 64 = 0 ∧ canonical (r 1) = true ∧ (r 1).toNat % 4 = 0
    let sampOk := 1 ≤ (r 1).toNat ∧ (r 1).toNat ≤ 2 ^ 20 ∧ (r 5).toNat < 2 ^ 32 ∧ (r 2).toNat + (r 1).toNat ≤ 2 ^ 32 ∧
      canonical (r 0) = true ∧ (r 0).toNat % 4 = 0 ∧ canonical (r 6) = true ∧ (r 6).toNat % 64 = 0 ∧
      (tok = true → canonical (r 7) = true ∧ (r 7).toNat % 256 = 0)
    (∀ x, runOk → (readVirt cle (r 0) 64 .read).run s0 = .error (.fault x) s1 →
      goes run (.coll (r 0) (r 2)) (.coll (r 0) (r 2) d) 3 (some (collStatus x.cause)) s1) ∧
    (runOk → (readVirt cle (r 0) 64 .read).run s0 = .ok n s1 →
      (dOp w = 0 ∨ 4 < dOp w ∨ chunkOk w = false → goes run (.coll (r 0) (r 2)) (.coll (r 0) (r 2) d) 3 (some 0x23) s1) ∧
      (1 ≤ dOp w → dOp w ≤ 4 → chunkOk w = true →
        ((collWords (r 1) (dChunk w / 4)).run s1 = .ok bs s2 →
          goes run (.coll (r 0) (r 2)) (.coll (r 0) (r 2) d) 3 none (sent (r 0) (r 2) w bs false 0)) ∧
        ((collWords (r 1) (dChunk w / 4)).run s1 = .error (.pages fs more) s2 → logged run))) ∧
    (¬ runOk → TrapEnters s → TrapsS run s .operandRange) ∧
    (s.isComm s.cur = false → TrapEnters s → TrapsS put s .illegalInstr) ∧
    (s.isComm s.cur = true → canonical (r 0) = false ∨ canonical (r 1) = false → TrapEnters s → TrapsS put s .operandRange) ∧
    (s.isComm s.cur = true → canonical (r 0) = true → canonical (r 1) = true →
      goes put (.put (r 0) (r 1) (r 2)) (.put (r 0) (r 1) (r 2) d) 3 (if (r 2).toNat = 0 ∨ 2 ^ 24 < (r 2).toNat then some 0x23 else none) s) ∧
    (∀ x, sampOk → (readVirt cle (r 6) 64 .read).run s0 = .error (.fault x) s1 →
      goes smp (.coll (r 6) (r 4)) (.coll (r 6) (r 4) d) 8 (some (collStatus x.cause)) s1) ∧
    (sampOk → (readVirt cle (r 6) 64 .read).run s0 = .ok n s1 →
      (dOp w ≠ 5 ∨ chunkOk w = false → goes smp (.coll (r 6) (r 4)) (.coll (r 6) (r 4) d) 8 (some 0x23) s1) ∧
      (dOp w = 5 → chunkOk w = true →
        ((collWords (r 0) (r 1).toNat).run s1 = .ok bs s2 →
          goes smp (.coll (r 6) (r 4)) (.coll (r 6) (r 4) d) 8 none (sent (r 6) (r 4) w
            (pairBytes (sampBest grd (r 3) (r 4) (r 2) ((r 5).setWidth 32) (toWords bs) 0 none)) tok (r 7))) ∧
        ((collWords (r 0) (r 1).toNat).run s1 = .error (.pages fs more) s2 → logged smp))) ∧
    (¬ sampOk → TrapEnters s → TrapsS smp s .operandRange)) ∧
  -- R374: the greater key wins, of equal keys the lower index, and a NaN loses to a number
  ∀ p q : W32 × W32,
    (isNan32 p.1 = false → isNan32 q.1 = false →
      (fcondHolds .lt (f32val q.1) (f32val p.1) = true → better p q = p) ∧ (fcondHolds .lt (f32val p.1) (f32val q.1) = true → better p q = q) ∧
      (fcondHolds .eq (f32val p.1) (f32val q.1) = true → better p q = if q.2.toNat < p.2.toNat then q else p)) ∧
    (isNan32 p.1 = true → isNan32 q.1 = false → better p q = q ∧ better q p = q)

/-- R367 to R370, R373 to R375, R377: an occasion at its root. A first contribution opens it, also where the member's instance
before has completed; a second one to an open chunk answers 0x23 and changes nothing else; one to a completed chunk answers with
its status; a member whose own check fails has denied, and the instance peer_aborted. A complete occasion combines its ranks'
bytes in a fixed tree, and its members learn the status and go on with it; a status decided before, or the deadline of the
instance, ends it without a result; a completed `coll.put` ends its wait; a sampling occasion's token slot is written first,
then the ring once it has room. The model's own: what a closed instance answers, and when the next one of the pair begins (log
30); a deadline event puts the root's cycle count at the deadline's end (log 5). -/
def Obligations.CollectiveOccasions : Prop :=
  (∀ (s s0 s1 : State) (x : Send) (rank : BitVec 6) (t : List W64), s.sends = [x] →
    let tab := readTable { die := x.c.die, core := none, pasid := x.c.pasid, priv := x.c.priv } (dWord x.words 1) (dMem x.words)
    let i : Instr := .collContribution x.desc x.key rank x.chunk
    let named := fun (o : Coll) => o.desc = x.desc ∧ o.key = x.key ∧ o.chunk = x.chunk
    tab.run s = .ok t s0 → tab.run { s with sends := [] } = .ok t s1 → ranksOf t x.c.die = [rank.toNat] →
    (s1.instanceOf x.desc x.key = [] ∨ (∃ o, s1.instanceOf x.desc x.key = [o] ∧ named o ∧ o.done = true ∧ o.has rank = true) →
      (t.all memOk = true → descClean x.words = true → fedOk s1 x.c.part (dFed x.words) t = true →
        ∃ u o, exec i s = .next u ∧ o ∈ u.colls ∧ named o ∧ o.words = x.words ∧ o.table = t ∧ o.cs = [(rank, x.c)] ∧ o.status = 0 ∧
          o.done = false ∧ o.begun = (s1.core (rootCore (memDie (t.headD 0)))).cyc ∧ u.sends = [] ∧ u.mem = s1.mem) ∧
      (fedOk s1 x.c.part (dFed x.words) t = false → ∃ (u : State) (o : Coll), exec i s = .next (u.tellMember x.desc x.key x.chunk 0 x.c 0x24 none) ∧
        o ∈ u.colls ∧ named o ∧ o.cs = [] ∧ o.status = 0x25 ∧ u.mem = s1.mem)) ∧
    (∀ o, s1.instanceOf x.desc x.key = [o] → named o →
      (o.done = false → o.has rank = true → exec i s = .next (s1.tellMember x.desc x.key x.chunk 0 x.c 0x23 none)) ∧
      (∀ u, o.done = true → o.has rank = false → fedOk s1 x.c.part (dFed x.words) t = true →
        (s1.setColl { o with late := putBit o.late rank.toNat true }).tellOne o o.status [] none x.c = .ok u → exec i s = .next u))) ∧
  (∀ (s : State) (desc key : W64) (chunk : W32) (o : Coll), s.openColl desc key chunk = some o →
    let out := collResult o.words o.data
    let res := winner (dOp o.words) out
    (∀ t, o.status ≠ 0 → s.closeColl o o.status (fun _ => o.status) [] none = .ok t →
      exec (.collComplete desc key chunk) s = .next t ∧ ∃ e ∈ t.colls, e.desc = desc ∧ e.key = key ∧ e.done = true ∧ e.status = o.status) ∧
    (o.status = 0 → o.away = false → o.full = false → exec (.collComplete desc key chunk) s = .next s) ∧
    (∀ c s1 d, o.status = 0 → o.cs = [(0, c)] → dMem o.words = 1 → o.isPeer 0 = false → c.bound = none → c.tok = false ∨ o.token = true →
      dWord o.words 3 = 0 →
      (s.setColl { o with done := true, status := 0 }).collWrite { die := c.die, core := none, pasid := c.pasid, priv := c.priv }
        (dWord o.words 2 + BitVec.ofNat 64 (o.chunk.toNat * outBytes o.words)) out = .ok (0, s1) →
      let g := s1.group c.gid
      g.live = true → g.part = c.part → g.launch = c.launch → g.block = c.block → g.h.on = c.handler → g.wait = .coll desc key d →
      g.st = .running →
      exec (.collComplete desc key chunk) s = .next (s1.setGroup c.gid { g with wait := .done d 0 res }))) ∧
  (∀ (s : State) (d : SReg) (st : BitVec 8) (res : Option (W64 × W64)), s.curLane = false → s.cur.live = true → s.cur.h.halted = false →
    (s.core s.curG.core).off = false → s.cur.h.pend = none → s.cur.wait = .done d st res →
    ∃ t, issue s = .next t ∧ t.cur.sr d = st.setWidth 64 ∧ t.cur.wait = .none ∧ t.cur.pc = s.cur.pc + 4 ∧
      (∀ i k, st = 0 → res = some (i, k) → t.cur.sr (d + 1) = i ∧ t.cur.sr (d + 2) = k) ∧ t = s.setCur t.cur) ∧
  (∀ (s : State) (desc key : W64) (o : Coll),
    let late := fun (o : Coll) => o.desc == desc && o.key == key && !o.done && o.status == 0 && !o.away && !o.full && dWord o.words 4 != 0
    s.colls.find? late = some o → (∀ p ∈ s.colls, late p = true → dWord p.words 3 = 0) →
    ∃ t, exec (.collDeadline desc key) s = .next t ∧ dWord o.words 4 ≤ (t.core (rootCore o.root)).cyc - o.begun ∧
      ∀ p ∈ s.colls, late p = true → ∃ e ∈ t.colls, e.desc = desc ∧ e.key = key ∧ e.chunk = p.chunk ∧ e.done = true ∧ e.status = 0x26) ∧
  (∀ (s s1 : State) (g : Gid) (dst src len : W64) (d : SReg), (s.group g).live = true →
    (s.group g).wait = .put dst src len d → (s.group g).st = .running →
    (putCopy { die := g.die, core := none, pasid := (s.group g).pasid, priv := (s.group g).priv,
               who := some ((s.group g).part, (s.group g).launch, (s.group g).block) } dst src len.toNat 0).run s = .ok () s1 →
    s1.group g = s.group g →
    exec (.collPutCompletion g) s = .next (s1.setGroup g { s.group g with wait := .done d 0 none })) ∧
  (∀ (s s1 s2 : State) (desc key : W64) (o : Coll) (c : CollC) (va e : W64) (as : List Nat), s.openColl desc key 0 = some o →
    o.tokenOf = some c → o.status = 0 → o.away = false → o.full = true → o.token = false →
    let ring := fun (u : State) =>
      let i := match u.launchOf c.part c.launch with | some l => l.iface | none => 0
      (bitOf (u.iface i).tokCtl 63 = false ∨ ((u.iface i).tokRoom = true ∧ (u.iface i).tokens = []) →
        exec (.tokenAppend desc key) s = .next ((u.appendToken i e).setColl { o with slot := some e, token := true })) ∧
      (bitOf (u.iface i).tokCtl 63 = true → (u.iface i).tokRoom = false ∨ (u.iface i).tokens ≠ [] →
        exec (.tokenAppend desc key) s = .next (u.setColl { o with slot := some e }))
    (o.slot = none → (tokenPlace c (BitVec.ofNat 32 (bytesToNat ((collResult o.words o.data).take 4)))).run s = .ok (va, as, e) s1 →
      (writeAddrs { die := c.die, core := none, pasid := c.pasid, priv := c.priv } as (natToBytes 8 e.toNat)).run s1 = .ok () s2 → ring s2) ∧
    (o.slot = some e → ring s)) ∧
  ∀ (w : BitVec 512) (a b c d : List Byte),
    let sum := fun (x y : List W32) => List.zipWith faddRn x y
    (dOp w = 3 → collResult w [a, b, c, d] = a ++ b ++ c ++ d) ∧
    (dOp w = 1 → collResult w [a, b] = ofWords (sum (toWords a) (toWords b)) ∧
      collResult w [a, b, c] = ofWords (sum (sum (toWords a) (toWords b)) (toWords c)) ∧
      collResult w [a, b, c, d] = ofWords (sum (sum (toWords a) (toWords b)) (sum (toWords c) (toWords d)))) ∧
    (dOp w = 2 → collResult w [a, b] = ofWords (List.zipWith fmaxBits (toWords a) (toWords b)))

/-! Lane memory (R252 to R255) -/

/-- R228 to R230, R252 to R255, R257: each executing thread of `lld`, in ascending vlane, reads at its own offset and the destination takes
the bytes of the threads that write; `lst` writes each thread's bytes and no other byte; an atomic returns the old value and leaves the new one
(one thread; of several, each in turn), after every check of R62; a uniform access is made by the lowest vlane. Where no
thread executes no access is made; sources pop, and a push to a result queue pushes a free value of the result's width (log 57). The
model's own: the checks of R62 come once the page of the target's first byte is translated (DEDUCED, log 80), and a data operand may be a
tile's or an accumulator's words (log 58). -/
def Obligations.LaneMemory : Prop :=
  ∀ (s : State) (h : LHdr) (d a b c : Opnd) (z : Size) (m : LMem) (pa : Nat → Nat), h.never = false → s.cur.replaying true = none →
    let g := s.cur.settle
    let s1 := s.setCur g
    let x := g.sel h
    let ls := accLanes g h.uni x.write
    let off := fun (j : Nat) => g.srcVal a 1 j % 2 ^ 32 + m.off.toNat
    let hits := fun (k : AKind) (n : Nat) => ∀ j ∈ ls, (if m.shf then SlotHit s1 (off j / 4096) (off j % 4096) n (pa j)
      else WindowHit s1 m.win (off j) n k (pa j)) ∧ paNode (pa j) = 0 ∧ paRegion (pa j) < 2
    let n := sizeBytes z
    let rest := fun (t : State) (pops : List (Opnd × Nat)) =>
      t.cur = { (g.popAll pops).lpc1 with rg := t.cur.rg, y := t.cur.y, fired := t.cur.fired,
                                          ln := { (g.popAll pops).lpc1.ln with p := t.cur.ln.p } } ∧
      (∀ q : Gid, q ≠ s.curG → t.group q = { s.group q with fired := (t.group q).fired })
    let idle := fun (i : Instr) (push : Bool) (bits : Nat) (pops : List (Opnd × Nat)) =>
      let u := s.setCur (g.popAll pops).lpc1
      (push = false ∨ pushOf d = none → exec i s = .next u) ∧
      (push = true → pushOf d ≠ none → exec i s = .next (u.free.2.setCur (u.free.2.cur.pushY d
        (BitVec.ofNat 64 (u.free.1.toNat % 2 ^ bits)))))
    let lld : Instr := .lld h d a z m
    let lst : Instr := .lst h a b z m
    (lld.wf = true → g.laneStop [(d, sizeRegs z)] [(a, 1)] = none →
      (x.write = 0 → idle lld true (8 * n) [(a, 1)]) ∧
      (x.write ≠ 0 → hits .read n → (∀ j ∈ ls, Readable s1 (pa j) n) → ∃ t, exec lld s = .next t ∧
        DestHolds g t.cur d (sizeRegs z) ⟨x.write, x.write, 0⟩ (fun j => peek s.mem (pa (if h.uni then ls.headD 0 else j)) n) ∧
        rest t [(a, 1)] ∧ t.mem = s.mem ∧ t = { s with groups := t.groups })) ∧
    (lst.wf = true → g.laneStop [] [(a, 1), (b, sizeRegs z)] = none →
      (x.write = 0 → idle lst false 0 [(a, 1), (b, sizeRegs z)]) ∧
      (x.write ≠ 0 → hits .write n → ∃ t, exec lst s = .next t ∧
        ((∀ j ∈ ls, ∀ k ∈ ls, j ≠ k → pa j + n ≤ pa k ∨ pa k + n ≤ pa j) → ∀ j ∈ ls,
          peek t.mem (pa j) n = g.srcVal b (sizeRegs z) j % 2 ^ (8 * n)) ∧
        (∀ q, (∀ j ∈ ls, q < pa j ∨ pa j + n ≤ q) → Sparse.get t.mem q = Sparse.get s.mem q) ∧
        rest t [(a, 1), (b, sizeRegs z)] ∧ t.cur.rg = g.rg ∧ t.cur.y = g.y ∧
        t = { s with mem := t.mem, groups := t.groups, dtags := t.dtags, badWords := t.badWords })) ∧
    ∀ (op : AtomOp) (ty : AtomTy),
      let w := atomRegs ty
      let cas := op == .cas
      let pops := [(a, 1)] ++ (if op == .oclose then [] else [(b, w)]) ++ (if cas then [(c, w)] else [])
      let i : Instr := .laneAtom h d a b c ty op m
      let det := s.isDet g.part g.launch
      let bv := fun (j : Nat) => g.srcVal b w j % 2 ^ ty.bits
      let cv := fun (j : Nat) => if cas then g.srcVal c w j % 2 ^ ty.bits else 0
      i.wf = true → g.laneStop [(d, w)] pops = none →
      (x.write = 0 → idle i true ty.bits pops) ∧
      (x.write ≠ 0 → hits .atomic (if m.shf then targetBytes op ty else 1) →
        (∀ j e, ls = [j] → atomCheck det op ty (pa j) (bv j) = some e → TrapEnters s → TrapsL i s e) ∧
        (∀ j, ls = [j] → op.special = false → atomCheck det op ty (pa j) (bv j) = none → Readable s1 (pa j) (ty.bits / 8) →
          let old := peek s.mem (pa j) (ty.bits / 8)
          ∃ t, exec i s = .next t ∧ peek t.mem (pa j) (ty.bits / 8) = atomNew op ty old (bv j) (cv j) ∧
            (∀ q, q < pa j ∨ pa j + ty.bits / 8 ≤ q → Sparse.get t.mem q = Sparse.get s.mem q) ∧
            DestHolds g t.cur d w ⟨x.write, x.write, 0⟩ (fun k => if h.uni ∨ k = j then old else 0) ∧ rest t pops ∧
            t = { s with mem := t.mem, groups := t.groups, dtags := t.dtags, badWords := t.badWords }) ∧
        (∀ vs s2, firstRefused ((ls.map (fun j => (j, pa j))).filterMap (fun p => (atomCheck det op ty p.2 (bv p.1)).map (fun e => (p.1, e)))) = none →
          (atomLanes (groupAgent s.curG g) g op ty (laneVa g m { exec := x.write, a := g.srcReg a 0 } m.off.toNat) bv cv
            (ls.map (fun j => (j, pa j)))).run s1 = .ok vs s2 →
          ∃ t, exec i s = .next t ∧ t.mem = s2.mem ∧ t.owins = s2.owins))

/-! Matrix, tile and scale instructions (R103 to R109, R128 to R151, R275 to R292) -/

/-- R103, R104, R278, R279, R290, R291: a scale instruction writes all 32 entries of E(d) with its formula on the exponents, 0xFF where a source
is 0xFF, bits 15:14 zero, advances E(d)'s tag, binds the tiles it names under `.rb`, and changes nothing else; `srebias` of a register whose
every exponent is 0xFF gives that register. `smov.vec` of an entry with bits 15:14 set traps with nothing written; any of them traps in a
diverged group; a source that could not be corrected is not consumed; a false guard, or no active thread, does nothing. -/
def Obligations.ScaleRegisters : Prop :=
  ∀ (s : State) (h : LHdr) (d a b : BitVec 5) (k : BitVec 12) (v : Nat) (sat rb : Bool) (tiles : BitVec 16) (vr : BitVec 10) (sp : BitVec 6),
    let g := s.cur.settle
    let r := g.rg
    let ent := fun (e : BitVec 5) (i : Nat) => (scaleEntry (r.e.getD e.toNat 0) i).toNat
    let ex := fun (e : BitVec 5) (i : Nat) => ent e i % 2 ^ 8
    let hi := fun (i : Nat) => ent a i / 2 ^ 8 % 2 ^ 6 * 2 ^ 8
    let fix := fun (x : Int) => if 0 ≤ x ∧ x ≤ 254 then x.toNat else if sat then (if x < 0 then 0 else 254) else 0xFF
    let tag := r.etag.getD d.toNat 0 + 1
    let named := fun (i : Fin 16) => rb = true ∧ tiles.getLsbD i.val = true
    let fine := fun (e : BitVec 5) => r.ebad.getLsbD e.toNat = false
    let wrote := fun (i : Instr) (entry : Nat → Nat) => ∃ t, exec i s = .next t ∧
      (∀ j, j < 32 → (scaleEntry (t.cur.rg.e.getD d.toNat 0) j).toNat = entry j) ∧
      (∀ e : BitVec 5, e ≠ d → t.cur.rg.e.getD e.toNat 0 = r.e.getD e.toNat 0 ∧ t.cur.rg.etag.getD e.toNat 0 = r.etag.getD e.toNat 0) ∧
      t.cur.rg.etag.getD d.toNat 0 = tag ∧ (∀ e : BitVec 5, t.cur.rg.ebad.getLsbD e.toNat = (r.ebad.getLsbD e.toNat && e != d)) ∧
      (∀ i : Fin 16, named i → tdBvalid t.cur.rg.tdesc[i] = true ∧ tdSreg t.cur.rg.tdesc[i] = d ∧ tdBtag t.cur.rg.tdesc[i] = tag ∧
        t.cur.rg.tdesc[i].toNat % 2 ^ 46 = r.tdesc[i].toNat % 2 ^ 46) ∧
      (∀ i : Fin 16, ¬ named i → tag ≠ 0 ∨ tdSreg r.tdesc[i] ≠ d → t.cur.rg.tdesc[i] = r.tdesc[i]) ∧
      (∀ i : Fin 16, ¬ named i → tag = 0 → tdSreg r.tdesc[i] = d → tdBvalid t.cur.rg.tdesc[i] = false) ∧
      t = s.setCur { g with ln := { g.ln with lpc := g.ln.lpc + 1 }, rg := { r with
        e := t.cur.rg.e, ebad := t.cur.rg.ebad, etag := t.cur.rg.etag, tdesc := t.cur.rg.tdesc } }
    let two := fun (f : Nat → Nat → Nat) (i : Nat) => hi i + (if ex a i = 0xFF ∨ ex b i = 0xFF then 0xFF else f (ex a i) (ex b i))
    let add : Instr := .sadd h d a (b.setWidth 12) true sat rb tiles
    let all := [add, .sadd h d a k false sat rb tiles, .smax h d a b rb tiles, .smin h d a b rb tiles, .srebias h d a k sat rb tiles,
      .smov h d .cp (a.setWidth 10) 0 rb tiles, .smov h d .sp (a.setWidth 10) sp rb tiles, .sbind h d tiles]
    (MxRuns h [] [] s v →
      (fine a → fine b → wrote add (two (fun x y => fix ((x : Int) + y - 127))) ∧ wrote (.smax h d a b rb tiles) (two max) ∧
        wrote (.smin h d a b rb tiles) (two min)) ∧
      (fine a →
        wrote (.sadd h d a k false sat rb tiles) (fun i => hi i + (if ex a i = 0xFF then 0xFF else fix ((ex a i : Int) + k.toInt))) ∧
        (∀ top, top < 32 → ex a top ≠ 0xFF → (∀ i, i < 32 → ex a i = 0xFF ∨ ex a i ≤ ex a top) →
          wrote (.srebias h d a k sat rb tiles) (fun i => hi i + (if ex a i = 0xFF then 0xFF else fix ((ex a i : Int) - ex a top + k.toNat)))) ∧
        ((∀ i, i < 32 → ex a i = 0xFF) → wrote (.srebias h d a k sat rb tiles) (fun i => ent a i % 2 ^ 14)) ∧
        wrote (.smov h d .sp (a.setWidth 10) sp rb tiles) (fun i => sp.toNat * 2 ^ 8 + ex a i) ∧
        wrote (.smov h d .cp (a.setWidth 10) 0 rb tiles) (fun i => ent a i % 2 ^ 14)) ∧
      (¬ fine a → TrapEnters s → ∀ i ∈ all, i ≠ .sbind h d tiles → TrapsL i s .dataError) ∧
      exec (.sbind h d tiles) s = .next (s.setCur { g with ln := { g.ln with lpc := g.ln.lpc + 1 }, rg := { r with
        tdesc := Vector.ofFn (fun i : Fin 16 => if tiles.getLsbD i.val then bindTd r.tdesc[i] d (tag - 1) else r.tdesc[i]) } })) ∧
    (MxRuns h [(.vec vr, 1)] [(.vec vr, 1)] s v →
      let word := fun (i : Nat) => (vword (r.row (r.vrow vr.toNat)) i).toNat % 2 ^ 16
      ((∀ i, i < 32 → word i < 2 ^ 14) → wrote (.smov h d .vec vr 0 rb tiles) word) ∧
      ((∃ i, i < 32 ∧ 2 ^ 14 ≤ word i) → TrapEnters s → TrapsL (.smov h d .vec vr 0 rb tiles) s .scaleFormat)) ∧
    (h.never = false → s.cur.replaying true = none → g.ln.lowest g.ln.act = some v → (g.guardMask h).getLsbD v = true → g.diverged = true →
      v < 64 → TrapEnters s → ∀ i ∈ all, TrapsL i s .mxDiverged) ∧
    (h.never = false → s.cur.replaying true = none →
      g.ln.lowest g.ln.act = none ∨ (g.ln.lowest g.ln.act = some v ∧ v < 64 ∧ (g.guardMask h).getLsbD v = false) →
      ∀ i ∈ all, exec i s = .next (s.setCur s.cur.lpc1))

/-- R105, R107 to R109, R276, R277, R280, R281, R292: `tld` takes its tile's rows, and its scales, from memory and TLD_LAND writes
them with the binding in one step; `tst` stores the rows and, bound, the scales; `ssave` writes the image of a tile with its
pair and `srest` restores both; through windows or the shelf, no other byte changes. A misaligned image traps, and so does one that breaks a
rule of its head, with nothing changed. The model's own: a load lands by its event
or before anything depends on it (log 12), `ssave` and `srest` check alignment on the virtual address and `srest` reads its head
first (log 52), and one scale register is one unit of error (log 60). -/
def Obligations.TileMemory : Prop :=
  ∀ (s : State) (h : LHdr) (t4 : BitVec 4) (a c : Opnd) (win swin : BitVec 3) (shf sc : Bool) (e : BitVec 5) (os : Order) (v : Nat)
    (pa : Nat → Nat → Nat),
    let g := s.cur.settle
    let s1 := s.setCur g
    let r := g.rg
    let t := t4.toNat
    let d := r.tdesc.getD t 0
    let n := tdBytes d
    let m := tdRows d
    let addr := g.srcVal a 1 v % 2 ^ 32
    let par := fun (k : Nat) => g.srcVal c 2 v / 2 ^ (32 * k) % 2 ^ 32
    let pitch := if par 0 % 2 ^ 20 = 0 then n else par 0 % 2 ^ 20
    let l := (List.range m).map (fun i => (win, addr + i * pitch, n)) ++ (if sc then [(swin, par 1, 64)] else [])
    let after := mxAfter s [(a, 1)]
    let bound := tdBvalid d && tdBtag d == r.etag.getD (tdSreg d).toNat 0
    let tldOk := MxRuns h [(.tile t4, 1), (a, 1), (c, 2)] [(a, 1), (c, 2)] s v ∧ RangesHit s1 shf .read l pa ∧ RangesRead s1 l pa
    let scales := BitVec.ofNat 512 (bytesToNat (rangeBytes s.mem l pa m))
    let good := r.ebad.getLsbD (tdSreg d).toNat = false
    let tstOk := MxRuns h [(a, 1), (.tile t4, 1), (c, 2)] [(a, 1), (.tile t4, 1), (c, 2)] s v ∧ RangesHit s1 shf .write l pa ∧
      ∀ i j, i < l.length → j < (l.getD i (0, 0, 0)).2.2 → paNode (pa i j) = 0 ∧ paRegion (pa i j) < 2
    (tldOk → par 0 < 2 ^ 20 → (sc = true → scaleBad scales = false) →
      exec (.tld h t4 a c win swin shf sc e os) s = .next (s.setCur { after with ln := { after.ln with
        tlds := after.ln.tlds ++ [PendTld.mk t4 sc e ((List.range m).map (rangeBytes s.mem l pa)).flatten (if sc then scales else 0)] } })) ∧
    (tldOk → 2 ^ 20 ≤ par 0 → TrapEnters s → TrapsL (.tld h t4 a c win swin shf sc e os) s .mxFormat) ∧
    (tldOk → par 0 < 2 ^ 20 → sc = true → scaleBad scales = true → TrapEnters s → TrapsL (.tld h t4 a c win swin shf sc e os) s .scaleFormat) ∧
    (∀ (q : Gid) (x : PendTld) (rest : List PendTld), (s.group q).ln.tlds = x :: rest →
      let k := (s.group q).rg.tileSpan x.tile.toNat
      ∃ u, exec (.tldLand q) s = .next u ∧ (u.group q).ln.tlds = rest ∧
        (∀ i, i < x.rows.length → (u.group q).rg.byte (k.1 + i) = x.rows.getD i 0) ∧
        (∀ b, b < k.1 ∨ k.1 + x.rows.length ≤ b → (u.group q).rg.byte b = (s.group q).rg.byte b) ∧
        (x.sc = true → (u.group q).rg.e.getD x.e.toNat 0 = x.scales ∧ (u.group q).rg.binding x.tile.toNat = some (if
          tdScaled ((s.group q).rg.tdesc.getD x.tile.toNat 0) then x.scales else unitScales)) ∧
        (x.sc = false → (u.group q).rg.e = (s.group q).rg.e ∧ (u.group q).rg.tdesc = (s.group q).rg.tdesc) ∧
        ∀ p : Gid, p ≠ q → u.group p = s.group p) ∧
    (tstOk → par 0 < 2 ^ 20 → (sc = true → bound = true ∧ good) → ∃ u, exec (.tst h t4 a c win swin shf sc os) s = .next u ∧
      RangesStored s1 u l pa (fun i j => if i < m then r.byte ((r.tileSpan t).1 + i * n + j)
        else BitVec.ofNat 8 ((r.e.getD (tdSreg d).toNat 0).toNat / 2 ^ (8 * j))) ∧
      u.cur = { after with fired := u.cur.fired }) ∧
    (tstOk → sc = true → bound = false → TrapEnters s → TrapsL (.tst h t4 a c win swin shf sc os) s .staleBinding) ∧
    (tstOk → par 0 < 2 ^ 20 → sc = true → bound = true → ¬ good → TrapEnters s → TrapsL (.tst h t4 a c win swin shf sc os) s .dataError) ∧
    (let li := [(win, addr, 0x80 + m * n)]
     let ssaveOk := MxRuns h [(a, 1), (.tile t4, 1)] [(a, 1), (.tile t4, 1)] s v ∧ RangesHit s1 shf .write li pa ∧
       ∀ j, j < 0x80 + m * n → paNode (pa 0 j) = 0 ∧ paRegion (pa 0 j) < 2
     let va := if shf then addr else (g.winVa win addr).toNat
     let pair := if tdBvalid d then d.toNat + (r.etag.getD (tdSreg d).toNat 0).toNat * 2 ^ 64 + (tdSreg d).toNat * 2 ^ 80 +
       (r.e.getD (tdSreg d).toNat 0).toNat * 2 ^ 512 else d.toNat
     (ssaveOk → tdBvalid d = true → bound = false → TrapEnters s → TrapsL (.ssave h a win shf t4 os) s .staleBinding) ∧
     (ssaveOk → (tdBvalid d = true → bound = true) → va % 128 ≠ 0 → TrapEnters s → TrapsL (.ssave h a win shf t4 os) s .mxFormat) ∧
     (ssaveOk → (tdBvalid d = true → bound = true ∧ good) → va % 128 = 0 → ∃ u, exec (.ssave h a win shf t4 os) s = .next u ∧
       RangesStored s1 u li pa (fun _ j => if j < 0x80 then BitVec.ofNat 8 (pair / 2 ^ (8 * j)) else r.byte ((r.tileSpan t).1 + (j - 0x80))) ∧
       u.cur = { after with fired := u.cur.fired })) ∧
    (let head := (List.range 0x80).map (fun j => Sparse.get s.mem (pa 0 j))
     let w := BitVec.ofNat 1024 (bytesToNat head)
     let nd : W64 := w.extractLsb' 0 64
     let k := tdRows nd * tdBytes nd
     let lr := [(win, addr, 0x80), (win, addr + 0x80, k)]
     let va := if shf then addr else (g.winVa win addr).toNat
     let fine := (nd.extractLsb' 44 2 = 0 ∧ nd.extractLsb' 17 11 = 0 ∧ nd.extractLsb' 0 4 = 0 ∧ (nd.extractLsb' 39 4).toNat ≤ 8) ∧
       w.extractLsb' 128 384 = 0 ∧
       (nd.getLsbD 63 = true → w.extractLsb' 80 5 = nd.extractLsb' 58 5 ∧ w.extractLsb' 64 12 = nd.extractLsb' 46 12 ∧
         w.extractLsb' 76 4 = 0 ∧ w.extractLsb' 85 43 = 0 ∧ ∀ i, i < 32 → w.extractLsb' (512 + 16 * i + 14) 2 = 0) ∧
       (nd.getLsbD 63 = false → w.extractLsb' 64 960 = 0)
     MxRuns h [(a, 1)] [(a, 1)] s v → t < bitsOf r.tview 24 11 → RangesHit s1 shf .read lr pa → RangesRead s1 lr pa →
       bitsOf r.tview 0 17 + tdOff nd + k ≤ r.declared.toNat →
       (va % 128 ≠ 0 → TrapEnters s → TrapsL (.srest h a win shf t4 os) s .mxFormat) ∧
       (va % 128 = 0 → ¬ fine → TrapEnters s → TrapsL (.srest h a win shf t4 os) s .descFormat) ∧
       (va % 128 = 0 → fine → ∃ u, exec (.srest h a win shf t4 os) s = .next u ∧
       u.cur.rg.tdesc.getD t 0 = nd ∧ (∀ j, j < k → u.cur.rg.byte (bitsOf r.tview 0 17 + tdOff nd + j) = Sparse.get s.mem (pa 1 j)) ∧
       (tdBvalid nd = true → u.cur.rg.e.getD (tdSreg nd).toNat 0 = w.extractLsb' 512 512 ∧
         u.cur.rg.etag.getD (tdSreg nd).toNat 0 = tdBtag nd ∧
         ∀ i : Fin 16, i.val ≠ t → tdSreg r.tdesc[i] = tdSreg nd → tdBvalid u.cur.rg.tdesc[i] = false) ∧
       (∀ x : BitVec 5, x ≠ tdSreg nd ∨ tdBvalid nd = false → u.cur.rg.e.getD x.toNat 0 = r.e.getD x.toNat 0 ∧
         u.cur.rg.etag.getD x.toNat 0 = r.etag.getD x.toNat 0) ∧
       (∀ i : Fin 16, i.val ≠ t → tdSreg r.tdesc[i] ≠ tdSreg nd ∨ tdBvalid nd = false → u.cur.rg.tdesc[i] = r.tdesc[i]) ∧
       (∀ b, b < bitsOf r.tview 0 17 + tdOff nd ∨ bitsOf r.tview 0 17 + tdOff nd + k ≤ b → u.cur.rg.byte b = r.byte b) ∧
       u = s.setCur { after with rg := u.cur.rg }))

/-- R129 to R147, R282 to R287: `mload` latches a weight buffer, `mloop` starts a loop, SEQUENCER_STEP adds a step's products to
every chain, `mdrain` rounds the chains into their destination, `mzero` clears them; the holder, the power token, the port of 8
rows and the checks of each. A loop keeps the views and scale registers of its `mloop`'s place; a `.dstep` loop widens a live
record of another shape (log 21, the model's choice); a scale register or a word that could not be corrected is not consumed, which
stops an instruction after its other checks and a loop at the step that needs it; a drain under way goes on after its holder has gone.
The products of a step are those of the kept positions, in ascending order (R142); a chain adds them exactly (R128) or in groups of 32, each
summed to 48 bits below its greatest product and the sum kept to 48 bits (R129); its state is R130's; a drain's value, and its sum with an
accumulator, are R131's. An array instruction of the group whose loop runs waits in the operand log and is issued again at the loop's or drain's end; stated of
`mzero` (R275; that it waits there is log 104, the model's choice).
Also the model's own: a free token is taken in the step that needs it (log 15), the step that an unreadable word affects (log
22), the normal form of a grouped chain (log 23), rows that leave the port are gone (log 34), `mload` fills the inactive buffer
and makes it active (log 51), an unbound port traps before the empty case (log 53), one scale register is one unit of error (log
60), and what `.fin` leaves of chains and buffers (log 82). Step 0 of a reload loop drains by the scales that `mload` latched (log 81).
-/
def Obligations.ArrayOperations : Prop :=
  (∀ (s : State) (h : LHdr) (v : Nat),
    let g := s.cur.settle
    let s1 := s.setCur g
    let r := g.rg
    let x := arrayAt s
    let seed := s.seedOf g
    let fine := fun (d : W64) => tdScaled d = true → r.ebad.getLsbD (tdSreg d).toNat = false
    let td := fun (t : BitVec 4) => r.tdesc.getD t.toNat 0
    let back := fun (p : BitVec 10) => if x.token then p + 1 else p
    (∀ (t m : BitVec 4) (c : Opnd) (shf : Bool) (sp : BitVec 2) (pa : Nat → Nat) (e : BitVec 512),
      let i : Instr := .mload h t m c shf sp
      let pops := if shf then [(c, 1)] else []
      let d := td t
      let w := LTy.ofCode (tdFmt d)
      let k := tdRows d * tdBytes d
      let addr := g.srcVal c 1 v % 2 ^ 32
      let ws := if shf then (List.range k).map (fun j => Sparse.get s.mem (pa j)) else r.bytes (r.tileSpan t.toNat).1 k
      let ms := if sp = 0 then [] else r.tileBytes m.toNat
      let masks := sp = 0 ∨ r.masksOk (spN sp) (r.tileSpan m.toNat).1 (r.tileSpan m.toNat).2 = true
      let ops := (if shf then [] else [(.tile t, 1)]) ++ (if sp = 0 then [] else [(.tile m, 1)]) ++ pops
      let fits := tdRows d ≤ 32 ∧ wLenOk w sp (tdBytes d) = true ∧
        (sp = 0 ∨ maskShape (td m) (tdRows d) (lenG w sp (tdBytes d)) = true)
      MxRuns h ops ops s v → ArrayFree s false → TokenFree s →
      (shf = true → ∀ j, j < k → SlotHit s1 ((addr + j) / 4096) ((addr + j) % 4096) 1 (pa j) ∧ Readable s1 (pa j) 1) →
      (r.binding t.toNat = none → TrapEnters s → TrapsL i s .staleBinding) ∧
      (r.binding t.toNat = some e → ¬ fits → TrapEnters s → TrapsL i s .mxFormat) ∧
      (r.binding t.toNat = some e → fits → ¬ masks → TrapEnters s → TrapsL i s .sparseMask) ∧
      (r.binding t.toNat = some e → fits → masks → ¬ fine d → TrapEnters s → TrapsL i s .dataError) ∧
      (r.binding t.toNat = some e → fits → masks → fine d → ∃ u, exec i s = .next u ∧
        ArrayStep s u s.curG (mxAfter s pops) { x.setBuf (!x.act) (latch (tdFmt d) sp (tdRows d) (tdBytes d) ws ms e) with
          holder := some s.curG.slot, act := !x.act, waiting := false, token := false, passed := 0, reqs := [] } back)) ∧
    (∀ (acc a w mt : BitVec 4) (rl dstep sa sw : Bool) (c : Opnd) (sp : BitVec 2) (steps : BitVec 12) (rdm : Rnd) (ea : BitVec 512) (m : Nat)
       (kd : Bool),
      let i : Instr := .mloop h acc a rl w c dstep sa sw sp mt steps rdm
      let p := fun (k : Nat) => g.srcVal c 4 v / 2 ^ (32 * k) % 2 ^ 32
      let l := Loop.mk s.cur.laneAddr (encodeLane i) (steps.toNat + 1) 0 (td a) a (if sa then some (BitVec.ofNat 32 (p 2 % 2 ^ 20)) else none) rl
        (if rl then td w else 0) w (if rl && sw then some (BitVec.ofNat 32 (p 3 % 2 ^ 20)) else none) (if rl && sp != 0 then td mt else 0) mt sp
        (BitVec.ofNat 12 (p 0)) (BitVec.ofNat 12 (p 0 / 2 ^ 12)) (BitVec.ofNat 5 (p 0 / 2 ^ 24)) (BitVec.ofNat 5 (p 1)) dstep acc rdm r.e r.ebad r.tview r.aview
      let b := x.actBuf
      let wt := LTy.ofCode b.fmt
      let at' := LTy.ofCode (tdFmt l.aDesc)
      let inSpace := fun (d : W64) (inc : Int) => let o : Int := bitsOf r.tview 0 17 + tdOff d
        ∀ k : Nat, k < l.steps → 0 ≤ o + inc * k ∧ o + inc * k + aBytes d ≤ r.declared.toNat
      let inShelf := fun (o : W32) (d : W64) (inc : Int) (first : Nat) => ∀ k : Nat, first ≤ k → k < l.steps → 0 ≤ o.toNat + inc * k ∧
        ∀ j : Nat, j < aBytes d → ∃ y, SlotHit s1 ((o.toNat + inc * k + j).toNat / 4096) ((o.toNat + inc * k + j).toNat % 4096) 1 y
      let ranges := (match l.aShf with | none => inSpace l.aDesc (incBytes l.incA) | some o => inShelf o l.aDesc (incBytes l.incA) 0) ∧
        (rl = true → (match l.wShf with | none => inSpace l.wDesc (incBytes l.incW) | some o => inShelf o l.wDesc (incBytes l.incW) 1) ∧
          (sp ≠ 0 → inSpace l.mDesc (maskStep b)))
      let shape := fun (m : Nat) (kd : Bool) => p 0 < 2 ^ 29 ∧ p 1 < 2 ^ 5 ∧ p 2 < 2 ^ 20 ∧ p 3 < 2 ^ 20 ∧ b.latched = true ∧ pairKind wt at' = some kd ∧
        actRows l.aDesc (aLen wt at' b.sparse) = some m ∧ wLen wt at' b.sparse = b.rowLen ∧ (dstep = true → m ≤ accRows r) ∧
        (rl = true → tdFmt l.wDesc = b.fmt ∧ tdRows l.wDesc = b.ncols ∧ tdBytes l.wDesc = b.rowLen ∧ sp = b.sparse ∧
          (sp ≠ 0 → maskShape l.mDesc b.ncols (lenG wt b.sparse b.rowLen) = true))
      let masks := rl = true → sp ≠ 0 → reloadMasksOk r l.mDesc b.ncols (lenG wt b.sparse b.rowLen) (spN sp) l.steps = true
      let same := dstep = false → x.live = true → x.m = m ∧ x.ncols = b.ncols ∧ x.kind = kd ∧ x.ea = ea ∧ x.eb = b.scales
      MxRuns h ((if dstep then [(.acc acc, 1)] else []) ++ (if sa then [] else [(.tile a, 1)]) ++ (if rl && !sw then [(.tile w, 1)] else []) ++
        (if rl && sp != 0 then [(.tile mt, 1)] else []) ++ [(c, 4)]) [(c, 4)] s v → ArrayFree s false → TokenFree s → ranges →
      (r.binding a.toNat = none → TrapEnters s → TrapsL i s .staleBinding) ∧
      (r.binding a.toNat = some ea → (∀ m' kd', ¬ shape m' kd') → TrapEnters s → TrapsL i s .mxFormat) ∧
      (r.binding a.toNat = some ea → shape m kd → ¬ masks → TrapEnters s → TrapsL i s .sparseMask) ∧
      (r.binding a.toNat = some ea → shape m kd → masks → ¬ same → TrapEnters s → TrapsL i s .chainMismatch) ∧
      (r.binding a.toNat = some ea → shape m kd → masks → same → ∃ u, exec i s = .next u ∧ ArrayStep s u s.curG (mxAfter s [])
        { x with holder := some s.curG.slot, token := true, waiting := false, reqs := [], loop := some l, mode := .running }
        (fun p => if x.token then p else p - 1))) ∧
    (∀ (k : DrainKind) (d pf : BitVec 4) (fin sat : Bool) (rdm : Rnd),
      let i : Instr := .mdrain h k d pf fin rdm sat
      let done := fun (z : MxArray) =>
        { (if fin then z.release else z) with token := false, waiting := false, passed := 0, reqs := [], outFin := false }
      let cl := { x with chains := [], live := false }
      let rows := (List.range x.m).map (portRow g x (LTy.ofCode pf) rdm sat seed)
      let room := 8 - x.port.length
      let val := fun (m n : Nat) => drainVal x x.ea x.eb m n
      let ctx := drainCtx g seed rdm
      let dn := tdBytes (td d)
      let ty := LTy.ofCode (tdFmt (td d))
      let fits := match k with
        | .acc => x.m ≤ accRows r
        | .cvt => x.m ≤ tdRows (td d) ∧ (x.ncols * ty.width + 7) / 8 ≤ dn
        | .port => True
      let left := fun (q : RegSpace) => { mxAfter s [] with
        rg := q, ln := { (mxAfter s []).ln with drainRs := if rdm == .rs then g.ln.drainRs + 1 else g.ln.drainRs } }
      MxRuns h (match k with | .cvt => [(.tile d, 1)] | .acc => [(.acc d, 1)] | .port => []) (match k with | .acc => [(.acc d, 1)] | _ => []) s v → ArrayFree s false → TokenFree s →
      (k = .port → s1.portBound g = false → TrapEnters s → TrapsL i s .mxFormat) ∧
      ((k = .port → s1.portBound g = true) → x.live = false → ∃ u, exec i s = .next u ∧
        ArrayStep s u s.curG (wokeArray (mxAfter s [])) (done x) back) ∧
      (x.live = true → k ≠ .port → ¬ fits → TrapEnters s → TrapsL i s .mxFormat) ∧
      (x.live = true → k = .acc → fits → x.ncols ≤ 32 → ∃ u q, exec i s = .next u ∧ ArrayStep s u s.curG (wokeArray (left q)) (done cl) back ∧
        let at' := fun (m n : Nat) => (r.accSpan d.toNat).1 + 128 * m + 4 * n
        (∀ m n, m < x.m → n < x.ncols → bytesToNat (q.bytes (at' m n) 4) =
          accSum (ctx false m n) (BitVec.ofNat 32 (bytesToNat (r.bytes (at' m n) 4))) (val m n) % 2 ^ 32) ∧
        (∀ b, (∀ m n, m < x.m → n < x.ncols → b < at' m n ∨ at' m n + 4 ≤ b) → q.byte b = r.byte b) ∧ (∀ w ∈ q.bad, w ∈ r.bad) ∧ q = { r with rows := q.rows, bad := q.bad }) ∧
      (x.live = true → k = .cvt → fits → ∃ u q, exec i s = .next u ∧ ArrayStep s u s.curG (wokeArray (left q)) (done cl) back ∧
        let row := fun (z : RegSpace) (m : Nat) => bytesToNat (z.bytes ((r.tileSpan d.toNat).1 + m * dn) dn)
        (∀ m n, m < x.m → n < x.ncols → row q m / 2 ^ (ty.width * n) % 2 ^ ty.width = roundFmt (ctx sat m n) ty (val m n) % 2 ^ ty.width) ∧
        (∀ m, m < x.m → row q m / 2 ^ (ty.width * x.ncols) = row r m / 2 ^ (ty.width * x.ncols)) ∧
        (∀ b, b < (r.tileSpan d.toNat).1 ∨ (r.tileSpan d.toNat).1 + x.m * dn ≤ b → q.byte b = r.byte b) ∧ (∀ w ∈ q.bad, w ∈ r.bad) ∧ q = { r with rows := q.rows, bad := q.bad }) ∧
      (x.live = true → k = .port → s1.portBound g = true → ∃ u, exec i s = .next u ∧
        (x.m ≤ room → ArrayStep s u s.curG (wokeArray (left r)) (done { cl with port := x.port ++ rows }) back) ∧
        (room < x.m → ArrayStep s u s.curG (left r)
          { cl with port := x.port ++ rows.take room, outQ := rows.drop room, outFin := fin, token := true, waiting := false, reqs := [] }
          (fun p => if x.token then p else p - 1)))) ∧
    (∀ fin : Bool, let y := { x with chains := [], live := false, kind := false, m := 0, ncols := 0, ea := 0, eb := 0,
                                     holder := if x.holder.isNone then some s.curG.slot else x.holder }
      MxRuns h [] [] s v → ArrayFree s true → x.outQ = [] →
        ∃ u, exec (.mzero h fin) s = .next u ∧ u.dies = s.dies ∧
          ArrayStep s u s.curG (mxAfter s []) (if fin then y.release else y) (fun p => p)) ∧
    (∀ fin : Bool, MxRuns h [] [] s v → s.mxErrOf s.curG = none → x.holder = some s.curG.slot → x.mode = .running →
      ∃ e : OpLog, exec (.mzero h fin) s = .next (s.setCur { mxAfter s [] with llog := some e }) ∧ e.scrub = true ∧ e.valid = false ∧
        e.addr = s.cur.laneAddr ∧ e.word = encodeLane (.mzero h fin))) ∧
  (∀ (s : State) (core : BitVec 10) (hd : BitVec 6) (l : Loop),
    let x := (s.core core).mx
    let gid := Gid.of core hd
    let g := s.group gid
    let s1 := s.takeToken gid
    let b := x.actBuf
    let wt := LTy.ofCode b.fmt
    let aty := LTy.ofCode (tdFmt l.aDesc)
    let la := aLen wt aty b.sparse
    let r := l.regs g.rg
    let ea := stepScales r l.aDesc (if l.dstep then l.incEa else 0) l.done
    let eb := b.scales
    let rows := aBytes l.aDesc / la
    let more := l.reload = true ∧ l.done + 1 < l.steps
    let last := l.steps ≤ l.done + 1
    let mm := if x.live then (if l.dstep then max x.m rows else x.m) else rows
    let nn := if x.live then (if l.dstep then max x.ncols b.ncols else x.ncols) else b.ncols
    let kd := if x.live then x.kind else (pairKind wt aty).getD false
    let sc := if l.dstep then stepScales r l.wDesc l.incEb (l.done + 1) else b.scales
    let start := fun (d : W64) (o : Option W32) => match o with | some o => (o.toNat : Int) | none => bitsOf l.tview 0 17 + tdOff d
    x.holder = some hd → x.loop = some l → x.mode = .running →
    let ready := x.token = true ∨ ((s.die gid.die).pool ≠ 0 ∧ tokenNext (s.requestToken gid) gid.die = some core)
    (g.stepDrowsy l = true → exec (.sequencerStep core) s = .next s) ∧
    (g.stepDrowsy l = false → ¬ ready → exec (.sequencerStep core) s = .next (s.requestToken gid)) ∧
    (g.stepDrowsy l = false → ready →
      (l.aShf = none → l.wShf = none → g.rg.bad = [] → l.scaleLost l.done = true → ∃ e, (stepReads gid l).run s1 = .error e s1) ∧
      (l.aShf = none → l.wShf = none → g.rg.bad = [] → l.scaleLost l.done = false → (stepReads gid l).run s1 = .ok
        (if more then g.rg.bytes (start l.wDesc none + (l.done + 1 : Nat) * incBytes l.incW).toNat (aBytes l.wDesc) else [],
         if more ∧ l.sp ≠ 0 then g.rg.bytes (start l.mDesc none + (l.done + 1 : Nat) * aBytes l.mDesc).toNat (aBytes l.mDesc) else [],
         g.rg.bytes (start l.aDesc none + l.done * incBytes l.incA).toNat (aBytes l.aDesc)) s1) ∧
      (∀ e, (stepReads gid l).run s1 = .error e s1 → ∃ u, exec (.sequencerStep core) s = .next u ∧
        (g.live = false ∨ g.llog.any OpLog.scrub = false → u.groups = s.groups) ∧
        ArrayStep s (u.setGroup gid (wokeArray g)) gid (wokeArray g) { x with
          mode := .frozen, err := some (0x10, BitVec.ofNat 13 l.done), token := false, waiting := false, passed := 0, reqs := [] }
        (fun p => if x.token then p + 1 else p)) ∧
      (∀ ws ms as, (stepReads gid l).run s1 = .ok (ws, ms, as) s1 → ∃ u c, exec (.sequencerStep core) s = .next u ∧
        (b.ncols ≤ 32 → ∀ m n, m < rows → n < b.ncols →
          let old := if x.live then Sparse.get x.chains (32 * m + n) else 0
          let ps := products b aty (entryH ea m) (bytesToNat ((cutRows la rows as).getD m [])) n (stepK wt aty b.sparse)
          Sparse.get c (32 * m + n) = if kd then addGrouped old ps else addExact old ps) ∧
        (b.ncols ≤ 32 → ∀ k, (∀ m n, m < rows → n < b.ncols → k ≠ 32 * m + n) → Sparse.get c k = if x.live then Sparse.get x.chains k else 0) ∧
        let drained := (({ g with rg := r }).drainAcc { x with chains := c, m := mm, ncols := nn, kind := kd } ea eb l.acc.toNat l.rnd
          (s.seedOf g)).countDrain l.rnd
        let stepped := if l.dstep then { drained with rg := { g.rg with rows := drained.rg.rows, bad := drained.rg.bad } } else g
        ArrayStep s u gid (if last then wokeArray stepped else stepped)
          { (if more then x.setBuf (!x.act) (latch (tdFmt l.wDesc) l.sp (tdRows l.wDesc) (tdBytes l.wDesc) ws ms sc) else x) with
            chains := if l.dstep then [] else c, live := !l.dstep, kind := kd, m := mm, ncols := nn, ea := if x.live then x.ea else ea,
            eb := if x.live then x.eb else b.scales, act := if l.reload then !x.act else x.act, loop := some { l with done := l.done + 1 },
            mode := if last then .idle else .running, token := !decide last, waiting := false, passed := if last then 0 else x.passed,
            reqs := [] }
          (fun p => if last then (if x.token then p + 1 else p) else if x.token then p else p - 1)))) ∧
  (∀ (s : State) (core : BitVec 10),
    let x := (s.core core).mx
    let n := 8 - (x.port.length - 1)
    let y := { x with port := x.port.drop 1 ++ x.outQ.take n, outQ := x.outQ.drop n }
    let gid := Gid.of core (x.holder.getD 0)
    (x.outQ = [] → exec (.streamPortEmit core) s = .next (s.setCore core { s.core core with mx := { x with port := x.port.drop 1 } })) ∧
    (x.outQ ≠ [] → ∃ u, exec (.streamPortEmit core) s = .next u ∧
      (y.outQ ≠ [] ∨ (s.group gid).live = false ∨ (s.group gid).llog.any OpLog.scrub = false → u.groups = s.groups) ∧
      (y.outQ ≠ [] → u = s.setCore core { s.core core with mx := y }) ∧
      (y.outQ = [] → x.mode ≠ .running → x.token = true →
        ArrayStep s (u.setGroup gid (wokeArray (s.group gid))) gid (wokeArray (s.group gid))
          { (if x.outFin then y.release else y) with token := false, passed := 0, reqs := [], outFin := false } (fun p => p + 1)))) ∧
  (∀ (ps : List (Int × Int)) (c : BitVec 128), (∀ q ∈ ps, -32 ≤ q.2) → c.extractLsb' 126 2 = 0#2 →
    let y := addExact c (ps.map (fun q => .fin q.1 q.2))
    y.extractLsb' 126 2 = 0#2 ∧
    y.extractLsb' 0 112 = BitVec.ofInt 112 ((c.extractLsb' 0 112).toInt + (ps.map (fun q => q.1 * 2 ^ (q.2 + 32).toNat)).sum)) ∧
  (let st := fun (c : BitVec 128) => c.extractLsb' 126 2
   let num := fun (p : FVal) => match p with | .fin m e => (m : ℚ) * 2 ^ e | _ => 0
   let finite := fun (p : FVal) => (∃ n, p = .zero n) ∨ ∃ m e, p = .fin m e ∧ m ≠ 0
   let grouped := fun (c : BitVec 128) =>
     (if c.getLsbD 64 then -1 else 1) * ((c.extractLsb' 16 48).toNat : ℚ) * 2 ^ (c.extractLsb' 96 16).toInt
   let trunc := fun (x : ℚ) => if 0 ≤ x then ⌊x⌋ else ⌈x⌉
   let kept48 := fun (x y : ℚ) => (x = 0 → y = 0) ∧
     ∀ k : Int, 2 ^ k ≤ |x| → |x| < 2 ^ (k + 1) → y = trunc (x / 2 ^ (k - 47)) * 2 ^ (k - 47)
   (∀ (c : BitVec 128) (ps : List FVal),
     let up := st c = 1#2 ∨ .inf false ∈ ps
     let down := st c = 2#2 ∨ .inf true ∈ ps
     let bad := st c = 3#2 ∨ .nan ∈ ps ∨ (up ∧ down)
     let z := addGrouped c ps
     ((addExact c ps).getLsbD 125 = false ∧ z.getLsbD 125 = true) ∧
     (∀ y, y = addExact c ps ∨ y = z → (bad → st y = 3#2) ∧ (¬ bad → up → st y = 1#2) ∧ (¬ bad → down → st y = 2#2) ∧
       (¬ bad → ¬ up → ¬ down → st y = 0#2)) ∧
     (∀ qs, ps.length = 32 → addGrouped c (ps ++ qs) = addGrouped z qs) ∧
     (st c = 0#2 → -2000 ≤ (c.extractLsb' 96 16).toInt → (c.extractLsb' 96 16).toInt ≤ 2000 → ps ≠ [] → ps.length ≤ 32 →
       (∀ p ∈ ps, finite p) → (∀ m e, .fin m e ∈ ps → |m| < 2 ^ 64 ∧ -1000 ≤ e ∧ e ≤ 1000) →
       ((∀ p ∈ ps, num p = 0) → grouped z = grouped c) ∧
       ∀ k : Int, (∀ p ∈ ps, |num p| < 2 ^ (k + 1)) → (∃ p ∈ ps, 2 ^ k ≤ |num p|) →
         kept48 (grouped c + 2 ^ (k - 48) * (ps.map (fun p => (trunc (num p / 2 ^ (k - 48)) : ℚ))).sum) (grouped z))) ∧
   (∀ (b : WBuf) (a : LTy) (ha : Int) (row n k : Nat),
     let w := LTy.ofCode b.fmt
     let ps := products b a ha row n k
     ∃ ks : List Nat, ks.Pairwise (· < ·) ∧ ps.length = ks.length ∧
       (∀ p, p ∈ ks ↔ p < k ∧ (b.sparse = 0 ∨ (Sparse.get b.masks n).getLsbD (32 * (p / 24) + p % 24) = true)) ∧
       ∀ j, j < ks.length → ps.getD j .nan =
         FVal.mul (decodeElem w (entryH b.scales n) ((Sparse.get b.data n).toNat / 2 ^ (w.width * j) % 2 ^ w.width))
           (decodeElem a ha (row / 2 ^ (a.width * ks.getD j 0) % 2 ^ a.width))) ∧
   (∀ (x : MxArray) (ea eb : BitVec 512) (m n : Nat),
     let c := Sparse.get x.chains (32 * m + n)
     let a : Nat := (scaleEntry ea m).toNat % 2 ^ 8
     let b : Nat := (scaleEntry eb n).toNat % 2 ^ 8
     let v := drainVal x ea eb m n
     let total : ℚ := if c.getLsbD 125 then grouped c else ((c.extractLsb' 0 112).toInt : ℚ) * 2 ^ (-32 : Int)
     (a = 255 ∨ b = 255 ∨ st c = 3#2 → v = .nan) ∧
     (a ≠ 255 → b ≠ 255 → (st c = 1#2 → v = .inf false) ∧ (st c = 2#2 → v = .inf true) ∧
       (st c = 0#2 → finite v ∧ num v = total * 2 ^ ((a : Int) - 127) * 2 ^ ((b : Int) - 127)))) ∧
   ∀ (ctx : RndCtx) (old : W32) (v : FVal),
     let o := f32val old
     let y := accSum ctx old v
     (o = .nan ∨ v = .nan ∨ (∃ n, o = .inf n ∧ v = .inf (!n)) → y = 0x7FC00000) ∧
     (∀ n, (o = .inf n ∧ (v = .inf n ∨ finite v)) ∨ (v = .inf n ∧ finite o) → y = if n then 0xFF800000 else 0x7F800000) ∧
     (finite o → finite v →
       (num o + num v = 0 → y = if old = 0x80000000 ∧ (v = .zero true ∨ v = .zero false) then 0x80000000 else 0) ∧
       (num o + num v ≠ 0 → ∃ m e : Int, m ≠ 0 ∧ (m : ℚ) * 2 ^ e = num o + num v ∧ y = roundFmt ctx .f32 (.fin m e))))

/-- R132, R150, R151, R286, R288: `mdrain.raw` and `msave` store the chains and the array's image, `mrest` of either form reads one
back, after every check; a form that its alignment or a reserved bit refuses changes nothing. The image lays the fields out as R149 and R150
list them, and `mrest.img` takes them from there. The model's own: the bytes of the image's sequencer part (log 24), whose sparsity the status
word shows (log 109), alignment by the address word or the virtual address (log 52), and what `.fin` leaves of a
frozen array and of live chains (log 82). -/
def Obligations.ArrayImages : Prop :=
  ∀ (s : State) (h : LHdr) (a : Opnd) (fin : Bool) (win : BitVec 3) (os : Order) (v : Nat) (pa : Nat → Nat → Nat),
    let g := s.cur.settle
    let s1 := s.setCur g
    let x := arrayAt s
    let addr := g.srcVal a 1 v % 2 ^ 32
    let va := (g.winVa win addr).toNat
    let after := mxAfter s [(a, 1)]
    let raw := (List.range 1024).map (fun i => (win, addr + 16 * i, 16))
    let img := (List.range 162).map (fun i => (win, addr + 256 * i, 256))
    let plain := fun (l : List (BitVec 3 × Nat × Nat)) => ∀ i j, i < l.length → j < (l.getD i (0, 0, 0)).2.2 →
      paNode (pa i j) = 0 ∧ paRegion (pa i j) < 2
    let kept := fun (i : Nat) => x.live = true ∧ i / 32 < x.m ∧ i % 32 < x.ncols
    let chain := fun (i : Nat) => if kept i then Sparse.get x.chains i else if x.kind then 1#128 <<< 125 else 0
    let becomes := fun (u : State) (y : MxArray) => ∀ k : BitVec 10, u.core k = if k = s.curG.core then { s.core k with mx := y } else s.core k
    let rawAt := fun (i : Nat) => BitVec.ofNat 128 (bytesToNat (rangeBytes s.mem raw pa i))
    let l := ((List.range 162).map (rangeBytes s.mem img pa)).flatten
    let back := fun (p : BitVec 10) => if x.token then p + 1 else p
    MxRuns h [(a, 1)] [(a, 1)] s v → ArrayFree s true →
    (RangesHit s1 false .write raw pa → addr % 16 ≠ 0 → TrapEnters s → TrapsL (.mdrainRaw h a fin win os) s .mxFormat) ∧
    (RangesHit s1 false .write raw pa → plain raw → addr % 16 = 0 → ∃ u, exec (.mdrainRaw h a fin win os) s = .next u ∧
      RangesStored { s1 with cores := u.cores } u raw pa (fun i j => BitVec.ofNat 8 ((chain i).toNat / 2 ^ (8 * j))) ∧
      becomes u (if fin then x.release else x) ∧ u.cur = { after with fired := u.cur.fired }) ∧
    (RangesHit s1 false .write img pa → va % 256 ≠ 0 → TrapEnters s → TrapsL (.msave h a win os) s .mxFormat) ∧
    (RangesHit s1 false .write img pa → plain img → va % 256 = 0 → ∃ u, exec (.msave h a win os) s = .next u ∧
      RangesStored { s1 with cores := u.cores } u img pa (fun i j => (image x).getD (256 * i + j) 0) ∧ becomes u x ∧ u.cur = { after with fired := u.cur.fired }) ∧
    (RangesHit s1 false .read img pa → va % 256 ≠ 0 → TrapEnters s → TrapsL (.mrestImg h a win os) s .mxFormat) ∧
    (RangesHit s1 false .read img pa → RangesRead s1 img pa → va % 256 = 0 → imageOk l = false → TrapEnters s →
      TrapsL (.mrestImg h a win os) s .mxFormat) ∧
    (RangesHit s1 false .read img pa → RangesRead s1 img pa → va % 256 = 0 → imageOk l = true → ∃ u, exec (.mrestImg h a win os) s = .next u ∧
      ArrayStep s u s.curG after (x.ofImage l (s1.group (Gid.of s.curG.core (BitVec.ofNat 6 (fieldAt l 51 6)))).rg) back) ∧
    (RangesHit s1 false .read raw pa → va % 16 ≠ 0 → TrapEnters s → TrapsL (.mrestRaw h a win os) s .mxFormat) ∧
    (RangesHit s1 false .read raw pa → RangesRead s1 raw pa → va % 16 = 0 → (∃ i, i < 1024 ∧ rawOk (rawAt i) = false) → TrapEnters s →
      TrapsL (.mrestRaw h a win os) s .mxFormat) ∧
    (RangesHit s1 false .read raw pa → RangesRead s1 raw pa → va % 16 = 0 → (∀ i, i < 1024 → rawOk (rawAt i) = true) →
      ∃ u, exec (.mrestRaw h a win os) s = .next u ∧ u = { s.setCur after with cores := u.cores } ∧
        ∃ cs : Sparse 128, becomes u { x with chains := cs } ∧ ∀ i, i < 1024 → Sparse.get cs i = rawAt i) ∧
    (image x).length = 41472 ∧
    (let at' := fun (l : List Byte) (o n : Nat) => bytesToNat ((l.drop o).take n)
     let st := fun (l : List Byte) (lo n : Nat) => at' l 0 8 / 2 ^ lo % 2 ^ n
     let prog := fun (l : List Byte) (lo n : Nat) => at' l 8 8 / 2 ^ lo % 2 ^ n
     let im := image x
     (st im 62 2 = (match x.mode with | .idle => 0 | .running => 1 | .frozen => 2) ∧ st im 61 1 = x.token.toNat ∧ st im 60 1 = x.live.toNat ∧
       st im 59 1 = x.kind.toNat ∧ st im 58 1 = x.act.toNat ∧ st im 57 1 = x.holder.isSome.toNat ∧ st im 51 6 = (x.holder.getD 0).toNat ∧
       st im 46 5 = (x.m - 1) % 32 ∧ st im 41 5 = (x.ncols - 1) % 32 ∧ st im 39 2 = x.actBuf.sparse.toNat ∧ st im 0 39 = 0) ∧
     (∀ l, x.loop = some l → prog im 27 37 = 0 ∧ prog im 26 1 = l.dstep.toNat ∧ prog im 13 13 = (l.steps - 1) % 2 ^ 13 ∧
       prog im 0 13 = l.done % 2 ^ 13 ∧ at' im 0x10 8 = l.addr.toNat) ∧
     (x.loop = none → at' im 8 16 = 0) ∧
     (at' im 0x100 64 = x.ea.toNat ∧ at' im 0x140 64 = x.eb.toNat ∧ at' im 0x180 64 = x.buf0.scales.toNat ∧ at' im 0x1C0 64 = x.buf1.scales.toNat) ∧
     (∀ n, n < 32 → at' im (0x200 + 384 * n) 384 = (Sparse.get x.buf0.data n).toNat ∧ at' im (0x3200 + 384 * n) 384 = (Sparse.get x.buf1.data n).toNat ∧
       at' im (0x6200 + 256 * n) 256 = (Sparse.get x.buf0.masks n).toNat ∧ at' im (0x8200 + 256 * n) 256 = (Sparse.get x.buf1.masks n).toNat) ∧
     (∀ (l : List Byte) (r : RegSpace), l.length = 41472 → let y := x.ofImage l r
       (y.mode = (if st l 62 2 = 0 then .idle else .frozen) ∧ y.holder = (if st l 57 1 = 1 then some (BitVec.ofNat 6 (st l 51 6)) else none) ∧
         y.token = false ∧ y.live.toNat = st l 60 1 ∧ y.kind.toNat = st l 59 1 ∧ y.act.toNat = st l 58 1 ∧ y.m = st l 46 5 + 1 ∧
         y.ncols = st l 41 5 + 1) ∧
       (∀ q, y.loop = some q → q.done = prog l 0 13 ∧ q.steps = prog l 13 13 + 1 ∧ q.addr.toNat = at' l 0x10 8) ∧
       (y.ea.toNat = at' l 0x100 64 ∧ y.eb.toNat = at' l 0x140 64 ∧ y.buf0.scales.toNat = at' l 0x180 64 ∧ y.buf1.scales.toNat = at' l 0x1C0 64) ∧
       (∀ n, n < 32 → (Sparse.get y.buf0.data n).toNat = at' l (0x200 + 384 * n) 384 ∧ (Sparse.get y.buf1.data n).toNat = at' l (0x3200 + 384 * n) 384 ∧
         (Sparse.get y.buf0.masks n).toNat = at' l (0x6200 + 256 * n) 256 ∧ (Sparse.get y.buf1.masks n).toNat = at' l (0x8200 + 256 * n) 256) ∧
       y.chains = x.chains ∧
       (st l 0 39 ≠ 0 ∨ prog l 27 37 ≠ 0 ∨ st l 62 2 = 3 ∨ (st l 57 1 = 0 ∧ st l 62 2 ≠ 0) → imageOk l = false)) ∧
     (let free := fun (e : BitVec 512) => ∀ i, i < 32 → e.extractLsb' (16 * i + 14) 2 = 0
      let small := fun (o : Option W32) => ∀ v, o = some v → v.toNat < 2 ^ 20
      (x.holder = none → x.mode = .idle) → x.buf0.ncols ≤ 32 → x.buf1.ncols ≤ 32 → free x.ea → free x.eb → free x.buf0.scales →
        free x.buf1.scales → (∀ l, x.loop = some l → small l.aShf ∧ small l.wShf) → imageOk im = true) ∧
     ∀ c : BitVec 128, rawOk c = true ↔
       c.extractLsb' 112 13 = 0 ∧ (c.getLsbD 125 = true → c.extractLsb' 65 31 = 0 ∧ c.extractLsb' 0 16 = 0))

/-! Launches, interfaces and the platform (R6, R34, R298 to R306, R311, R323 to R336, R354 to R365, R376, R381 to R391) -/

/-- R299, R302, R304, R330 to R334, R354 to R363, R376: a record is accepted with the status of R359, a block is placed whole in its
core's room, a launch that has finished completes with its record and its successor, saved blocks come back, a pre-emption takes
a partition's groups once none of them is in a handler for another cause, a budget that runs out ends its block, counted from the block's
first instruction and not while it is pre-empted, and a reset ends what its interface has, successors that wait among it. In mode `free` a
restore places one block, the lowest that has room (R302, R332). The model's own: budget
events put the cycle count at the budget's end (log 5), the mantel's kernel hash (log 10), what a restore takes from the image
and what the device keeps (log 31), an interface reset that waits for its rings (log 32), the statuses of records that break a
rule (log 45), the successor's address space (log 46), the seats of blocks placed together and which of two held launches goes first (log 47), frames
zeroed at placement (log 61), when a budget counts (log 77), and the status of a restore whose image could not be corrected (log 91). -/
def Obligations.LaunchEvents : Prop :=
  (∀ (s s' : State) (i : BitVec 12) (dev : Bool) (r : BitVec 2048) (p : BitVec 3),
    let x := s.iface i
    let pasid : BitVec 20 := x.cfg.extractLsb' 0 20
    let id := (s.part p).nextId
    let s0 := s'.setPart p { s'.part p with nextId := id + 1 }
    let ag : Agent := { die := if bitOf x.cfg 62 then 4 else 0, core := none, pasid := pasid, priv := bitOf x.cfg 60 }
    let det := fun (k : BitVec 2048) => bitOf r 123 || bitOf k 224
    let heads := fun (q : BitVec 3) => ∃ z tl, (s.part q).devQ = (i, z) :: tl
    (dev = false ∧ p = x.cfg.extractLsb' 20 3 ∧ x.subHead ≠ x.subTail ∧ bitOf x.cfg 63 = true ∧ x.resetting = false ∧
        s' = s.setIface i { x with subHead := x.subHead + 1 } ∧ r = slotRecord x (x.subHead.toNat % 8)) ∨
      (dev = true ∧ (∀ q : BitVec 3, q.toNat < p.toNat → ¬ heads q) ∧
        ∃ tl, (s.part p).devQ = (i, r) :: tl ∧ s' = s.setPart p { s.part p with devQ := tl }) →
    (∀ e s1, (readLaunch ag r).run s0 = .error e s1 → (∀ f, e ≠ .fault f) → exec (.launchAccept i dev) s = .next (s.noted s1)) ∧
    ((∀ e s1, (readLaunch ag r).run s0 = .error e s1 → ∃ f, e = .fault f) →
    ∃ t l, exec (.launchAccept i dev) s = .next t ∧ l.part = p ∧ l.id = id ∧ l.iface = i ∧ l.record = r ∧ l.priv = bitOf x.cfg 60 ∧
      l.pasid = pasid ∧ l.done = false ∧ l.placed = [] ∧ l.next = 0 ∧ l.ended = 0 ∧ l.exited = 0 ∧
      (∀ f s1, (readLaunch ag r).run s0 = .error (.fault f) s1 → t = { s1 with launches := s1.launches ++ [l] } ∧ l.status = collStatus f.cause) ∧
      (∀ k cs grid s1, (readLaunch ag r).run s0 = .ok (k, cs, grid) s1 → l.kdesc = k ∧
        l.status = (if badRecord s1 r k cs pasid p then 0x23 else if badRect s1 r p then 0x20
          else fitStatus s1 { l with grid := grid, det := det k }) ∧
        (l.status ≠ 0 → t = { s1 with launches := s1.launches ++ [l] }) ∧
        (l.status = 0 → l.grid = grid ∧ l.colls = cs ∧ l.det = det k ∧ l.cls = clampCls s1 r p ∧
          t = { s1 with launches := s1.launches ++ [l] }.setMantel p { s1.mantel p with
            acc := shake512 (natToBytes 64 (s1.mantel p).acc.toNat ++ mantelEntry s1 ag l), count := (s1.mantel p).count + 1 })))) ∧
  (∀ (s : State) (i : BitVec 12), (s.iface i).subHead = (s.iface i).subTail ∨ bitOf (s.iface i).cfg 63 = false ∨ (s.iface i).resetting = true →
    exec (.launchAccept i false) s = .next s) ∧
  (∀ (s : State) (p : BitVec 3) (id block : W32) (pos : BitVec 10) (l : Launch), s.launchOf p id = some l →
    let c := rCore l.record pos.toNat
    (l.places s = true → firstServed s l = true →
      (rMode l.record = 0 → (freeCands l).contains block.toNat = true → seatFree s l block.toNat pos.toNat = true →
        (∀ j ∈ (freeCands l).takeWhile (fun j => j != block.toNat), ∀ q ∈ l.window j, seatFree s l j q = false) →
        ∃ t x, exec (.blockPlace p id block pos) s = .next t ∧ s.room c p l.kdesc = some x ∧
          (∀ j, j < x.slots.length → (∀ k, j < k → k < x.slots.length → x.slots.getD k 0 ≠ x.slots.getD j 0) →
            t.group (Gid.of c (x.slots.getD j 0)) = newGroup l block (BitVec.ofNat 4 j)) ∧
          (∀ q : Gid, (∀ sl ∈ x.slots, q ≠ Gid.of c sl) → t.group q = { s.group q with fired := (t.group q).fired }) ∧
          t.blocks = s.blocks ++ [newBlock l block c x (s.core c).cyc] ∧
          (∀ f ∈ x.frames, ∀ j, j < 4096 → Sparse.get t.mem (frameBase c f.toNat + j) = 0) ∧
          (∀ a, (∀ f ∈ x.frames, a < frameBase c f.toNat ∨ frameBase c f.toNat + 4096 ≤ a) → Sparse.get t.mem a = Sparse.get s.mem a) ∧
          (t.core c).off = false ∧ (∀ k, Sparse.get (t.core c).tags k =
            if x.base ≤ k ∧ k < x.base + kSlots l.kdesc then 0 else Sparse.get (s.core c).tags k) ∧
          ∃ n, t.launchOf p id = some { l with placed := (block, c) :: l.placed, next := n }) ∧
      (rMode l.record ≠ 0 → ∀ seats s1, seatsNow s l = some seats → State.placeList l seats s = some s1 →
        exec (.blockPlace p id block pos) s = .next (s1.passOver l seats.length))) ∧
    (l.places s = false ∨ firstServed s l = false → exec (.blockPlace p id block pos) s = .next s) ∧
    (l.waitsAll s = true → 16 ≤ l.passedOver → exec (.dispatchHold p id) s = .next (s.setLaunch { l with hold := true }))) ∧
  (∀ (l : Launch) (block : W32) (k : BitVec 4), let n := newGroup l block k
    n.live = true ∧ n.pc = descWord l.kdesc 0 ∧ n.ln.lbase = descWord l.kdesc 8 ∧ n.part = l.part ∧ n.launch = l.id ∧ n.block = block ∧
    n.gidx = k ∧ n.priv = l.priv ∧ n.cls = l.cls ∧ n.pasid.toNat = bitsOf l.record 128 20 ∧ n.rg.declared.toNat = kRegs l.kdesc ∧ n.rg.rows = [] ∧
    ∀ i : SReg, n.s[i.toNat] = if bitOf l.record 120 = true ∧ i.toNat = bitsOf l.record 114 6 then block.setWidth 64
      else if i.toNat < 8 then l.record.extractLsb' (1024 + 64 * i.toNat) 64 else 0) ∧
  (∀ (s : State) (p : BitVec 3) (id : W32) (l : Launch), s.launchOf p id = some l →
    let ag := { lfeAgent (s.iface l.iface) with pasid := l.pasid, priv := l.priv }
    let worse := fun (st : BitVec 8) => if l.status ≠ 0 then l.status else st
    let s2 := { s with dtags := s.dtags.filter (fun t => !(t.part == p && t.launch == id)),
                       bars := s.bars.filter (fun b => !(b.part == p && b.launch == id)) }
    let ends := fun (st : BitVec 8) (next : Option (BitVec 2048)) (s3 : State) =>
      let s4 := s3.setLaunch { (s3.launchOf p id).getD l with done := true, status := st, succ := next }
      let y := s4.iface l.iface
      exec (.launchComplete p id) s = .next (if bitOf y.cqCtl 63 then
        s4.setIface l.iface { y with records := y.records ++ [(completionRecord l st next.isSome, p, id)] } else s4)
    (l.done = true ∨ l.finished s = false → exec (.launchComplete p id) s = .next s) ∧
    (l.done = false → l.finished s = true → (∀ w ∈ s.owins, ¬ (w.part = p ∧ w.launch = id)) →
      (l.record.extractLsb' 384 64 = 0#64 ∨ bitsOf l.record 552 8 = 0 → ends l.status none s2) ∧
      (∀ s3, (condHoldsAcc ag l.record).run s2 = .ok false s3 → ends l.status none s3) ∧
      (∀ f s3, (condHoldsAcc ag l.record).run s2 = .error (.fault f) s3 → ends (worse (collStatus f.cause)) none s3) ∧
      (∀ s3, (condHoldsAcc ag l.record).run s2 = .ok true s3 →
        (rLeft l.record = 0 → ends (worse 0x27) none s3) ∧
        (rLeft l.record ≠ 0 → (∀ r s4, (succRecord ag l.record).run s3 = .ok r s4 → ends l.status (some r) s4) ∧
          ∀ f s4, (succRecord ag l.record).run s3 = .error (.fault f) s4 → ends (worse (collStatus f.cause)) none s4))) ∧
    (∀ r, l.succ = some r → l.done = true → (s.part p).devQ.length < 64 → (s.iface l.iface).records.any (fun x => x.2.1 == p && x.2.2 == id) = false →
      exec (.successorEnqueue p id) s = .next ((s.setPart p { s.part p with devQ := (s.part p).devQ ++ [(l.iface, r)] }).setLaunch { l with succ := none }))) ∧
  (∀ (l : Launch) (st : BitVec 8) (b : Bool), let c := completionRecord l st b
    bitsOf c 0 64 = bitsOf l.record 320 64 ∧ bitsOf c 80 8 = l.coll.toNat ∧ bitsOf c 88 8 = st.toNat ∧ bitsOf c 96 32 = l.id.toNat ∧
    bitsOf c 128 64 = l.contrib.toNat ∧ bitsOf c 192 32 = 0 ∧ bitsOf c 224 32 = l.exited.toNat ∧
    bitsOf c 64 16 = ((rLeft l.record).toNat + 2 ^ 16 - b.toNat) % 2 ^ 16) ∧
  (∀ (s : State) (i : BitVec 12) (r : BitVec 256) (w : BitVec 3 × W32) (tl : List (BitVec 256 × BitVec 3 × W32)),
    let x := s.iface i
    let n := bitsOf x.cqCtl 0 5
    let a := x.cqBase.toNat + 32 * (x.cqTail.toNat % 2 ^ n)
    let host := fun (t : State) => if bitOf x.cfg 62 then t.host1 else t.host0
    let tok := x.unsignalled ≠ 0 ∧ bitOf x.tokCtl 63 = true
    x.records = (r, w) :: tl →
    (bitOf x.cqCtl 63 = false → exec (.completionRecordWrite i) s = .next (s.setIface i { x with records := tl })) ∧
    (bitOf x.cqCtl 63 = true → (x.cqTail - x.cqHead).toNat < 2 ^ n → ∃ t, exec (.completionRecordWrite i) s = .next t ∧
      (∀ j, j < 32 → Sparse.get (host t) (a + j) = BitVec.ofNat 8 (r.toNat / 2 ^ (8 * j))) ∧
      (∀ b, b < a ∨ a + 32 ≤ b → Sparse.get (host t) b = Sparse.get (host s) b) ∧
      t.msix = s.msix ++ [(bitOf x.cfg 62, x.cqCtl.extractLsb' 8 8)] ++
        (if tok then [(bitOf x.cfg 62, x.tokCtl.extractLsb' 8 8)] else []) ∧
      t.iface i = { x with records := tl, cqTail := x.cqTail + 1, unsignalled := if tok then 0 else x.unsignalled } ∧
      t = { s with ifaces := t.ifaces, host0 := if bitOf x.cfg 62 then s.host0 else t.host0, host1 := if bitOf x.cfg 62 then t.host1 else s.host1,
                   msix := t.msix }) ∧
    (bitOf x.cqCtl 63 = true → 2 ^ n ≤ (x.cqTail - x.cqHead).toNat → exec (.completionRecordWrite i) s = .next s)) ∧
  (∀ (s : State) (p : BitVec 3) (id : W32) (q l : Launch) (b : W32) (x : Saved) (rest : List Saved) (m : Room),
    let xs := x :: rest
    let mates := fun (y : Saved) => l.saved.filter (fun z => z.block == y.block)
    let left := fun (y : Saved) => ∀ z ∈ q.placed, z.1 ≠ y.block
    let det := q.det = true ∨ l.det = true
    let lowest := ∀ y ∈ l.saved, y.block ≠ b → left y → b.toNat < y.block.toNat + 64 ∧ (det → b.toNat < y.block.toNat) ∧
      (y.block.toNat < b.toNat → heldBack s q ((mates y).headD y).core = true ∨ s.roomN ((mates y).headD y).core p l.kdesc (mates y).length = none)
    s.launchOf p id = some q → q.done = false → q.status = 0 → bitOf q.record 121 = true → (s.part p).preReq = false →
    s.launchOf p (q.record.extractLsb' 608 32) = some l → mates x = xs → x.block = b → left x →
    ((∃ y ∈ xs, imageSpoilt s l y.core xs = true) → exec (.contextRestore p id) s = .next (s.setLaunch { q with status := 0x23, grid := 0 })) ∧
    ((∀ y ∈ l.saved, imageSpoilt s l y.core (mates y) = false) → (∀ y ∈ xs, heldBack s q y.core = false) → firstServed s q = true →
    (rMode q.record = 0 ∧ lowest) ∨ (∀ y ∈ l.saved, y.block = b) →
    s.roomN x.core p l.kdesc xs.length = some m → ∃ t, exec (.contextRestore p id) s = .next t ∧
      (∀ j, j < xs.length → j < m.slots.length → (∀ k, j < k → k < m.slots.length → m.slots.getD k 0 ≠ m.slots.getD j 0) →
        let y := xs.getD j x
        let u := loadGroup s l y
        t.group (Gid.of x.core (m.slots.getD j 0)) = if y.holder then
          u.startHandler (s.part p) (areaOf s y.gid p) .restore (s.core y.core).cyc else u) ∧
      (∀ g : Gid, (∀ sl ∈ m.slots, g ≠ Gid.of x.core sl) → t.group g = { s.group g with fired := (t.group g).fired }) ∧
      (∃ e, t.blocks = s.blocks ++ [e] ∧ e.part = p ∧ e.launch = l.id ∧ e.idx = b ∧ e.core = x.core ∧ e.frames = m.frames ∧ e.paused = false ∧
        (e.ran = true ↔ ∃ y ∈ xs, y.ran = true)) ∧
      (∀ a, (∀ f ∈ m.frames, a < frameBase x.core f.toNat ∨ frameBase x.core f.toNat + 4096 ≤ a) → Sparse.get t.mem a = Sparse.get s.mem a) ∧
      t.launches = (((s.setLaunch { l with saved := l.saved.filter (fun y => y.block != b) }).setLaunch
        { q with placed := (b, x.core) :: q.placed }).passOver q 1).launches)) ∧
  (∀ (s : State) (p : BitVec 3),
    let x := s.part p
    let live := s.groups.filter (fun y => y.2.live && y.2.part == p)
    (x.preReq = true → shelfWriters s p = [] → live = [] →
      exec (.preemptRequest p) s = .next (s.setPart p { x with preReq := false, preDone := true })) ∧
    (x.preReq = false → shelfWriters s p = [] → live = [] →
      exec (.preemptRequest p) s = .next { s.setPart p { x with preReq := false, preDone := true } with
        plat := s.plat.endTenant p, blocks := s.blocks.map (fun b => if b.part = p then b.pause (s.core b.core).cyc else b) }) ∧
    (let handler := fun (y : Nat × Group) => (s.group (BitVec.ofNat 16 y.1)).h
     x.preReq = true → shelfWriters s p = [] → (∀ y ∈ live, (handler y).on = true → (handler y).halted = false) →
      (∃ y ∈ live, (handler y).on = true ∧ (handler y).cause ≠ 0x50#8) → exec (.preemptRequest p) s = .next s) ∧
    (∀ (k : Nat) (g : Group), x.preReq = false → shelfWriters s p = [] → live = [(k, g)] → k < 2 ^ 16 → s.group (BitVec.ofNat 16 k) = g →
      g.h.on = false → g.st ≠ .exiting → s.mxErrOf (BitVec.ofNat 16 k) = none → ∃ t, exec (.preemptRequest p) s = .next t ∧
        (t.part p).preReq = true ∧ (t.part p).preDone = false ∧ t.plat = s.plat.endTenant p ∧
        (let u := t.group (BitVec.ofNat 16 k)
         u.pc = x.tvec ∧ u.priv = true ∧ u.pasid = x.hpasid ∧ u.h.on = true ∧ u.h.halted = false ∧ u.h.cause = 0x50#8 ∧
         u.s[62].toNat = areaOf s (BitVec.ofNat 16 k) p % 2 ^ 64 ∧ u.s[63] = 0x50#64))) ∧
  (∀ (s : State) (p : BitVec 3) (id block : W32) (b : Block) (gid : Gid) (tl : List Gid) (l : Launch),
    let s1 := s.setCore b.core { s.core b.core with cyc := cycleAt b.budget b.begun (s.core b.core).cyc }
    let ag : Agent := { die := gid.die, core := some gid.core, pasid := l.record.extractLsb' 128 20, priv := l.priv }
    s.launchOf p id = some l → (∀ e u, (logitMark ag (l.record.extractLsb' 704 64) block l.iface).run s1 = .error e u → ∃ f, e = .fault f) →
    s.blockOf p id block = some b → b.gids = gid :: tl → s.isLogit p id = true → b.budget ≠ 0 → b.ran = true → b.paused = false → (∀ x ∈ b.gids, (s.group x).h.on = false) →
    (s.group gid).part = p → (s.group gid).launch = id → (s.group gid).block = block →
    ∃ t r w, exec (.logitBudgetExpire p id block) s = .next t ∧ (t.part p).waiting = w ++ [r] ∧
      r.extractLsb' 60 4 = 3#4 ∧ r.extractLsb' 52 8 = 0x49#8 ∧ ∀ x ∈ b.gids, (t.group x).live = false) ∧
  (∀ (s : State) (p : BitVec 3) (id block : W32) (b : Block) (g : Gid) (now : W64),
    (s.blockOf p id block = some b → b.ran = false ∨ b.paused = true → exec (.logitBudgetExpire p id block) s = .next s) ∧
    (s.blockAt (s.group g) = some b → (s.group g).live = true → (s.group g).h.on = false → b.budget ≠ 0 → b.ran = false →
      s.began g = s.setBlock { b with ran := true, begun := (s.core b.core).cyc }) ∧
    ((b.pause now).paused = true ∧ (b.ran = false ∨ b.paused = true → (b.pause now).budget = b.budget) ∧
      (b.ran = true → b.paused = false → (now - b.begun).toNat < b.budget.toNat → (b.pause now).budget = b.budget - (now - b.begun)))) ∧
  (∀ (s : State) (i : BitVec 12),
    let x := s.iface i
    (x.resetting = false → exec (.ifaceReset i) s = .next s) ∧
    (x.resetting = true → s.colls = [] → s.sends = [] → ∃ t, exec (.ifaceReset i) s = .next t ∧
      (t.iface i = { cfg := x.cfg } ∨
        ((t.iface i).resetting = true ∧ ((t.iface i).records ≠ [] ∨ (t.iface i).tokens ≠ []))) ∧
      (bitOf x.cqCtl 63 = false → bitOf x.tokCtl 63 = false → x.tokens = [] → t.iface i = { cfg := x.cfg }) ∧
      (untaken s i = [] → ∀ l ∈ s.launches, l.iface = i → s.launchOf l.part l.id = some l →
        ∃ y, t.launchOf l.part l.id = some y ∧ y.succ = none) ∧
      ∀ l ∈ s.launches, l.iface = i → l.done = false → s.launchOf l.part l.id = some l →
        (∃ y, t.launchOf l.part l.id = some y ∧ y.done = true ∧ y.status = 0x16#8) ∧
        (untaken s i = [] → ∀ g : Gid, (s.group g).live = true → (s.group g).part = l.part → (s.group g).launch = l.id → (t.group g).live = false)))

/-- R6, R34, R36, R305, R323 to R325, R354, R355, R364, R365, R382: the register writes that have a step of their own, the stores
that REGISTER_WRITE performs, scrubs, the delivery of fault records and the replies to them, and accesses from outside the
package. The model's own: a register store is the next step of the agenda (logs 3 and 17), what an outside link reaches (log
33), a quota write that makes ranges invalid (log 36), when `pool_low` is armed (log 37), which right a peer's write needs (log
38), the link of a fault queue's vector (log 43), frames zeroed ahead (log 61), which accesses a scrub serves first and the instructions that it wakes (log 76), which port a
node uses (log 78), and a leaf that could not be corrected, which no scrub consumes (log 91). -/
def Obligations.RegistersAndOutsideAccesses : Prop :=
  (∀ (s : State) (i : BitVec 12) (v : W64),
    let x := s.iface i
    let d := (v.extractLsb' 0 32 - x.subHead).toNat
    let ring := fun (top : Nat) (c : W64) => ∀ b, b < 64 → c.getLsbD b =
      if b = 63 then v.getLsbD 63 && decide (4 ≤ bitsOf v 0 5 ∧ bitsOf v 0 5 ≤ 16) else v.getLsbD b && decide (b < 5 ∨ (8 ≤ b ∧ b < top))
    (bitOf x.cfg 63 = true → x.resetting = false → d ≤ 8 → exec (.subTailWrite i v) s = .next (s.setIface i { x with subTail := v.extractLsb' 0 32 })) ∧
    (bitOf x.cfg 63 = false ∨ x.resetting = true ∨ 8 < d → exec (.subTailWrite i v) s = .next s) ∧
    (∃ c, ring 16 c ∧ exec (.cqCtlWrite i v) s = .next (s.setIface i { x with cqCtl := c, records := if bitOf c 63 then x.records else [] })) ∧
    (∃ c, ring 24 c ∧ exec (.tokCtlWrite i v) s = .next (s.setIface i { x with tokCtl := c, tokens := if bitOf c 63 then x.tokens else [] }))) ∧
  (∀ (s : State) (node i : BitVec 12) (r : BitVec 2048),
    let x := s.iface i
    let k := x.subTail.toNat % 8
    (admits s node 62 (some i) = false ∨ s.linkDown node.toNat = true → exec (.launchPacket node i r) s = .next s) ∧
    (admits s node 62 (some i) = true → s.linkDown node.toNat = false → bitOf x.cfg 63 = true → x.resetting = false → (x.subTail + 1 - x.subHead).toNat ≤ 8 → ∃ m,
      exec (.launchPacket node i r) s = .next (s.setIface i { x with slots := m, subTail := x.subTail + 1 }) ∧
      (∀ j, j < 32 → Sparse.get m (32 * k + j) = r.extractLsb' (64 * j) 64) ∧
      ∀ j, j < 32 * k ∨ 32 * k + 32 ≤ j → Sparse.get m j = Sparse.get x.slots j)) ∧
  (∀ (s : State) (node : BitVec 12) (link : OuterLink) (one sys : Bool) (a : W64) (n : Size) (v : BitVec 128),
    let pa := a.toNat
    let up := s.linkDown node.toNat = false
    let stored := fun (i : Instr) => ∃ t, exec i s = .next t ∧ StoredAt s t pa (sizeBytes n) ∧
      ∀ j, j < sizeBytes n → Sparse.get t.mem (pa + j) = BitVec.ofNat 8 (v.toNat / 2 ^ (8 * j))
    let queued := fun (i : Instr) => exec i s = .next { s with agenda := [.event (.registerWrite a (v.extractLsb' 0 64))] }
    exec (.hostAccess link sys a n none) s = .next s ∧ exec (.fabricAccess node (.read a n)) s = .next s ∧
    (¬ up → exec (.fabricAccess node (.write a n v)) s = .next s) ∧
    -- the management link reaches the debug port and nothing else
    (isDebugPort pa = false → exec (.hostAccess .management sys a n (some v)) s = .next s) ∧
    (isDebugPort pa = true → s.agenda = [] → n = .b64 → pa % 8 = 0 → queued (.hostAccess .management sys a n (some v))) ∧
    -- in recovery host link 0 writes the flash-update window
    (s.plat.recovery = true → exec (.hostAccess (.host true) sys a n (some v)) s = .next s) ∧
    (s.plat.recovery = true → ∃ y : Sparse 8, exec (.hostAccess (.host false) sys a n (some v)) s =
      .next { s with plat := { s.plat with flash := y } } ∧ ∀ b, Sparse.get y b =
        if pa ≤ b ∧ b < pa + sizeBytes n then BitVec.ofNat 8 (v.toNat / 2 ^ (8 * (b - pa))) else Sparse.get s.plat.flash b) ∧
    (s.plat.recovery = false → inMemory pa = true → inMemory (pa + sizeBytes n - 1) = true → stored (.hostAccess (.host one) sys a n (some v))) ∧
    (up → admits s node 60 none = true → inMemory pa = true → inMemory (pa + sizeBytes n - 1) = true → stored (.fabricAccess node (.write a n v))) ∧
    (inMemory pa = true → admits s node 60 none = false → exec (.fabricAccess node (.write a n v)) s = .next s) ∧
    -- a launch packet needs the launch right, and a slot or sub_tail takes no other write
    (∀ i, up → pageOf pa = some i → n = .b64 → pa % 8 = 0 → s.agenda = [] →
      let packet := paOff pa % 0x1000 < 8 ∨ 0x800 ≤ paOff pa % 0x1000
      let ok := if packet then admits s node 62 (some i) else admits s node 60 none
      (ok = true → sysOnlyReg pa = false → queued (.fabricAccess node (.write a n v))) ∧
      (ok = false ∨ sysOnlyReg pa = true → exec (.fabricAccess node (.write a n v)) s = .next s)) ∧
    -- a write of 16 bytes is one of each register that it covers
    (n = .b128 → pa % 16 = 0 → admitsAt s node pa = false ∨ admitsAt s node (pa + 8) = false →
      exec (.fabricAccess node (.write a n v)) s = .next s) ∧
    (n = .b128 → pa % 16 = 0 → paNode pa = 0 → 2 ≤ paRegion pa → s.plat.recovery = false → s.agenda = [] →
      let half := fun (q : Nat) (w : W64) => if sysOnlyReg q || isDebugPort q then [] else
        [Move.event (.registerWrite (BitVec.ofNat 64 q) (regMask false q w))]
      exec (.hostAccess (.host one) false a n (some v)) s =
        .next { s with agenda := half pa (v.extractLsb' 0 64) ++ half (pa + 8) (v.extractLsb' 64 64) }) ∧
    (s.plat.recovery = false → s.agenda = [] → n = .b64 → pa % 8 = 0 → paNode pa = 0 → 2 ≤ paRegion pa →
      queued (.hostAccess (.host one) true a n (some v))) ∧
    (s.plat.recovery = false → paRegion pa ≥ 2 → pa % 8 + sizeBytes n ≤ 8 → sysOnlyReg pa = true → exec (.hostAccess (.host one) false a n (some v)) s = .next s) ∧
    ∀ (op : AtomOp) (ty : AtomTy) (b c : W64),
      let z := 2 ^ ty.bits
      (¬ up ∨ admits s node 60 none = false ∨ op = .oadd → exec (.fabricAccess node (.atom a op ty b c)) s = .next s) ∧
      (up → admits s node 60 none = true → op.special = false → inMemory pa = true → atomCheck false op ty pa (b.toNat % z) = none →
        s.bad pa (ty.bits / 8) = false → ∃ t, exec (.fabricAccess node (.atom a op ty b c)) s = .next t ∧ StoredAt s t pa (ty.bits / 8) ∧
          peek t.mem pa (ty.bits / 8) = atomNew op ty (peek s.mem pa (ty.bits / 8)) (b.toNat % z) (c.toNat % z))) ∧
  (∀ (s : State) (die : BitVec 3) (v : W64),
    let d := s.die die
    let ok := (v.extractLsb' 0 32 - d.ftzHead).toNat ≤ 2 ^ bitsOf d.ftzRing 0 5
    (ftzOn d = true → ok → exec (.ftzTailWrite die v) s = .next (s.setDie die { d with
      ftzTail := v.extractLsb' 0 32, lowPosted := if d.ftzLow.toNat ≤ (v.extractLsb' 0 32 - d.ftzHead).toNat then false else d.lowPosted })) ∧
    (ftzOn d = false ∨ ¬ ok → exec (.ftzTailWrite die v) s = .next s) ∧
    (∀ (core : BitVec 10) (p : BitVec 3) (b : Bool),
      let c := s.core core
      let qa := if b then c.quotaA.getD p.toNat 0 else v &&& 0x80000003FFFFFFFF#64
      let qb := if b then v else c.quotaB.getD p.toNat 0
      (s.blocks.any (fun x => x.core == core && x.part == p) = true → exec (.quotaWrite core p b v) s = .next s) ∧
      (s.blocks.any (fun x => x.core == core && x.part == p) = false → ∃ y, exec (.quotaWrite core p b v) s = .next (s.setCore core y) ∧
        y = { c with quotaA := y.quotaA, quotaB := y.quotaB } ∧ (∀ k : Fin 8, k.val ≠ p.toNat → y.quotaA[k] = c.quotaA[k] ∧ y.quotaB[k] = c.quotaB[k]) ∧
        y.quotaB.getD p.toNat 0 = qb ∧ (∀ i, i < 63 → (y.quotaA.getD p.toNat 0).getLsbD i = qa.getLsbD i) ∧
        (y.quotaA.getD p.toNat 0).getLsbD 63 = (qa.getLsbD 63 && quotaOk c p.toNat qa qb))) ∧
    exec (.fqCtlWrite die v) s = .next (s.setPart die { s.part die with
      fqEn := v.getLsbD 63 && decide (4 ≤ bitsOf v 0 5 ∧ bitsOf v 0 5 ≤ 16), fqMsix := v.extractLsb' 8 8, fqLog2 := v.extractLsb' 0 5 }) ∧
    exec (.pwrCapWrite v) s = .next { s with plat := { s.plat with pwrCap := BitVec.ofNat 16 (min (max (bitsOf v 0 16) 600) 3600) } }) ∧
  (∀ (s : State) (a : W64) (lvl : BitVec 2) (die : BitVec 3) (k : BitVec 16),
    let e := s.read64 a.toNat
    let f := e.toNat / 2 ^ 16 * 2 ^ 16
    let n := pageSize lvl.toNat
    let d := s.die die
    let w := ringEntry s die k.toNat
    let m := 2 ^ bitsOf d.ftzRing 0 5
    let first := stalledOn s (paDie f) = [] ∨ (a.toNat, lvl.toNat) ∈ stalledOn s (paDie f)
    (inHbm a.toNat = true → bitOf e 0 = true → bitOf e 1 = true → bitOf e 7 = true → inHbm f = true → checkLeaf s lvl.toNat e = none →
      s.bad a.toNat 8 = false → first →
      ∃ t, exec (.scrubComplete (.leaf a lvl)) s = .next t ∧ t.read64 a.toNat = putBit e 7 false ∧
        (∀ b, f ≤ b → b < f + n → b < a.toNat ∨ a.toNat + 8 ≤ b → Sparse.get t.mem b = 0) ∧
        ∀ b, (b < f ∨ f + n ≤ b) → b < a.toNat ∨ a.toNat + 8 ≤ b → Sparse.get t.mem b = Sparse.get s.mem b) ∧
    (s.bad a.toNat 8 = false → bitOf e 7 = false ∨ ¬ first → exec (.scrubComplete (.leaf a lvl)) s = .next s) ∧
    (s.bad a.toNat 8 = true → ∃ t, exec (.scrubComplete (.leaf a lvl)) s = .next t ∧ t = { s with stalls := t.stalls, groups := t.groups } ∧
      (∀ x, x ∈ t.stalls ↔ x ∈ s.stalls ∧ x.1 ≠ a.toNat) ∧ ∀ g : Gid, t.group g = (s.group g).wakeScrub) ∧
    (stalledOn s die ≠ [] → exec (.scrubComplete (.ring die k)) s = .next s) ∧
    (ftzOn d = true → (k.toNat + m * 2 ^ 32 - d.ftzHead.toNat) % m < poolCount d → goodFrame die w = true → d.zeroed.contains w = false → stalledOn s die = [] →
      ∃ t, exec (.scrubComplete (.ring die k)) s = .next t ∧ t.die die = { d with zeroed := w :: d.zeroed } ∧
        (∀ b, w.toNat ≤ b → b < w.toNat + 0x10000 → Sparse.get t.mem b = 0) ∧
        ∀ b, b < w.toNat ∨ w.toNat + 0x10000 ≤ b → Sparse.get t.mem b = Sparse.get s.mem b)) ∧
  (∀ (s : State) (p : BitVec 3) (r : BitVec 512) (tl : List (BitVec 512)),
    let x := s.part p
    let n := x.fqLog2.toNat
    let a := x.fqBase.toNat + 64 * (x.fqTail.toNat % 2 ^ n)
    let away := fun (b : Nat) => x.mirror = 0#64 ∨ b < x.mirror.toNat ∨ x.mirror.toNat + 8 ≤ b
    x.waiting = r :: tl →
    (x.fqEn = true → (x.fqTail - x.fqHead).toNat < 2 ^ n → ∃ t, exec (.faultRecordDeliver p) s = .next t ∧
      t.part p = { x with waiting := tl, fqTail := x.fqTail + 1 } ∧
      (∀ j, j < 64 → away (a + j) → Sparse.get t.mem (a + j) = BitVec.ofNat 8 (r.toNat / 2 ^ (8 * j))) ∧
      (∀ b, (b < a ∨ a + 64 ≤ b) → away b → Sparse.get t.mem b = Sparse.get s.mem b) ∧
      (x.mirror ≠ 0 → t.read64 x.mirror.toNat = (x.fqTail + 1).setWidth 64) ∧
      t.msix = s.msix ++ (if x.fqTail = x.fqHead then [(false, x.fqMsix)] else [])) ∧
    (x.fqEn = false ∨ 2 ^ n ≤ (x.fqTail - x.fqHead).toNat → exec (.faultRecordDeliver p) s = .next s)) ∧
  (∀ (s : State) (p : BitVec 3) (gid : Gid) (lane : Bool) (r : BitVec 512),
    let g := s.group gid
    (g.live = false ∨ g.part ≠ p ∨ g.pendingFault lane = none →
      exec (.fqReplyReplay p gid lane) s = .next s ∧ exec (.fqReplyTrap p gid lane) s = .next s) ∧
    (g.live = true → g.part = p → g.pendingFault lane = some r →
      (∀ l, g.log lane = some l → exec (.fqReplyReplay p gid lane) s = .next (s.setGroup gid (g.setLog lane (some { l with valid := true })))) ∧
      (g.log lane = none → exec (.fqReplyReplay p gid lane) s = .next (s.setGroup gid (if lane then { g with lfetch := none } else { g with sfetch := none }))) ∧
      ∃ x : PendTrap, exec (.fqReplyTrap p gid lane) s = .next (s.setGroup gid { g with h := { g.h with pend := some x } }) ∧
        x.cause = .xlat (r.extractLsb' 52 4) ∧ x.pc = g.pc ∧ x.lpc = g.ln.lpc ∧ x.record.extractLsb' 52 140 = r.extractLsb' 52 140 ∧
        x.record.extractLsb' 39 13 = 0#13 ∧ x.record.extractLsb' 0 39 = r.extractLsb' 0 39 ∧ x.record.extractLsb' 192 320 = r.extractLsb' 192 320)) ∧
  (∀ (s : State) (v : W64) (p : BitVec 3) (i : BitVec 12) (core : BitVec 10) (d : BitVec 3) (q : BitVec 7) (k : BitVec 8) (j : BitVec 2),
    let at' := fun (die : BitVec 3) (region off : Nat) => BitVec.ofNat 64 (die.toNat * 2 ^ 49 + region * 2 ^ 46 + off)
    let wr := fun (a : W64) => exec (.registerWrite a v) s
    let pr := fun (off : Nat) => wr (at' 0 3 (0x3000 + 0x80 * p.toNat + off))
    let x := s.part p
    let ip := fun (off : Nat) => wr (at' (if i.getLsbD 0 then 0 else 4) 4 (0x1000 * i.toNat + off))
    let y := s.iface i
    let cp := fun (off : Nat) => wr (at' (core.extractLsb' 7 3) 3 (0x100000 + 0x1000 * bitsOf core 0 7 + off))
    let mp := fun (off : Nat) => wr (at' 0 3 (0x5000 + 0x100 * p.toNat + off))
    let u := s.die d
    pr 0x00 = .next (s.setPart p { x with fqBase := v }) ∧ pr 0x08 = exec (.fqCtlWrite p v) s ∧
    pr 0x10 = .next (s.setPart p { x with fqHead := v.extractLsb' 0 32 }) ∧ pr 0x18 = .next s ∧
    pr 0x20 = .next (s.setPart p { x with mirror := if bitsOf v 0 3 = 0 then v else 0 }) ∧
    pr 0x28 = (if v.getLsbD 63 = false then .next s else if v.getLsbD 61 then exec (.fqReplyTrap p (v.extractLsb' 40 16) (v.getLsbD 62)) s
      else exec (.fqReplyReplay p (v.extractLsb' 40 16) (v.getLsbD 62)) s) ∧
    pr 0x30 = .next (s.setPart p { x with tvec := v }) ∧ pr 0x38 = .next (s.setPart p { x with tlbase := v }) ∧
    pr 0x40 = .next (s.setPart p { x with hpasid := v.extractLsb' 0 20 }) ∧ pr 0x48 = .next (s.setPart p { x with ctxBase := v }) ∧
    pr 0x50 = (if v.getLsbD 63 then exec (.preemptRequest p) s else .next s) ∧ pr 0x58 = .next (s.setPart p { x with tlwords := v.extractLsb' 0 32 }) ∧
    ip 0x000 = exec (.subTailWrite i v) s ∧ ip 0x008 = .next s ∧
    (∃ c, ip 0x010 = .next (s.setIface i { y with cfg := c }) ∧ bitOf c 63 = (v.getLsbD 63 && !s.plat.recovery) ∧
      ∀ b, b < 63 → c.getLsbD b = (v.getLsbD b && decide (b < 23 ∨ b = 60 ∨ b = 62))) ∧
    ip 0x018 = (if v.getLsbD 0 then .next { s.setIface i { y with resetting := true } with agenda := .event (.ifaceReset i) :: s.agenda } else .next s) ∧
    ip 0x020 = .next (s.setIface i { y with cqBase := v }) ∧ ip 0x028 = exec (.cqCtlWrite i v) s ∧
    ip 0x038 = .next (s.setIface i { y with cqHead := v.extractLsb' 0 32 }) ∧ ip 0x040 = .next (s.setIface i { y with tokBase := v }) ∧
    ip 0x048 = exec (.tokCtlWrite i v) s ∧
    ip 0x058 = .next ((s.setIface i { y with tokHead := v.extractLsb' 0 32 }).flushTokens i y.tokens.length) ∧
    (∀ n, n < 256 → ip (0x800 + 8 * n) = .next (s.setIface i { y with slots := Sparse.set y.slots n v })) ∧
    cp 0x040 = .next (s.setCore core { s.core core with rfDrowsy := v &&& 0xFFFFFFFF#64 }) ∧
    cp (0x200 + 16 * p.toNat) = exec (.quotaWrite core p false v) s ∧ cp (0x208 + 16 * p.toNat) = exec (.quotaWrite core p true v) s ∧
    wr (at' d 3 0x2000) = .next (s.setDie d { u with ptBase := v &&& 0x000E3FFFFF000001#64 }) ∧
    wr (at' d 3 0x2018) = .next (s.setDie d { u with ftzRing := v &&& 0x00003FFFFFFFF0FF#64 }) ∧
    wr (at' d 3 0x2028) = exec (.ftzTailWrite d v) s ∧ wr (at' d 3 0x2030) = .next (s.setDie d { u with
      ftzLow := v.extractLsb' 0 32, lowPosted := if (v.extractLsb' 0 32).toNat ≤ (u.ftzTail - u.ftzHead).toNat then false else u.lowPosted }) ∧
    wr (at' d 2 (0x1000 * q.toNat + 0x028)) = (if v.getLsbD 1 then exec (.queueAbandon d q) s else if v.getLsbD 0 then exec (.queueResume d q) s
      else .next s) ∧
    wr (at' d 2 (0x90000 + 32 * k.toNat + 8 * j.toNat)) = exec (.pbufDescWrite d k j v) s ∧
    wr (at' 0 3 0x7000) = exec (.pwrCapWrite v) s ∧ wr (at' 0 3 0x4008) = .next { s with plat := { s.plat with dbgData := v } } ∧
    wr (at' 0 3 0x4000) = .next { s with plat := s.plat.dbgWrite v } ∧
    (v.getLsbD 0 = true → v.getLsbD 1 = false → mp 0x48 = exec (.mantelClear p) s) ∧
    (v.getLsbD 0 = false → v.getLsbD 1 = true → mp 0x48 = exec (.mantelQuote p) s) ∧
    (∀ n, n < 4 → mp (0x50 + 8 * n) = .next (s.setMantel p { s.mantel p with nonce := putBits (s.mantel p).nonce (64 * n) 64 v.toNat })) ∧
    (∀ n, n < 0x1000 → wr (at' 0 3 (0x1000000 + 16 * n)) = .next { s with act := Sparse.set s.act n (putBits (Sparse.get s.act n) 0 64
      (v &&& 0xFE700FFF00000FFF#64).toNat) }))

/-- R101, R102, R145, R169, R309, R311, R335, R336, R381 to R391: tokens, power, drowsy granules, errors and their self-tests,
sensors, boot, the mantel and its quotes, the debug port and the tokens that open it, the start of a lane block. The model's
own: SHAKE256, signatures and tokens (log 10), what a boot keeps (log 11), results written at a halt (log 12), the order of
grants (log 15), the place and cause of a kind 4 record (log 27), when the power manager moves tokens (log 28), what a boost
event stands for (log 41), whom the debug port serves (log 42), the unit of an error (log 60), the flash, the keys and
recovery's values (log 79), a debugger's write to slack or gated storage (log 89), and granules that results are still to reach (log 103). -/
def Obligations.PlatformEvents : Prop :=
  (∀ (s : State) (d : BitVec 3) (c : BitVec 10),
    let l := (s.die d).tokQ.filter (fun k => (s.core k).mx.waiting)
    let rest := (s.die d).tokQ.filter (fun k => k != c && (s.core k).mx.waiting)
    ((s.die d).pool = 0 ∨ l = [] → exec (.tokenGrant d) s = .next s) ∧
    (tokenNext s d = some c → c ∈ l ∧ ((∃ k ∈ l, 64 ≤ (s.core k).mx.passed.toNat) → 64 ≤ (s.core c).mx.passed.toNat) ∧
      ((∀ k ∈ l, (s.core k).mx.passed.toNat < 64) → ∀ k ∈ l, (s.reqClass k).toNat ≤ (s.reqClass c).toNat)) ∧
    (tokenNext s d = some c → (s.die d).pool ≠ 0 → c.extractLsb' 7 3 = d → ∃ t, exec (.tokenGrant d) s = .next t ∧
      t.core c = { s.core c with mx := { (s.core c).mx with token := true, waiting := false, reqs := [] } } ∧
      t.die d = { s.die d with pool := (s.die d).pool - 1, tokQ := rest } ∧
      ((s.die d).tokQ.Nodup → ∀ k ∈ rest, t.core k = { s.core k with mx := { (s.core k).mx with
        passed := if (s.core k).mx.passed = 127#7 then 127 else (s.core k).mx.passed + 1 } }) ∧
      (∀ k : BitVec 10, k ≠ c → k ∉ rest → t.core k = s.core k) ∧ t = { s with cores := t.cores, dies := t.dies })) ∧
  (∀ (s : State) (core : BitVec 10),
    let x := (s.core core).mx
    let d : BitVec 3 := core.extractLsb' 7 3
    exec (.tokenRequestPromote core) s = .next (if x.waiting = true ∧ 64 ≤ x.passed.toNat then
      s.setDie d { s.die d with tokQ := core :: (s.die d).tokQ.filter (fun c => c != core) } else s)) ∧
  (∀ (s : State) (gid : Gid) (k : BitVec 5) (w : BitVec 20) (tl : List (BitVec 20)),
    let g := s.group gid
    let drowsy := fun (b : Bool) (i : Instr) => ∃ z, exec i s = .next (s.setGroup gid { g with rg := { g.rg with drowsy := z } }) ∧
      ∀ j, j < 32 → z.getLsbD j = if j = k.toNat then b else g.rg.drowsy.getLsbD j
    (s.streamReady gid false = true → exec (.issueBoost gid false) s = .next (s.setGroup gid { g with boost := true, passed := 64 })) ∧
    (s.streamReady gid true = true →
      exec (.issueBoost gid true) s = .next (s.setGroup gid { g with ln := { g.ln with boost := true, passed := 64 } })) ∧
    (∀ lane, s.streamReady gid lane = false → exec (.issueBoost gid lane) s = .next s) ∧
    (∀ b p, g.wait = .bar b p → g.replaying false = none → s.phaseDone gid b p = false → exec (.issueBoost gid false) s = .next s) ∧
    (g.live = true →
      drowsy false (.granuleWake gid k) ∧
      ((∃ d t u, g.st = .parked d t u) ∨ (∃ y, g.st = .yielded y) → (s.core gid.core).rfDrowsy.extractLsb' 0 32 ≠ 0#32 →
        k.toNat < g.rg.granules.toNat → g.resultsDue = false → drowsy true (.granuleDrowsy gid k)) ∧
      (g.resultsDue = true → exec (.granuleDrowsy gid k) s = .next s) ∧
      (g.h.halted = false → g.ln.runQ = w :: tl → g.ln.active = false → g.ln.exited = BitVec.allOnes 64 →
        exec (.laneBlockStart gid) s = .next (s.setGroup gid { g with ln := { g.ln with runQ := tl } })) ∧
      (g.h.halted = false → g.ln.runQ = w :: tl → g.ln.active = false → g.ln.exited ≠ BitVec.allOnes 64 → exec (.laneBlockStart gid) s = .next (s.setGroup gid { g with
        ln := { g.ln with runQ := tl, active := true, lpc := w, run := ~~~g.ln.exited, stack := [] } }))) ∧
    ((s.core gid.core).rfDrowsy.extractLsb' 0 32 = 0#32 → exec (.granuleDrowsy gid k) s = .next s)) ∧
  (∀ (s : State) (a b : BitVec 4) (n : BitVec 10),
    let pool := fun (k : BitVec 4) => (s.die (k.extractLsb' 0 3)).pool
    let hot := s.plat.pwrNow.toNat > s.plat.pwrCap.toNat
    let move := exec (.powerManagerMove a b n) s
    (a.toNat < 8 → b.toNat < 8 → a ≠ b → n.toNat ≤ (pool a).toNat → ∃ t, move = .next t ∧ t = { s with dies := t.dies } ∧
      ∀ d : BitVec 3, t.die d = { s.die d with pool := if d = a.extractLsb' 0 3 then pool a - n else if d = b.extractLsb' 0 3 then pool b + n
        else (s.die d).pool }) ∧
    (a.toNat < 8 → b = 8#4 → hot → n.toNat ≤ (pool a).toNat → move = .next { s.setDie (a.extractLsb' 0 3) { s.die (a.extractLsb' 0 3) with
      pool := pool a - n } with plat := { s.plat with reserve := s.plat.reserve + n } }) ∧
    (a = 8#4 → b.toNat < 8 → ¬ hot → n.toNat ≤ s.plat.reserve.toNat → move = .next { s.setDie (b.extractLsb' 0 3) { s.die (b.extractLsb' 0 3) with
      pool := pool b + n } with plat := { s.plat with reserve := s.plat.reserve - n } }) ∧
    (a.toNat < 8 → (pool a).toNat < n.toNat → move = .next s)) ∧
  (∀ (s : State) (c : BitVec 10), let busy := s.blocks.any (fun b => b.core == c) || placePending s c
    (∀ l o x, l ∈ s.launches → l.done = false → l.status = 0 → bitOf l.record 121 = true →
      s.launchOf l.part (l.record.extractLsb' 608 32) = some o → x ∈ o.saved → x.core = c → (∀ p ∈ l.placed, p.1 ≠ x.block) → busy = true) ∧
    exec (.corePowerOff c) s = .next (if busy then s else s.setCore c { s.core c with off := true }) ∧
    exec (.corePowerOn c) s = .next (if busy then s.setCore c { s.core c with off := false } else s)) ∧
  (∀ (s : State) (a : W64) (code : BitVec 2) (port : BitVec 5) (link : Bool) (e : BitVec 8) (c : BitVec 10) (v : BitVec 16),
    let w : ErrWord := .mem (a &&& ~~~7#64)
    let struck := fun (u : State) (x : ErrWord) => ({ u with tests := if s.tests.contains x then s.tests else s.tests ++ [x] } : State)
    let posted := fun (t : State) (place : BitVec 16) (cd : BitVec 2) (entry : W64) => ∃ r : BitVec 512,
      (t.part 0).waiting = (s.part 0).waiting ++ [r] ∧ r.extractLsb' 60 4 = 4#4 ∧ r.extractLsb' 52 8 = Cause.dataError.code ∧
      r.extractLsb' 23 16 = place ∧ r.extractLsb' 128 64 = entry ∧ r.extractLsb' 256 2 = cd
    let done := fun (x : ErrWord) (place : BitVec 16) (entry : W64) => x ∈ s.tests → code ≠ 0 → ∃ t, exec (.selfTestComplete x code) s = .next t ∧
      posted t place code entry ∧ t = { s with tests := s.tests.filter (fun y => y != x), parts := t.parts }
    (paNode w.place.2.toNat = 0 → paRegion w.place.2.toNat < 2 → exec (.uncorrectedError (.mem a)) s = .next (struck { s with
      badWords := if s.badWords.contains w.place.2.toNat then s.badWords else s.badWords ++ [w.place.2.toNat] } w)) ∧
    (∀ (g : Gid) (k : BitVec 16) (sr : BitVec 5), let x := s.group g
      (x.live = true → 4 * k.toNat < x.rg.declared.toNat → ∃ l, exec (.uncorrectedError (.reg g k)) s =
        .next (struck (s.setGroup g { x with rg := { x.rg with bad := l } }) (.reg g k)) ∧ ∀ y, y ∈ l ↔ y = k.toNat ∨ y ∈ x.rg.bad) ∧
      (x.live = true → ∃ z : W32, exec (.uncorrectedError (.scale g sr)) s =
        .next (struck (s.setGroup g { x with rg := { x.rg with ebad := z } }) (.scale g sr)) ∧
        ∀ j, j < 32 → z.getLsbD j = (decide (j = sr.toNat) || x.rg.ebad.getLsbD j)) ∧
      (x.live = false → exec (.uncorrectedError (.reg g k)) s = .next s ∧ exec (.uncorrectedError (.scale g sr)) s = .next s) ∧
      done (.reg g k) g 0 ∧ done (.scale g sr) g 0) ∧
    done w (paDie w.place.2.toNat ++ 0#13) w.place.2 ∧
    (port.toNat < 24 → ∃ t, exec (.fabricLinkLost port) s = .next t ∧ posted t (BitVec.ofNat 3 (port.toNat / 3) ++ 0#13) 3 (port.setWidth 64) ∧
      (t.die (BitVec.ofNat 3 (port.toNat / 3))).portsDown.getLsbD (port.toNat % 3) = true ∧ t = { s with dies := t.dies, parts := t.parts }) ∧
    exec (.hostLinkError link e) s = .next { s with aer := s.aer ++ [(link, e)] } ∧
    exec (.sensorReading (.power v)) s = .next { s with plat := { s.plat with pwrNow := v } } ∧
    exec (.sensorReading (.temp c v)) s = .next (s.setCore c { s.core c with temp := v }) ∧
    exec (.sensorReading (.droop c v)) s = .next (s.setCore c { s.core c with droop := v })) ∧
  (∀ (b : BootKind) (s : State), ∃ t, exec (.boot b) s = .next t ∧ t.groups = [] ∧ t.launches = [] ∧ t.ifaces = [] ∧ t.parts = [] ∧ t.mantels = [] ∧
    t.dies = State.reset.dies ∧ t.cores = [] ∧ t.act = [] ∧ t.mem = (if b = .warm then s.mem else []) ∧ t.plat.boots = s.plat.boots + 1 ∧ t.plat.tdbg = 0 ∧
    t.plat.flash = s.plat.flash ∧ t.plat.idPub = identityKey ∧ t.plat.tenantKey = tenantKeyOf s.plat.flash ∧
    -- the defaults of the records that apply are the next steps
    t.agenda = (if t.plat.recovery then [] else (appliedRecords s.plat.flash).flatMap (fun r =>
      (Config.recordDefaults r.2.2).map (fun d => .event (.registerWrite d.1 d.2)))) ++ s.agenda ∧
    (let spare := (appliedRecords s.plat.flash).any (fun r => (Config.recordNames r.2.2).2.2)
     (∀ v h seq body, bootFirmware s.plat.flash = some (v, h) → newestRecord s.plat.flash = some (seq, body) → spare = true →
       t.plat.recovery = false ∧ t.plat.fwVer = v ∧ t.plat.cfgSeq = seq ∧ t.plat.sec = (Config.recordNames body).2.1 ∧ t.plat.fwHash = h ∧
       t.plat.attPub = Config.publicKey (Config.attestKey h)) ∧
     (bootFirmware s.plat.flash = none ∨ newestRecord s.plat.flash = none ∨ spare = false → t.plat.recovery = true ∧ t.plat.attPub = 0))) ∧
  -- R384: of each kind the valid record with the highest sequence number applies; firmware below its floor does not start
  (∀ (flash : Sparse 8) (k : Nat) (seq : BitVec 16) (body : List Byte), (k, seq, body) ∈ appliedRecords flash ↔
    (∃ sig, (k, seq, body, sig) ∈ Config.flashRecords flash ∧ Config.vendorSigned (shake512 body) sig = true) ∧
    ∀ q b sig, (k, q, b, sig) ∈ Config.flashRecords flash → Config.vendorSigned (shake512 b) sig = true → q.toNat ≤ seq.toNat) ∧
  (∀ (flash : Sparse 8) (v : W32) (h : BitVec 512), bootFirmware flash = some (v, h) →
    (∃ body sig, Config.flashFirmware flash = some (v, body, sig) ∧ Config.vendorSigned h sig = true ∧ h = shake512 body) ∧
    ∀ seq body, newestRecord flash = some (seq, body) → (Config.recordNames body).1.toNat ≤ v.toNat) ∧
  (∀ (s : State) (p : BitVec 3) (msg : List Byte), let m := s.mantel p
    (m.quoting = none → exec (.mantelQuote p) s = .next (s.setMantel p { m with
      quoting := some (natToBytes 64 m.acc.toNat ++ natToBytes 4 m.count.toNat ++ natToBytes 32 m.nonce.toNat ++ [p.setWidth 8] ++
        natToBytes 64 s.plat.fwHash.toNat), done := false, qstatus := 0 })) ∧
    (m.quoting = some msg → exec (.mantelQuote p) s = .next (s.setMantel p { m with qstatus := 1 }) ∧
      exec (.quoteComplete p) s = .next (s.setMantel p { m with quoting := none, done := true, sig := Config.sign msg })) ∧
    exec (.mantelClear p) s = .next (s.setMantel p { m with acc := 0, count := 0 })) ∧
  (∀ (s : State) (gid : Gid) (off : BitVec 18) (w d : W64),
    let g := s.group gid
    let o := off.toNat
    let alone := fun (op : Nat) => s.plat.dbgReqs = [(w, d)] ∧ bitsOf w 60 3 = op ∧ w.extractLsb' 44 16 = gid
    let ends := fun (i : Instr) (st : BitVec 8) (v : W64) (u : Group) => exec i s = .next { s.setGroup gid u with
      plat := { s.plat with dbgReqs := [], dbgBusy := false, dbgStatus := st, dbgData := v } }
    let same := fun (i : Instr) (st : BitVec 8) (v : W64) => exec i s = .next { s with
      plat := { s.plat with dbgReqs := [], dbgBusy := false, dbgStatus := st, dbgData := v } }
    let all := [(0, Instr.debugRead gid off), (1, .debugWrite gid off d), (2, .debugHalt gid), (3, .debugResume gid)]
    let gate := fun (st : BitVec 8) => ∀ i ∈ all, alone i.1 → (i.1 < 2 → w.extractLsb' 0 18 = off) →
      same i.2 st (if i.1 = 0 ∧ st ≠ 3 then 0 else s.plat.dbgData)
    (s.plat.dbgReqs = [] → ∀ i ∈ all, exec i.2 s = .next s) ∧
    (s.plat.sec = 1 → gate 3) ∧
    (s.plat.sec = 0 ∨ s.plat.sec = 3 → (s.core gid.core).off = true → gate 4) ∧
    (s.plat.sec = 0 ∨ s.plat.sec = 3 → (s.core gid.core).off = false → g.live = false → gate 1) ∧
    (dbgGate s gid = none → w.extractLsb' 0 18 = off →
      (alone 0 → o < 0x6000 → inScales o = false → same (.debugRead gid off) 0 (BitVec.ofNat 64 (peek (liveArea s gid) o 8))) ∧
      (alone 0 → inScales o = true → ends (.debugRead gid off) 0 (BitVec.ofNat 64 (peek (liveArea s gid) o 8))
        { g with rg := { g.rg with drowsy := putBit g.rg.drowsy 0 false } }) ∧
      (alone 0 → 0x6000 ≤ o → o - 0x6000 < g.rg.declared.toNat → ends (.debugRead gid off) 0 (BitVec.ofNat 64 (bytesToNat (g.rg.bytes (o - 0x6000) 8)))
        { g with rg := { g.rg with drowsy := putBit g.rg.drowsy ((o - 0x6000) / 4096) false } }) ∧
      (alone 0 → 0x6000 ≤ o → g.rg.declared.toNat ≤ o - 0x6000 →
        same (.debugRead gid off) (if o - 0x6000 < 4096 * g.rg.granules.toNat then 0 else 1) 0) ∧
      (alone 1 → o < 0x6000 → g.h.halted = false → inScales o = false ∨ bitOf g.rg.drowsy 0 = false →
        same (.debugWrite gid off d) 2 s.plat.dbgData) ∧
      (alone 1 → 0x6000 ≤ o → o - 0x6000 < g.rg.declared.toNat → g.h.halted = false → bitOf g.rg.drowsy ((o - 0x6000) / 4096) = false →
        same (.debugWrite gid off d) 2 s.plat.dbgData) ∧
      (alone 1 → 0x6000 ≤ o → g.rg.declared.toNat ≤ o - 0x6000 →
        same (.debugWrite gid off d) (if o - 0x6000 < 4096 * g.rg.granules.toNat then 0 else 1) s.plat.dbgData) ∧
      (alone 1 → 0x6000 ≤ o → o - 0x6000 < g.rg.declared.toNat →
        g.h.halted = true ∨ bitOf g.rg.drowsy ((o - 0x6000) / 4096) = true → ∃ q, ends (.debugWrite gid off d) 0 s.plat.dbgData { g with rg := q } ∧
        q.bytes (o - 0x6000) 8 = natToBytes 8 d.toNat ∧ (∀ b, b < o - 0x6000 ∨ o - 0x6000 + 8 ≤ b → q.byte b = g.rg.byte b) ∧
        q = { g.rg with rows := q.rows, drowsy := q.drowsy, bad := q.bad }) ∧
      (alone 1 → o = 0 → g.h.halted = true → ∃ u, ends (.debugWrite gid off d) 0 s.plat.dbgData u ∧ u.pc = d ∧ u.h = g.h ∧ u.part = g.part ∧
        u.rg.rows = g.rg.rows) ∧
      (alone 3 → g.h.halted = false ∨ (s.part g.part).preReq = true → same (.debugResume gid) 0 s.plat.dbgData) ∧
      (alone 3 → g.h.halted = true → (s.part g.part).preReq = false → g.h.on = true ∨ s.holds gid = false → ends (.debugResume gid) 0 s.plat.dbgData
        { g with h := { g.h with halted := false }, llog := if g.h.on then g.llog else g.llog.map OpLog.woken })) ∧
    (dbgGate s gid = none → alone 2 → ∃ t, exec (.debugHalt gid) s = .next t ∧ (t.group gid).h.halted = true ∧
      (g.wait = .none → t.group gid =
        { g.settle with h := { g.h with halted := true }, boost := false, passed := 0, ln := { g.settle.ln with boost := false, passed := 0 } }) ∧ (s.holds gid = true → (t.core gid.core).mx.mode = .frozen) ∧
      t.plat = { s.plat with dbgReqs := [], dbgBusy := false, dbgStatus := 0 })) ∧
  (∀ (s : State) (p : BitVec 3) (boot : W32) (body : W64),
    let x := s.plat
    let tok := match x.tenantKey with
      | some key => Config.tokenValid (some key) (packFields [(3, p.toNat), (32, boot.toNat), (64, body.toNat),
          (512, (shake512 (natToBytes 57 x.idPub.toNat)).toNat)])
      | none => false
    let vtok := Config.tokenValid none (packFields [(64, body.toNat), (456, x.idPub.toNat)])
    (boot = x.boots → tok = true → ∃ z, exec (.tenantDebugToken p boot body) s = .next { s with plat := { x with
      tdbg := z, sec := if x.sec = 1 then 2 else x.sec } } ∧ ∀ j, j < 8 → z.getLsbD j = (decide (j = p.toNat) || x.tdbg.getLsbD j)) ∧
    (boot ≠ x.boots ∨ tok = false → exec (.tenantDebugToken p boot body) s = .next s) ∧
    (x.dbgReqs ≠ [] ∨ vtok = false → exec (.vendorDebugToken body) s = .next s) ∧
    (x.dbgReqs = [] → vtok = true → ∃ t, exec (.vendorDebugToken body) s = .next t ∧ t.plat = { x with sec := 3 } ∧
      (∀ g : Gid, (t.group g).live = false) ∧ (∀ a, inMemory a = true → Sparse.get t.mem a = 0 ∧ a ∉ t.badWords) ∧
      ∀ q : BitVec 3, (t.mantel q).acc = 0 ∧ (t.mantel q).count = 0))
end

