-- ==== Sys2Proof/Laws/Tables.lean ====
section
/-! SUPPORT. The two sparse tables: what a read gives after a write, and the canonical form of memory, which every operation
on memory keeps. -/

namespace Sys2Proof

/-! Reads after writes -/

/-- Entries up to an address dropped read as zero. -/
theorem Sparse.get_dropWhile {w : Nat} (l : Sparse w) (a b : Nat) :
    Sparse.get (l.dropWhile (fun p => decide (p.1 ≤ a))) b = if b ≤ a then 0#w else Sparse.get l b := by
  induction l with
  | nil => simp [Sparse.get]
  | cons q l ih =>
    obtain ⟨k, v⟩ := q
    by_cases hk : k ≤ a
    · rw [List.dropWhile_cons_of_pos (by simpa using hk), ih]
      split
      · rfl
      · rw [Sparse.get, if_neg (by omega), if_neg (by omega)]
    · rw [List.dropWhile_cons_of_neg (by simpa using hk)]
      split
      · rw [Sparse.get, if_neg (by omega), if_pos (by omega)]; rfl
      · rfl

/-- Read after write, for a table in any form. -/
theorem Sparse.get_set {w : Nat} (m : Sparse w) (a b : Nat) (x : BitVec w) :
    (Sparse.set m a x).get b = if b = a then x else m.get b := by
  induction m with
  | nil => by_cases hx : x = 0#w <;> by_cases h : b = a <;> simp_all [Sparse.set, Sparse.get]
  | cons p t ih =>
    obtain ⟨k, v⟩ := p
    rcases Nat.lt_trichotomy a k with h1 | h1 | h1
    · by_cases hx : x = 0#w <;> simp only [Sparse.set, h1, if_true, hx, BitVec.ofNat_eq_ofNat, if_false, Sparse.get] <;>
        by_cases h : b = a
      · have : b ≠ k ∧ b < k := by omega
        simp [h, h1, Nat.ne_of_lt h1]
      · simp [h]
      · simp [h]
      · by_cases h2 : b < a
        · have : b < k := by omega
          simp [h, h2, this, Nat.ne_of_lt this]
        · simp [h, h2]
    · subst h1
      by_cases hx : x = 0#w
      · have e : Sparse.set ((a, v) :: t) a x = t.dropWhile (fun p => decide (p.1 ≤ a)) := by simp [Sparse.set, hx]
        rw [e, Sparse.get_dropWhile, Sparse.get]
        rcases Nat.lt_trichotomy b a with h | h | h
        · have h3 : b ≠ a := by omega
          simp [h, Nat.le_of_lt h, h3]
        · simp [h, hx]
        · have h3 : b ≠ a ∧ ¬ b < a ∧ ¬ b ≤ a := by omega
          simp [h3]
      · by_cases h : b = a <;> simp [Sparse.set, Sparse.get, hx, h]
    · have h2 : ¬ a < k ∧ a ≠ k := by omega
      simp only [Sparse.set, h2, if_false, Sparse.get, ih]
      by_cases h : b = k
      · simp [h, h1.ne]
      · by_cases h3 : b = a
        · have : ¬ b < k := by omega
          simp [h3, h2]
        · simp [h3]

@[simp] theorem Sparse.get_nil {w : Nat} (a : Nat) : Sparse.get ([] : Sparse w) a = 0 := rfl

theorem Tab.get_set {α : Type} (d : α) (t : Tab α) (a b : Nat) (x : α) :
    Tab.get d (Tab.set t a x) b = if b = a then x else Tab.get d t b := by
  induction t with
  | nil => by_cases h : b = a <;> simp [Tab.set, Tab.get, h]
  | cons p t ih =>
    obtain ⟨k, v⟩ := p
    by_cases h1 : a < k
    · by_cases h : b = a
      · subst h; simp [Tab.set, Tab.get, h1]
      · by_cases h2 : b < a
        · have : b < k := by omega
          simp [Tab.set, Tab.get, h1, h, h2, this, Nat.ne_of_lt this]
        · simp [Tab.set, Tab.get, h1, h, h2]
    · by_cases h2 : a = k
      · subst h2; by_cases h : b = a <;> simp [Tab.set, Tab.get, h]
      · by_cases h : b = a
        · subst h; simp [Tab.set, Tab.get, h1, h2, ih]
        · by_cases h3 : b = k
          · simp [Tab.set, Tab.get, h1, h2, h3]
            intro hk; omega
          · simp [Tab.set, Tab.get, h1, h2, h3, ih, h]

@[simp] theorem Tab.get_set_same {α : Type} (d : α) (t : Tab α) (a : Nat) (x : α) : Tab.get d (Tab.set t a x) a = x := by
  simp [Tab.get_set]

/-- A range cleared reads as zero, every other address as before. -/
theorem Sparse.get_clear {w : Nat} (m : Sparse w) (a n b : Nat) :
    Sparse.get (Sparse.clear m a n) b = if a ≤ b ∧ b < a + n then 0#w else Sparse.get m b := by
  induction m with
  | nil => simp [Sparse.clear, Sparse.get]
  | cons p t ih =>
    obtain ⟨k, v⟩ := p
    unfold Sparse.clear
    split
    · rename_i h
      simp only [Sparse.get, ih]
      split
      · have : ¬ (a ≤ b ∧ b < a + n) := by omega
        simp [this]
      · split
        · have : ¬ (a ≤ b ∧ b < a + n) := by omega
          simp [this]
        · rfl
    · rename_i h
      rcases Nat.eq_zero_or_pos (a + n) with h0 | h0
      · have : ¬ (a ≤ b ∧ b < a + n) := by omega
        rw [if_neg this]; simp [h0]
      · have e : (fun p : Nat × BitVec w => decide (p.1 < a + n)) = fun p => decide (p.1 ≤ a + n - 1) := by
          funext p; congr 1; apply propext; omega
        rw [e, Sparse.get_dropWhile]
        by_cases h1 : b ≤ a + n - 1
        · by_cases h2 : a ≤ b
          · simp [h1, h2, show b < a + n by omega]
          · have : b < k := by omega
            simp [h1, h2, Sparse.get, this, Nat.ne_of_lt this]
        · simp [h1, show ¬ (b < a + n) by omega]

/-- A record taken away reads as the default, every other as before. -/
theorem Tab.get_erase {α : Type} (d : α) (t : Tab α) (a b : Nat) :
    Tab.get d (Tab.erase t a) b = if b = a then d else Tab.get d t b := by
  have hd : ∀ l : Tab α, Tab.get d (l.dropWhile (fun p => decide (p.1 ≤ a))) b = if b ≤ a then d else Tab.get d l b := by
    intro l
    induction l with
    | nil => simp [Tab.get]
    | cons p l ih =>
      obtain ⟨k, v⟩ := p
      by_cases hk : k ≤ a
      · rw [List.dropWhile_cons_of_pos (by simpa using hk), ih]
        by_cases hb : b ≤ a
        · simp [hb]
        · simp [hb, Tab.get, show b ≠ k by omega, show ¬ b < k by omega]
      · rw [List.dropWhile_cons_of_neg (by simpa using hk)]
        by_cases hb : b ≤ a
        · simp [hb, Tab.get, show b ≠ k by omega, show b < k by omega]
        · simp [hb]
  induction t with
  | nil => simp [Tab.erase, Tab.get]
  | cons p t ih =>
    obtain ⟨k, v⟩ := p
    unfold Tab.erase
    split
    · rename_i h
      by_cases hb : b = a
      · subst hb; simp [Tab.get, h, Nat.ne_of_lt h]
      · simp [hb]
    · split
      · rename_i h1 h
        subst h
        rw [hd]
        by_cases hb : b = a
        · subst hb; simp
        · by_cases hb2 : b ≤ a
          · simp [hb, hb2, Tab.get, show b < a by omega]
          · simp [hb, hb2, Tab.get, show ¬ b < a by omega]
      · rename_i h1 h2
        simp only [Tab.get, ih]
        by_cases hb : b = k
        · subst hb; simp [show b ≠ a by omega]
        · by_cases hb2 : b < k
          · simp [hb, hb2]
          · simp [hb, hb2]

/-! The canonical form -/

theorem Sparse.wfFrom_mono {w : Nat} {m : Sparse w} {a b : Nat} (h : a ≤ b) (hb : Sparse.wfFrom b m = true) :
    Sparse.wfFrom a m = true := by
  cases m with
  | nil => rfl
  | cons p t => simp only [Sparse.wfFrom, Bool.and_eq_true, decide_eq_true_eq] at *; exact ⟨⟨by omega, hb.1.2⟩, hb.2⟩

theorem Sparse.wfFrom_filter {w : Nat} (f : Nat × BitVec w → Bool) (m : Sparse w) (a : Nat) (h : Sparse.wfFrom a m = true) :
    Sparse.wfFrom a (m.filter f) = true := by
  induction m generalizing a with
  | nil => rfl
  | cons p t ih =>
    obtain ⟨k, v⟩ := p
    simp only [Sparse.wfFrom, Bool.and_eq_true, decide_eq_true_eq, ne_eq, BitVec.ofNat_eq_ofNat] at h
    have ht := ih (k + 1) h.2
    by_cases hf : f (k, v) = true
    · simp [hf, Sparse.wfFrom, h.1.1, h.1.2, ht]
    · simp only [List.filter_cons, hf]; exact Sparse.wfFrom_mono (by omega) ht

theorem Sparse.wfFrom_dropWhile {w : Nat} (f : Nat × BitVec w → Bool) (m : Sparse w) (a : Nat) (h : Sparse.wfFrom a m = true) :
    Sparse.wfFrom a (m.dropWhile f) = true := by
  induction m generalizing a with
  | nil => rfl
  | cons p t ih =>
    obtain ⟨k, v⟩ := p
    by_cases hk : f (k, v) = true
    · rw [List.dropWhile_cons_of_pos hk]
      simp only [Sparse.wfFrom, Bool.and_eq_true, decide_eq_true_eq, ne_eq, BitVec.ofNat_eq_ofNat] at h
      exact Sparse.wfFrom_mono (by omega) (ih (k + 1) h.2)
    · rw [List.dropWhile_cons_of_neg (by simpa using hk)]; exact h

theorem Sparse.wfFrom_clear {w : Nat} (m : Sparse w) (lo a n : Nat) (h : Sparse.wfFrom lo m = true) :
    Sparse.wfFrom lo (Sparse.clear m a n) = true := by
  induction m generalizing lo with
  | nil => rfl
  | cons p t ih =>
    obtain ⟨k, v⟩ := p
    unfold Sparse.clear
    split
    · simp only [Sparse.wfFrom, Bool.and_eq_true, decide_eq_true_eq, ne_eq, BitVec.ofNat_eq_ofNat] at h ⊢
      exact ⟨h.1, ih (k + 1) h.2⟩
    · exact Sparse.wfFrom_dropWhile _ _ lo h

theorem Sparse.wfFrom_set {w : Nat} (m : Sparse w) (lo a : Nat) (x : BitVec w) (hlo : lo ≤ a) (h : Sparse.wfFrom lo m = true) :
    Sparse.wfFrom lo (Sparse.set m a x) = true := by
  induction m generalizing lo with
  | nil => by_cases hx : x = 0#w <;> simp [Sparse.set, Sparse.wfFrom, hx, hlo]
  | cons p t ih =>
    obtain ⟨k, v⟩ := p
    have h0 := h
    simp only [Sparse.wfFrom, Bool.and_eq_true, decide_eq_true_eq, ne_eq, BitVec.ofNat_eq_ofNat] at h
    by_cases h1 : a < k
    · by_cases hx : x = 0#w
      · simpa [Sparse.set, h1, hx] using h0
      · have e : Sparse.set ((k, v) :: t) a x = (a, x) :: (k, v) :: t := by simp [Sparse.set, h1, hx]
        rw [e]
        simp only [Sparse.wfFrom, Bool.and_eq_true, decide_eq_true_eq, ne_eq, BitVec.ofNat_eq_ofNat]
        exact ⟨⟨hlo, hx⟩, ⟨by omega, h.1.2⟩, h.2⟩
    · by_cases h2 : a = k
      · subst h2
        by_cases hx : x = 0#w
        · simp only [Sparse.set, h1, if_false, if_true, hx]
          exact Sparse.wfFrom_mono (by omega) (Sparse.wfFrom_dropWhile _ t (a + 1) h.2)
        · simp [Sparse.set, hx, Sparse.wfFrom, hlo, h.2]
      · have := ih (k + 1) (by omega) h.2
        simp [Sparse.set, h1, h2, Sparse.wfFrom, h.1.1, h.1.2, this]

/-- A write keeps the canonical form. -/
theorem Sparse.wf_set {w : Nat} {m : Sparse w} (a : Nat) (x : BitVec w) (h : Sparse.wf m = true) :
    Sparse.wf (Sparse.set m a x) = true := Sparse.wfFrom_set m 0 a x (Nat.zero_le _) h
/-- Taking entries away keeps it. -/
theorem Sparse.wf_filter {w : Nat} {m : Sparse w} (f : Nat × BitVec w → Bool) (h : Sparse.wf m = true) :
    Sparse.wf (m.filter f) = true := Sparse.wfFrom_filter f m 0 h
/-- Clearing a range keeps it. -/
theorem Sparse.wf_clear {w : Nat} {m : Sparse w} (a n : Nat) (h : Sparse.wf m = true) :
    Sparse.wf (Sparse.clear m a n) = true := Sparse.wfFrom_clear m 0 a n h

namespace Machine

/-- A run of bytes written keeps it. -/
theorem wf_pokeBytes {m : Sparse 8} (pa : Nat) (l : List Byte) (h : Sparse.wf m = true) :
    Sparse.wf (pokeBytes m pa l) = true := by
  induction l generalizing m pa with
  | nil => exact h
  | cons b t ih => exact ih (pa + 1) (Sparse.wf_set pa b h)

/-- What a byte reads as after a run of bytes was written. -/
theorem get_pokeBytes (m : Sparse 8) (pa : Nat) (l : List Byte) (a : Nat) :
    Sparse.get (pokeBytes m pa l) a = if h : pa ≤ a ∧ a - pa < l.length then l[a - pa]'h.2 else Sparse.get m a := by
  induction l generalizing m pa with
  | nil => simp [pokeBytes]
  | cons b t ih =>
    simp only [pokeBytes, ih, Sparse.get_set]
    by_cases h1 : a = pa
    · subst h1; simp
    · by_cases h2 : pa + 1 ≤ a ∧ a - (pa + 1) < t.length
      · have h3 : pa ≤ a ∧ a - pa < (b :: t).length := by simp; omega
        have e : a - pa = (a - (pa + 1)) + 1 := by omega
        rw [dif_pos h2, dif_pos h3]
        simp [e]
      · have h3 : ¬ (pa ≤ a ∧ a - pa < (b :: t).length) := by simp; omega
        rw [dif_neg h2, dif_neg h3, if_neg h1]

/-- A byte outside the run is as before. -/
theorem get_pokeBytes_outside (m : Sparse 8) (pa : Nat) (l : List Byte) (a : Nat) (h : a < pa ∨ pa + l.length ≤ a) :
    Sparse.get (pokeBytes m pa l) a = Sparse.get m a := by
  rw [get_pokeBytes, dif_neg]; omega

/-- The bytes at an address depend on nothing else. -/
theorem peek_congr {m n : Sparse 8} (pa k : Nat) (h : ∀ a, pa ≤ a → a < pa + k → Sparse.get m a = Sparse.get n a) :
    peek m pa k = peek n pa k := by
  induction k generalizing pa with
  | zero => rfl
  | succ k ih =>
    simp only [peek]
    rw [h pa (by omega) (by omega), ih (pa + 1) (fun a h1 h2 => h a (by omega) (by omega))]

/-- Memory after reset is in the canonical form. -/
theorem reset_mem_wf : Memory.wf State.reset.mem := by decide

end Machine

end Sys2Proof
end

