-- ==== Sys2Proof/Laws/State.lean ====
section
/-! SUPPORT. What each update of the state leaves as it is, and what a read gives after it: one lemma per field per update. -/

namespace Sys2Proof

@[simp] theorem Tab.set_set {α : Type} (t : Tab α) (a : Nat) (x y : α) : Tab.set (Tab.set t a x) a y = Tab.set t a y := by
  induction t with
  | nil => simp [Tab.set]
  | cons p t ih =>
    obtain ⟨k, v⟩ := p
    rcases Nat.lt_trichotomy a k with h | h | h
    · simp [Tab.set, h]
    · subst h; simp [Tab.set]
    · have : ¬ a < k ∧ a ≠ k := by omega
      simp [Tab.set, this, ih]

end Sys2Proof

namespace Sys2Proof.Machine

/-! setGroup -/
@[simp] theorem State.setGroup_mem (s : State) (g : Gid) (x : Group) : (s.setGroup g x).mem = s.mem := rfl
@[simp] theorem State.setGroup_cores (s : State) (g : Gid) (x : Group) : (s.setGroup g x).cores = s.cores := rfl
@[simp] theorem State.setGroup_dies (s : State) (g : Gid) (x : Group) : (s.setGroup g x).dies = s.dies := rfl
@[simp] theorem State.setGroup_parts (s : State) (g : Gid) (x : Group) : (s.setGroup g x).parts = s.parts := rfl
@[simp] theorem State.setGroup_mantels (s : State) (g : Gid) (x : Group) : (s.setGroup g x).mantels = s.mantels := rfl
@[simp] theorem State.setGroup_ifaces (s : State) (g : Gid) (x : Group) : (s.setGroup g x).ifaces = s.ifaces := rfl
@[simp] theorem State.setGroup_blocks (s : State) (g : Gid) (x : Group) : (s.setGroup g x).blocks = s.blocks := rfl
@[simp] theorem State.setGroup_launches (s : State) (g : Gid) (x : Group) : (s.setGroup g x).launches = s.launches := rfl
@[simp] theorem State.setGroup_bars (s : State) (g : Gid) (x : Group) : (s.setGroup g x).bars = s.bars := rfl
@[simp] theorem State.setGroup_owins (s : State) (g : Gid) (x : Group) : (s.setGroup g x).owins = s.owins := rfl
@[simp] theorem State.setGroup_dtags (s : State) (g : Gid) (x : Group) : (s.setGroup g x).dtags = s.dtags := rfl
@[simp] theorem State.setGroup_colls (s : State) (g : Gid) (x : Group) : (s.setGroup g x).colls = s.colls := rfl
@[simp] theorem State.setGroup_sends (s : State) (g : Gid) (x : Group) : (s.setGroup g x).sends = s.sends := rfl
@[simp] theorem State.setGroup_gangs (s : State) (g : Gid) (x : Group) : (s.setGroup g x).gangs = s.gangs := rfl
@[simp] theorem State.setGroup_act (s : State) (g : Gid) (x : Group) : (s.setGroup g x).act = s.act := rfl
@[simp] theorem State.setGroup_host0 (s : State) (g : Gid) (x : Group) : (s.setGroup g x).host0 = s.host0 := rfl
@[simp] theorem State.setGroup_host1 (s : State) (g : Gid) (x : Group) : (s.setGroup g x).host1 = s.host1 := rfl
@[simp] theorem State.setGroup_msix (s : State) (g : Gid) (x : Group) : (s.setGroup g x).msix = s.msix := rfl
@[simp] theorem State.setGroup_aer (s : State) (g : Gid) (x : Group) : (s.setGroup g x).aer = s.aer := rfl
@[simp] theorem State.setGroup_badWords (s : State) (g : Gid) (x : Group) : (s.setGroup g x).badWords = s.badWords := rfl
@[simp] theorem State.setGroup_stalls (s : State) (g : Gid) (x : Group) : (s.setGroup g x).stalls = s.stalls := rfl
@[simp] theorem State.setGroup_tests (s : State) (g : Gid) (x : Group) : (s.setGroup g x).tests = s.tests := rfl
@[simp] theorem State.setGroup_plat (s : State) (g : Gid) (x : Group) : (s.setGroup g x).plat = s.plat := rfl
@[simp] theorem State.setGroup_agenda (s : State) (g : Gid) (x : Group) : (s.setGroup g x).agenda = s.agenda := rfl
@[simp] theorem State.setGroup_curG (s : State) (g : Gid) (x : Group) : (s.setGroup g x).curG = s.curG := rfl
@[simp] theorem State.setGroup_curLane (s : State) (g : Gid) (x : Group) : (s.setGroup g x).curLane = s.curLane := rfl
@[simp] theorem State.setGroup_fresh (s : State) (g : Gid) (x : Group) : (s.setGroup g x).fresh = s.fresh := rfl
@[simp] theorem State.setGroup_core (s : State) (g : Gid) (x : Group) (e : BitVec 10) : (s.setGroup g x).core e = s.core e := rfl
@[simp] theorem State.setGroup_die (s : State) (g : Gid) (x : Group) (e : BitVec 3) : (s.setGroup g x).die e = s.die e := rfl
@[simp] theorem State.setGroup_part (s : State) (g : Gid) (x : Group) (e : BitVec 3) : (s.setGroup g x).part e = s.part e := rfl
@[simp] theorem State.setGroup_mantel (s : State) (g : Gid) (x : Group) (e : BitVec 3) : (s.setGroup g x).mantel e = s.mantel e := rfl
@[simp] theorem State.setGroup_iface (s : State) (g : Gid) (x : Group) (e : BitVec 12) : (s.setGroup g x).iface e = s.iface e := rfl

/-! setCur -/
@[simp] theorem State.setCur_mem (s : State) (x : Group) : (s.setCur x).mem = s.mem := rfl
@[simp] theorem State.setCur_cores (s : State) (x : Group) : (s.setCur x).cores = s.cores := rfl
@[simp] theorem State.setCur_dies (s : State) (x : Group) : (s.setCur x).dies = s.dies := rfl
@[simp] theorem State.setCur_parts (s : State) (x : Group) : (s.setCur x).parts = s.parts := rfl
@[simp] theorem State.setCur_mantels (s : State) (x : Group) : (s.setCur x).mantels = s.mantels := rfl
@[simp] theorem State.setCur_ifaces (s : State) (x : Group) : (s.setCur x).ifaces = s.ifaces := rfl
@[simp] theorem State.setCur_blocks (s : State) (x : Group) : (s.setCur x).blocks = s.blocks := rfl
@[simp] theorem State.setCur_launches (s : State) (x : Group) : (s.setCur x).launches = s.launches := rfl
@[simp] theorem State.setCur_bars (s : State) (x : Group) : (s.setCur x).bars = s.bars := rfl
@[simp] theorem State.setCur_owins (s : State) (x : Group) : (s.setCur x).owins = s.owins := rfl
@[simp] theorem State.setCur_dtags (s : State) (x : Group) : (s.setCur x).dtags = s.dtags := rfl
@[simp] theorem State.setCur_colls (s : State) (x : Group) : (s.setCur x).colls = s.colls := rfl
@[simp] theorem State.setCur_sends (s : State) (x : Group) : (s.setCur x).sends = s.sends := rfl
@[simp] theorem State.setCur_gangs (s : State) (x : Group) : (s.setCur x).gangs = s.gangs := rfl
@[simp] theorem State.setCur_act (s : State) (x : Group) : (s.setCur x).act = s.act := rfl
@[simp] theorem State.setCur_host0 (s : State) (x : Group) : (s.setCur x).host0 = s.host0 := rfl
@[simp] theorem State.setCur_host1 (s : State) (x : Group) : (s.setCur x).host1 = s.host1 := rfl
@[simp] theorem State.setCur_msix (s : State) (x : Group) : (s.setCur x).msix = s.msix := rfl
@[simp] theorem State.setCur_aer (s : State) (x : Group) : (s.setCur x).aer = s.aer := rfl
@[simp] theorem State.setCur_badWords (s : State) (x : Group) : (s.setCur x).badWords = s.badWords := rfl
@[simp] theorem State.setCur_stalls (s : State) (x : Group) : (s.setCur x).stalls = s.stalls := rfl
@[simp] theorem State.setCur_tests (s : State) (x : Group) : (s.setCur x).tests = s.tests := rfl
@[simp] theorem State.setCur_plat (s : State) (x : Group) : (s.setCur x).plat = s.plat := rfl
@[simp] theorem State.setCur_agenda (s : State) (x : Group) : (s.setCur x).agenda = s.agenda := rfl
@[simp] theorem State.setCur_curG (s : State) (x : Group) : (s.setCur x).curG = s.curG := rfl
@[simp] theorem State.setCur_curLane (s : State) (x : Group) : (s.setCur x).curLane = s.curLane := rfl
@[simp] theorem State.setCur_fresh (s : State) (x : Group) : (s.setCur x).fresh = s.fresh := rfl
@[simp] theorem State.setCur_core (s : State) (x : Group) (e : BitVec 10) : (s.setCur x).core e = s.core e := rfl
@[simp] theorem State.setCur_die (s : State) (x : Group) (e : BitVec 3) : (s.setCur x).die e = s.die e := rfl
@[simp] theorem State.setCur_part (s : State) (x : Group) (e : BitVec 3) : (s.setCur x).part e = s.part e := rfl
@[simp] theorem State.setCur_mantel (s : State) (x : Group) (e : BitVec 3) : (s.setCur x).mantel e = s.mantel e := rfl
@[simp] theorem State.setCur_iface (s : State) (x : Group) (e : BitVec 12) : (s.setCur x).iface e = s.iface e := rfl

/-! setCore -/
@[simp] theorem State.setCore_mem (s : State) (c : BitVec 10) (x : Core) : (s.setCore c x).mem = s.mem := rfl
@[simp] theorem State.setCore_groups (s : State) (c : BitVec 10) (x : Core) : (s.setCore c x).groups = s.groups := rfl
@[simp] theorem State.setCore_dies (s : State) (c : BitVec 10) (x : Core) : (s.setCore c x).dies = s.dies := rfl
@[simp] theorem State.setCore_parts (s : State) (c : BitVec 10) (x : Core) : (s.setCore c x).parts = s.parts := rfl
@[simp] theorem State.setCore_mantels (s : State) (c : BitVec 10) (x : Core) : (s.setCore c x).mantels = s.mantels := rfl
@[simp] theorem State.setCore_ifaces (s : State) (c : BitVec 10) (x : Core) : (s.setCore c x).ifaces = s.ifaces := rfl
@[simp] theorem State.setCore_blocks (s : State) (c : BitVec 10) (x : Core) : (s.setCore c x).blocks = s.blocks := rfl
@[simp] theorem State.setCore_launches (s : State) (c : BitVec 10) (x : Core) : (s.setCore c x).launches = s.launches := rfl
@[simp] theorem State.setCore_bars (s : State) (c : BitVec 10) (x : Core) : (s.setCore c x).bars = s.bars := rfl
@[simp] theorem State.setCore_owins (s : State) (c : BitVec 10) (x : Core) : (s.setCore c x).owins = s.owins := rfl
@[simp] theorem State.setCore_dtags (s : State) (c : BitVec 10) (x : Core) : (s.setCore c x).dtags = s.dtags := rfl
@[simp] theorem State.setCore_colls (s : State) (c : BitVec 10) (x : Core) : (s.setCore c x).colls = s.colls := rfl
@[simp] theorem State.setCore_sends (s : State) (c : BitVec 10) (x : Core) : (s.setCore c x).sends = s.sends := rfl
@[simp] theorem State.setCore_gangs (s : State) (c : BitVec 10) (x : Core) : (s.setCore c x).gangs = s.gangs := rfl
@[simp] theorem State.setCore_act (s : State) (c : BitVec 10) (x : Core) : (s.setCore c x).act = s.act := rfl
@[simp] theorem State.setCore_host0 (s : State) (c : BitVec 10) (x : Core) : (s.setCore c x).host0 = s.host0 := rfl
@[simp] theorem State.setCore_host1 (s : State) (c : BitVec 10) (x : Core) : (s.setCore c x).host1 = s.host1 := rfl
@[simp] theorem State.setCore_msix (s : State) (c : BitVec 10) (x : Core) : (s.setCore c x).msix = s.msix := rfl
@[simp] theorem State.setCore_aer (s : State) (c : BitVec 10) (x : Core) : (s.setCore c x).aer = s.aer := rfl
@[simp] theorem State.setCore_badWords (s : State) (c : BitVec 10) (x : Core) : (s.setCore c x).badWords = s.badWords := rfl
@[simp] theorem State.setCore_stalls (s : State) (c : BitVec 10) (x : Core) : (s.setCore c x).stalls = s.stalls := rfl
@[simp] theorem State.setCore_tests (s : State) (c : BitVec 10) (x : Core) : (s.setCore c x).tests = s.tests := rfl
@[simp] theorem State.setCore_plat (s : State) (c : BitVec 10) (x : Core) : (s.setCore c x).plat = s.plat := rfl
@[simp] theorem State.setCore_agenda (s : State) (c : BitVec 10) (x : Core) : (s.setCore c x).agenda = s.agenda := rfl
@[simp] theorem State.setCore_curG (s : State) (c : BitVec 10) (x : Core) : (s.setCore c x).curG = s.curG := rfl
@[simp] theorem State.setCore_curLane (s : State) (c : BitVec 10) (x : Core) : (s.setCore c x).curLane = s.curLane := rfl
@[simp] theorem State.setCore_fresh (s : State) (c : BitVec 10) (x : Core) : (s.setCore c x).fresh = s.fresh := rfl
@[simp] theorem State.setCore_group (s : State) (c : BitVec 10) (x : Core) (h : Gid) : (s.setCore c x).group h = s.group h := rfl
@[simp] theorem State.setCore_die (s : State) (c : BitVec 10) (x : Core) (e : BitVec 3) : (s.setCore c x).die e = s.die e := rfl
@[simp] theorem State.setCore_part (s : State) (c : BitVec 10) (x : Core) (e : BitVec 3) : (s.setCore c x).part e = s.part e := rfl
@[simp] theorem State.setCore_mantel (s : State) (c : BitVec 10) (x : Core) (e : BitVec 3) : (s.setCore c x).mantel e = s.mantel e := rfl
@[simp] theorem State.setCore_iface (s : State) (c : BitVec 10) (x : Core) (e : BitVec 12) : (s.setCore c x).iface e = s.iface e := rfl
@[simp] theorem State.setCore_cur (s : State) (c : BitVec 10) (x : Core) : (s.setCore c x).cur = s.cur := rfl

/-! setDie -/
@[simp] theorem State.setDie_mem (s : State) (d : BitVec 3) (x : Die) : (s.setDie d x).mem = s.mem := rfl
@[simp] theorem State.setDie_groups (s : State) (d : BitVec 3) (x : Die) : (s.setDie d x).groups = s.groups := rfl
@[simp] theorem State.setDie_cores (s : State) (d : BitVec 3) (x : Die) : (s.setDie d x).cores = s.cores := rfl
@[simp] theorem State.setDie_parts (s : State) (d : BitVec 3) (x : Die) : (s.setDie d x).parts = s.parts := rfl
@[simp] theorem State.setDie_mantels (s : State) (d : BitVec 3) (x : Die) : (s.setDie d x).mantels = s.mantels := rfl
@[simp] theorem State.setDie_ifaces (s : State) (d : BitVec 3) (x : Die) : (s.setDie d x).ifaces = s.ifaces := rfl
@[simp] theorem State.setDie_blocks (s : State) (d : BitVec 3) (x : Die) : (s.setDie d x).blocks = s.blocks := rfl
@[simp] theorem State.setDie_launches (s : State) (d : BitVec 3) (x : Die) : (s.setDie d x).launches = s.launches := rfl
@[simp] theorem State.setDie_bars (s : State) (d : BitVec 3) (x : Die) : (s.setDie d x).bars = s.bars := rfl
@[simp] theorem State.setDie_owins (s : State) (d : BitVec 3) (x : Die) : (s.setDie d x).owins = s.owins := rfl
@[simp] theorem State.setDie_dtags (s : State) (d : BitVec 3) (x : Die) : (s.setDie d x).dtags = s.dtags := rfl
@[simp] theorem State.setDie_colls (s : State) (d : BitVec 3) (x : Die) : (s.setDie d x).colls = s.colls := rfl
@[simp] theorem State.setDie_sends (s : State) (d : BitVec 3) (x : Die) : (s.setDie d x).sends = s.sends := rfl
@[simp] theorem State.setDie_gangs (s : State) (d : BitVec 3) (x : Die) : (s.setDie d x).gangs = s.gangs := rfl
@[simp] theorem State.setDie_act (s : State) (d : BitVec 3) (x : Die) : (s.setDie d x).act = s.act := rfl
@[simp] theorem State.setDie_host0 (s : State) (d : BitVec 3) (x : Die) : (s.setDie d x).host0 = s.host0 := rfl
@[simp] theorem State.setDie_host1 (s : State) (d : BitVec 3) (x : Die) : (s.setDie d x).host1 = s.host1 := rfl
@[simp] theorem State.setDie_msix (s : State) (d : BitVec 3) (x : Die) : (s.setDie d x).msix = s.msix := rfl
@[simp] theorem State.setDie_aer (s : State) (d : BitVec 3) (x : Die) : (s.setDie d x).aer = s.aer := rfl
@[simp] theorem State.setDie_badWords (s : State) (d : BitVec 3) (x : Die) : (s.setDie d x).badWords = s.badWords := rfl
@[simp] theorem State.setDie_stalls (s : State) (d : BitVec 3) (x : Die) : (s.setDie d x).stalls = s.stalls := rfl
@[simp] theorem State.setDie_tests (s : State) (d : BitVec 3) (x : Die) : (s.setDie d x).tests = s.tests := rfl
@[simp] theorem State.setDie_plat (s : State) (d : BitVec 3) (x : Die) : (s.setDie d x).plat = s.plat := rfl
@[simp] theorem State.setDie_agenda (s : State) (d : BitVec 3) (x : Die) : (s.setDie d x).agenda = s.agenda := rfl
@[simp] theorem State.setDie_curG (s : State) (d : BitVec 3) (x : Die) : (s.setDie d x).curG = s.curG := rfl
@[simp] theorem State.setDie_curLane (s : State) (d : BitVec 3) (x : Die) : (s.setDie d x).curLane = s.curLane := rfl
@[simp] theorem State.setDie_fresh (s : State) (d : BitVec 3) (x : Die) : (s.setDie d x).fresh = s.fresh := rfl
@[simp] theorem State.setDie_group (s : State) (d : BitVec 3) (x : Die) (h : Gid) : (s.setDie d x).group h = s.group h := rfl
@[simp] theorem State.setDie_core (s : State) (d : BitVec 3) (x : Die) (e : BitVec 10) : (s.setDie d x).core e = s.core e := rfl
@[simp] theorem State.setDie_part (s : State) (d : BitVec 3) (x : Die) (e : BitVec 3) : (s.setDie d x).part e = s.part e := rfl
@[simp] theorem State.setDie_mantel (s : State) (d : BitVec 3) (x : Die) (e : BitVec 3) : (s.setDie d x).mantel e = s.mantel e := rfl
@[simp] theorem State.setDie_iface (s : State) (d : BitVec 3) (x : Die) (e : BitVec 12) : (s.setDie d x).iface e = s.iface e := rfl
@[simp] theorem State.setDie_cur (s : State) (d : BitVec 3) (x : Die) : (s.setDie d x).cur = s.cur := rfl

/-! setPart -/
@[simp] theorem State.setPart_mem (s : State) (p : BitVec 3) (x : Part) : (s.setPart p x).mem = s.mem := rfl
@[simp] theorem State.setPart_groups (s : State) (p : BitVec 3) (x : Part) : (s.setPart p x).groups = s.groups := rfl
@[simp] theorem State.setPart_cores (s : State) (p : BitVec 3) (x : Part) : (s.setPart p x).cores = s.cores := rfl
@[simp] theorem State.setPart_dies (s : State) (p : BitVec 3) (x : Part) : (s.setPart p x).dies = s.dies := rfl
@[simp] theorem State.setPart_mantels (s : State) (p : BitVec 3) (x : Part) : (s.setPart p x).mantels = s.mantels := rfl
@[simp] theorem State.setPart_ifaces (s : State) (p : BitVec 3) (x : Part) : (s.setPart p x).ifaces = s.ifaces := rfl
@[simp] theorem State.setPart_blocks (s : State) (p : BitVec 3) (x : Part) : (s.setPart p x).blocks = s.blocks := rfl
@[simp] theorem State.setPart_launches (s : State) (p : BitVec 3) (x : Part) : (s.setPart p x).launches = s.launches := rfl
@[simp] theorem State.setPart_bars (s : State) (p : BitVec 3) (x : Part) : (s.setPart p x).bars = s.bars := rfl
@[simp] theorem State.setPart_owins (s : State) (p : BitVec 3) (x : Part) : (s.setPart p x).owins = s.owins := rfl
@[simp] theorem State.setPart_dtags (s : State) (p : BitVec 3) (x : Part) : (s.setPart p x).dtags = s.dtags := rfl
@[simp] theorem State.setPart_colls (s : State) (p : BitVec 3) (x : Part) : (s.setPart p x).colls = s.colls := rfl
@[simp] theorem State.setPart_sends (s : State) (p : BitVec 3) (x : Part) : (s.setPart p x).sends = s.sends := rfl
@[simp] theorem State.setPart_gangs (s : State) (p : BitVec 3) (x : Part) : (s.setPart p x).gangs = s.gangs := rfl
@[simp] theorem State.setPart_act (s : State) (p : BitVec 3) (x : Part) : (s.setPart p x).act = s.act := rfl
@[simp] theorem State.setPart_host0 (s : State) (p : BitVec 3) (x : Part) : (s.setPart p x).host0 = s.host0 := rfl
@[simp] theorem State.setPart_host1 (s : State) (p : BitVec 3) (x : Part) : (s.setPart p x).host1 = s.host1 := rfl
@[simp] theorem State.setPart_msix (s : State) (p : BitVec 3) (x : Part) : (s.setPart p x).msix = s.msix := rfl
@[simp] theorem State.setPart_aer (s : State) (p : BitVec 3) (x : Part) : (s.setPart p x).aer = s.aer := rfl
@[simp] theorem State.setPart_badWords (s : State) (p : BitVec 3) (x : Part) : (s.setPart p x).badWords = s.badWords := rfl
@[simp] theorem State.setPart_stalls (s : State) (p : BitVec 3) (x : Part) : (s.setPart p x).stalls = s.stalls := rfl
@[simp] theorem State.setPart_tests (s : State) (p : BitVec 3) (x : Part) : (s.setPart p x).tests = s.tests := rfl
@[simp] theorem State.setPart_plat (s : State) (p : BitVec 3) (x : Part) : (s.setPart p x).plat = s.plat := rfl
@[simp] theorem State.setPart_agenda (s : State) (p : BitVec 3) (x : Part) : (s.setPart p x).agenda = s.agenda := rfl
@[simp] theorem State.setPart_curG (s : State) (p : BitVec 3) (x : Part) : (s.setPart p x).curG = s.curG := rfl
@[simp] theorem State.setPart_curLane (s : State) (p : BitVec 3) (x : Part) : (s.setPart p x).curLane = s.curLane := rfl
@[simp] theorem State.setPart_fresh (s : State) (p : BitVec 3) (x : Part) : (s.setPart p x).fresh = s.fresh := rfl
@[simp] theorem State.setPart_group (s : State) (p : BitVec 3) (x : Part) (h : Gid) : (s.setPart p x).group h = s.group h := rfl
@[simp] theorem State.setPart_core (s : State) (p : BitVec 3) (x : Part) (e : BitVec 10) : (s.setPart p x).core e = s.core e := rfl
@[simp] theorem State.setPart_die (s : State) (p : BitVec 3) (x : Part) (e : BitVec 3) : (s.setPart p x).die e = s.die e := rfl
@[simp] theorem State.setPart_mantel (s : State) (p : BitVec 3) (x : Part) (e : BitVec 3) : (s.setPart p x).mantel e = s.mantel e := rfl
@[simp] theorem State.setPart_iface (s : State) (p : BitVec 3) (x : Part) (e : BitVec 12) : (s.setPart p x).iface e = s.iface e := rfl
@[simp] theorem State.setPart_cur (s : State) (p : BitVec 3) (x : Part) : (s.setPart p x).cur = s.cur := rfl

/-! setMantel -/
@[simp] theorem State.setMantel_mem (s : State) (p : BitVec 3) (x : Mantel) : (s.setMantel p x).mem = s.mem := rfl
@[simp] theorem State.setMantel_groups (s : State) (p : BitVec 3) (x : Mantel) : (s.setMantel p x).groups = s.groups := rfl
@[simp] theorem State.setMantel_cores (s : State) (p : BitVec 3) (x : Mantel) : (s.setMantel p x).cores = s.cores := rfl
@[simp] theorem State.setMantel_dies (s : State) (p : BitVec 3) (x : Mantel) : (s.setMantel p x).dies = s.dies := rfl
@[simp] theorem State.setMantel_parts (s : State) (p : BitVec 3) (x : Mantel) : (s.setMantel p x).parts = s.parts := rfl
@[simp] theorem State.setMantel_ifaces (s : State) (p : BitVec 3) (x : Mantel) : (s.setMantel p x).ifaces = s.ifaces := rfl
@[simp] theorem State.setMantel_blocks (s : State) (p : BitVec 3) (x : Mantel) : (s.setMantel p x).blocks = s.blocks := rfl
@[simp] theorem State.setMantel_launches (s : State) (p : BitVec 3) (x : Mantel) : (s.setMantel p x).launches = s.launches := rfl
@[simp] theorem State.setMantel_bars (s : State) (p : BitVec 3) (x : Mantel) : (s.setMantel p x).bars = s.bars := rfl
@[simp] theorem State.setMantel_owins (s : State) (p : BitVec 3) (x : Mantel) : (s.setMantel p x).owins = s.owins := rfl
@[simp] theorem State.setMantel_dtags (s : State) (p : BitVec 3) (x : Mantel) : (s.setMantel p x).dtags = s.dtags := rfl
@[simp] theorem State.setMantel_colls (s : State) (p : BitVec 3) (x : Mantel) : (s.setMantel p x).colls = s.colls := rfl
@[simp] theorem State.setMantel_sends (s : State) (p : BitVec 3) (x : Mantel) : (s.setMantel p x).sends = s.sends := rfl
@[simp] theorem State.setMantel_gangs (s : State) (p : BitVec 3) (x : Mantel) : (s.setMantel p x).gangs = s.gangs := rfl
@[simp] theorem State.setMantel_act (s : State) (p : BitVec 3) (x : Mantel) : (s.setMantel p x).act = s.act := rfl
@[simp] theorem State.setMantel_host0 (s : State) (p : BitVec 3) (x : Mantel) : (s.setMantel p x).host0 = s.host0 := rfl
@[simp] theorem State.setMantel_host1 (s : State) (p : BitVec 3) (x : Mantel) : (s.setMantel p x).host1 = s.host1 := rfl
@[simp] theorem State.setMantel_msix (s : State) (p : BitVec 3) (x : Mantel) : (s.setMantel p x).msix = s.msix := rfl
@[simp] theorem State.setMantel_aer (s : State) (p : BitVec 3) (x : Mantel) : (s.setMantel p x).aer = s.aer := rfl
@[simp] theorem State.setMantel_badWords (s : State) (p : BitVec 3) (x : Mantel) : (s.setMantel p x).badWords = s.badWords := rfl
@[simp] theorem State.setMantel_stalls (s : State) (p : BitVec 3) (x : Mantel) : (s.setMantel p x).stalls = s.stalls := rfl
@[simp] theorem State.setMantel_tests (s : State) (p : BitVec 3) (x : Mantel) : (s.setMantel p x).tests = s.tests := rfl
@[simp] theorem State.setMantel_plat (s : State) (p : BitVec 3) (x : Mantel) : (s.setMantel p x).plat = s.plat := rfl
@[simp] theorem State.setMantel_agenda (s : State) (p : BitVec 3) (x : Mantel) : (s.setMantel p x).agenda = s.agenda := rfl
@[simp] theorem State.setMantel_curG (s : State) (p : BitVec 3) (x : Mantel) : (s.setMantel p x).curG = s.curG := rfl
@[simp] theorem State.setMantel_curLane (s : State) (p : BitVec 3) (x : Mantel) : (s.setMantel p x).curLane = s.curLane := rfl
@[simp] theorem State.setMantel_fresh (s : State) (p : BitVec 3) (x : Mantel) : (s.setMantel p x).fresh = s.fresh := rfl
@[simp] theorem State.setMantel_group (s : State) (p : BitVec 3) (x : Mantel) (h : Gid) : (s.setMantel p x).group h = s.group h := rfl
@[simp] theorem State.setMantel_core (s : State) (p : BitVec 3) (x : Mantel) (e : BitVec 10) : (s.setMantel p x).core e = s.core e := rfl
@[simp] theorem State.setMantel_die (s : State) (p : BitVec 3) (x : Mantel) (e : BitVec 3) : (s.setMantel p x).die e = s.die e := rfl
@[simp] theorem State.setMantel_part (s : State) (p : BitVec 3) (x : Mantel) (e : BitVec 3) : (s.setMantel p x).part e = s.part e := rfl
@[simp] theorem State.setMantel_iface (s : State) (p : BitVec 3) (x : Mantel) (e : BitVec 12) : (s.setMantel p x).iface e = s.iface e := rfl
@[simp] theorem State.setMantel_cur (s : State) (p : BitVec 3) (x : Mantel) : (s.setMantel p x).cur = s.cur := rfl

/-! setIface -/
@[simp] theorem State.setIface_mem (s : State) (i : BitVec 12) (x : Iface) : (s.setIface i x).mem = s.mem := rfl
@[simp] theorem State.setIface_groups (s : State) (i : BitVec 12) (x : Iface) : (s.setIface i x).groups = s.groups := rfl
@[simp] theorem State.setIface_cores (s : State) (i : BitVec 12) (x : Iface) : (s.setIface i x).cores = s.cores := rfl
@[simp] theorem State.setIface_dies (s : State) (i : BitVec 12) (x : Iface) : (s.setIface i x).dies = s.dies := rfl
@[simp] theorem State.setIface_parts (s : State) (i : BitVec 12) (x : Iface) : (s.setIface i x).parts = s.parts := rfl
@[simp] theorem State.setIface_mantels (s : State) (i : BitVec 12) (x : Iface) : (s.setIface i x).mantels = s.mantels := rfl
@[simp] theorem State.setIface_blocks (s : State) (i : BitVec 12) (x : Iface) : (s.setIface i x).blocks = s.blocks := rfl
@[simp] theorem State.setIface_launches (s : State) (i : BitVec 12) (x : Iface) : (s.setIface i x).launches = s.launches := rfl
@[simp] theorem State.setIface_bars (s : State) (i : BitVec 12) (x : Iface) : (s.setIface i x).bars = s.bars := rfl
@[simp] theorem State.setIface_owins (s : State) (i : BitVec 12) (x : Iface) : (s.setIface i x).owins = s.owins := rfl
@[simp] theorem State.setIface_dtags (s : State) (i : BitVec 12) (x : Iface) : (s.setIface i x).dtags = s.dtags := rfl
@[simp] theorem State.setIface_colls (s : State) (i : BitVec 12) (x : Iface) : (s.setIface i x).colls = s.colls := rfl
@[simp] theorem State.setIface_sends (s : State) (i : BitVec 12) (x : Iface) : (s.setIface i x).sends = s.sends := rfl
@[simp] theorem State.setIface_gangs (s : State) (i : BitVec 12) (x : Iface) : (s.setIface i x).gangs = s.gangs := rfl
@[simp] theorem State.setIface_act (s : State) (i : BitVec 12) (x : Iface) : (s.setIface i x).act = s.act := rfl
@[simp] theorem State.setIface_host0 (s : State) (i : BitVec 12) (x : Iface) : (s.setIface i x).host0 = s.host0 := rfl
@[simp] theorem State.setIface_host1 (s : State) (i : BitVec 12) (x : Iface) : (s.setIface i x).host1 = s.host1 := rfl
@[simp] theorem State.setIface_msix (s : State) (i : BitVec 12) (x : Iface) : (s.setIface i x).msix = s.msix := rfl
@[simp] theorem State.setIface_aer (s : State) (i : BitVec 12) (x : Iface) : (s.setIface i x).aer = s.aer := rfl
@[simp] theorem State.setIface_badWords (s : State) (i : BitVec 12) (x : Iface) : (s.setIface i x).badWords = s.badWords := rfl
@[simp] theorem State.setIface_stalls (s : State) (i : BitVec 12) (x : Iface) : (s.setIface i x).stalls = s.stalls := rfl
@[simp] theorem State.setIface_tests (s : State) (i : BitVec 12) (x : Iface) : (s.setIface i x).tests = s.tests := rfl
@[simp] theorem State.setIface_plat (s : State) (i : BitVec 12) (x : Iface) : (s.setIface i x).plat = s.plat := rfl
@[simp] theorem State.setIface_agenda (s : State) (i : BitVec 12) (x : Iface) : (s.setIface i x).agenda = s.agenda := rfl
@[simp] theorem State.setIface_curG (s : State) (i : BitVec 12) (x : Iface) : (s.setIface i x).curG = s.curG := rfl
@[simp] theorem State.setIface_curLane (s : State) (i : BitVec 12) (x : Iface) : (s.setIface i x).curLane = s.curLane := rfl
@[simp] theorem State.setIface_fresh (s : State) (i : BitVec 12) (x : Iface) : (s.setIface i x).fresh = s.fresh := rfl
@[simp] theorem State.setIface_group (s : State) (i : BitVec 12) (x : Iface) (h : Gid) : (s.setIface i x).group h = s.group h := rfl
@[simp] theorem State.setIface_core (s : State) (i : BitVec 12) (x : Iface) (e : BitVec 10) : (s.setIface i x).core e = s.core e := rfl
@[simp] theorem State.setIface_die (s : State) (i : BitVec 12) (x : Iface) (e : BitVec 3) : (s.setIface i x).die e = s.die e := rfl
@[simp] theorem State.setIface_part (s : State) (i : BitVec 12) (x : Iface) (e : BitVec 3) : (s.setIface i x).part e = s.part e := rfl
@[simp] theorem State.setIface_mantel (s : State) (i : BitVec 12) (x : Iface) (e : BitVec 3) : (s.setIface i x).mantel e = s.mantel e := rfl
@[simp] theorem State.setIface_cur (s : State) (i : BitVec 12) (x : Iface) : (s.setIface i x).cur = s.cur := rfl

/-! A record read after a record was written -/
theorem State.group_setGroup (s : State) (a b : Gid) (x : Group) : (s.setGroup a x).group b = if b = a then x else s.group b := by
  simp [State.group, State.setGroup, Tab.get_set, BitVec.toNat_inj]
@[simp] theorem State.group_setGroup_same (s : State) (a : Gid) (x : Group) : (s.setGroup a x).group a = x := by simp [State.group_setGroup]
theorem State.group_setGroup_other (s : State) {a b : Gid} (x : Group) (h : b ≠ a) : (s.setGroup a x).group b = s.group b := by simp [State.group_setGroup, h]
@[simp] theorem State.setGroup_setGroup (s : State) (a : Gid) (x y : Group) : (s.setGroup a x).setGroup a y = s.setGroup a y := by simp [State.setGroup]

theorem State.core_setCore (s : State) (a b : BitVec 10) (x : Core) : (s.setCore a x).core b = if b = a then x else s.core b := by
  simp [State.core, State.setCore, Tab.get_set, BitVec.toNat_inj]
@[simp] theorem State.core_setCore_same (s : State) (a : BitVec 10) (x : Core) : (s.setCore a x).core a = x := by simp [State.core_setCore]
theorem State.core_setCore_other (s : State) {a b : BitVec 10} (x : Core) (h : b ≠ a) : (s.setCore a x).core b = s.core b := by simp [State.core_setCore, h]
@[simp] theorem State.setCore_setCore (s : State) (a : BitVec 10) (x y : Core) : (s.setCore a x).setCore a y = s.setCore a y := by simp [State.setCore]

theorem State.die_setDie (s : State) (a b : BitVec 3) (x : Die) : (s.setDie a x).die b = if b = a then x else s.die b := by
  simp [State.die, State.setDie, Tab.get_set, BitVec.toNat_inj]
@[simp] theorem State.die_setDie_same (s : State) (a : BitVec 3) (x : Die) : (s.setDie a x).die a = x := by simp [State.die_setDie]
theorem State.die_setDie_other (s : State) {a b : BitVec 3} (x : Die) (h : b ≠ a) : (s.setDie a x).die b = s.die b := by simp [State.die_setDie, h]
@[simp] theorem State.setDie_setDie (s : State) (a : BitVec 3) (x y : Die) : (s.setDie a x).setDie a y = s.setDie a y := by simp [State.setDie]

theorem State.part_setPart (s : State) (a b : BitVec 3) (x : Part) : (s.setPart a x).part b = if b = a then x else s.part b := by
  simp [State.part, State.setPart, Tab.get_set, BitVec.toNat_inj]
@[simp] theorem State.part_setPart_same (s : State) (a : BitVec 3) (x : Part) : (s.setPart a x).part a = x := by simp [State.part_setPart]
theorem State.part_setPart_other (s : State) {a b : BitVec 3} (x : Part) (h : b ≠ a) : (s.setPart a x).part b = s.part b := by simp [State.part_setPart, h]
@[simp] theorem State.setPart_setPart (s : State) (a : BitVec 3) (x y : Part) : (s.setPart a x).setPart a y = s.setPart a y := by simp [State.setPart]

theorem State.mantel_setMantel (s : State) (a b : BitVec 3) (x : Mantel) : (s.setMantel a x).mantel b = if b = a then x else s.mantel b := by
  simp [State.mantel, State.setMantel, Tab.get_set, BitVec.toNat_inj]
@[simp] theorem State.mantel_setMantel_same (s : State) (a : BitVec 3) (x : Mantel) : (s.setMantel a x).mantel a = x := by simp [State.mantel_setMantel]
theorem State.mantel_setMantel_other (s : State) {a b : BitVec 3} (x : Mantel) (h : b ≠ a) : (s.setMantel a x).mantel b = s.mantel b := by simp [State.mantel_setMantel, h]
@[simp] theorem State.setMantel_setMantel (s : State) (a : BitVec 3) (x y : Mantel) : (s.setMantel a x).setMantel a y = s.setMantel a y := by simp [State.setMantel]

theorem State.iface_setIface (s : State) (a b : BitVec 12) (x : Iface) : (s.setIface a x).iface b = if b = a then x else s.iface b := by
  simp [State.iface, State.setIface, Tab.get_set, BitVec.toNat_inj]
@[simp] theorem State.iface_setIface_same (s : State) (a : BitVec 12) (x : Iface) : (s.setIface a x).iface a = x := by simp [State.iface_setIface]
theorem State.iface_setIface_other (s : State) {a b : BitVec 12} (x : Iface) (h : b ≠ a) : (s.setIface a x).iface b = s.iface b := by simp [State.iface_setIface, h]
@[simp] theorem State.setIface_setIface (s : State) (a : BitVec 12) (x y : Iface) : (s.setIface a x).setIface a y = s.setIface a y := by simp [State.setIface]

/-! Updates of a group -/
@[simp] theorem Group.setSr_live (g : Group) (r : SReg) (v : W64) : (g.setSr r v).live = g.live := rfl
@[simp] theorem Group.setSr_sp (g : Group) (r : SReg) (v : W64) : (g.setSr r v).sp = g.sp := rfl
@[simp] theorem Group.setSr_pc (g : Group) (r : SReg) (v : W64) : (g.setSr r v).pc = g.pc := rfl
@[simp] theorem Group.setSr_win (g : Group) (r : SReg) (v : W64) : (g.setSr r v).win = g.win := rfl
@[simp] theorem Group.setSr_q (g : Group) (r : SReg) (v : W64) : (g.setSr r v).q = g.q := rfl
@[simp] theorem Group.setSr_y (g : Group) (r : SReg) (v : W64) : (g.setSr r v).y = g.y := rfl
@[simp] theorem Group.setSr_rg (g : Group) (r : SReg) (v : W64) : (g.setSr r v).rg = g.rg := rfl
@[simp] theorem Group.setSr_ln (g : Group) (r : SReg) (v : W64) : (g.setSr r v).ln = g.ln := rfl
@[simp] theorem Group.setSr_h (g : Group) (r : SReg) (v : W64) : (g.setSr r v).h = g.h := rfl
@[simp] theorem Group.setSr_part (g : Group) (r : SReg) (v : W64) : (g.setSr r v).part = g.part := rfl
@[simp] theorem Group.setSr_launch (g : Group) (r : SReg) (v : W64) : (g.setSr r v).launch = g.launch := rfl
@[simp] theorem Group.setSr_block (g : Group) (r : SReg) (v : W64) : (g.setSr r v).block = g.block := rfl
@[simp] theorem Group.setSr_gidx (g : Group) (r : SReg) (v : W64) : (g.setSr r v).gidx = g.gidx := rfl
@[simp] theorem Group.setSr_pasid (g : Group) (r : SReg) (v : W64) : (g.setSr r v).pasid = g.pasid := rfl
@[simp] theorem Group.setSr_priv (g : Group) (r : SReg) (v : W64) : (g.setSr r v).priv = g.priv := rfl
@[simp] theorem Group.setSr_cls (g : Group) (r : SReg) (v : W64) : (g.setSr r v).cls = g.cls := rfl
@[simp] theorem Group.setSr_st (g : Group) (r : SReg) (v : W64) : (g.setSr r v).st = g.st := rfl
@[simp] theorem Group.setSr_wait (g : Group) (r : SReg) (v : W64) : (g.setSr r v).wait = g.wait := rfl
@[simp] theorem Group.setSr_mon (g : Group) (r : SReg) (v : W64) : (g.setSr r v).mon = g.mon := rfl
@[simp] theorem Group.setSr_fired (g : Group) (r : SReg) (v : W64) : (g.setSr r v).fired = g.fired := rfl
@[simp] theorem Group.setSr_restored (g : Group) (r : SReg) (v : W64) : (g.setSr r v).restored = g.restored := rfl
@[simp] theorem Group.setSr_slog (g : Group) (r : SReg) (v : W64) : (g.setSr r v).slog = g.slog := rfl
@[simp] theorem Group.setSr_llog (g : Group) (r : SReg) (v : W64) : (g.setSr r v).llog = g.llog := rfl
@[simp] theorem Group.setSr_sfetch (g : Group) (r : SReg) (v : W64) : (g.setSr r v).sfetch = g.sfetch := rfl
@[simp] theorem Group.setSr_lfetch (g : Group) (r : SReg) (v : W64) : (g.setSr r v).lfetch = g.lfetch := rfl
@[simp] theorem Group.setSr_arrived (g : Group) (r : SReg) (v : W64) : (g.setSr r v).arrived = g.arrived := rfl
@[simp] theorem Group.setSr_boost (g : Group) (r : SReg) (v : W64) : (g.setSr r v).boost = g.boost := rfl
@[simp] theorem Group.setSr_passed (g : Group) (r : SReg) (v : W64) : (g.setSr r v).passed = g.passed := rfl
@[simp] theorem Group.setSp_live (g : Group) (p : BitVec 3) (b : Bool) : (g.setSp p b).live = g.live := rfl
@[simp] theorem Group.setSp_s (g : Group) (p : BitVec 3) (b : Bool) : (g.setSp p b).s = g.s := rfl
@[simp] theorem Group.setSp_pc (g : Group) (p : BitVec 3) (b : Bool) : (g.setSp p b).pc = g.pc := rfl
@[simp] theorem Group.setSp_win (g : Group) (p : BitVec 3) (b : Bool) : (g.setSp p b).win = g.win := rfl
@[simp] theorem Group.setSp_q (g : Group) (p : BitVec 3) (b : Bool) : (g.setSp p b).q = g.q := rfl
@[simp] theorem Group.setSp_y (g : Group) (p : BitVec 3) (b : Bool) : (g.setSp p b).y = g.y := rfl
@[simp] theorem Group.setSp_rg (g : Group) (p : BitVec 3) (b : Bool) : (g.setSp p b).rg = g.rg := rfl
@[simp] theorem Group.setSp_ln (g : Group) (p : BitVec 3) (b : Bool) : (g.setSp p b).ln = g.ln := rfl
@[simp] theorem Group.setSp_h (g : Group) (p : BitVec 3) (b : Bool) : (g.setSp p b).h = g.h := rfl
@[simp] theorem Group.setSp_part (g : Group) (p : BitVec 3) (b : Bool) : (g.setSp p b).part = g.part := rfl
@[simp] theorem Group.setSp_launch (g : Group) (p : BitVec 3) (b : Bool) : (g.setSp p b).launch = g.launch := rfl
@[simp] theorem Group.setSp_block (g : Group) (p : BitVec 3) (b : Bool) : (g.setSp p b).block = g.block := rfl
@[simp] theorem Group.setSp_gidx (g : Group) (p : BitVec 3) (b : Bool) : (g.setSp p b).gidx = g.gidx := rfl
@[simp] theorem Group.setSp_pasid (g : Group) (p : BitVec 3) (b : Bool) : (g.setSp p b).pasid = g.pasid := rfl
@[simp] theorem Group.setSp_priv (g : Group) (p : BitVec 3) (b : Bool) : (g.setSp p b).priv = g.priv := rfl
@[simp] theorem Group.setSp_cls (g : Group) (p : BitVec 3) (b : Bool) : (g.setSp p b).cls = g.cls := rfl
@[simp] theorem Group.setSp_st (g : Group) (p : BitVec 3) (b : Bool) : (g.setSp p b).st = g.st := rfl
@[simp] theorem Group.setSp_wait (g : Group) (p : BitVec 3) (b : Bool) : (g.setSp p b).wait = g.wait := rfl
@[simp] theorem Group.setSp_mon (g : Group) (p : BitVec 3) (b : Bool) : (g.setSp p b).mon = g.mon := rfl
@[simp] theorem Group.setSp_fired (g : Group) (p : BitVec 3) (b : Bool) : (g.setSp p b).fired = g.fired := rfl
@[simp] theorem Group.setSp_restored (g : Group) (p : BitVec 3) (b : Bool) : (g.setSp p b).restored = g.restored := rfl
@[simp] theorem Group.setSp_slog (g : Group) (p : BitVec 3) (b : Bool) : (g.setSp p b).slog = g.slog := rfl
@[simp] theorem Group.setSp_llog (g : Group) (p : BitVec 3) (b : Bool) : (g.setSp p b).llog = g.llog := rfl
@[simp] theorem Group.setSp_sfetch (g : Group) (p : BitVec 3) (b : Bool) : (g.setSp p b).sfetch = g.sfetch := rfl
@[simp] theorem Group.setSp_lfetch (g : Group) (p : BitVec 3) (b : Bool) : (g.setSp p b).lfetch = g.lfetch := rfl
@[simp] theorem Group.setSp_arrived (g : Group) (p : BitVec 3) (b : Bool) : (g.setSp p b).arrived = g.arrived := rfl
@[simp] theorem Group.setSp_boost (g : Group) (p : BitVec 3) (b : Bool) : (g.setSp p b).boost = g.boost := rfl
@[simp] theorem Group.setSp_passed (g : Group) (p : BitVec 3) (b : Bool) : (g.setSp p b).passed = g.passed := rfl
@[simp] theorem Group.pc4_live (g : Group) : (g.pc4).live = g.live := rfl
@[simp] theorem Group.pc4_s (g : Group) : (g.pc4).s = g.s := rfl
@[simp] theorem Group.pc4_sp (g : Group) : (g.pc4).sp = g.sp := rfl
@[simp] theorem Group.pc4_win (g : Group) : (g.pc4).win = g.win := rfl
@[simp] theorem Group.pc4_q (g : Group) : (g.pc4).q = g.q := rfl
@[simp] theorem Group.pc4_y (g : Group) : (g.pc4).y = g.y := rfl
@[simp] theorem Group.pc4_rg (g : Group) : (g.pc4).rg = g.rg := rfl
@[simp] theorem Group.pc4_ln (g : Group) : (g.pc4).ln = g.ln := rfl
@[simp] theorem Group.pc4_h (g : Group) : (g.pc4).h = g.h := rfl
@[simp] theorem Group.pc4_part (g : Group) : (g.pc4).part = g.part := rfl
@[simp] theorem Group.pc4_launch (g : Group) : (g.pc4).launch = g.launch := rfl
@[simp] theorem Group.pc4_block (g : Group) : (g.pc4).block = g.block := rfl
@[simp] theorem Group.pc4_gidx (g : Group) : (g.pc4).gidx = g.gidx := rfl
@[simp] theorem Group.pc4_pasid (g : Group) : (g.pc4).pasid = g.pasid := rfl
@[simp] theorem Group.pc4_priv (g : Group) : (g.pc4).priv = g.priv := rfl
@[simp] theorem Group.pc4_cls (g : Group) : (g.pc4).cls = g.cls := rfl
@[simp] theorem Group.pc4_st (g : Group) : (g.pc4).st = g.st := rfl
@[simp] theorem Group.pc4_wait (g : Group) : (g.pc4).wait = g.wait := rfl
@[simp] theorem Group.pc4_mon (g : Group) : (g.pc4).mon = g.mon := rfl
@[simp] theorem Group.pc4_fired (g : Group) : (g.pc4).fired = g.fired := rfl
@[simp] theorem Group.pc4_restored (g : Group) : (g.pc4).restored = g.restored := rfl
@[simp] theorem Group.pc4_slog (g : Group) : (g.pc4).slog = g.slog := rfl
@[simp] theorem Group.pc4_llog (g : Group) : (g.pc4).llog = g.llog := rfl
@[simp] theorem Group.pc4_sfetch (g : Group) : (g.pc4).sfetch = g.sfetch := rfl
@[simp] theorem Group.pc4_lfetch (g : Group) : (g.pc4).lfetch = g.lfetch := rfl
@[simp] theorem Group.pc4_arrived (g : Group) : (g.pc4).arrived = g.arrived := rfl
@[simp] theorem Group.pc4_boost (g : Group) : (g.pc4).boost = g.boost := rfl
@[simp] theorem Group.pc4_passed (g : Group) : (g.pc4).passed = g.passed := rfl
@[simp] theorem Group.lpc1_live (g : Group) : (g.lpc1).live = g.live := rfl
@[simp] theorem Group.lpc1_s (g : Group) : (g.lpc1).s = g.s := rfl
@[simp] theorem Group.lpc1_sp (g : Group) : (g.lpc1).sp = g.sp := rfl
@[simp] theorem Group.lpc1_pc (g : Group) : (g.lpc1).pc = g.pc := rfl
@[simp] theorem Group.lpc1_win (g : Group) : (g.lpc1).win = g.win := rfl
@[simp] theorem Group.lpc1_q (g : Group) : (g.lpc1).q = g.q := rfl
@[simp] theorem Group.lpc1_y (g : Group) : (g.lpc1).y = g.y := rfl
@[simp] theorem Group.lpc1_rg (g : Group) : (g.lpc1).rg = g.rg := rfl
@[simp] theorem Group.lpc1_h (g : Group) : (g.lpc1).h = g.h := rfl
@[simp] theorem Group.lpc1_part (g : Group) : (g.lpc1).part = g.part := rfl
@[simp] theorem Group.lpc1_launch (g : Group) : (g.lpc1).launch = g.launch := rfl
@[simp] theorem Group.lpc1_block (g : Group) : (g.lpc1).block = g.block := rfl
@[simp] theorem Group.lpc1_gidx (g : Group) : (g.lpc1).gidx = g.gidx := rfl
@[simp] theorem Group.lpc1_pasid (g : Group) : (g.lpc1).pasid = g.pasid := rfl
@[simp] theorem Group.lpc1_priv (g : Group) : (g.lpc1).priv = g.priv := rfl
@[simp] theorem Group.lpc1_cls (g : Group) : (g.lpc1).cls = g.cls := rfl
@[simp] theorem Group.lpc1_st (g : Group) : (g.lpc1).st = g.st := rfl
@[simp] theorem Group.lpc1_wait (g : Group) : (g.lpc1).wait = g.wait := rfl
@[simp] theorem Group.lpc1_mon (g : Group) : (g.lpc1).mon = g.mon := rfl
@[simp] theorem Group.lpc1_fired (g : Group) : (g.lpc1).fired = g.fired := rfl
@[simp] theorem Group.lpc1_restored (g : Group) : (g.lpc1).restored = g.restored := rfl
@[simp] theorem Group.lpc1_slog (g : Group) : (g.lpc1).slog = g.slog := rfl
@[simp] theorem Group.lpc1_llog (g : Group) : (g.lpc1).llog = g.llog := rfl
@[simp] theorem Group.lpc1_sfetch (g : Group) : (g.lpc1).sfetch = g.sfetch := rfl
@[simp] theorem Group.lpc1_lfetch (g : Group) : (g.lpc1).lfetch = g.lfetch := rfl
@[simp] theorem Group.lpc1_arrived (g : Group) : (g.lpc1).arrived = g.arrived := rfl
@[simp] theorem Group.lpc1_boost (g : Group) : (g.lpc1).boost = g.boost := rfl
@[simp] theorem Group.lpc1_passed (g : Group) : (g.lpc1).passed = g.passed := rfl

/-! The group that moves -/

@[simp] theorem State.cur_setCur (s : State) (x : Group) : (s.setCur x).cur = x := by
  simp [State.cur, State.setCur]
@[simp] theorem State.setCur_setCur (s : State) (x y : Group) : (s.setCur x).setCur y = s.setCur y := by
  simp [State.setCur, State.setGroup]
theorem State.cur_setGroup (s : State) (x : Group) : (s.setGroup s.curG x).cur = x := by simp [State.cur]

/-! Scalar registers, predicates and counters of a group -/

@[simp] theorem Group.sr_setSr_same (g : Group) (r : SReg) (v : W64) : (g.setSr r v).sr r = v := by
  simp [Group.sr, Group.setSr]
theorem Group.sr_setSr_other (g : Group) {r q : SReg} (v : W64) (h : q ≠ r) : (g.setSr r v).sr q = g.sr q := by
  have : r.toNat ≠ q.toNat := fun e => h (BitVec.eq_of_toNat_eq e.symm)
  simp [Group.sr, Group.setSr, this]
@[simp] theorem Group.sr_pc4 (g : Group) (r : SReg) : g.pc4.sr r = g.sr r := rfl
@[simp] theorem Group.sr_lpc1 (g : Group) (r : SReg) : g.lpc1.sr r = g.sr r := rfl
@[simp] theorem Group.sr_setSp (g : Group) (p : BitVec 3) (b : Bool) (r : SReg) : (g.setSp p b).sr r = g.sr r := rfl
@[simp] theorem Group.pc4_pc (g : Group) : g.pc4.pc = g.pc + 4 := rfl
@[simp] theorem Group.lpc1_lpc (g : Group) : g.lpc1.ln.lpc = g.ln.lpc + 1 := rfl
theorem Group.spOf_setSp (g : Group) (p q : BitVec 3) (b : Bool) : (g.setSp p b).spOf q = if q = p then b else g.spOf q := by
  have hp := p.isLt
  have hq := q.isLt
  simp only [Group.spOf, Group.setSp, putBit, putBits, bitOf, BitVec.getLsbD_or, BitVec.getLsbD_and, BitVec.getLsbD_not,
    BitVec.getLsbD_ofNat]
  have e : ∀ v : Nat, Nat.testBit (v % 2 ^ 1 * 2 ^ p.toNat) q.toNat = (decide (q = p) && v.testBit 0) := by
    intro v
    by_cases h : q = p
    · subst h; simp [Nat.testBit_mul_two_pow]
    · have hn : q.toNat ≠ p.toNat := fun e => h (BitVec.eq_of_toNat_eq e)
      simp only [Nat.testBit_mul_two_pow, Nat.testBit_mod_two_pow, h, decide_false, Bool.false_and]
      by_cases hl : p.toNat ≤ q.toNat
      · have : ¬ q.toNat - p.toNat < 1 := by omega
        simp [this]
      · simp [hl]
  have e1 : (2 ^ 1 - 1) * 2 ^ p.toNat = (1 % 2 ^ 1) * 2 ^ p.toNat := by simp
  rw [e1, e, e]
  by_cases h : q = p
  · subst h; cases b <;> simp [hq]
  · have hq8 : q.toNat < 8 := hq
    simp [h, hq8]

end Sys2Proof.Machine
end

