-- ==== Sys2Proof/Laws/Lane.lean ====
section
/-! SUPPORT. What the shared run of a lane instruction does: its destination, its predicates, its queues, and nothing else. -/

namespace Sys2Proof.Machine

/-! Packed numbers -/

theorem packNat_lt (w : Nat) (f : Nat → Nat) (n : Nat) : packNat w f n < 2 ^ (w * n) := by
  induction n with
  | zero => simp [packNat]
  | succ n ih =>
    have h : f n % 2 ^ w < 2 ^ w := Nat.mod_lt _ (by positivity)
    have h2 : (f n % 2 ^ w + 1) * 2 ^ (w * n) ≤ 2 ^ w * 2 ^ (w * n) := Nat.mul_le_mul_right _ h
    rw [packNat, Nat.mul_succ, Nat.pow_add, Nat.mul_comm (2 ^ (w * n))]
    rw [Nat.add_mul, Nat.one_mul] at h2
    omega

theorem packNat_div (w : Nat) (f : Nat → Nat) (n j : Nat) (h : j < n) :
    packNat w f n / 2 ^ (w * j) % 2 ^ w = f j % 2 ^ w := by
  induction n with
  | zero => omega
  | succ n ih =>
    rw [packNat]
    by_cases hj : j = n
    · subst hj
      rw [Nat.add_mul_div_right _ _ (by positivity), Nat.div_eq_of_lt (packNat_lt w f j), Nat.zero_add, Nat.mod_mod]
    · have e : 2 ^ (w * n) = 2 ^ (w * (n - j - 1)) * 2 ^ w * 2 ^ (w * j) := by
        rw [← Nat.pow_add, ← Nat.pow_add]; congr 1
        obtain ⟨k, rfl⟩ : ∃ k, n = j + 1 + k := ⟨n - j - 1, by omega⟩
        rw [show j + 1 + k - j - 1 = k by omega]; ring
      rw [e, ← Nat.mul_assoc, Nat.add_mul_div_right _ _ (by positivity), ← Nat.mul_assoc, Nat.add_mul_mod_self_right, ih (by omega)]

theorem extract_packNat (w n N : Nat) (f : Nat → Nat) (hN : N = w * n) (j : Nat) (h : j < n) :
    ((BitVec.ofNat N (packNat w f n)).extractLsb' (w * j) w).toNat = f j % 2 ^ w := by
  have hl := packNat_lt w f n
  rw [← hN] at hl
  rw [BitVec.extractLsb'_toNat, BitVec.toNat_ofNat, Nat.shiftRight_eq_div_pow, Nat.mod_eq_of_lt hl, packNat_div _ _ _ _ h]

theorem vword_vbuild (f : Nat → W32) (j : Nat) (h : j < 64) : vword (vbuild f) j = f j := by
  apply BitVec.eq_of_toNat_eq
  rw [vword, vbuild, extract_packNat 32 64 2048 _ (by norm_num) j h, Nat.mod_eq_of_lt (f j).isLt]

theorem getLsbD_predMask (f : Nat → Bool) (j : Nat) (h : j < 64) : (predMask f).getLsbD j = f j := by
  have hl := packNat_lt 1 (fun j => (f j).toNat) 64
  have hd := packNat_div 1 (fun j => (f j).toNat) 64 j h
  simp only [predMask, BitVec.getLsbD, BitVec.toNat_ofNat]
  rw [Nat.mod_eq_of_lt (by simpa using hl), Nat.testBit_eq_decide_div_mod_eq]
  simp only [Nat.one_mul, Nat.pow_one] at hd
  rw [hd]
  cases f j <;> rfl

/-! Rows -/

theorem row_setRow (r : RegSpace) (i k : Nat) (v : VReg) : (r.setRow i v).row k = if k = i then v else r.row k := by
  simp [RegSpace.setRow, RegSpace.row, Sparse.get_set]

theorem setRow_eq (r : RegSpace) (i : Nat) (v : VReg) : r.setRow i v = { r with rows := (r.setRow i v).rows } := rfl

/-- Words written over have no error left; nothing else changes (R335). -/
theorem heal_eq (r : RegSpace) (w : Nat → Bool) : r.heal w = { r with bad := (r.heal w).bad } := by
  unfold RegSpace.heal; split <;> rfl
@[simp] theorem row_heal (r : RegSpace) (w : Nat → Bool) (k : Nat) : (r.heal w).row k = r.row k := by rw [heal_eq]; rfl
@[simp] theorem byte_heal (r : RegSpace) (w : Nat → Bool) (a : Nat) : (r.heal w).byte a = r.byte a := by rw [heal_eq]; rfl
theorem bad_heal (r : RegSpace) (w : Nat → Bool) : ∀ x ∈ (r.heal w).bad, x ∈ r.bad := by
  intro x hx; unfold RegSpace.heal at hx
  split at hx
  · exact hx
  · exact List.mem_of_mem_filter hx

/-- A row after a merge holds the new words in the threads of the mask. -/
theorem vword_mergeF (r : RegSpace) (i : Nat) (mask : W64) (f : Nat → Nat) (k j : Nat) (hj : j < 64) :
    vword ((r.mergeF i mask f).row k) j = if k = i ∧ mask.getLsbD j = true then BitVec.ofNat 32 (f j) else vword (r.row k) j := by
  unfold RegSpace.mergeF
  simp only [row_heal, row_setRow]
  by_cases h : k = i
  · subst h; rw [if_pos rfl, vword_vbuild _ _ hj]; by_cases hm : mask.getLsbD j = true <;> simp [bitOf, hm]
  · simp [h]
theorem row_mergeF (r : RegSpace) (i : Nat) (mask : W64) (f : Nat → Nat) (k : Nat) (h : k ≠ i) :
    (r.mergeF i mask f).row k = r.row k := by
  simp [RegSpace.mergeF, row_setRow, h]
theorem mergeF_eq (r : RegSpace) (i : Nat) (mask : W64) (f : Nat → Nat) :
    r.mergeF i mask f = { r with rows := (r.mergeF i mask f).rows, bad := (r.mergeF i mask f).bad } := by
  unfold RegSpace.mergeF; rw [heal_eq]; rfl

theorem bad_mergeF (r : RegSpace) (i : Nat) (mask : W64) (f : Nat → Nat) : ∀ x ∈ (r.mergeF i mask f).bad, x ∈ r.bad := by
  intro x hx; have h := bad_heal _ _ x hx; exact h
theorem putVec_eq (g : Group) (i : Nat) (mask : W64) (f : Nat → Nat) (n : Nat) :
    g.putVec i mask f n =
      { g with rg := { g.rg with rows := (g.putVec i mask f n).rg.rows, bad := (g.putVec i mask f n).rg.bad } } := by
  induction n with
  | zero => rfl
  | succ n ih => rw [Group.putVec, ih, mergeF_eq]
theorem bad_putVec (g : Group) (i : Nat) (mask : W64) (f : Nat → Nat) (n : Nat) :
    ∀ x ∈ (g.putVec i mask f n).rg.bad, x ∈ g.rg.bad := by
  induction n with
  | zero => exact fun _ h => h
  | succ n ih =>
    intro x hx
    exact ih x (bad_mergeF _ _ _ _ x hx)

theorem putVec_vrow (g : Group) (i : Nat) (mask : W64) (f : Nat → Nat) (n k : Nat) :
    (g.putVec i mask f n).rg.vrow k = g.rg.vrow k := by rw [putVec_eq]; rfl

theorem vword_putVec (g : Group) (i : Nat) (mask : W64) (f : Nat → Nat) (n k j : Nat) (hk : k < n) (hj : j < 64) :
    vword ((g.putVec i mask f n).rg.row (g.rg.vrow (i + k))) j =
      if mask.getLsbD j = true then BitVec.ofNat 32 (f j / 2 ^ (32 * k)) else vword (g.rg.row (g.rg.vrow (i + k))) j := by
  induction n with
  | zero => omega
  | succ n ih =>
    simp only [Group.putVec, vword_mergeF _ _ _ _ _ _ hj, putVec_vrow]
    by_cases h : k = n
    · subst h
      by_cases hm : mask.getLsbD j = true
      · simp [hm]
      · simp only [hm]
        have : ∀ n, n ≤ k → vword ((g.putVec i mask f n).rg.row (g.rg.vrow (i + k))) j = vword (g.rg.row (g.rg.vrow (i + k))) j := by
          intro n; induction n with
          | zero => intro _; rfl
          | succ n ih2 =>
            intro h
            simp only [Group.putVec, putVec_vrow]
            rw [row_mergeF _ _ _ _ _ (by simp [RegSpace.vrow]; omega), ih2 (by omega)]
        simpa using this k (Nat.le_refl k)
    · have : ¬ g.rg.vrow (i + k) = g.rg.vrow (i + n) := by simp [RegSpace.vrow]; omega
      simp only [this, false_and, if_false]
      exact ih (by omega)

theorem row_putVec (g : Group) (i : Nat) (mask : W64) (f : Nat → Nat) (n r : Nat) (h : ∀ k, k < n → r ≠ g.rg.vrow (i + k)) :
    (g.putVec i mask f n).rg.row r = g.rg.row r := by
  induction n with
  | zero => rfl
  | succ n ih =>
    simp only [Group.putVec, putVec_vrow]
    rw [row_mergeF _ _ _ _ _ (h n (by omega)), ih (fun k hk => h k (by omega))]

/-! Bytes -/

theorem getLsbD_putBits {w : Nat} (x : BitVec w) (lo n v i : Nat) (hi : i < w) :
    (putBits x lo n v).getLsbD i = if lo ≤ i ∧ i < lo + n then v.testBit (i - lo) else x.getLsbD i := by
  simp only [putBits, BitVec.getLsbD_or, BitVec.getLsbD_and, BitVec.getLsbD_not, hi, decide_true, Bool.true_and,
    BitVec.getLsbD_ofNat, Nat.testBit_mul_two_pow, Nat.testBit_two_pow_sub_one, Nat.testBit_mod_two_pow]
  by_cases h1 : lo ≤ i
  · by_cases h2 : i < lo + n
    · have : i - lo < n := by omega
      simp [h1, h2, this]
    · have : ¬ i - lo < n := by omega
      simp [h1, h2, this]
  · simp [h1]

theorem byte_setByte (r : RegSpace) (a c : Nat) (b : Byte) :
    (r.setByte a b).byte c = if c = a then b else r.byte c := by
  unfold RegSpace.setByte
  rw [byte_heal]
  unfold RegSpace.byte
  rw [row_setRow]
  have ha : a % 256 < 256 := Nat.mod_lt _ (by omega)
  have hc : c % 256 < 256 := Nat.mod_lt _ (by omega)
  by_cases h : c / 256 = a / 256
  · rw [if_pos h]
    apply BitVec.eq_of_getLsbD_eq
    intro i hi
    rw [BitVec.getLsbD_extractLsb']
    simp only [hi, decide_true, Bool.true_and]
    rw [getLsbD_putBits _ _ _ _ _ (by omega)]
    by_cases e : c = a
    · subst e
      rw [if_pos ⟨by omega, by omega⟩, if_pos rfl, Nat.add_sub_cancel_left]; rfl
    · have : ¬ (8 * (a % 256) ≤ 8 * (c % 256) + i ∧ 8 * (c % 256) + i < 8 * (a % 256) + 8) := by omega
      rw [if_neg this, if_neg e, BitVec.getLsbD_extractLsb']
      simp [hi, h]
  · rw [if_neg h, if_neg (by intro e; exact h (by rw [e]))]

theorem byte_setBytes_outside (r : RegSpace) (a : Nat) (l : List Byte) (c : Nat) (h : c < a ∨ a + l.length ≤ c) :
    (r.setBytes a l).byte c = r.byte c := by
  induction l generalizing r a with
  | nil => rfl
  | cons b t ih =>
    rw [RegSpace.setBytes, ih]
    · rw [byte_setByte, if_neg]; simp at h; omega
    · simp at h; omega
theorem setByte_eq (r : RegSpace) (a : Nat) (b : Byte) :
    r.setByte a b = { r with rows := (r.setByte a b).rows, bad := (r.setByte a b).bad } := by
  unfold RegSpace.setByte; rw [heal_eq]; rfl
theorem setBytes_eq (r : RegSpace) (a : Nat) (l : List Byte) :
    r.setBytes a l = { r with rows := (r.setBytes a l).rows, bad := (r.setBytes a l).bad } := by
  induction l generalizing r a with
  | nil => rfl
  | cons b t ih => rw [RegSpace.setBytes, ih, setByte_eq]
theorem bad_setBytes (r : RegSpace) (a : Nat) (l : List Byte) : ∀ x ∈ (r.setBytes a l).bad, x ∈ r.bad := by
  induction l generalizing r a with
  | nil => exact fun _ h => h
  | cons b t ih =>
    intro x hx
    have h := ih (r.setByte a b) (a + 1) x hx
    exact (show ∀ y ∈ (r.setByte a b).bad, y ∈ r.bad from fun y hy => by have h := bad_heal _ _ y hy; exact h) x h
theorem length_natToBytes (n v : Nat) : (natToBytes n v).length = n := by
  induction n generalizing v with
  | zero => rfl
  | succ n ih => simp [natToBytes, ih]

theorem putSpan_spec (r : RegSpace) (sp : Nat × Nat) (mask : W64) (f : Nat → Nat) (n : Nat) :
    (r.putSpan sp mask f n) = { r with rows := (r.putSpan sp mask f n).rows, bad := (r.putSpan sp mask f n).bad } ∧
    (∀ x ∈ (r.putSpan sp mask f n).bad, x ∈ r.bad) ∧
    ∀ a, (a < sp.1 ∨ sp.1 + sp.2 ≤ a) → (r.putSpan sp mask f n).byte a = r.byte a := by
  unfold RegSpace.putSpan
  have inner : ∀ (k : Nat) (l : List Nat) (r0 : RegSpace),
      let z := l.foldl (fun r j => if bitOf mask j && decide (256 * k + 4 * j + 4 ≤ sp.2) then
        r.setBytes (sp.1 + 256 * k + 4 * j) (natToBytes 4 (f j / 2 ^ (32 * k))) else r) r0
      z = { r0 with rows := z.rows, bad := z.bad } ∧ (∀ x ∈ z.bad, x ∈ r0.bad) ∧
        ∀ a, (a < sp.1 ∨ sp.1 + sp.2 ≤ a) → z.byte a = r0.byte a := by
    intro k l
    induction l with
    | nil => intro r0; exact ⟨rfl, fun _ h => h, fun _ _ => rfl⟩
    | cons j t ih =>
      intro r0
      simp only [List.foldl_cons]
      split
      · rename_i h
        simp only [Bool.and_eq_true, decide_eq_true_eq] at h
        have := ih (r0.setBytes (sp.1 + 256 * k + 4 * j) (natToBytes 4 (f j / 2 ^ (32 * k))))
        refine ⟨?_, fun x hx => bad_setBytes _ _ _ x (this.2.1 x hx), fun a ha => ?_⟩
        · rw [this.1, setBytes_eq r0]
        · rw [this.2.2 a ha, byte_setBytes_outside]
          rw [length_natToBytes]; omega
      · exact ih r0
  generalize List.range n = ks
  induction ks generalizing r with
  | nil => exact ⟨rfl, fun _ h => h, fun _ _ => rfl⟩
  | cons k t ih =>
    simp only [List.foldl_cons]
    have h1 := inner k (List.range 64) r
    have h2 := ih ((List.range 64).foldl (fun r j => if bitOf mask j && decide (256 * k + 4 * j + 4 ≤ sp.2) then
        r.setBytes (sp.1 + 256 * k + 4 * j) (natToBytes 4 (f j / 2 ^ (32 * k))) else r) r)
    refine ⟨?_, fun x hx => h1.2.1 x (h2.2.1 x hx), fun a ha => ?_⟩
    · rw [h2.1, h1.1]
    · rw [h2.2.2 a ha, h1.2.2 a ha]

theorem byte_setBytes (r : RegSpace) (a : Nat) (l : List Byte) (c : Nat) :
    (r.setBytes a l).byte c = if a ≤ c ∧ c < a + l.length then l.getD (c - a) 0 else r.byte c := by
  induction l generalizing r a with
  | nil => rw [if_neg (by simp)]; rfl
  | cons b t ih =>
    rw [RegSpace.setBytes, ih, byte_setByte]
    simp only [List.length_cons]
    by_cases e : c = a
    · subst e; simp
    · by_cases h : a + 1 ≤ c ∧ c < a + 1 + t.length
      · rw [if_pos h, if_pos (by omega), show c - a = (c - (a + 1)) + 1 by omega, List.getD_cons_succ]
      · rw [if_neg h, if_neg e, if_neg (by omega)]
theorem getD_natToBytes (n v i : Nat) (h : i < n) : (natToBytes n v).getD i 0 = BitVec.ofNat 8 (v / 256 ^ i) := by
  induction n generalizing v i with
  | zero => omega
  | succ n ih =>
    cases i with
    | zero => simp [natToBytes]
    | succ i => rw [natToBytes, List.getD_cons_succ, ih _ _ (by omega), Nat.div_div_eq_div_mul, Nat.pow_succ, Nat.mul_comm]

/-- The byte of a range that word j of the k-th register of an operand leaves at an address, if it stands there (R258). -/
theorem byte_putSpan (r : RegSpace) (sp : Nat × Nat) (mask : W64) (f : Nat → Nat) (n a : Nat) :
    (r.putSpan sp mask f n).byte a = if spanByte sp n mask a then spanVal f (a - sp.1) else r.byte a := by
  unfold RegSpace.putSpan spanByte spanVal
  have inner : ∀ (k : Nat) (l : List Nat) (r0 : RegSpace), (∀ j ∈ l, j < 64) →
      (l.foldl (fun r j => if bitOf mask j && decide (256 * k + 4 * j + 4 ≤ sp.2) then
        r.setBytes (sp.1 + 256 * k + 4 * j) (natToBytes 4 (f j / 2 ^ (32 * k))) else r) r0).byte a =
      if sp.1 ≤ a ∧ (a - sp.1) / 256 = k ∧ (a - sp.1) / 4 * 4 + 4 ≤ sp.2 ∧ mask.getLsbD ((a - sp.1) % 256 / 4) = true ∧
          (a - sp.1) % 256 / 4 ∈ l
        then BitVec.ofNat 8 (f ((a - sp.1) % 256 / 4) / 2 ^ (32 * ((a - sp.1) / 256)) / 2 ^ (8 * ((a - sp.1) % 4))) else r0.byte a := by
    intro k l
    induction l with
    | nil => intro r0 _; simp
    | cons j t ih =>
      intro r0 hl
      have hj := hl j (by simp)
      rw [List.foldl_cons, ih _ (fun x hx => hl x (by simp [hx]))]
      by_cases h1 : sp.1 ≤ a ∧ (a - sp.1) / 256 = k ∧ (a - sp.1) / 4 * 4 + 4 ≤ sp.2 ∧ mask.getLsbD ((a - sp.1) % 256 / 4) = true ∧
          (a - sp.1) % 256 / 4 ∈ t
      · rw [if_pos h1, if_pos ⟨h1.1, h1.2.1, h1.2.2.1, h1.2.2.2.1, by simp [h1.2.2.2.2]⟩]
      · rw [if_neg h1]
        split
        · rename_i h
          simp only [Bool.and_eq_true, decide_eq_true_eq] at h
          rw [byte_setBytes, length_natToBytes]
          by_cases h2 : sp.1 + 256 * k + 4 * j ≤ a ∧ a < sp.1 + 256 * k + 4 * j + 4
          · have e1 : (a - sp.1) / 256 = k := by omega
            have e2 : (a - sp.1) % 256 / 4 = j := by omega
            have e3 : a - (sp.1 + 256 * k + 4 * j) = (a - sp.1) % 4 := by omega
            rw [if_pos h2, if_pos ⟨by omega, e1, by omega, by rw [e2]; exact h.1, by simp [e2]⟩, e1, e2, e3, getD_natToBytes _ _ _ (by omega),
              show (256 : Nat) = 2 ^ 8 from rfl, ← Nat.pow_mul]
          · rw [if_neg h2, if_neg]
            rintro ⟨g1, g2, g3, g4, g5⟩
            rw [List.mem_cons] at g5
            rcases g5 with g5 | g5
            · omega
            · exact h1 ⟨g1, g2, g3, g4, g5⟩
        · rename_i h
          rw [if_neg]
          rintro ⟨g1, g2, g3, g4, g5⟩
          rw [List.mem_cons] at g5
          rcases g5 with g5 | g5
          · apply h
            rw [← g5]
            simp only [Bool.and_eq_true, decide_eq_true_eq]
            exact ⟨g4, by omega⟩
          · exact h1 ⟨g1, g2, g3, g4, g5⟩
  have outer : ∀ (ks : List Nat) (r0 : RegSpace),
      (ks.foldl (fun r k => (List.range 64).foldl (fun r j => if bitOf mask j && decide (256 * k + 4 * j + 4 ≤ sp.2) then
        r.setBytes (sp.1 + 256 * k + 4 * j) (natToBytes 4 (f j / 2 ^ (32 * k))) else r) r) r0).byte a =
      if sp.1 ≤ a ∧ (a - sp.1) / 256 ∈ ks ∧ (a - sp.1) / 4 * 4 + 4 ≤ sp.2 ∧ mask.getLsbD ((a - sp.1) % 256 / 4) = true
        then BitVec.ofNat 8 (f ((a - sp.1) % 256 / 4) / 2 ^ (32 * ((a - sp.1) / 256)) / 2 ^ (8 * ((a - sp.1) % 4))) else r0.byte a := by
    intro ks
    induction ks with
    | nil => intro r0; simp
    | cons k t ih =>
      intro r0
      rw [List.foldl_cons, ih, inner k _ _ (by simp)]
      have hm : (a - sp.1) % 256 / 4 ∈ List.range 64 := by rw [List.mem_range]; omega
      by_cases h1 : sp.1 ≤ a ∧ (a - sp.1) / 256 ∈ t ∧ (a - sp.1) / 4 * 4 + 4 ≤ sp.2 ∧ mask.getLsbD ((a - sp.1) % 256 / 4) = true
      · rw [if_pos h1, if_pos ⟨h1.1, by simp [h1.2.1], h1.2.2⟩]
      · rw [if_neg h1]
        by_cases h2 : sp.1 ≤ a ∧ (a - sp.1) / 256 = k ∧ (a - sp.1) / 4 * 4 + 4 ≤ sp.2 ∧ mask.getLsbD ((a - sp.1) % 256 / 4) = true
        · rw [if_pos ⟨h2.1, h2.2.1, h2.2.2.1, h2.2.2.2, hm⟩, if_pos ⟨h2.1, by simp [h2.2.1], h2.2.2⟩]
        · rw [if_neg (fun c => h2 ⟨c.1, c.2.1, c.2.2.1, c.2.2.2.1⟩), if_neg]
          rintro ⟨g1, g2, g3⟩
          rw [List.mem_cons] at g2
          rcases g2 with g2 | g2
          · exact h2 ⟨g1, g2, g3⟩
          · exact h1 ⟨g1, g2, g3⟩
  rw [outer]
  simp only [List.mem_range, Bool.and_eq_true, decide_eq_true_eq, and_assoc]

/-! Predicates -/

theorem setPr_eq (g : Group) (p : BitVec 3) (m v : W64) :
    g.setPr p m v = { g with ln := { g.ln with p := (g.setPr p m v).ln.p } } := by
  unfold Group.setPr; split <;> rfl
theorem pr_setPr_other (g : Group) (p q : BitVec 3) (m v : W64) (h : q ≠ p) : (g.setPr p m v).pr q = g.pr q := by
  have : p.toNat ≠ q.toNat := fun e => h (BitVec.eq_of_toNat_eq e).symm
  unfold Group.setPr Group.pr
  split
  · split
    · simp [this]
    · rfl
  · rfl
theorem toNat_lt_seven (p : BitVec 3) (h : p ≠ 7) : p.toNat < 7 := by
  have := p.isLt
  have : p.toNat ≠ 7 := fun e => h (BitVec.eq_of_toNat_eq e)
  omega
theorem pr_setPr_same (g : Group) (p : BitVec 3) (m v : W64) (h : p ≠ 7) :
    (g.setPr p m v).pr p = (g.pr p &&& ~~~m) ||| (v &&& m) := by
  have h7 := toNat_lt_seven p h
  simp [Group.setPr, Group.pr, h7]
theorem pr_setPrAll_same (g : Group) (p : BitVec 3) (b : Bool) (h : p ≠ 7) :
    (g.setPrAll p b).pr p = if b then BitVec.allOnes 64 else 0 := by
  rw [Group.setPrAll, pr_setPr_same _ _ _ _ h]
  cases b <;> simp
theorem pr_setPrAll_other (g : Group) (p q : BitVec 3) (b : Bool) (h : q ≠ p) : (g.setPrAll p b).pr q = g.pr q :=
  pr_setPr_other g p q _ _ h
theorem setPrAll_eq (g : Group) (p : BitVec 3) (b : Bool) :
    g.setPrAll p b = { g with ln := { g.ln with p := (g.setPrAll p b).ln.p } } := setPr_eq g p _ _

/-! Pops -/

theorem popQ_eq (g : Group) (o : Opnd) :
    g.popQ o = { g with q := (g.popQ o).q, ln := { g.ln with p := (g.popQ o).ln.p } } := by
  unfold Group.popQ
  cases o <;> try rfl
  rename_i i p
  dsimp only
  split
  · rw [setPrAll_eq]
  · rw [setPrAll_eq]
theorem popAll_eq (g : Group) (l : List (Opnd × Nat)) :
    g.popAll l = { g with q := (g.popAll l).q, ln := { g.ln with p := (g.popAll l).ln.p } } := by
  induction l generalizing g with
  | nil => rfl
  | cons o t ih =>
    have := ih (g.popQ o.1)
    simp only [Group.popAll, List.foldl_cons] at *
    rw [this, popQ_eq g o.1]
theorem popAll_cons (g : Group) (o : Opnd × Nat) (t : List (Opnd × Nat)) : g.popAll (o :: t) = (g.popQ o.1).popAll t := rfl

theorem pr_popQ (g : Group) (o : Opnd) (p : BitVec 3) (h : o.names p = false) : (g.popQ o).pr p = g.pr p := by
  unfold Group.popQ
  cases o <;> try rfl
  rename_i i k
  have hk : p ≠ k := by intro e; subst e; simp [Opnd.names] at h
  dsimp only
  split <;> rw [pr_setPrAll_other _ _ _ _ hk]
  rfl
theorem pr_popAll (g : Group) (l : List (Opnd × Nat)) (p : BitVec 3) (h : ∀ o ∈ l, o.1.names p = false) :
    (g.popAll l).pr p = g.pr p := by
  induction l generalizing g with
  | nil => rfl
  | cons o t ih =>
    rw [popAll_cons, ih _ (fun x hx => h x (List.mem_cons_of_mem _ hx)), pr_popQ _ _ _ (h o (List.mem_cons_self ..))]

theorem getD_vset {α : Type} {n : Nat} (v : Vector α n) (i k : Nat) (x d : α) (hi : i < n) :
    (vset v i x).getD k d = if k = i then x else v.getD k d := by
  unfold vset
  by_cases hk : k < n
  · by_cases h : k = i
    · subst h; simp [Vector.getD, hk]
    · have : ¬ i = k := fun e => h e.symm
      simp [Vector.getD, hk, h, this]
  · have : k ≠ i := by omega
    simp [Vector.getD, Array.getD, hk, this]

/-- The number of entries that one operand pops of a queue, if it holds one. -/
theorem q_popQ (g : Group) (o : Opnd × Nat) (q : BitVec 3) :
    (g.popQ o.1).q.getD q.toNat [] = (g.q.getD q.toNat []).drop (popsOf [o] q) := by
  obtain ⟨o, n⟩ := o
  have cut : ∀ i : BitVec 3, (vset g.q i.toNat ((g.q.getD i.toNat []).drop 1)).getD q.toNat [] =
      (g.q.getD q.toNat []).drop (if i == q then 1 else 0) := by
    intro i
    rw [getD_vset _ _ _ _ _ i.isLt]
    by_cases h : q = i
    · subst h; simp
    · have h1 : ¬ q.toNat = i.toNat := fun e => h (BitVec.eq_of_toNat_eq e)
      have h2 : (i == q) = false := by simp; exact fun e => h e.symm
      rw [if_neg h1, h2]; simp
  have e : ∀ i : BitVec 3, popsOf [(Opnd.q i, n)] q = if i == q then 1 else 0 := by
    intro i; by_cases h : i == q <;> simp [popsOf, h]
  have e2 : ∀ i p : BitVec 3, popsOf [(Opnd.qp i p, n)] q = if i == q then 1 else 0 := by
    intro i p; by_cases h : i == q <;> simp [popsOf, h]
  cases o <;> try rfl
  · rw [e]; exact cut _
  · rename_i i p
    rw [e2, ← cut]
    unfold Group.popQ
    dsimp only
    split
    · rename_i h
      rw [setPrAll_eq, cut]
      dsimp only
      by_cases hq : i = q
      · subst hq; rw [h]; simp
      · have : (i == q) = false := by simpa using hq
        simp [this]
    · rw [setPrAll_eq]
theorem popsOf_cons (o : Opnd × Nat) (t : List (Opnd × Nat)) (q : BitVec 3) :
    popsOf (o :: t) q = popsOf [o] q + popsOf t q := by
  rw [popsOf, popsOf, popsOf, ← List.length_append, ← List.filter_append]; rfl
theorem q_popAll (g : Group) (l : List (Opnd × Nat)) (q : BitVec 3) :
    (g.popAll l).q.getD q.toNat [] = (g.q.getD q.toNat []).drop (popsOf l q) := by
  induction l generalizing g with
  | nil => rfl
  | cons o t ih => rw [popAll_cons, ih, q_popQ, List.drop_drop, popsOf_cons o t]

theorem popQ_plain (g : Group) (o : Opnd) (h : o.isQueue = false) : g.popQ o = g := by
  cases o <;> first | rfl | simp [Opnd.isQueue] at h
/-- Only the queue operands of a list pop. -/
theorem popAll_filter (g : Group) (l : List (Opnd × Nat)) : g.popAll l = g.popAll (l.filter (fun o => o.1.isQueue)) := by
  induction l generalizing g with
  | nil => rfl
  | cons o t ih =>
    rw [popAll_cons, List.filter_cons]
    split
    · rw [popAll_cons, ih]
    · rename_i h; rw [popQ_plain _ _ (by simpa using h), ih]
theorem pr_popAll_one (g : Group) (l : List (Opnd × Nat)) (i p : BitVec 3) (n : Nat) (hp : p ≠ 7)
    (h : l.filter (fun o => o.1.isQueue) = [(.qp i p, n)]) :
    (g.popAll l).pr p = if g.q.getD i.toNat [] = [] then 0 else BitVec.allOnes 64 := by
  rw [popAll_filter, h, popAll_cons]
  simp only [Group.popAll, List.foldl_nil, Group.popQ]
  split <;> rw [pr_setPrAll_same _ _ _ hp] <;> simp

/-! Destinations -/

theorem pushY_eq (g : Group) (o : Opnd) (v : W64) :
    g.pushY o v = { g with y := (g.pushY o v).y, ln := { g.ln with p := (g.pushY o v).ln.p } } := by
  unfold Group.pushY
  cases o <;> try rfl
  · dsimp only; split <;> rfl
  · dsimp only
    split <;> rw [setPrAll_eq]

theorem y_pushY (g : Group) (o : Opnd) (v : W64) (i : BitVec 2) :
    (g.pushY o v).y.getD i.toNat [] = if pushOf o = some i ∧ (g.y.getD i.toNat []).length < 16
      then g.y.getD i.toNat [] ++ [v] else g.y.getD i.toNat [] := by
  have put : ∀ k : BitVec 2, (if decide ((g.y.getD k.toNat []).length < 16) then
      ({ g with y := vset g.y k.toNat (g.y.getD k.toNat [] ++ [v]) } : Group) else g).y.getD i.toNat [] =
      if k = i ∧ (g.y.getD i.toNat []).length < 16 then g.y.getD i.toNat [] ++ [v] else g.y.getD i.toNat [] := by
    intro k
    split
    · rename_i h
      simp only [decide_eq_true_eq] at h
      rw [getD_vset _ _ _ _ _ k.isLt]
      by_cases e : k = i
      · subst e; simp [h]
      · have : ¬ i.toNat = k.toNat := fun c => e (BitVec.eq_of_toNat_eq c).symm
        simp [e, this]
    · rename_i h
      simp only [decide_eq_true_eq] at h
      by_cases e : k = i
      · subst e; simp [h]
      · simp [e]
  unfold Group.pushY
  cases o <;> try (simp [pushOf]; done)
  · rename_i k
    dsimp only [pushOf]
    simp only [Option.some.injEq]
    exact put k
  · rename_i k p
    dsimp only [pushOf]
    simp only [Option.some.injEq]
    rw [← put k]
    split <;> rw [setPrAll_eq]
theorem pr_pushY_other (g : Group) (o : Opnd) (v : W64) (p : BitVec 3) (h : o.names p = false) :
    (g.pushY o v).pr p = g.pr p := by
  unfold Group.pushY
  cases o <;> try rfl
  · dsimp only; split <;> rfl
  · rename_i k q
    have hq : p ≠ q := by intro e; subst e; simp [Opnd.names] at h
    dsimp only
    split <;> rw [pr_setPrAll_other _ _ _ _ hq]
    rfl
theorem pr_pushY_same (g : Group) (i : BitVec 2) (p : BitVec 3) (v : W64) (hp : p ≠ 7) :
    (g.pushY (.yp i p) v).pr p = if (g.y.getD i.toNat []).length < 16 then BitVec.allOnes 64 else 0 := by
  unfold Group.pushY
  dsimp only
  by_cases h : (g.y.getD i.toNat []).length < 16
  · rw [if_pos (by simpa using h), pr_setPrAll_same _ _ _ hp, if_pos h]; rfl
  · rw [if_neg (by simpa using h), pr_setPrAll_same _ _ _ hp, if_neg h]; rfl

theorem putOpnd_eq (g : Group) (o : Opnd) (m : W64) (f : Nat → Nat) (n : Nat) :
    g.putOpnd o m f n =
      { g with rg := { g.rg with rows := (g.putOpnd o m f n).rg.rows, bad := (g.putOpnd o m f n).rg.bad } } := by
  unfold Group.putOpnd
  split
  · rfl
  · cases o <;> try rfl
    · exact putVec_eq ..
    · dsimp only; rw [(putSpan_spec ..).1]
    · dsimp only; rw [(putSpan_spec ..).1]

theorem bad_putOpnd (g : Group) (o : Opnd) (m : W64) (f : Nat → Nat) (n : Nat) :
    ∀ x ∈ (g.putOpnd o m f n).rg.bad, x ∈ g.rg.bad := by
  unfold Group.putOpnd
  split
  · exact fun _ h => h
  · cases o <;> try exact fun _ h => h
    · exact fun x h => bad_putVec _ _ _ _ _ x h
    · exact fun x h => (putSpan_spec ..).2.1 x h
    · exact fun x h => (putSpan_spec ..).2.1 x h

/-- A register destination holds the words of the threads that write. -/
theorem putOpnd_spec (g : Group) (d : Opnd) (m : W64) (f : Nat → Nat) (n : Nat) :
    (∀ v : BitVec 10, d = .vec v →
      (∀ k, k < n → ∀ j, j < 64 → vword ((g.putOpnd d m f n).rg.row (g.rg.vrow (v.toNat + k))) j =
        if m.getLsbD j then BitVec.ofNat 32 (f j / 2 ^ (32 * k)) else vword (g.rg.row (g.rg.vrow (v.toNat + k))) j) ∧
      ∀ r, (∀ k, k < n → r ≠ g.rg.vrow (v.toNat + k)) → (g.putOpnd d m f n).rg.row r = g.rg.row r) ∧
    (∀ sp, spanOf g.rg d = some sp → ∀ a, (g.putOpnd d m f n).rg.byte a = if spanByte sp n m a then spanVal f (a - sp.1) else g.rg.byte a) ∧
    ((∀ v, d ≠ .vec v) → spanOf g.rg d = none → (g.putOpnd d m f n).rg.rows = g.rg.rows) := by
  by_cases hm : m = 0
  · subst hm
    refine ⟨fun v h => ⟨fun k hk j hj => ?_, fun r hr => ?_⟩, fun sp h a => ?_, fun _ _ => ?_⟩ <;> simp [Group.putOpnd, spanByte]
  · refine ⟨fun v h => ?_, fun sp h a => ?_, fun h1 h2 => ?_⟩
    · subst h
      simp only [Group.putOpnd, hm, if_false]
      exact ⟨fun k hk j hj => vword_putVec g _ _ _ _ k j hk hj, fun r hr => row_putVec g _ _ _ _ r hr⟩
    · cases d <;> simp only [spanOf, Option.some.injEq, reduceCtorEq] at h <;> subst h <;> simp only [Group.putOpnd, hm, if_false]
      · exact byte_putSpan ..
      · exact byte_putSpan ..
    · cases d <;> simp [spanOf] at h1 h2 <;> simp [Group.putOpnd]

/-! The whole effect -/

theorem pr_countRs (g : Group) (e : W64) (p : BitVec 3) : (g.countRs e).pr p = g.pr p := by
  simp only [Group.pr, Group.countRs]
theorem rs_countRs (g : Group) (e : W64) (j : Fin 64) :
    (g.countRs e).ln.rs[j] = if e.getLsbD j then g.ln.rs[j] + 1 else g.ln.rs[j] := by
  by_cases h : e.getLsbD j.val = true <;> simp [Group.countRs, bitOf, h]
theorem names_of_plain (d : Opnd) (p : BitVec 3) (h : d.isQueue = false) : d.names p = false := by
  cases d <;> first | rfl | simp [Opnd.isQueue] at h
theorem countRs_eq (g : Group) (e : W64) :
    g.countRs e = { g with ln := { g.ln with rs := (g.countRs e).ln.rs } } := by simp only [Group.countRs]

/-- The destination as the effect writes it, after the pops. -/
def LaneOp.dest (o : LaneOp) (g : Group) (x : Sel) (val : Nat → Nat) : Group :=
  match o.d with
  | .y _ | .yp _ _ => g.pushY o.d (BitVec.ofNat 64 (val 0))
  | d => g.putOpnd d x.write val o.dn
/-- The predicate as the effect writes it. -/
def LaneOp.pred (o : LaneOp) (g : Group) (x : Sel) (b : Nat → Bool) : Group :=
  match o.pd with
  | some p => if x.write = 0 then g else g.setPr p x.write (predMask (fun j => bitOf x.write j && b j))
  | none => g

/-- What pushing leaves. -/
theorem push_spec (g g1 : Group) (d : Opnd) (n : Nat) (x : Sel) (val : Nat → Nat) (hv : ∀ v, d ≠ .vec v)
    (hs : spanOf g.rg d = none) (hy : g1.y = g.y) (hrg : g1.rg = g.rg) :
    DestHolds g (g1.pushY d (BitVec.ofNat 64 (val 0))) d n x val := by
  refine ⟨fun v h => absurd h (hv v), fun sp h => ?_, fun _ _ => ?_, ?_, fun w h => ?_, fun i => ?_⟩
  · rw [hs] at h; cases h
  · rw [pushY_eq]; dsimp only; rw [hrg]
  · rw [pushY_eq]; dsimp only; rw [hrg]
  · rw [pushY_eq] at h; dsimp only at h; rwa [hrg] at h
  · rw [y_pushY, hy]
/-- What writing a register leaves. -/
theorem put_spec (g g1 : Group) (d : Opnd) (n : Nat) (x : Sel) (val : Nat → Nat) (hd : pushOf d = none) (hy : g1.y = g.y)
    (hrg : g1.rg = g.rg) : DestHolds g (g1.putOpnd d x.write val n) d n x val := by
  have hs := putOpnd_spec g1 d x.write val n
  rw [hrg] at hs
  refine ⟨hs.1, hs.2.1, hs.2.2, ?_, fun w h => hrg ▸ bad_putOpnd _ _ _ _ _ w h, fun i => ?_⟩
  · rw [putOpnd_eq]; dsimp only; rw [hrg]
  · rw [putOpnd_eq, hd]; dsimp only; rw [hy]; simp

theorem dest_spec (o : LaneOp) (g g1 : Group) (x : Sel) (val : Nat → Nat) (hy : g1.y = g.y) (hrg : g1.rg = g.rg) :
    DestHolds g (o.dest g1 x val) o.d o.dn x val := by
  unfold LaneOp.dest
  cases o.d with
  | y i => exact push_spec g g1 (.y i) _ x val (by simp) rfl hy hrg
  | yp i p => exact push_spec g g1 (.yp i p) _ x val (by simp) rfl hy hrg
  | q i => exact put_spec g g1 (.q i) _ x val rfl hy hrg
  | qp i p => exact put_spec g g1 (.qp i p) _ x val rfl hy hrg
  | vec i => exact put_spec g g1 (.vec i) _ x val rfl hy hrg
  | tile i => exact put_spec g g1 (.tile i) _ x val rfl hy hrg
  | acc i => exact put_spec g g1 (.acc i) _ x val rfl hy hrg
  | zero => exact put_spec g g1 .zero _ x val rfl hy hrg
  | vlane => exact put_spec g g1 .vlane _ x val rfl hy hrg
  | lane => exact put_spec g g1 .lane _ x val rfl hy hrg
  | gidx => exact put_spec g g1 .gidx _ x val rfl hy hrg
  | const k => exact put_spec g g1 (.const k) _ x val rfl hy hrg

theorem pr_putOpnd (g : Group) (d : Opnd) (m : W64) (f : Nat → Nat) (n : Nat) (p : BitVec 3) : (g.putOpnd d m f n).pr p = g.pr p := by
  rw [putOpnd_eq]; simp only [Group.pr]
theorem dest_eq (o : LaneOp) (g : Group) (x : Sel) (val : Nat → Nat) :
    o.dest g x val = { g with rg := (o.dest g x val).rg, y := (o.dest g x val).y, ln := { g.ln with p := (o.dest g x val).ln.p } } := by
  unfold LaneOp.dest
  split
  · rw [pushY_eq]
  · rw [pushY_eq]
  · rw [putOpnd_eq]
theorem pr_dest (o : LaneOp) (g : Group) (x : Sel) (val : Nat → Nat) (p : BitVec 3) (h : o.d.names p = false) :
    (o.dest g x val).pr p = g.pr p := by
  unfold LaneOp.dest
  split
  · exact pr_pushY_other _ _ _ _ h
  · exact pr_pushY_other _ _ _ _ h
  · exact pr_putOpnd ..
theorem pr_dest_yp (o : LaneOp) (g : Group) (x : Sel) (val : Nat → Nat) (i : BitVec 2) (p : BitVec 3) (hp : p ≠ 7) (h : o.d = .yp i p) :
    (o.dest g x val).pr p = if (g.y.getD i.toNat []).length < 16 then BitVec.allOnes 64 else 0 := by
  unfold LaneOp.dest
  rw [h]
  dsimp only
  rw [pr_pushY_same _ _ _ _ hp]

theorem pred_eq (o : LaneOp) (g : Group) (x : Sel) (b : Nat → Bool) :
    o.pred g x b = { g with ln := { g.ln with p := (o.pred g x b).ln.p } } := by
  unfold LaneOp.pred
  split
  · split
    · rfl
    · rw [setPr_eq]
  · rfl
theorem pr_pred_other (o : LaneOp) (g : Group) (x : Sel) (b : Nat → Bool) (p : BitVec 3) (h : o.pd ≠ some p) :
    (o.pred g x b).pr p = g.pr p := by
  unfold LaneOp.pred
  split
  · rename_i k hk
    split
    · rfl
    · exact pr_setPr_other _ _ _ _ _ (by rintro rfl; exact h hk)
  · rfl
theorem pr_pred_same (o : LaneOp) (g : Group) (x : Sel) (b : Nat → Bool) (p : BitVec 3) (h : o.pd = some p) (h7 : p ≠ 7) (j : Nat)
    (hj : j < 64) : ((o.pred g x b).pr p).getLsbD j = if x.write.getLsbD j then b j else (g.pr p).getLsbD j := by
  unfold LaneOp.pred
  rw [h]
  dsimp only
  by_cases hw : x.write = 0
  · rw [if_pos hw, hw]; simp
  · rw [if_neg hw, pr_setPr_same _ _ _ _ h7]
    simp only [BitVec.getLsbD_or, BitVec.getLsbD_and, BitVec.getLsbD_not, hj, decide_true, Bool.true_and, getLsbD_predMask _ _ hj, bitOf]
    cases x.write.getLsbD j <;> simp

/-- The effect in three parts. -/
theorem effect_parts (o : LaneOp) (f : LaneFn) (g : Group) (seed : W64) :
    o.effect f g seed =
      let x := g.sel o.h
      let val := fun j => o.at f g seed (x.from o.h.uni j)
      let g3 := o.pred (o.dest (g.popAll o.src) x (fun j => (val j).1)) x (fun j => (val j).2)
      if o.rs then g3.countRs x.exec else g3 := by
  unfold LaneOp.effect LaneOp.dest LaneOp.pred
  cases o.d <;> cases o.pd <;> rfl

/-- What the shared run of a lane instruction does to its group. -/
theorem effect_spec (o : LaneOp) (f : LaneFn) (g : Group) (seed : W64) :
    let x := g.sel o.h
    let val := fun j => o.at f g seed (x.from o.h.uni j)
    let t := o.effect f g seed
    DestHolds g t o.d o.dn x (fun j => (val j).1) ∧ PredHolds g t o.d o.src o.pd x (fun j => (val j).2) ∧
    (∀ q : BitVec 3, t.q.getD q.toNat [] = (g.q.getD q.toNat []).drop (popsOf o.src q)) ∧
    (∀ j : Fin 64, t.ln.rs[j] = if o.rs && x.exec.getLsbD j then g.ln.rs[j] + 1 else g.ln.rs[j]) ∧
    t = { g with rg := t.rg, q := t.q, y := t.y, ln := { g.ln with p := t.ln.p, rs := t.ln.rs } } := by
  intro x val t
  have hpop := popAll_eq g o.src
  obtain ⟨g1, hg1⟩ : ∃ g1, g1 = g.popAll o.src := ⟨_, rfl⟩
  have hy : g1.y = g.y := by rw [hg1, hpop]
  have hrg : g1.rg = g.rg := by rw [hg1, hpop]
  obtain ⟨g2, hg2⟩ : ∃ g2, g2 = o.dest g1 x (fun j => (val j).1) := ⟨_, rfl⟩
  obtain ⟨g3, hg3⟩ : ∃ g3, g3 = o.pred g2 x (fun j => (val j).2) := ⟨_, rfl⟩
  have he2 : g2 = { g1 with rg := g2.rg, y := g2.y, ln := { g1.ln with p := g2.ln.p } } := by rw [hg2]; exact dest_eq ..
  have he3 : g3 = { g2 with ln := { g2.ln with p := g3.ln.p } } := by rw [hg3]; exact pred_eq ..
  have ht : t = if o.rs then g3.countRs x.exec else g3 := by
    simp only [t, effect_parts, hg3, hg2, hg1, x, val]
  have hty : t = { g3 with ln := { g3.ln with rs := t.ln.rs } } := by
    rw [ht]
    by_cases h : o.rs = true
    · rw [if_pos h]; exact countRs_eq ..
    · rw [if_neg h]
  have hpr : ∀ p, t.pr p = g3.pr p := fun p => by
    rw [ht]
    by_cases h : o.rs = true
    · rw [if_pos h]; exact pr_countRs ..
    · rw [if_neg h]
  have h3rg : t.rg = g2.rg := by rw [hty, he3]
  have h3y : t.y = g2.y := by rw [hty, he3]
  have h3q : t.q = g1.q := by rw [hty, he3, he2]
  refine ⟨?_, ⟨fun p h1 h2 h3 => ?_, fun p h1 h2 h3 h4 j hj => ?_, fun i p n h1 h2 h3 h4 => ?_, fun i p h1 h2 h3 => ?_⟩, fun q => ?_,
    fun j => ?_, ?_⟩
  · have hd := dest_spec o g g1 x (fun j => (val j).1) hy hrg
    rw [← hg2] at hd
    unfold DestHolds at hd ⊢; rw [h3rg, h3y]; exact hd
  · rw [hpr, hg3, pr_pred_other _ _ _ _ _ h1, hg2, pr_dest _ _ _ _ _ h2, hg1, pr_popAll _ _ _ h3]
  · rw [hpr, hg3, pr_pred_same _ _ _ _ _ h1 h2 j hj, hg2, pr_dest _ _ _ _ _ h3, hg1, pr_popAll _ _ _ h4]
  · have hn := names_of_plain o.d p h3
    rw [hpr, hg3, pr_pred_other _ _ _ _ _ h1, hg2, pr_dest _ _ _ _ _ hn, hg1, pr_popAll_one _ _ _ _ _ h2 h4]
  · rw [hpr, hg3, pr_pred_other _ _ _ _ _ h1, hg2, pr_dest_yp _ _ _ _ _ _ h2 h3, hy]
  · rw [h3q, hg1, q_popAll]
  · have : g3.ln.rs = g.ln.rs := by rw [he3, he2, hg1, hpop]
    rw [ht]
    by_cases h : o.rs = true
    · rw [if_pos h, rs_countRs, this, h, Bool.true_and]
    · rw [if_neg h, this]; simp only [h, Bool.false_and, Bool.false_eq_true, if_false]
  · rw [hty, he3, he2, hg1, hpop]

/-- The run of a lane instruction on a group that nothing holds back. -/
theorem laneAlu_result (i : Instr) (o : LaneOp) (f : LaneFn) (s : State) (hi : exec i s = laneAlu i o f s) (h1 : o.h.never = false)
    (h2 : o.stop s.cur.settle = none) : LaneResult i o f s := by
  unfold LaneResult
  intro g x val
  refine ⟨s.setCur (o.effect f g (s.seedOf g)).lpc1, ?_, ?_⟩
  · rw [hi, laneAlu, if_neg (by rw [h1]; exact Bool.false_ne_true)]
    dsimp only
    rw [h2]
  · have h := effect_spec o f g (s.seedOf g)
    obtain ⟨e, he⟩ : ∃ e, e = o.effect f g (s.seedOf g) := ⟨_, rfl⟩
    rw [← he] at h ⊢
    simp only [State.cur_setCur]
    refine ⟨h.1, h.2.1, h.2.2.1, h.2.2.2.1, ?_⟩
    have h5 := h.2.2.2.2
    congr 1
    rw [Group.lpc1]
    rw [h5]
theorem laneAlu_does (i : Instr) (o : LaneOp) (f : LaneFn) (hi : ∀ s, exec i s = laneAlu i o f s) : LaneDoes i o f :=
  fun s h1 h2 => laneAlu_result i o f s (hi s) h1 h2

/-- The result may be written in another way that agrees on lists as long as the sources. -/
theorem laneDoes_congr {i : Instr} {o : LaneOp} {f f' : LaneFn} (h : LaneDoes i o f)
    (e : ∀ g seed j vs, vs.length = o.src.length → f g seed j vs = f' g seed j vs) : LaneDoes i o f' := by
  have : ∀ (g : Group) (seed : W64) (u : Nat), f g seed u (o.src.map (fun p => g.srcVal p.1 p.2 u)) =
      f' g seed u (o.src.map (fun p => g.srcVal p.1 p.2 u)) := fun g seed u => e g seed u _ (List.length_map ..)
  intro s h1 h2
  have h3 := h s h1 h2
  simp only [LaneResult, this] at h3
  exact h3

/-! Results that wait (R248) -/

/-- The result as it enters its queue. -/
def LaneOp.queued (o : LaneOp) (x : Sel) (val : Nat → Nat) : Queued :=
  let isY := o.d.isQueue
  let mask := if isY then x.exec else x.write
  let word := fun (k j : Nat) =>
    if isY then (if j = 0 then BitVec.ofNat 32 (val 0 / 2 ^ (32 * k)) else 0)
    else if bitOf mask j then BitVec.ofNat 32 (val j / 2 ^ (32 * k)) else 0
  { d := o.d, w64 := o.dn == 2, uni := o.h.uni, mask := mask, lo := vbuild (word 0), hi := if o.dn = 2 then vbuild (word 1) else 0 }

/-- The same for a result that waits. -/
theorem laneQueues_congr {conv : Bool} {i : Instr} {o : LaneOp} {f f' : LaneFn} {ok : Group → Prop} (h : LaneQueues conv i o f ok)
    (e : ∀ g seed j vs, vs.length = o.src.length → f g seed j vs = f' g seed j vs) : LaneQueues conv i o f' ok := by
  have : ∀ (g : Group) (seed : W64) (u : Nat), f g seed u (o.src.map (fun p => g.srcVal p.1 p.2 u)) =
      f' g seed u (o.src.map (fun p => g.srcVal p.1 p.2 u)) := fun g seed u => e g seed u _ (List.length_map ..)
  intro s h1 h2 h3
  have h4 := h s h1 h2 h3
  simp only [this] at h4
  exact h4

/-- The run of an instruction of the SFU or the conversion queue on a group that nothing holds back. -/
theorem laneQueued_does (conv : Bool) (i : Instr) (o : LaneOp) (f : LaneFn) (ok : Group → Prop)
    (hi : ∀ s : State, o.h.never = false → o.stop (s.cur.roomFor conv o.ops) = none → ok (s.cur.roomFor conv o.ops) →
      exec i s = laneQueued conv i o f s) : LaneQueues conv i o f ok := by
  intro s h1 h2 h3 g x val
  have hpop := popAll_eq g o.src
  obtain ⟨g1, hg1⟩ : ∃ g1, g1 = g.popAll o.src := ⟨_, rfl⟩
  obtain ⟨r, hr⟩ : ∃ r, r = o.queued x val := ⟨_, rfl⟩
  obtain ⟨g2, hg2⟩ : ∃ g2 : Group, g2 = { g1 with ln := { g1.ln with
      cvtQ := if conv then g1.ln.cvtQ ++ [r] else g1.ln.cvtQ, sfuQ := if conv then g1.ln.sfuQ else g1.ln.sfuQ ++ [r] } } := ⟨_, rfl⟩
  obtain ⟨g3, hg3⟩ : ∃ g3, g3 = if o.rs then g2.countRs x.exec else g2 := ⟨_, rfl⟩
  have he3 : g3 = { g2 with ln := { g2.ln with rs := g3.ln.rs } } := by
    rw [hg3]
    by_cases h : o.rs = true
    · rw [if_pos h]; exact countRs_eq ..
    · rw [if_neg h]
  have he : o.enqueue conv f g (s.seedOf g) = g3 := by
    rw [hg3, hg2, hr, hg1]
    unfold LaneOp.enqueue LaneOp.queued
    cases conv <;> rfl
  refine ⟨s.setCur g3.lpc1, r, ?_, ?_⟩
  · rw [hi s h1 h2 h3, laneQueued, if_neg (by rw [h1]; exact Bool.false_ne_true)]
    dsimp only
    rw [h2]
    dsimp only
    rw [he]
  · rw [State.cur_setCur]
    refine ⟨by rw [hr]; rfl, by rw [hr]; rfl, by rw [hr]; rfl, fun j hj hq hw => ?_, fun hq => ?_, fun q => ?_, fun j => ?_, fun p hp => ?_, ?_⟩
    · subst hr
      refine ⟨?_, fun hn => ?_⟩
      · simp only [LaneOp.queued, vword_vbuild _ _ hj, hq, bitOf, hw, Bool.false_eq_true, if_false, if_true, Nat.mul_zero, Nat.pow_zero,
          Nat.div_one]
      · simp only [LaneOp.queued, hn, if_true, vword_vbuild _ _ hj, hq, bitOf, hw, Bool.false_eq_true, if_false, Nat.mul_one]
    · subst hr
      simp only [LaneOp.queued, vword_vbuild _ _ (show 0 < 64 by omega), hq, if_true, Nat.mul_zero,
        Nat.pow_zero, Nat.div_one]
    · rw [Group.lpc1, he3, hg2]; dsimp only; rw [hg1, q_popAll]
    · have h2rs : g2.ln.rs = g.ln.rs := by rw [hg2, hg1, hpop]
      rw [Group.lpc1, hg3]; dsimp only
      by_cases h : o.rs = true
      · rw [if_pos h, rs_countRs, h2rs, h, Bool.true_and]
      · rw [if_neg h, h2rs]; simp only [h, Bool.false_and, Bool.false_eq_true, if_false]
    · have : g3.lpc1.pr p = g1.pr p := by
        rw [Group.lpc1, he3, hg2]; simp only [Group.pr]
      rw [this, hg1, pr_popAll _ _ _ hp]
    · congr 1
      rw [Group.lpc1, he3, hg2, hg1, hpop]

end Sys2Proof.Machine
end

