-- ==== Sys2Proof/Laws/Access.lean ====
section
/-! SUPPORT. What the shared accesses do: a computation in steps, an access through a window that serves it, a read and a write of
resolved bytes. -/

namespace Sys2Proof.Machine

/-! Computations in steps -/

theorem run_bind {α β : Type} (m : Acc α) (f : α → Acc β) (s : State) :
    (m >>= f).run s = match m.run s with | .ok a s' => (f a).run s' | .error e s' => .error e s' := by
  simp only [EStateM.run, bind, EStateM.bind]; cases m s <;> rfl
theorem run_pure {α : Type} (a : α) (s : State) : (pure a : Acc α).run s = .ok a s := rfl
theorem run_get (s : State) : (get : Acc State).run s = .ok s s := rfl
theorem run_set (t s : State) : (set t : Acc PUnit).run s = .ok ⟨⟩ t := rfl
theorem run_modify (f : State → State) (s : State) : (modify f : Acc PUnit).run s = .ok ⟨⟩ (f s) := rfl
theorem run_throw {α : Type} (e : Stop) (s : State) : (throw e : Acc α).run s = .error e s := rfl
theorem run_getCur (s : State) : getCur.run s = .ok s.cur s := rfl
theorem run_curAgent (s : State) : curAgent.run s = .ok (groupAgent s.curG s.cur) s := rfl
theorem run_modifyCur (f : Group → Group) (s : State) : (modifyCur f).run s = .ok ⟨⟩ (s.setCur (f s.cur)) := rfl
theorem run_attempt {α : Type} (m : Acc α) (s : State) :
    (attempt m).run s = match m.run s with | .ok a s' => .ok (.ok a) s' | .error e s' => .ok (.error e) s' := rfl
theorem run_wholly {α : Type} (m : Acc α) (s : State) :
    (wholly m).run s = match m.run s with | .ok a s' => .ok a s' | .error e s' => .error e (s.noted s') := rfl

/-! Accesses through a window -/

theorem windowAccess_hit {s : State} {w : BitVec 3} {o n a : Nat} {k : AKind} (h : WindowHit s w o n k a) :
    (windowAccess s.curG w o k).run s = .ok a s := by
  obtain ⟨h1, h2, h3, _, h5, h6⟩ := h
  have e : s.group s.curG = s.cur := rfl
  have ew : s.window s.curG w = s.cur.win.getD w.toNat {} := rfl
  unfold windowAccess
  simp only [run_bind, run_get, e, ew, h1, Bool.false_eq_true, if_false, run_pure, h2, h3, and_self, if_true, ← h5, admitNode, h6]

theorem windowOne_hit {s : State} {w : BitVec 3} {o n a : Nat} {k : AKind} (h : WindowHit s w o n k a) :
    (windowOne w o n k).run s = .ok ((List.range n).map (a + ·)) s := by
  have hp := windowAccess_hit h
  obtain ⟨_, _, _, h4, _, _⟩ := h
  have hroom : n ≤ 0x10000 - (s.cur.winVa w o).toNat % 0x10000 := by
    have : s.cur.winVa w o = (s.cur.win.getD w.toNat {}).base + BitVec.ofNat 64 o := rfl
    rw [this]; omega
  unfold windowOne resolveAll
  simp only [run_bind, run_get, resolveList, resolveOne, resolvePart, List.any_nil, Bool.false_eq_true, if_false, run_attempt, hp, run_pure,
    hroom, if_true, List.find?_nil, Option.getD_some]
  rfl

theorem readAddrs_run {s : State} {ag : Agent} {va : W64} {a n : Nat} (hn : 0 < n) :
    (readAddrs ag va ((List.range n).map (a + ·))).run s = (physRead ag va a n).run s := by
  obtain ⟨m, rfl⟩ : ∃ m, n = m + 1 := ⟨n - 1, by omega⟩
  have e : (List.range (m + 1)).map (a + ·) = a :: (List.range m).map (fun i => a + (i + 1)) := by
    rw [List.range_succ_eq_map]; simp [Function.comp_def]
  rw [e]
  unfold readAddrs
  have k : ((List.range (a :: (List.range m).map (fun i => a + (i + 1))).length).filter
      (fun i => (a :: (List.range m).map (fun i => a + (i + 1))).getD i 0 = a + i)).length = m + 1 := by
    rw [List.filter_eq_self.2]
    · simp
    · intro i hi
      simp at hi
      cases i with
      | zero => simp
      | succ i => simp at *; rw [List.getElem?_range (by omega)]; simp
  simp only [List.length_cons, List.length_map, List.length_range] at k ⊢
  rw [k, if_pos rfl]

theorem readAt_hit {s : State} {va : W64} {a n : Nat} (hn : 0 < n) (h : Readable s a n) :
    (readAt va ((List.range n).map (a + ·))).run s = .ok (peek s.mem a n) s := by
  obtain ⟨h1, h2, h3, h4⟩ := h
  unfold readAt
  rw [run_bind, run_curAgent]
  dsimp only
  rw [readAddrs_run hn]
  unfold physRead
  rw [run_bind, run_get]
  dsimp only
  rw [if_neg (by simp [h1]), if_pos h2, h4]
  simp only [h3, Bool.false_eq_true, if_false, run_pure]

theorem sizeBytes_pos (z : Size) : 0 < sizeBytes z := by cases z <;> decide

theorem peek_lt (m : Sparse 8) (a n : Nat) : peek m a n < 256 ^ n := by
  induction n generalizing a with
  | zero => simp [peek]
  | succ n ih => have := ih (a + 1); have := (Sparse.get m a).isLt; simp only [peek, Nat.pow_succ]; omega

/-! Writes -/

theorem natToBytes_length (n v : Nat) : (natToBytes n v).length = n := length_natToBytes n v
/-- The bytes of a number read back as the number. -/
theorem peek_pokeBytes (m : Sparse 8) (a n v : Nat) : peek (pokeBytes m a (natToBytes n v)) a n = v % 256 ^ n := by
  induction n generalizing m a v with
  | zero => simp [peek, Nat.mod_one]
  | succ n ih =>
    have hb : ∀ m : Sparse 8, Sparse.get (pokeBytes m a (natToBytes (n + 1) v)) a = BitVec.ofNat 8 v := by
      intro m
      rw [get_pokeBytes, dif_pos ⟨Nat.le_refl a, by rw [natToBytes_length]; omega⟩]
      simp [natToBytes]
    have e : v % 256 ^ (n + 1) = v % 256 + 256 * (v / 256 % 256 ^ n) := by rw [Nat.pow_succ, Nat.mul_comm, Nat.mod_mul]
    rw [peek, hb m, natToBytes, pokeBytes, ih, BitVec.toNat_ofNat, e]
/-- Records related one by one stay related where they are looked up. -/
theorem Tab.get_map {α : Type} (R : α → α → Prop) (d : α) (t : Tab α) (f : Nat × α → Nat × α) (hk : ∀ p, (f p).1 = p.1)
    (hd : R d d) (hf : ∀ p, R (f p).2 p.2) (k : Nat) : R (Tab.get d (t.map f) k) (Tab.get d t k) := by
  induction t with
  | nil => exact hd
  | cons p t ih =>
    obtain ⟨j, v⟩ := p
    have e : f (j, v) = (j, (f (j, v)).2) := Prod.ext (hk (j, v)) rfl
    rw [List.map_cons, e]
    simp only [Tab.get]
    by_cases h : k = j
    · subst h; simpa using hf (k, v)
    · by_cases h2 : k < j
      · simpa [h, h2] using hd
      · simpa [h, h2] using ih
/-- A write fires monitors and does nothing else to the groups. -/
theorem fireMonitors_get (gs : Tab Group) (pa n k : Nat) :
    Tab.get {} (fireMonitors gs pa n) k = { Tab.get {} gs k with fired := (Tab.get {} (fireMonitors gs pa n) k).fired } := by
  unfold fireMonitors
  dsimp only
  split
  · refine Tab.get_map (fun x y => x = { y with fired := x.fired }) {} gs _ (fun p => ?_) rfl (fun p => ?_) k
    · split <;> rfl
    · split <;> rfl
  · rfl

theorem write_group (s : State) (pa : Nat) (l : List Byte) (g : Gid) :
    (s.write pa l).group g = { s.group g with fired := ((s.write pa l).group g).fired } := fireMonitors_get ..
theorem tagWrite_eq (s : State) (w : Option (BitVec 3 × W32 × W32)) (pa n : Nat) :
    s.tagWrite w pa n = { s with dtags := (s.tagWrite w pa n).dtags } := by
  unfold State.tagWrite
  split
  · rfl
  · dsimp only; split <;> rfl
/-- What a write by a group leaves. -/
theorem storedAt_write (s : State) (w : Option (BitVec 3 × W32 × W32)) (a : Nat) (l : List Byte) :
    StoredAt s ((s.write a l).tagWrite w a l.length) a l.length := by
  refine ⟨fun b hb => ?_, fun g => ?_, ?_⟩
  · rw [tagWrite_eq]; exact get_pokeBytes_outside _ _ _ _ hb
  · rw [tagWrite_eq]; exact write_group s a l g
  · rw [tagWrite_eq]; rfl
theorem writeAddrs_run {s : State} {ag : Agent} {a : Nat} {l : List Byte} (hl : 0 < l.length) :
    (writeAddrs ag ((List.range l.length).map (a + ·)) l).run s = (physWrite ag a l).run s := by
  obtain ⟨n, hn⟩ : ∃ n, n = l.length := ⟨_, rfl⟩
  rw [← hn] at hl ⊢
  obtain ⟨m, rfl⟩ : ∃ m, n = m + 1 := ⟨n - 1, by omega⟩
  have e : (List.range (m + 1)).map (a + ·) = a :: (List.range m).map (fun i => a + (i + 1)) := by
    rw [List.range_succ_eq_map]; simp [Function.comp_def]
  rw [e, writeAddrs]
  have k : ((List.range (a :: (List.range m).map (fun i => a + (i + 1))).length).filter
      (fun i => (a :: (List.range m).map (fun i => a + (i + 1))).getD i 0 = a + i)).length = m + 1 := by
    rw [List.filter_eq_self.2]
    · simp
    · intro i hi
      simp at hi
      cases i with
      | zero => simp
      | succ i => simp at *; rw [List.getElem?_range (by omega)]; simp
  simp only [List.length_cons, List.length_map, List.length_range] at k ⊢
  rw [k, run_bind, List.take_of_length_le (by omega)]
  simp only [Nat.lt_irrefl, if_false]
  cases (physWrite ag a l).run s <;> rfl
theorem physWrite_mem {s : State} {ag : Agent} {a : Nat} {l : List Byte} (h1 : paNode a = 0) (h2 : paRegion a < 2) :
    (physWrite ag a l).run s = .ok () ((s.write a l).tagWrite ag.who a l.length) := by
  unfold physWrite
  rw [if_neg (by simp [h1]), if_pos h2, run_modify]
theorem writeAt_run {s : State} {a : Nat} {l : List Byte} (hl : 0 < l.length) (h1 : paNode a = 0) (h2 : paRegion a < 2) :
    (writeAt ((List.range l.length).map (a + ·)) l).run s =
      .ok () ((s.write a l).tagWrite (groupAgent s.curG s.cur).who a l.length) := by
  unfold writeAt
  rw [run_bind, run_curAgent]
  dsimp only
  rw [writeAddrs_run hl, physWrite_mem h1 h2]
/-- The pc moves after a store as it would have before it. -/
theorem storedAt_setCur {s t : State} {a n : Nat} (f : Group → Group) (hf : ∀ g b, f { g with fired := b } = { f g with fired := b })
    (hc : t.curG = s.curG) (h : StoredAt s t a n) : StoredAt (s.setCur (f s.cur)) (t.setCur (f t.cur)) a n := by
  obtain ⟨h1, h2, h3⟩ := h
  refine ⟨h1, fun g => ?_, ?_⟩
  · by_cases hg : g = s.curG
    · subst hg
      have e : (t.setCur (f t.cur)).group s.curG = f t.cur := by rw [← hc]; exact State.cur_setCur ..
      have e2 : (s.setCur (f s.cur)).group s.curG = f s.cur := State.cur_setCur ..
      have e3 : t.cur = { s.cur with fired := t.cur.fired } := by
        have := h2 s.curG; rw [← hc] at this; unfold State.cur; rw [this, hc]
      rw [e, e2, e3, hf]
    · have e : (t.setCur (f t.cur)).group g = t.group g := by
        unfold State.setCur; rw [hc]; exact State.group_setGroup_other _ _ hg
      have e2 : (s.setCur (f s.cur)).group g = s.group g := by
        unfold State.setCur; exact State.group_setGroup_other _ _ hg
      rw [e, e2]; exact h2 g
  · unfold State.setCur State.setGroup; rw [h3]

end Sys2Proof.Machine
end

