-- ==== Sys2Proof/Tests/Slice0.lean ====
section
/-! SUPPORT. Small checks: words of the spec's encodings and what they decode to, the terms that WellFormed refuses, one step of a few
instructions, and for each statement with hypotheses a state and operands that meet them. -/

set_option Elab.async false

namespace Sys2Proof.Tests

open Sys2Proof Sys2Proof.Machine

/-- One live group in slot 0 of core 0, and nothing else. -/
def one (g : Group) : State := { State.reset with groups := [(0, g)] }
/-- Every scalar register holds v. -/
def regs (v : W64) : Group := { live := true, s := Vector.replicate 64 v }
/-- A trap of this group enters its handler. -/
def traps (s : State) : Bool := !s.cur.h.on && !s.isLogit s.cur.part s.cur.launch && s.cur.st != .exiting && (s.mxErrOf s.curG).isNone
theorem traps_enters (s : State) (h : traps s = true) : TrapEnters s := by
  simpa [TrapEnters, traps, and_assoc] using h

/-! Scalar instructions -/

theorem test_wit_division : (one (regs 0)).cur.sr 1 = 0 ∧ (one (regs 1)).cur.sr 1 ≠ 0 := by decide +kernel

/-- A field that ends at bit 63; one that ends behind it, a reserved bit of each kind. -/
theorem test_wit_bitFields : let pos := fun (v : W64) => ((one (regs v)).cur.sr 1).toNat % 64
    let len := fun (v : W64) => ((one (regs v)).cur.sr 1).toNat / 256 % 64 + 1
    let v := fun (v : W64) => ((one (regs v)).cur.sr 1).toNat
    (v 63 / 2 ^ 14 = 0 ∧ v 63 / 64 % 4 = 0 ∧ pos 63 + len 63 ≤ 64) ∧ 64 < pos 0x13F + len 0x13F ∧ v 0x40 / 64 % 4 ≠ 0 ∧ v 0x4000 / 2 ^ 14 ≠ 0 ∧
    traps (one (regs 0x13F)) = true := by decide +kernel

theorem test_wit_scalarFrame : plainDests (.add 1 2 3) = some ([1], []) ∧ plainDests (.cmp 1 2 3 .lt) = some ([], [1]) := by decide +kernel

theorem test_wit_controlRegisters : (one (regs 0)).cur.laneIdle = true ∧ viewOk 0 false 1024 = true ∧ viewOk 0 false 16 = true ∧ viewOk 0 true 16 = true ∧
    tdescOk 0 = true ∧ (31 : BitVec 6).toNat = 16 + (15 : Fin 16).val ∧ traps (one (regs 0)) = true ∧
    viewOk ((one (regs (BitVec.allOnes 64))).cur.sr 1) false 1024 = false ∧ viewOk ((one (regs (BitVec.allOnes 64))).cur.sr 1) false 16 = false ∧
    viewOk ((one (regs (BitVec.allOnes 64))).cur.sr 1) true 16 = false ∧ tdescOk ((one (regs (BitVec.allOnes 64))).cur.sr 1) = false ∧
    (one { ln := { runQ := [0] } }).cur.laneIdle = false := by decide +kernel

theorem test_wit_branches : ((one (regs 0x1000)).cur.sr 1).toNat % 4 = 0 ∧ ((one (regs 0x1002)).cur.sr 1).toNat % 4 ≠ 0 ∧ traps (one (regs 0x1002)) = true := by
  decide +kernel

/-- Seven, then eight blocks wait; the index is the last lane word, then the first behind it. -/
theorem test_wit_laneRunQueue : let s := fun (n : Nat) (v : W64) => one { regs v with ln := { lwords := 4, runQ := List.replicate n 0 } }
    ((3 : BitVec 20).toNat < (s 7 3).cur.ln.lwords.toNat ∧ (s 7 3).cur.ln.runQ.length < 8) ∧ 8 ≤ (s 8 3).cur.ln.runQ.length ∧
    (s 8 3).cur.ln.lwords.toNat ≤ (4 : BitVec 20).toNat ∧ traps (s 8 3) = true ∧ ((s 7 0xFFFFF).cur.sr 1).toNat < 2 ^ 20 ∧
    2 ^ 20 ≤ ((s 7 0x100000).cur.sr 1).toNat ∧ traps (s 7 0x100000) = true := by decide +kernel

theorem test_wit_exit : (let g : Group := { live := true, st := .exiting };
      (one g).group 0 = g ∧ g.live = true ∧ g.st = .exiting ∧ g.laneIdle = true ∧ g.h.halted = false ∧ (one g).portBusy 0 = false ∧
      ({ one g with cores := [(0, { mx := { holder := some 0, outQ := [[1]] } })] } : State).portBusy 0 = true) ∧
    (let g : Group := { live := true, st := .exiting, ln := { active := true } };
      (one g).group 0 = g ∧ g.st = .exiting ∧ g.laneIdle = false) := by decide +kernel

/-- Queue 127 and counter 255, a number reached and one not; queue 128 and counter 256. -/
theorem test_wit_yields : (let s := one (regs 127);
      ((s.cur.sr 1).toNat < 128 ∧ (s.seqDone s.curG.die 127 - 0).toNat < 2 ^ 63) ∧ 2 ^ 63 ≤ (s.seqDone s.curG.die 127 - s.cur.sr 2).toNat) ∧
    (let s := one (regs 255);
      ((s.cur.sr 1).toNat < 256 ∧ (s.ctr s.curG.die 255 - 0).toNat < 2 ^ 63) ∧ 2 ^ 63 ≤ (s.ctr s.curG.die 255 - s.cur.sr 2).toNat) ∧
    (128 ≤ ((one (regs 128)).cur.sr 1).toNat ∧ traps (one (regs 128)) = true) ∧ 256 ≤ ((one (regs 256)).cur.sr 1).toNat ∧ traps (one (regs 256)) = true := by
  decide +kernel
theorem test_wit_reactivation : let y : YieldRec := { on := .queue 0 0, d := 1, cmd := false }
    let z : YieldRec := { on := .queue 0 1, d := 1, cmd := false }
    let w : YieldRec := { on := .queue 0 1, d := 1, cmd := false, got := some 0, res := some (1, 2) }
    let s := fun (st : RunState) => one { live := true, st := st }
    (((s (.yielding y)).group 0).live = true ∧ ((s (.yielding y)).group 0).st = .yielding y ∧ ((s (.yielding y)).group 0).laneIdle = true) ∧
    (((s (.yielded y)).group 0).st = .yielded y ∧ yieldEnd (s (.yielded y)) 0 y = some 0) ∧
    (yieldEnd (s (.yielded w)) 0 w = some 0 ∧ w.res = some (1, 2)) ∧
    ((s (.yielded z)).group 0).st = .yielded z ∧ yieldEnd (s (.yielded z)) 0 z = none := by decide +kernel
theorem test_wit_restingArray : let s : State := { one { live := true } with cores := [(0, { mx := { holder := some 0, token := true } })] }
    s.holds 0 = true ∧ (s.mx 0).mode ≠ .running := by decide +kernel

/-- A group with window 0 open on the page at 0x100000, its words there and the shelf of core 0. -/
def opened (v : W64) : Group := { regs v with win := Vector.replicate 8 { pa := 0x100000, limit := 0x10000, w := true, d := true } }
/-- The last access of each size in the page hits. -/
theorem test_wit_watch : let s := one (opened 0xFFF8)
    (s.cur.h.on = false ∧ s.cur.replaying false = none ∧ inHbm 0x10FFF8 = true) ∧ WindowHit s 0 0xFFF8 8 .read 0x10FFF8 ∧ Readable s 0x10FFF8 8 := by
  refine ⟨by decide +kernel, ?_, ?_⟩
  · unfold WindowHit; decide +kernel
  · unfold Readable; decide +kernel
theorem test_wit_parks : let s := fun (m : Option W64) (f : Bool) (st : RunState) => one { live := true, st := st, mon := m, fired := f }
    let p : RunState := .parked 1 5 9
    ((s none false (.parking 1 5)).group 0).st = .parking 1 5 ∧ ((s none false (.parking 1 5)).group 0).laneIdle = true ∧
    ((s (some 0) true p).group 0).mon.isSome = true ∧ ((s (some 0) true p).group 0).fired = true ∧ ((s (some 0) false p).group 0).fired = false ∧
    ((s none false (.parked 1 0 9)).group 0).mon = none ∧ ((s none false (.parked 1 0 9)).group 0).st = .parked 1 0 9 ∧
    ((one { h := { on := true } }).cur.h.on = true ∧ (one { h := { on := true } }).mxErrOf 0 = none) := by decide +kernel

/-! Traps and handlers -/

/-- A group in charge of its array; one that waits at an `invpg`, and one that does not. -/
theorem test_wit_trapEntry : let s := fun (w : SWait) => ({ one { regs 0 with wait := w } with cores := [(0, { mx := { holder := some 0 } })] } : State)
    (s .none).holds 0 = true ∧ ((s .none).group 0).wait = .none ∧ ((s (.invpg 0 0x10000 0x10000 .pkg)).group 0).wait = .invpg 0 0x10000 0x10000 .pkg ∧
    Cause.resumable (.xlat 3) = true ∧ Cause.resumable .userTrap = true := by decide +kernel
theorem test_wit_trapTaken : let x : PendTrap := { cause := .preempt, record := 0, pc := 0, lpc := 0 }
    let s : State := { one { live := true, h := { pend := some x } } with cores := [(0, { mx := { holder := some 0, token := true } })] }
    (s.group 0).live = true ∧ (s.group 0).h.halted = false ∧ (s.group 0).h.on = false ∧ s.isLogit 0 0 = false ∧ (s.group 0).st ≠ .exiting ∧
    (s.group 0).h.pend = some x ∧ s.mxErrOf 0 = none ∧ s.holds 0 = true ∧ ((s.group 0).h.pend.isSome || (s.group 0).h.halted) = true ∧ (s.mx 0).token = true ∧
    traps (one (regs 0)) = true := by decide +kernel
/-- A handler whose image is valid, and what its trap found. -/
def handling (w : Byte) (c : BitVec 8) (k : Kept) : State :=
  { one { regs 0x1000 with h := { on := true, cause := c, kept := k } } with mem := [(0x101F, w)] }
theorem test_wit_handlerReturns : let f := fun (s : State) => (fun (o n : Nat) => peek s.mem ((s.cur.sr 1).toNat + o) n : Image)
    let y : YieldRec := { on := .queue 3 9, d := 1, cmd := false }
    let ok := fun (s : State) => s.cur.h.on && s.cur.laneIdle && (s.cur.sr 1).toNat % 4096 == 0 && inHbm (s.cur.sr 1).toNat &&
      !s.bad (s.cur.sr 1).toNat 0x6000 && imageValid (f s) && !(s.part s.cur.part).preReq
    let run := fun (s : State) => ((word64 (f s) 0x18).extractLsb' 57 2, (word64 (f s) 0x18).getLsbD 61)
    (let s := handling 0xC0 0x50 {}
     ok s = true ∧ (word64 (f s) 0x18).getLsbD 62 = true ∧ run s = (0, false) ∧ s.cur.h.kept.st = .running ∧ s.cur.h.cause = 0x50) ∧
    (let s := handling 0xC2 0x50 { st := .parked 5 7 9 }; ok s = true ∧ run s = (1, false) ∧ s.cur.h.kept.st = .parked 5 7 9 ∧ s.blockAt s.cur = none) ∧
    (let s := handling 0xC4 0x50 { st := .yielded y }; ok s = true ∧ run s = (2, false) ∧ s.cur.h.kept.st = .yielded y) ∧
    (let s := handling 0xE0 0x50 { wait := .publBuf 3 1 0 }; ok s = true ∧ run s = (0, true) ∧ s.cur.h.kept.wait = .publBuf 3 1 0) ∧
    (let s := handling 0xC1 0x50 {}; ok s = true ∧ (word64 (f s) 0x18).getLsbD 56 = true ∧ s.cur.restored = false) ∧
    (let s := handling 0x80 0x48 {}; ok s = true ∧ (word64 (f s) 0x18).getLsbD 62 = false ∧ s.cur.h.cause ≠ 0x50) ∧
    traps (one (regs 0)) = true ∧ (one { h := { on := true }, ln := { active := true } }).cur.laneIdle = false := by decide +kernel

/-! Lane instructions -/

/-- A tie, an inexact value of each kind, the ends of a signed and an unsigned type and the values next to them. -/
theorem test_wit_rounding : ((-1 : Int) = -2 + (1 : Nat) ∧ (3 : Int) % 2 ^ 1 ≠ 0 ∧ 2 * (2 * (2 : Int) ^ 1 - 3).natAbs = 2 ^ 1) ∧
    fmtOf .i8 = none ∧ fmtOf .n64 = none ∧ LTy.i8.signed = true ∧ LTy.n64.signed = false ∧ (-(2 ^ (LTy.i8.width - 1)) : Int) = -128 ∧
    ((-129 : Int) < -128 ∧ (127 : Int) < 128) := by decide +kernel

/-- A group whose vector view of 512 registers ends with its register space, with one entry in data queue 0 and space in every result queue;
`p0` holds in the even threads. -/
def laneG : Group :=
  { live := true, q := vset (Vector.replicate 8 []) 0 [0], rg := { declared := 0x20000, granules := 32, vview := 0x200000000 },
    ln := { active := true, run := BitVec.allOnes 64, lwords := 16, p := Vector.replicate 7 0x5555555555555555 } }
def hd : LHdr := { gneg := false, gpred := 7, uni := false, reuse := 0 }
/-- The operands of a lane instruction lie in their views and nothing holds them back. -/
def goes (dst src : List (Opnd × Nat)) : Bool := ((one laneG).cur.settle.laneStop dst src).isNone
theorem test_wit_lane : hd.never = false ∧ goes [(.vec 511, 1)] [(.vec 0, 1), (.q 0, 1), (.const 3, 1)] = true ∧
    goes [(.yp 3 1, 1)] [(.vec 511, 1), (.qp 7 2, 1)] = true ∧ goes [(.y 3, 1)] [(.vlane, 1)] = true ∧
    goes [(.vec 510, 2)] [(.vec 0, 2), (.zero, 2)] = true ∧ goes [(.vec 3, 1)] [(.vec 508, 4)] = true := by decide +kernel
theorem test_wit_queued : ((one laneG).cur.roomFor true [(.vec 510, 2), (.vec 0, 2), (.vec 508, 4)]).laneStop [(.vec 510, 2)] [(.vec 0, 2), (.vec 508, 4)] = none ∧
    ((one laneG).cur.roomFor true [(.vec 0, 1), (.vec 1, 1), (.vec 2, 1), (.vec 3, 1)]).rg.ebad.getLsbD 31 = false ∧
    ((one laneG).cur.roomFor false [(.vec 511, 1), (.q 0, 1)]).laneStop [(.vec 511, 1)] [(.q 0, 1)] = none ∧
    (let x : Queued := { d := .vec 511, w64 := true, uni := false, mask := 1, lo := 0, hi := 0 };
      ((one { laneG with ln := { laneG.ln with cvtQ := [x] } }).group 0).ln.cvtQ = x :: [] ∧ x.d = .vec 511) ∧
    (let x : Queued := { d := .yp 3 1, w64 := false, uni := true, mask := 1, lo := 0, hi := 0 };
     let g : Group := { laneG with y := vset (Vector.replicate 4 []) 3 (List.replicate 16 0), ln := { laneG.ln with sfuQ := [x] } };
      ((one g).group 0).ln.sfuQ = x :: [] ∧ pushOf x.d = some 3 ∧ 16 ≤ (((one g).group 0).y.getD 3 []).length ∧
        (((one laneG).group 0).y.getD 3 []).length < 16 ∧ x.d.names 2 = false) ∧
    ((3 : Int).natAbs < 2 ^ 24 ∧ (3 : Int) ≠ 0 ∧ (1 : Int) * 2 ^ 3 ≠ 0 ∧ ((1 : Int) * 2 ^ 3).natAbs < 512) := by decide +kernel
theorem test_wit_indexed : let g := (one laneG).cur.settle
    (∀ j, j < 64 → (g.sel hd).exec.getLsbD j = true → ∀ k, k < 2 → g.rg.vecIn ((510 : BitVec 10).toNat + g.srcVal (.vec 0) 1 j % 1024 + k) = true) ∧
    g.laneStop [(.vec 4, 2)] [(.vec 0, 1)] [2] = none ∧ g.laneStop [] [(.vec 4, 2), (.vec 0, 1)] [1, 2] = none ∧ idxEcc g hd 510 (.vec 0) 2 = false := by decide +kernel

/-- A lane stream as it stands before a control instruction. -/
def lc (f : Lane → Lane) : Lane := (one { laneG with ln := f laneG.ln }).cur.settle.ln
theorem test_wit_laneControl : let e : DivEntry := { join := false, pc := 15, mask := 0xF0 }
    let j : DivEntry := { join := true, pc := 15, mask := 0xF0 }
    let some' : LHdr := { hd with gpred := 0 }
    let none' : LHdr := { hd with gpred := 1 }
    let never : LHdr := { hd with gneg := true }
    let t := fun (h : LHdr) => laneG.ln.act &&& (one { laneG with ln := { laneG.ln with p := vset laneG.ln.p 1 0 } }).cur.settle.guardMask h
    (never.never = true ∧ some'.never = false ∧ none'.never = false) ∧
    ((lc id).inRegion = false ∧ (lc id).stack = [] ∧ (15 : W32).toNat < (lc id).lwords.toNat ∧ (lc id).lwords.toNat ≤ (16 : W32).toNat) ∧
    (laneG.ln.act &&& ~~~(t some') ≠ 0 ∧ t some' ≠ 0 ∧ t some' ≠ laneG.ln.act ∧ t hd = laneG.ln.act ∧ t hd ≠ 0 ∧ t none' = 0) ∧
    ((lc (fun l => { l with stack := [e] })).stack = e :: [] ∧ e.pc = (15 : W32).setWidth 20 ∧ e.mask ≠ 0 ∧ j.join = true) ∧
    (List.replicate 31 j).length < 32 ∧ 32 ≤ (List.replicate 32 j).length ∧
    ((lc id).run &&& ~~~(t some') ≠ 0 ∧ (lc id).run &&& ~~~(t hd) = 0) ∧
    (let k : DivEntry := { j with mask := 0 };
     (lc (fun l => { l with stack := [e] })).stack = e :: [] ∧ e.join = false ∧ e.pc = (lc (fun l => { l with stack := [e] })).lpc + 15 ∧
     -- the last threads exit: an entry that still holds some, under one that holds none; only empty entries; a region with another part
     (let l := lc (fun l => { l with run := 0xF, stack := [k, e] });
       l.run &&& ~~~(l.act &&& (one { laneG with ln := l }).cur.settle.guardMask hd) = 0 ∧ l.stack = [k] ++ e :: [] ∧
       k.mask &&& ~~~(l.act &&& (one { laneG with ln := l }).cur.settle.guardMask hd) = 0 ∧
       e.mask &&& ~~~(l.act &&& (one { laneG with ln := l }).cur.settle.guardMask hd) ≠ 0 ∧ l.active = true) ∧
     (let l := lc (fun l => { l with run := 0xF, inRegion := true, parts := [(3, 4)] }); l.inRegion = true ∧ l.parts = (3, 4) :: [] ∧ l.stack = [])) := by
  decide +kernel
theorem test_wit_laneControlTraps : traps (one laneG) = true ∧
    (let l := lc (fun l => { l with inRegion := true, partAt := some 3, lpc := 4 }); l.inRegion = true ∧ l.stack = [] ∧ l.partAt = some 3 ∧ 3 ≠ l.lpc ∧ l.parts = [] ∧
      l.run &&& ~~~(l.act &&& (one { laneG with ln := l }).cur.settle.guardMask hd) = 0) ∧
    (lc id).inRegion = false := by decide +kernel

/-- A group waits at `lbr.c` with both kinds of threads, one in a region at `lsync.c`, and one waits nowhere. -/
theorem test_wit_region : let s := fun (f : Lane → Lane) => one { laneG with ln := f laneG.ln }
    let a := s (fun l => { l with cwait := .atLbr 2 9 0xF0, exited := 1 })
    let b := s (fun l => { l with cwait := .atSync 5, inRegion := true })
    let c := s (fun l => { l with inRegion := true, lpc := 7, partAt := some 7, parts := [(3, 4)] })
    (a.blockGroups 0 = [0] ∧ (a.group 0).takesPart = true ∧ (a.group 0).movable = true ∧
      ({ laneG with rg := { laneG.rg with drowsy := 1 } } : Group).movable = false ∧ (a.group 0).ln.cwait = .atLbr 2 9 0xF0) ∧
    (b.blockGroups 0 = [0] ∧ (b.group 0).movable = true ∧ (b.group 0).ln.inRegion = true ∧ (b.group 0).ln.cwait = .atSync 5) ∧
    (c.cur.settle.ln.inRegion = true ∧ c.cur.settle.ln.stack = [] ∧ c.cur.settle.ln.partAt = some c.cur.settle.ln.lpc ∧
      c.cur.settle.ln.parts = (3, 4) :: []) ∧
    (0 ∈ (s id).blockGroups 0 ∧ ((s id).group 0).takesPart = true ∧ ((s id).group 0).ln.cwait = .none) ∧
    (0 ∈ c.blockGroups 0 ∧ (c.group 0).ln.inRegion = true ∧ (c.group 0).ln.run ≠ 0 ∧ (c.group 0).ln.cwait = .none) := by decide +kernel
/-- The remap of a group's own threads names each vlane once. -/
theorem test_wit_remap : ∀ i j, i < 64 → j < 64 → ((one laneG).group 0).ln.vl i = ((one laneG).group 0).ln.vl j → i = j := by
  have h : ∀ i, i < 64 → ((one laneG).group 0).ln.vl i = i := by decide +kernel
  intro i j hi hj e; rw [h i hi, h j hj] at e; exact e

/-! Memory -/

/-- A block of one group with shelf slots 0 to 3. -/
def blk : Block := { part := 0, launch := 0, idx := 0, core := 0, gids := [0], slotBase := 4, slotCount := 4, frames := [4, 5, 6, 7, 8],
                     bars := Vector.replicate 16 {}, begun := 0, budget := 0 }
/-- Two groups of one block, with what their lane streams wait at. -/
def pairOf (a b : CWait) (inside : Bool) : State :=
  let g := fun (k : BitVec 4) (w : CWait) =>
    ({ laneG with gidx := k, ln := { laneG.ln with cwait := w, inRegion := inside, remap := identityRemap k } } : Group)
  { State.reset with groups := [(0, g 0 a), (1, g 1 b)], blocks := [{ blk with gids := [0, 1] }] }
/-- Both wait at one word, at two words, one of them inside its handler. -/
theorem test_wit_regionOfTwo : let s := pairOf (.atLbr 2 9 0xF0) (.atLbr 2 9 0xF) false
    let t := pairOf (.atSync 5) (.atSync 5) true
    let enters := fun (s : State) (x : Gid) => (s.group x).movable && !(s.group x).h.on && !s.isLogit (s.group x).part (s.group x).launch && (s.group x).st != .exiting &&
      (s.mxErrOf x).isNone
    ((s.blockGroups 0).filter (fun x => (s.group x).takesPart) = [0, 1] ∧ (s.group 0).ln.cwait = .atLbr 2 9 0xF0 ∧ (s.group 1).ln.cwait = .atLbr 2 9 0xF) ∧
    ((t.blockGroups 0).filter (fun x => (t.group x).inRegion) = [0, 1] ∧ (t.group 0).ln.cwait = .atSync 5 ∧ (t.group 1).ln.cwait = .atSync 5 ∧
      (List.range 64).all (fun i => (t.group 0).ln.vl i == i && (t.group 1).ln.vl i == 64 + i) = true) ∧
    (let u := pairOf (.atLbr 2 9 0xF0) (.atLbr 3 9 0xF) false
     let v := pairOf (.atSync 5) (.atSync 6) true
     [0, 1].all (fun x => enters u x && enters v x) = true ∧ (u.blockGroups 0).filter (fun x => (u.group x).takesPart) = [0, 1] ∧ [(0 : Gid), 1].Nodup ∧
     (u.group 0).ln.cwait = .atLbr 2 9 0xF0 ∧ (u.group 1).ln.cwait = .atLbr 3 9 0xF ∧ (v.group 0).ln.cwait = .atSync 5 ∧ (v.group 1).ln.cwait = .atSync 6 ∧
     (v.blockGroups 0).filter (fun x => (v.group x).inRegion) = [0, 1]) ∧
    (let w := one { laneG with h := { on := true, kept := { inRegion := true } } };
     0 ∈ w.blockGroups 0 ∧ (w.group 0).h.on = true ∧ (w.group 0).h.kept.inRegion = true ∧ (w.group 0).ln.inRegion = false ∧
     (w.group 0).ln.cwait = .none) := by decide +kernel
/-- The block's group and its slots: 3 valid with key 0x33, 2 pending, the others free. -/
def shelf (g : Group) : State :=
  { one g with blocks := [blk], cores := [(0, { tags := [(6, 0xC006070000000022), (7, 0x8005000000000033)] })] }
theorem test_wit_accesses : let s := shelf (opened 0xFF8)
    (s.cur.replaying false = none ∧ WindowHit s 0 ((s.cur.sr 1).toNat % 2 ^ 32) 8 .read 0x100FF8 ∧
      WindowHit s 0 ((s.cur.sr 1).toNat % 2 ^ 32) 8 .write 0x100FF8 ∧ paRegion 0x100FF8 < 2) ∧ Readable s 0x100FF8 8 := by
  refine ⟨?_, ?_⟩
  · unfold WindowHit; decide +kernel
  · unfold Readable; decide +kernel
/-- The last 8 bytes of slot 3. -/
theorem test_wit_slot : let s := shelf (opened 0xFF803)
    (s.cur.sr 1).toNat < 2 ^ 20 ∧ SlotHit s ((s.cur.sr 1).toNat % 256) ((s.cur.sr 1).toNat / 256 % 4096 / 8 * 8) 8 (frameBase 0 5 + 0xFF8) ∧
    s.bad (frameBase 0 5 + 0xFF8) 8 = false := by
  refine ⟨by decide +kernel, ⟨blk, ?_⟩, ?_⟩ <;> decide +kernel

/-- Tables that map the page of virtual address 0 to 0x100000, all rights given; page 1 is not there, page 2 is malformed, page 3 is to be filled. -/
def paged (g : Group) : State :=
  { one g with
    dies := (0, { resetDie 0 with ptBase := 0x1000001 }) :: resetDies.drop 1,
    mem := [(0x30000, 0x01), (0x30002, 0x04), (0x40000, 0x01), (0x40002, 0x05),
            (0x50000, 0x3F), (0x50002, 0x10), (0x50010, 0x01), (0x50018, 0x02),
            (0x1000000, 0x01), (0x1000002, 0x03)] }
/-- A computation over the state answers. -/
def answers {α : Type} (m : Acc α) (s : State) : Bool := match m.run s with | .ok _ _ => true | .error _ _ => false
theorem answers_ok {α : Type} {m : Acc α} {s : State} (h : answers m s = true) : ∃ a s1, m.run s = .ok a s1 := by
  unfold answers at h; split at h <;> simp_all
/-- What a translation answers: an address, or the cause of a fault. -/
def xl (s : State) (ag : Agent) (va : W64) (k : AKind) : Option Nat ⊕ Option Cause :=
  match (translate ag va k).run s with
  | .ok a _ => .inl (some a)
  | .error (.fault i) _ => .inr (some i.cause)
  | .error _ _ => .inr none
theorem xl_ok {s : State} {ag : Agent} {va : W64} {k : AKind} {a : Nat} (h : xl s ag va k = .inl (some a)) :
    ∃ s1, (translate ag va k).run s = .ok a s1 := by
  unfold xl at h; split at h <;> simp_all
theorem xl_fault {s : State} {ag : Agent} {va : W64} {k : AKind} {c : Cause} (h : xl s ag va k = .inr (some c)) :
    ∃ i s1, (translate ag va k).run s = .error (.fault i) s1 ∧ i.cause = c := by
  unfold xl at h; split at h <;> simp_all

theorem test_wit_translates : ∃ s1, Translates (paged (regs 0x40)) ((paged (regs 0x40)).cur.sr 1) .atomic 0x100040 s1 := xl_ok (by decide +kernel)
theorem test_wit_atomics : let s := paged (regs 0x40)
    (s.cur.replaying false = none ∧ s.curG = 0) ∧ atomCheck false .add .i32 0x100040 5 = none ∧ AtomOp.add.special = false ∧
    (∃ c, atomCheck false .add .i32 0x100041 5 = some c) ∧ atomCheck false .fxadd .f32 0x100040 0x3F800000 = none ∧ inHbm 0x100040 = true ∧
    s.bad 0x100040 16 = false ∧ atomCheck true .oadd .n64 0x100040 5 = none ∧ paNode 0x100040 = 0 ∧ s.winAt 0x100040 = none ∧
    (s.owins.filter (fun v => paDie v.loc == paDie 0x100040)).length < 1024 ∧ traps s = true := by
  refine ⟨by decide +kernel, by decide +kernel, by decide +kernel, ?_, ?_⟩
  · exact Option.isSome_iff_exists.1 (by decide +kernel)
  · decide +kernel
/-- An ordered add into an open window: of its own, of another type, of another launch, full; a close of a window with two contributions. -/
theorem test_wit_windows : let c : Contrib := { block := 0, vlane := 1024, seq := 0, value := 3 }
    let w : OWin := { loc := 0x100040, ty := .n64, part := 0, launch := 0, cs := [{ c with block := 1 }, c] }
    let s := fun (w : OWin) => ({ paged (regs 0x40) with owins := [w] } : State)
    (atomCheck true .oadd .n64 0x100040 5 = none ∧ atomCheck true .oclose .n64 0x100040 5 = none ∧ traps (s w) = true ∧ (s w).winAt 0x100040 = some w ∧
      w.ty = .n64 ∧ w.part = (s w).cur.part ∧ w.launch = (s w).cur.launch ∧ w.cs.length < 65536) ∧
    (s { w with ty := .i64 }).winAt 0x100040 = some { w with ty := .i64 } ∧ AtomTy.i64 ≠ .n64 ∧
    (let many := List.replicate 1024 { w with loc := 0x100080 }
     1024 ≤ (many.filter (fun v => paDie v.loc == paDie 0x100040)).length ∧ many.find? (fun x => x.loc == 0x100040) = none) ∧ (s { w with launch := 1 }).winAt 0x100040 = some { w with launch := 1 } ∧
    65536 ≤ ({ w with cs := List.replicate 65536 c } : OWin).cs.length ∧
    ([c, { c with block := 1 }].Perm w.cs ∧ [c, { c with block := 1 }].Pairwise (fun x y => x.block.toNat < y.block.toNat)) ∧ Readable (s w) 0x100040 8 := by
  refine ⟨by decide +kernel, by decide +kernel, by decide, by decide +kernel, by decide +kernel, Nat.le_of_eq List.length_replicate.symm, ⟨List.Perm.swap _ _ _, by decide⟩, ?_⟩
  unfold Readable; decide +kernel
/-- The tables map the page of virtual address 0 with another leaf; page 3's hint record has the flags `fl`; the die's ring holds two frames. -/
def leafed (e : Nat) (fl : Byte) : State :=
  { paged (regs 0x30000) with
    dies := (0, { resetDie 0 with ptBase := 0x1000001, ftzRing := 0x200006, ftzTail := 2 }) :: resetDies.drop 1
    mem := (paged {}).mem.take 4 ++ ((List.range 8).map (fun i => (0x50000 + i, BitVec.ofNat 8 (e / 2 ^ (8 * i))))).filter (fun p => p.2 != 0) ++
      [(0x50018, 0x02), (0x6000A, 0x04)] ++ (if fl = 0 then [] else [(0x60010, fl)]) ++
      [(0x200002, 0x30), (0x20000A, 0x31), (0x1000000, 0x01), (0x1000002, 0x03), (0x1000008, 0x01), (0x100000A, 0x06)] }
/-- What a leaf ends the walk of virtual address 0 with. -/
def leafIs (e : Nat) : Bool := match walkTables (leafed e 0) 0 0 0 with | .leaf 2 l 0x50000 => l == BitVec.ofNat 64 e | _ => false
/-- A computation answers with a value that satisfies `P`. -/
def gives {α : Type} (P : α → Bool) (m : Acc α) (s : State) : Bool := match m.run s with | .ok a _ => P a | .error _ _ => false
/-- The walk: its tables; entries that end it at each level; leaves that each check refuses, and one that all let pass. -/
theorem test_wit_walk : let s := paged (regs 0)
    let tab := fun (i : Nat) => [0x30000, 0x40000, 0x50000].getD i 0
    let at' := fun (va : W64) (i : Nat) => tab i + va.toNat % 2 ^ (55 - 13 * i) / 2 ^ (42 - 13 * i) * 8
    let z := (resetDie 0).zeroFrame.toNat
    (s.bad (pasidAddr s 0 0) 16 = false ∧ (s.read64 (pasidAddr s 0 0)).getLsbD 0 = true ∧ (s.read64 (pasidAddr s 0 1)).getLsbD 0 = false ∧
      tab 0 = paOf ((s.read64 (pasidAddr s 0 0)).extractLsb' 49 3) 0 (((s.read64 (pasidAddr s 0 0)).extractLsb' 16 30).toNat * 2 ^ 16)) ∧
    ([0, 1].all (fun i => (s.read64 (at' 0 i)).getLsbD 0 && !(s.read64 (at' 0 i)).getLsbD 1 &&
      tab (i + 1) == paOf ((s.read64 (at' 0 i)).extractLsb' 49 3) 0 (((s.read64 (at' 0 i)).extractLsb' 16 30).toNat * 2 ^ 16)) = true) ∧
    (checkLeaf s 2 (s.read64 (at' 0 2)) = none ∧ (s.read64 (at' 0x10000 2)).getLsbD 0 = false ∧ (s.read64 (at' 0x20000 2)).extractLsb' 0 2 = 1 ∧
      s.read64 (at' 0x30000 2) = 2 ∧ s.read64 (at' 0x2000000000 1) = 0) ∧
    (checkLeaf s 2 0x10083F = some 4 ∧ checkLeaf s 2 0x1A0003F = none ∧ checkLeaf s 1 0x10003F = some 4 ∧ checkLeaf s 2 (5 * 2 ^ 46 + 3) = some 5 ∧
      checkLeaf s 2 (2 ^ 46 + 2 ^ 10 + 3) = none ∧ checkLeaf s 2 (2 ^ 46 + 2 ^ 45 + 2 ^ 10 + 3) = some 5 ∧ (resetDie 0).zeroFrame.extractLsb' 0 16 = 0#16) ∧
    [0x10013F, 0x10003B, 0x100037, 0x10007F, 0x1000BF, 0x10003F, z + 0x8013].all leafIs = true ∧ hintBad (leafed 0x10003F 0) 0 0 0 = false := by decide +kernel
/-- The core's TLB holds the page, or nothing. First touch: a read of a mostly unwritten page, a write of it, a write to the zero frame, a page that the unit
does not serve, an empty pool. -/
theorem test_wit_firstTouch : let s := leafed 0x10003F 0
    let ag := groupAgent 0 s.cur
    let t : TlbEntry := { pasid := 0, lvl := 2, page := 0, leaf := 0x10003F }
    let z := (resetDie 0).zeroFrame.toNat + 0x8013
    let e : W64 := 2
    (t.covers 0 0x40 = true ∧ leafPermits false t.leaf .write = true ∧ paNode (leafFrame t.leaf + 0x40) = 0 ∧ ag.core = some 0 ∧
      gives (fun r => r.2.2 == 2 && paNode r.1 == 0) (translateWalk ag 0x40 .write 4) s = true) ∧
    ((hintOf s 0 0 0x30000).isSome = true ∧ ftzOn (s.die 0) = true ∧ ftzOn (State.reset.die 0) = false ∧ answers (firstTouch ag 0x30000 .write e 0x50018 true) s = true ∧
      answers (firstTouch ag 0x30000 .read e 0x50018 true) (leafed 0x10003F 1) = true ∧ answers (firstTouch ag 0x30000 .read e 0x50018 true) (leafed 0x10003F 16) = false ∧
      answers (firstTouch ag 0 .write (BitVec.ofNat 64 z) 0x50000 false) (leafed z 0) = true) ∧
    (gives (· == some 0x300000) (takeFrame 0 0x30000 .write (poolCount (s.die 0))) s = true ∧ goodFrame 0 (ringEntry s 0 0) = true ∧
      s.bad (ringPlace s 0 0) 8 = false ∧ (s.die 0).ftzTail ≠ (s.die 0).ftzHead ∧ 0x300000#64 ∉ (s.die 0).zeroed ∧
      gives (· == none) (takeFrame 0 0x30000 .write (poolCount (State.reset.die 0))) State.reset = true) := by decide +kernel
theorem test_wit_faults : let s := fun (v : W64) => paged (regs v)
    let at' := fun (v : W64) => groupAgent 0 (s v).cur
    (((one (regs 0)).die 0).ptBase.getLsbD 0 = false ∧ ((s 0).die 0).ptBase.getLsbD 0 = true ∧ canonical (1 <<< 54) = false) ∧
    (∃ i s1, (translate (at' 0x10000) 0x10000 .atomic).run (s 0x10000) = .error (.fault i) s1 ∧ i.cause = .xlat 3) ∧
    (∃ i s1, (translate (at' 0x20000) 0x20000 .atomic).run (s 0x20000) = .error (.fault i) s1 ∧ i.cause = .xlat 4) ∧
    (Cause.xlat 3).isXlat = true ∧ (Cause.xlat 3).deferred = true ∧ (Cause.xlat 4).deferred = false := by
  refine ⟨by decide +kernel, xl_fault ?_, xl_fault ?_, ?_⟩ <;> decide +kernel

theorem test_wit_queueInstructions : let s := fun (n : Nat) => one { opened 0xFF00 with q := vset (Vector.replicate 8 []) 7 (List.replicate n 0), y := vset (Vector.replicate 4 []) 3 [5] }
    4 ≤ ((s 4).cur.q.getD (7 : BitVec 3).toNat []).length ∧ ((s 3).cur.q.getD (7 : BitVec 3).toNat []).length < 4 ∧
    ((s 3).cur.sr 1).toNat % 2 ^ 32 + 256 = 0x10000 ∧ (s 3).cur.y.getD (3 : BitVec 2).toNat [] = 5 :: [] ∧
    (s 3).cur.y.getD (0 : BitVec 2).toNat [] = [] := by decide +kernel
theorem test_wit_qld : let s := one (opened 0xFF00)
    WindowHit s 0 ((s.cur.sr 1).toNat % 2 ^ 32) 256 .read 0x10FF00 ∧ Readable s 0x10FF00 256 ∧ s.cur.replaying false = none := by
  refine ⟨?_, ?_, by decide +kernel⟩
  · unfold WindowHit; decide +kernel
  · unfold Readable; decide +kernel
/-- A group that waits at its `invpg`, a program behind its handler and a saved group, each with a window on a large page that overlaps the range. -/
theorem test_wit_invalidation : let w : Vector Window 8 := Vector.replicate 8 { base := 0x1FF0000, lvl := 1 }
    let g : Group := { live := true, wait := .invpg 0 0x10000 0x10000 .pkg, win := w, h := { on := true, kept := { win := w } } }
    let laps := fun (x : Window) => pageIn (x.base.toNat % 2 ^ 55 / pageSize x.lvl.toNat) (pageSize x.lvl.toNat) 0x10000 0x10000
    (invpgRangeOk 0xFFFFF 0x10000 0x10000 = true ∧ invpgRangeOk 0x100000 0x10000 0x10000 = false) ∧
    (((one g).group 0).wait = .invpg 0 0x10000 0x10000 .pkg ∧ ((one g).group 0).live = true ∧ ((one g).group 0).pasid = 0 ∧
      ((one g).group 0).h.on = true ∧ ((one g).group 0).h.kept.pasid = 0 ∧ laps ((one g).group 0).win[0] = true ∧ laps ((one g).group 0).h.kept.win[7] = true) ∧
    (let x : Saved := { block := 0, core := 0, gid := 0, gidx := 0, kept := { win := w }, arrived := [], cls := 0, holder := false }
     x.kept.pasid = 0 ∧ laps x.kept.win[3] = true) ∧
    (one { regs 0 with priv := true }).cur.priv = true ∧ (one (regs 0)).cur.priv = false ∧ traps (one (regs 0)) = true := by decide +kernel
/-- The window of a leaf, of an absent page, of a page to be filled, of a system page, of a page to be scrubbed; a bad word in the table; a lane stream that is
not idle. -/
theorem test_wit_windowSet : let s := paged (regs 0xFFFF)
    let w := fun (va : W64) => walkTables s 0 0 va
    (s.cur.replaying false = none ∧ s.cur.laneIdle = true ∧ (s.die 0).ptBase.getLsbD 0 = true ∧ canonical (s.cur.sr 1) = true ∧ traps { s with badWords := [0x40000] } = true) ∧
    (∃ e ad, w 0xFFFF = .leaf 2 e ad ∧ e.getLsbD 8 = false ∧ e.getLsbD 7 = false) ∧ (∃ c e, w 0x10000 = .bad c e) ∧ (∃ e ad, w 0x30000 = .zeroFill e ad) ∧
    (let l : OpLog := { addr := 0, word := 0, lane := false, valid := true, exec := 0, scalars := 0xFFFF, srcA := 0, regd := 0 };
     (paged { regs 0 with slog := some l }).cur.replaying false = some l ∧ l.scalars.extractLsb' 0 64 = 0xFFFF#64) ∧
    (leafIs 0x10013F && leafIs 0x1000BF && (match walkTables { s with badWords := [0x40000] } 0 0 0xFFFF with | .ecc => true | _ => false)) = true ∧
    (one { regs 0 with ln := { active := true } }).cur.laneIdle = false := by
  refine ⟨by decide +kernel, ⟨0x10003F, 0x50000, ?_⟩, ⟨3, 0, ?_⟩, ⟨2, 0x50018, ?_⟩, by decide +kernel, by decide +kernel, by decide +kernel⟩
  · exact ⟨by rfl, by decide +kernel, by decide +kernel⟩
  · rfl
  · rfl

/-! Counters, engines, the shelf, barriers -/

/-- A copy command of a group of launch 0. -/
def cmd0 : Cmd := { n := 5, words := BitVec.ofNat 512 (2 ^ 440 + 4 * 2 ^ 384 + 0x40 * 2 ^ 320 + 0x80 * 2 ^ 256), gid := 0, part := 0, launch := 0, block := 0,
                    pasid := 0, priv := false }
/-- The current group, with commands on the last queue of die 0. -/
def queued (g : Group) (l : List Cmd) : State :=
  { one g with dies := (0, { resetDie 0 with queues := [(127, { seqNext := 9, cmds := l })] }) :: resetDies.drop 1 }

theorem test_wit_counters : let y : YieldRec := { on := .ctr 255 1, d := 1, cmd := false }
    let trig : Cmd := { cmd0 with words := cmd0.words ||| BitVec.ofNat 512 (2 ^ 439 + 2 ^ 64 + 255 * 2 ^ 416) }
    let s := queued (regs 127) [cmd0]
    let u : State := { queued (regs 255) [trig] with groups := [(0, { regs 255 with st := .yielded y, h := { kept := { st := .yielded y } } })] }
    ((s.cur.sr 1).toNat < 128 ∧ queueArmed s 0 127 = true ∧ (s.queue 0 127).cmds ≠ []) ∧
    (queueArmed (queued (regs 127) []) 0 127 = false ∧ ((queued (regs 127) []).queue 0 127).cmds = []) ∧
    ((u.cur.sr 1).toNat < 256 ∧ ctrArmed u 0 255 = true ∧ (u.group 0).st = .yielded y ∧ (u.group 0).h.kept.st = .yielded y ∧ y.got = none ∧
      reached (u.ctr 0 255) 1 = false ∧ reached (u.ctr 0 255) 0 = true ∧ reached (u.ctr 0 255 + 1) (trig.words.extractLsb' 64 64) = true) ∧
    (trig ∈ (u.queue 0 127).cmds ∧ trig.recAt = none ∧ trig.st = .accepted ∧ trig.started = false ∧ trig.begun = false ∧ trig.hit = false ∧ trig.cancel = false ∧
      cTrig trig.words = true ∧ trig.words.extractLsb' 416 8 = 255#8 ∧ reached (u.ctr 0 255) (trig.words.extractLsb' 64 64) = false) ∧
    (let z : YieldRec := { on := .queue 127 1, d := 1, cmd := false };
     let x : Saved := { block := 0, core := 0, gid := 0, gidx := 0, kept := { st := .yielded z }, arrived := [], cls := 0, holder := false };
     x.core.extractLsb' 7 3 = (0 : BitVec 3) ∧ x.kept.st = .yielded z ∧ reached (s.seqDone 0 127) 1 = false) ∧
    ctrArmed s 0 255 = false ∧ 128 ≤ ((one (regs 128)).cur.sr 1).toNat ∧ 256 ≤ ((one (regs 256)).cur.sr 1).toNat ∧ traps (one (regs 128)) = true := by
  decide +kernel
/-- Queues with room for one, one more group waiting in line, and full; registers that fit their fields and not; slots 2 and 3 in use, 0 free, and no free
frame. -/
theorem test_wit_copies : let s := queued (regs 3) (List.replicate 63 cmd0)
    let f := queued (regs 3) (List.replicate 64 cmd0)
    let wide := one (regs (BitVec.allOnes 64))
    let n : State := { shelf (regs 3) with blocks := [{ blk with frames := [5, 6, 7] }] }
    ((s.queue 0 127).turn s 0 = true ∧ (s.cur.sr 2).toNat < 2 ^ 7 ∧ (s.cur.sr 2).toNat < 256 ∧ (s.queue 0 3).turn s 0 = true ∧ traps s = true) ∧
    ((f.queue 0 127).turn f 0 = false ∧ 2 ^ 32 ≤ (wide.cur.sr 2).toNat ∧ 2 ^ 7 ≤ (wide.cur.sr 2).toNat ∧ 2 ^ 16 ≤ (wide.cur.sr 3).toNat ∧
      (wide.queue 0 3).turn wide 0 = true) ∧
    slotStop (shelf (regs 3)) (shelf (regs 3)).curBlock 3 = none ∧ slotStop (shelf (regs 3)) (shelf (regs 3)).curBlock 0 = some .shelfInvalid ∧
    n.curBlock.slotCount.toNat ≤ 255 ∧ (n.tagOf n.curBlock 3).getLsbD 63 = true ∧ (n.tagOf n.curBlock 3).getLsbD 62 = false ∧
    freeFrames n n.curBlock = [] := by decide +kernel
/-- An empty chain; a chain with a tail at virtual address 0x40, fetched from 0x80. -/
def chained : State := { paged (regs 0x40) with dies := (0, { resetDie 0 with ptBase := 0x1000001, queues := [(64, { tail := 0x40, fetch := 0x80, owner := some cmd0 })] }) :: resetDies.drop 1 }
theorem test_wit_chains : let s := chained
    (s.cur.replaying false = none ∧ (s.cur.sr 1).toNat < 128 ∧ canonical (s.cur.sr 1) = true ∧ (s.cur.sr 1).toNat % 64 = 0 ∧ (s.queue 0 3).tail = 0) ∧
    ((s.queue 0 64).tail ≠ 0 ∧ ((s.queue 0 64).tail + 56).toNat % 0x10000 ≤ 0xFFF8 ∧ paNode 0x100078 = 0 ∧ paRegion 0x100078 < 2) ∧
    (∃ s1, Translates s ((s.queue 0 64).tail + 56) .write 0x100078 s1) ∧
    ((s.queue 0 64).fetch ≠ 0 ∧ (s.queue 0 64).fetch.toNat % 64 = 0 ∧ (s.queue 0 64).cmds.length < 64 ∧ (s.queue 0 64).fetchEnd = 0 ∧ (s.queue 0 64).fetchHalt = 0) ∧
    (∃ v s1, (engRead 0 cmd0 (s.queue 0 64).fetch 64).run (s.setQueue 0 64 { s.queue 0 64 with owner := some cmd0, appends := [] }) = .ok v s1) ∧
    128 ≤ ((one (regs 128)).cur.sr 1).toNat ∧ canonical 0x8000000000000000 = false := by
  refine ⟨by decide +kernel, by decide +kernel, xl_ok (by decide +kernel), by decide +kernel, answers_ok (by decide +kernel), by decide +kernel, by decide +kernel⟩
/-- A command that may begin, one that is cancelled, one whose trigger is not reached, one that is halted; a byte that can be copied. -/
theorem test_wit_engine : let c := cmd0
    let trig : Cmd := { c with words := c.words ||| BitVec.ofNat 512 (2 ^ 439 + 2 ^ 64) }
    let done : State := { queued (regs 0) [trig] with dies := (0, { resetDie 0 with ctrs := [(0, 1)] }) :: resetDies.drop 1 }
    ((queued (regs 0) [c]).queue 0 127).nextBegin = some c ∧ ((queued (regs 0) [{ c with cancel := true }]).queue 0 127).nextBegin = some { c with cancel := true } ∧
    ((queued (regs 0) [trig]).queue 0 127).nextBegin = some trig ∧ cTrig trig.words = true ∧ recordOk trig.words = true ∧
    reached ((queued (regs 0) [trig]).ctr 0 (trig.words.extractLsb' 416 8)) (trig.words.extractLsb' 64 64) = false ∧
    (c.cancel = false ∧ c.isHeld (queued (regs 0) [c]) 0 = false ∧ c.recAt = none ∧ recordOk c.words = true ∧ cKind c.words = 1 ∧ cDst c.words = 0 ∧ c.dims = [] ∧ c.took = false ∧ c.bufs = [] ∧ c.targets = [] ∧
      cTrig c.words = false ∧ trig.hit = false ∧ { trig with hit := true }.hit = true ∧
      reached (done.ctr 0 (trig.words.extractLsb' 416 8)) (trig.words.extractLsb' 64 64) = true) ∧
    ((queued (regs 0) [{ c with st := .begun }]).queue 0 127).nextRun = some { c with st := .begun } ∧
    ((queued (regs 0) [{ c with st := .halted 0x13 }]).queue 0 127).cmds = [{ c with st := .halted 0x13 }] ∧
    xl (paged (regs 0)) (c.agent 0) (cSrc c.words + 3) .read = .inl (some 0x100043) ∧
    xl (paged (regs 0)) (c.agent 0) (cDest c.words + 3) .write = .inl (some 0x100083) ∧
    answers (physRead (c.agent 0) (cSrc c.words + 3) 0x100043 1) (paged (regs 0)) = true ∧ paNode 0x100083 = 0 ∧ paRegion 0x100083 < 2 := by decide +kernel
/-- A copy that ends; one whose source is not there. -/
theorem test_wit_copyFrom : let c := cmd0
    let out := fun (x : CopyOut × State) => match x.1 with | .done => 0 | .fault i _ => if i.cause.deferred then 1 else 2 | _ => 3
    out (copyFrom 0 c (c.total - c.progress) c.progress none (paged (regs 0))) = 0 ∧
    (let d := { c with words := c.words + BitVec.ofNat 512 (0x10000 * 2 ^ 320) }; out (copyFrom 0 d (d.total - d.progress) d.progress none (paged (regs 0))) = 1) := by
  decide +kernel

/-- Slots 0 and 1 free, 2 valid and pending, 3 valid; the slot behind the last; every slot valid; a command that still fills slot 2. -/
theorem test_wit_shelf : let s := shelf (regs 3)
    let e := fun (i : Nat) => s.tagOf blk i
    (s.blockAt s.cur = some blk ∧ (3 : W64).toNat < blk.slotCount.toNat ∧ (4 : W64).toNat ≥ blk.slotCount.toNat ∧ traps s = true) ∧
    ((e 3).getLsbD 63 = true ∧ (e 3).getLsbD 62 = false ∧ slotPinned s blk 3 = false) ∧ ((e 0).getLsbD 63 = false ∧ freeFrames s blk ≠ []) ∧
    ((e 2).getLsbD 63 = true ∧ (e 2).getLsbD 62 = true ∧ (e 2).getLsbD 61 = false ∧ slotFilling s blk 2 = false) ∧
    (2 ^ 40 - 1 : W64).toNat < 2 ^ 40 ∧ 2 ^ 40 ≤ (2 ^ 40 : W64).toNat ∧
    freeFrames { s with blocks := [{ blk with frames := [5, 6, 7] }] } { blk with frames := [5, 6, 7] } = [] ∧
    (let g : Group := { regs 0 with wait := .publSlot 2 1 }; ((shelf g).group 0).wait = .publSlot 2 1 ∧ (shelf g).blockAt ((shelf g).group 0) = some blk ∧
      slotFilling { shelf g with dies := [(0, { queues := [(0, { cmds := [{ cmd0 with took := true, targets := [(0, 0, 2)] }] })] })] } blk 2 = true) := by
  decide +kernel
/-- Buffer 255 pending, with a valid descriptor, and its page mapped; one that a copy failed. -/
def published (e : BitVec 256) : State :=
  { paged { regs 255 with wait := .publBuf 255 1 0 } with
    dies := (0, { resetDie 0 with ptBase := 0x1000001, pbufs := [(255, e)] }) :: resetDies.drop 1 }
theorem test_wit_buffers : let e : BitVec 256 := BitVec.ofNat 256 (0x100000 + 2 ^ 64 * 0x200000 + 2 ^ 168)
    let s := published e
    let fills : Cmd := { cmd0 with words := BitVec.ofNat 512 (2 ^ 440 + 2 * 2 ^ 437 + 255 * 2 ^ 256) }
    let t : State := { s with dies := [(0, { resetDie 0 with queues := [(0, { cmds := [fills] })] })] }
    (((s.group 0).wait = .publBuf 255 1 0 ∧ (Sparse.get (s.die 0).pbufs 255).getLsbD 168 = true) ∧ (s.cur.sr 1).toNat < 256 ∧ 256 ≤ ((one (regs 256)).cur.sr 1).toNat) ∧
    (e.getLsbD 167 = false ∧ e.getLsbD 169 = false ∧ (e ||| 1 <<< 167).getLsbD 167 = true ∧ (e ||| 1 <<< 169).getLsbD 169 = true ∧ traps s = true) ∧
    (∀ p ∈ (s.die 0).queues, ∀ c ∈ p.2.cmds, 0 ∉ c.held → 255 ∉ (c.look s 0).bufs) ∧
    ((t.die 0).queues.any (fun p => p.2.cmds.any (fun c => !c.held.contains 0 && (c.look t 0).bufs.contains 255)) = true) ∧
    (let h : Cmd := { fills with held := [0] }; h.isHeld { s with groups := [] } 0 = false ∧ h.recAt = none ∧ 255 ∈ h.bufs ∧ h.isHeld s 0 = true ∧
      (let r : State := { s with dies := (0, { resetDie 0 with spoilt := [(255, [0])] }) :: resetDies.drop 1, groups := [] };
       (255, [0]) ∈ (r.die 0).spoilt ∧ r.publishes 0 = [] ∧ (s.die 0).spoilt = [])) ∧
    (paNode (e.extractLsb' 64 64).toNat = 0 ∧ paRegion (e.extractLsb' 64 64).toNat = 0 ∧ (e.extractLsb' 64 64).toNat % 0x10000 = 0 ∧
      e.extractLsb' 64 64 ≠ e.extractLsb' 0 64 ∧ (2 ^ 41 : W64).getLsbD 41 = true ∧ (2 ^ 41 : W64).getLsbD 43 = false) ∧
    (∃ l a, walkTables s 0 (e.extractLsb' 172 20) (e.extractLsb' 192 64) = .leaf 2 l a ∧ leafFrame l = (e.extractLsb' 0 64).toNat) ∧
    (match walkTables { s with badWords := [0x40000] } 0 (e.extractLsb' 172 20) (e.extractLsb' 192 64) with | .ecc => true | _ => false) = true ∧
    (Sparse.get (s.die 1).pbufs 255).getLsbD 168 = false := by
  refine ⟨by decide +kernel, by decide +kernel, by decide +kernel, by decide +kernel, by decide +kernel, by decide +kernel, ⟨0x10003F, 0x50000, by rfl, by decide +kernel⟩, by decide +kernel, by decide +kernel⟩

/-- A block barrier not open, and open with three of four arrived; a count of 0, 1, 16 and 17. -/
theorem test_wit_blockBarrier : let b : Block := { blk with bars := vset (Vector.replicate 16 {}) 15 { count := 4, arr := 3, isOpen := true, phase := 1 } }
    let s := fun (g : Group) => ({ shelf g with blocks := [b] } : State)
    ((s (regs 4)).blockAt (s (regs 4)).cur = some b ∧ (s (regs 4)).cur.wait = .none ∧ (s (regs 4)).cur.laneIdle = true ∧ b.bars[15].isOpen = true ∧
      b.bars[15].count.toNat = 4 ∧ b.bars[0].isOpen = false) ∧
    ((s (regs 0)).cur.sr 1 = 0 ∧ 16 < ((s (regs 17)).cur.sr 1).toNat ∧ ((s (regs 16)).cur.sr 1).toNat ≤ 16 ∧ traps (s (regs 17)) = true) ∧
    (s (regs 4)).cur.latest 0 15 = none ∧ (s { ln := { active := true } }).cur.laneIdle = false ∧
    (let w : BarId := { kind := 0, idx := 15, rect := 0 }; let t := s { regs 0 with wait := .bar w 0 };
      t.cur.wait = .bar w 0 ∧ t.phaseDone t.curG w 0 = true ∧ t.phaseDone t.curG w 1 = false) := by decide +kernel

/-- A launch in mode 2 whose two blocks of one group are placed; a launch in mode 0. -/
def lch (mode : Nat) : Launch :=
  { part := 0, id := 0, iface := 0, record := BitVec.ofNat 2048 (mode * 2 ^ 124 + 2 ^ 109), kdesc := BitVec.ofNat 2048 (2 ^ 216), grid := 2, det := false, cls := 0, priv := false,
    next := 2, placed := [(1, 1), (0, 0)], ended := 0, status := 0, coll := 0, contrib := 0, bound := [], done := false, passedOver := 0, hold := false }
def wide (mode : Nat) (g : Group) : State := { shelf g with launches := [lch mode] }
theorem test_wit_wideBarriers : let s := wide 2 (regs 0)
    let id : BarId := { kind := 2, idx := 3, rect := 0 }
    (s.blockAt s.cur = some blk ∧ s.members blk = [s.cur.gidx] ∧ s.cur.wait = .none ∧ s.cur.laneIdle = true ∧ s.resident s.cur = true) ∧
    ((s.wideBar 0 s.cur id).failed = false ∧ (s.wideBar 0 s.cur id).fin.contains s.cur.block = false) ∧
    (rbarRectOk 0 = true ∧ (rectCores 0).contains s.curG.core = true ∧ rectFull s s.cur 0 = true) ∧
    (rbarRectOk (1 <<< 16) = false ∧ rbarRectOk 1 = true ∧ (rectCores 1).contains s.curG.core = false) ∧
    ((wide 0 (regs 0)).resident (wide 0 (regs 0)).cur = false ∧ traps (wide 0 (regs 0)) = true) ∧ s.cur.latest 1 3 = none ∧ s.cur.latest 2 3 = none := by
  decide +kernel
theorem test_wit_scheduling : let s := wide 2 (regs 0)
    let t : State := { s with launches := [{ lch 2 with det := true }] }
    s.isDet s.cur.part s.cur.launch = false ∧ t.isDet t.cur.part t.cur.launch = true ∧ traps t = true ∧ s.blockAt s.cur = some blk := by decide +kernel

/-! Steps -/

/-- The first page holds `add s1, s2, s3` at 0x40. -/
def runs (w : List Byte) : State :=
  { paged { regs 0 with pc := 0x40 } with
    mem := (paged {}).mem.take 8 ++ (w.zipIdx.filter (fun p => p.1 != 0)).map (fun p => (0x100040 + p.2, p.1)) ++ (paged {}).mem.drop 8 }
theorem test_wit_step : let s : State := { runs (natToBytes 4 0x010420C0) with agenda := [.issue 0 false] }
    let s0 : State := { s with agenda := [] }
    hold s0 = none ∧ s0.cur.replaying false = none ∧ s0.cur.pc.toNat % 4 = 0 ∧
    xl s0 { groupAgent 0 s0.cur with who := none } s0.wordAddr .fetch = .inl (some 0x100040) ∧ s0.wordAddr.toNat % 0x10000 + 4 ≤ 0x10000 ∧ paNode 0x100040 = 0 ∧
    paRegion 0x100040 < 2 ∧ s0.bad 0x100040 4 = false ∧ s0.cur.log false = none ∧ decode (peekBytes s0.mem 0x100040 4) = .ok (.add 1 2 3) ∧
    decode (peekBytes (runs []).mem 0x100040 4) = .error .unassigned ∧ traps s0 = true ∧ due (runs []) = none ∧
    (let h : State := one { h := { on := true } }; h.cur.h.on = true ∧ h.cur.log false = none ∧ h.mxErrOf h.curG = none) := by decide +kernel
/-- Beside a logged load into s5: `add s1, s2, s3` may pass, `add s1, s5, s3` may not, and a `trap` may, but would trap. A lane word that touches a drowsy
granule, one that touches none, and one that writes what the loop has yet to read. -/
theorem test_wit_passes : let l : OpLog := { addr := 0x40, word := 0x401494D0, lane := false, valid := false, exec := 0, scalars := 0, srcA := 0, regd := 0 }
    let s := one { regs 2 with slog := some l }
    let i : Instr := .iadd hd (.vec 0) (.const 3) (.lane) .n32 false
    let loop : Loop := { addr := 0, word := 0, steps := 1, done := 0, aDesc := 0x38170000000, aTile := 0, aShf := none, reload := false, wDesc := 0, wTile := 0,
                         wShf := none, mDesc := 0, mTile := 0, sp := 0, incA := 0, incW := 0, incEa := 0, incEb := 0, dstep := false, acc := 0, rnd := .rn }
    (s.cur.log false = some l ∧ mayPass s l (.add 1 2 3) = true ∧ mayPass s l (.add 1 5 3) = false ∧ mayPass s l (.jmpr 1) = true) ∧
    (match exec (.jmpr 1) s with | .next t => (t.group 0).h.on != s.cur.h.on | _ => false) = true ∧
    (match exec (.add 1 2 3) s with | .next t => (t.group 0).h.on == s.cur.h.on && (t.group 0).live == s.cur.live | _ => false) = true ∧
    (drowsyHit (one { laneG with rg := { laneG.rg with drowsy := 1 } }) i = true ∧ drowsyHit (one laneG) i = false ∧ loopWaits (one laneG) i = false) ∧
    loopWaits { one laneG with cores := [(0, { mx := { holder := some 0, loop := some loop } })] } i = true := by decide +kernel
theorem test_wit_replayDrowsy : let i : Instr := .lld hd (.vec 0) (.vec 2) .b32 ⟨0, .rlx, false, 0⟩
    let l : OpLog := { addr := 0, word := encodeLane i, lane := true, valid := true, exec := 0, scalars := 0, srcA := 0, regd := 0 }
    let s := fun (z : W32) => one { laneG with llog := some l, rg := { laneG.rg with drowsy := z } }
    (s 1).cur.replaying true = some l ∧ l.instr = some i ∧ drowsyHit (s 1) i = true ∧ drowsyHit (s 0) i = false := by decide +kernel
theorem test_wit_replay : let l : OpLog := { addr := 0x40, word := 0x401494D0, lane := false, valid := true, exec := 0, scalars := 0, srcA := 0, regd := 0 }
    let s := fun (v : Bool) => one { regs 0 with slog := some { l with valid := v } }
    (s true).cur.replaying false = some l ∧ l.instr = some (.ld 5 9 2 .b64 (.acq .pkg)) ∧ (s false).cur.log false = some { l with valid := false } ∧
    hold (s true) = none := by decide +kernel
theorem test_wit_held : (hold State.reset).isSome = true := by decide +kernel
theorem test_wit_due : due (one { live := true, st := .exiting }) = some (.groupExit 0) := by decide +kernel
/-- An instruction runs as the next step: s1 holds the sum of s2 and s3. -/
theorem test_step_add : (match step { runs (natToBytes 4 0x010420C0) with agenda := [.issue 0 false] } with
    | .next t => t.cur.pc == 0x44 | _ => false) = true := by decide +kernel
theorem test_reset_inv : Inv State.reset := by
  refine ⟨by decide +kernel, by decide +kernel, by decide +kernel, by decide +kernel, ?_⟩
  intro i h; cases h
theorem test_wit_step_inv : Inv (runs []) ∧ AgendaOk (runs []) := by
  have h : AgendaOk (runs []) := by intro i h; cases h
  exact ⟨⟨by decide +kernel, by decide +kernel, by decide +kernel, by decide +kernel, h⟩, h⟩

/-! Gangs, launches, collectives -/

/-- The paged group with further bytes at 0x100000 (virtual address 0), from a number. -/
def withBytes (g : Group) (n w : Nat) : State :=
  { paged g with mem := (paged {}).mem.take 8 ++
      (((List.range n).map (fun i => (0x100000 + i, BitVec.ofNat 8 (w / 2 ^ (8 * i))))).filter (fun p => p.2 != 0)) ++ (paged {}).mem.drop 8 }
/-- A record: live, view 0 of die 0, one entry of 64 bytes at 0x1000, room for 16; `w` sets more of its first word. -/
def scr (w : Nat) : Nat :=
  2 ^ 63 + 2 ^ 48 + w + 2 ^ 64 + 2 ^ 128 + 6 * 2 ^ 208 + 16 * 2 ^ 384 + 16 * 2 ^ 416 + 0x1000 * 2 ^ 512 + 0x2000 * 2 ^ 1024
def scrOf (w : Nat) : Scr := BitVec.ofNat 2048 (scr w)
theorem test_wit_gangs : let s := withBytes (regs 0) 256 (scr 0)
    let r : Scr := BitVec.ofNat 2048 (peek s.mem 0x100000 256)
    let x : Scr := BitVec.ofNat 2048 (scr (2 ^ 60 + 2 ^ 40))
    (s.cur.replaying false = none ∧ (s.cur.sr 1).toNat % 256 = 0 ∧ inHbm 0x100000 = true ∧ s.bad 0x100000 256 = false) ∧
    (∃ s1, Translates s (s.cur.sr 1) .atomic 0x100000 s1) ∧ (r.live = true ∧ r.outOfRange = false ∧ r.ended = false ∧ r.pend = false ∧ r.halt = false ∧ r.ret = false) ∧
    (r.view = 0 ∧ r.curPins = 0 ∧ r.cap r.bank = 16 ∧ widthOk 1 = true ∧ r.specEnd ≤ popMask 1 * 1 ∧ r.len ≤ 1 ∧ 1 ≤ r.specEnd ∧ (r.vg + 1) % 2 ^ 16 ≠ r.genLow) ∧
    (x.live = true ∧ x.outOfRange = false ∧ x.pend = true ∧ x.halt = false ∧ x.prog < x.len) ∧ (Scr.ended (BitVec.ofNat 2048 (scr (2 ^ 62))) = true) ∧
    (Scr.live (BitVec.ofNat 2048 0) = false) ∧ traps (one (regs 1)) = true ∧ ((one (regs 1)).cur.sr 1).toNat % 256 ≠ 0 := by
  refine ⟨by decide +kernel, xl_ok (by decide +kernel), by decide +kernel, by decide +kernel, by decide +kernel, by decide +kernel, by decide +kernel, by decide +kernel⟩
/-- Records in range that are caught up, halted, pinned once and to the limit, with a retained view pinned once and twice, at their last generation; one out of
range. A page that is no HBM. -/
theorem test_wit_gangRecords : let ok := fun (x : Scr) => x.live && !x.outOfRange && !x.ended
    let pend := 2 ^ 60 + 2 ^ 40
    let old := 1 + 2 ^ 271 + 2 ^ 40
    let s := leafed (2 ^ 46 + 2 ^ 10 + 0x3F) 0
    ([pend + 2 ^ 320, pend + 2 ^ 59, 2 ^ 296, (2 ^ 24 - 1) * 2 ^ 296, old, old + 2 ^ 272, old + 2 * 2 ^ 272, 2 ^ 224].all (fun n => ok (scrOf n)) = true) ∧
    ((scrOf (pend + 2 ^ 320)).pend = true ∧ (scrOf (pend + 2 ^ 320)).halt = false ∧ (scrOf (pend + 2 ^ 320)).prog = (scrOf (pend + 2 ^ 320)).len) ∧
    ((scrOf (pend + 2 ^ 59)).pend = true ∧ (scrOf (pend + 2 ^ 59)).halt = true) ∧ ((scrOf (2 ^ 296)).curPins = 1 ∧ (scrOf ((2 ^ 24 - 1) * 2 ^ 296)).curPins = 2 ^ 24 - 1) ∧
    ((scrOf old).ret = true ∧ (scrOf old).view = 1 ∧ (scrOf old).retPins = 0 ∧ (scrOf (old + 2 ^ 272)).retPins = 1 ∧ 1 < (scrOf (old + 2 * 2 ^ 272)).retPins) ∧
    ((scrOf (2 ^ 224)).vg + 1) % 2 ^ 16 = (scrOf (2 ^ 224)).genLow ∧ ((scrOf (2 ^ 56)).live = true ∧ (scrOf (2 ^ 56)).outOfRange = true) ∧
    ((groupAgent 0 (regs 0)).who.bind (fun w => tagAbove (withBytes (regs 0) 256 (scr 0)) w 0x100000 256)) = none ∧
    gives (fun p => !inHbm p.1) (translateLeaf (groupAgent 0 (regs 0)) 0 .atomic) s = true := by decide +kernel
/-- A redistribution whose entry can be copied, and one whose source is not there; records that a pass leaves alone. -/
theorem test_wit_gangCopy : let q : GangReq := { scr := 0x100000, va := 0, priv := false, part := 0 }
    let s : State := { withBytes (regs 0) 256 (scr (2 ^ 60 + 2 ^ 40)) with gangs := [q] }
    let r : Scr := BitVec.ofNat 2048 (peek s.mem 0x100000 256)
    let far : Scr := BitVec.ofNat 2048 (scr (2 ^ 60 + 2 ^ 40) + 0xF000 * 2 ^ 512)
    s.gangs.find? (fun x => x.scr == 0x100000) = some q ∧ (copyEntries r q.priv (r.len - r.prog) r.prog s).1 = none ∧ r.pend = true ∧ r.halt = false ∧
    r.outOfRange = false ∧ r.prog ≠ r.len ∧
    ((copyEntries far q.priv (far.len - far.prog) far.prog s).1.bind (fun x => x.2)).isSome = true ∧ answers (copyEntry r q.priv 0) s = true := by decide +kernel

/-- A descriptor at virtual address 0: an operation, 8-byte chunks, one member, its table at 0x100; the group is the communication group. -/
def collG (op : Nat) (g : Group) : State := { withBytes g 64 (op * 2 ^ 56 + 8 + 0x100 * 2 ^ 64) with launches := [lch 0] }
theorem test_wit_launchInstr : let s := collG 1 (regs 0)
    (s.cur.replaying false = none ∧ (s.cur.sr 1).toNat % 256 = 0 ∧ canonical (s.cur.sr 1) = true ∧ s.launchOf s.cur.part s.cur.launch = some (lch 0) ∧
      (s.part s.cur.part).devQ.length < 64) ∧
    (∃ n s1, (readVirt (groupAgent s.curG s.cur) (s.cur.sr 1) 256 .read).run s = .ok n s1) ∧ ((one (regs 1)).cur.sr 1).toNat % 256 ≠ 0 ∧
    (one (regs 0)).launchOf 0 0 = none ∧ traps (one (regs 1)) = true := by
  refine ⟨by decide +kernel, answers_ok (by decide +kernel), by decide +kernel, by decide +kernel, by decide +kernel⟩
/-- s1 is 1, every other register 0x40: the operands of a `samp` from s0 and of a `coll.run`. -/
def sampG : Group := { regs 0 with s := (Vector.replicate 64 0).set 1 1 }
/-- The descriptor reads as `w` in the state, and the bytes from virtual address `x` on do or do not. -/
def descReads (s : State) (n : Nat) (x : W64) (ok : Bool) : Bool :=
  match (readVirt (s.cleAgent s.curG s.cur) 0 64 .read).run (s.setCur (s.cur.setLog false none)) with
  | .ok v s1 => v == n && (match (collWords x 1).run s1 with | .ok _ _ => ok | .error (.pages _ _) _ => !ok | _ => false)
  | _ => false
theorem test_wit_collInstr : let s := collG 5 sampG
    let w := BitVec.ofNat 512 (5 * 2 ^ 56 + 8 + 0x100 * 2 ^ 64)
    let z : W64 := s.cur.sr 0
    (s.isComm s.cur = true ∧ (one sampG).isComm (one sampG).cur = false ∧ canonical z = true ∧ z.toNat % 64 = 0 ∧ s.cur.replaying false = none ∧
      1 ≤ (s.cur.sr 1).toNat ∧ (s.cur.sr 1).toNat ≤ 2 ^ 20 ∧ (s.cur.sr 2).toNat + (s.cur.sr 1).toNat ≤ 2 ^ 32) ∧
    (dOp w = 5 ∧ chunkOk w = true ∧ dMem w = 1 ∧ descClean w = true ∧ dOp (BitVec.ofNat 512 (2 ^ 56 + 8)) = 1 ∧ chunkOk (BitVec.ofNat 512 (2 ^ 56 + 8)) = true) ∧
    (descReads s w.toNat 0 true && descReads s w.toNat 0x10000 false &&
      (match (readVirt (s.cleAgent s.curG s.cur) 0x10000 64 .read).run s with | .error (.fault _) _ => true | _ => false)) = true ∧
    canonical (1 <<< 54) = false ∧ chunkOk (BitVec.ofNat 512 (2 ^ 56 + 9)) = false ∧ traps s = true ∧
    (let p : W32 × W32 := (0x3F800000, 0); let q : W32 × W32 := (0x40000000, 1); isNan32 p.1 = false ∧ isNan32 q.1 = false ∧ isNan32 0x7FC00000 = true ∧
      fcondHolds .lt (f32val p.1) (f32val q.1) = true) := by decide +kernel
/-- The one member's contribution arrives; an occasion that is complete, one that has failed, one that is open and has a deadline. -/
def contrib : CollC := { die := 0, data := [0, 0, 0, 0, 0, 0, 0, 0], gid := 0, part := 0, launch := 0, block := 0, bound := none, tok := false, scr := 0, pasid := 0, priv := false }
def occasion (n : Nat) : Coll :=
  { desc := 0, key := 7, chunk := 0, pasid := 0, words := BitVec.ofNat 512 (5 * 2 ^ 56 + 8 + 0x100 * 2 ^ 64 + 0x200 * 2 ^ 128 + n), table := [0], cs := [(0, contrib)],
    begun := 0, status := 0, done := false, token := false }
/-- A first contribution, one to a completed instance, a second one, a late one; a table that names another package whose node is not let in. -/
theorem test_wit_contribution : let x : Send := { desc := 0, key := 7, chunk := 0, words := (occasion 0).words, c := contrib }
    let s : State := { collG 5 (regs 0) with sends := [x] }
    let ag : Agent := { die := 0, core := none, pasid := 0, priv := false }
    let tab := readTable ag (dWord x.words 1) (dMem x.words)
    let s0 : State := { s with sends := [] }
    (match tab.run s, tab.run s0 with
      | .ok t _, .ok u s1 => t == u && ranksOf t 0 == [0] && t.all memOk && fedOk s1 0 false t && (s1.instanceOf 0 7).isEmpty
      | _, _ => false) = true ∧ descClean x.words = true ∧
    ((let t : State := { s0 with colls := [{ occasion 0 with done := true }] }; t.instanceOf 0 7 = [{ occasion 0 with done := true }]) ∧
      (let t : State := { s0 with colls := [occasion 0] }; t.instanceOf 0 7 = [occasion 0])) ∧
    ((occasion 0).has 0 = true ∧ ({ occasion 0 with cs := [] } : Coll).has 0 = false ∧ fedOk s0 0 false [1 <<< 52] = false) ∧
    (let o : Coll := { occasion 0 with cs := [], done := true }
     let t : State := { s0 with colls := [o] }
     match (t.setColl { o with late := putBit o.late 0 true }).tellOne o o.status [] none contrib with | .ok _ => true | _ => false) = true := by decide +kernel
theorem test_wit_occasion : let o := occasion 0
    let g : Group := { regs 0 with wait := .coll 0 7 1 }
    let s : State := { collG 5 g with colls := [o] }
    let late : Coll := { occasion (9 * 2 ^ 256) with cs := [] }
    let f : Coll := { o with status := 0x26 }
    s.openColl 0 7 0 = some o ∧ (o.status = 0 ∧ o.away = false ∧ o.full = true ∧ dMem o.words = 1 ∧ o.isPeer 0 = false ∧ dWord o.words 3 = 0) ∧
    (match (s.setColl { o with done := true, status := 0 }).collWrite { die := 0, core := none, pasid := 0, priv := false }
        (dWord o.words 2 + BitVec.ofNat 64 (o.chunk.toNat * outBytes o.words)) (collResult o.words o.data) with
      | .ok (0, t) => (t.group 0).live && (t.group 0).wait == .coll 0 7 1 && (t.group 0).st == .running && (t.group 0).h.on == contrib.handler
      | _ => false) = true ∧
    (late.full = false ∧ dWord late.words 3 = 0 ∧ ({ s with colls := [late] } : State).colls.find? (fun o => o.desc == 0 && o.key == 7 && !o.done && o.status == 0 && !o.away && !o.full &&
      dWord o.words 4 != 0) = some late) ∧ (f.status ≠ 0 ∧ (match s.closeColl f f.status (fun _ => f.status) [] none with | .ok _ => true | _ => false) = true) := by decide +kernel
theorem test_wit_collEnds : let s := one { regs 0 with wait := .done 1 0 (some (3, 4)) }
    (s.curLane = false ∧ s.cur.live = true ∧ s.cur.h.halted = false ∧ (s.core s.curG.core).off = false ∧ s.cur.h.pend = none ∧
      s.cur.wait = .done 1 0 (some (3, 4))) ∧
    (let p := paged { regs 0 with wait := .put 0x80 0x40 4 1 };
      (p.group 0).live = true ∧ (p.group 0).wait = .put 0x80 0x40 4 1 ∧ (p.group 0).st = .running ∧
      (match (putCopy { die := 0, core := none, pasid := 0, priv := false, who := some (0, 0, 0) } 0x80 0x40 4 0).run p with
        | .ok _ t => t.group 0 == p.group 0 | _ => false) = true) := by decide +kernel
/-- A token's record at 0 with its slot at 0x200; its interface appends none, has room, or has none; and the entry stands in the slot already. -/
theorem test_wit_token : let c : CollC := { contrib with tok := true }
    let o : Coll := { occasion 0 with cs := [(0, c)] }
    let s : State := { withBytes (regs 0) 256 (0x200 * 2 ^ 1536) with colls := [o] }
    let on : Iface := { tokCtl := 0x8000000000000004 }
    s.openColl 0 7 0 = some o ∧ o.tokenOf = some c ∧ o.status = 0 ∧ o.away = false ∧ o.full = true ∧ o.token = false ∧ o.slot = none ∧ bitOf (s.iface 0).tokCtl 63 = false ∧
    (match (tokenPlace c 0).run s with
      | .ok (_, as, e) s1 => answers (writeAddrs { die := 0, core := none, pasid := 0, priv := false } as (natToBytes 8 e.toNat)) s1 | _ => false) = true ∧
    (bitOf on.tokCtl 63 = true ∧ on.tokRoom = true ∧ on.tokens = [] ∧ { on with tokTail := 16 }.tokRoom = false) ∧ ({ o with slot := some 5 } : Coll).slot = some 5 := by
  decide +kernel

/-! Lane memory, matrix, tile and scale instructions -/

/-- A group whose sixteen tiles and accumulators lie in its register space: tile 0 unscaled INT8 of one row of 384 bytes, tile 1 the same but scaled and
not bound, tile 2 of 16 bytes and bound to E0; window 0 open on a page at 0x100000. -/
def mxG : Group :=
  { opened 0 with
    rg := { declared := 0x20000, granules := 32, vview := 0x200000000, tview := 0x10000000, aview := 0x10000000,
            tdesc := vset (vset (vset (Vector.replicate 16 0) 0 0x38170000000) 1 0xB8170000000) 2 0x8000038000000000 },
    ln := { active := true, run := BitVec.allOnes 64, lwords := 16 } }
def hu : LHdr := { hd with uni := true }
theorem test_wit_laneAccess : let s := one mxG
    let g := s.cur.settle
    (hd.never = false ∧ s.cur.replaying true = none ∧ (Instr.lld hd (.vec 2) (.vec 0) .b64 ⟨0, .rlx, false, 0xFF0⟩).wf = true ∧
      (Instr.lst hd (.vec 0) (.vec 2) .b64 ⟨0, .rlx, false, 0xFF0⟩).wf = true ∧ (Instr.laneAtom hu (.vec 2) (.vec 0) (.vec 4) (.vec 0) .n64 .add ⟨0, .rlx, false, 0x7F8⟩).wf = true) ∧
    (g.laneStop [(.vec 2, 2)] [(.vec 0, 1)] = none ∧ g.laneStop [] [(.vec 0, 1), (.vec 2, 2)] = none ∧ g.laneStop [(.vec 2, 2)] [(.vec 0, 1), (.vec 4, 2)] = none) ∧ (g.sel hd).write ≠ 0 ∧
    accLanes g true (g.sel hu).write = [0] ∧ atomCheck false .add .n64 0x1007F8 0 = none ∧ AtomOp.add.special = false ∧
    (g.sel { hd with gpred := 0 }).write = 0 ∧ pushOf (.y 3) = some 3 := by decide +kernel
theorem test_wit_laneHits : let s := one mxG
    let g := s.cur.settle
    (∀ j ∈ accLanes g false (g.sel hd).write, WindowHit (s.setCur g) 0 (g.srcVal (.vec 0) 1 j % 2 ^ 32 + 0xFF0) 8 .read 0x100FF0 ∧
      WindowHit (s.setCur g) 0 (g.srcVal (.vec 0) 1 j % 2 ^ 32 + 0xFF0) 8 .write 0x100FF0 ∧ paRegion 0x100FF0 < 2) ∧ Readable (s.setCur g) 0x100FF0 8 := by
  unfold WindowHit Readable; decide +kernel

/-- A converged group, a diverged one, one whose guard is false, one with no active thread, one with a scale register that could not be corrected. -/
theorem test_wit_scale : let s := one mxG
    MxRuns hu [] [] s 0 ∧ MxRuns hu [(.vec 511, 1)] [(.vec 511, 1)] s 0 ∧ (∀ i, i < 32 → (vword (s.cur.settle.rg.row (s.cur.settle.rg.vrow 511)) i).toNat % 2 ^ 16 < 2 ^ 14) ∧
    (let b := one { mxG with rg := { mxG.rg with ebad := 1 } }; MxRuns hu [] [] b 0 ∧ b.cur.settle.rg.ebad.getLsbD 0 = true ∧ s.cur.settle.rg.ebad.getLsbD 0 = false) ∧
    (one { mxG with ln := { mxG.ln with run := 1 } }).cur.settle.diverged = true ∧ (s.cur.settle.guardMask { hu with gpred := 0 }).getLsbD 0 = false ∧
    (let n := (one { mxG with ln := { mxG.ln with run := 0 } }).cur.settle.ln; n.lowest n.act = none) ∧ traps s = true := by unfold MxRuns; decide +kernel

/-- A byte of the page at 0x100000 is readable. -/
theorem page_readable (a : Nat) (h : 0x100000 ≤ a) (h2 : a < 0x110000) : Readable ((one mxG).setCur (one mxG).cur.settle) a 1 := by
  refine ⟨?_, ?_, rfl, ?_⟩
  · unfold paNode; omega
  · unfold paRegion; omega
  · simp only [tagAbove]; split <;> rfl
/-- Ranges through window 0 of that page. -/
theorem page_hits {k : AKind} {l : List (BitVec 3 × Nat × Nat)} {pa : Nat → Nat → Nat}
    (h : ∀ i, i < l.length → let x := l.getD i (0, 0, 0); WindowHit ((one mxG).setCur (one mxG).cur.settle) x.1 x.2.1 x.2.2 k (pa i 0))
    (h2 : ∀ i j, pa i j = pa i 0 + j) : RangesHit ((one mxG).setCur (one mxG).cur.settle) false k l pa := by
  intro i hi
  simp only [Bool.false_eq_true, if_false]
  exact ⟨h i hi, fun j _ => h2 i j⟩
theorem getD_rows (n m i : Nat) (h : i < n) :
    ((List.range n).map (fun i => ((0 : BitVec 3), m * i, m))).getD i (0, 0, 0) = (0, m * i, m) := by
  simp [List.getD, h]
/-- The single row of tile 2, with its scales, and the image of its pair. -/
theorem test_wit_tile : let s := one mxG
    let d := s.cur.settle.rg.tdesc.getD 2 0
    (MxRuns hu [(.tile 2, 1), (.zero, 1), (.vec 0, 2)] [(.zero, 1), (.vec 0, 2)] s 0 ∧
      MxRuns hu [(.zero, 1), (.tile 2, 1), (.vec 0, 2)] [(.zero, 1), (.tile 2, 1), (.vec 0, 2)] s 0 ∧
      MxRuns hu [(.zero, 1), (.tile 2, 1)] [(.zero, 1), (.tile 2, 1)] s 0 ∧ MxRuns hu [(.zero, 1)] [(.zero, 1)] s 0) ∧ s.cur.settle.rg.ebad.getLsbD 0 = false ∧
    (tdBytes d = 16 ∧ tdRows d = 1) ∧ (tdBvalid d && tdBtag d == s.cur.settle.rg.etag.getD 0 0) = true ∧
    tdBvalid (s.cur.settle.rg.tdesc.getD 1 0) = false ∧ scaleBad 0 = false ∧ scaleBad 0x4000 = true ∧
    (let x : PendTld := { tile := 2, sc := true, e := 0, rows := List.replicate 16 1, scales := 1 };
      ((one { mxG with ln := { mxG.ln with tlds := [x] } }).group 0).ln.tlds = x :: []) ∧ headOk (List.replicate 0x80 0) = true := by
  unfold MxRuns; decide +kernel
theorem test_wit_tileRanges : let s1 := (one mxG).setCur (one mxG).cur.settle
    let pa := fun (_ j : Nat) => 0x100000 + j
    RangesHit s1 false .read [(0, 0, 16), (0, 0, 64)] pa ∧ RangesRead s1 [(0, 0, 16), (0, 0, 64)] pa ∧ RangesHit s1 false .write [(0, 0, 0x80 + 16)] pa := by
  refine ⟨page_hits ?_ fun _ _ => rfl, ?_, page_hits ?_ fun _ _ => rfl⟩
  · unfold WindowHit; decide +kernel
  · intro i j hi hj
    have hj' : j < 64 := by
      simp only [List.length_cons, List.length_nil] at hi
      interval_cases i <;> simp at hj <;> omega
    exact page_readable (0x100000 + j) (by omega) (by omega)
  · unfold WindowHit; decide +kernel

/-- The array of core 0, as it stands before an instruction. -/
def withMx (x : MxArray) (g : Group) : State := { one g with cores := [(0, { mx := x })] }
theorem test_wit_mload : let s := one mxG
    (MxRuns hu [(.tile 0, 1)] [(.tile 0, 1)] s 0 ∧ MxRuns hu [(.tile 1, 1)] [(.tile 1, 1)] s 0 ∧ ArrayFree s false ∧ TokenFree s) ∧
    (s.cur.settle.rg.binding 0 = some unitScales ∧ s.cur.settle.rg.binding 1 = none) ∧
    (tdRows 0x38170000000 ≤ 32 ∧ wLenOk (LTy.ofCode (tdFmt 0x38170000000)) 0 (tdBytes 0x38170000000) = true ∧ s.cur.settle.rg.masksOk (spN 0) 0 0 = true) ∧
    wLenOk (LTy.ofCode (tdFmt 0x38000000000)) 0 (tdBytes 0x38000000000) = false ∧ masksOk (spN 1) [0, 0, 0, 1] = false := by unfold MxRuns ArrayFree TokenFree; decide +kernel
theorem test_wit_mloadBad : let b := one { mxG with rg := { mxG.rg with ebad := 1, tdesc := vset mxG.rg.tdesc 2 0x80000B8170000000 } }
    (MxRuns hu [(.tile 2, 1)] [(.tile 2, 1)] b 0 ∧ b.cur.settle.rg.binding 2 = some 0 ∧ tdScaled (b.cur.settle.rg.tdesc.getD 2 0) = true ∧
      b.cur.settle.rg.ebad.getLsbD (tdSreg (b.cur.settle.rg.tdesc.getD 2 0)).toNat = true ∧ ArrayFree b false ∧ TokenFree b) := by
  unfold MxRuns ArrayFree TokenFree; decide +kernel
/-- A latched buffer for INT8, of one column. -/
def buf : WBuf := { latched := true, fmt := 7, ncols := 1, rowLen := 384 }
theorem test_wit_mloop : let s := withMx { buf0 := buf } mxG
    let r := s.cur.settle.rg
    (MxRuns hu [(.tile 0, 1), (.zero, 4)] [(.zero, 4)] s 0 ∧ MxRuns hu [(.acc 15, 1), (.tile 0, 1), (.zero, 4)] [(.zero, 4)] s 0 ∧ ArrayFree s false ∧ TokenFree s) ∧
    (r.binding 0 = some unitScales ∧ (s.mx 0).actBuf.latched = true ∧ pairKind .i8 (LTy.ofCode (tdFmt (r.tdesc.getD 0 0))) = some false ∧
      actRows (r.tdesc.getD 0 0) (aLen .i8 .i8 0) = some 1 ∧ wLen .i8 .i8 0 = 384 ∧ (s.mx 0).live = false) ∧
    (∀ k : Nat, k < 1 → 0 ≤ ((bitsOf r.tview 0 17 + tdOff (r.tdesc.getD 0 0) : Nat) : Int) + incBytes 0 * k ∧
      ((bitsOf r.tview 0 17 + tdOff (r.tdesc.getD 0 0) : Nat) : Int) + incBytes 0 * k + aBytes (r.tdesc.getD 0 0) ≤ r.declared.toNat) ∧
    ((one mxG).mx 0).actBuf.latched = false := by unfold MxRuns ArrayFree TokenFree; decide +kernel
theorem test_wit_mdrain : let s := withMx { live := true, m := 1, ncols := 1, holder := some 0, chains := [(0, 5)] } mxG
    let s2 := withMx { live := true, m := 2, ncols := 1, holder := some 0 } mxG
    (MxRuns hu [(.acc 15, 1)] [(.acc 15, 1)] s 0 ∧ MxRuns hu [(.tile 0, 1)] [] s 0 ∧ MxRuns hu [] [] s 0 ∧ ArrayFree s false ∧ ArrayFree s true ∧ TokenFree s) ∧
    ((s.mx 0).live = true ∧ (s.mx 0).m ≤ accRows s.cur.settle.rg ∧ (s.mx 0).m ≤ tdRows (s.cur.settle.rg.tdesc.getD 0 0) ∧
      ((s.mx 0).ncols * LTy.i8.width + 7) / 8 ≤ tdBytes (s.cur.settle.rg.tdesc.getD 0 0) ∧ (s.mx 0).port.length < 8) ∧ ¬ (s2.mx 0).m ≤ accRows s2.cur.settle.rg ∧
    s.portBound s.cur.settle = false ∧ ({ s with launches := [{ lch 0 with kdesc := 1#2048 <<< (8 * 0xE0 + 63) }] } : State).portBound s.cur.settle = true := by
  refine ⟨⟨?_, ?_, ?_, ?_, ?_, ?_⟩, by decide +kernel, by decide +kernel, by decide +kernel, by decide +kernel⟩ <;>
    (first | unfold MxRuns | unfold ArrayFree | unfold TokenFree) <;> decide +kernel
/-- The loop of the array's holder, with its token, waiting for one in turn and out of turn; a stream of the shelf that is not there; a drain on its way to the
port. -/
theorem test_wit_sequencer : let l : Loop := { addr := 0, word := 0, steps := 1, done := 0, aDesc := 0x38170000000, aTile := 0, aShf := none, reload := false, wDesc := 0,
                                               wTile := 0, wShf := none, mDesc := 0, mTile := 0, sp := 0, incA := 0, incW := 0, incEa := 0, incEb := 0, dstep := false,
                                               acc := 0, rnd := .rn }
    let at' := fun (l : Loop) (t : Bool) => withMx { buf0 := buf, holder := some 0, loop := some l, mode := .running, token := t } mxG
    let s := at' l true
    let f := at' { l with aShf := some 0 } true
    let ready := fun (s : State) => (s.die 0).pool != 0 && tokenNext (s.requestToken 0) 0 == some 0
    ((s.core 0).mx.holder = some 0 ∧ (s.core 0).mx.loop = some l ∧ (s.core 0).mx.mode = .running ∧ (s.core 0).mx.token = true ∧ l.aShf = none ∧ l.wShf = none ∧
      (s.group 0).rg.bad = []) ∧
    (ready (at' l false) = true ∧ ready { at' l false with dies := (0, { resetDie 0 with pool := 0 }) :: resetDies.drop 1 } = false) ∧
    (match (stepReads 0 l).run (s.takeToken 0) with | .ok _ t => t == s.takeToken 0 | _ => false) = true ∧
    (let e : Loop := { l with aDesc := 0x80000B8170000000, ebad := 1 }; e.scaleLost 0 = true ∧ l.scaleLost 0 = false ∧ (s.group 0).stepDrowsy l = false ∧
      ({ mxG with rg := { mxG.rg with drowsy := 1 } } : Group).stepDrowsy l = true) ∧
    (match (stepReads 0 { l with aShf := some 0 }).run (f.takeToken 0) with | .error _ t => t == f.takeToken 0 | _ => false) = true ∧
    (let o := withMx { holder := some 0, token := true, port := List.replicate 8 [], outQ := [[1]] } mxG;
      (o.core 0).mx.holder = some 0 ∧ (o.core 0).mx.outQ ≠ [] ∧ (o.core 0).mx.mode = .idle ∧ (o.core 0).mx.token = true) := by decide +kernel
theorem test_wit_products : (∀ q ∈ [((3 : Int), (-32 : Int)), (-5, 4)], -32 ≤ q.2) ∧ (0 : BitVec 128).extractLsb' 126 2 = 0#2 := by decide +kernel

/-- The images of `mdrain.raw` and `msave` lie in the page; an aligned and a misaligned address; an image that is zero and one with a reserved bit. -/
theorem test_wit_images : let s := one mxG
    let s1 := s.setCur s.cur.settle
    let raw := (List.range 1024).map (fun i => ((0 : BitVec 3), 16 * i, 16))
    let img := (List.range 162).map (fun i => ((0 : BitVec 3), 256 * i, 256))
    (MxRuns hu [(.zero, 1)] [(.zero, 1)] s 0 ∧ ArrayFree s true) ∧ RangesHit s1 false .write raw (fun i j => 0x100000 + 16 * i + j) ∧
    RangesHit s1 false .read img (fun i j => 0x100000 + 256 * i + j) ∧ RangesRead s1 img (fun i j => 0x100000 + 256 * i + j) ∧
    ((s.cur.settle.winVa 0 0).toNat % 256 = 0 ∧ (s.cur.settle.winVa 0 8).toNat % 16 ≠ 0) ∧
    imageOk (List.replicate 41472 0) = true ∧ (rawOk 0 = true ∧ rawOk (1 <<< 112) = false) := by
  refine ⟨?_, page_hits ?_ fun _ _ => rfl, page_hits ?_ fun _ _ => rfl, ?_, by decide +kernel, ?_, by decide +kernel⟩
  · unfold MxRuns ArrayFree; decide +kernel
  · have h : ∀ i, i < 1024 → WindowHit ((one mxG).setCur (one mxG).cur.settle) 0 (16 * i) 16 .write (0x100000 + 16 * i + 0) := by
      unfold WindowHit; decide +kernel
    intro i hi; rw [List.length_map, List.length_range] at hi; dsimp only; rw [getD_rows _ _ _ hi]; exact h i hi
  · have h : ∀ i, i < 162 → WindowHit ((one mxG).setCur (one mxG).cur.settle) 0 (256 * i) 256 .read (0x100000 + 256 * i + 0) := by
      unfold WindowHit; decide +kernel
    intro i hi; rw [List.length_map, List.length_range] at hi; dsimp only; rw [getD_rows _ _ _ hi]; exact h i hi
  · intro i j hi hj
    rw [List.length_map, List.length_range] at hi
    rw [getD_rows _ _ _ hi] at hj
    have hj' : j < 256 := hj
    exact page_readable (0x100000 + 256 * i + j) (by omega) (by omega)
  · unfold imageOk fieldAt; simp only [List.drop_replicate, List.take_replicate]; decide +kernel

/-! Launches, registers, the platform -/

/-- A launch of two blocks of one group on core 0, in a mode; partition 0 has one slot there. -/
def fresh (mode : Nat) : Launch := { lch mode with placed := [], next := 0 }
def quota : Core := { quotaA := vset (Vector.replicate 8 0) 0 0x8000000002000200, quotaB := Vector.replicate 8 0 }
def placing (l : Launch) : State := { State.reset with cores := [(0, quota)], launches := [l] }
theorem test_wit_place : let l := fresh 0
    let s := placing l
    s.launchOf 0 0 = some l ∧ l.places s = true ∧ firstServed s l = true ∧ rMode l.record = 0 ∧ (freeCands l).contains 0 = true ∧ seatFree s l 0 0 = true ∧
    (freeCands l).takeWhile (fun j => j != 0) = [] ∧ (s.room 0 0 l.kdesc).isSome = true ∧ (lch 0).places (placing (lch 0)) = false ∧
    (let m := fresh 1; let t := placing m;
      rMode m.record ≠ 0 ∧ m.places t = true ∧ firstServed t m = true ∧ ((seatsNow t m).bind (fun x => State.placeList m x t)).isSome = true ∧
      { m with passedOver := 16 }.waitsAll t = true) := by decide +kernel
/-- A record waits on interface 5, whose kernel descriptor can be read; one cannot be read; the device-side queue holds one. -/
theorem test_wit_accept : let x : Iface := { cfg := 0x8000000000000000, subTail := 1 }
    let s : State := { paged {} with ifaces := [(5, x)], parts := [(0, { devQ := [(5, 0)] })] }
    let ag : Agent := { die := 0, core := none, pasid := 0, priv := false }
    (s.iface 5).subHead ≠ (s.iface 5).subTail ∧ bitOf (s.iface 5).cfg 63 = true ∧ (s.iface 5).resetting = false ∧ (s.part 0).devQ = (5, 0) :: [] ∧
    answers (readLaunch ag (slotRecord x 0)) s = true ∧
    (match (readLaunch ag (slotRecord x 0)).run State.reset with | .error (.fault _) _ => true | _ => false) = true ∧
    (s.iface 6).subHead = (s.iface 6).subTail := by decide +kernel
/-- A finished launch without a successor; one whose condition word at 0x40 is zero, so that the rule of a zero word holds, and not; one whose condition or
successor is not there. -/
theorem test_wit_complete : let l : Launch := { lch 0 with ended := 2 }
    let s : State := { paged {} with launches := [l] }
    let m := fun (c r : Nat) => ({ l with record := BitVec.ofNat 2048 (c * 2 ^ 384 + r * 2 ^ 552 + 2 ^ 560) } : Launch)
    let ag := fun (l : Launch) => ({ lfeAgent (s.iface l.iface) with pasid := l.pasid, priv := l.priv } : Agent)
    let cond := fun (l : Launch) (P : Except Bool Bool → State → Bool) => match (condHoldsAcc (ag l) l.record).run s with
      | .ok b t => P (.ok b) t | .error (.fault _) t => P (.error true) t | .error _ t => P (.error false) t
    let far : Launch := { m 0x40 2 with record := (m 0x40 2).record ||| BitVec.ofNat 2048 (0x10000 * 2 ^ 448) }
    (s.launchOf 0 0 = some l ∧ l.done = false ∧ l.finished s = true ∧ s.owins = [] ∧ l.record.extractLsb' 384 64 = 0#64 ∧ (lch 0).finished s = false) ∧
    cond (m 0x40 2) (fun b t => (match b with | .ok true => true | _ => false) && answers (succRecord (ag l) (m 0x40 2).record) t) = true ∧
    cond (m 0x40 1) (fun b _ => match b with | .ok false => true | _ => false) = true ∧
    cond (m 0x10000 2) (fun b _ => match b with | .error true => true | _ => false) = true ∧
    cond far (fun b t => (match b with | .ok true => true | _ => false) &&
      (match (succRecord (ag l) far.record).run t with | .error (.fault _) _ => true | _ => false)) = true ∧
    rLeft (m 0x40 2).record ≠ 0 ∧ rLeft l.record = 0 ∧
    (let d : Launch := { lch 0 with done := true, succ := some 5 }; d.done = true ∧ d.succ = some 5 ∧ (s.part 0).devQ.length < 64 ∧
      (s.iface 0).records.any (fun x => x.2.1 == 0 && x.2.2 == 0) = false) := by decide +kernel
theorem test_wit_records : let s : State := { State.reset with ifaces := [(0, { cqCtl := 0x8000000000000004, records := [(1, 0, 0)] })] }
    (s.iface 0).records = (1, 0, 0) :: [] ∧ bitOf (s.iface 0).cqCtl 63 = true ∧ ((s.iface 0).cqTail - (s.iface 0).cqHead).toNat < 2 ^ bitsOf (s.iface 0).cqCtl 0 5 := by
  decide +kernel
theorem test_wit_restore : let x : Saved := { block := 0, core := 0, gid := 0, gidx := 0, kept := {}, arrived := [], cls := 0, holder := false }
    let l : Launch := { lch 0 with saved := [x] }
    let q : Launch := { fresh 0 with id := 1, record := BitVec.ofNat 2048 (2 ^ 121) }
    let s : State := { placing l with launches := [l, q] }
    s.launchOf 0 1 = some q ∧ q.done = false ∧ q.status = 0 ∧ bitOf q.record 121 = true ∧ (s.part 0).preReq = false ∧
    s.launchOf 0 (q.record.extractLsb' 608 32) = some l ∧ l.saved = [x] ∧ (s.roomN 0 0 l.kdesc 1).isSome = true ∧
    imageSpoilt s l x.core [x] = false ∧ heldBack s q x.core = false ∧ firstServed s q = true ∧
    imageSpoilt { s with badWords := [areaOf s 0 0] } l x.core [x] = true := by decide +kernel
theorem test_wit_preempt : let s := one (regs 0)
    (s.part 0).preReq = false ∧ shelfWriters s 0 = [] ∧ s.groups.filter (fun y => y.2.live && y.2.part == 0) = [(0, regs 0)] ∧ s.group (BitVec.ofNat 16 0) = regs 0 ∧
    (regs 0).h.on = false ∧ (regs 0).st ≠ .exiting ∧ s.mxErrOf (BitVec.ofNat 16 0) = none ∧
    ({ State.reset with parts := [(0, { preReq := true })] } : State).part 0 = { preReq := true } ∧ State.reset.groups.filter (fun y => y.2.live && y.2.part == 0) = [] := by decide +kernel
/-- The marking of a logit's record at virtual address 0, which it finds at 0x200, and one that cannot be made. -/
theorem test_wit_budget : let b : Block := { blk with budget := 1, ran := true }
    let s : State := { shelf (regs 0) with blocks := [b], launches := [{ lch 0 with record := BitVec.ofNat 2048 (2 ^ 122) }] }
    let marks := fun (s : State) => match (logitMark { die := 0, core := some 0, pasid := 0, priv := false } 0x200 0 0).run s with
      | .ok _ _ => 0 | .error (.fault _) _ => 1 | .error _ _ => 2
    s.blockOf 0 0 0 = some b ∧ b.gids = 0 :: [] ∧ b.budget ≠ 0 ∧ b.ran = true ∧ b.paused = false ∧ s.isLogit 0 0 = true ∧ (b.gids = [0] ∧ (s.group 0).h.on = false) ∧
    ((s.group 0).part = 0 ∧ (s.group 0).launch = 0 ∧ (s.group 0).block = 0) ∧ marks (paged (regs 0)) = 0 ∧ marks s = 1 := by decide +kernel
theorem test_wit_ifaceReset : let s : State := { placing (fresh 0) with ifaces := [(0, { resetting := true })] }
    fresh 0 ∈ s.launches ∧ (fresh 0).iface = 0 ∧ (fresh 0).done = false ∧ s.launchOf 0 0 = some (fresh 0) ∧ untaken s 0 = [] ∧
    (s.iface 0).resetting = true ∧ (State.reset.iface 0).resetting = false ∧ s.colls = [] ∧ s.sends = [] ∧ (s.iface 0).tokens = [] := by decide +kernel

/-- Eight records are in flight at most; a peer of node 7 with every right. -/
theorem test_wit_subTail : let s : State := { State.reset with ifaces := [(0, { cfg := 0x8000000000000000, subHead := 3 })], act := [(7, 0xFE00000000000007#128)] }
    let d := fun (v : W64) => (v.extractLsb' 0 32 - (s.iface 0).subHead).toNat
    bitOf (s.iface 0).cfg 63 = true ∧ (s.iface 0).resetting = false ∧ d 11 ≤ 8 ∧ 8 < d 12 ∧ admits s 7 62 (some 0) = true ∧ admits s 7 60 none = true ∧
    admits s 8 60 none = false ∧ ((s.iface 0).subTail + 11 - (s.iface 0).subHead).toNat ≤ 8 := by decide +kernel
/-- The link to every node is up after reset, whichever port it has (log 78), and down once all ports are. -/
theorem test_wit_links : ∀ node, State.reset.linkDown node = false ∧
    ({ State.reset with dies := resetDies.map (fun d => (d.1, { d.2 with portsDown := 7 })) } : State).linkDown node = true := by
  have up : ∀ k, k < 8 → (State.reset.die (BitVec.ofNat 3 k)).portsDown = 0 := by decide +kernel
  have down : ∀ k, k < 8 → (({ State.reset with dies := resetDies.map (fun d => (d.1, { d.2 with portsDown := 7 })) } : State).die (BitVec.ofNat 3 k)).portsDown = 7 := by
    decide +kernel
  have bits : ∀ j, j < 3 → bitOf (7 : BitVec 3) j = true := by decide
  intro node
  have h : Config.portOf node % 24 / 3 < 8 := by omega
  have h3 : Config.portOf node % 24 % 3 < 3 := by omega
  constructor
  · simp only [State.linkDown, up _ h]; simp [bitOf]
  · simp only [State.linkDown, down _ h]; exact bits _ h3
/-- Interface page 1 lies in die 4's half, page 0 in die 0's; the debug port. -/
theorem test_wit_outside : State.reset.plat.recovery = false ∧ inMemory 0x1000 = true ∧ inMemory (0x1000 + sizeBytes .b128 - 1) = true ∧ inMemory (3 * 2 ^ 46) = false ∧ 2 ≤ paRegion (3 * 2 ^ 46 + 0x7000) ∧
    sysOnlyReg (3 * 2 ^ 46 + 0x7000) = true ∧ paNode (3 * 2 ^ 46 + 0x7000) = 0 ∧ (3 * 2 ^ 46 + 0x7000) % 8 = 0 ∧ atomCheck false .add .n64 0x1000 5 = none ∧
    State.reset.bad 0x1000 8 = false ∧ State.reset.agenda = [] ∧ isDebugPort (3 * 2 ^ 46 + 0x4000) = true ∧ isDebugPort 0x1000 = false ∧
    ({ State.reset with plat := { recovery := true } } : State).plat.recovery = true ∧ pageOf (4 * 2 ^ 46) = some 0 ∧ pageOf (4 * 2 ^ 46 + 0x808) = some 0 ∧ sysOnlyReg (4 * 2 ^ 46 + 0x808) = false ∧ sysOnlyReg (4 * 2 ^ 46 + 0x10) = true ∧
    (let s : State := { State.reset with act := [(7, 0xFE00000000000007#128)] };
      admits s 7 62 (some 0) = true ∧ admits s 7 60 none = true ∧ admits s 8 62 (some 0) = false ∧ admitsAt s 7 (4 * 2 ^ 46 + 0xFF0) = true ∧
      admitsAt { s with act := [(7, BitVec.ofNat 128 (2 ^ 60))] } 7 (4 * 2 ^ 46 + 0x7F8) = false) := by decide +kernel
/-- A first-touch ring of 64 entries at 0x200000 with two frames. -/
theorem test_wit_ring : let s : State := { State.reset with
      mem := [(0x200002, 0x30), (0x20000A, 0x31)]
      dies := [(0, { resetDie 0 with ftzRing := 0x200006, ftzTail := 2 })] }
    ftzOn (s.die 0) = true ∧ ((64 : W64).extractLsb' 0 32 - (s.die 0).ftzHead).toNat ≤ 2 ^ bitsOf (s.die 0).ftzRing 0 5 ∧
    ¬ ((65 : W64).extractLsb' 0 32 - (s.die 0).ftzHead).toNat ≤ 2 ^ bitsOf (s.die 0).ftzRing 0 5 ∧ ftzOn (State.reset.die 0) = false ∧
    (1 + 2 ^ 6 * 2 ^ 32 - (s.die 0).ftzHead.toNat) % 2 ^ 6 < poolCount (s.die 0) ∧ goodFrame 0 (ringEntry s 0 1) = true ∧ (s.die 0).zeroed.contains (ringEntry s 0 1) = false := by
  decide +kernel
/-- A leaf that scrubs its page; another leaf of its die that an access has stalled on. -/
theorem test_wit_scrub : let s : State := { State.reset with mem := [(0x1000, 0x83), (0x1002, 0x30)] }
    let e := s.read64 0x1000
    inHbm 0x1000 = true ∧ bitOf e 0 = true ∧ bitOf e 1 = true ∧ bitOf e 7 = true ∧ inHbm (e.toNat / 2 ^ 16 * 2 ^ 16) = true ∧ bitOf (s.read64 0x2000) 7 = false ∧
    checkLeaf s 2 e = none ∧ stalledOn s (paDie (e.toNat / 2 ^ 16 * 2 ^ 16)) = [] ∧
    (let t : State := { s with stalls := [(0x1000, 2)] }; stalledOn t 0 = [(0x1000, 2)] ∧ (0x1008, 2) ∉ stalledOn t 0) := by
  decide +kernel
theorem test_wit_faultQueue : let s : State := { State.reset with parts := [(0, { fqEn := true, fqLog2 := 4, waiting := [1] })] }
    (s.part 0).waiting = 1 :: [] ∧ (s.part 0).fqEn = true ∧ ((s.part 0).fqTail - (s.part 0).fqHead).toNat < 2 ^ (s.part 0).fqLog2.toNat ∧
    (let l : OpLog := { addr := 0, word := 0, lane := false, valid := false, exec := 0, scalars := 0, srcA := 0, regd := 0, record := 9 }
     let g := (one { live := true, slog := some l }).group 0
     g.live = true ∧ g.part = 0 ∧ g.pendingFault false = some 9 ∧ g.log false = some l ∧ g.pendingFault true = none) := by decide +kernel

/-- Core 3 of die 0 waits for a token, its wait short or long. -/
theorem test_wit_tokens : let s := fun (n : BitVec 7) => ({ State.reset with
      cores := [(3, { mx := { waiting := true, passed := n } })]
      dies := [(0, { resetDie 0 with tokQ := [3] })] } : State)
    tokenNext (s 63) 0 = some 3 ∧ tokenNext (s 64) 0 = some 3 ∧ ((s 63).die 0).pool ≠ 0 ∧ (3 : BitVec 10).extractLsb' 7 3 = (0 : BitVec 3) ∧ ((s 63).core 3).mx.token = false ∧
    ((s 63).die 0).tokQ.Nodup ∧ 64 ≤ ((s 64).core 3).mx.passed.toNat := by decide +kernel
theorem test_wit_granules : let g : Group := { live := true, st := .parked 0 0 0, rg := { granules := 32 }, ln := { runQ := [5] } }
    let s : State := { one g with cores := [(0, { rfDrowsy := 1 })] }
    (s.group 0).live = true ∧ (s.group 0).st = .parked 0 0 0 ∧ (s.core 0).rfDrowsy.extractLsb' 0 32 ≠ 0#32 ∧ (31 : BitVec 5).toNat < (s.group 0).rg.granules.toNat ∧
    (s.group 0).h.halted = false ∧ (s.group 0).ln.runQ = 5 :: [] ∧ (s.group 0).resultsDue = false ∧
    ({ g with ln := { g.ln with sfuQ := [{ d := .vec 0, w64 := false, uni := false, mask := 0, lo := 0, hi := 0 }] } } : Group).resultsDue = true ∧ (s.group 0).ln.active = false ∧ (s.group 0).ln.exited ≠ BitVec.allOnes 64 ∧
    (one (regs 0)).streamReady 0 false = true ∧ (one mxG).streamReady 0 true = true ∧ State.reset.streamReady 0 true = false ∧ (State.reset.core 0).rfDrowsy.extractLsb' 0 32 = 0#32 := by
  decide +kernel
theorem test_wit_power : let s : State := { State.reset with plat := { reserve := 5, pwrNow := 3601 } }
    ((96 : BitVec 10).toNat ≤ (s.die 0).pool.toNat ∧ (s.die 0).pool.toNat < (97 : BitVec 10).toNat ∧ (5 : BitVec 10).toNat ≤ s.plat.reserve.toNat) ∧
    s.plat.pwrNow.toNat > s.plat.pwrCap.toNat ∧ ¬ State.reset.plat.pwrNow.toNat > State.reset.plat.pwrCap.toNat := by decide +kernel
/-- A word of memory, of register space and a scale register, each of a live group and of none; a test in flight. -/
theorem test_wit_errors : let w : ErrWord := .mem 0x1000
    paNode w.place.2.toNat = 0 ∧ paRegion w.place.2.toNat < 2 ∧ w ∈ ({ State.reset with tests := [w] } : State).tests ∧
    ErrWord.reg 0 3 ∈ ({ State.reset with tests := [.reg 0 3] } : State).tests ∧ ErrWord.scale 0 3 ∈ ({ State.reset with tests := [.scale 0 3] } : State).tests ∧
    ((one mxG).group 0).live = true ∧ 4 * (0x7FFF : BitVec 16).toNat < ((one mxG).group 0).rg.declared.toNat ∧ (State.reset.group 0).live = false ∧
    (23 : BitVec 5).toNat < 24 := by decide +kernel
/-- What the flash holds is free (log 79): whichever it is, it starts a firmware with a spare map or it does not. -/
theorem test_wit_boot (flash : Sparse 8) : let spare := (appliedRecords flash).any (fun r => (Config.recordNames r.2.2).2.2)
    (∃ v h seq body, bootFirmware flash = some (v, h) ∧ newestRecord flash = some (seq, body) ∧ spare = true) ∨
      bootFirmware flash = none ∨ newestRecord flash = none ∨ spare = false := by
  rcases h : bootFirmware flash with _ | ⟨v, k⟩
  · exact .inr (.inl rfl)
  · rcases h2 : newestRecord flash with _ | ⟨seq, body⟩
    · exact .inr (.inr (.inl rfl))
    · cases h3 : (appliedRecords flash).any (fun r => (Config.recordNames r.2.2).2.2)
      · exact .inr (.inr (.inr rfl))
      · exact .inl ⟨v, k, seq, body, rfl, rfl, rfl⟩
/-- A request of each kind on the debug port, the one request; a group that is halted, a core that is off, no group. What the firmware and a signature answer is
free (log 10): no state settles `tokenValid`. -/
theorem test_wit_debug : let w : W64 := 2 ^ 60
    let s := fun (op : W64) (g : Group) => ({ one g with plat := { sec := 3, dbgReqs := [(op * w, 7)] } } : State)
    let h : Group := { mxG with h := { halted := true } }
    let z : Group := { mxG with rg := { mxG.rg with drowsy := BitVec.allOnes 32 } }
    let asks := fun (op : W64) => (s op h).plat.dbgReqs == [(op * w, 7)] && bitsOf (op * w) 60 3 == op.toNat && (op * w).extractLsb' 44 16 == 0 && (op * w).extractLsb' 0 18 == 0
    ([0, 1, 2, 3].all asks = true) ∧
    dbgGate (s 1 h) 0 = none ∧ ((s 1 h).group 0).h.halted = true ∧ (s 1 h).holds 0 = false ∧ 0x5FFF < 0x6000 ∧ 0x6000 + 0x1FFFF - 0x6000 < ((s 1 h).group 0).rg.declared.toNat ∧
    (inScales 0x860 = true ∧ inScales 0x85F = false ∧ inScales 0x10FF = true) ∧
    (dbgGate (s 1 z) 0 = none ∧ ((s 1 z).group 0).h.halted = false ∧ bitOf ((s 1 z).group 0).rg.drowsy 31 = true ∧ bitOf ((s 1 h).group 0).rg.drowsy 31 = false) ∧
    ((s 3 h).part mxG.part).preReq = false ∧ (State.reset.group 0).live = false ∧ State.reset.plat.dbgReqs = [] ∧ (mxG.wait = .none) ∧
    ({ s 1 h with cores := [(0, { off := true })] } : State).core 0 = { off := true } := by decide +kernel
theorem test_wit_quote : (State.reset.mantel 0).quoting = none ∧ ({ State.reset with mantels := [(0, { quoting := some [1] })] } : State).mantel 0 = { quoting := some [1] } := by
  decide +kernel

/-! Further cases of the statements' clauses -/

/-- A loop of one step that reads INT8 rows of tile 0, or of the shelf. -/
def loopA (o : Option W32) : Loop :=
  { addr := 0, word := 0, steps := 1, done := 0, aDesc := 0x38170000000, aTile := 0, aShf := o, reload := false, wDesc := 0, wTile := 0, wShf := none, mDesc := 0, mTile := 0,
    sp := 0, incA := 0, incW := 0, incEa := 0, incEb := 0, dstep := false, acc := 0, rnd := .rn }
/-- Barriers beside a running loop that reads the shelf; a phase that has failed; a first arrival at a rectangle that is not full; a `.wait` after an arrival
whose phase is complete, and not. -/
theorem test_wit_barrierWaits : let s := wide 2 (regs 0)
    let reads := { s with cores := [(0, { mx := { holder := some 0, mode := .running, loop := some (loopA (some 0)) } })] }
    let id := fun (k : BitVec 2) => ({ kind := k, idx := 3, rect := 0 } : BarId)
    let bar := fun (p : Nat) => ({ part := 0, launch := 0, die := 0, id := id 1, phase := p, arrived := [], fin := [], failed := true } : WideBar)
    let late := fun (k : BitVec 2) (p : Nat) => ({ wide 2 { regs 0 with arrived := [(id k, 0)] } with bars := [{ bar p with id := id k, failed := false }] } : State)
    (reads.loopReads reads.curG = true ∧ s.loopReads s.curG = false ∧ s.members blk = [s.cur.gidx] ∧ ((s.wideBar 0 s.cur (id 1)).arrived = []) ∧ traps s = true) ∧
    (({ s with bars := [bar 0] } : State).wideBar 0 s.cur (id 1)).failed = true ∧ rectFull { s with blocks := [] } s.cur 0 = false ∧
    ([1, 2, 3].all (fun k => (late k 1).cur.latest k 3 == some (id k, 0) && (late k 1).phaseDone 0 (id k) 0 && !(late k 0).phaseDone 0 (id k) 0) = true) ∧
    s.cur.latest 3 3 = none ∧ (s.launchOf s.cur.part s.cur.launch).isSome = true := by decide +kernel
/-- A block before its first instruction, one whose budget is paused, one that counts. -/
theorem test_wit_began : let s : State := { shelf (regs 0) with blocks := [{ blk with budget := 7 }] }
    let b : Block := { blk with budget := 7, ran := true }
    s.blockAt (s.group 0) = some { blk with budget := 7 } ∧ (s.group 0).live = true ∧ (s.group 0).h.on = false ∧ hold s = none ∧
    b.ran = true ∧ b.paused = false ∧ ((9 : W64) - b.begun).toNat = 9 - b.begun.toNat ∧ ((b.begun + 3) - b.begun).toNat < b.budget.toNat := by decide +kernel
/-- A scale register of which every exponent is 0xFF, and a vector register with bits 15:14 set in its words. -/
theorem test_wit_scaleMax : let s := one { mxG with rg := { mxG.rg with e := Vector.replicate 32 (BitVec.allOnes 512), rows := [(511, BitVec.allOnes 2048)] } }
    MxRuns hu [] [] s 0 ∧ MxRuns hu [(.vec 511, 1)] [(.vec 511, 1)] s 0 ∧ (∀ i, i < 32 → (scaleEntry (s.cur.settle.rg.e.getD 0 0) i).toNat % 2 ^ 8 = 0xFF) ∧
    2 ^ 14 ≤ (vword (s.cur.settle.rg.row (s.cur.settle.rg.vrow 511)) 0).toNat % 2 ^ 16 ∧ traps s = true := by unfold MxRuns; decide +kernel
/-- An array instruction under the group's own running loop, and the group with such an instruction in its log. -/
theorem test_wit_ownLoop : let s := withMx { buf0 := buf, holder := some 0, loop := some (loopA none), mode := .running } mxG
    let l : OpLog := { addr := 0, word := 0, lane := true, valid := false, exec := 0, scalars := 0, srcA := 0, regd := 0, scrub := true }
    MxRuns hu [] [] s 0 ∧ s.mxErrOf s.curG = none ∧ (s.mx s.curG).holder = some s.curG.slot ∧ (s.mx s.curG).mode = .running ∧
    (one { mxG with llog := some l }).cur.live = true ∧ (one { mxG with llog := some l }).cur.llog.any OpLog.scrub = true ∧
    (one mxG).cur.llog.any OpLog.scrub = false := by unfold MxRuns; decide +kernel
/-- No buffer is latched, so no form of an `mloop` is in shape; the operands, ranges and binding are those of a loop that runs. -/
theorem test_wit_mloopShape : let s := one mxG
    (MxRuns hu [(.tile 0, 1), (.zero, 4)] [(.zero, 4)] s 0 ∧ ArrayFree s false ∧ TokenFree s) ∧ (arrayAt s).actBuf.latched = false ∧ traps s = true := by
  unfold MxRuns ArrayFree TokenFree; decide +kernel
/-- Each check of R62 has an operand that fails it and no earlier one: a misaligned address, register space, an ordered kind under `.det`, an exponent of 189. -/
theorem test_wit_atomChecks : let big : Nat := 189 * 2 ^ 23
    (0x100041 % 4 ≠ 0 ∧ 0x100040 % 16 = 0 ∧ paRegion 0x100040 = 0) ∧ (paRegion (2 ^ 46 + 2 ^ 45) ≠ 0 ∧ (2 ^ 46 + 2 ^ 45) % 16 = 0) ∧
    189 ≤ big / 2 ^ 23 % 2 ^ 8 ∧ big < 2 ^ 32 ∧ ¬ 189 ≤ (0x3F800000 : Nat) / 2 ^ 23 % 2 ^ 8 ∧
    atomCheck false .add .i32 0x100041 5 = some .atomAlign ∧ atomCheck false .fxadd .f32 0x100040 big = some .fxRange ∧
    atomCheck true .fadd .f32 0x100040 0 = some .atomDet := by decide
/-- A non-blocking `qld` in the log, on a queue that a handler has filled. -/
theorem test_wit_qldReplay : let l : OpLog := { addr := 0, word := 0, lane := false, valid := true, exec := 0, scalars := 0, srcA := 0, regd := 0 }
    let s := one { opened 0xFF00 with slog := some l, q := vset (Vector.replicate 8 []) 7 (List.replicate 4 0) }
    s.cur.replaying false = some l ∧ 4 ≤ (s.cur.q.getD (7 : BitVec 3).toNat []).length := by decide +kernel
/-- A queue of 64 commands; a halted fetch of an empty queue and of a full one. -/
theorem test_wit_fetchHalts : let q := fun (n : Nat) => ({ cmds := List.replicate n cmd0, fetch := 0x80, fetchHalt := 0x13, owner := some cmd0 } : Queue)
    (64 ≤ (q 64).cmds.length ∧ (q 64).fetchHalt ≠ 0 ∧ (q 64).owner = some cmd0 ∧ ∀ c ∈ (q 64).cmds, ∀ code, c.st ≠ .halted code) ∧
    ((q 0).cmds = [] ∧ cmd0.bufs = [] ∧ cmd0.recAt = none ∧ cmd0.targets = []) ∧ chained.queue 0 64 = { chained.queue 0 64 with fetchEnd := 0 } ∧
    (chained.queue 0 64).cmds.length < 64 := by
  refine ⟨⟨by decide +kernel, by decide, rfl, ?_⟩, by decide +kernel, by decide +kernel, by decide +kernel⟩
  intro c h code
  rw [List.eq_of_mem_replicate h]
  exact nofun
/-- A group that is halted at its publish, and one with a trap that waits. -/
theorem test_wit_publishHalted : let x : PendTrap := { cause := .dataError, record := 0, pc := 0, lpc := 0 }
    let s := fun (h : Handler) => published 0 |>.setGroup 0 { regs 255 with wait := .publBuf 255 1 0, h := h }
    ((s {}).group 0).h.pend = none ∧ ((s { pend := some x }).group 0).h.pend ≠ none ∧ ((s { halted := true }).group 0).h.halted = true := by decide +kernel
/-- The products of a step whose kept positions are none, and all; a chain that is exact, grouped, infinite and not a number; sums with an accumulator. -/
theorem test_wit_chainValues : let st := fun (c : BitVec 128) => c.extractLsb' 126 2
    (st 0 = 0#2 ∧ st (1 <<< 126) = 1#2 ∧ st (2 <<< 126) = 2#2 ∧ st (3 <<< 126) = 3#2) ∧ ((0 : BitVec 128).extractLsb' 96 16).toInt = 0 ∧
    (∀ p ∈ [FVal.fin 3 0], (∃ n, p = .zero n) ∨ ∃ m e, p = .fin m e ∧ m ≠ 0) ∧ (∀ m e, FVal.fin m e ∈ [FVal.fin 3 0] → |m| < 2 ^ 64 ∧ -1000 ≤ e ∧ e ≤ 1000) ∧
    ((2 : ℚ) ^ (1 : Int) ≤ |3 * 2 ^ (0 : Int)| ∧ |(3 : ℚ) * 2 ^ (0 : Int)| < 2 ^ ((1 : Int) + 1)) ∧ ([FVal.fin 3 0].length ≤ 32 ∧ (List.replicate 32 FVal.nan).length = 32) ∧
    (scaleEntry unitScales 31).toNat % 2 ^ 8 ≠ 255 ∧ (scaleEntry (BitVec.allOnes 512) 0).toNat % 2 ^ 8 = 255 ∧
    (f32val 0x7F800000 = .inf false ∧ f32val 0x7FC00000 = .nan ∧ f32val 0x80000000 = .zero true ∧ ∃ m e, f32val 0x3F800000 = .fin m e ∧ m ≠ 0) := by
  refine ⟨by decide, by decide, ?_, ?_, by norm_num, by decide, by decide +kernel, by decide +kernel, by decide +kernel, by decide +kernel, by decide +kernel, ?_⟩
  · intro p h; simp at h; subst h; exact .inr ⟨3, 0, rfl, by decide⟩
  · intro m e h; simp at h; obtain ⟨rfl, rfl⟩ := h; norm_num
  · rcases h : f32val 0x3F800000 with _ | _ | _ | ⟨m, e⟩
    · exact absurd h (by decide +kernel)
    · exact absurd h (by rename_i n; cases n <;> decide +kernel)
    · exact absurd h (by rename_i n; cases n <;> decide +kernel)
    · exact ⟨m, e, rfl, by have : f32val 0x3F800000 = .fin (2 ^ 23) (-23) := by decide +kernel
                           rw [this] at h; cases h; decide⟩
/-- The image of an array at rest is accepted; words of an image that break a rule; an array with a loop. -/
theorem test_wit_imageRules : let x : MxArray := {}
    let at' := fun (v : Nat) => natToBytes 8 v ++ List.replicate 41464 0
    let st := fun (l : List Byte) (lo n : Nat) => bytesToNat ((l.drop 0).take 8) / 2 ^ lo % 2 ^ n
    (x.holder = none → x.mode = .idle) ∧ x.buf0.ncols ≤ 32 ∧ (∀ i, i < 32 → x.ea.extractLsb' (16 * i + 14) 2 = 0) ∧ x.loop = none ∧
    st (at' 1) 0 39 ≠ 0 ∧ st (at' (3 * 2 ^ 62)) 62 2 = 3 ∧ (st (at' (2 ^ 62)) 57 1 = 0 ∧ st (at' (2 ^ 62)) 62 2 ≠ 0) ∧ (at' 1).length = 41472 := by decide +kernel
/-- Two saved blocks of a launch, and a launch in mode `free` that restores them, block 0 first: it has room; and once it is placed, block 1 is left. -/
theorem test_wit_restoreTwo : let x : Saved := { block := 0, core := 0, gid := 0, gidx := 0, kept := {}, arrived := [], cls := 0, holder := false }
    let y : Saved := { x with block := 1, gid := 1, ran := true }
    let l : Launch := { lch 0 with saved := [x, y] }
    let q := fun (d : List (W32 × BitVec 10)) => ({ fresh 0 with id := 1, record := BitVec.ofNat 2048 (2 ^ 121), placed := d } : Launch)
    let s := fun (d : List (W32 × BitVec 10)) => ({ placing l with launches := [l, q d] } : State)
    let lowest := fun (d : List (W32 × BitVec 10)) (b : W32) => l.saved.all (fun z => z.block == b || !(d.all (fun e => e.1 != z.block)) ||
      (decide (b.toNat < z.block.toNat + 64) && (heldBack (s d) (q d) z.core || decide (b.toNat < z.block.toNat))))
    rMode (q []).record = 0 ∧ l.saved.filter (fun z => z.block == x.block) = [x] ∧ ((s []).roomN 0 0 l.kdesc 1).isSome = true ∧ firstServed (s []) (q []) = true ∧
    lowest [] 0 = true ∧ lowest [(0, 0)] 1 = true ∧ (l.saved.all (fun z => !imageSpoilt (s []) l z.core [z])) = true ∧ heldBack (s []) (q []) 0 = false := by decide +kernel
/-- A group in a handler for another cause while its partition is pre-empted; a pause of a budget; a reset of an interface with a successor that waits. -/
theorem test_wit_preemptWaits : let g : Group := { regs 0 with h := { on := true, cause := 0x48 } }
    let s : State := { one g with parts := [(0, { preReq := true })] }
    let d : Launch := { fresh 0 with done := true, succ := some 5 }
    let t : State := { placing d with ifaces := [(0, { resetting := true })] }
    ((s.part 0).preReq = true ∧ shelfWriters s 0 = [] ∧ (s.group 0).h.on = true ∧ (s.group 0).h.halted = false ∧ (s.group 0).h.cause ≠ 0x50#8) ∧
    (t.launchOf 0 0 = some d ∧ d.iface = 0 ∧ untaken t 0 = [] ∧ t.colls = [] ∧ t.sends = []) ∧
    (let w := fresh 1; let u := placing w; { w with passedOver := 16 }.waitsAll u = true) := by decide +kernel
/-- A leaf that could not be corrected. -/
theorem test_wit_spoiltLeaf : let s : State := { State.reset with mem := [(0x1000, 0x83)], badWords := [0x1000] }
    s.bad 0x1000 8 = true ∧ State.reset.bad 0x1000 8 = false := by decide +kernel
/-- A group at a barrier whose phase is open; a saved block that a launch which is to restore it has left on core 0. -/
theorem test_wit_boostAndPower : let g : Group := { regs 0 with wait := .bar { kind := 0, idx := 15, rect := 0 } 0 }
    let x : Saved := { block := 0, core := 0, gid := 0, gidx := 0, kept := {}, arrived := [], cls := 0, holder := false }
    let l : Launch := { lch 0 with done := true, saved := [x] }
    let q : Launch := { fresh 0 with id := 1, record := BitVec.ofNat 2048 (2 ^ 121) }
    let s : State := { placing l with launches := [l, q] }
    ((shelf g).group 0).wait = .bar { kind := 0, idx := 15, rect := 0 } 0 ∧ ((shelf g).group 0).replaying false = none ∧
    (shelf g).phaseDone 0 { kind := 0, idx := 15, rect := 0 } 0 = false ∧ q ∈ s.launches ∧ q.done = false ∧ q.status = 0 ∧ bitOf q.record 121 = true ∧
    s.launchOf q.part (q.record.extractLsb' 608 32) = some l ∧ x ∈ l.saved ∧ x.core = 0 ∧ q.placed = [] := by decide +kernel
/-- A misaligned image; heads of no fields, with a reserved bit of the descriptor, and with a reserved word. -/
theorem test_wit_heads : (one mxG).cur.settle.rg.tview.toNat % 2 ^ 35 / 2 ^ 24 = 16 ∧ ((one mxG).cur.settle.winVa 0 8).toNat % 128 ≠ 0 ∧ ((one mxG).cur.settle.winVa 0 0).toNat % 128 = 0 ∧
    ((0 : W64).extractLsb' 44 2 = 0 ∧ ((0 : W64).extractLsb' 39 4).toNat ≤ 8 ∧ (0 : W64).getLsbD 63 = false) ∧ (1 <<< 44 : W64).extractLsb' 44 2 ≠ 0 ∧
    (1 <<< 128 : BitVec 1024).extractLsb' 128 384 ≠ 0 := by decide +kernel

/-! Words of the spec's layouts (R152 to R163), one of each family at least, written out field by field -/

def w4 (n : Nat) : Except DecodeError Instr := decode (natToBytes 4 n)
def w12 (n : Nat) : Except DecodeError Instr := decode (natToBytes 12 n)
/-- op 01, d 1, a 2, b 3; an immediate of -1; a pair of predicates. -/
theorem test_dec_int : w4 0x010420C0 = .ok (.add 1 2 3) ∧ w4 0x1128BFFF = .ok (.addi 10 11 0xFFF) := by decide +kernel
theorem test_dec_control : w4 0x30BFFFFC = .ok (.br true 3 0xFFFFC) ∧ w4 0x39000012 = .ok (.trap 0x12) ∧ w4 0x3A03E001 = .ok (.hretVacate 62) := by decide +kernel
theorem test_dec_memory : w4 0x401494D0 = .ok (.ld 5 9 2 .b64 (.acq .pkg)) ∧ w4 0x46A84282 = .ok (.qld 5 2 4 1 .b32 .rlx true) := by decide +kernel
theorem test_dec_engine : w4 0x501080A9 = .ok (.cpy 4 8 5 false true .slot) := by decide +kernel
theorem test_dec_lane : w12 0x100A40080030040000000000 = .ok (.fadd ⟨true, 2, false, 4⟩ (.vec 8) (.vec 3) (.vec 4) .rn false) ∧
    w12 0x20078005006D030000D00000 = .ok (.iadd ⟨false, 7, true, 0⟩ (.vec 5) (.vec 6) (.const 3) .n32 false) ∧
    w12 0x003700000000000000000200 = .ok (.lbr ⟨false, 7, false, 0⟩ 2) := by decide +kernel
theorem test_dec_laneMemory : w12 0x500700020090000006C80010 = .ok (.lld ⟨false, 7, false, 0⟩ (.vec 2) (.vec 9) .b64 ⟨3, .acq .blk, false, 16⟩) := by decide +kernel
theorem test_dec_matrix : w12 0x605780000000000000200000 = .ok (.mzero ⟨false, 7, true, 0⟩ true) ∧
    w12 0x705780040000000000008001 = .ok (.sbind ⟨false, 7, true, 0⟩ 4 0x8001) := by decide +kernel
/-- An opcode that is not assigned, a reserved bit, a code that is not listed, a run past s63, a reserved bit of a lane word, a length. -/
theorem test_dec_refused : w4 0x00000000 = .error .unassigned ∧ w4 0x010420C1 = .error .badFields ∧ w4 0x313FFFFC = .error .badFields ∧ w4 0x40FC9510 = .error .badFields ∧
    w12 0x100A40080030040000000001 = .error .badFields ∧ decode [0x01] = .error .badLength := by decide +kernel

/-! Terms that WellFormed refuses: one a check -/

theorem test_wf_orders : ([Instr.ld 0 0 0 .b64 (.rel .grp), .st 0 0 0 .b64 (.acq .grp), .fenceMem .rlx, .watch 0 0 0 .b64 (.rel .pkg), .shld 0 0 .b64 (.ar .grp),
    .shst 0 0 .b64 (.ar .grp), .qld 0 0 0 0 .b32 (.rel .grp) false, .lfence hd .rlx, .atom 0 0 .fxadd .f32 (.acq .grp)].any Instr.wf) = false := by decide
theorem test_wf_runs : ([Instr.ld 63 0 0 .b128 .rlx, .st 63 0 0 .b128 .rlx, .atom 63 0 .cas .n64 .rlx, .cpy 0 62 0 false false .mem, .cpy 63 0 0 true false .mem, .tcpy 0 61 0 false false .mem,
    .gath 0 60 0 false false .mem, .mcast 0 58 0 false true, .cmd 0 63 0 true, .gangPin 61 0, .gangHome 62 0 0, .gangReq 0 0 63, .gangRd 63 0 0, .vgen 63 0 0, .collRun 0 62 false,
    .samp 62 0 false false false].any Instr.wf) = false := by decide
theorem test_wf_scalar : ([Instr.atom 0 0 .and .i32 .rlx, .atom 0 0 .fadd .n32 .rlx, .invpg 0 0 0 .grp, .qld 1 0 0 0 .b32 .rlx false, .qpush 0 0 0 .b128 false, .ypop 1 0 0 false,
    .watch 0 0 0 .b128 .rlx, .bar 1 .wait 0, .rbar 1 .wait 0].any Instr.wf) = false := by decide
theorem test_wf_lane : ([Instr.lnop hu, .lend { hd with gpred := 0 }, .lsync { hd with gneg := true }, .lbr { hd with reuse := 4 } 0, .vote hd (.vec 0) .count false 0 1,
    .shfl hu (.vec 0) (.vec 0) (.vec 0) false .idx true 0, .perm hd (.vec 0) (.vec 0) .zero .lo, .mov hd (.vec 0) (.vec 0) (.vec 1) false .dir, .mov hd (.vec 0) .zero (.vec 0) false .rdx,
    .movi hd (.vec 0) 0 .f16, .fadd hd (.y 0) (.vec 0) (.vec 0) .rn false, .fadd hd (.vec 0) (.q 0) (.q 0) .rn false, .fadd hd (.vec 0) (.tile 0) (.vec 0) .rn false,
    .hcmp hd .zero (.vec 0) (.vec 0) .eq .lo false 0 false, .iadd hd (.vec 0) (.vec 0) (.vec 0) .f32 false, .iadd hd (.vec 0) (.q 0) (.vec 0) .i64 false, .imul hd (.vec 0) (.vec 0) (.vec 0) .i8,
    .icmp hd (.vec 0) (.vec 0) (.vec 0) .i32 .ltu 0, .cvt hd (.vec 0) (.vec 0) (.vec 0) .rn false .f32 .i8 4 0, .cvts hd (.vec 0) (.vec 0) (.vec 0) (.vec 0) .rn false .f32 .f16 0 0,
    .pack hd (.vec 0) (.vec 0) (.vec 0) .n16 2, .unpack hd (.vec 0) (.vec 0) .i8 0, .fxcvt hd (.vec 0) .zero .rn, .rcp hd (.vec 0) (.vec 0) .rs].any Instr.wf) = false := by decide +kernel
theorem test_wf_laneMemory : ([Instr.lld hd (.vec 0) (.vec 0) .b32 ⟨1, .rlx, true, 0⟩, .lst hd (.vec 0) (.vec 0) .b32 ⟨0, .acq .grp, false, 0⟩, .lld hd (.acc 0) (.acc 0) .b32 ⟨0, .rlx, false, 0⟩,
    .laneAtom hd (.vec 0) (.vec 0) (.vec 0) (.vec 1) .n32 .add ⟨0, .rlx, false, 0⟩, .laneAtom hd (.vec 0) (.vec 0) (.vec 0) (.vec 0) .n32 .add ⟨0, .rlx, false, 2048⟩,
    .laneAtom hd (.vec 0) (.vec 0) (.vec 0) (.vec 0) .n32 .oadd ⟨0, .rlx, false, 0⟩].any Instr.wf) = false := by decide +kernel
theorem test_wf_matrix : ([Instr.mzero hd false, .tld hu 0 .lane .zero 0 0 false false 0 .rlx, .tld hu 0 .zero .zero 1 0 true false 0 .rlx, .tld hu 0 .zero .zero 0 0 false false 1 .rlx,
    .tst hu 0 .zero .zero 0 1 false false .rlx, .mload hu 0 1 (.vec 0) false 0, .mload hu 0 0 .zero false 0, .mloop hu 0 0 false 1 .zero true false false 0 0 0 .rn,
    .mloop hu 1 0 false 0 .zero false false false 0 0 0 .rn, .mdrain hu .acc 0 1 false .rn false, .mdrain hu .port 0 9 false .rn false, .mdrainRaw hu .zero false 0 (.acq .grp),
    .sadd hu 0 0 32 true false false 0, .smax hu 0 0 0 false 1, .srebias hu 0 0 255 false false 0, .smov hu 0 .cp 32 0 false 0, .smov hu 0 .vec 0 1 false 0,
    .ssave hu .zero 1 true 0 .rlx, .srest hu .zero 0 false 0 (.rel .grp)].any Instr.wf) = false := by decide +kernel

/-! One step of a few instructions, by hand from their rules -/

/-- A property of the group after one instruction. -/
def after (i : Instr) (s : State) (f : State → Bool) : Bool := match exec i s with | .next t => f t | _ => false
/-- R187: the sum wraps; R188: the one overflow; R187: the high half of -1 times -1, as unsigned numbers and as signed ones. -/
theorem test_add_wraps : after (.add 1 2 3) (one (regs (BitVec.allOnes 64))) (fun t => t.cur.sr 1 == 0xFFFFFFFFFFFFFFFE && t.cur.pc == 4) = true := by decide +kernel
theorem test_div_overflow : after (.div 1 2 3 false) (one { regs (BitVec.allOnes 64) with s := (Vector.replicate 64 (BitVec.allOnes 64)).set 2 0x8000000000000000 })
    (fun t => t.cur.sr 1 == 0x8000000000000000) = true := by decide +kernel
theorem test_mulh : (after (.mulh 1 2 3 true) (one (regs (BitVec.allOnes 64))) (fun t => t.cur.sr 1 == 0xFFFFFFFFFFFFFFFE) &&
    after (.mulh 1 2 3 false) (one (regs (BitVec.allOnes 64))) (fun t => t.cur.sr 1 == 0)) = true := by decide +kernel
/-- R238: 3 + 4 in every thread; R229: an operand that is a lane number. -/
theorem test_iadd_lane : after (.iadd hd (.vec 2) (.const 3) (.lane) .n32 false) (one laneG)
    (fun t => vword (t.cur.rg.row 2) 0 == 3 && vword (t.cur.rg.row 2) 63 == 66) = true := by decide +kernel
/-- R238: INT8 elements clamp under `.sat`: 0x70 + 0x70 is 0x7F. -/
theorem test_iadd_sat : after (.iadd hd (.vec 2) (.const 0x70) (.const 0x70) .i8 true) (one laneG) (fun t => vword (t.cur.rg.row 2) 5 == 0x7F) = true := by decide +kernel
/-- R316, R317: a `trap` enters the handler: the cause user_trap in s63, the privilege of the handler. -/
theorem test_trap_enters : after (.trap 5) (one (regs 0)) (fun t => t.cur.h.on && t.cur.priv && t.cur.sr 63 == 0x48) = true := by decide +kernel
/-- R203: a load of two bytes is little-endian and zero-extended. -/
theorem test_ld_half : after (.ld 1 2 0 .b16 .rlx) { one (opened 4) with mem := [(0x100004, 0x34), (0x100005, 0xF2), (0x100006, 1)] } (fun t => t.cur.sr 1 == 0xF234) = true := by
  decide +kernel

end Sys2Proof.Tests
end

section
/-! PROOFS. What every operation of the machine keeps: memories in their canonical form and an agenda of events (O46, O47). -/

set_option Elab.async false

namespace Sys2Proof.Machine

theorem wf_copyRange {m : Sparse 8} (src dst n : Nat) (hm : Memory.wf m) : Memory.wf (copyRange m src dst n) := by
  have hset (l : Sparse 8) : ∀ m' : Sparse 8, Memory.wf m' →
      Memory.wf (l.foldl (fun m p => Sparse.set m (p.1 - src + dst) p.2) m') := by
    induction l with
    | nil => exact fun _ h => h
    | cons p t ih => exact fun _ h => ih _ (Sparse.wf_set _ p.2 h)
  exact hset _ _ (Sparse.wf_clear dst n hm)

/-! What an operation keeps -/

/-- The package's memory, the host's and the flash are in their canonical form: the part of `Inv` that is about memories. -/
def MemOk (s : State) : Prop := Memory.wf s.mem ∧ Memory.wf s.host0 ∧ Memory.wf s.host1 ∧ Memory.wf s.plat.flash

theorem inv_iff (s : State) : Inv s ↔ MemOk s ∧ AgendaOk s := by simp only [Inv, MemOk, and_assoc]

/-- On the way from `σ` to `t` memories stay in their canonical form and the agenda stays free of instruction rows, each of the two
by itself. -/
def Keeps (σ t : State) : Prop := (MemOk σ → MemOk t) ∧ (AgendaOk σ → AgendaOk t)

/-- What an access leaves, whether it succeeds or stops, is kept. -/
def Leaves {α : Type} (σ : State) : EStateM.Result Stop State α → Prop
  | .ok _ t | .error _ t => Keeps σ t

/-- An access that keeps, from every state. -/
def AccKeeps {α : Type} (m : Acc α) : Prop := ∀ ⦃σ s : State⦄, Keeps σ s → Leaves σ (m.run s)

/-- An instruction or event that neither faults nor refuses, and keeps. -/
def Answers (σ : State) (o : Out) : Prop := ∃ t, o = .next t ∧ Keeps σ t

/-- Engine work that keeps where it ends; what stalls leaves nothing (`State.orWait`). -/
def TriedKeeps {ε : Type} (σ : State) (r : Except ε State) : Prop := ∀ ⦃t : State⦄, r = .ok t → Keeps σ t

/-- Engine work that keeps and gives a value beside the state. -/
def PairKeeps {ε α : Type} (σ : State) (r : Except ε (α × State)) : Prop := ∀ ⦃v : α⦄ ⦃t : State⦄, r = .ok (v, t) → Keeps σ t

/-- A state that there may be, and which then keeps. -/
def OptKeeps (σ : State) (o : Option State) : Prop := ∀ ⦃t : State⦄, o = some t → Keeps σ t

section

variable {α β ε : Type} {σ s t : State}

/-! Rules of `Keeps` -/

protected theorem Keeps.refl (s : State) : Keeps s s := ⟨id, id⟩
protected theorem Keeps.trans (h1 : Keeps σ s) (h2 : Keeps s t) : Keeps σ t := ⟨h2.1 ∘ h1.1, h2.2 ∘ h1.2⟩
protected theorem Keeps.inv (h : Keeps s t) (hs : Inv s) : Inv t :=
  (inv_iff t).2 (((inv_iff s).1 hs).imp h.1 h.2)
/-- Every field that `Keeps` is not about may change; of the platform's registers, all but the flash. -/
protected theorem Keeps.update (h : Keeps σ s) {groups cores dies parts mantels ifaces blocks launches bars owins dtags colls sends
    gangs act msix aer badWords stalls tests plat curG curLane fresh} (hflash : plat.flash = s.plat.flash := by rfl) :
    Keeps σ { s with groups, cores, dies, parts, mantels, ifaces, blocks, launches, bars, owins, dtags, colls, sends, gangs, act,
                     msix, aer, badWords, stalls, tests, plat, curG, curLane, fresh } :=
  h.trans ⟨fun ⟨hmem, h0, h1, hf⟩ => ⟨hmem, h0, h1, hflash ▸ hf⟩, id⟩
/-- The package's memory may change to another canonical one. -/
protected theorem Keeps.setMem (h : Keeps σ s) {m : Sparse 8} (hm : Memory.wf s.mem → Memory.wf m) : Keeps σ { s with mem := m } :=
  h.trans ⟨fun ⟨hmem, hrest⟩ => ⟨hm hmem, hrest⟩, id⟩
/-- Events may join the agenda. -/
protected theorem Keeps.setAgenda (h : Keeps σ s) {l : List Move}
    (hl : ∀ i, .event i ∈ l → .event i ∈ s.agenda ∨ i.isEvent = true) : Keeps σ { s with agenda := l } :=
  h.trans ⟨id, fun hs i hi => (hl i hi).elim (hs i) id⟩
protected theorem Keeps.ite {c : Prop} {_ : Decidable c} (hs : Keeps σ s) (ht : Keeps σ t) : Keeps σ (if c then s else t) := by
  split
  · exact hs
  · exact ht
protected theorem Keeps.foldl {l : List α} {f : State → α → State} (hs : Keeps σ s) (hf : ∀ t x, Keeps σ t → Keeps σ (f t x)) :
    Keeps σ (l.foldl f s) := by
  induction l generalizing s with
  | nil => exact hs
  | cons x l ih => exact ih (hf s x hs)
protected theorem Keeps.of_fst {p : State × α} {x : α} (h : Keeps σ p.1) (e : p = (t, x)) : Keeps σ t := by
  subst e; exact h
protected theorem Keeps.of_snd {p : α × State} {x : α} (h : Keeps σ p.2) (e : p = (x, t)) : Keeps σ t := by
  subst e; exact h

/-! Rules of accesses -/

protected theorem AccKeeps.ok {m : Acc α} {v : α} (hm : AccKeeps m) (hs : Keeps σ s) (e : m.run s = .ok v t) : Keeps σ t := by
  have h := hm hs; rw [e] at h; exact h
protected theorem AccKeeps.error {m : Acc α} {st : Stop} (hm : AccKeeps m) (hs : Keeps σ s) (e : m.run s = .error st t) :
    Keeps σ t := by
  have h := hm hs; rw [e] at h; exact h
protected theorem Leaves.bind {m : Acc α} {f : α → Acc β} (hm : Leaves σ (m.run s)) (hf : ∀ v t, Keeps σ t → Leaves σ ((f v).run t)) :
    Leaves σ ((m >>= f).run s) := by
  rw [run_bind]
  cases hr : m.run s with
  | ok v t => rw [hr] at hm; exact hf v t hm
  | error st t => rw [hr] at hm; exact hm
protected theorem Leaves.ite {c : Prop} {_ : Decidable c} {m n : Acc α} (hm : Leaves σ (m.run s)) (hn : Leaves σ (n.run s)) :
    Leaves σ ((if c then m else n).run s) := by
  split
  · exact hm
  · exact hn
protected theorem AccKeeps.bind {m : Acc α} {f : α → Acc β} (hm : AccKeeps m) (hf : ∀ v, AccKeeps (f v)) : AccKeeps (m >>= f) :=
  fun _ _ hs => Leaves.bind (hm hs) fun v _ ht => hf v ht
/-- An access that reads the state and may put another in its place. -/
protected theorem AccKeeps.get_bind {f : State → Acc β} (hf : ∀ σ s, Keeps σ s → Leaves σ ((f s).run s)) : AccKeeps (get >>= f) :=
  fun σ s hs => hf σ s hs
protected theorem Leaves.set_bind {f : PUnit → Acc β} (ht : Keeps σ t) (hf : AccKeeps (f ⟨⟩)) :
    Leaves σ ((set t >>= f : Acc β).run s) :=
  hf ht
protected theorem Leaves.set (ht : Keeps σ t) : Leaves σ ((set t : Acc PUnit).run s) := ht
protected theorem Leaves.when {c : Prop} {_ : Decidable c} {m : Acc PUnit} {f : PUnit → Acc α} (hm : AccKeeps m) (hs : Keeps σ s)
    (hf : ∀ u t, Keeps σ t → Leaves σ ((f u).run t)) : Leaves σ ((if c then m >>= f else f ⟨⟩).run s) :=
  .ite (.bind (hm hs) hf) (hf _ _ hs)
protected theorem Leaves.of {m : Acc α} (hm : AccKeeps m) (hs : Keeps σ s) : Leaves σ (m.run s) := hm hs
protected theorem AccKeeps.pure {v : α} : AccKeeps (pure v) := fun _ _ hs => hs
protected theorem AccKeeps.forM {l : List α} {f : α → Acc PUnit} (hf : ∀ x, AccKeeps (f x)) : AccKeeps (l.forM f) := by
  induction l with
  | nil => exact .pure
  | cons x l ih => exact .bind (hf x) fun _ => ih
protected theorem AccKeeps.throw {st : Stop} : AccKeeps (throw st : Acc α) := fun _ _ hs => hs
protected theorem AccKeeps.get : AccKeeps (get : Acc State) := fun _ _ hs => hs
protected theorem AccKeeps.modify {f : State → State} (hf : ∀ σ s, Keeps σ s → Keeps σ (f s)) : AccKeeps (modify f : Acc PUnit) :=
  fun σ s hs => hf σ s hs
protected theorem AccKeeps.ite {c : Prop} {_ : Decidable c} {m n : Acc α} (hm : AccKeeps m) (hn : AccKeeps n) :
    AccKeeps (if c then m else n) := by
  split
  · exact hm
  · exact hn
/-- A step that a `do` block takes only under a condition, and what follows it. -/
protected theorem AccKeeps.when {c : Prop} {_ : Decidable c} {m : Acc PUnit} {f : PUnit → Acc α} (hm : AccKeeps m)
    (hf : ∀ u, AccKeeps (f u)) : AccKeeps (if c then m >>= f else f ⟨⟩) :=
  .ite (.bind hm hf) (hf _)

/-! Rules of answers -/

protected theorem Answers.next (h : Keeps σ t) : Answers σ (.next t) := ⟨t, rfl, h⟩
protected theorem Answers.ite {c : Prop} {_ : Decidable c} {o p : Out} (ho : Answers σ o) (hp : Answers σ p) :
    Answers σ (if c then o else p) := by
  split
  · exact ho
  · exact hp

/-! Rules of engine work -/

protected theorem TriedKeeps.ok (h : Keeps σ t) : TriedKeeps σ (.ok t : Except ε State) := by rintro _ ⟨⟩; exact h
protected theorem TriedKeeps.error {e : ε} : TriedKeeps σ (.error e) := by rintro _ ⟨⟩
protected theorem TriedKeeps.of_ok {r : Except ε State} (hr : TriedKeeps σ r) (e : r = .ok t) : Keeps σ t := hr e
protected theorem TriedKeeps.ite {c : Prop} {_ : Decidable c} {r q : Except ε State} (hr : TriedKeeps σ r) (hq : TriedKeeps σ q) :
    TriedKeeps σ (if c then r else q) := by
  split
  · exact hr
  · exact hq
protected theorem TriedKeeps.bind {r : Except ε State} {f : State → Except ε State} (hr : TriedKeeps σ r)
    (hf : ∀ s, Keeps σ s → TriedKeeps σ (f s)) : TriedKeeps σ (r.bind f) := by
  cases r with
  | ok s => exact hf s (hr rfl)
  | error s => exact .error
protected theorem PairKeeps.ok {v : α} (h : Keeps σ t) : PairKeeps σ (.ok (v, t) : Except ε (α × State)) := by rintro _ _ ⟨⟩; exact h
protected theorem PairKeeps.error {e : ε} : PairKeeps σ (.error e : Except ε (α × State)) := by rintro _ _ ⟨⟩
protected theorem PairKeeps.bind {r : Except ε (α × State)} {f : α × State → Except ε State} (hr : PairKeeps σ r)
    (hf : ∀ v s, Keeps σ s → TriedKeeps σ (f (v, s))) : TriedKeeps σ (r >>= f) := by
  cases r with
  | ok p => exact hf p.1 p.2 (hr rfl)
  | error e => exact .error
/-- Work whose `do` block begins in one of two ways and goes on in one way. -/
protected theorem PairKeeps.bind_of_ite {c : Prop} {_ : Decidable c} {r q : Except ε (α × State)} {f : α × State → Except ε State}
    (hr : PairKeeps σ r) (hq : PairKeeps σ q) (hf : ∀ v s, Keeps σ s → TriedKeeps σ (f (v, s))) :
    TriedKeeps σ (if c then r >>= f else q >>= f) :=
  .ite (hr.bind hf) (hq.bind hf)
protected theorem TriedKeeps.foldl {l : List α} {f : Except ε State → α → Except ε State} {r : Except ε State} (hr : TriedKeeps σ r)
    (hf : ∀ q x, TriedKeeps σ q → TriedKeeps σ (f q x)) : TriedKeeps σ (l.foldl f r) := by
  induction l generalizing r with
  | nil => exact hr
  | cons x l ih => exact ih (hf r x hr)

/-! Rules of states that there may be -/

protected theorem OptKeeps.some (h : Keeps σ t) : OptKeeps σ (Option.some t) := by rintro _ ⟨⟩; exact h
protected theorem OptKeeps.none : OptKeeps σ Option.none := by rintro _ ⟨⟩
protected theorem OptKeeps.ite {c : Prop} {_ : Decidable c} {o p : Option State} (ho : OptKeeps σ o) (hp : OptKeeps σ p) :
    OptKeeps σ (if c then o else p) := by
  split
  · exact ho
  · exact hp
protected theorem OptKeeps.bind {o : Option State} {f : State → Option State} (ho : OptKeeps σ o)
    (hf : ∀ s, Keeps σ s → OptKeeps σ (f s)) : OptKeeps σ (o.bind f) := by
  cases o with
  | none => exact .none
  | some s => exact hf s (ho rfl)
protected theorem OptKeeps.of_some {o : Option State} (ho : OptKeeps σ o) (e : o = Option.some t) : Keeps σ t := ho e

/-! Registers, memory and records -/

protected theorem Keeps.setGroup {g x} (hs : Keeps σ s) : Keeps σ (s.setGroup g x) := hs.update
protected theorem Keeps.setCore {c x} (hs : Keeps σ s) : Keeps σ (s.setCore c x) := hs.update
protected theorem Keeps.setDie {d x} (hs : Keeps σ s) : Keeps σ (s.setDie d x) := hs.update
protected theorem Keeps.setPart {p x} (hs : Keeps σ s) : Keeps σ (s.setPart p x) := hs.update
protected theorem Keeps.setMantel {p x} (hs : Keeps σ s) : Keeps σ (s.setMantel p x) := hs.update
protected theorem Keeps.setIface {i x} (hs : Keeps σ s) : Keeps σ (s.setIface i x) := hs.update
protected theorem Keeps.setCur {x} (hs : Keeps σ s) : Keeps σ (s.setCur x) := hs.setGroup
protected theorem Keeps.write {pa l} (hs : Keeps σ s) : Keeps σ (s.write pa l) := (hs.setMem (wf_pokeBytes pa l)).update
protected theorem Keeps.write64 {pa v} (hs : Keeps σ s) : Keeps σ (s.write64 pa v) := hs.write
protected theorem Keeps.free (hs : Keeps σ s) : Keeps σ s.free.2 := hs.update
protected theorem Keeps.setBlock {x} (hs : Keeps σ s) : Keeps σ (s.setBlock x) := hs.update
protected theorem Keeps.setLaunch {x} (hs : Keeps σ s) : Keeps σ (s.setLaunch x) := hs.update
protected theorem Keeps.post {p rs} (hs : Keeps σ s) : Keeps σ (s.post p rs) := hs.setPart
protected theorem Keeps.notify {die part cause addr entry} (hs : Keeps σ s) : Keeps σ (s.notify die part cause addr entry) := hs.post

/-! Invalidation, lines of waiting groups, taking a trap -/

protected theorem Keeps.invalidate {inScope n va len} (hs : Keeps σ s) : Keeps σ (s.invalidate inScope n va len) := .ite hs hs.update
protected theorem Keeps.completeInvpg {gid} (hs : Keeps σ s) : Keeps σ (s.completeInvpg gid) := by
  dsimp only [State.completeInvpg]
  split
  · exact hs.setGroup.invalidate
  · exact hs
protected theorem Keeps.zeroRange {pa n} (hs : Keeps σ s) : Keeps σ (s.zeroRange pa n) := (hs.setMem (Sparse.wf_clear pa n)).update
protected theorem Keeps.writeArea {a ws} (hs : Keeps σ s) : Keeps σ (s.writeArea a ws) := .foldl hs.zeroRange fun _ _ ht => ht.write
protected theorem Keeps.leaveLines {gid} (hs : Keeps σ s) : Keeps σ (s.leaveLines gid) :=
  .ite (.setDie (.ite hs.setCore hs)) (.ite hs.setCore hs)
protected theorem Keeps.dropArray {gid} (hs : Keeps σ s) : Keeps σ (s.dropArray gid) := .ite (.setCore (.ite hs.setDie hs)) hs
protected theorem Keeps.freezeArray {gid} (hs : Keeps σ s) : Keeps σ (s.freezeArray gid) := .ite (.setCore (.ite hs.setDie hs)) hs
protected theorem Keeps.settleBars {b} (hs : Keeps σ s) : Keeps σ (s.settleBars b) := hs.update
protected theorem Keeps.settlePre {p} (hs : Keeps σ s) : Keeps σ (s.settlePre p) := .ite hs.setPart hs
protected theorem Keeps.freeBlock {b} (hs : Keeps σ s) : Keeps σ (s.freeBlock b) := by
  dsimp only [State.freeBlock]
  split
  · exact .ite hs.setCore.update.setLaunch hs.setCore.update.setLaunch
  · exact hs.setCore.update
protected theorem Keeps.freeGroup {gid saved ran} (hs : Keeps σ s) : Keeps σ (s.freeGroup gid saved ran) := by
  dsimp only [State.freeGroup]
  split
  · exact hs.leaveLines.update.settlePre
  · exact .settlePre
      (.ite
         (.ite hs.leaveLines.update.freeBlock hs.leaveLines.update.setBlock)
         (.settleBars (.ite hs.leaveLines.update.freeBlock hs.leaveLines.update.setBlock)))
protected theorem Keeps.endGroup {gid ran} (hs : Keeps σ s) : Keeps σ (s.endGroup gid ran) := hs.dropArray.freeGroup
protected theorem Keeps.sendTile {gid e} (hs : Keeps σ s) : Keeps σ (s.sendTile gid e) := by
  dsimp only [State.sendTile]
  split
  · exact hs
  · split
    · exact hs
    · split
      · exact hs
      · exact .ite hs.setLaunch.update (.ite hs.setLaunch hs)
protected theorem Keeps.exitGroup {gid} (hs : Keeps σ s) : Keeps σ (s.exitGroup gid) := .endGroup (.foldl hs fun _ _ ht => ht.sendTile)
protected theorem Keeps.vacateGroup {gid} (hs : Keeps σ s) : Keeps σ (s.vacateGroup gid) := by
  dsimp only [State.vacateGroup]
  split
  · exact hs.setLaunch.dropArray.freeGroup
  · exact hs.dropArray.freeGroup
protected theorem Keeps.enterHandler {gid cause record pc lpc} (hs : Keeps σ s) : Keeps σ (s.enterHandler gid cause record pc lpc) :=
  hs.leaveLines.setGroup.completeInvpg.freezeArray.writeArea.setGroup
/-- A register write that joins the agenda is an event (log 3). -/
protected theorem Keeps.queueReg {priv pa l} (hs : Keeps σ s) : Keeps σ (s.queueReg priv pa l) := by
  unfold State.queueReg
  split
  · exact hs
  · refine hs.setAgenda fun i hi => ?_
    simp only [List.span_eq_takeWhile_dropWhile, List.mem_append, List.mem_cons, Move.event.injEq] at hi
    rcases hi with hi | rfl | hi
    · exact .inl ((List.takeWhile_prefix _).subset hi)
    · exact .inr rfl
    · exact .inl ((List.dropWhile_suffix _).subset hi)

/-! Translation and accesses to physical addresses -/

protected theorem AccKeeps.raise {c} : AccKeeps (raise c : Acc α) := .throw
protected theorem AccKeeps.notReady : AccKeeps (notReady : Acc α) := .throw
protected theorem AccKeeps.dataFault {va k} : AccKeeps (dataFault va k : Acc α) := .throw
protected theorem AccKeeps.xlatFault {ag va k c e} : AccKeeps (xlatFault ag va k c e : Acc α) :=
  .bind .get fun _ => .when .dataFault fun _ => .throw
protected theorem Keeps.poolRearm {die} (hs : Keeps σ s) : Keeps σ (s.poolRearm die) := .ite hs.setDie hs
protected theorem Keeps.poolCheck {die} (hs : Keeps σ s) : Keeps σ (s.poolCheck die) := .ite hs.poolRearm (.ite hs hs.setDie.notify)
protected theorem AccKeeps.takeFrame {die va k n} : AccKeeps (takeFrame die va k n) := by
  induction n with
  | zero => exact .pure
  | succ n ih =>
    exact .get_bind fun _ _ hs => .ite (.of .pure hs) <| .ite (.of .dataFault hs) <| .ite
      (.set_bind (.poolCheck (.ite hs.setDie hs.setDie.zeroRange)) .pure)
      (.set_bind hs.setDie.notify.poolCheck ih)
protected theorem AccKeeps.firstTouch {ag va k e addr zf} : AccKeeps (firstTouch ag va k e addr zf) :=
  .get_bind fun _ _ hs => .when .dataFault hs fun _ _ ht => .ite (.of .xlatFault ht) <| .ite (.set hs.write64) <|
    .of (.bind .takeFrame fun _ => by
      split
      · exact .xlatFault
      · exact .bind (.modify fun _ _ hu => hu.write64) fun _ => .ite .pure (.modify fun _ _ hu => hu.invalidate)) ht
protected theorem Keeps.noteStall {a lvl} (hs : Keeps σ s) : Keeps σ (s.noteStall a lvl) := .ite hs hs.update
protected theorem Keeps.noted (hs : Keeps σ s) : Keeps σ (s.noted t) := hs.update
protected theorem Keeps.orWait {r : Tried State} (hs : Keeps σ s) (hr : TriedKeeps σ r) : Keeps σ (s.orWait r) := by
  cases r with
  | ok t => exact hr rfl
  | error t => exact hs.noted
protected theorem AccKeeps.scrubStall {a lvl} : AccKeeps (scrubStall a lvl : Acc α) :=
  .bind (.modify fun _ _ ht => ht.noteStall) fun _ => .throw
protected theorem AccKeeps.translateWalk {ag va k n} : AccKeeps (translateWalk ag va k n) := by
  induction n with
  | zero => exact .notReady
  | succ n ih =>
    refine .get_bind fun _ _ hs => ?_
    have htouch {e a zf} : AccKeeps (do firstTouch ag va k e a zf; translateWalk ag va k n) := .bind .firstTouch fun _ => ih
    split
    · exact .of .dataFault hs
    · exact .of .xlatFault hs
    · exact htouch hs
    · exact .ite (.of .xlatFault hs) <| .ite (htouch hs) <| .ite (.of .xlatFault hs) <| .ite (.of .xlatFault hs) <|
        .ite (.of .xlatFault hs) <| .ite (.of .scrubStall hs) (.set_bind (.ite hs hs.write64) .pure)
protected theorem AccKeeps.admitNode {ag va k pa e} : AccKeeps (admitNode ag va k pa e) :=
  .ite .pure (.get_bind fun _ _ ht => .ite (.of .dataFault ht) (.set_bind ht.update (.ite .pure .xlatFault)))
protected theorem AccKeeps.translateLeaf {ag va k} : AccKeeps (translateLeaf ag va k) :=
  .bind .get fun _ => .ite .xlatFault <| .ite .xlatFault <| by
    dsimp only
    split
    · exact .pure
    · refine .bind .translateWalk fun ⟨_, _, _⟩ => ?_
      dsimp only
      split
      · exact .pure
      · exact .bind (.modify fun _ _ ht => ht.setCore) fun _ => .pure
protected theorem AccKeeps.translate {ag va k} : AccKeeps (translate ag va k) := .bind .translateLeaf fun ⟨_, _⟩ => .admitNode
protected theorem AccKeeps.windowOf {ag base} : AccKeeps (windowOf ag base) :=
  .get_bind fun _ _ ht => by
    split
    · exact .of .pure ht
    · split
      · exact .of .dataFault ht
      · exact .ite (.of .pure ht) (.ite (.of .scrubStall ht) (.set_bind (.ite ht ht.write64) .pure))
      · exact .of .pure ht
protected theorem Keeps.setWindow {gid wi w} (hs : Keeps σ s) : Keeps σ (s.setWindow gid wi w) := hs.setGroup
protected theorem AccKeeps.windowAccess {gid wi o k} : AccKeeps (windowAccess gid wi o k) := by
  unfold windowAccess
  refine .bind .get fun _ => ?_
  extract_lets _ _ rest
  have hrest u : AccKeeps (rest u) :=
    .bind .get fun _ => .ite .admitNode (.bind .translate fun _ => .when (.modify fun _ _ hs => hs.setWindow) fun _ => .pure)
  exact .ite (.bind .windowOf fun _ => .bind (.modify fun _ _ hs => hs.setWindow) hrest) (hrest ())
protected theorem Keeps.tagWrite {w pa n} (hs : Keeps σ s) : Keeps σ (s.tagWrite w pa n) := by
  dsimp only [State.tagWrite]
  split
  · exact hs
  · exact .ite hs.update hs
protected theorem AccKeeps.physRead {ag va pa n} : AccKeeps (physRead ag va pa n) := by
  refine .get_bind fun _ _ hs => .ite (.set_bind hs.update .pure) (.ite ?_ (.of .pure hs))
  split
  · exact .of .throw hs
  · exact .ite (.of .throw hs) (.of .pure hs)
protected theorem Keeps.regStore {ag pa l} (hs : Keeps σ s) : Keeps σ (s.regStore ag pa l) := .ite hs hs.queueReg
protected theorem AccKeeps.physWrite {ag pa l} : AccKeeps (physWrite ag pa l) :=
  .ite .pure (.ite (.modify fun _ _ ht => ht.write.tagWrite) (.modify fun _ _ ht => .foldl ht fun _ _ hu => hu.regStore))
protected theorem AccKeeps.byteAddrs {tr o n va} (htr : ∀ x, AccKeeps (tr x)) : AccKeeps (byteAddrs tr o n va) :=
  .bind (htr _) fun _ => .ite .pure (.bind (htr _) fun _ => .pure)
protected theorem AccKeeps.readAddrs {ag va l} : AccKeeps (readAddrs ag va l) := by
  cases l with
  | nil => exact .pure
  | cons y l => exact .ite .physRead (.bind .physRead fun _ => .bind .physRead fun _ => .pure)
protected theorem AccKeeps.writeAddrs {ag bs l} : AccKeeps (writeAddrs ag l bs) := by
  cases l with
  | nil => exact .pure
  | cons y l => exact .bind .physWrite fun _ => .ite .physWrite .pure
protected theorem AccKeeps.asKind {k} {m : Acc α} (hm : AccKeeps m) : AccKeeps (asKind k m) := by
  intro σ s hs
  have h := hm hs
  simp only [EStateM.run, asKind] at h ⊢
  split
  · rw [‹m s = _›] at h
    exact h
  · exact h
protected theorem AccKeeps.readVirt {ag va n k} : AccKeeps (readVirt ag va n k) :=
  .bind (.byteAddrs fun _ => .translate) fun _ => .asKind .readAddrs
protected theorem AccKeeps.writeVirt {ag va l} : AccKeeps (writeVirt ag va l) :=
  .bind (.byteAddrs fun _ => .translate) fun _ => .writeAddrs
protected theorem AccKeeps.shelfResolve {gid sl o n} : AccKeeps (shelfResolve gid sl o n) :=
  .bind .get fun _ => by
    split
    · exact .throw
    · exact .ite .throw (.ite .throw .pure)
protected theorem Keeps.setTag {b sl e} (hs : Keeps σ s) : Keeps σ (s.setTag b sl e) := hs.setCore

/-! Rings, logit callables, raising -/

protected theorem Keeps.hostWrite {link a l} (hs : Keeps σ s) : Keeps σ (s.hostWrite link a l) := by
  unfold State.hostWrite
  split
  · exact hs.trans ⟨fun ⟨hmem, h0, h1, hflash⟩ => ⟨hmem, h0, wf_pokeBytes a l h1, hflash⟩, id⟩
  · exact hs.trans ⟨fun ⟨hmem, h0, h1, hflash⟩ => ⟨hmem, wf_pokeBytes a l h0, h1, hflash⟩, id⟩
protected theorem Keeps.raiseMsix {link v} (hs : Keeps σ s) : Keeps σ (s.raiseMsix link v) := hs.update
protected theorem Keeps.pushToken {i e} (hs : Keeps σ s) : Keeps σ (s.pushToken i e) :=
  .ite hs.hostWrite.setIface.raiseMsix hs.hostWrite.setIface
protected theorem Keeps.appendToken {i e} (hs : Keeps σ s) : Keeps σ (s.appendToken i e) := .ite hs (.ite hs.pushToken hs.setIface)
protected theorem Keeps.flushTokens {i n} (hs : Keeps σ s) : Keeps σ (s.flushTokens i n) := by
  induction n generalizing s with
  | zero => exact hs
  | succ n ih =>
    dsimp only [State.flushTokens]
    split
    · exact hs
    · exact .ite (ih hs.setIface.pushToken) hs
protected theorem AccKeeps.logitMark {ag tab block iface} : AccKeeps (logitMark ag tab block iface) :=
  .bind .readVirt fun _ => .bind .translate fun _ => .get_bind fun _ _ hs => .when .dataFault hs fun _ _ _ =>
    .set_bind hs.write64.write.appendToken .writeVirt
protected theorem Keeps.logitFail {gid r} (hs : Keeps σ s) : Keeps σ (s.logitFail gid r) := by
  dsimp only [State.logitFail]
  split
  · exact hs.endGroup
  · split
    · exact .post (.foldl (AccKeeps.ok .logitMark hs ‹_›) fun _ _ ht => ht.endGroup)
    · exact hs.noted
    · exact hs.noted
    · exact .post (.foldl (AccKeeps.error .logitMark hs ‹_›) fun _ _ ht => ht.endGroup)
protected theorem Keeps.clearMxErr {gid} (hs : Keeps σ s) : Keeps σ (s.clearMxErr gid) := hs.setCore
protected theorem Keeps.takeTrap {gid lane info addr word spc} (hs : Keeps σ s) : Keeps σ (s.takeTrap gid lane info addr word spc) :=
  .ite hs.post.exitGroup (.ite hs.logitFail (.ite hs.post.exitGroup hs.enterHandler))
protected theorem Keeps.raiseTrap {gid lane info addr word spc} (hs : Keeps σ s) :
    Keeps σ (s.raiseTrap gid lane info addr word spc) := by
  dsimp only [State.raiseTrap]
  split
  · exact hs.clearMxErr.takeTrap
  · exact hs.takeTrap
protected theorem Keeps.reachTrap {gid lane info addr word} (hs : Keeps σ s) : Keeps σ (s.reachTrap gid lane info addr word) :=
  .ite (.ite hs hs.setGroup) hs.raiseTrap
protected theorem Keeps.postDeferred {gid lane l more addr word} (hs : Keeps σ s) :
    Keeps σ (s.postDeferred gid lane l more addr word) :=
  hs.post
protected theorem Keeps.stalled (hs : Keeps σ s) : Keeps σ s.stalled := hs.update
protected theorem Keeps.logIt {lane replay l} (hs : Keeps σ s) : Keeps σ (s.logIt lane replay l) := hs.setCur
protected theorem Keeps.deferIt {lane replay addr word s0 y l more} (hs : Keeps σ s) :
    Keeps σ (finish.deferIt lane replay addr word s0 y l more s) := hs.postDeferred.logIt

protected theorem Answers.finish {lane replay addr word x s0 r} (hr : Leaves σ r) :
    Answers σ (finish lane replay addr word x s0 r) := by
  cases r with
  | ok _ t => exact .next hr
  | error st t =>
    have ht : Keeps σ t := hr
    cases st with
    | stall => exact .next ht.stalled
    | scrub =>
      cases x with
      | none => exact .next ht.stalled
      | some y => exact .next ht.logIt
    | fault i =>
      dsimp only [finish]
      split
      · exact .next ht.deferIt
      · exact .next ht.raiseTrap
    | pages l more => exact .next ht.deferIt
protected theorem AccKeeps.modifyCur {f} : AccKeeps (modifyCur f) := .modify fun _ _ ht => ht.setCur
protected theorem AccKeeps.getCur : AccKeeps getCur := .bind .get fun _ => .pure
protected theorem AccKeeps.curAgent : AccKeeps curAgent := .bind .get fun _ => .pure
protected theorem Answers.scalarAcc {i body} (hbody : AccKeeps body) (hs : Keeps σ s) : Answers σ (scalarAcc i body s) :=
  .finish (.of hbody hs)
protected theorem Answers.replayAcc {lane l body} (hbody : ∀ x, AccKeeps (body x)) (hs : Keeps σ s) :
    Answers σ (replayAcc lane l body s) :=
  .finish (.of (.bind (hbody _) fun _ => .modifyCur) hs)
protected theorem Answers.scalarMem {i x body} (hbody : ∀ x, AccKeeps (body x)) (hs : Keeps σ s) :
    Answers σ (scalarMem i x body s) := by
  dsimp only [scalarMem]
  split
  · exact .replayAcc (fun _ => hbody _) hs
  · exact .finish (.of (.bind (hbody _) fun _ => .modifyCur) hs)
protected theorem AccKeeps.raiseReg {f r} : AccKeeps (raiseReg f r : Acc α) := .throw
protected theorem Answers.scalarNext {f} (hs : Keeps σ s) : Answers σ (scalarNext f s) := .next hs.setCur

/-! Scalar control flow, yields, scheduling -/

protected theorem Answers.lrunAt {i w} (hs : Keeps σ s) : Answers σ (lrunAt i w s) :=
  .ite (.next hs.stalled) (.ite (.scalarAcc .raise hs) (.scalarNext hs))
protected theorem Answers.yieldOn {d on done} (hs : Keeps σ s) : Answers σ (yieldOn d on done s) :=
  .ite (.scalarNext hs) (.scalarNext hs)
protected theorem Answers.execTrap {i} (hs : Keeps σ s) : Answers σ (execTrap i s) := .next hs.raiseTrap
protected theorem Answers.execPrio {d blk k} (hs : Keeps σ s) : Answers σ (execPrio d blk k s) :=
  .next (.setCur (.foldl hs fun _ _ ht => ht.setGroup))
protected theorem Keeps.tick {c} (hs : Keeps σ s) : Keeps σ (s.tick c) := hs.update.setCore
protected theorem Answers.execSchrd {d f} (hs : Keeps σ s) : Answers σ (execSchrd d f s) :=
  .ite (.scalarAcc .raise hs) (.scalarNext (.ite hs.tick hs))

/-! Runs of lane instructions -/

protected theorem Answers.laneAlu {i o f} (hs : Keeps σ s) : Answers σ (laneAlu i o f s) := by
  dsimp only [laneAlu]
  split
  · exact .next hs.setCur
  · split
    · exact .finish hs.setCur
    · exact .next hs.setCur
protected theorem Answers.laneQueued {conv i o f} (hs : Keeps σ s) : Answers σ (laneQueued conv i o f s) := by
  dsimp only [laneQueued]
  split
  · exact .next hs.setCur
  · split
    · exact .finish hs.setCur
    · exact .next hs.setCur
protected theorem Answers.laneAcc {i h body} (hbody : AccKeeps body) (hs : Keeps σ s) : Answers σ (laneAcc i h body s) :=
  .ite (.next hs.setCur) (.finish (.of hbody hs.setCur))
protected theorem AccKeeps.rangeOf {field o} : AccKeeps (rangeOf field o : Acc α) := .throw
protected theorem AccKeeps.checkOps {fields dst src} : AccKeeps (checkOps fields dst src) :=
  .bind .getCur fun _ => by
    split
    · exact .throw
    · exact .pure
protected theorem AccKeeps.needData {src} : AccKeeps (needData src) := .bind .getCur fun _ => .ite .raise .pure

/-! Accesses of an instruction -/

protected theorem AccKeeps.attempt {m : Acc α} (hm : AccKeeps m) : AccKeeps (attempt m) := by
  intro σ s hs
  rw [run_attempt]
  cases hr : m.run s with
  | ok v t => exact hm.ok hs hr
  | error st t => exact hm.error hs hr
protected theorem AccKeeps.wholly {m : Acc α} (hm : AccKeeps m) : AccKeeps (wholly m) := by
  intro σ s hs
  rw [run_wholly]
  cases hr : m.run s with
  | ok v t => exact hm.ok hs hr
  | error st t => exact hs.noted
protected theorem AccKeeps.withVlane {v} {m : Acc α} (hm : AccKeeps m) : AccKeeps (withVlane v m) := by
  intro σ s hs
  have h := hm hs
  simp only [EStateM.run, withVlane] at h ⊢
  split
  · rw [‹m s = _›] at h
    exact h
  · exact h
protected theorem AccKeeps.raiseAt {c va} : AccKeeps (raiseAt c va : Acc α) := .throw
protected theorem AccKeeps.resolvePart {tr v o va fs} (htr : ∀ x, AccKeeps (tr x)) : AccKeeps (resolvePart tr v o va fs) := by
  dsimp only [resolvePart]
  split
  · exact .pure
  · exact .bind (.attempt (htr _)) fun _ => by
      split
      · exact .pure
      · exact .ite .pure .throw
      · exact .throw
protected theorem AccKeeps.resolveOne {tr n a fs} (htr : ∀ x, AccKeeps (tr x)) : AccKeeps (resolveOne tr n a fs) :=
  .bind (.resolvePart fun _ => htr _) fun ⟨_, _⟩ => .ite .pure (.bind (.resolvePart fun _ => htr _) fun ⟨_, _⟩ => .pure)
protected theorem AccKeeps.resolveList {tr n fs l} (htr : ∀ x, AccKeeps (tr x)) : AccKeeps (resolveList tr n l fs) := by
  induction l generalizing fs with
  | nil => exact .pure
  | cons y l ih => exact .bind (.resolveOne fun _ => htr _) fun ⟨_, _⟩ => .bind ih fun ⟨_, _⟩ => .pure
protected theorem AccKeeps.resolveAll {tr n l} (htr : ∀ x, AccKeeps (tr x)) : AccKeeps (resolveAll tr n l) :=
  .bind (.resolveList htr) fun ⟨_, fs⟩ => by
    dsimp only
    split
    · exact .throw
    · exact .ite .pure .throw
protected theorem AccKeeps.windowOne {w o n k} : AccKeeps (windowOne w o n k) :=
  .bind .get fun _ => .bind (.resolveAll fun _ => .windowAccess) fun _ => .pure
protected theorem AccKeeps.readAt {va as} : AccKeeps (readAt va as) := .bind .curAgent fun _ => .readAddrs
protected theorem AccKeeps.writeAt {as l} : AccKeeps (writeAt as l) := .bind .curAgent fun _ => .writeAddrs
protected theorem Keeps.closeWindow {w who} (hs : Keeps σ s) : Keeps σ (s.closeWindow w who) := hs.write.tagWrite.update
protected theorem AccKeeps.contribute {part launch block vlane t va pa b} : AccKeeps (contribute part launch block vlane t va pa b) :=
  .get_bind fun _ _ ht => by
    split
    · exact .ite (.of .raiseAt ht) ht.update
    · exact .ite (.of .raiseAt ht) (.ite (.of .raiseAt ht) (.ite (.of .raiseAt ht) ht.update))
protected theorem AccKeeps.atomApply {ag g vlane op t va pa b c} : AccKeeps (atomApply ag g vlane op t va pa b c) := by
  dsimp only [atomApply]
  split
  · exact .bind .physRead fun _ => .pure
  · split
    · exact .bind .contribute fun _ => .pure
    · exact .get_bind fun _ _ ht => by
        split
        · exact .ite (.of .raiseAt ht) (.bind (.of .physRead ht) fun _ _ hu => .set_bind ht.closeWindow .pure)
        · exact .of .physRead ht
    · exact .bind .physRead fun _ => .bind .physWrite fun _ => .pure
    · exact .bind .physRead fun _ => .bind .physWrite fun _ => .pure

/-! Scalar loads, stores, atomics, queues, the shelf, watch and park -/

protected theorem AccKeeps.putLoad {d z v} : AccKeeps (putLoad d z v) := .modifyCur
protected theorem AccKeeps.ldBody {d w z x} : AccKeeps (ldBody d w z x) :=
  .bind .windowOne fun _ => .bind .getCur fun _ => .bind .readAt fun _ => .putLoad
protected theorem Answers.execLd {d o w z r} (hs : Keeps σ s) : Answers σ (execLd d o w z r s) := .scalarMem (fun _ => .ldBody) hs
protected theorem AccKeeps.stBody {w z x} : AccKeeps (stBody w z x) := .bind .windowOne fun _ => .writeAt
protected theorem Answers.execSt {d o w z r} (hs : Keeps σ s) : Answers σ (execSt d o w z r s) := .scalarMem (fun _ => .stBody) hs
protected theorem AccKeeps.atomBody {d op t x} : AccKeeps (atomBody d op t x) :=
  .bind .curAgent fun _ => .bind (.resolveAll fun _ => .translate) fun _ => .bind .getCur fun _ => .bind .get fun _ => by
    split
    · exact .asKind .raiseAt
    · exact .bind (.wholly (.asKind .atomApply)) fun _ => .ite .pure .modifyCur
protected theorem Answers.execAtom {d o op ty r} (hs : Keeps σ s) : Answers σ (execAtom d o op ty r s) :=
  .scalarMem (fun _ => .atomBody) hs
protected theorem Answers.execInvpg {d a b sc} (hs : Keeps σ s) : Answers σ (execInvpg d a b sc s) :=
  .ite (.scalarAcc (.ite .raiseReg (.ite .raiseReg .raiseReg)) hs) (.ite (.scalarAcc .raise hs) (.next hs.setCur.stalled))
protected theorem AccKeeps.wsetBody {w x} : AccKeeps (wsetBody w x) := .bind .curAgent fun _ => .bind .windowOf fun _ => .modifyCur
protected theorem Answers.execWset {w a} (hs : Keeps σ s) : Answers σ (execWset w a s) :=
  .ite (.next hs.stalled) (.scalarMem (fun _ => .wsetBody) hs)
protected theorem AccKeeps.readUnits {l} : AccKeeps (readUnits l) := by
  induction l with
  | nil => exact .pure
  | cons y l ih => exact .bind .readAt fun _ => .bind ih fun _ => .pure
protected theorem AccKeeps.qldBody {p q w z nb x} : AccKeeps (qldBody p q w z nb x) :=
  .bind .get fun _ =>
  .ite (.ite .modifyCur .notReady) (.bind (.resolveAll fun _ => .windowAccess) fun _ => .bind .readUnits fun _ => .modifyCur)
protected theorem Answers.execQld {p q o w z r nb} (hs : Keeps σ s) : Answers σ (execQld p q o w z r nb s) :=
  .scalarMem (fun _ => .qldBody) hs
protected theorem Answers.execQpush {p q o z nb} (hs : Keeps σ s) : Answers σ (execQpush p q o z nb s) :=
  .ite (.ite (.scalarNext hs) (.next hs.stalled)) (.scalarNext hs)
protected theorem Answers.execYpop {p q o nb} (hs : Keeps σ s) : Answers σ (execYpop p q o nb s) := by
  dsimp only [execYpop]
  split
  · exact .ite (.scalarNext hs) (.next hs.stalled)
  · exact .scalarNext hs
protected theorem AccKeeps.shelfAt {o n} : AccKeeps (shelfAt o n) := .ite .raiseAt (.bind .get fun _ => .shelfResolve)
protected theorem Answers.execShld {d o z r} (hs : Keeps σ s) : Answers σ (execShld d o z r s) :=
  .scalarMem (fun _ => .bind .shelfAt fun _ => .bind .curAgent fun _ => .bind .physRead fun _ => .putLoad) hs
protected theorem Answers.execShst {d o z r} (hs : Keeps σ s) : Answers σ (execShst d o z r s) :=
  .scalarMem (fun _ => .bind .shelfAt fun _ => .bind .curAgent fun _ => .physWrite) hs
protected theorem Answers.execSlotInst {a b} (hs : Keeps σ s) : Answers σ (execSlotInst a b s) := by
  dsimp only [execSlotInst]
  split
  · exact .scalarAcc .raiseAt hs
  · split
    · exact .scalarAcc .raiseReg hs
    · split
      · exact .next hs.setTag.setCur
      · split
        · exact .scalarAcc .raiseAt hs
        · exact .next hs.setTag.setCur
protected theorem Answers.execSlotEvict {d a} (hs : Keeps σ s) : Answers σ (execSlotEvict d a s) :=
  .ite (.scalarAcc .raiseAt hs) (.next (.setCur (.ite hs.setTag hs)))
protected theorem Answers.execSlotRd {d a} (hs : Keeps σ s) : Answers σ (execSlotRd d a s) :=
  .ite (.scalarAcc .raiseAt hs) (.scalarNext hs)
protected theorem Answers.execPublSlot {d a} (hs : Keeps σ s) : Answers σ (execPublSlot d a s) :=
  .ite (.scalarAcc .raiseAt hs) (.ite (.scalarNext hs) (.next hs.setCur.stalled))
protected theorem Answers.execPublBuf {d a} (hs : Keeps σ s) : Answers σ (execPublBuf d a s) :=
  .ite (.scalarAcc .raiseReg hs) (.ite (.scalarNext hs) (.next hs.setCur.setDie.stalled))
protected theorem AccKeeps.watchBody {d w z x} : AccKeeps (watchBody d w z x) :=
  .bind .windowOne fun _ => .bind .getCur fun _ => .ite .raiseAt (.bind .readAt fun _ => .modifyCur)
protected theorem Answers.execWatch {d o w z r} (hs : Keeps σ s) : Answers σ (execWatch d o w z r s) :=
  .ite (.scalarAcc .raise hs) (.scalarMem (fun _ => .watchBody) hs)
protected theorem Answers.execPark {d a} (hs : Keeps σ s) : Answers σ (execPark d a s) := .ite (.scalarAcc .raise hs) (.scalarNext hs)

/-! Copy engines -/

protected theorem AccKeeps.engRead {die c va n} : AccKeeps (engRead die c va n) := .readVirt
protected theorem AccKeeps.readRecord {die c} : AccKeeps (readRecord die c) := by
  dsimp only [readRecord]
  split
  · exact .pure
  · exact .ite .pure (.bind .engRead fun _ => .pure)
protected theorem Keeps.takeShadow {b sl} (hs : Keeps σ s) : Keeps σ (s.takeShadow b sl) := by
  dsimp only [State.takeShadow]
  split
  · exact hs
  · split
    · exact hs
    · exact hs.setTag
protected theorem TriedKeeps.takeShadows {l} (hs : Keeps σ s) : TriedKeeps σ (s.takeShadows l) := by
  induction l generalizing s with
  | nil => exact .ok hs
  | cons y l ih =>
    dsimp only [State.takeShadows]
    split
    · exact .error
    · exact ih hs.takeShadow
protected theorem Keeps.markErr {die c} (hs : Keeps σ s) : Keeps σ (s.markErr die c) :=
  have hfilling := Keeps.foldl hs fun _ _ ht => .ite ht.setTag ht
  .ite hfilling.setDie (.foldl hfilling fun _ _ ht => .ite ht.setDie ht)
protected theorem Keeps.pendBufs {die l} (hs : Keeps σ s) : Keeps σ (s.pendBufs die l) := .foldl hs fun _ _ ht => .ite ht.setDie ht
protected theorem Keeps.settleSpoilt {die b} (hs : Keeps σ s) : Keeps σ (s.settleSpoilt die b) := hs.setDie
protected theorem Keeps.letGo {die b} (hs : Keeps σ s) : Keeps σ (s.letGo die b) := .ite hs.settleSpoilt.pendBufs hs.settleSpoilt
protected theorem Keeps.setQueue {die q x} (hs : Keeps σ s) : Keeps σ (s.setQueue die q x) := hs.setDie
protected theorem Keeps.endCmd {die q c st} (hs : Keeps σ s) : Keeps σ (s.endCmd die q c st) := .setQueue (.ite hs hs.markErr)
protected theorem Keeps.haltCmd {die q c i} (hs : Keeps σ s) : Keeps σ (s.haltCmd die q c i) := hs.setQueue.post
protected theorem Keeps.accept {die q c} (hs : Keeps σ s) : Keeps σ (s.accept die q c) := .ite hs.setQueue.pendBufs hs.setQueue
protected theorem Answers.issueCmd {i d q c ownSlot cont} (hs : Keeps σ s) : Answers σ (issueCmd i d q c ownSlot cont s) := by
  dsimp only [issueCmd]
  split
  · exact .next hs.setQueue.stalled
  · split
    · exact .scalarAcc .raiseAt hs
    · exact .next (.setCur (.accept (.setQueue (TriedKeeps.of_ok (.takeShadows hs) ‹_›))))
protected theorem AccKeeps.chainBody {a b x} : AccKeeps (chainBody a b x) := by
  unfold chainBody
  extract_lets
  exact .when .raiseReg fun _ => .when .raiseReg fun _ => .bind .get fun _ =>
    .ite
      (.bind (.resolveAll fun _ => .translate) fun _ => .bind .writeAt fun _ => .modify fun _ _ ht => ht.setQueue)
      (.modify fun _ _ ht => ht.setQueue)
protected theorem Answers.execChain {a b} (hs : Keeps σ s) : Answers σ (execChain a b s) := .scalarMem (fun _ => .chainBody) hs
protected theorem Keeps.mapCmds {die f} (hs : Keeps σ s) : Keeps σ (s.mapCmds die f) := hs.setDie
protected theorem Keeps.settleYields {die on force} (hs : Keeps σ s) : Keeps σ (s.settleYields die on force) := hs.update
protected theorem Keeps.setCtr {die i v} (hs : Keeps σ s) : Keeps σ (s.setCtr die i v) := hs.setDie.mapCmds.settleYields
protected theorem Answers.execSeqAdd {d a b} (hs : Keeps σ s) : Answers σ (execSeqAdd d a b s) :=
  .ite (.scalarAcc .raiseReg hs) (.scalarNext hs.setCtr)
protected theorem Keeps.writeCtr {die i v force} (hs : Keeps σ s) : Keeps σ (s.writeCtr die i v force) :=
  .setCtr (.ite hs.settleYields.mapCmds hs.settleYields)
protected theorem Keeps.writeNumbers {die q v force} (hs : Keeps σ s) : Keeps σ (s.writeNumbers die q v force) :=
  hs.settleYields.setQueue
protected theorem Answers.execSeqSet {p a b q} (hs : Keeps σ s) : Answers σ (execSeqSet p a b q s) :=
  .ite (.scalarAcc .raiseReg hs) (.ite (.scalarNext hs) (.scalarNext (.ite hs.writeNumbers hs.writeCtr)))
protected theorem Keeps.cancelQueue {die q} (hs : Keeps σ s) : Keeps σ (s.cancelQueue die q) := hs.settleYields.setQueue
protected theorem Answers.execSeqSetForce {p a b q} (hs : Keeps σ s) : Answers σ (execSeqSetForce p a b q s) :=
  .ite
    (.scalarAcc .raiseReg hs)
    (.ite (.ite (.scalarNext hs.writeNumbers) (.next hs.cancelQueue.stalled)) (.scalarNext hs.writeCtr))
protected theorem AccKeeps.readDims {die c} : AccKeeps (readDims die c) := .ite (.bind .engRead fun _ => .pure) .pure
protected theorem Keeps.cmdFault {die q c i} (hs : Keeps σ s) : Keeps σ (s.cmdFault die q c i) := .ite hs.haltCmd hs.endCmd
protected theorem Keeps.putCmd {die q c} (hs : Keeps σ s) : Keeps σ (s.putCmd die q c) := hs.setQueue
protected theorem Keeps.beginWith {die q c} (hs : Keeps σ s) : Keeps σ (beginWith die q c s) := by
  unfold beginWith
  refine .ite hs.putCmd ?_
  split
  · exact (AccKeeps.error .readDims hs ‹_›).cmdFault
  · exact (AccKeeps.error .readDims hs ‹_›).putCmd
  · have hdims := AccKeeps.ok .readDims hs ‹_›
    refine .ite hdims.endCmd (.setQueue (.pendBufs (.ite hdims ?_)))
    split
    · exact TriedKeeps.of_ok (.takeShadows hdims) ‹_›
    · exact hdims
protected theorem Keeps.commandBegin {die q} (hs : Keeps σ s) : Keeps σ (s.commandBegin die q) := by
  dsimp only [State.commandBegin]
  split
  · exact hs
  · split
    · exact hs.endCmd
    · split
      · exact .cmdFault (AccKeeps.error .readRecord hs ‹_›)
      · exact .putCmd (AccKeeps.error .readRecord hs ‹_›)
      · exact .beginWith (AccKeeps.ok .readRecord hs ‹_›)
protected theorem Answers.execCommandBegin {die q} (hs : Keeps σ s) : Answers σ (execCommandBegin die q s) := .next hs.commandBegin
protected theorem AccKeeps.writeFrames {ag o l fs} : AccKeeps (writeFrames ag o l fs) := by
  induction fs with
  | nil => exact .pure
  | cons y fs ih => exact .bind .physWrite fun _ => ih
protected theorem AccKeeps.putElem {die c e l} : AccKeeps (putElem die c e l) :=
  .bind .get fun _ => by
    split
    · exact .ite .pure (.bind .writeFrames fun _ => .pure)
    · exact .ite .pure (.bind .physWrite fun _ => .pure)
    · exact .bind .writeVirt fun _ => .pure
protected theorem AccKeeps.copyElem {die c k x} : AccKeeps (copyElem die c k x) := by
  unfold copyElem
  extract_lets rest
  have hrest v : AccKeeps (rest v) := .bind .engRead fun _ => .ite .pure (.bind .putElem fun _ => .pure)
  refine .ite (.bind ?_ hrest) (.bind .pure hrest)
  split
  · exact .ite .engRead .pure
  · exact .engRead
protected theorem Keeps.copyFrom {die c k x n} (hs : Keeps σ s) : Keeps σ (copyFrom die c n k x s).2 := by
  induction n generalizing k x s with
  | zero => exact hs
  | succ n ih =>
    dsimp only [copyFrom]
    split
    · exact ih (AccKeeps.ok .copyElem hs ‹_›)
    · exact AccKeeps.ok .copyElem hs ‹_›
    · exact AccKeeps.error .copyElem hs ‹_›
    · exact AccKeeps.error .copyElem hs ‹_›
protected theorem Keeps.runCmd {die q c} (hs : Keeps σ s) : Keeps σ (runCmd die q c s) := by
  dsimp only [runCmd]
  split
  · exact .endCmd (Keeps.of_snd hs.copyFrom ‹_›)
  · exact .endCmd (Keeps.of_snd hs.copyFrom ‹_›)
  · exact .cmdFault (Keeps.of_snd hs.copyFrom ‹_›)
  · exact .setQueue (Keeps.of_snd hs.copyFrom ‹_›)
protected theorem Keeps.commandRun {die q} (hs : Keeps σ s) : Keeps σ (s.commandRun die q) := by
  dsimp only [State.commandRun]
  split
  · exact hs
  · exact hs.runCmd
protected theorem Answers.execCommandComplete {die q} (hs : Keeps σ s) : Answers σ (execCommandComplete die q s) := .next hs.commandRun
protected theorem Answers.execEngineHalt {die q} (hs : Keeps σ s) : Answers σ (execEngineHalt die q s) := by
  dsimp only [execEngineHalt]
  split
  · exact .next hs
  · split
    · exact .next (.ite hs.runCmd hs)
    · exact .next hs
protected theorem Keeps.chainFail {die q c st} (hs : Keeps σ s) : Keeps σ (s.chainFail die q c st) := hs.accept.setQueue.endCmd
protected theorem Answers.execChainFetch {die q} (hs : Keeps σ s) : Answers σ (execChainFetch die q s) := by
  unfold execChainFetch
  dsimp only
  split
  · exact .next hs
  · refine .ite (.next hs) (.ite (.next hs.chainFail) (.ite (.next hs.setQueue.chainFail) ?_))
    split
    · have ht := AccKeeps.ok .engRead hs.setQueue ‹_›
      split
      · exact .next ht.accept.setQueue.endCmd
      · exact .next ht.accept.setQueue
    · have ht := AccKeeps.error .engRead hs.setQueue ‹_›
      exact .ite (.next ht.setQueue.post) (.next ht.chainFail)
    · exact .next (AccKeeps.error .engRead hs.setQueue ‹_›)
protected theorem Answers.execQueueResume {die q} (hs : Keeps σ s) : Answers σ (execQueueResume die q s) := .next hs.setQueue
protected theorem Keeps.abandon {die q} (hs : Keeps σ s) : Keeps σ (s.abandon die q) := by
  dsimp only [State.abandon]
  split
  · exact .foldl hs fun _ _ ht => ht.endCmd
  · exact .ite (.setQueue (.foldl hs fun _ _ ht => ht.endCmd)) (.chainFail (.foldl hs fun _ _ ht => ht.endCmd))
  · exact .foldl hs fun _ _ ht => ht.endCmd
protected theorem Answers.execQueueAbandon {die q} (hs : Keeps σ s) : Answers σ (execQueueAbandon die q s) := .next hs.abandon
protected theorem Answers.execPbufDescWrite {die b word v} (hs : Keeps σ s) : Answers σ (execPbufDescWrite die b word v s) :=
  .next hs.setDie
protected theorem Answers.execPublishSwap {g} (hs : Keeps σ s) : Answers σ (execPublishSwap g s) := by
  dsimp only [execPublishSwap]
  split
  · exact .ite (.next hs.setGroup) (.ite (.next hs) (.ite (.next hs.setTag.setGroup) (.next hs.setTag.setGroup)))
  · exact .next hs
protected theorem Keeps.publDone {g b d st} (hs : Keeps σ s) : Keeps σ (s.publDone g b d st) := hs.setGroup.letGo
protected theorem Answers.execPbufPublishSwap {g} (hs : Keeps σ s) : Answers σ (execPbufPublishSwap g s) := by
  dsimp only [execPbufPublishSwap]
  split
  · split
    · exact .next hs
    · split
      · exact .next hs.publDone
      · split
        · exact .next hs
        · split
          · exact .next hs.setDie.publDone
          · split
            · exact .ite (.next hs.write64.invalidate.setDie.publDone) (.next hs.publDone)
            · exact .next hs.reachTrap
            · exact .next hs.publDone
  · exact .next hs

/-! Scalar arithmetic and control registers -/

protected theorem Answers.alu3 {d a b f} (hs : Keeps σ s) : Answers σ (alu3 d a b f s) := .scalarNext hs
protected theorem Answers.alu2 {d a f} (hs : Keeps σ s) : Answers σ (alu2 d a f s) := .scalarNext hs
protected theorem Answers.execExt {d a b sgn} (hs : Keeps σ s) : Answers σ (execExt d a b sgn s) :=
  .ite (.alu3 hs) (.scalarAcc .raiseReg hs)
protected theorem Answers.execIns {d a b} (hs : Keeps σ s) : Answers σ (execIns d a b s) :=
  .ite (.scalarNext hs) (.scalarAcc .raiseReg hs)
protected theorem Answers.execMtc {a f} (hs : Keeps σ s) : Answers σ (execMtc a f s) := by
  dsimp only [execMtc]
  split
  · exact .next hs.stalled
  · split
    · exact .scalarNext hs
    · exact .scalarAcc .raise hs
protected theorem Answers.execMfc {d f} (hs : Keeps σ s) : Answers σ (execMfc d f s) := .ite (.next hs.stalled) (.scalarNext hs)

/-! Moves, lane control, compaction -/

protected theorem AccKeeps.idxRange {f k} : AccKeeps (idxRange f k : Acc α) := .throw
protected theorem Answers.execMov {h d a b w64 m} (hs : Keeps σ s) : Answers σ (execMov h d a b w64 m s) := by
  dsimp only [execMov]
  split
  · exact .laneAlu hs
  · split
    · exact .laneAcc .idxRange hs
    · exact .ite (.laneAcc .raise hs) (.laneAlu hs)
    · exact .laneAlu hs
  · exact .laneAcc
      (.bind .checkOps fun _ =>
       .bind .needData fun _ => by
         split
         · exact .idxRange
         · exact .modifyCur)
      hs
protected theorem Answers.execLend {h} (hs : Keeps σ s) : Answers σ (execLend h s) :=
  .laneAcc (.bind .getCur fun _ => .ite .raise (.ite .raise .modifyCur)) hs
protected theorem AccKeeps.checkTarget {imm} : AccKeeps (checkTarget imm) := .bind .getCur fun _ => .ite .raise .pure
protected theorem Answers.execLbr {h imm} (hs : Keeps σ s) : Answers σ (execLbr h imm s) :=
  .laneAcc
    (.bind .checkTarget fun _ => .bind .getCur fun _ => by
       dsimp only
       split
       · exact .raise
       · exact .modifyCur)
    hs
protected theorem Answers.execLbrJ {h imm} (hs : Keeps σ s) : Answers σ (execLbrJ h imm s) :=
  .laneAcc (.bind .checkTarget fun _ => .bind .getCur fun _ => .ite .modifyCur (.ite .modifyCur .raise)) hs
protected theorem Answers.execLsync {h} (hs : Keeps σ s) : Answers σ (execLsync h s) :=
  .laneAcc
    (.bind .getCur fun _ => by
       split
       · exact .raise
       · exact .modifyCur)
    hs
protected theorem Answers.execLexit {h} (hs : Keeps σ s) : Answers σ (execLexit h s) :=
  .laneAcc
    (.bind .getCur fun _ => .ite .modifyCur <| .ite .modifyCur <| by
       dsimp only
       split
       · exact .modifyCur
       · exact .raise)
    hs
protected theorem Answers.execLbrC {h imm} (hs : Keeps σ s) : Answers σ (execLbrC h imm s) :=
  .laneAcc
    (.bind .checkTarget fun _ => .bind .getCur fun _ => .ite .raise (.bind .modifyCur fun _ => .modify fun _ _ ht => ht.stalled))
    hs
protected theorem Answers.execLsyncC {h} (hs : Keeps σ s) : Answers σ (execLsyncC h s) :=
  .laneAcc
    (.bind .getCur fun _ => by
       split
       · exact .raise
       · split
         · exact .modifyCur
         · exact .bind .modifyCur fun _ => .modify fun _ _ ht => ht.stalled)
    hs
protected theorem Keeps.mismatch {gids} (hs : Keeps σ s) : Keeps σ (s.mismatch gids) := .foldl hs fun _ _ ht => ht.setGroup.reachTrap
protected theorem Answers.execCompactRegroup {g} (hs : Keeps σ s) : Answers σ (execCompactRegroup g s) := by
  dsimp only [execCompactRegroup]
  split
  · exact .ite (.ite (.next (.foldl hs fun _ _ ht => ht.setGroup)) (.next hs.mismatch)) (.next hs)
  · exact .next hs
protected theorem Answers.execCompactReturn {g} (hs : Keeps σ s) : Answers σ (execCompactReturn g s) := by
  dsimp only [execCompactReturn]
  split
  · split
    · exact .ite (.next (.foldl hs fun _ _ ht => ht.setGroup)) (.next hs.mismatch)
    · exact .next hs
  · exact .next hs

/-! Lane loads, stores and atomics -/

protected theorem Keeps.pushFree {d bits} (hs : Keeps σ s) : Keeps σ (pushFree d bits s) := by
  dsimp only [pushFree]
  split
  · exact hs.free.setCur
  · exact hs.free.setCur
  · exact hs
protected theorem Answers.laneMem {i h d bits rd src body} (hbody : ∀ x, AccKeeps (body x)) (hs : Keeps σ s) :
    Answers σ (laneMem i h d bits rd src body s) := by
  unfold laneMem
  split
  · exact .ite (.next hs.stalled) (.replayAcc hbody hs)
  · refine .ite (.next hs.setCur) ?_
    dsimp only
    split
    · exact .finish hs.setCur
    · refine .ite (.next hs.setCur.setCur.pushFree) ?_
      have hall {x} : AccKeeps (do body x; modifyCur (fun g => (g.popAll rd).lpc1)) := .bind (hbody x) fun _ => .modifyCur
      split
      · exact .finish (hall.error hs.setCur ‹_›).setCur
      · exact .finish (hall.error hs.setCur ‹_›).setCur
      · exact .finish (hall hs.setCur)
protected theorem AccKeeps.shelfList {gid g n f l} : AccKeeps (shelfList gid g n f l) := by
  induction l with
  | nil => exact .pure
  | cons j l ih => exact .bind (.withVlane .shelfResolve) fun _ => .bind ih fun _ => .pure
protected theorem AccKeeps.laneAddrs {m off k n x ls} : AccKeeps (laneAddrs m off k n x ls) :=
  .bind .get fun _ => .ite .shelfList (.resolveAll fun _ => .windowAccess)
protected theorem AccKeeps.putLane {d uni mask l n} : AccKeeps (putLane d uni mask l n) := .modifyCur
protected theorem AccKeeps.readLanes {g va l} : AccKeeps (readLanes g va l) := by
  induction l with
  | nil => exact .pure
  | cons p l ih => exact .bind (.withVlane .readAt) fun _ => .bind ih fun _ => .pure
protected theorem AccKeeps.lldBody {h d z m x} : AccKeeps (lldBody h d z m x) :=
  .bind .getCur fun _ => .bind .laneAddrs fun _ => .bind (.wholly .readLanes) fun _ => .putLane
protected theorem Answers.execLld {h d a z m} (hs : Keeps σ s) : Answers σ (execLld h d a z m s) := .laneMem (fun _ => .lldBody) hs
protected theorem AccKeeps.writeLanes {n f l} : AccKeeps (writeLanes n f l) := by
  induction l with
  | nil => exact .pure
  | cons y l ih => exact .bind .writeAt fun _ => ih
protected theorem AccKeeps.lstBody {h z m x} : AccKeeps (lstBody h z m x) :=
  .bind .getCur fun _ => .bind .laneAddrs fun _ => .writeLanes
protected theorem Answers.execLst {h a b z m} (hs : Keeps σ s) : Answers σ (execLst h a b z m s) := .laneMem (fun _ => .lstBody) hs
protected theorem AccKeeps.atomLanes {ag g op t va b c l} : AccKeeps (atomLanes ag g op t va b c l) := by
  induction l with
  | nil => exact .pure
  | cons p l ih => exact .bind (.withVlane .atomApply) fun _ => .bind ih fun _ => .pure
protected theorem AccKeeps.laneAtomBody {h d t op m x} : AccKeeps (laneAtomBody h d t op m x) :=
  .bind .curAgent fun _ => .bind .getCur fun _ => .bind .laneAddrs fun _ => .bind .get fun _ => by
    dsimp only
    split
    · exact .withVlane (.asKind .raiseAt)
    · exact .bind (.wholly (.asKind .atomLanes)) fun _ => .ite .pure .putLane
protected theorem Answers.execLaneAtom {h d a b c ty op m} (hs : Keeps σ s) : Answers σ (execLaneAtom h d a b c ty op m s) := by
  unfold execLaneAtom
  exact .laneMem (fun _ => .laneAtomBody) hs

/-! Tiles and the matrix array -/

protected theorem AccKeeps.needScale {e} : AccKeeps (needScale e) := .bind .getCur fun _ => .ite .raise .pure
protected theorem AccKeeps.needBinding {t} : AccKeeps (needBinding t) :=
  .bind .getCur fun _ => by
    dsimp only
    split
    · exact .pure
    · exact .throw
protected theorem AccKeeps.needEntries {t} : AccKeeps (needEntries t) := .bind .getCur fun _ => .ite .needScale .pure
protected theorem AccKeeps.shelfTable {gid t l} : AccKeeps (shelfTable gid l t) := by
  induction l generalizing t with
  | nil => exact .pure
  | cons y l ih => exact .ite ih (.bind .shelfResolve fun _ => ih)
protected theorem AccKeeps.readEach {ag va l} : AccKeeps (readEach ag va l) := by
  induction l with
  | nil => exact .pure
  | cons y l ih => exact .bind .physRead fun _ => .bind ih fun _ => .pure
protected theorem AccKeeps.writeEach {ag l} : AccKeeps (writeEach ag l) := by
  induction l with
  | nil => exact .pure
  | cons y l ih => exact .bind .physWrite fun _ => ih
protected theorem AccKeeps.shelfBytes {gid o n} : AccKeeps (shelfBytes gid o n) :=
  .bind .shelfTable fun _ => .bind .get fun _ => .readEach
protected theorem AccKeeps.resolveSpans {k fs l} : AccKeeps (resolveSpans k l fs) := by
  induction l generalizing fs with
  | nil => exact .pure
  | cons y l ih => exact .bind .get fun _ => .bind (.resolveOne fun _ => .windowAccess) fun ⟨_, _⟩ => .bind ih fun ⟨_, _⟩ => .pure
protected theorem AccKeeps.spanAddrs {shf k l} : AccKeeps (spanAddrs shf k l) := by
  dsimp only [spanAddrs]
  split
  · exact .bind .get fun _ => .bind .shelfTable fun _ => .pure
  · exact .bind .resolveSpans fun _ => by
      split
      · exact .throw
      · exact .ite .pure .throw
protected theorem AccKeeps.readSpans {shf l} : AccKeeps (readSpans shf l) := by
  induction l with
  | nil => exact .pure
  | cons y l ih => exact .bind .curAgent fun _ => .bind .getCur fun _ => .bind .readEach fun _ => .bind ih fun _ => .pure
protected theorem AccKeeps.writeSpans {l} : AccKeeps (writeSpans l) := by
  induction l with
  | nil => exact .pure
  | cons y l ih => exact .bind .curAgent fun _ => .bind .writeEach fun _ => ih
protected theorem Answers.mxRun {i h pre fields dst ops pops src body} (hpre : AccKeeps pre)
    (hbody : ∀ need x, (∀ o, AccKeeps (need o)) → AccKeeps (body need x)) (hs : Keeps σ s) :
    Answers σ (mxRun i h pre fields dst ops pops src body s) := by
  have hneed : ∀ o, AccKeeps (needData o) := fun _ => .needData
  unfold mxRun
  split
  · exact .replayAcc (fun x => .bind hpre fun _ => hbody _ x fun _ => .needData) hs
  · refine .ite (.next hs.setCur) ?_
    dsimp only
    split
    · exact .next hs.setCur
    · refine .ite (.next hs.setCur) (.ite (.finish hs.setCur) ?_)
      have hall {v} : AccKeeps (do
          pre; checkOps fields dst ops; body needData (src s.cur.settle v); modifyCur (fun g => (g.popAll pops).lpc1)) :=
        .bind hpre fun _ => .bind .checkOps fun _ => .bind (hbody _ _ hneed) fun _ => .modifyCur
      split
      · exact .ite (.finish (hall.error hs.setCur ‹_›)) (.finish (hall.error hs.setCur ‹_›).setCur)
      · exact .ite (.finish (hall.error hs.setCur ‹_›)) (.finish (hall.error hs.setCur ‹_›).setCur)
      · exact .finish (hall hs.setCur)
protected theorem AccKeeps.checkPitch {x} : AccKeeps (checkPitch x) := .ite .raise .pure
protected theorem AccKeeps.tldBody {t win swin shf sc e land x} (hland : AccKeeps land) :
    AccKeeps (tldBody t win swin shf sc e land x) :=
  .bind .getCur fun _ =>
  .bind .spanAddrs fun _ => .bind .checkPitch fun _ => .bind hland fun _ => .bind .readSpans fun _ => .ite .raise .modifyCur
protected theorem Answers.execTld {h t a c win swin shf sc e os} (hs : Keeps σ s) :
    Answers σ (execTld h t a c win swin shf sc e os s) := by
  unfold execTld
  exact .mxRun .pure (fun _ _ hneed => .tldBody (hneed _)) hs
protected theorem AccKeeps.tstBody {t win swin shf sc land x} (hland : AccKeeps land) : AccKeeps (tstBody t win swin shf sc land x) :=
  .bind .getCur fun _ =>
  .bind .spanAddrs fun _ => .ite .throw (.bind .checkPitch fun _ => .bind hland fun _ => .when .needScale fun _ => .writeSpans)
protected theorem Answers.execTst {h t a c win swin shf sc os} (hs : Keeps σ s) : Answers σ (execTst h t a c win swin shf sc os s) :=
  .mxRun .pure (fun _ _ hneed => .tstBody (hneed _)) hs
protected theorem Keeps.setMx {gid x} (hs : Keeps σ s) : Keeps σ (s.setMx gid x) := hs.setCore
protected theorem AccKeeps.getMx : AccKeeps getMx := .bind .get fun _ => .pure
protected theorem AccKeeps.modifyMx {f} : AccKeeps (modifyMx f) := .modify fun _ _ ht => ht.setMx
protected theorem Keeps.requestToken {gid} (hs : Keeps σ s) : Keeps σ (s.requestToken gid) := .ite hs.setMx hs.setDie.setMx
protected theorem Keeps.grantToken {core} (hs : Keeps σ s) : Keeps σ (s.grantToken core) :=
  .setCore (.setDie (.foldl hs fun _ _ ht => ht.setCore))
protected theorem AccKeeps.mxToken : AccKeeps mxToken :=
  .bind .get fun _ => .ite .pure (.bind (.modify fun _ _ ht => ht.requestToken) fun _ => .notReady)
protected theorem AccKeeps.mxReady {frozenOk tok} : AccKeeps (mxReady frozenOk tok) :=
  .get_bind fun _ _ hs => by
    dsimp only
    split
    · exact .ite (.ite (.set hs.setMx) (.ite (.set hs.setMx) (.of .pure hs))) (.set_bind hs.setMx .notReady)
    · exact .ite (.ite (.of .raise hs) (.of .pure hs)) (.set_bind hs.setMx .notReady)
protected theorem Keeps.takeToken {gid} (hs : Keeps σ s) : Keeps σ (s.takeToken gid) := .ite hs.setMx (.ite hs hs.grantToken)
protected theorem Keeps.giveToken {gid} (hs : Keeps σ s) : Keeps σ (s.giveToken gid) := .ite hs.setDie.setMx hs
protected theorem AccKeeps.mxClaim : AccKeeps mxClaim := .modify fun _ _ ht => ht.setMx
protected theorem Keeps.wakeArray {gid} (hs : Keeps σ s) : Keeps σ (s.wakeArray gid) := .ite hs.setGroup hs
protected theorem Keeps.thawArray {gid} (hs : Keeps σ s) : Keeps σ (s.thawArray gid) := .ite hs.setMx hs
protected theorem AccKeeps.mxErrFirst : AccKeeps mxErrFirst :=
  .bind .get fun _ => by
    split
    · exact .throw
    · exact .pure
/-- The body runs on the array as the group's own loop or drain will leave it, to see whether it raises; that state is dropped (log 104). -/
protected theorem AccKeeps.mxOwn {body} (hbody : AccKeeps body) : AccKeeps (mxOwn body) := by
  intro σ s hs
  simp only [EStateM.run, mxOwn]
  split
  · split <;> exact hs
  · exact hbody hs
protected theorem Answers.mxArr {i h pre fields dst ops pops src body} (hpre : AccKeeps pre)
    (hbody : ∀ need x, (∀ o, AccKeeps (need o)) → AccKeeps (body need x)) (hs : Keeps σ s) :
    Answers σ (mxArr i h pre fields dst ops pops src body s) :=
  .mxRun (.bind .mxErrFirst fun _ => hpre) (fun need x hneed => .mxOwn (hbody need x hneed)) hs
protected theorem AccKeeps.streamBytes {shf t o} : AccKeeps (streamBytes shf t o) := .bind .get fun _ => .ite .shelfBytes .pure
protected theorem AccKeeps.mloadBody {t m shf sp land x} (hland : AccKeeps land) : AccKeeps (mloadBody t m shf sp land x) := by
  unfold mloadBody
  refine .bind .get fun _ => ?_
  extract_lets _ _ _ _ _ rest
  have hrest u : AccKeeps (rest u) :=
    .bind .needBinding fun _ => .ite .raise <| .ite .raise <| .ite .raise <|
      .bind hland fun _ => .bind .needEntries fun _ => .bind .streamBytes fun _ => .bind .mxClaim fun _ =>
        .bind (.modify fun _ _ hs => hs.takeToken) fun _ => .bind .modifyMx fun _ => .modify fun _ _ hs => hs.giveToken
  exact .ite (.bind .shelfTable fun _ => hrest ()) (hrest ())
protected theorem Answers.execMload {h t m c shf sp} (hs : Keeps σ s) : Answers σ (execMload h t m c shf sp s) :=
  .mxArr (.bind .mxReady fun _ => .mxToken) (fun _ _ hneed => .mloadBody (hneed _)) hs
protected theorem AccKeeps.shelfSteps {gid o n inc t l} : AccKeeps (shelfSteps gid o n inc l t) := by
  induction l generalizing t with
  | nil => exact .pure
  | cons y l ih => exact .ite .raiseAt (.bind .shelfTable fun _ => ih)
protected theorem AccKeeps.stepBytes {gid r d shf delta n} : AccKeeps (stepBytes gid r d shf delta n) := by
  dsimp only [stepBytes]
  split
  · exact .shelfBytes
  · exact .ite .raise .pure
protected theorem AccKeeps.needRange {r field t d inc steps} : AccKeeps (needRange r field t d inc steps) := .ite .rangeOf .pure
protected theorem AccKeeps.loopRanges {l} : AccKeeps (loopRanges l) := by
  refine .bind .get fun _ => .when .needRange fun _ => .when .needRange fun _ => .when .needRange fun _ => ?_
  dsimp only
  split
  · refine .bind .shelfSteps fun _ => ?_
    split
    · exact .shelfSteps
    · exact .pure
  · split
    · exact .shelfSteps
    · exact .pure
protected theorem AccKeeps.mloopBody {l land x} (hland : AccKeeps land) : AccKeeps (mloopBody l land x) :=
  .bind .get fun _ => .bind .loopRanges fun _ => .bind .needBinding fun _ => by
    dsimp only
    split
    · exact .raise
    · exact .ite .raise <| .ite .raise <|
        .bind hland fun _ => .bind .mxClaim fun _ => .bind (.modify fun _ _ ht => ht.takeToken) fun _ => .modifyMx
protected theorem Answers.execMloop {h acc a rl w c dstep sa sw sp mt steps r} (hs : Keeps σ s) :
    Answers σ (execMloop h acc a rl w c dstep sa sw sp mt steps r s) :=
  .mxArr (.bind .mxReady fun _ => .mxToken) (fun _ _ hneed => .mloopBody (hneed _)) hs
protected theorem AccKeeps.stepReads {gid l} : AccKeeps (stepReads gid l) := by
  unfold stepReads
  refine .bind .get fun _ => ?_
  extract_lets _ _ _ _ masks
  have hmasks ws : AccKeeps (masks ws) := by
    unfold masks
    extract_lets rest
    have hrest ms : AccKeeps (rest ms) := .bind .stepBytes fun _ => .when .raise fun _ => .when .raise fun _ => .pure
    exact .ite (.bind .stepBytes hrest) (.bind .pure hrest)
  exact .ite (.bind .stepBytes hmasks) (.bind .pure hmasks)
protected theorem Answers.execSequencerStep {core} (hs : Keeps σ s) : Answers σ (execSequencerStep core s) := by
  unfold execSequencerStep
  dsimp only
  split
  · refine .ite (.next hs) (.ite (.next hs.requestToken) ?_)
    split
    · have ht := AccKeeps.ok .stepReads hs.takeToken ‹_›
      exact .next (.ite ht.setGroup.setMx ht.setGroup.setMx.giveToken.wakeArray)
    · exact .next (AccKeeps.error .stepReads hs.takeToken ‹_›).giveToken.setMx.wakeArray
  · exact .next hs
protected theorem Keeps.settlePort {gid} (hs : Keeps σ s) : Keeps σ (s.settlePort gid) :=
  .ite (.ite hs.wakeArray.setMx hs.wakeArray.setMx.giveToken) hs.setMx
protected theorem AccKeeps.mdrainBody {k d pf fin r sat land} (hland : AccKeeps land) :
    AccKeeps (mdrainBody k d pf fin r sat land) := by
  have hport : AccKeeps (modify fun s => s.settlePort s.curG : Acc PUnit) := .modify fun _ _ ht => ht.settlePort
  have htoken : AccKeeps (modify fun s => s.takeToken s.curG : Acc PUnit) := .modify fun _ _ ht => ht.takeToken
  refine .bind .get fun _ => .ite (.bind .raise fun _ => hport) <|
    .ite (.bind htoken fun _ => .bind .modifyMx fun _ => hport) <| .ite (.bind .raise fun _ => hport) <|
      .bind hland fun _ => .bind htoken fun _ => ?_
  have hend {f g} : AccKeeps (do modifyCur f; modifyMx g; modify fun s => s.settlePort s.curG) :=
    .bind .modifyCur fun _ => .bind .modifyMx fun _ => hport
  dsimp only
  split
  · exact .bind .modifyCur fun _ => hend
  · exact .bind .modifyCur fun _ => hend
  · exact .bind .modifyMx fun _ => hend
protected theorem Answers.execMdrain {h k d pf fin r sat} (hs : Keeps σ s) : Answers σ (execMdrain h k d pf fin r sat s) :=
  .mxArr (.bind .mxReady fun _ => .mxToken) (fun _ _ hneed => .mdrainBody (hneed _)) hs
protected theorem AccKeeps.wordVa {win x} : AccKeeps (wordVa win x) := .bind .getCur fun _ => .pure
protected theorem AccKeeps.mdrainRawBody {fin win land x} (hland : AccKeeps land) : AccKeeps (mdrainRawBody fin win land x) :=
  .bind .getMx fun _ => .bind .spanAddrs fun _ => .ite .raise (.bind hland fun _ => .bind .writeSpans fun _ => .modifyMx)
protected theorem Answers.execMdrainRaw {h a fin win os} (hs : Keeps σ s) : Answers σ (execMdrainRaw h a fin win os s) :=
  .mxArr .mxReady (fun _ _ hneed => .mdrainRawBody (hneed _)) hs
protected theorem AccKeeps.mxDrained : AccKeeps mxDrained := .bind .getMx fun _ => .ite .notReady .pure
protected theorem Answers.execMzero {h fin} (hs : Keeps σ s) : Answers σ (execMzero h fin s) :=
  .mxArr (.bind .mxReady fun _ => .mxDrained) (fun _ _ _ => .bind .getMx fun _ => .when .mxClaim fun _ => .modifyMx) hs
protected theorem AccKeeps.msaveBody {win land x} (hland : AccKeeps land) : AccKeeps (msaveBody win land x) :=
  .bind .getMx fun _ => .bind .spanAddrs fun _ => .bind .wordVa fun _ => .ite .raise (.bind hland fun _ => .writeSpans)
protected theorem Answers.execMsave {h a win os} (hs : Keeps σ s) : Answers σ (execMsave h a win os s) :=
  .mxArr .mxReady (fun _ _ hneed => .msaveBody (hneed _)) hs
protected theorem AccKeeps.mrestImgBody {win land x} (hland : AccKeeps land) : AccKeeps (mrestImgBody win land x) :=
  .bind .spanAddrs fun _ => .bind .wordVa fun _ => .ite .raise <| .bind hland fun _ => .bind .readSpans fun _ =>
    .ite .raise (.bind (.modify fun _ _ hs => hs.giveToken) fun _ => .modify fun _ _ hs => hs.setMx)
protected theorem Answers.execMrestImg {h a win os} (hs : Keeps σ s) : Answers σ (execMrestImg h a win os s) :=
  .mxArr .mxReady (fun _ _ hneed => .mrestImgBody (hneed _)) hs
protected theorem AccKeeps.mrestRawBody {win land x} (hland : AccKeeps land) : AccKeeps (mrestRawBody win land x) :=
  .bind .spanAddrs fun _ =>
  .bind .wordVa fun _ => .ite .raise (.bind hland fun _ => .bind .readSpans fun _ => .ite .raise .modifyMx)
protected theorem Answers.execMrestRaw {h a win os} (hs : Keeps σ s) : Answers σ (execMrestRaw h a win os s) :=
  .mxArr .mxReady (fun _ _ hneed => .mrestRawBody (hneed _)) hs

/-! Barriers and gangs -/

protected theorem Keeps.setWideBar {w} (hs : Keeps σ s) : Keeps σ (s.setWideBar w) := hs.update
protected theorem Answers.barWait {b phase} (hs : Keeps σ s) : Answers σ (barWait b phase s) :=
  .ite (.next hs.setCur) (.next hs.setCur.stalled)
protected theorem Answers.afterArrive {m b phase} (hs : Keeps σ s) : Answers σ (afterArrive m b phase s) :=
  .ite (.barWait hs.setCur) (.scalarNext hs.setCur)
protected theorem Answers.barOnly {kind idx} (hs : Keeps σ s) : Answers σ (barOnly kind idx s) := by
  dsimp only [barOnly]
  split
  · exact .barWait hs
  · exact .scalarNext hs
protected theorem Answers.execBar {a m i} (hs : Keeps σ s) : Answers σ (execBar a m i s) := by
  dsimp only [execBar]
  split
  · exact .barWait hs
  · split
    · exact .barOnly hs
    · split
      · exact .next hs.stalled
      · split
        · exact .scalarAcc .raiseReg hs
        · split
          · exact .scalarAcc .raise hs
          · exact .afterArrive hs.setBlock
protected theorem Answers.wideArrive {m b} (hs : Keeps σ s) : Answers σ (wideArrive m b s) := .afterArrive hs.setWideBar
protected theorem Answers.execRbar {a m i} (hs : Keeps σ s) : Answers σ (execRbar a m i s) := by
  unfold execRbar
  dsimp only
  split
  · exact .barWait hs
  · exact .ite (.barOnly hs) <| .ite (.next hs.stalled) <| .ite (.scalarAcc .raiseReg hs) <| .ite (.scalarAcc .raise hs) <|
      .ite (.scalarAcc .raise hs) (.ite (.scalarAcc .raise hs.setWideBar) (.wideArrive hs))
protected theorem Answers.wideRun {i m id} (hs : Keeps σ s) : Answers σ (wideRun i m id s) := by
  dsimp only [wideRun]
  split
  · exact .barWait hs
  · exact .ite (.scalarAcc .raise hs) (.ite (.barOnly hs) (.ite (.next hs.stalled) (.wideArrive hs)))
protected theorem AccKeeps.scrAddr {a ag va} : AccKeeps (scrAddr a ag va) :=
  .ite .raiseReg (.bind .translateLeaf fun ⟨_, _⟩ => .ite .pure .raiseReg)
protected theorem AccKeeps.scrBody {d a f always rmw x after} (hafter : ∀ x, AccKeeps (after x)) :
    AccKeeps (scrBody d a f always rmw x after) :=
  .bind .curAgent fun _ =>
  .bind .scrAddr fun _ => .bind .physRead fun _ => .when .physWrite fun _ => .ite (.bind (hafter _) fun _ => .modifyCur) .modifyCur
protected theorem Answers.gangRun {i d a b f always rmw after} (hafter : ∀ x y, AccKeeps (after x y)) (hs : Keeps σ s) :
    Answers σ (gangRun i d a b f always rmw after s) :=
  .scalarMem (fun _ => .scrBody fun _ => hafter _ _) hs
protected theorem AccKeeps.copyEntry {x priv p} : AccKeeps (copyEntry x priv p) := by
  dsimp only [copyEntry]
  split
  · exact .bind .readVirt fun _ => .writeVirt
  · exact .pure
protected theorem Keeps.copyEntries {x priv k n} (hs : Keeps σ s) : Keeps σ (copyEntries x priv n k s).2 := by
  induction n generalizing k s with
  | zero => exact hs
  | succ n ih =>
    dsimp only [copyEntries]
    split
    · exact ih (AccKeeps.ok .copyEntry hs ‹_›)
    · exact AccKeeps.error .copyEntry hs ‹_›
    · exact AccKeeps.error .copyEntry hs ‹_›
protected theorem Keeps.putScr {pa x} (hs : Keeps σ s) : Keeps σ (s.putScr pa x) := hs.write
protected theorem Answers.execGangCopyPass {scr} (hs : Keeps σ s) : Answers σ (execGangCopyPass scr s) := by
  dsimp only [execGangCopyPass]
  split
  · exact .next hs
  · split
    · exact .next hs
    · split
      · exact .next (.putScr (Keeps.of_snd hs.copyEntries ‹_›))
      · exact .next (Keeps.of_snd hs.copyEntries ‹_›)
      · exact .next (.post (.putScr (Keeps.of_snd hs.copyEntries ‹_›)))

/-! Collectives -/

protected theorem Keeps.give {gid part launch block handler on st res} (hs : Keeps σ s) :
    Keeps σ (s.give gid part launch block handler on st res) := by
  dsimp only [State.give]
  split
  · exact .ite hs.setGroup (.ite hs hs.setGroup)
  · split
    · exact hs.setLaunch
    · exact hs
protected theorem Keeps.tellMember {desc key chunk bitmap c st res} (hs : Keeps σ s) :
    Keeps σ (s.tellMember desc key chunk bitmap c st res) := by
  dsimp only [State.tellMember]
  split
  · exact hs.give
  · split
    · exact hs.setLaunch
    · exact hs
protected theorem Answers.collWait {d cont on w st} (hs : Keeps σ s) : Answers σ (collWait d cont on w st s) := by
  dsimp only [collWait]
  split
  · exact .next hs.setCur
  · exact .scalarNext hs
  · exact .next hs.setCur.stalled
protected theorem Answers.collEnds {i a s0 r} (hr : Leaves σ r) : Answers σ (collEnds i a s0 r) := .finish hr
protected theorem AccKeeps.collWords {x n} : AccKeeps (collWords x n) :=
  .bind .curAgent fun _ => .bind (.resolveAll fun _ => .translate) fun _ => .readUnits
protected theorem Answers.collSend {i d a cont desc key opOk tok scr data} (hdata : ∀ x, AccKeeps (data x)) (hs : Keeps σ s) :
    Answers σ (collSend i d a cont desc key opOk tok scr data s) := by
  dsimp only [collSend]
  split
  · exact .collWait (AccKeeps.error .readVirt hs.setCur ‹_›)
  · exact .next hs.noted.stalled
  · have hw := AccKeeps.ok .readVirt hs.setCur ‹_›
    split
    · exact .collWait hw
    · split
      · exact .collEnds (AccKeeps.error (hdata _) hw ‹_›)
      · exact .collWait (AccKeeps.ok (hdata _) hw ‹_›).update
protected theorem Answers.execCollRun {d a cont} (hs : Keeps σ s) : Answers σ (execCollRun d a cont s) := by
  dsimp only [execCollRun]
  split
  · exact .scalarAcc .raiseReg hs
  · exact .collSend (fun _ => .collWords) hs
protected theorem Answers.execCollPut {d a cont} (hs : Keeps σ s) : Answers σ (execCollPut d a cont s) := by
  dsimp only [execCollPut]
  split
  · exact .scalarAcc .raise hs
  · split
    · exact .scalarAcc .raiseReg hs
    · exact .collWait hs
protected theorem Answers.execSamp {d a cont grd tok} (hs : Keeps σ s) : Answers σ (execSamp d a cont grd tok s) := by
  dsimp only [execSamp]
  split
  · exact .scalarAcc .raiseReg hs
  · exact .collSend (fun _ => .bind .collWords fun _ => .pure) hs
protected theorem AccKeeps.readTable {ag a n} : AccKeeps (readTable ag a n) := by
  induction n generalizing a with
  | zero => exact .pure
  | succ n ih => exact .bind .readVirt fun _ => .bind ih fun _ => .pure
protected theorem Keeps.setColl {o} (hs : Keeps σ s) : Keeps σ (s.setColl o) := hs.update
protected theorem Keeps.failPair {desc key st} (hs : Keeps σ s) : Keeps σ (s.failPair desc key st) := hs.update
protected theorem AccKeeps.placePieces {ag l} : AccKeeps (placePieces ag l) := by
  induction l with
  | nil => exact .pure
  | cons y l ih => exact .bind .translate fun _ => .bind ih fun _ => .pure
protected theorem AccKeeps.writePieces {ag l} : AccKeeps (writePieces ag l) := by
  induction l with
  | nil => exact .pure
  | cons y l ih => exact .bind .physWrite fun _ => ih
protected theorem PairKeeps.collWrite {ag va l} (hs : Keeps σ s) : PairKeeps σ (s.collWrite ag va l) := by
  have hwrite : AccKeeps (do writePieces ag (← placePieces ag (pieces va l (l.length / 0x10000 + 1)))) :=
    .bind .placePieces fun _ => .writePieces
  unfold State.collWrite
  split
  · exact .ok (hwrite.ok hs ‹_›)
  · exact .ok (hwrite.error hs ‹_›)
  · exact .error
protected theorem TriedKeeps.tellOne {o st out res c} (hs : Keeps σ s) : TriedKeeps σ (s.tellOne o st out res c) := by
  unfold State.tellOne
  extract_lets
  exact PairKeeps.bind_of_ite (.collWrite hs) (.ok hs) fun _ _ ht =>
    PairKeeps.bind_of_ite (.ok ht) (.collWrite ht) fun _ _ hu => .ok hu.tellMember
protected theorem TriedKeeps.closeColl {o st stOf out res} (hs : Keeps σ s) : TriedKeeps σ (s.closeColl o st stOf out res) :=
  .foldl (.ok hs.setColl) fun _ _ ht => .bind ht fun _ hu => .tellOne hu
protected theorem Keeps.joins {x ts r} (hs : Keeps σ s) : Keeps σ (s.joins x ts r).1 := .ite hs.update hs
protected theorem TriedKeeps.arrive {x} (hs : Keeps σ s) : TriedKeeps σ (s.arrive x) := by
  unfold State.arrive
  extract_lets
  split
  · exact .ok (AccKeeps.error .readTable hs ‹_›).tellMember
  · exact .error
  · have ht := AccKeeps.ok .readTable hs ‹_›
    extract_lets
    split
    have hu := Keeps.of_fst ht.joins ‹_›
    exact .ite (.ok hu.tellMember) <| .ite (.ok hu.setColl.failPair.tellMember) <| .ite (.ok hu.setColl.failPair.tellMember) <|
      .ite (.tellOne hu.setColl) (.ok (.ite hu.setColl.failPair hu.setColl))
protected theorem Answers.execCollContribution {desc key rank chunk} (hs : Keeps σ s) :
    Answers σ (execCollContribution desc key rank chunk s) := by
  dsimp only [execCollContribution]
  split
  · exact .next (.orWait hs (.arrive hs.update))
  · split
    · exact .next hs
    · exact .ite (.next hs) (.ite (.next hs.free.failPair) (.next hs.free.update.setColl))
protected theorem Answers.execCollComplete {desc key chunk} (hs : Keeps σ s) : Answers σ (execCollComplete desc key chunk s) := by
  dsimp only [execCollComplete]
  split
  · exact .next hs
  · exact .ite
      (.next (.orWait hs (.closeColl hs)))
      (.ite
         (.ite (.ite (.next (.orWait hs (.closeColl hs.free.update))) (.next hs)) (.next hs.free.update.failPair))
         (.ite (.next hs) (.next (.orWait hs (.closeColl hs)))))
protected theorem Answers.execCollDeadline {desc key} (hs : Keeps σ s) : Answers σ (execCollDeadline desc key s) := by
  dsimp only [execCollDeadline]
  split
  · exact .next hs
  · exact .next (.orWait hs (.foldl (.ok hs.setCore) fun _ _ ht => .bind ht fun _ hu => .closeColl hu))
protected theorem AccKeeps.tokenPlace {c token} : AccKeeps (tokenPlace c token) :=
  .bind .translate fun _ =>
  .bind .readVirt fun _ => .bind .readVirt fun _ => .bind .readVirt fun _ => .bind (.byteAddrs fun _ => .translate) fun _ => .pure
protected theorem Keeps.tokenRing {o c e} (hs : Keeps σ s) : Keeps σ (s.tokenRing o c e) := .ite hs.setColl hs.appendToken.setColl
protected theorem Answers.execTokenAppend {desc key} (hs : Keeps σ s) : Answers σ (execTokenAppend desc key s) := by
  dsimp only [execTokenAppend]
  split
  · exact .next hs
  · split
    · exact .next hs
    · split
      · exact .next hs
      · split
        · exact .next hs.tokenRing
        · split
          · exact .next (.setColl (AccKeeps.error .tokenPlace hs ‹_›))
          · exact .next hs.noted
          · split
            · exact .next (.tokenRing (AccKeeps.ok .writeAddrs (AccKeeps.ok .tokenPlace hs ‹_›) ‹_›))
            · exact .next (.tokenRing (AccKeeps.error .writeAddrs (AccKeeps.ok .tokenPlace hs ‹_›) ‹_›))
protected theorem AccKeeps.putCopy {ag dst src k n} : AccKeeps (putCopy ag dst src n k) := by
  induction n generalizing k with
  | zero => exact .pure
  | succ n ih => exact .bind .readVirt fun _ => .bind .writeVirt fun _ => ih
protected theorem Answers.execCollPutCompletion {gid} (hs : Keeps σ s) : Answers σ (execCollPutCompletion gid s) := by
  dsimp only [execCollPutCompletion]
  split
  · exact .next hs
  · split
    · exact .next (.give (AccKeeps.ok .putCopy hs ‹_›))
    · exact .next (.give (AccKeeps.error .putCopy hs ‹_›))
    · exact .next hs.noted

/-! Pre-emption, returns from handlers, the fault queue -/

protected theorem Keeps.copyMem {src dst n} (hs : Keeps σ s) : Keeps σ (s.copyMem src dst n) :=
  (hs.setMem (wf_copyRange src dst n)).update
protected theorem Keeps.saveRegs {gid} (hs : Keeps σ s) : Keeps σ (s.saveRegs gid) := .foldl hs.zeroRange fun _ _ ht => ht.write
protected theorem Keeps.saveShelf {c p} (hs : Keeps σ s) : Keeps σ (s.saveShelf c p) :=
  .foldl (.foldl hs fun _ _ ht => .ite ht ht.write64) fun _ _ ht => .foldl ht.write fun _ _ hu => hu.copyMem
protected theorem Keeps.endHalted {p} (hs : Keeps σ s) : Keeps σ (s.endHalted p) := .foldl hs fun _ _ ht => ht.endCmd
protected theorem Keeps.driveQueue {p die q n} (hs : Keeps σ s) : Keeps σ (s.driveQueue p die q n) := by
  induction n generalizing s with
  | zero => exact hs
  | succ n ih => exact .ite (ih hs.commandBegin.commandRun.endHalted) hs
protected theorem Keeps.freeHandler {gid} (hs : Keeps σ s) : Keeps σ (s.freeHandler gid) := .ite hs.setGroup hs
protected theorem Keeps.preemptGroup {gid} (hs : Keeps σ s) : Keeps σ (s.preemptGroup gid) :=
  .ite hs.setGroup (.ite hs.setGroup.raiseTrap.saveRegs.saveShelf hs.setGroup.raiseTrap)
protected theorem Keeps.preemptSave {p} (hs : Keeps σ s) : Keeps σ (s.preemptSave p) := by
  have hfreed : Keeps σ ((s.groupsOf p).foldl State.freeHandler s) := .foldl hs fun _ _ ht => ht.freeHandler
  have hdriven {l : List (BitVec 3 × BitVec 7 × Cmd)} :
      Keeps σ (l.foldl (fun s w => s.driveQueue p w.1 w.2.1 (s.queue w.1 w.2.1).cmds.length)
        (((s.groupsOf p).foldl State.freeHandler s).endHalted p)) := .foldl hfreed.endHalted fun _ _ ht => ht.driveQueue
  exact .ite (.settlePre (.foldl hdriven fun _ _ ht => ht.preemptGroup)) hdriven
protected theorem Keeps.haltGroups {p} (hs : Keeps σ s) : Keeps σ (s.haltGroups p) :=
  .foldl hs.update fun _ _ ht => .ite ht ht.setGroup
protected theorem Answers.execPreemptRequest {p} (hs : Keeps σ s) : Answers σ (execPreemptRequest p s) :=
  .ite (.next hs.preemptSave) (.next hs.setPart.update.haltGroups.preemptSave)
protected theorem Keeps.resume {gid f} (hs : Keeps σ s) : Keeps σ (s.resume gid f) := by
  unfold State.resume
  extract_lets
  refine .ite (.preemptSave hs.leaveLines.setGroup.thawArray) ?_
  split
  · exact .ite hs.leaveLines.setGroup.thawArray.setBlock hs.leaveLines.setGroup.thawArray
  · exact hs.leaveLines.setGroup.thawArray
protected theorem Answers.hretRun {i f} (hf : ∀ s, Keeps σ s → Answers σ (f s)) (hs : Keeps σ s) : Answers σ (hretRun i s f) :=
  .ite (.scalarAcc .raise hs) (.ite (.next hs.stalled) (hf s hs))
protected theorem Answers.execHretResume {a} (hs : Keeps σ s) : Answers σ (execHretResume a s) := by
  unfold execHretResume
  refine .hretRun (fun t ht => ?_) hs
  extract_lets
  exact .ite (.scalarAcc .raiseReg ht) <| .ite (.scalarAcc .raiseAt ht) <| .ite (.scalarAcc .raiseReg ht) <|
    .ite (.next ht.exitGroup) (.next ht.resume)
protected theorem Answers.execHretVacate {a} (hs : Keeps σ s) : Answers σ (execHretVacate a s) :=
  .hretRun (fun _ ht => .next (.ite ht.vacateGroup ht.exitGroup)) hs
protected theorem Answers.execHretEnd {a} (hs : Keeps σ s) : Answers σ (execHretEnd a s) :=
  .hretRun (fun _ ht => .next ht.exitGroup) hs
protected theorem Keeps.takePend {gid x} (hs : Keeps σ s) : Keeps σ (s.takePend gid x) := by
  dsimp only [State.takePend]
  split
  · exact hs.setGroup.clearMxErr.takeTrap
  · exact .ite hs.setGroup.post.exitGroup (.ite hs.logitFail (.ite hs.setGroup.post.exitGroup hs.setGroup.enterHandler))
protected theorem Answers.execTrapEntry {gid} (hs : Keeps σ s) : Answers σ (execTrapEntry gid s) := by
  dsimp only [execTrapEntry]
  split
  · exact .next hs
  · split
    · exact .next hs.takePend
    · exact .next hs
protected theorem Answers.execFqReplyReplay {p gid lane} (hs : Keeps σ s) : Answers σ (execFqReplyReplay p gid lane s) := by
  dsimp only [execFqReplyReplay]
  split
  · exact .next hs
  · split <;> exact .next hs.setGroup
protected theorem Answers.execFqReplyTrap {p gid lane} (hs : Keeps σ s) : Answers σ (execFqReplyTrap p gid lane s) := by
  dsimp only [execFqReplyTrap]
  split
  · exact .ite (.next hs) (.next hs.setGroup)
  · exact .next hs
protected theorem Answers.execFaultRecordDeliver {p} (hs : Keeps σ s) : Answers σ (execFaultRecordDeliver p s) := by
  dsimp only [execFaultRecordDeliver]
  split
  · exact .next hs
  · exact .ite
      (.next hs)
      (.next (.ite (.raiseMsix (.ite hs.write.setPart hs.write.setPart.write64)) (.ite hs.write.setPart hs.write.setPart.write64)))
protected theorem Answers.execFqCtlWrite {p v} (hs : Keeps σ s) : Answers σ (execFqCtlWrite p v s) := .next hs.setPart

/-! Power, errors, boot, the mantel, debug -/

protected theorem Answers.execPwrCapWrite {v} (hs : Keeps σ s) : Answers σ (execPwrCapWrite v s) := .next hs.update
protected theorem Answers.execPowerManagerMove {src dst n} (hs : Keeps σ s) : Answers σ (execPowerManagerMove src dst n s) :=
  .ite
    (.ite (.next hs) (.next hs.setDie.setDie))
    (.ite (.ite (.next hs) (.next hs.setDie.update)) (.ite (.ite (.next hs) (.next hs.setDie.update)) (.next hs)))
protected theorem Answers.execCorePowerOff {c} (hs : Keeps σ s) : Answers σ (execCorePowerOff c s) :=
  .ite (.next hs) (.next hs.setCore)
protected theorem Answers.execCorePowerOn {c} (hs : Keeps σ s) : Answers σ (execCorePowerOn c s) := .ite (.next hs.setCore) (.next hs)
protected theorem Answers.execGranuleDrowsy {gid k} (hs : Keeps σ s) : Answers σ (execGranuleDrowsy gid k s) :=
  .ite (.next hs.setGroup) (.next hs)
protected theorem Answers.execSensorReading {x} (hs : Keeps σ s) : Answers σ (execSensorReading x s) := by
  dsimp only [execSensorReading]
  split
  · exact .next hs.update
  · exact .next hs.setCore
  · exact .next hs.setCore
protected theorem Keeps.postError {place code entry} (hs : Keeps σ s) : Keeps σ (s.postError place code entry) := hs.post
protected theorem OptKeeps.strike {w} (hs : Keeps σ s) : OptKeeps σ (s.strike w) := by
  cases w with
  | mem => exact .ite (.some hs.update) .none
  | reg => exact .ite (.some hs.setGroup) .none
  | scale => exact .ite (.some hs.setGroup) .none
protected theorem Answers.execUncorrectedError {w} (hs : Keeps σ s) : Answers σ (execUncorrectedError w s) := by
  dsimp only [execUncorrectedError]
  split
  · exact .next (.update (OptKeeps.of_some (.strike hs) ‹_›))
  · exact .next hs
protected theorem Answers.execSelfTestComplete {w code} (hs : Keeps σ s) : Answers σ (execSelfTestComplete w code s) :=
  .ite (.next hs.update.postError) (.next hs)
protected theorem Answers.execFabricLinkLost {port} (hs : Keeps σ s) : Answers σ (execFabricLinkLost port s) :=
  .ite (.next hs) (.next hs.setDie.postError)
protected theorem Answers.execHostLinkError {link code} (hs : Keeps σ s) : Answers σ (execHostLinkError link code s) := .next hs.update
theorem event_bootDefaults {flash i} (hi : .event i ∈ bootDefaults flash) : i.isEvent = true := by
  simp only [bootDefaults, List.mem_flatMap, List.mem_map, Move.event.injEq] at hi
  obtain ⟨_, _, _, _, rfl⟩ := hi
  rfl
@[simp] theorem flash_bootPlatform (p : Platform) : (bootPlatform p).flash = p.flash := by
  unfold bootPlatform
  dsimp only
  split
  · split <;> rfl
  · rfl
protected theorem Answers.execBoot {b} (hs : Keeps σ s) : Answers σ (execBoot b s) := by
  have hagenda {l : List Move} (hl : AgendaOk s) (h : ∀ i, .event i ∈ l → i.isEvent = true) :
      ∀ i, .event i ∈ l ++ s.agenda → i.isEvent = true :=
    fun i hi => (List.mem_append.1 hi).elim (h i) (hl i)
  have hdefaults : ∀ i, .event i ∈ (if (bootPlatform s.plat).recovery then [] else bootDefaults s.plat.flash) → i.isEvent = true := by
    intro i hi
    split at hi
    · cases hi
    · exact event_bootDefaults hi
  cases b with
  | warm =>
    refine .next (hs.trans ⟨fun ⟨hmem, h0, h1, hflash⟩ => ⟨hmem, h0, h1, ?_⟩, fun hl => hagenda hl hdefaults⟩)
    simpa using hflash
  | cold =>
    refine .next (hs.trans ⟨fun ⟨_, h0, h1, hflash⟩ => ⟨rfl, h0, h1, ?_⟩, fun hl => hagenda hl hdefaults⟩)
    simpa using hflash
protected theorem Answers.execMantelQuote {p} (hs : Keeps σ s) : Answers σ (execMantelQuote p s) :=
  .ite (.next hs.setMantel) (.next hs.setMantel)
protected theorem Answers.execQuoteComplete {p} (hs : Keeps σ s) : Answers σ (execQuoteComplete p s) := by
  dsimp only [execQuoteComplete]
  split
  · exact .next hs.setMantel
  · exact .next hs
protected theorem Answers.execMantelClear {p} (hs : Keeps σ s) : Answers σ (execMantelClear p s) := .next hs.setMantel
@[simp] theorem flash_dropBad (p : Platform) (n : Nat) : (p.dropBad n).flash = p.flash := by
  induction n generalizing p with
  | zero => rfl
  | succ n ih =>
    unfold Platform.dropBad
    split
    · split
      · rw [ih]
      · rfl
    · rfl
@[simp] theorem flash_dbgWrite (p : Platform) (v : W64) : (p.dbgWrite v).flash = p.flash := by
  unfold Platform.dbgWrite
  split
  · exact flash_dropBad _ _
  · rfl
protected theorem Keeps.dbgDone {st v} (hs : Keeps σ s) : Keeps σ (s.dbgDone st v) := hs.update (flash_dropBad _ _)
protected theorem Answers.execDebugRead {gid off} (hs : Keeps σ s) : Answers σ (execDebugRead gid off s) := by
  dsimp only [execDebugRead]
  split
  · exact .next hs
  · split
    · exact .next hs.dbgDone
    · split
      · exact .next (.dbgDone (.ite hs.setGroup hs))
      · exact .next hs.setGroup.dbgDone
      · exact .next hs.dbgDone
      · exact .next hs.dbgDone
protected theorem Keeps.patchGroup {gid off v} (hs : Keeps σ s) : Keeps σ (s.patchGroup gid off v) := hs.setGroup
protected theorem Answers.execDebugWrite {gid off v} (hs : Keeps σ s) : Answers σ (execDebugWrite gid off v s) := by
  dsimp only [execDebugWrite]
  split
  · exact .next hs
  · split
    · exact .next hs
    · split
      · exact .next hs.dbgDone
      · split
        · exact .next hs.dbgDone
        · exact .next hs.dbgDone
        · exact .ite (.next hs.dbgDone) (.next (.dbgDone (.ite hs.patchGroup.setGroup hs.patchGroup)))
        · exact .ite (.next hs.dbgDone) (.next hs.setGroup.dbgDone)
protected theorem Keeps.haltGroup {gid} (hs : Keeps σ s) : Keeps σ (s.haltGroup gid) := hs.setGroup.completeInvpg.freezeArray.setGroup
protected theorem Answers.execDebugHalt {gid} (hs : Keeps σ s) : Answers σ (execDebugHalt gid s) := by
  dsimp only [execDebugHalt]
  split
  · exact .next hs
  · split
    · exact .next hs.dbgDone
    · exact .next hs.haltGroup.dbgDone
protected theorem Answers.execDebugResume {gid} (hs : Keeps σ s) : Answers σ (execDebugResume gid s) := by
  dsimp only [execDebugResume]
  split
  · exact .next hs
  · split
    · exact .next hs.dbgDone
    · exact .ite (.next hs.dbgDone) (.next (.dbgDone (.ite hs.setGroup hs.setGroup.thawArray)))
protected theorem Answers.execTenantDebugToken {p boot body} (hs : Keeps σ s) : Answers σ (execTenantDebugToken p boot body s) :=
  .ite (.next hs.update) (.next hs)
protected theorem Keeps.wipe (hs : Keeps σ s) : Keeps σ s.wipe :=
  .update ((Keeps.foldl hs fun _ _ ht => ht.endGroup).setMem (Sparse.wf_filter _))
protected theorem Answers.execVendorDebugToken {body} (hs : Keeps σ s) : Answers σ (execVendorDebugToken body s) :=
  .ite
    (.next ⟨fun hm =>
      have ⟨hmem, h0, h1, _⟩ := hs.wipe.1 hm
      have ⟨_, _, _, hflash⟩ := hs.1 hm
      ⟨hmem, h0, h1, hflash⟩, hs.wipe.2⟩)
    (.next hs)

/-! Conversions, scale-only instructions, paired images -/

protected theorem Answers.execCvts {h d a b c r sat ty ty2 e k} (hs : Keeps σ s) : Answers σ (execCvts h d a b c r sat ty ty2 e k s) :=
  .ite (.laneAcc .raise hs) (.laneQueued hs)
protected theorem Answers.scaleRun {i h ops es d rb tiles new} (hs : Keeps σ s) : Answers σ (scaleRun i h ops es d rb tiles new s) :=
  .mxRun .pure
    (fun _ _ hneed => .bind (hneed _) fun _ => .bind (.forM fun _ => .needScale) fun _ => .bind .getCur fun _ => .ite .raise .modifyCur)
    hs
protected theorem Answers.execSbind {h d tiles} (hs : Keeps σ s) : Answers σ (execSbind h d tiles s) :=
  .mxRun .pure (fun _ _ _ => .modifyCur) hs
protected theorem AccKeeps.imageVa {win shf x} : AccKeeps (imageVa win shf x) := .bind .getCur fun _ => .pure
protected theorem AccKeeps.ssaveBody {win shf t land x} (hland : AccKeeps land) : AccKeeps (ssaveBody win shf t land x) :=
  .bind .getCur fun _ =>
  .bind .spanAddrs fun _ =>
  .ite .throw (.bind .imageVa fun _ => .ite .raise (.bind hland fun _ => .when .needScale fun _ => .writeSpans))
protected theorem Answers.execSsave {h a win shf t os} (hs : Keeps σ s) : Answers σ (execSsave h a win shf t os s) :=
  .mxRun .pure (fun _ _ hneed => .ssaveBody (hneed _)) hs
protected theorem AccKeeps.srestBody {win shf t land x} (hland : AccKeeps land) : AccKeeps (srestBody win shf t land x) := by
  unfold srestBody
  refine .bind .getCur fun _ => ?_
  extract_lets
  refine .when .rangeOf fun _ => .bind .spanAddrs fun _ => .bind .imageVa fun _ => ?_
  extract_lets aligned rest
  have hrest head : AccKeeps (rest head) :=
    .bind .spanAddrs fun _ => .when .rangeOf fun _ => .when .raise fun _ => .when .raise fun _ =>
      .bind hland fun _ => .bind .readSpans fun _ => .modifyCur
  refine .bind (.attempt .readSpans) fun _ => ?_
  split
  · exact .bind .pure hrest
  · exact .when .raise fun _ => .bind .throw hrest
protected theorem Answers.execSrest {h a win shf t os} (hs : Keeps σ s) : Answers σ (execSrest h a win shf t os s) :=
  .mxRun .pure (fun _ _ hneed => .srestBody (hneed _)) hs

/-! Launches: acceptance, placement, restore, completion -/

protected theorem AccKeeps.fetchWord : AccKeeps fetchWord := .bind .get fun _ => .ite .raise .readVirt
protected theorem Keeps.unboost {gid lane} (hs : Keeps σ s) : Keeps σ (s.unboost gid lane) := .ite hs.setGroup hs
protected theorem AccKeeps.readColls {ag r l} : AccKeeps (readColls ag r l) := by
  induction l with
  | nil => exact .pure
  | cons y l ih => exact .ite (.bind .readVirt fun _ => .bind ih fun _ => .pure) ih
protected theorem AccKeeps.readLaunch {ag r} : AccKeeps (readLaunch ag r) :=
  .bind .readVirt fun _ => .bind .readColls fun _ => .ite .pure (.bind .readVirt fun _ => .pure)
protected theorem TriedKeeps.accepts {i p r} (hs : Keeps σ s) : TriedKeeps σ (s.accepts i p r) := by
  unfold State.accepts
  extract_lets
  split
  · exact .ok (AccKeeps.error .readLaunch hs.setPart ‹_›).update
  · exact .error
  · have ht := AccKeeps.ok .readLaunch hs.setPart ‹_›
    exact .ite (.ok ht.update) (.ok ht.update.setMantel)
protected theorem Answers.execLaunchAccept {i dev} (hs : Keeps σ s) : Answers σ (execLaunchAccept i dev s) := by
  dsimp only [execLaunchAccept]
  split
  · split
    · split
      · exact .next (.orWait hs (.accepts hs.setPart))
      · exact .next hs
    · exact .next hs
  · exact .ite (.next hs) (.next (.orWait hs (.accepts hs.setIface)))
protected theorem Keeps.seatGroups {l idx core xs k} (hs : Keeps σ s) : Keeps σ (s.seatGroups l idx core xs k) := by
  induction xs generalizing s k with
  | nil => exact hs
  | cons x xs ih => exact ih hs.setGroup
protected theorem Keeps.place {l idx core x} (hs : Keeps σ s) : Keeps σ (s.place l idx core x) := by
  have hframes : Keeps σ (x.frames.foldl (fun s f => s.zeroRange (frameBase core f.toNat) 4096) (s.seatGroups l idx core x.slots 0)) :=
    .foldl hs.seatGroups fun _ _ ht => ht.zeroRange
  exact hframes.setCore.setLaunch.update
protected theorem OptKeeps.placeAt {l i q} (hs : Keeps σ s) : OptKeeps σ (s.placeAt l i q) := by
  intro t e
  obtain ⟨x, -, rfl⟩ := Option.map_eq_some_iff.1 e
  exact hs.place
protected theorem OptKeeps.placeList {l xs} (hs : Keeps σ s) : OptKeeps σ (State.placeList l xs s) := by
  induction xs generalizing s with
  | nil => exact .some hs
  | cons x xs ih => exact .bind (.placeAt hs) fun _ ht => ih ht
protected theorem Keeps.restoreBlock {l idx core xs r} (hs : Keeps σ s) : Keeps σ (s.restoreBlock l idx core xs r) :=
  .update (.foldl (.foldl hs.setCore fun _ _ ht => ht.setGroup) fun _ _ ht => ht.copyMem)
protected theorem OptKeeps.restoreAll {l xs} (hs : Keeps σ s) : OptKeeps σ (State.restoreAll l xs s) := by
  induction xs generalizing s with
  | nil => exact .some hs
  | cons i xs ih =>
    dsimp only [State.restoreAll]
    split
    · exact ih hs
    · intro t e
      obtain ⟨r, -, hr⟩ := Option.bind_eq_some_iff.1 e
      exact ih hs.restoreBlock hr
protected theorem OptKeeps.restored {r l} (hs : Keeps σ s) : OptKeeps σ (s.restored r l) := .ite .none (.restoreAll hs)
protected theorem Keeps.passOver {l n} (hs : Keeps σ s) : Keeps σ (s.passOver l n) := hs.update
protected theorem Answers.execBlockPlace {p id block pos} (hs : Keeps σ s) : Answers σ (execBlockPlace p id block pos s) := by
  dsimp only [execBlockPlace]
  split
  · exact .next hs
  · split
    · exact .next hs
    · split
      · split
        · exact .next hs
        · split
          · exact .next (.passOver (OptKeeps.of_some (.placeAt hs) ‹_›))
          · exact .next hs
      · split
        · exact .next hs
        · split
          · exact .next (.passOver (OptKeeps.of_some (.placeList hs) ‹_›))
          · exact .next hs
protected theorem Answers.execDispatchHold {p id} (hs : Keeps σ s) : Answers σ (execDispatchHold p id s) := by
  dsimp only [execDispatchHold]
  split
  · exact .next (.ite hs.setLaunch hs)
  · exact .next hs
protected theorem Keeps.afterRestore {r l blocks} (hs : Keeps σ s) : Keeps σ (s.afterRestore r l blocks) :=
  hs.setLaunch.setLaunch.passOver
protected theorem Answers.execContextRestore {p id} (hs : Keeps σ s) : Answers σ (execContextRestore p id s) := by
  dsimp only [execContextRestore]
  split
  · exact .next hs
  · split
    · exact .next hs
    · split
      · exact .next hs.setLaunch
      · split
        · exact .next hs
        · split
          · exact .next hs
          · exact .next (.afterRestore (OptKeeps.of_some (.restored hs) ‹_›))
protected theorem AccKeeps.condHoldsAcc {ag r} : AccKeeps (condHoldsAcc ag r) := .ite .pure (.bind .readVirt fun _ => .pure)
protected theorem AccKeeps.succRecord {ag r} : AccKeeps (succRecord ag r) := .bind .readVirt fun _ => .pure
protected theorem TriedKeeps.succession {l} (hs : Keeps σ s) : TriedKeeps σ ((succession s l).map fun r => r.2.2) := by
  unfold succession
  extract_lets
  split
  · exact .ok (AccKeeps.error .condHoldsAcc hs ‹_›)
  · exact .error
  · exact .ok (AccKeeps.ok .condHoldsAcc hs ‹_›)
  · have ht := AccKeeps.ok .condHoldsAcc hs ‹_›
    split
    · exact .ok ht
    · split
      · exact .ok (AccKeeps.ok .succRecord ht ‹_›)
      · exact .ok (AccKeeps.error .succRecord ht ‹_›)
      · exact .error
protected theorem Keeps.closeLaunch {l} (hs : Keeps σ s) : Keeps σ (s.closeLaunch l) :=
  .update (.foldl hs fun _ _ ht => .ite ht.update ht.closeWindow)
protected theorem Keeps.recordDue {l st succ} (hs : Keeps σ s) : Keeps σ (s.recordDue l st succ) :=
  .ite hs.setLaunch.setIface hs.setLaunch
protected theorem Keeps.abortsLaunch {l} (hs : Keeps σ s) : Keeps σ (s.abortsLaunch l) := hs.closeLaunch.recordDue
protected theorem Answers.execLaunchComplete {p id} (hs : Keeps σ s) : Answers σ (execLaunchComplete p id s) := by
  unfold execLaunchComplete
  split
  · refine .ite ?_ (.next hs)
    dsimp only
    split
    · next hr => exact .next (TriedKeeps.of_ok (.succession hs.closeLaunch) (congrArg (Except.map _) hr)).recordDue
    · exact .next hs.noted
  · exact .next hs
protected theorem Keeps.writeRecord {i} (hs : Keeps σ s) : Keeps σ (s.writeRecord i) := by
  dsimp only [State.writeRecord]
  split
  · exact hs
  · exact .ite hs.setIface (.ite hs (.ite hs.hostWrite.setIface.raiseMsix.raiseMsix hs.hostWrite.setIface.raiseMsix))
protected theorem Answers.execCompletionRecordWrite {i} (hs : Keeps σ s) : Answers σ (execCompletionRecordWrite i s) :=
  .next hs.writeRecord
protected theorem Answers.execSuccessorEnqueue {p id} (hs : Keeps σ s) : Answers σ (execSuccessorEnqueue p id s) := by
  dsimp only [execSuccessorEnqueue]
  split
  · exact .next hs
  · split
    · exact .next hs
    · exact .ite (.next hs) (.next hs.setPart.setLaunch)
protected theorem AccKeeps.launchBody {d r x} : AccKeeps (launchBody d r x) := by
  unfold launchBody
  extract_lets
  refine .when .raiseReg fun _ => .bind .curAgent fun _ => .bind .readVirt fun _ => .get_bind fun _ _ hs => ?_
  dsimp only
  split
  · exact .ite (.of .modifyCur hs) (.set_bind hs.setPart .modifyCur)
  · exact .of .modifyCur hs
protected theorem Answers.execLaunch {d a} (hs : Keeps σ s) : Answers σ (execLaunch d a s) := .scalarMem (fun _ => .launchBody) hs

/-! Interfaces and device registers -/

protected theorem Keeps.subTail {i v} (hs : Keeps σ s) : Keeps σ (s.subTail i v) := .ite hs hs.setIface
protected theorem Answers.execSubTailWrite {i v} (hs : Keeps σ s) : Answers σ (execSubTailWrite i v s) := .next hs.subTail
protected theorem Answers.execCqCtlWrite {i v} (hs : Keeps σ s) : Answers σ (execCqCtlWrite i v s) := .next hs.setIface
protected theorem Answers.execTokCtlWrite {i v} (hs : Keeps σ s) : Answers σ (execTokCtlWrite i v s) := .next hs.setIface
protected theorem Answers.execLaunchPacket {node i r} (hs : Keeps σ s) : Answers σ (execLaunchPacket node i r s) :=
  .ite (.next hs) (.next hs.setIface.subTail)
protected theorem Keeps.dropRecord {i p r} (hs : Keeps σ s) : Keeps σ (s.dropRecord i p r) := hs.setPart.update.abortsLaunch
protected theorem TriedKeeps.abortColls {i} (hs : Keeps σ s) : TriedKeeps σ (s.abortColls i) :=
  .bind (.foldl (.ok hs) fun _ _ ht => .bind ht fun _ hu => .arrive hu.update) fun _ ht =>
  .foldl (.ok ht) fun _ _ hu => .bind hu fun _ hv => .closeColl hv
protected theorem Keeps.abortLaunches {i} (hs : Keeps σ s) : Keeps σ (s.abortLaunches i) :=
  .foldl (.update (.foldl (.foldl hs.update fun _ _ ht => ht.endGroup) fun _ _ ht => ht.endCmd)) fun _ _ ht =>
    ht.setLaunch.abortsLaunch
protected theorem Keeps.writeRecords {i n} (hs : Keeps σ s) : Keeps σ (s.writeRecords i n) := by
  induction n generalizing s with
  | zero => exact hs
  | succ n ih => exact ih hs.writeRecord
protected theorem Keeps.dropRecords {i} (hs : Keeps σ s) : Keeps σ (s.dropRecords i) :=
  .foldl (.setIface (.foldl hs fun _ _ ht => ht.setPart)) fun _ _ ht => ht.dropRecord
protected theorem Answers.execIfaceReset {i} (hs : Keeps σ s) : Answers σ (execIfaceReset i s) := by
  unfold execIfaceReset
  refine .ite (.next hs) ?_
  split
  · exact .next hs.noted
  · have ht := TriedKeeps.of_ok (.abortColls hs.dropRecords) ‹_›
    exact .next (.ite ht.abortLaunches.writeRecords.flushTokens.setIface ht.abortLaunches.writeRecords.flushTokens)
protected theorem Answers.execFtzTailWrite {die v} (hs : Keeps σ s) : Answers σ (execFtzTailWrite die v s) :=
  .ite (.next hs.setDie.poolRearm) (.next hs)
protected theorem Answers.tcbWrite {die off v} (hs : Keeps σ s) : Answers σ (tcbWrite die off v s) := by
  dsimp only [tcbWrite]
  split
  · exact .next hs.setDie
  · exact .next hs.setDie
  · exact .execFtzTailWrite hs
  · exact .next hs.setDie.poolRearm
  · exact .next hs
protected theorem Answers.execQuotaWrite {core p b v} (hs : Keeps σ s) : Answers σ (execQuotaWrite core p b v s) :=
  .ite (.next hs) (.next hs.setCore)
protected theorem Answers.corePageWrite {core off v} (hs : Keeps σ s) : Answers σ (corePageWrite core off v s) :=
  .ite (.next hs.setCore) (.ite (.execQuotaWrite hs) (.next hs))
protected theorem Answers.replyWrite {p v} (hs : Keeps σ s) : Answers σ (replyWrite p v s) :=
  .ite (.next hs) (.ite (.execFqReplyTrap hs) (.execFqReplyReplay hs))
protected theorem Answers.partWrite {p off v} (hs : Keeps σ s) : Answers σ (partWrite p off v s) := by
  dsimp only [partWrite]
  split
  · exact .next hs.setPart
  · exact .execFqCtlWrite hs
  · exact .next hs.setPart
  · exact .next hs.setPart
  · exact .replyWrite hs
  · exact .next hs.setPart
  · exact .next hs.setPart
  · exact .next hs.setPart
  · exact .next hs.setPart
  · exact .ite (.execPreemptRequest hs) (.next hs)
  · exact .next hs.setPart
  · exact .next hs
protected theorem Answers.mantelWrite {p off v} (hs : Keeps σ s) : Answers σ (mantelWrite p off v s) :=
  .ite (.ite (.execMantelQuote (.ite hs.setMantel hs)) (.next (.ite hs.setMantel hs))) (.ite (.next hs.setMantel) (.next hs))
protected theorem Keeps.actWrite {off v} (hs : Keeps σ s) : Keeps σ (s.actWrite off v) := .ite hs.update hs
protected theorem Answers.die0Write {off v} (hs : Keeps σ s) : Answers σ (die0Write off v s) :=
  .ite (.partWrite hs) <| .ite (.next (hs.update (flash_dbgWrite _ _))) <| .ite (.next hs.update) <| .ite (.mantelWrite hs) <|
    .ite (.execPwrCapWrite hs) <| .ite (.next hs.actWrite) (.next hs)
protected theorem Answers.ifaceWrite {i off v} (hs : Keeps σ s) : Answers σ (ifaceWrite i off v s) := by
  have hreset {x} : Keeps σ { s.setIface i x with agenda := .event (.ifaceReset i) :: s.agenda } :=
    hs.setIface.setAgenda fun j hj => by
      rcases List.mem_cons.1 hj with hj | hj
      · cases hj
        exact .inr rfl
      · exact .inl hj
  unfold ifaceWrite
  split
  · exact .execSubTailWrite hs
  · exact .next hs.setIface
  · exact .ite (.next hreset) (.next hs)
  · exact .next hs.setIface
  · exact .execCqCtlWrite hs
  · exact .next hs.setIface
  · exact .next hs.setIface
  · exact .execTokCtlWrite hs
  · exact .next hs.setIface.flushTokens
  · exact .ite (.next hs.setIface) (.next hs)
protected theorem Answers.engineWrite {die off v} (hs : Keeps σ s) : Answers σ (engineWrite die off v s) :=
  .ite
    (.ite (.next hs) (.ite (.execQueueAbandon hs) (.ite (.execQueueResume hs) (.next hs))))
    (.ite (.execPbufDescWrite hs) (.next hs))
protected theorem Answers.execRegisterWrite {addr v} (hs : Keeps σ s) : Answers σ (execRegisterWrite addr v s) := by
  dsimp only [execRegisterWrite]
  split
  · exact .next hs
  · split
    · exact .engineWrite hs
    · exact .ite (.tcbWrite hs) (.ite (.corePageWrite hs) (.ite (.die0Write hs) (.next hs)))
    · exact .ite (.ifaceWrite hs) (.next hs)
    · exact .next hs

/-! The walker's engines, waits, the array, accesses from outside -/

protected theorem Keeps.scrubLeaf {a lvl} (hs : Keeps σ s) : Keeps σ (s.scrubLeaf a lvl) := hs.zeroRange.write64
protected theorem Keeps.scrubRing {die k} (hs : Keeps σ s) : Keeps σ (s.scrubRing die k) := .ite hs.zeroRange.setDie hs
protected theorem Keeps.wakeScrubs (hs : Keeps σ s) : Keeps σ s.wakeScrubs := hs.update
protected theorem Answers.execScrubComplete {j} (hs : Keeps σ s) : Answers σ (execScrubComplete j s) := by
  dsimp only [execScrubComplete]
  split
  · exact .next (.ite hs.update.scrubLeaf.wakeScrubs (.ite hs.update.wakeScrubs hs))
  · exact .next (.ite hs.scrubRing hs)
protected theorem Answers.execInvpgComplete {gid} (hs : Keeps σ s) : Answers σ (execInvpgComplete gid s) := .next hs.completeInvpg
protected theorem Keeps.restArray {gid} (hs : Keeps σ s) : Keeps σ (s.restArray gid) := .ite hs.giveToken hs
protected theorem Answers.execYieldEffect {gid} (hs : Keeps σ s) : Answers σ (execYieldEffect gid s) := by
  dsimp only [execYieldEffect]
  split
  · exact .ite (.next hs.setGroup.restArray) (.next hs)
  · exact .next hs
protected theorem Answers.execGroupReactivate {gid} (hs : Keeps σ s) : Answers σ (execGroupReactivate gid s) := by
  dsimp only [execGroupReactivate]
  split
  · split
    · exact .next (.ite hs.setGroup hs)
    · exact .next hs
  · exact .next hs
protected theorem Answers.execParkEffect {gid} (hs : Keeps σ s) : Answers σ (execParkEffect gid s) := by
  dsimp only [execParkEffect]
  split
  · exact .ite (.next hs.setGroup) (.next hs)
  · exact .next hs
protected theorem Answers.execParkWake {gid} (hs : Keeps σ s) : Answers σ (execParkWake gid s) := by
  dsimp only [execParkWake]
  split
  · exact .ite (.next hs) (.next hs.setGroup)
  · exact .next hs
protected theorem Answers.execParkTimeout {gid} (hs : Keeps σ s) : Answers σ (execParkTimeout gid s) := by
  dsimp only [execParkTimeout]
  split
  · exact .ite (.next hs) (.next hs.setCore.setGroup)
  · exact .next hs
protected theorem Answers.execGroupExit {gid} (hs : Keeps σ s) : Answers σ (execGroupExit gid s) := .next (.ite hs.exitGroup hs)
protected theorem Answers.execQueuedResultWrite {gid conv} (hs : Keeps σ s) : Answers σ (execQueuedResultWrite gid conv s) := by
  dsimp only [execQueuedResultWrite]
  split
  · exact .next hs.setGroup
  · exact .next hs
protected theorem Answers.execTldLand {gid} (hs : Keeps σ s) : Answers σ (execTldLand gid s) := by
  dsimp only [execTldLand]
  split
  · exact .next hs.setGroup
  · exact .next hs
protected theorem Answers.execArrayFreeze {core} (hs : Keeps σ s) : Answers σ (execArrayFreeze core s) := by
  dsimp only [execArrayFreeze]
  split
  · exact .next (.ite hs.freezeArray hs)
  · exact .next hs
protected theorem Answers.execStreamPortEmit {core} (hs : Keeps σ s) : Answers σ (execStreamPortEmit core s) :=
  .next (.ite hs.setCore hs.setCore.settlePort)
protected theorem Answers.execTokenGrant {d} (hs : Keeps σ s) : Answers σ (execTokenGrant d s) := by
  dsimp only [execTokenGrant]
  split
  · exact .next hs
  · split
    · exact .next hs
    · exact .next hs.grantToken
protected theorem Answers.execTokenRequestPromote {core} (hs : Keeps σ s) : Answers σ (execTokenRequestPromote core s) :=
  .next (.ite hs.setDie hs)
protected theorem Answers.execLogitBudgetExpire {p id block} (hs : Keeps σ s) : Answers σ (execLogitBudgetExpire p id block s) := by
  dsimp only [execLogitBudgetExpire]
  split
  · split
    · exact .ite (.next hs) (.next hs.setCore.logitFail)
    · exact .next hs
  · exact .next hs
protected theorem Keeps.outerPiece {priv may p} (hs : Keeps σ s) : Keeps σ (s.outerPiece priv may p) :=
  .ite hs.write (.ite hs hs.queueReg)
protected theorem Keeps.outerWrite {priv may pa l} (hs : Keeps σ s) : Keeps σ (s.outerWrite priv may pa l) :=
  .ite hs.write (.foldl hs fun _ _ ht => ht.outerPiece)
protected theorem Keeps.outerAtom {va op t b c} (hs : Keeps σ s) : Keeps σ (s.outerAtom va op t b c) := by
  dsimp only [State.outerAtom]
  split
  · exact hs
  · split
    · exact AccKeeps.ok .atomApply hs ‹_›
    · exact hs
protected theorem Answers.execFabricAccess {node r} (hs : Keeps σ s) : Answers σ (execFabricAccess node r s) := by
  dsimp only [execFabricAccess]
  split
  · exact .next hs
  · split
    · exact .next hs
    · exact .next (.ite hs.outerWrite hs)
    · exact .next (.ite hs.outerAtom hs)
protected theorem Answers.execHostAccess {link sys a n v} (hs : Keeps σ s) : Answers σ (execHostAccess link sys a n v s) := by
  unfold execHostAccess
  split
  · exact .next hs
  · refine .next ?_
    dsimp only
    split
    · exact .ite hs.outerWrite hs
    · exact .ite (.ite hs (hs.trans ⟨fun ⟨hmem, h0, h1, hflash⟩ => ⟨hmem, h0, h1, wf_pokeBytes _ _ hflash⟩, id⟩)) hs.outerWrite

/-! The opcode table -/

protected theorem Answers.exec {i} (hs : Keeps σ s) : Answers σ (exec i s) := by
  unfold exec
  cases i with
  | add | sub | mul | mulh | div | rem | and | or | xor | shl | shr | sra | min | max => exact .alu3 hs
  | sel | cmp | cmpi | plog | pget | pset | exit | nop | fenceMem | fencePt => exact .scalarNext hs
  | addi | muli | andi | ori | xori | shli | shri | srai | mini | maxi | limSet | limCat | clz | popc | brev => exact .alu2 hs
  | br | jmp | call => exact .next hs.setCur
  | jmpr | callr => exact .ite (.next hs.setCur) (.scalarAcc .raise hs)
  | lrun | lrunr => exact .lrunAt hs
  | yieldQ | yieldCtr => exact .ite (.yieldOn hs) (.scalarAcc .raiseReg hs)
  | cpy | tcpy | gath | mcast | cmd => exact .issueCmd hs
  | seqRd | lkup => exact .ite (.scalarAcc .raiseReg hs) (.scalarNext hs)
  | dbar | pbar => exact .wideRun hs
  | gangPin | gangUnpin | gangHome | gangRes | gangRd | kvcCmt | kvcRsv | kvcPurge | kvcEnd | vgen =>
    exact .gangRun (fun _ _ => .pure) hs
  | gangReq | gangCxl => exact .gangRun (fun _ _ => .modify fun _ _ ht => ht.update) hs
  | lnop | lfence => exact .laneAcc .modifyCur hs
  | vote | shfl | perm | movi | lanePlog | fadd | fsub | fmul | ffma | fmin | fmax | fabs | fneg | fcmp | fsel | hadd | hsub
  | hmul | hfma | hmin | hmax | hcmp | iadd | isub | imul | imulh | imad | iand | ior | ixor | ishl | ishr | isra | imin
  | imax | icmp | isel | lanePopc | laneClz | bfe | bfi | pack | unpack => exact .laneAlu hs
  | cvt | fxcvt | rcp | rsq | sqrt | exp2 | log2 => exact .laneQueued hs
  | sadd | smax | smin | srebias | smov => exact .scaleRun hs
  | laneBlockStart | granuleWake | issueBoost => exact .next (.ite hs.setGroup hs)
  | ext => exact .execExt hs
  | ins => exact .execIns hs
  | mtc => exact .execMtc hs
  | mfc => exact .execMfc hs
  | trap => exact .execTrap hs
  | hretResume => exact .execHretResume hs
  | hretVacate => exact .execHretVacate hs
  | hretEnd => exact .execHretEnd hs
  | ld => exact .execLd hs
  | st => exact .execSt hs
  | atom => exact .execAtom hs
  | invpg => exact .execInvpg hs
  | wset => exact .execWset hs
  | qld => exact .execQld hs
  | qpush => exact .execQpush hs
  | ypop => exact .execYpop hs
  | shld => exact .execShld hs
  | shst => exact .execShst hs
  | chain => exact .execChain hs
  | publSlot => exact .execPublSlot hs
  | publBuf => exact .execPublBuf hs
  | seqAdd => exact .execSeqAdd hs
  | seqSet => exact .execSeqSet hs
  | seqSetForce => exact .execSeqSetForce hs
  | slotInst => exact .execSlotInst hs
  | slotEvict => exact .execSlotEvict hs
  | slotRd => exact .execSlotRd hs
  | bar => exact .execBar hs
  | rbar => exact .execRbar hs
  | watch => exact .execWatch hs
  | park => exact .execPark hs
  | prio => exact .execPrio hs
  | schrd => exact .execSchrd hs
  | launch => exact .execLaunch hs
  | collRun => exact .execCollRun hs
  | collPut => exact .execCollPut hs
  | samp => exact .execSamp hs
  | lend => exact .execLend hs
  | lbr => exact .execLbr hs
  | lbrC => exact .execLbrC hs
  | lbrJ => exact .execLbrJ hs
  | lsync => exact .execLsync hs
  | lsyncC => exact .execLsyncC hs
  | lexit => exact .execLexit hs
  | mov => exact .execMov hs
  | cvts => exact .execCvts hs
  | lld => exact .execLld hs
  | lst => exact .execLst hs
  | laneAtom => exact .execLaneAtom hs
  | tld => exact .execTld hs
  | tst => exact .execTst hs
  | mload => exact .execMload hs
  | mloop => exact .execMloop hs
  | mdrain => exact .execMdrain hs
  | mdrainRaw => exact .execMdrainRaw hs
  | mzero => exact .execMzero hs
  | msave => exact .execMsave hs
  | mrestImg => exact .execMrestImg hs
  | mrestRaw => exact .execMrestRaw hs
  | sbind => exact .execSbind hs
  | ssave => exact .execSsave hs
  | srest => exact .execSrest hs
  | registerWrite => exact .execRegisterWrite hs
  | scrubComplete => exact .execScrubComplete hs
  | invpgComplete => exact .execInvpgComplete hs
  | ftzTailWrite => exact .execFtzTailWrite hs
  | commandBegin => exact .execCommandBegin hs
  | commandComplete => exact .execCommandComplete hs
  | chainFetch => exact .execChainFetch hs
  | engineHalt => exact .execEngineHalt hs
  | queueResume => exact .execQueueResume hs
  | queueAbandon => exact .execQueueAbandon hs
  | pbufDescWrite => exact .execPbufDescWrite hs
  | publishSwap => exact .execPublishSwap hs
  | pbufPublishSwap => exact .execPbufPublishSwap hs
  | groupReactivate => exact .execGroupReactivate hs
  | yieldEffect => exact .execYieldEffect hs
  | parkEffect => exact .execParkEffect hs
  | parkWake => exact .execParkWake hs
  | parkTimeout => exact .execParkTimeout hs
  | groupExit => exact .execGroupExit hs
  | queuedResultWrite => exact .execQueuedResultWrite hs
  | tldLand => exact .execTldLand hs
  | granuleDrowsy => exact .execGranuleDrowsy hs
  | sequencerStep => exact .execSequencerStep hs
  | arrayFreeze => exact .execArrayFreeze hs
  | streamPortEmit => exact .execStreamPortEmit hs
  | tokenGrant => exact .execTokenGrant hs
  | tokenRequestPromote => exact .execTokenRequestPromote hs
  | compactRegroup => exact .execCompactRegroup hs
  | compactReturn => exact .execCompactReturn hs
  | blockPlace => exact .execBlockPlace hs
  | dispatchHold => exact .execDispatchHold hs
  | quotaWrite => exact .execQuotaWrite hs
  | trapEntry => exact .execTrapEntry hs
  | faultRecordDeliver => exact .execFaultRecordDeliver hs
  | fqCtlWrite => exact .execFqCtlWrite hs
  | fqReplyReplay => exact .execFqReplyReplay hs
  | fqReplyTrap => exact .execFqReplyTrap hs
  | preemptRequest => exact .execPreemptRequest hs
  | contextRestore => exact .execContextRestore hs
  | logitBudgetExpire => exact .execLogitBudgetExpire hs
  | selfTestComplete => exact .execSelfTestComplete hs
  | gangCopyPass => exact .execGangCopyPass hs
  | subTailWrite => exact .execSubTailWrite hs
  | cqCtlWrite => exact .execCqCtlWrite hs
  | tokCtlWrite => exact .execTokCtlWrite hs
  | ifaceReset => exact .execIfaceReset hs
  | launchAccept => exact .execLaunchAccept hs
  | launchComplete => exact .execLaunchComplete hs
  | completionRecordWrite => exact .execCompletionRecordWrite hs
  | successorEnqueue => exact .execSuccessorEnqueue hs
  | launchPacket => exact .execLaunchPacket hs
  | fabricAccess => exact .execFabricAccess hs
  | collContribution => exact .execCollContribution hs
  | collComplete => exact .execCollComplete hs
  | collDeadline => exact .execCollDeadline hs
  | tokenAppend => exact .execTokenAppend hs
  | pwrCapWrite => exact .execPwrCapWrite hs
  | powerManagerMove => exact .execPowerManagerMove hs
  | corePowerOff => exact .execCorePowerOff hs
  | corePowerOn => exact .execCorePowerOn hs
  | boot => exact .execBoot hs
  | mantelQuote => exact .execMantelQuote hs
  | quoteComplete => exact .execQuoteComplete hs
  | mantelClear => exact .execMantelClear hs
  | debugRead => exact .execDebugRead hs
  | debugWrite => exact .execDebugWrite hs
  | debugHalt => exact .execDebugHalt hs
  | debugResume => exact .execDebugResume hs
  | tenantDebugToken => exact .execTenantDebugToken hs
  | vendorDebugToken => exact .execVendorDebugToken hs
  | fabricLinkLost => exact .execFabricLinkLost hs
  | hostLinkError => exact .execHostLinkError hs
  | hostAccess => exact .execHostAccess hs
  | collPutCompletion => exact .execCollPutCompletion hs
  | sensorReading => exact .execSensorReading hs
  | uncorrectedError => exact .execUncorrectedError hs

/-! Fetch, issue and step -/

/-- What holds a stream is itself an answer; where nothing does there is nothing to show. -/
protected theorem Answers.hold_getD (hs : Keeps σ s) : Answers σ ((hold s).getD (.next s)) := by
  unfold hold
  extract_lets
  split
  · exact .next hs.stalled
  · split
    · exact .next hs.takePend
    · split
      · split
        · exact .next hs.stalled
        · split
          · exact .next hs
          · split
            · exact .next hs.stalled
            · exact .next hs.setCur
      · split
        · exact .next hs.setCur
        · split
          · exact .next hs.stalled
          · exact .next hs
protected theorem Keeps.holdFetch {i} (hs : Keeps σ s) : Keeps σ (s.holdFetch i) := hs.postDeferred.setCur
protected theorem Answers.runInstr {i} (hs : Keeps σ s) : Answers σ (runInstr i s) := by
  obtain ⟨t, ht, hk⟩ := Answers.exec (i := i) hs
  unfold runInstr
  rw [ht]
  exact .next (.ite hs.noted.stalled hk)
protected theorem Answers.runWord {w} (hs : Keeps σ s) : Answers σ (runWord w s) := by
  dsimp only [runWord]
  split
  · exact .ite (.next hs.stalled) (.next hs.raiseTrap)
  · exact .ite (.next hs.stalled) (.runInstr hs)
protected theorem Answers.fetchAndRun (hs : Keeps σ s) : Answers σ (fetchAndRun s) := by
  dsimp only [fetchAndRun]
  split
  · exact .runWord (AccKeeps.ok .fetchWord hs ‹_›)
  · exact .next
      (.ite hs.stalled (.ite (.holdFetch (AccKeeps.error .fetchWord hs ‹_›)) (.raiseTrap (AccKeeps.error .fetchWord hs ‹_›))))
  · exact .next (.stalled (AccKeeps.error .fetchWord hs ‹_›))
protected theorem Answers.move (hs : Keeps σ s) : Answers σ (move s) := by
  have hheld := Answers.hold_getD hs
  unfold move
  split
  · rwa [‹hold s = _›] at hheld
  · split
    · exact .ite (.next hs.stalled) (.exec hs)
    · exact .fetchAndRun hs
protected theorem Keeps.began {gid} (hs : Keeps σ s) : Keeps σ (s.began gid) := by
  dsimp only [State.began]
  split
  · exact .ite hs.setBlock hs
  · exact hs
protected theorem Answers.issue (hs : Keeps σ s) : Answers σ (issue s) := by
  obtain ⟨t, ht, hk⟩ := Answers.move (σ := σ) (.ite (c := (hold s).isNone) hs.began hs)
  unfold issue
  rw [ht]
  exact .next hk.unboost
protected theorem Answers.step (ha : AgendaOk s) : Answers s (step s) := by
  unfold step
  split
  · next i l hl =>
      have hi : i.isEvent = true := ha i (by simp [hl])
      rw [if_pos hi]
      exact .exec ((Keeps.refl s).setAgenda fun j hj => .inl (by simp [hl, hj]))
  · next l hl =>
      have ht : Keeps s { s with agenda := l } := (Keeps.refl s).setAgenda fun j hj => .inl (by simp [hl, hj])
      exact .issue ht.update
  · split
    · exact .exec (.refl s)
    · exact .issue (.refl s)
protected theorem Keeps.of_goes (ha : AgendaOk s) (h : Goes s t) : Keeps s t := by
  obtain ⟨u, hu, hk⟩ := Answers.step ha
  cases hu.symm.trans h
  exact hk
theorem agendaOk_of_reaches (ha : AgendaOk s) (h : Reaches s t) : AgendaOk t := by
  induction h with
  | refl => exact ha
  | tail _ hgoes ih => exact (Keeps.of_goes ih hgoes).2 ih
theorem goesOn_of_agendaOk (ha : AgendaOk s) : GoesOn s :=
  (Answers.step ha).imp fun _ h => h.1

end

/-- Settles O46: every instruction and event answers a next state (`Answers.exec`), and along a run the agenda keeps naming only events,
so no step finds an instruction row there. -/
theorem machineAlwaysGoesOn : Obligations.MachineAlwaysGoesOn :=
  ⟨fun _ s => (Answers.exec (.refl s)).imp fun _ h => h.1, fun _ ha _ h => goesOn_of_agendaOk (agendaOk_of_reaches ha h)⟩

/-- Settles O47: a step from a state whose agenda names only events keeps both halves of the invariant (`Answers.step`). -/
theorem stepKeepsInv : Obligations.StepKeepsInv := fun s _ hinv h =>
  have ⟨_, ha⟩ := (inv_iff s).1 hinv
  (Keeps.of_goes ha h).inv hinv

end Sys2Proof.Machine
end

section
/-! PROOFS. Scalar loads and stores through windows and the shelf (O27, O28). -/

set_option Elab.async false

namespace Sys2Proof.Machine

/-! Scalar memory instructions -/

theorem scalarMem_next {i : Instr} {x : Srcs} {body : Srcs → Acc Unit} {s t : State} (hr : s.cur.replaying false = none)
    (hb : (body x).run s = .ok () t) : scalarMem i x body s = .next (t.setCur t.cur.pc4) := by
  unfold scalarMem
  rw [hr]
  dsimp only
  rw [run_bind, hb]
  rfl

theorem scalarMem_next_setCur {i : Instr} {x : Srcs} {body : Srcs → Acc Unit} {s t : State} {g : Group} (hr : s.cur.replaying false = none)
    (hb : (body x).run s = .ok () (t.setCur g)) : scalarMem i x body s = .next (t.setCur g.pc4) := by
  rw [scalarMem_next hr hb, State.cur_setCur, State.setCur_setCur]

theorem bitsOf_zero {w : Nat} (x : BitVec w) (n : Nat) : bitsOf x 0 n = x.toNat % 2 ^ n := by
  simp [bitsOf, BitVec.extractLsb'_toNat]

theorem bitsOf_eq {w : Nat} (x : BitVec w) (lo n : Nat) : bitsOf x lo n = x.toNat / 2 ^ lo % 2 ^ n := by
  simp [bitsOf, BitVec.extractLsb'_toNat, Nat.shiftRight_eq_div_pow]

/-- The bytes at an address as those of its first part and those behind it. -/
theorem peek_add (m : Sparse 8) (a n k : Nat) : peek m a (n + k) = peek m a n + 256 ^ n * peek m (a + n) k := by
  induction n generalizing a with
  | zero => simp [peek]
  | succ n ih =>
    rw [show n + 1 + k = n + k + 1 by omega, peek, peek, ih, show a + 1 + n = a + (n + 1) by omega, Nat.pow_succ]
    ring

/-- The group after a load of `v` (R203). -/
def Group.loaded (g : Group) (d : SReg) (z : Size) (v : Nat) : Group :=
  if z == .b128 then (g.setSr d (BitVec.ofNat 64 v)).setSrAt d 1 (BitVec.ofNat 64 (v / 2 ^ 64)) else g.setSr d (BitVec.ofNat 64 v)

theorem run_putLoad (d : SReg) (z : Size) (v : Nat) (s : State) : (putLoad d z v).run s = .ok () (s.setCur (s.cur.loaded d z v)) := rfl

/-- What a scalar load leaves: the register, or the pair, with the bytes at the address, and the pc at the next word. -/
theorem loaded_result {i : Instr} {s : State} {d : SReg} {z : Size} {a : Nat}
    (h : exec i s = .next (s.setCur (s.cur.loaded d z (peek s.mem a (sizeBytes z))).pc4)) :
    (z ≠ .b128 → WritesS i s d (fun v => v.toNat = peek s.mem a (sizeBytes z))) ∧
    (z = .b128 → exec i s = .next (s.setCur { s.cur with
      s := (s.cur.s.set d.toNat (BitVec.ofNat 64 (peek s.mem a 8)) d.isLt).set (d + 1).toNat (BitVec.ofNat 64 (peek s.mem (a + 8) 8)) (d + 1).isLt,
      pc := s.cur.pc + 4 })) := by
  constructor
  · intro hz
    have hn : sizeBytes z ≤ 8 := by cases z <;> simp_all [sizeBytes]
    refine ⟨BitVec.ofNat 64 (peek s.mem a (sizeBytes z)), ?_, ?_⟩
    · rw [h, Group.loaded, if_neg (by simpa using hz)]; rfl
    · have hlt := peek_lt s.mem a (sizeBytes z)
      have hle : 256 ^ sizeBytes z ≤ 256 ^ 8 := Nat.pow_le_pow_right (by omega) hn
      exact Nat.mod_eq_of_lt (by omega)
  · rintro rfl
    have hsplit : peek s.mem a (sizeBytes .b128) = peek s.mem a 8 + 2 ^ 64 * peek s.mem (a + 8) 8 := peek_add s.mem a 8 8
    have hlo : peek s.mem a 8 < 2 ^ 64 := peek_lt s.mem a 8
    have e1 : BitVec.ofNat 64 (peek s.mem a 8 + 2 ^ 64 * peek s.mem (a + 8) 8) = BitVec.ofNat 64 (peek s.mem a 8) := by
      apply BitVec.eq_of_toNat_eq; simp only [BitVec.toNat_ofNat]; omega
    have e2 : (peek s.mem a 8 + 2 ^ 64 * peek s.mem (a + 8) 8) / 2 ^ 64 = peek s.mem (a + 8) 8 := by omega
    rw [h, hsplit, Group.loaded, if_pos (by decide), e1, e2]
    rfl

/-! The shelf -/

theorem frameBase_place (c : BitVec 10) (f : BitVec 8) {o : Nat} (ho : o < 4096) :
    paNode (frameBase c f.toNat + o) = 0 ∧ paRegion (frameBase c f.toNat + o) = 1 := by
  have h1 := (c.extractLsb' 7 3).isLt
  have h2 := (c.extractLsb' 0 7).isLt
  have h3 := f.isLt
  simp only [frameBase, paOf, paNode, paRegion]
  omega

theorem slotHit_region {s : State} {sl o n a : Nat} (hn : 0 < n) (h : SlotHit s sl o n a) : paNode a = 0 ∧ paRegion a = 1 := by
  obtain ⟨b, _, _, ho, _, rfl⟩ := h
  exact frameBase_place _ _ (by omega)

theorem shelfAt_hit {s : State} {x : W64} {n a : Nat} (hx : x.toNat < 2 ^ 20) (h : SlotHit s (x.toNat % 256) (x.toNat / 256) n a) :
    (shelfAt x n).run s = .ok a s := by
  obtain ⟨b, hb, hsl, ho, hvalid, rfl⟩ := h
  have e1 : bitsOf x 20 44 = 0 := by rw [bitsOf_eq]; omega
  have e2 : bitsOf x 0 8 = x.toNat % 256 := bitsOf_zero x 8
  have e3 : bitsOf x 8 12 = x.toNat / 256 := by rw [bitsOf_eq]; omega
  have eg : s.group s.curG = s.cur := rfl
  unfold shelfAt shelfResolve
  rw [if_neg (by simp [e1]), run_bind, run_get]
  dsimp only
  rw [run_bind, run_get, e2, e3]
  dsimp only
  rw [eg, hb]
  dsimp only
  rw [if_neg (by omega), if_neg (by simp [hvalid])]
  rfl

theorem physRead_shelf {s : State} {ag : Agent} {va : W64} {a n : Nat} (h1 : paNode a = 0) (h2 : paRegion a = 1) (hbad : s.bad a n = false) :
    (physRead ag va a n).run s = .ok (peek s.mem a n) s := by
  have hh : inHbm a = false := by simp [inHbm, h2]
  have hw : ag.who.bind (fun w => if inHbm a then tagAbove s w a n else none) = none := by
    cases ag.who <;> simp [hh]
  unfold physRead
  rw [run_bind, run_get]
  dsimp only
  rw [if_neg (by simp [h1]), if_pos (by omega), hw]
  simp only [hbad, Bool.false_eq_true, if_false, run_pure]

/-- Settles O27: the window or the slot gives the address, the read the bytes there (`windowOne_hit`, `readAt_hit`, `shelfAt_hit`), and
`loaded_result` what the register file then holds. -/
theorem scalarLoads : Obligations.ScalarLoads := by
  intro s d o w z r a hrep n x loads
  refine ⟨fun hw hr => loaded_result (i := .ld d o w z r) ?_, fun hx hsl hbad => loaded_result (i := .shld d o z r) ?_⟩
  · have hoff : Srcs.off { sc := [s.cur.sr o] } = x.toNat % 2 ^ 32 := bitsOf_zero _ 32
    refine scalarMem_next_setCur hrep ?_
    unfold ldBody
    rw [run_bind, hoff, windowOne_hit hw]
    dsimp only
    rw [run_bind, run_getCur]
    dsimp only
    rw [run_bind, readAt_hit (sizeBytes_pos z) hr]
    exact run_putLoad ..
  · obtain ⟨h1, h2⟩ := slotHit_region (sizeBytes_pos z) hsl
    refine scalarMem_next_setCur hrep ?_
    rw [run_bind, shelfAt_hit hx hsl]
    dsimp only
    rw [run_bind, run_curAgent]
    dsimp only
    rw [run_bind, physRead_shelf h1 h2 hbad]
    exact run_putLoad ..

/-! Scalar stores -/

/-- What a scalar store leaves of bytes written at an address: they, the pc at the next word, and nothing else (R42, R203). -/
theorem stored_result {i : Instr} {s : State} {a n v : Nat} {w : Option (BitVec 3 × W32 × W32)}
    (h : exec i s = .next (((s.write a (natToBytes n v)).tagWrite w a n).setCur
      ((s.write a (natToBytes n v)).tagWrite w a n).cur.pc4)) :
    ∃ t, exec i s = .next t ∧ StoredAt (s.withPc (s.cur.pc + 4)) t a n ∧ peek t.mem a n = v % 2 ^ (8 * n) := by
  have hst : StoredAt s ((s.write a (natToBytes n v)).tagWrite w a n) a n := by
    have := storedAt_write s w a (natToBytes n v)
    rwa [natToBytes_length] at this
  have hcur : ((s.write a (natToBytes n v)).tagWrite w a n).curG = s.curG := by rw [tagWrite_eq]; rfl
  refine ⟨_, h, storedAt_setCur Group.pc4 (fun _ _ => rfl) hcur hst, ?_⟩
  have hmem : (((s.write a (natToBytes n v)).tagWrite w a n).setCur ((s.write a (natToBytes n v)).tagWrite w a n).cur.pc4).mem =
      pokeBytes s.mem a (natToBytes n v) := by rw [tagWrite_eq]; rfl
  rw [hmem, peek_pokeBytes, Nat.pow_mul]

/-- The stored registers as one number, cut to the access's size. -/
theorem storeRegs_value (x : Srcs) (z : Size) {lo hi : W64} (h0 : x.s 0 = lo) (h1 : z = .b128 → x.s 1 = hi) :
    packNat 64 (fun k => (x.s k).toNat) (storeRegs z) % 2 ^ (8 * sizeBytes z) = (lo.toNat + 2 ^ 64 * hi.toNat) % 2 ^ (8 * sizeBytes z) := by
  have hlo := lo.isLt
  by_cases hz : z = .b128
  · subst hz
    have hhi := hi.isLt
    have e : packNat 64 (fun k => (x.s k).toNat) (storeRegs .b128) = lo.toNat + 2 ^ 64 * hi.toNat := by
      change (0 + (x.s 0).toNat % 2 ^ 64 * 2 ^ (64 * 0)) + (x.s 1).toNat % 2 ^ 64 * 2 ^ (64 * 1) = _
      rw [h0, h1 rfl]
      omega
    rw [e]
  · have e : packNat 64 (fun k => (x.s k).toNat) (storeRegs z) = lo.toNat := by
      rw [storeRegs, if_neg (by simpa using hz)]
      change 0 + (x.s 0).toNat % 2 ^ 64 * 2 ^ (64 * 0) = _
      rw [h0]
      omega
    have hdvd : 2 ^ (8 * sizeBytes z) ∣ 2 ^ 64 * hi.toNat :=
      Dvd.dvd.mul_right (Nat.pow_dvd_pow 2 (by cases z <;> simp_all [sizeBytes])) _
    rw [e, Nat.add_mod, Nat.mod_eq_zero_of_dvd hdvd, Nat.add_zero, Nat.mod_mod]

/-- A scalar store's effect through a window that serves it: the bytes at the address (R203). -/
theorem stBody_run {s : State} {w : BitVec 3} {z : Size} {x : Srcs} {a : Nat}
    (hw : WindowHit s w (bitsOf (x.s (storeRegs z)) 0 32) (sizeBytes z) .write a) (hreg : paRegion a < 2) :
    (stBody w z x).run s = .ok () ((s.write a (natToBytes (sizeBytes z) (packNat 64 (fun k => (x.s k).toNat) (storeRegs z)))).tagWrite
      (groupAgent s.curG s.cur).who a (sizeBytes z)) := by
  obtain ⟨_, _, _, _, _, hnode⟩ := id hw
  have hwrite := fun v : Nat => writeAt_run (s := s) (l := natToBytes (sizeBytes z) v)
    (by rw [natToBytes_length]; exact sizeBytes_pos z) hnode hreg
  simp only [natToBytes_length] at hwrite
  unfold stBody
  dsimp only
  rw [run_bind, windowOne_hit hw]
  exact hwrite _

/-- Settles O28: the window or the slot gives the address (`windowOne_hit`, `shelfAt_hit`), the write changes its bytes and nothing else
(`storedAt_write`), and they read back as the stored registers (`storeRegs_value`). -/
theorem scalarStores : Obligations.ScalarStores := by
  intro s d o w z r a hrep n x stores
  refine ⟨fun hw hreg => ?_, fun hx hsl => ?_⟩
  · let y : Srcs := { sc := (List.range (storeRegs z)).map (s.cur.srAt d) ++ [s.cur.sr o] }
    have hoff : bitsOf (y.s (storeRegs z)) 0 32 = x.toNat % 2 ^ 32 := by
      have e : y.s (storeRegs z) = s.cur.sr o := by cases z <;> rfl
      rw [e, bitsOf_zero]
    have h0 : y.s 0 = s.cur.sr d := by
      have e : y.s 0 = s.cur.srAt d 0 := by cases z <;> rfl
      rw [e, Group.srAt, BitVec.add_zero]
    have h1 : z = .b128 → y.s 1 = s.cur.sr (d + 1) := by rintro rfl; rfl
    have hst := stored_result (i := .st d o w z r) (scalarMem_next (i := .st d o w z r) hrep (stBody_run (x := y) (hoff ▸ hw) hreg))
    rwa [storeRegs_value y z h0 h1] at hst
  · obtain ⟨h1, h2⟩ := slotHit_region (sizeBytes_pos z) hsl
    refine stored_result (i := .shst d o z r) (w := (groupAgent s.curG s.cur).who) (scalarMem_next hrep ?_)
    rw [run_bind, shelfAt_hit hx hsl]
    dsimp only
    rw [run_bind, run_curAgent]
    dsimp only
    rw [physWrite_mem h1 (by omega), natToBytes_length]
    rfl
end Sys2Proof.Machine
end

section
/-! PROOFS. How a scalar memory instruction stops, and windows (O33). -/

set_option Elab.async false

namespace Sys2Proof.Machine

/-! Scalar memory instructions that stop -/

theorem scalarMem_stops {i : Instr} {x : Srcs} {body : Srcs → Acc Unit} {s t : State} {e : Stop} (hr : s.cur.replaying false = none)
    (hb : (body x).run s = .error e t) :
    scalarMem i x body s = finish false false s.cur.pc ((encodeScalar i).setWidth 96) (some x) s (.error e t) := by
  unfold scalarMem
  rw [hr]
  dsimp only
  rw [run_bind, hb]

/-- A cause that is not deferred traps at the instruction (R316). -/
theorem finish_traps {lane replay : Bool} {addr : W64} {word : BitVec 96} {x : Option Srcs} {s t : State} {i : Info}
    (hd : i.cause.deferred = false) :
    finish lane replay addr word x s (.error (.fault i) t) = .next (t.raiseTrap s.curG lane i addr word s.cur.pc) := by
  cases x <;> simp only [finish, hd]

theorem extract_recWords_0 (w0 w1 w2 w3 w4 w5 w6 w7 : W64) (lo n : Nat) (h : lo + n ≤ 64) :
    (recWords w0 w1 w2 w3 w4 w5 w6 w7).extractLsb' lo n = w0.extractLsb' lo n :=
  BitVec.extractLsb'_append_eq_of_add_le h

theorem extract_recWords_3 (w0 w1 w2 w3 w4 w5 w6 w7 : W64) : (recWords w0 w1 w2 w3 w4 w5 w6 w7).extractLsb' 192 64 = w3 :=
  calc
    _ = (w7 ++ w6 ++ w5 ++ w4 ++ w3 ++ w2 ++ w1).extractLsb' 128 64 := BitVec.extractLsb'_append_eq_of_le (by omega)
    _ = (w7 ++ w6 ++ w5 ++ w4 ++ w3 ++ w2).extractLsb' 64 64 := BitVec.extractLsb'_append_eq_of_le (by omega)
    _ = (w7 ++ w6 ++ w5 ++ w4 ++ w3).extractLsb' 0 64 := BitVec.extractLsb'_append_eq_of_le (by omega)
    _ = w3 := BitVec.extractLsb'_append_eq_right

/-- Bits 63:60 and 59:52 of a record's first word (R322). -/
theorem extract_recHead (k : BitVec 4) (c : BitVec 8) (n i : BitVec 6) (m : BitVec 1) (d : BitVec 3) (x : BitVec 7) (sl : BitVec 6)
    (p : BitVec 3) (q : BitVec 20) :
    (k ++ c ++ n ++ i ++ m ++ d ++ x ++ sl ++ p ++ q).extractLsb' 60 4 = k ∧
    (k ++ c ++ n ++ i ++ m ++ d ++ x ++ sl ++ p ++ q).extractLsb' 52 8 = c := by
  simp (disch := omega) only [BitVec.extractLsb'_append_eq_of_le]
  exact ⟨BitVec.extractLsb'_eq_self, BitVec.extractLsb'_append_eq_right⟩

theorem recordOf_groupRecord (gid : Gid) (g : Group) (i : Info) (lane : Bool) (addr : W64) (word : BitVec 96) (count index : BitVec 6)
    (more : Bool) : RecordOf (groupRecord 0 gid g i lane addr word count index more) i.cause addr :=
  have ⟨hkind, hcode⟩ := extract_recHead 0#4 i.cause.code count index (bit more) gid.die (gid.core.extractLsb' 0 7) gid.slot g.part g.pasid
  ⟨(extract_recWords_0 _ _ _ _ _ _ _ _ 60 4 (by omega)).trans hkind, (extract_recWords_0 _ _ _ _ _ _ _ _ 52 8 (by omega)).trans hcode,
    extract_recWords_3 ..⟩

/-- A trap that reaches a group which can take it enters its handler (R316). -/
theorem raiseTrap_enters {s : State} (h : TrapEnters s) (lane : Bool) (i : Info) (addr : W64) (word : BitVec 96) (pc : W64) :
    ∃ r, RecordOf r i.cause addr ∧ s.raiseTrap s.curG lane i addr word pc = s.enterHandler s.curG i.cause r pc s.cur.ln.lpc := by
  obtain ⟨hon, hlogit, hst, herr⟩ := h
  have ecur : s.group s.curG = s.cur := rfl
  have ecause : (i.named addr).cause = i.cause := by unfold Info.named; split <;> rfl
  refine ⟨groupRecord 0 s.curG s.cur (i.named addr) lane addr word 0 0 false, ecause ▸ recordOf_groupRecord .., ?_⟩
  unfold State.raiseTrap State.takeTrap
  rw [herr, ecur]
  simp only [hon, hlogit, hst, ecause, Bool.false_eq_true, Bool.false_and, if_false]

/-! Windows -/

/-- The window that a leaf gives its base (R27, R28). -/
def leafWindow (base : W64) (lvl : Nat) (e : W64) : Window :=
  let off := bitsOf base 0 55 % pageSize lvl
  { base := base, pa := BitVec.ofNat 64 (leafFrame e + off), limit := BitVec.ofNat 34 (min (pageSize lvl - off) (2 ^ 33)),
    pol := e.extractLsb' 9 2, sys := bitOf e 8, d := bitOf e 5, x := bitOf e 3, w := bitOf e 2, lvl := BitVec.ofNat 2 lvl, mig := bitOf e 6 }

/-- The state once a leaf's accessed bit is set (R23). -/
def State.accessed (s : State) (a : Nat) (e : W64) : State := if e ||| 0x10#64 = e then s else s.write64 a (e ||| 0x10#64)

theorem accessed_cur (s : State) (a : Nat) (e : W64) : (s.accessed a e).cur = { s.cur with fired := (s.accessed a e).cur.fired } := by
  unfold State.accessed
  split
  · rfl
  · exact write_group s a _ s.curG

/-- What a window's base comes to by the end of its walk (R28, R36, R335). -/
def walkWindow (s : State) (ag : Agent) (base : W64) : WalkOut → Acc Window
  | .ecc => dataFault base .read
  | .leaf lvl e a =>
    if bitOf e 8 && !ag.priv then pure { base := base }
    else if bitOf e 7 then scrubStall a lvl
    else do set (s.accessed a e); pure (leafWindow base lvl e)
  | _ => pure { base := base }

section

variable {s : State} {ag : Agent} {base : W64}

/-- An address that the die does not translate leaves a window unset (R28). -/
theorem windowOf_untranslated (h : bitOf (s.die ag.die).ptBase 0 = false ∨ canonical base = false) :
    (windowOf ag base).run s = .ok { base := base } s := by
  unfold windowOf
  rw [run_bind, run_get]
  dsimp only
  rw [if_pos (by rcases h with h | h <;> simp [h])]
  rfl

variable (hon : bitOf (s.die ag.die).ptBase 0 = true) (hcan : canonical base = true)

include hon hcan

theorem windowOf_walk : (windowOf ag base).run s = (walkWindow s ag base (walkTables s ag.die ag.pasid base)).run s := by
  unfold windowOf
  rw [run_bind, run_get]
  dsimp only
  rw [if_neg (by simp [hon, hcan])]
  cases walkTables s ag.die ag.pasid base <;> rfl

section

variable {lvl : Nat} {e : W64} {a : Nat} (hw : walkTables s ag.die ag.pasid base = .leaf lvl e a)

include hw

/-- A leaf that the group may not read leaves the window unset (R28). -/
theorem windowOf_sys (hsys : bitOf e 8 = true) (hpriv : ag.priv = false) : (windowOf ag base).run s = .ok { base := base } s := by
  rw [windowOf_walk hon hcan, hw, walkWindow, if_pos (by simp [hsys, hpriv])]
  rfl

variable (hsys : bitOf e 8 = false ∨ ag.priv = true)

include hsys

/-- A leaf under scrub stalls the window's setting (R36, R37). -/
theorem windowOf_scrub (hscrub : bitOf e 7 = true) : (windowOf ag base).run s = .error .scrub (s.noteStall a lvl) := by
  rw [windowOf_walk hon hcan, hw, walkWindow, if_neg (by rcases hsys with h | h <;> simp [h]), if_pos hscrub]
  rfl

/-- A leaf that the group may read, of a page that is not to be scrubbed, sets the window (R27, R28). -/
theorem windowOf_leaf (hscrub : bitOf e 7 = false) : (windowOf ag base).run s = .ok (leafWindow base lvl e) (s.accessed a e) := by
  rw [windowOf_walk hon hcan, hw, walkWindow, if_neg (by rcases hsys with h | h <;> simp [h]), if_neg (by simp [hscrub])]
  rfl

end

end

/-! wset -/

section

variable {s t : State} {w : BitVec 3} {a : SReg} {x : Srcs}

theorem exec_wset (hidle : s.cur.laneIdle = true) :
    exec (.wset w a) s = scalarMem (.wset w a) { sc := [s.cur.sr a] } (wsetBody w) s := by
  change execWset w a s = _
  rw [execWset, if_neg (by simp [hidle])]

theorem wsetBody_run {y : Window} (h : (windowOf (groupAgent s.curG s.cur) (x.s 0)).run s = .ok y t) :
    (wsetBody w x).run s = .ok () (t.setCur { t.cur with win := vset t.cur.win w.toNat y }) := by
  unfold wsetBody
  rw [run_bind, run_curAgent]
  dsimp only
  rw [run_bind, h]
  rfl

theorem wsetBody_stops {e : Stop} (h : (windowOf (groupAgent s.curG s.cur) (x.s 0)).run s = .error e t) :
    (wsetBody w x).run s = .error e t := by
  unfold wsetBody
  rw [run_bind, run_curAgent]
  dsimp only
  rw [run_bind, h]

/-- A `wset` that finds its window sets it, and goes on (R207). -/
theorem exec_wset_sets {y : Window} (hrep : s.cur.replaying false = none) (hidle : s.cur.laneIdle = true)
    (h : (windowOf (groupAgent s.curG s.cur) (s.cur.sr a)).run s = .ok y t) :
    exec (.wset w a) s = .next (t.setCur { t.cur with win := vset t.cur.win w.toNat y, pc := t.cur.pc + 4 }) := by
  rw [exec_wset hidle, scalarMem_next_setCur hrep (wsetBody_run (x := { sc := [s.cur.sr a] }) h)]
  rfl

theorem srcs_scalar (l : OpLog) {k : Nat} (hk : k < 4) : l.srcs.s k = l.scalars.extractLsb' (64 * k) 64 := by
  simp only [OpLog.srcs, Srcs.s, List.getD_eq_getElem?_getD, List.getElem?_map, List.getElem?_range hk, Option.map_some, Option.getD_some]

/-- A replay of a `wset` sets the window from the logged base, and leaves the log empty and the pc (R320). -/
theorem exec_wset_replays {y : Window} {l : OpLog} (hrep : s.cur.replaying false = some l) (hidle : s.cur.laneIdle = true)
    (h : (windowOf (groupAgent s.curG s.cur) (l.scalars.extractLsb' 0 64)).run s = .ok y t) :
    exec (.wset w a) s = .next (t.setCur { t.cur with win := vset t.cur.win w.toNat y, slog := none }) := by
  rw [← Nat.mul_zero 64, ← srcs_scalar l (by omega)] at h
  rw [exec_wset hidle]
  unfold scalarMem
  rw [hrep]
  dsimp only
  unfold replayAcc
  rw [run_bind, wsetBody_run h]
  dsimp only
  rw [run_modifyCur, State.cur_setCur, State.setCur_setCur]
  rfl

end

theorem packFields_div (l : List W64) {k : Nat} (hk : k < l.length) :
    packFields (l.map (fun v => (64, v.toNat))) / 2 ^ (64 * k) % 2 ^ 64 = l[k].toNat := by
  induction l generalizing k with
  | nil => exact absurd hk (Nat.not_lt_zero _)
  | cons v t ih =>
    have hv := v.isLt
    rw [List.map_cons, packFields, Nat.mod_eq_of_lt hv]
    cases k with
    | zero => rw [Nat.mul_zero, Nat.pow_zero, Nat.div_one, Nat.add_mul_mod_self_left, Nat.mod_eq_of_lt hv]; rfl
    | succ k =>
      have hk' : k < t.length := Nat.lt_of_succ_lt_succ hk
      rw [Nat.mul_succ, Nat.add_comm (64 * k), Nat.pow_add, ← Nat.div_div_eq_div_mul, Nat.add_mul_div_left _ _ (by positivity),
        Nat.div_eq_of_lt hv, Nat.zero_add, ih hk']
      rfl

/-- The scalar words of a log entry are the operands, in order (R320). -/
theorem logged_scalar (x : Srcs) (addr : W64) (word : BitVec 96) (lane : Bool) (hlen : x.sc.length ≤ 4) {k : Nat} (hk : k < x.sc.length) :
    (x.toLog addr word lane).scalars.extractLsb' (64 * k) 64 = x.sc[k] := by
  apply BitVec.eq_of_toNat_eq
  have e : 256 = 64 * k + (256 - 64 * k) := by omega
  have hmod (N : Nat) : N % 2 ^ 256 / 2 ^ (64 * k) % 2 ^ 64 = N / 2 ^ (64 * k) % 2 ^ 64 := by
    rw [e, Nat.pow_add, Nat.mod_mul_right_div_self, Nat.mod_mod_of_dvd _ (Nat.pow_dvd_pow 2 (by omega))]
  rw [BitVec.extractLsb'_toNat, Nat.shiftRight_eq_div_pow, Srcs.toLog, BitVec.toNat_ofNat, hmod, packFields_div _ hk]

theorem win_vset (g : Group) (w v : BitVec 3) (y : Window) :
    (vset g.win w.toNat y).getD v.toNat {} = if v = w then y else g.win.getD v.toNat {} := by
  rw [getD_vset _ _ _ _ _ w.isLt]
  simp only [BitVec.toNat_inj]

theorem noteStall_eq (s : State) (a lvl : Nat) : s.noteStall a lvl = { s with stalls := (s.noteStall a lvl).stalls } := by
  unfold State.noteStall; split <;> rfl

theorem mem_noteStall (s : State) (a lvl : Nat) : (a, lvl) ∈ (s.noteStall a lvl).stalls := by
  unfold State.noteStall
  split
  · rename_i hc; simpa using hc
  · exact List.mem_cons_self

/-- A `wset` whose base's leaf is under scrub enters the operand log and its stream goes on (R37, R320; log 76). -/
theorem exec_wset_scrubs {s : State} {w : BitVec 3} {a : SReg} {lvl : Nat} {ad : Nat} (hrep : s.cur.replaying false = none)
    (hidle : s.cur.laneIdle = true) (h : (windowOf (groupAgent s.curG s.cur) (s.cur.sr a)).run s = .error .scrub (s.noteStall ad lvl)) :
    ∃ t l, exec (.wset w a) s = .next t ∧ t.cur = { s.cur with pc := s.cur.pc + 4, slog := some l } ∧ l.addr = s.cur.pc ∧
      l.valid = false ∧ l.scrub = true ∧ l.lane = false ∧ l.scalars.extractLsb' 0 64 = s.cur.sr a ∧ (ad, lvl) ∈ t.stalls ∧
      t = { s with groups := t.groups, stalls := t.stalls } := by
  have hnote := noteStall_eq s ad lvl
  let x : Srcs := { sc := [s.cur.sr a] }
  let l : OpLog := { x.toLog s.cur.pc ((encodeScalar (.wset w a)).setWidth 96) false with valid := false, scrub := true }
  have hbase : l.scalars.extractLsb' 0 64 = s.cur.sr a :=
    logged_scalar x s.cur.pc ((encodeScalar (.wset w a)).setWidth 96) false (by change 1 ≤ 4; omega) (k := 0) (by change 0 < 1; omega)
  refine ⟨(s.noteStall ad lvl).logIt false false l, l, ?_, ?_, rfl, rfl, rfl, rfl, hbase, mem_noteStall s ad lvl, ?_⟩
  · rw [exec_wset hidle, scalarMem_stops hrep (wsetBody_stops (x := x) h)]
    rfl
  · rw [hnote]
    exact State.cur_setCur ..
  · rw [hnote]
    rfl

/-- The window that a leaf sets, and what else the instruction leaves of the group, wherever the pc and the log go. -/
theorem leafWindow_set {s : State} {w : BitVec 3} {base : W64} {lvl : Nat} {e : W64} {a : Nat} (f : Group → Group)
    (hf : ∀ g, (f g).win = g.win ∧ (f g).s = g.s) :
    let g := (s.accessed a e).cur
    let t := (s.accessed a e).setCur (f { g with win := vset g.win w.toNat (leafWindow base lvl e) })
    t.cur.win.getD w.toNat {} = leafWindow base lvl e ∧ (∀ v : BitVec 3, v ≠ w → t.cur.win.getD v.toNat {} = s.cur.win.getD v.toNat {}) ∧
      t.cur.s = s.cur.s := by
  intro g t
  have hg : g.win = s.cur.win ∧ g.s = s.cur.s := by
    have hcur : g = { s.cur with fired := g.fired } := accessed_cur s a e
    rw [hcur]
    exact ⟨rfl, rfl⟩
  have ht : t.cur.win = vset g.win w.toNat (leafWindow base lvl e) ∧ t.cur.s = g.s := by
    rw [State.cur_setCur]; exact hf _
  refine ⟨?_, fun v hv => ?_, ht.2.trans hg.2⟩
  · rw [ht.1, win_vset, if_pos rfl]
  · rw [ht.1, win_vset, if_neg hv, hg.1]

/-- Settles O33: `windowOf` sees what the walk finds (`windowOf_walk`); `exec_wset_sets` and `exec_wset_replays` put its window in place,
and where it stops `exec_wset_scrubs` logs the instruction or the trap is taken. -/
theorem windowSet : Obligations.WindowSet := by
  constructor
  · intro s w a hrep base unset
    have hset {y : Window} {t : State} := exec_wset_sets (y := y) (t := t) (w := w) (a := a) hrep
    refine ⟨fun hidle => ?_, fun hidle hun => ?_, fun hidle hon hcan => ?_⟩
    · change execWset w a s = _
      rw [execWset, if_pos (by simp [hidle, hrep])]
    · exact hset hidle (windowOf_untranslated (ag := groupAgent s.curG s.cur) hun)
    have hwalk : (windowOf (groupAgent s.curG s.cur) base).run s =
        (walkWindow s (groupAgent s.curG s.cur) base (walkTables s s.curG.die s.cur.pasid base)).run s := windowOf_walk hon hcan
    refine ⟨fun c e hw => hset hidle ?_, fun e ad hw => hset hidle ?_, fun hw htrap => ?_, fun lvl e ad hw => ?_⟩
    · rw [hwalk, hw]; rfl
    · rw [hwalk, hw]; rfl
    · rw [hw] at hwalk
      obtain ⟨r, hr, hraise⟩ := raiseTrap_enters htrap false { cause := .dataError, va := base, acc := AKind.read.code } s.cur.pc
        ((encodeScalar (.wset w a)).setWidth 96) s.cur.pc
      refine ⟨r, hr, ?_⟩
      rw [exec_wset hidle, scalarMem_stops hrep (wsetBody_stops (x := { sc := [s.cur.sr a] }) hwalk), finish_traps rfl, hraise]
    · refine ⟨fun hsys hpriv => hset hidle (windowOf_sys (ag := groupAgent s.curG s.cur) hon hcan hw hsys hpriv),
        fun hperm hscrub => exec_wset_scrubs hrep hidle (windowOf_scrub (ag := groupAgent s.curG s.cur) hon hcan hw hperm hscrub),
        fun hperm hscrub => ?_⟩
      intro off
      refine ⟨_, hset hidle (windowOf_leaf (ag := groupAgent s.curG s.cur) hon hcan hw hperm hscrub), ?_, ?_⟩
      · rw [State.cur_setCur, accessed_cur]
      · exact leafWindow_set (fun g => { g with pc := g.pc + 4 }) fun _ => ⟨rfl, rfl⟩
  · intro s w a l lvl e ad hrep hidle base off hon hcan hw hperm hscrub
    refine ⟨_, exec_wset_replays hrep hidle (windowOf_leaf (ag := groupAgent s.curG s.cur) hon hcan hw hperm hscrub), ?_, ?_, ?_⟩
    · rw [State.cur_setCur, accessed_cur]
    · rw [State.cur_setCur]
    · exact leafWindow_set (fun g => { g with slog := none }) fun _ => ⟨rfl, rfl⟩

end Sys2Proof.Machine
end

section
/-! PROOFS. Invalidation (O32). -/

set_option Elab.async false

namespace Sys2Proof.Machine

/-- A record of a table whose records are changed one by one: its own change, or the default where it is not listed. -/
theorem Tab.get_map_cases {α : Type} (d : α) (t : Tab α) (f : Nat × α → Nat × α) (hk : ∀ p, (f p).1 = p.1) (k : Nat) :
    Tab.get d (t.map f) k = (f (k, Tab.get d t k)).2 ∨ (Tab.get d t k = d ∧ Tab.get d (t.map f) k = d) := by
  induction t with
  | nil => exact .inr ⟨rfl, rfl⟩
  | cons p t ih =>
    obtain ⟨j, v⟩ := p
    have e : f (j, v) = (j, (f (j, v)).2) := Prod.ext (hk (j, v)) rfl
    rw [List.map_cons, e]
    simp only [Tab.get]
    by_cases h : k = j
    · subst h; exact .inl (by simp)
    · by_cases h2 : k < j
      · exact .inr (by simp [h, h2])
      · simpa [h, h2] using ih

/-! What invalidation does to a window, a program, a group -/

theorem staleWins_stale {w : Vector Window 8} {va len : Nat} (i : Fin 8) (h : w[i].inRange va len = true) :
    (staleWins w va len)[i].stale = true := by
  have hi : (staleWins w va len)[i] = if w[i].inRange va len then { w[i] with stale := true } else w[i] :=
    Vector.getElem_map ..
  rw [hi, if_pos h]

theorem inRange_of_pageIn {w : Window} {va len : Nat}
    (h : pageIn (w.base.toNat % 2 ^ 55 / pageSize w.lvl.toNat) (pageSize w.lvl.toNat) va len = true) : w.inRange va len = true := by
  rw [Window.inRange, bitsOf_zero]; exact h

theorem kept_invalidate_stale {k : Kept} {n : BitVec 20} {va len : Nat} (hp : k.pasid = n) (i : Fin 8)
    (h : k.win[i].inRange va len = true) : (k.invalidate n va len).win[i].stale = true := by
  rw [Kept.invalidate, if_pos (by simp [hp])]
  exact staleWins_stale i h

theorem kept_invalidate_other {k : Kept} {n : BitVec 20} {va len : Nat} (hp : k.pasid ≠ n) : k.invalidate n va len = k := by
  rw [Kept.invalidate, if_neg (by simp [hp])]

/-- Invalidation changes a group's windows and those of the program behind its handler, nothing else (R30). -/
theorem group_invalidate_eq (g : Group) (n : BitVec 20) (va len : Nat) :
    g.invalidate n va len = { g with
      win := if g.pasid = n then staleWins g.win va len else g.win,
      h := if g.h.on then { g.h with kept := g.h.kept.invalidate n va len } else g.h } := by
  unfold Group.invalidate
  by_cases h1 : g.h.on = true <;> by_cases h2 : g.pasid = n <;> simp [h1, h2]

/-! What invalidation does to the machine -/

section

variable (s : State) (inScope : BitVec 3 → Bool) (n : BitVec 20) (va : Nat) {len : Nat} (hlen : len ≠ 0)

include hlen

/-- A group in scope is invalidated, one out of scope, or a place without a group, is as before (R54). -/
theorem invalidate_group (x : Gid) :
    (inScope x.die = true ∧ (s.invalidate inScope n va len).group x = (s.group x).invalidate n va len) ∨
    ((inScope x.die = false ∨ s.group x = {}) ∧ (s.invalidate inScope n va len).group x = s.group x) := by
  have hdie : BitVec.ofNat 3 (x.toNat / 8192) = x.die := by
    apply BitVec.eq_of_toNat_eq
    simp [Gid.die, BitVec.extractLsb'_toNat, Nat.shiftRight_eq_div_pow]
  have hu : (s.invalidate inScope n va len).group x = Tab.get {} (s.groups.map (fun p =>
      if inScope (BitVec.ofNat 3 (p.1 / 8192)) then (p.1, p.2.invalidate n va len) else p)) x.toNat := by
    rw [State.invalidate, if_neg hlen]; rfl
  have hmap := Tab.get_map_cases {} s.groups
    (fun p => if inScope (BitVec.ofNat 3 (p.1 / 8192)) then (p.1, p.2.invalidate n va len) else p) (fun p => by split <;> rfl) x.toNat
  rw [← hu] at hmap
  rcases hmap with hmap | ⟨hdef, hmap⟩
  · dsimp only at hmap
    rw [hdie] at hmap
    cases hsc : inScope x.die
    · exact .inr ⟨.inl rfl, by rw [hmap, hsc]; rfl⟩
    · exact .inl ⟨rfl, by rw [hmap, hsc]; rfl⟩
  · exact .inr ⟨.inr hdef, hmap.trans hdef.symm⟩

/-- A group that lives, or runs a handler, is listed, and so invalidated where it is in scope (R54). -/
theorem invalidate_group_listed (x : Gid) (h : s.group x ≠ {}) (hsc : inScope x.die = true) :
    (s.invalidate inScope n va len).group x = (s.group x).invalidate n va len := by
  rcases invalidate_group s inScope n va hlen x with ⟨_, hx⟩ | ⟨h1 | h1, _⟩
  · exact hx
  · exact absurd (hsc.symm.trans h1) (by decide)
  · exact absurd h1 h

theorem invalidate_group_other (x : Gid) (h : inScope x.die = false ∨
    ((s.group x).pasid ≠ n ∧ ((s.group x).h.on = true → (s.group x).h.kept.pasid ≠ n))) :
    (s.invalidate inScope n va len).group x = s.group x := by
  rcases invalidate_group s inScope n va hlen x with ⟨hsc, hx⟩ | ⟨_, hx⟩
  · obtain ⟨hp, hk⟩ := h.resolve_left (by simp [hsc])
    rw [hx, group_invalidate_eq, if_neg hp]
    split
    · rename_i hon
      rw [kept_invalidate_other (hk hon)]
    · rfl
  · exact hx

/-- A TLB in scope keeps the entries that the invalidation does not cover (R54). -/
theorem invalidate_tlb (c : BitVec 10) :
    ((s.invalidate inScope n va len).core c).tlb = if inScope (c.extractLsb' 7 3) then
      (s.core c).tlb.filter (fun t => !(t.pasid == n && pageIn t.page (pageSize t.lvl.toNat) va len)) else (s.core c).tlb := by
  have hdie : BitVec.ofNat 3 (c.toNat / 128) = c.extractLsb' 7 3 := by
    apply BitVec.eq_of_toNat_eq
    simp [BitVec.extractLsb'_toNat, Nat.shiftRight_eq_div_pow]
  have hu : (s.invalidate inScope n va len).core c = Tab.get {} (s.cores.map (fun p => if inScope (BitVec.ofNat 3 (p.1 / 128)) then
      (p.1, { p.2 with tlb := p.2.tlb.filter (fun t => !(t.pasid == n && pageIn t.page (pageSize t.lvl.toNat) va len)) }) else p))
      c.toNat := by
    rw [State.invalidate, if_neg hlen]; rfl
  have hmap := Tab.get_map_cases {} s.cores (fun p => if inScope (BitVec.ofNat 3 (p.1 / 128)) then
      (p.1, { p.2 with tlb := p.2.tlb.filter (fun t => !(t.pasid == n && pageIn t.page (pageSize t.lvl.toNat) va len)) }) else p)
    (fun p => by split <;> rfl) c.toNat
  rw [← hu] at hmap
  rcases hmap with hmap | ⟨hdef, hmap⟩
  · dsimp only at hmap
    rw [hmap, hdie]
    split <;> rfl
  · have hdef' : s.core c = {} := hdef
    rw [hmap, hdef']
    split <;> rfl

theorem mem_invalidate_tlb (c : BitVec 10) (e : TlbEntry) :
    e ∈ ((s.invalidate inScope n va len).core c).tlb ↔ e ∈ (s.core c).tlb ∧
      ¬ (inScope (c.extractLsb' 7 3) = true ∧ e.pasid = n ∧ pageIn e.page (pageSize e.lvl.toNat) va len = true) := by
  rw [invalidate_tlb s inScope n va hlen c]
  split
  · rename_i hsc
    simp only [List.mem_filter, hsc, Bool.not_eq_true', Bool.and_eq_false_iff, beq_eq_false_iff_ne, true_and, not_and_or,
      Bool.not_eq_true, ne_eq]
  · rename_i hsc
    simp only [hsc, Bool.false_eq_true, false_and, not_false_eq_true, and_true]

end

theorem scopeDies_iff (die d : BitVec 3) (sc : Scope) : scopeDies die sc d = true ↔ sc = .pkg ∨ sc = .sys ∨ d = die := by
  cases sc <;> simp [scopeDies]

/-- A saved group of a launch is invalidated with the others (R30, R54). -/
theorem invalidate_saved (s : State) (inScope : BitVec 3 → Bool) (n : BitVec 20) (va : Nat) {len : Nat} (hlen : len ≠ 0) {l : Launch}
    (hl : l ∈ s.launches) {x : Saved} (hx : x ∈ l.saved) (hsc : inScope (x.core.extractLsb' 7 3) = true) :
    ∃ l1 ∈ (s.invalidate inScope n va len).launches, ∃ x1 ∈ l1.saved, l1.part = l.part ∧ l1.id = l.id ∧ x1.gid = x.gid ∧
      x1.block = x.block ∧ x1.kept = x.kept.invalidate n va len := by
  have hne : l.saved ≠ [] := List.ne_nil_of_mem hx
  have hu : (s.invalidate inScope n va len).launches = s.launches.map (fun l => if l.saved = [] then l else { l with saved := l.saved.map (fun x =>
      if inScope (x.core.extractLsb' 7 3) then { x with kept := x.kept.invalidate n va len } else x) }) := by
    rw [State.invalidate, if_neg hlen]
  refine ⟨_, hu ▸ List.mem_map_of_mem hl, { x with kept := x.kept.invalidate n va len }, ?_, ?_, ?_, rfl, rfl, rfl⟩
  · rw [if_neg hne]
    exact List.mem_map.2 ⟨x, hx, if_pos hsc⟩
  · rw [if_neg hne]
  · rw [if_neg hne]

theorem invalidate_eq (s : State) (inScope : BitVec 3 → Bool) (n : BitVec 20) (va len : Nat) :
    s.invalidate inScope n va len = { s with
      cores := (s.invalidate inScope n va len).cores, groups := (s.invalidate inScope n va len).groups,
      launches := (s.invalidate inScope n va len).launches } := by
  unfold State.invalidate; split <;> rfl

/-! invpg -/

/-- A cause that a scalar instruction raises with nothing done traps at it (R316). -/
theorem scalarAcc_traps {i : Instr} {body : Acc Unit} {s : State} {x : Info} (hb : body.run s = .error (.fault x) s)
    (hd : x.cause.deferred = false) (he : exec i s = scalarAcc i body s) (ht : TrapEnters s) : TrapsS i s x.cause := by
  obtain ⟨r, hr, hraise⟩ := raiseTrap_enters ht false x s.cur.pc ((encodeScalar i).setWidth 96) s.cur.pc
  refine ⟨r, hr, ?_⟩
  rw [he, scalarAcc, hb, finish_traps hd, hraise]

section

variable {s : State} {d a b : SReg} {sc : Scope}

theorem exec_invpg_range (ht : TrapEnters s) (h : invpgRangeOk (s.cur.sr d) (s.cur.sr a) (s.cur.sr b) = false) :
    TrapsS (.invpg d a b sc) s .operandRange := by
  have he : exec (.invpg d a b sc) s = scalarAcc (.invpg d a b sc) (if bitsOf (s.cur.sr d) 20 44 ≠ 0 then raiseReg .sd d
      else if canonical (s.cur.sr a) = false then raiseReg .sa a else raiseReg .sb b) s := by
    change execInvpg d a b sc s = _
    rw [execInvpg, h]
    rfl
  split at he
  · exact scalarAcc_traps rfl rfl he ht
  · split at he
    · exact scalarAcc_traps rfl rfl he ht
    · exact scalarAcc_traps rfl rfl he ht

theorem exec_invpg_priv (ht : TrapEnters s) (h : invpgRangeOk (s.cur.sr d) (s.cur.sr a) (s.cur.sr b) = true) (hp : s.cur.priv = false) :
    TrapsS (.invpg d a b sc) s .privInstr := by
  have he : exec (.invpg d a b sc) s = scalarAcc (.invpg d a b sc) (raise .privInstr) s := by
    change execInvpg d a b sc s = _
    rw [execInvpg, h, hp]
    rfl
  exact scalarAcc_traps rfl rfl he ht

theorem exec_invpg_waits (h : invpgRangeOk (s.cur.sr d) (s.cur.sr a) (s.cur.sr b) = true) (hp : s.cur.priv = true) :
    exec (.invpg d a b sc) s =
      .next (s.setCur { s.cur with wait := .invpg ((s.cur.sr d).extractLsb' 0 20) (s.cur.sr a) (s.cur.sr b) sc }).stalled := by
  change execInvpg d a b sc s = _
  rw [execInvpg, if_neg (by simp [h]), if_neg (by simp [hp])]

end

/-- Settles O32: the instruction's checks are read off `execInvpg`; a completion is the group's wait ended and `State.invalidate` of its range,
of which `invalidate_group`, `mem_invalidate_tlb` and `invalidate_saved` say what it does. -/
theorem invalidation : Obligations.Invalidation := by
  refine ⟨fun s d a b sc => ⟨exec_invpg_waits, exec_invpg_range, exec_invpg_priv⟩, ?_⟩
  intro s g n va len sc hwait hlen inScope overlaps
  have hlen' : len.toNat ≠ 0 := fun h => hlen (BitVec.eq_of_toNat_eq h)
  let u := s.setGroup g { s.group g with wait := .none, pc := (s.group g).pc + 4 }
  let t := u.invalidate (scopeDies g.die sc) n va.toNat len.toNat
  have hexec : exec (.invpgComplete g) s = .next t := by
    change execInvpgComplete g s = _
    rw [execInvpgComplete, State.completeInvpg, hwait]
  have hscope (d : BitVec 3) : scopeDies g.die sc d = true ↔ inScope d := scopeDies_iff _ _ _
  have hgroup (x : Gid) := invalidate_group u (scopeDies g.die sc) n va.toNat hlen' x
  have hu (x : Gid) : (u.group x).live = (s.group x).live ∧ (u.group x).pasid = (s.group x).pasid ∧ (u.group x).win = (s.group x).win ∧
      (u.group x).h = (s.group x).h := by
    rw [State.group_setGroup]
    split
    · rename_i hx; subst hx; exact ⟨rfl, rfl, rfl, rfl⟩
    · exact ⟨rfl, rfl, rfl, rfl⟩
  refine ⟨t, hexec, ?_, ?_, fun c e => ?_, fun x i hlive hsc hp ho => ?_, fun x i hon hsc hp ho => ?_, fun l hl x hx i hsc hp ho => ?_,
    fun x hx hne => ?_, invalidate_eq ..⟩
  · rcases hgroup g with ⟨_, h⟩ | ⟨_, h⟩
    · rw [h, group_invalidate_eq, State.group_setGroup_same]
    · rw [h, State.group_setGroup_same]
  · rcases hgroup g with ⟨_, h⟩ | ⟨_, h⟩
    · rw [h, group_invalidate_eq, State.group_setGroup_same]
    · rw [h, State.group_setGroup_same]
  · rw [← hscope]
    exact mem_invalidate_tlb u _ n _ hlen' c e
  · obtain ⟨e1, e2, e3, _⟩ := hu x
    have hne : u.group x ≠ {} := fun h => by rw [← e1, h] at hlive; exact absurd hlive (by decide)
    have hx := invalidate_group_listed u _ n va.toNat hlen' x hne ((hscope _).2 hsc)
    have hw : (t.group x).win = staleWins (s.group x).win va.toNat len.toNat := by
      rw [hx, group_invalidate_eq, if_pos (e2.trans hp), e3]
    rw [hw]
    exact staleWins_stale i (inRange_of_pageIn ho)
  · obtain ⟨_, _, _, e4⟩ := hu x
    have hne : u.group x ≠ {} := fun h => by rw [← e4, h] at hon; exact absurd hon (by decide)
    have hx := invalidate_group_listed u _ n va.toNat hlen' x hne ((hscope _).2 hsc)
    have hk : (t.group x).h.kept = (s.group x).h.kept.invalidate n va.toNat len.toNat := by
      rw [hx, group_invalidate_eq, e4, if_pos hon]
    rw [hk]
    exact kept_invalidate_stale hp i (inRange_of_pageIn ho)
  · obtain ⟨l1, hl1, x1, hx1, h1, h2, h3, h4, h5⟩ := invalidate_saved u _ n va.toNat hlen' hl hx ((hscope _).2 hsc)
    exact ⟨l1, hl1, x1, hx1, h1, h2, h3, h4, h5 ▸ kept_invalidate_stale hp i (inRange_of_pageIn ho)⟩
  · obtain ⟨_, e2, _, e4⟩ := hu x
    have hx' : scopeDies g.die sc x.die = false ∨ ((u.group x).pasid ≠ n ∧ ((u.group x).h.on = true → (u.group x).h.kept.pasid ≠ n)) := by
      rw [e2, e4]
      exact hx.imp_left fun h => Bool.eq_false_iff.2 fun h' => h ((hscope _).1 h')
    rw [invalidate_group_other u _ n va.toNat hlen' x hx', State.group_setGroup_other _ _ hne]

end Sys2Proof.Machine
end

section
/-! PROOFS. Translation: the walk and the checks of a leaf (O30). -/

set_option Elab.async false

namespace Sys2Proof.Machine

/-! Fields of words -/

theorem bitsOf_eq_zero {w : Nat} (x : BitVec w) (lo n : Nat) : bitsOf x lo n = 0 ↔ x.extractLsb' lo n = 0 := by
  rw [bitsOf, ← BitVec.toNat_inj]; rfl

theorem bitsOf_ne_zero {w : Nat} (x : BitVec w) (lo n : Nat) : (bitsOf x lo n != 0) = true ↔ x.extractLsb' lo n ≠ 0 := by
  rw [bne_iff_ne, ne_eq, bitsOf_eq_zero]

/-! Translation faults -/

/-- The record fields of a translation fault of an address (R31, R322). -/
def xlatInfo (s : State) (ag : Agent) (va : W64) (k : AKind) (c : BitVec 4) (e : W64) : Info :=
  { cause := .xlat c, va := va, entry := e, acc := k.code,
    hint := match hintOf s ag.die ag.pasid va with | some x => BitVec.ofNat 8 x.1 | none => 0xFF }

theorem run_xlatFault {α : Type} {s : State} {ag : Agent} {va : W64} (hb : hintBad s ag.die ag.pasid va = false) (k : AKind) (c : BitVec 4)
    (e : W64) : (xlatFault ag va k c e : Acc α).run s = .error (.fault (xlatInfo s ag va k c e)) s := by
  unfold xlatFault
  rw [run_bind, run_get]
  dsimp only
  rw [if_neg (by simp [hb])]
  rfl

/-- An address that the die does not translate faults, with cause 10 where the die translates nothing, with cause 1 where it is not
canonical (R16, R18). -/
theorem translate_untranslated {s : State} {ag : Agent} {va : W64} (hb : hintBad s ag.die ag.pasid va = false) (k : AKind) :
    (bitOf (s.die ag.die).ptBase 0 = false →
      (translate ag va k).run s = .error (.fault (xlatInfo s ag va k 10 0)) s) ∧
    (bitOf (s.die ag.die).ptBase 0 = true → canonical va = false →
      (translate ag va k).run s = .error (.fault (xlatInfo s ag va k 1 0)) s) := by
  constructor
  · intro hoff
    unfold translate translateLeaf
    rw [run_bind, run_bind, run_get]
    dsimp only
    rw [if_pos (by simp [hoff]), run_xlatFault hb]
  · intro hon hcan
    unfold translate translateLeaf
    rw [run_bind, run_bind, run_get]
    dsimp only
    rw [if_neg (by simp [hon]), if_pos (by simp [hcan]), run_xlatFault hb]

/-! The walk -/

/-- An entry of a table is a table of the next level: present, no leaf, reserved fields clear (R20). -/
def plainEntry (e : W64) : Prop := e.extractLsb' 2 14 = 0 ∧ e.extractLsb' 46 3 = 0 ∧ e.extractLsb' 52 12 = 0

theorem notPlain_iff (lvl : Nat) (e : W64) :
    (bitsOf e 52 12 != 0 || bitsOf e 46 3 != 0 || bitsOf e 2 14 != 0 || lvl == 2) = true ↔ lvl = 2 ∨ ¬ plainEntry e := by
  simp only [Bool.or_eq_true, bitsOf_ne_zero, beq_iff_eq, plainEntry, not_and_or, ne_eq, or_assoc, or_comm]

/-- The address of a level's entry of a virtual address (R19). -/
def entryAt (va : W64) (lvl tab : Nat) : Nat := tab + va.toNat % 2 ^ (55 - 13 * lvl) / 2 ^ (42 - 13 * lvl) * 8

theorem entryAt_eq (va : W64) {lvl : Nat} (tab : Nat) (h : lvl ≤ 2) : tab + bitsOf va (42 - 13 * lvl) 13 * 8 = entryAt va lvl tab := by
  rw [bitsOf_eq, entryAt, show 55 - 13 * lvl = 42 - 13 * lvl + 13 by omega, Nat.pow_add, Nat.mod_mul_right_div_self]

section

variable {s : State} {va : W64} {n lvl tab : Nat} (hlvl : lvl ≤ 2) (hbad : s.bad (entryAt va lvl tab) 8 = false)

include hlvl hbad

/-- A walk passes an entry that is a table (R20, R23). -/
theorem walkFrom_table (hp : bitOf (s.read64 (entryAt va lvl tab)) 0 = true) (hl : bitOf (s.read64 (entryAt va lvl tab)) 1 = false)
    (hplain : plainEntry (s.read64 (entryAt va lvl tab))) (h2 : lvl ≠ 2) :
    walkFrom s va (n + 1) lvl tab = walkFrom s va n (lvl + 1)
      (paOf ((s.read64 (entryAt va lvl tab)).extractLsb' 49 3) 0 (((s.read64 (entryAt va lvl tab)).extractLsb' 16 30).toNat * 2 ^ 16)) := by
  rw [walkFrom, entryAt_eq va tab hlvl]
  simp only [hbad, hp, hl, Bool.not_true, Bool.false_eq_true, if_false]
  rw [if_neg (fun h => ((notPlain_iff _ _).1 h).elim h2 (· hplain))]
  rfl

/-- A walk ends at a leaf, or at one that breaks its format or range (R21, R23). -/
theorem walkFrom_leaf (hp : bitOf (s.read64 (entryAt va lvl tab)) 0 = true) (hl : bitOf (s.read64 (entryAt va lvl tab)) 1 = true) :
    (checkLeaf s lvl (s.read64 (entryAt va lvl tab)) = none →
      walkFrom s va (n + 1) lvl tab = .leaf lvl (s.read64 (entryAt va lvl tab)) (entryAt va lvl tab)) ∧
    ∀ c, checkLeaf s lvl (s.read64 (entryAt va lvl tab)) = some c → walkFrom s va (n + 1) lvl tab = .bad c (s.read64 (entryAt va lvl tab)) := by
  rw [walkFrom, entryAt_eq va tab hlvl]
  simp only [hbad, hp, hl, Bool.not_true, Bool.false_eq_true, if_false, if_true]
  exact ⟨fun h => by rw [h], fun c h => by rw [h]⟩

/-- A walk ends at an entry that breaks a table's format, and at a table where a leaf has to stand (R20). -/
theorem walkFrom_broken (hp : bitOf (s.read64 (entryAt va lvl tab)) 0 = true) (hl : bitOf (s.read64 (entryAt va lvl tab)) 1 = false)
    (h : lvl = 2 ∨ ¬ plainEntry (s.read64 (entryAt va lvl tab))) :
    walkFrom s va (n + 1) lvl tab = .bad 4 (s.read64 (entryAt va lvl tab)) := by
  rw [walkFrom, entryAt_eq va tab hlvl]
  simp only [hbad, hp, hl, Bool.not_true, Bool.false_eq_true, if_false]
  rw [if_pos ((notPlain_iff _ _).2 h)]

/-- A walk ends at an entry that is not present, one for zero fill among them (R22). -/
theorem walkFrom_absent (hp : bitOf (s.read64 (entryAt va lvl tab)) 0 = false) :
    walkFrom s va (n + 1) lvl tab = if isZeroFill lvl (s.read64 (entryAt va lvl tab)) then
      .zeroFill (s.read64 (entryAt va lvl tab)) (entryAt va lvl tab) else .bad 3 (s.read64 (entryAt va lvl tab)) := by
  rw [walkFrom, entryAt_eq va tab hlvl]
  simp only [hbad, hp, Bool.not_false, Bool.false_eq_true, if_false, if_true]

end

theorem isZeroFill_iff (lvl : Nat) (e : W64) :
    isZeroFill lvl e = true ↔ lvl = 2 ∧ bitOf e 1 = true ∧ e.extractLsb' 11 53 = 0 ∧ e.extractLsb' 4 4 = 0 := by
  simp only [isZeroFill, Bool.and_eq_true, beq_iff_eq, bitsOf_eq_zero, and_assoc]

/-- A walk comes through tables to the level of its end (R23). -/
theorem walkFrom_tables {s : State} {va : W64} {tab : Nat → Nat} {m : Nat} (hm : m ≤ 2)
    (hbad : ∀ i, i ≤ m → s.bad (entryAt va i (tab i)) 8 = false)
    (h : ∀ i, i < m → bitOf (s.read64 (entryAt va i (tab i))) 0 = true ∧ bitOf (s.read64 (entryAt va i (tab i))) 1 = false ∧
      plainEntry (s.read64 (entryAt va i (tab i))) ∧
      tab (i + 1) = paOf ((s.read64 (entryAt va i (tab i))).extractLsb' 49 3) 0
        (((s.read64 (entryAt va i (tab i))).extractLsb' 16 30).toNat * 2 ^ 16)) :
    walkFrom s va 3 0 (tab 0) = walkFrom s va (2 - m + 1) m (tab m) := by
  have step (j : Nat) (hj : j ≤ m) : walkFrom s va 3 0 (tab 0) = walkFrom s va (3 - j) j (tab j) := by
    induction j with
    | zero => rfl
    | succ j ih =>
      obtain ⟨hp, hl, hplain, htab⟩ := h j (by omega)
      rw [ih (by omega), show 3 - j = 3 - (j + 1) + 1 by omega, htab,
        walkFrom_table (by omega) (hbad j (by omega)) hp hl hplain (by omega)]
  rw [step m le_rfl, show 3 - m = 2 - m + 1 by omega]

/-- The reserved fields of a PASID's entry are clear (R17). -/
def clearPasid (lo hi : W64) : Prop :=
  lo.extractLsb' 1 15 = 0 ∧ lo.extractLsb' 46 3 = 0 ∧ lo.extractLsb' 52 12 = 0 ∧ hi.extractLsb' 46 3 = 0 ∧ hi.extractLsb' 52 12 = 0

theorem notClear_iff (lo hi : W64) :
    (bitsOf lo 1 15 != 0 || bitsOf lo 46 3 != 0 || bitsOf lo 52 12 != 0 || bitsOf hi 46 3 != 0 || bitsOf hi 52 12 != 0) = true ↔
      ¬ clearPasid lo hi := by
  simp only [Bool.or_eq_true, bitsOf_ne_zero, clearPasid, not_and_or, ne_eq, or_assoc]

/-- A walk begins with the PASID's entry (R17, R23). -/
theorem walkTables_entry {s : State} {die : BitVec 3} {n : BitVec 20} (va : W64) {lo hi : W64} (hbad : s.bad (pasidAddr s die n) 16 = false)
    (hlo : s.read64 (pasidAddr s die n) = lo) (hhi : s.read64 (pasidAddr s die n + 8) = hi) :
    (bitOf lo 0 = false → walkTables s die n va = .bad 2 0) ∧ (bitOf lo 0 = true → ¬ clearPasid lo hi → walkTables s die n va = .bad 4 0) ∧
    (bitOf lo 0 = true → clearPasid lo hi →
      walkTables s die n va = walkFrom s va 3 0 (paOf (lo.extractLsb' 49 3) 0 ((lo.extractLsb' 16 30).toNat * 2 ^ 16))) := by
  unfold walkTables
  rw [hlo, hhi]
  simp only [hbad, Bool.false_eq_true, if_false]
  refine ⟨fun h => ?_, fun h hc => ?_, fun h hc => ?_⟩
  · rw [if_pos (by rw [h]; rfl)]
  · rw [if_neg (by rw [h]; decide), if_pos ((notClear_iff _ _).2 hc)]
  · rw [if_neg (by rw [h]; decide), if_neg (fun h' => (notClear_iff _ _).1 h' hc)]
    rfl

/-! The checks of a leaf -/

theorem bitsOf_eq_iff {w : Nat} (x : BitVec w) (lo n v : Nat) (hv : v < 2 ^ n) :
    bitsOf x lo n = v ↔ x.extractLsb' lo n = BitVec.ofNat n v := by
  rw [bitsOf, ← BitVec.toNat_inj, BitVec.toNat_ofNat, Nat.mod_eq_of_lt hv]

/-- A leaf of the die's zero frame, which lies at a frame's boundary (R21). -/
theorem leafFrame_eq_iff (e z : W64) (hz : z.extractLsb' 0 16 = 0) : leafFrame e = z.toNat ↔ e.extractLsb' 16 48 = z.extractLsb' 16 48 := by
  have hz' : z.toNat % 2 ^ 16 = 0 := by
    rw [← bitsOf_zero]; exact (bitsOf_eq_zero _ _ _).2 hz
  have he := e.isLt
  have hzl := z.isLt
  rw [← BitVec.toNat_inj, ← bitsOf, ← bitsOf, bitsOf_eq, bitsOf_eq, leafFrame]
  omega

/-- The zero frame's leaf of a page of 64 KiB that may not be written (R12, R21, R33). -/
def zeroLeaf (s : State) (lvl : Nat) (e : W64) : Prop :=
  lvl = 2 ∧ e.getLsbD 2 = false ∧ e.extractLsb' 16 48 = ((s.die (e.extractLsb' 49 3)).zeroFrame).extractLsb' 16 48

/-- What breaks a leaf's format (R21). -/
def leafBroken (s : State) (lvl : Nat) (e : W64) : Prop :=
  let region := bitsOf e 46 3
  e.extractLsb' 11 4 ≠ 0 ∨ e.extractLsb' 9 2 = 3 ∨ (lvl = 1 ∧ e.extractLsb' 16 13 ≠ 0) ∨ (lvl = 0 ∧ e.extractLsb' 16 26 ≠ 0) ∨
    (e.getLsbD 6 = true ∧ e.getLsbD 7 = true) ∨
    (e.getLsbD 15 = true ∧ ¬ (lvl = 2 ∧ e.extractLsb' 52 12 = 0 ∧ region = 0 ∧ e.getLsbD 2 = false ∧
      e.extractLsb' 16 48 = ((s.die (e.extractLsb' 49 3)).zeroFrame).extractLsb' 16 48)) ∨
    (1 ≤ region ∧ region ≤ 4 ∧ ¬ (lvl = 2 ∧ e.extractLsb' 9 2 = 2))

section

variable {s : State} {lvl : Nat} {e : W64} (hz : (s.die (e.extractLsb' 49 3)).zeroFrame.extractLsb' 0 16 = 0)

include hz

/-- The checks of a leaf in their order: its format, then its range (R15, R21). -/
theorem checkLeaf_eq [Decidable (leafBroken s lvl e)] [Decidable (zeroLeaf s lvl e)] :
    checkLeaf s lvl e =
      if leafBroken s lvl e then some 4
      else if 5 ≤ bitsOf e 46 3 then some 5
      else if bitsOf e 46 3 = 0 then
        (if bitsOf e 52 12 ≠ 0 then none
         else if zeroLeaf s lvl e then none
         else if Config.hbmLimit.toNat < bitsOf e 16 30 * 2 ^ 16 + pageSize lvl then some 5 else none)
      else if extent (e.extractLsb' 49 3) (bitsOf e 46 3) ≤ bitsOf e 16 30 * 2 ^ 16 then some 5 else none := by
  have hframe : bitsOf e 0 46 / 2 ^ 16 = bitsOf e 16 30 := by
    simp only [bitsOf_eq]; omega
  unfold checkLeaf
  dsimp only
  rw [hframe]
  refine if_congr ?_ rfl (if_congr Iff.rfl rfl (if_congr Iff.rfl (if_congr Iff.rfl rfl (if_congr ?_ rfl rfl)) rfl))
  · have hpol3 : bitsOf e 9 2 = 3 ↔ e.extractLsb' 9 2 = 3 := bitsOf_eq_iff e 9 2 3 (by omega)
    have hpol2 : bitsOf e 9 2 = 2 ↔ e.extractLsb' 9 2 = 2 := bitsOf_eq_iff e 9 2 2 (by omega)
    simp only [Bool.or_eq_true, Bool.and_eq_true, bitsOf_ne_zero, beq_iff_eq, decide_eq_true_eq, leafFrame_eq_iff _ _ hz, leafBroken, bitOf,
      Bool.not_eq_true', ← Bool.not_eq_true, hpol2, hpol3, bitsOf_eq_zero e 52 12, or_assoc, and_assoc]
  · simp only [Bool.and_eq_true, beq_iff_eq, Bool.not_eq_true', decide_eq_true_eq, leafFrame_eq_iff _ _ hz, zeroLeaf, and_assoc, bitOf]

theorem checkLeaf_broken : checkLeaf s lvl e = some 4 ↔ leafBroken s lvl e := by
  classical
  rw [checkLeaf_eq hz]
  by_cases hb : leafBroken s lvl e
  · simp only [hb, if_true]
  · simp only [hb, if_false, iff_false]
    split_ifs <;> simp

variable (hb : ¬ leafBroken s lvl e)

include hb

theorem checkLeaf_reserved (h : 5 ≤ bitsOf e 46 3) : checkLeaf s lvl e = some 5 := by
  classical
  rw [checkLeaf_eq hz, if_neg hb, if_pos h]

/-- A leaf of regions 1 to 4 lies in the region's extent (R15). -/
theorem checkLeaf_region (h1 : 1 ≤ bitsOf e 46 3) (h4 : bitsOf e 46 3 ≤ 4) :
    checkLeaf s lvl e = if bitsOf e 16 30 * 2 ^ 16 < extent (e.extractLsb' 49 3) (bitsOf e 46 3) then none else some 5 := by
  classical
  rw [checkLeaf_eq hz, if_neg hb, if_neg (by omega), if_neg (by omega)]
  split_ifs
  · omega
  · rfl
  · rfl
  · omega

/-- A leaf of region 0 of this node lies below the device's reserve, the zero frame's apart (R12, R15). -/
theorem checkLeaf_hbm (h0 : bitsOf e 46 3 = 0) (hn : bitsOf e 52 12 = 0) (hzero : ¬ zeroLeaf s lvl e) :
    checkLeaf s lvl e = if bitsOf e 16 30 * 2 ^ 16 + pageSize lvl ≤ Config.hbmLimit.toNat then none else some 5 := by
  classical
  rw [checkLeaf_eq hz, if_neg hb, if_neg (by omega), if_pos h0, if_neg (by omega), if_neg hzero]
  split_ifs
  · omega
  · rfl
  · rfl
  · omega

end

end Sys2Proof.Machine
end

section
/-! PROOFS. Translation: what a walk's end means for an access, the TLB, first touch and the pool of frames (O30). -/

set_option Elab.async false

namespace Sys2Proof.Machine

theorem writes_iff (k : AKind) : k.writes = true ↔ k = .write ∨ k = .atomic := by cases k <;> simp [AKind.writes]

/-! The end of a walk -/

/-- The leaf once an access has passed: accessed, and dirty where it writes (R23). -/
def markedLeaf (k : AKind) (e : W64) : W64 := e ||| (if k.writes then 0x30#64 else 0x10#64)

/-- What an access comes to at a leaf (R23). -/
def leafEnd (s : State) (ag : Agent) (va : W64) (k : AKind) (m lvl : Nat) (e : W64) (a : Nat) : Acc (Nat × W64 × Nat) :=
  if bitOf e 8 && !ag.priv then xlatFault ag va k 8 e
  else if k.writes && !bitOf e 2 && bitOf e 15 then do firstTouch ag va k e a false; translateWalk ag va k m
  else if k.writes && !bitOf e 2 then xlatFault ag va k 6 e
  else if k = .fetch && !bitOf e 3 then xlatFault ag va k 7 e
  else if k.writes && bitOf e 6 then xlatFault ag va k 9 e
  else if bitOf e 7 then scrubStall a lvl
  else do
    set (if markedLeaf k e = e then s else s.write64 a (markedLeaf k e))
    pure (leafFrame e + bitsOf va 0 55 % pageSize lvl, markedLeaf k e, lvl)

/-- What an access comes to by the end of its walk (R23, R25). -/
def walkEnd (s : State) (ag : Agent) (va : W64) (k : AKind) (m : Nat) : WalkOut → Acc (Nat × W64 × Nat)
  | .ecc => dataFault va k
  | .bad c e => xlatFault ag va k c e
  | .zeroFill e a => do firstTouch ag va k e a true; translateWalk ag va k m
  | .leaf lvl e a => leafEnd s ag va k m lvl e a

theorem run_translateWalk (s : State) (ag : Agent) (va : W64) (k : AKind) (m : Nat) :
    (translateWalk ag va k (m + 1)).run s = (walkEnd s ag va k m (walkTables s ag.die ag.pasid va)).run s := by
  rw [translateWalk, run_bind, run_get]
  dsimp only
  cases walkTables s ag.die ag.pasid va <;> rfl

section

variable {s : State} {ag : Agent} {va : W64} {k : AKind} {m lvl : Nat} {e : W64} {a : Nat}
  (hb : hintBad s ag.die ag.pasid va = false)

include hb

theorem leafEnd_sys (h8 : bitOf e 8 = true) (hp : ag.priv = false) :
    (leafEnd s ag va k m lvl e a).run s = .error (.fault (xlatInfo s ag va k 8 e)) s := by
  rw [leafEnd, if_pos (by simp [h8, hp]), run_xlatFault hb]

variable (hperm : bitOf e 8 = false ∨ ag.priv = true)

include hperm

theorem leafEnd_readonly (hw : k.writes = true) (h2 : bitOf e 2 = false) (h15 : bitOf e 15 = false) :
    (leafEnd s ag va k m lvl e a).run s = .error (.fault (xlatInfo s ag va k 6 e)) s := by
  rw [leafEnd, if_neg (by rcases hperm with h | h <;> simp [h]), if_neg (by simp [h15]), if_pos (by simp [hw, h2]), run_xlatFault hb]

omit hb in
theorem leafEnd_zero {s1 : State} (hw : k.writes = true) (h2 : bitOf e 2 = false) (h15 : bitOf e 15 = true)
    (hft : (firstTouch ag va k e a false).run s = .ok () s1) :
    (leafEnd s ag va k m lvl e a).run s = (translateWalk ag va k m).run s1 := by
  rw [leafEnd, if_neg (by rcases hperm with h | h <;> simp [h]), if_pos (by simp [hw, h2, h15]), run_bind, hft]

theorem leafEnd_fetch (hk : k = .fetch) (h3 : bitOf e 3 = false) :
    (leafEnd s ag va k m lvl e a).run s = .error (.fault (xlatInfo s ag va k 7 e)) s := by
  subst hk
  rw [leafEnd, if_neg (by rcases hperm with h | h <;> simp [h]), if_neg (by simp [AKind.writes]), if_neg (by simp [AKind.writes]),
    if_pos (by simp [h3]), run_xlatFault hb]

theorem leafEnd_migrating (hw : k.writes = true) (h2 : bitOf e 2 = true) (h6 : bitOf e 6 = true) :
    (leafEnd s ag va k m lvl e a).run s = .error (.fault (xlatInfo s ag va k 9 e)) s := by
  have hk : k ≠ .fetch := by rintro rfl; exact absurd hw (by decide)
  rw [leafEnd, if_neg (by rcases hperm with h | h <;> simp [h]), if_neg (by simp [h2]), if_neg (by simp [h2]), if_neg (by simp [hk]),
    if_pos (by simp [hw, h6]), run_xlatFault hb]

omit hb

variable (hwr : k.writes = true → bitOf e 2 = true ∧ bitOf e 6 = false) (hx : k = .fetch → bitOf e 3 = true)

include hwr hx

/-- An access that the leaf grants stalls where its page is to be scrubbed, else it gets its address (R23, R36). -/
theorem leafEnd_granted : (leafEnd s ag va k m lvl e a).run s =
    if bitOf e 7 then .error .scrub (s.noteStall a lvl)
    else .ok (leafFrame e + bitsOf va 0 55 % pageSize lvl, markedLeaf k e, lvl)
      (if markedLeaf k e = e then s else s.write64 a (markedLeaf k e)) := by
  have h2 : (k.writes && !bitOf e 2) = false := by
    cases hw : k.writes
    · rfl
    · simp [(hwr hw).1]
  have h6 : (k.writes && bitOf e 6) = false := by
    cases hw : k.writes
    · rfl
    · simp [(hwr hw).2]
  rw [leafEnd, if_neg (by rcases hperm with h | h <;> simp [h]), if_neg (by simp [h2]), if_neg (by simp [h2]),
    if_neg (by simpa using hx), if_neg (by simp [h6])]
  split <;> rfl

end

theorem getLsbD_markedLeaf (k : AKind) (e : W64) {i : Nat} (hi : i < 64) :
    (markedLeaf k e).getLsbD i = (e.getLsbD i || i == 4 || (i == 5 && (k == .write || k == .atomic))) := by
  have h30 : ∀ i < 64, (0x30#64).getLsbD i = (i == 4 || i == 5) := by decide
  have h10 : ∀ i < 64, (0x10#64).getLsbD i = (i == 4) := by decide
  have hk : (k == .write || k == .atomic) = k.writes := by cases k <;> rfl
  rw [hk, markedLeaf, BitVec.getLsbD_or]
  cases k.writes
  · rw [if_neg (by decide), h10 i hi, Bool.and_false, Bool.or_false]
  · rw [if_pos rfl, h30 i hi, Bool.and_true, Bool.or_assoc]

/-! The TLB of the access's core -/

section

variable {s s1 : State} {ag : Agent} {va : W64} {k : AKind} {c : BitVec 10} (hc : ag.core = some c)
  (hon : bitOf (s.die ag.die).ptBase 0 = true) (hcan : canonical va = true)

include hc hon hcan

theorem translate_tlb {t : TlbEntry} (ht : (s.core c).tlb.find? (fun t => t.covers ag.pasid va && leafPermits ag.priv t.leaf k) = some t)
    (hnode : paNode (leafFrame t.leaf + bitsOf va 0 55 % pageSize t.lvl.toNat) = 0) :
    (translate ag va k).run s = .ok (leafFrame t.leaf + bitsOf va 0 55 % pageSize t.lvl.toNat) s := by
  unfold translate translateLeaf
  rw [run_bind, run_bind, run_get]
  dsimp only
  rw [if_neg (by simp [hon]), if_neg (by simp [hcan]), hc]
  dsimp only
  rw [ht]
  dsimp only
  rw [run_pure]
  dsimp only
  rw [admitNode, if_pos hnode, run_pure]

/-- The entry that a walk's leaf makes in a core's TLB (R26). -/
def fillTlb (s : State) (c : BitVec 10) (n : BitVec 20) (va e : W64) (lvl : Nat) : State :=
  let page := bitsOf va 0 55 / pageSize lvl
  let rest := (s.core c).tlb.filter (fun t => !(t.pasid == n && t.page == page && t.lvl.toNat == lvl))
  s.setCore c { s.core c with tlb := { pasid := n, lvl := BitVec.ofNat 2 lvl, page := page, leaf := e } :: rest }

theorem translate_fill {pa lvl : Nat} {e : W64} (ht : (s.core c).tlb.find? (fun t => t.covers ag.pasid va && leafPermits ag.priv t.leaf k) = none)
    (hwalk : (translateWalk ag va k 4).run s = .ok (pa, e, lvl) s1) (hnode : paNode pa = 0) :
    (translate ag va k).run s = .ok pa (fillTlb s1 c ag.pasid va e lvl) := by
  unfold translate translateLeaf
  rw [run_bind, run_bind, run_get]
  dsimp only
  rw [if_neg (by simp [hon]), if_neg (by simp [hcan]), hc]
  dsimp only
  rw [ht]
  dsimp only
  rw [run_bind, hwalk]
  dsimp only
  rw [run_bind, run_modify]
  dsimp only
  rw [run_pure]
  dsimp only
  rw [admitNode, if_pos hnode, run_pure]
  rfl

end

theorem fillTlb_spec (s : State) (c : BitVec 10) (n : BitVec 20) (va e : W64) {lvl : Nat} (hlvl : lvl ≤ 2) :
    fillTlb s c n va e lvl = { s with cores := (fillTlb s c n va e lvl).cores } ∧
    (∃ t ∈ ((fillTlb s c n va e lvl).core c).tlb, t.covers n va = true ∧ t.leaf = e ∧ t.lvl.toNat = lvl) ∧
    ∀ x, x ≠ c → (fillTlb s c n va e lvl).core x = s.core x := by
  have hl : (BitVec.ofNat 2 lvl).toNat = lvl := by rw [BitVec.toNat_ofNat]; omega
  refine ⟨rfl, ⟨{ pasid := n, lvl := BitVec.ofNat 2 lvl, page := bitsOf va 0 55 / pageSize lvl, leaf := e }, ?_, ?_, rfl, hl⟩,
    fun x hx => State.core_setCore_other _ _ hx⟩
  · rw [fillTlb, State.core_setCore_same]
    exact List.mem_cons_self
  · simp only [TlbEntry.covers, hl, beq_self_eq_true, decide_true, Bool.and_self]

/-! First touch -/

/-- A bit of the hint record of an address (R31). -/
def hintFlag (h : Option (Nat × BitVec 256)) (i : Nat) : Bool := match h with | some x => bitOf x.2 i | none => false
/-- The die of a first touch's frame: the hint's, else the faulting agent's (R32). -/
def hintHome (h : Option (Nat × BitVec 256)) (die : BitVec 3) : BitVec 3 :=
  match h with | some x => if bitOf x.2 139 then x.2.extractLsb' 136 3 else die | none => die

theorem hintFlag_iff (h : Option (Nat × BitVec 256)) (i : Nat) : hintFlag h i = true ↔ ∃ x, h = some x ∧ x.2.getLsbD i = true := by
  cases h with
  | none => simp [hintFlag]
  | some x => simp only [hintFlag, bitOf, Option.some.injEq, exists_eq_left']

theorem hintHome_eq {h : Option (Nat × BitVec 256)} {die home : BitVec 3}
    (hset : ∀ x, h = some x → x.2.getLsbD 139 = true → home = x.2.extractLsb' 136 3)
    (hnone : (¬ ∃ x, h = some x ∧ x.2.getLsbD 139 = true) → home = die) : hintHome h die = home := by
  rcases h with - | x
  · exact (hnone (by simp)).symm
  · by_cases hx : x.2.getLsbD 139 = true
    · exact (if_pos hx).trans (hset x rfl hx).symm
    · refine (if_neg hx).trans (hnone ?_).symm
      rintro ⟨y, hy, h⟩
      cases hy
      exact hx h

/-- The leaf that a first touch makes of the zero frame (R33). -/
def zeroFrameLeaf (z e : W64) : W64 :=
  (z &&& 0xFFFFFFFFFFFF0000#64) ||| (e &&& 0x708#64) ||| (if bitOf e 2 then 0x8000#64 else 0) ||| 0x13#64
/-- The leaf that a first touch makes of a fresh frame, in place of an entry for zero fill or of a leaf of the zero frame (R32, R33). -/
def freshLeaf (zf writes : Bool) (f e : W64) : W64 :=
  (f &&& 0xFFFFFFFFFFFF0000#64) ||| (if zf then e &&& 0x70C#64 else (e &&& 0x708#64) ||| 4#64) ||| (if writes then 0x33#64 else 0x13#64)

theorem run_firstTouch {s : State} {ag : Agent} {va : W64} (hb : hintBad s ag.die ag.pasid va = false) (k : AKind) (e : W64) (a : Nat)
    (zf : Bool) :
    let h := hintOf s ag.die ag.pasid va
    let home := hintHome h ag.die
    (firstTouch ag va k e a zf).run s =
      (if hintFlag h 132 || hintFlag h 133 || !ftzOn (s.die home) || !ftzOn (s.die ag.die) then xlatFault ag va k 3 e
       else if zf && !k.writes && hintFlag h 128 then set (s.write64 a (zeroFrameLeaf (s.die home).zeroFrame e))
       else do
        match ← takeFrame home va k (poolCount (s.die home)) with
        | none => xlatFault ag va k 3 e
        | some f => do
          modify (fun s => s.write64 a (freshLeaf zf k.writes f e))
          if zf then pure () else modify (fun s => s.invalidate (fun _ => true) ag.pasid (va.toNat / 2 ^ 16 * 2 ^ 16) 0x10000) : Acc Unit).run s := by
  unfold firstTouch
  rw [run_bind, run_get]
  dsimp only
  rw [if_neg (by simp [hb])]
  rfl

/-- What a leaf made by a first touch holds: its frame, the write grant, the dirty bit and `zw`, and the entry's own x, sys and pol (R32, R33). -/
def TouchedLeaf (e l frame : W64) (w d zw : Bool) : Prop :=
  l.extractLsb' 16 48 = frame.extractLsb' 16 48 ∧ l.extractLsb' 0 2 = 3 ∧ l.getLsbD 2 = w ∧ l.getLsbD 3 = e.getLsbD 3 ∧
  l.getLsbD 4 = true ∧ l.getLsbD 5 = d ∧ l.extractLsb' 6 2 = 0 ∧ l.extractLsb' 8 3 = e.extractLsb' 8 3 ∧ l.extractLsb' 11 4 = 0 ∧
  l.getLsbD 15 = zw

/-- The same, bit by bit. -/
def touchedBit (e frame : W64) (w d zw : Bool) (i : Nat) : Bool :=
  if 16 ≤ i then frame.getLsbD i
  else [true, true, w, e.getLsbD 3, true, d, false, false, e.getLsbD 8, e.getLsbD 9, e.getLsbD 10, false, false, false, false, zw].getD i false

theorem touchedLeaf_of_bits {e l frame : W64} {w d zw : Bool} (h : ∀ i, i < 64 → l.getLsbD i = touchedBit e frame w d zw i) :
    TouchedLeaf e l frame w d zw := by
  refine ⟨?_, ?_, h 2 (by omega), h 3 (by omega), h 4 (by omega), h 5 (by omega), ?_, ?_, ?_, h 15 (by omega)⟩
  · ext j hj
    rw [BitVec.getElem_extractLsb', BitVec.getElem_extractLsb', h _ (by omega), touchedBit, if_pos (by omega)]
  all_goals
    ext j hj
    rw [BitVec.getElem_extractLsb', h _ (by omega), touchedBit, if_neg (by omega)]
    interval_cases j <;> simp

/-- The masks that the leaves of a first touch are built with. -/
theorem touchMasks : ∀ i < 64, (0xFFFFFFFFFFFF0000#64).getLsbD i = decide (16 ≤ i) ∧
    (0x708#64).getLsbD i = (i == 3 || i == 8 || i == 9 || i == 10) ∧ (0x70C#64).getLsbD i = (i == 2 || i == 3 || i == 8 || i == 9 || i == 10) ∧
    (0x33#64).getLsbD i = (i == 0 || i == 1 || i == 4 || i == 5) ∧ (0x13#64).getLsbD i = (i == 0 || i == 1 || i == 4) ∧
    (4#64).getLsbD i = (i == 2) ∧ (0x8000#64).getLsbD i = (i == 15) := by decide

theorem zeroFrameLeaf_touched (z e : W64) : TouchedLeaf e (zeroFrameLeaf z e) z false false (e.getLsbD 2) := by
  refine touchedLeaf_of_bits fun i hi => ?_
  obtain ⟨hf, h708, _, _, h13, _, h8000⟩ := touchMasks i hi
  have hzw : (if bitOf e 2 then 0x8000#64 else 0).getLsbD i = (i == 15 && e.getLsbD 2) := by
    rw [bitOf]
    cases e.getLsbD 2
    · simp
    · rw [if_pos rfl, h8000, Bool.and_true]
  simp only [zeroFrameLeaf, BitVec.getLsbD_or, BitVec.getLsbD_and, hf, h708, h13, hzw, touchedBit]
  by_cases h16 : 16 ≤ i
  · have hne : ∀ k < 16, (i == k) = false := fun k hk => by rw [beq_eq_false_iff_ne]; omega
    simp [h16, hne]
  · interval_cases i <;> simp

theorem freshLeaf_touched (zf writes : Bool) (f e : W64) :
    TouchedLeaf e (freshLeaf zf writes f e) f (!zf || e.getLsbD 2) writes false := by
  refine touchedLeaf_of_bits fun i hi => ?_
  obtain ⟨hf, h708, h70C, h33, h13, h4, _⟩ := touchMasks i hi
  have hkeep : (if zf then e &&& 0x70C#64 else (e &&& 0x708#64) ||| 4#64).getLsbD i =
      ((e.getLsbD i && (i == 3 || i == 8 || i == 9 || i == 10)) || (i == 2 && (!zf || e.getLsbD i))) := by
    cases zf
    · simp [h708, h4]
    · rw [if_pos rfl, BitVec.getLsbD_and, h70C]
      cases e.getLsbD i <;> cases i == 2 <;> simp
  have hmark : (if writes then 0x33#64 else 0x13#64).getLsbD i = (i == 0 || i == 1 || i == 4 || (i == 5 && writes)) := by
    cases writes
    · simp [h13]
    · simp [h33]
  simp only [freshLeaf, BitVec.getLsbD_or, BitVec.getLsbD_and, hf, hkeep, hmark, touchedBit]
  by_cases h16 : 16 ≤ i
  · have hne : ∀ k < 16, (i == k) = false := fun k hk => by rw [beq_eq_false_iff_ne]; omega
    simp [h16, hne]
  · interval_cases i <;> simp

section

variable {s s1 : State} {ag : Agent} {va : W64} {k : AKind} {e : W64} {a : Nat} {zf : Bool} (hb : hintBad s ag.die ag.pasid va = false)

/-- The first-touch unit does not serve an entry: by its hint, or because it is off on the home or on the faulting agent's die (R32; log 68). -/
def touchOff (s : State) (ag : Agent) (va : W64) : Bool :=
  let h := hintOf s ag.die ag.pasid va
  hintFlag h 132 || hintFlag h 133 || !ftzOn (s.die (hintHome h ag.die)) || !ftzOn (s.die ag.die)

include hb

theorem firstTouch_off (hoff : touchOff s ag va = true) :
    (firstTouch ag va k e a zf).run s = .error (.fault (xlatInfo s ag va k 3 e)) s := by
  rw [run_firstTouch hb]
  exact (congrArg (fun m : Acc Unit => m.run s) (if_pos hoff)).trans (run_xlatFault hb k 3 e)

variable (hon : touchOff s ag va = false)

include hon

/-- A read of a mostly unwritten page takes the zero frame (R33). -/
theorem firstTouch_zero (hz : zf = true) (hw : k.writes = false) (hf : hintFlag (hintOf s ag.die ag.pasid va) 128 = true) :
    (firstTouch ag va k e a zf).run s =
      .ok () (s.write64 a (zeroFrameLeaf (s.die (hintHome (hintOf s ag.die ag.pasid va) ag.die)).zeroFrame e)) := by
  rw [run_firstTouch hb]
  exact congrArg (fun m : Acc Unit => m.run s) ((if_neg (Bool.eq_false_iff.1 hon)).trans (if_pos (by simp [hz, hw, hf])))

variable (hfresh : zf = false ∨ k.writes = true ∨ hintFlag (hintOf s ag.die ag.pasid va) 128 = false)

include hfresh

theorem firstTouch_takes : (firstTouch ag va k e a zf).run s = (do
      match ← takeFrame (hintHome (hintOf s ag.die ag.pasid va) ag.die) va k (poolCount (s.die (hintHome (hintOf s ag.die ag.pasid va) ag.die))) with
      | none => xlatFault ag va k 3 e
      | some f => do
        modify (fun s => s.write64 a (freshLeaf zf k.writes f e))
        if zf then pure () else modify (fun s => s.invalidate (fun _ => true) ag.pasid (va.toNat / 2 ^ 16 * 2 ^ 16) 0x10000) : Acc Unit).run s := by
  rw [run_firstTouch hb]
  exact congrArg (fun m : Acc Unit => m.run s)
    ((if_neg (Bool.eq_false_iff.1 hon)).trans (if_neg (by rcases hfresh with h | h | h <;> simp [h])))

/-- A pool without a frame leaves the entry unserved (R32). -/
theorem firstTouch_empty (htake : (takeFrame (hintHome (hintOf s ag.die ag.pasid va) ag.die) va k
    (poolCount (s.die (hintHome (hintOf s ag.die ag.pasid va) ag.die)))).run s = .ok none s1) (hb1 : hintBad s1 ag.die ag.pasid va = false) :
    (firstTouch ag va k e a zf).run s = .error (.fault (xlatInfo s1 ag va k 3 e)) s1 := by
  rw [firstTouch_takes hb hon hfresh, run_bind, htake]
  exact run_xlatFault hb1 k 3 e

/-- A fresh frame takes the entry's place; on a write to the zero frame every die drops its page (R32, R33). -/
theorem firstTouch_fresh {f : W64} (htake : (takeFrame (hintHome (hintOf s ag.die ag.pasid va) ag.die) va k
    (poolCount (s.die (hintHome (hintOf s ag.die ag.pasid va) ag.die)))).run s = .ok (some f) s1) :
    let t := s1.write64 a (freshLeaf zf k.writes f e)
    (firstTouch ag va k e a zf).run s =
      .ok () (if zf then t else t.invalidate (fun _ => true) ag.pasid (va.toNat / 2 ^ 16 * 2 ^ 16) 0x10000) := by
  rw [firstTouch_takes hb hon hfresh, run_bind, htake]
  dsimp only
  rw [run_bind, run_modify]
  cases zf <;> rfl

end

/-! The pool of fresh frames -/

theorem poolRearm_spec (s : State) (die : BitVec 3) :
    (s.poolRearm die).mem = s.mem ∧ ((s.poolRearm die).die die).ftzHead = (s.die die).ftzHead := by
  unfold State.poolRearm
  dsimp only
  split
  · rw [State.die_setDie_same]; exact ⟨rfl, rfl⟩
  · exact ⟨rfl, rfl⟩

theorem poolCheck_spec (s : State) (die : BitVec 3) :
    (s.poolCheck die).mem = s.mem ∧ ((s.poolCheck die).die die).ftzHead = (s.die die).ftzHead := by
  unfold State.poolCheck
  dsimp only
  split
  · exact poolRearm_spec s die
  · split
    · exact ⟨rfl, rfl⟩
    · refine ⟨rfl, ?_⟩
      change ((s.setDie die { s.die die with lowPosted := true }).die die).ftzHead = _
      rw [State.die_setDie_same]

theorem get_zeroRange (s : State) (pa n b : Nat) :
    Sparse.get (s.zeroRange pa n).mem b = if pa ≤ b ∧ b < pa + n then 0 else Sparse.get s.mem b := Sparse.get_clear ..

section

variable {s : State} {die : BitVec 3} {va : W64} {k : AKind} {n : Nat}

theorem takeFrame_empty (h : (s.die die).ftzTail = (s.die die).ftzHead) : (takeFrame die va k (n + 1)).run s = .ok none s := by
  have hc : poolCount (s.die die) = 0 := by simp [poolCount, h]
  rw [takeFrame, run_bind, run_get]
  dsimp only
  rw [if_pos hc, run_pure]

/-- The pool's next frame, where the ring names a good one: zero as it is handed out (R34; log 61). -/
theorem takeFrame_good (h : (s.die die).ftzTail ≠ (s.die die).ftzHead) (hb : s.bad (ringPlace s die (s.die die).ftzHead.toNat) 8 = false)
    (hg : goodFrame die (ringEntry s die (s.die die).ftzHead.toNat) = true) :
    let d := s.die die
    let e := ringEntry s die d.ftzHead.toNat
    ∃ t, (takeFrame die va k (n + 1)).run s = .ok (some e) t ∧ (t.die die).ftzHead = d.ftzHead + 1 ∧ (e ∈ d.zeroed → t.mem = s.mem) ∧
      ∀ b, Sparse.get t.mem b = if e ∉ d.zeroed ∧ e.toNat ≤ b ∧ b < e.toNat + 0x10000 then 0 else Sparse.get s.mem b := by
  have hc : poolCount (s.die die) ≠ 0 := by
    rw [poolCount]
    bv_omega
  intro d e
  let s1 := s.setDie die { d with ftzHead := d.ftzHead + 1, zeroed := d.zeroed.filter (fun f => f != e) }
  let s2 := if d.zeroed.contains e then s1 else s1.zeroRange e.toNat 0x10000
  have hs1 : (s1.die die).ftzHead = d.ftzHead + 1 := by rw [State.die_setDie_same]
  have hs2 : s2.die die = s1.die die := by
    unfold s2; split <;> rfl
  have hready (hz : e ∈ d.zeroed) : (s2.poolCheck die).mem = s.mem := by
    have e2 : s2 = s1 := if_pos (List.elem_eq_true_of_mem hz)
    rw [(poolCheck_spec s2 die).1, e2]
    rfl
  refine ⟨s2.poolCheck die, ?_, ?_, hready, fun b => ?_⟩
  · rw [takeFrame, run_bind, run_get]
    dsimp only
    rw [if_neg hc, if_neg (by simp [hb]), if_pos hg]
    rfl
  · rw [(poolCheck_spec s2 die).2, hs2, hs1]
  · by_cases hz : e ∈ d.zeroed
    · rw [hready hz, if_neg (fun h => h.1 hz)]
    · have e2 : s2 = s1.zeroRange e.toNat 0x10000 := if_neg (fun h => hz (List.mem_of_elem_eq_true h))
      rw [(poolCheck_spec s2 die).1, e2, get_zeroRange]
      simp only [hz, not_false_eq_true, true_and]
      rfl

end

end Sys2Proof.Machine
end

section
/-! PROOFS. A translation that faults in an instruction, and the settlement of O30. -/

set_option Elab.async false

namespace Sys2Proof.Machine

/-! A translation leaves the machine at the group that moves -/

/-- The state that a computation leaves, whether it ends or stops. -/
def endState {α : Type} : EStateM.Result Stop State α → State | .ok _ t | .error _ t => t

/-- What a computation leaves is still at the group that moves. -/
structure AtGroup {α : Type} (gid : Gid) (r : EStateM.Result Stop State α) : Prop where
  curG : (endState r).curG = gid

/-- A computation that leaves the machine at the group that moves. -/
def AccStays {α : Type} (m : Acc α) : Prop := ∀ ⦃gid : Gid⦄ ⦃s : State⦄, s.curG = gid → AtGroup gid (m.run s)

section

variable {α β : Type} {gid : Gid} {s t : State}

protected theorem AtGroup.bind {m : Acc α} {f : α → Acc β} (hm : AtGroup gid (m.run s))
    (hf : ∀ v t, t.curG = gid → AtGroup gid ((f v).run t)) : AtGroup gid ((m >>= f).run s) := by
  rw [run_bind]
  cases hr : m.run s with
  | ok v t => rw [hr] at hm; exact hf v t hm.curG
  | error e t => rw [hr] at hm; exact ⟨hm.curG⟩
protected theorem AtGroup.ite {c : Prop} {_ : Decidable c} {m n : Acc α} (hm : AtGroup gid (m.run s)) (hn : AtGroup gid (n.run s)) :
    AtGroup gid ((if c then m else n).run s) := by
  split
  · exact hm
  · exact hn
protected theorem AtGroup.when {c : Prop} {_ : Decidable c} {m : Acc PUnit} {f : PUnit → Acc α} (hm : AccStays m) (hs : s.curG = gid)
    (hf : ∀ u t, t.curG = gid → AtGroup gid ((f u).run t)) : AtGroup gid ((if c then m >>= f else f ⟨⟩).run s) :=
  .ite (.bind (hm hs) hf) (hf _ _ hs)
protected theorem AtGroup.set_bind {f : PUnit → Acc β} (ht : t.curG = gid) (hf : AccStays (f ⟨⟩)) :
    AtGroup gid ((set t >>= f : Acc β).run s) := hf ht
protected theorem AtGroup.set (ht : t.curG = gid) : AtGroup gid ((set t : Acc PUnit).run s) := ⟨ht⟩
protected theorem AccStays.bind {m : Acc α} {f : α → Acc β} (hm : AccStays m) (hf : ∀ v, AccStays (f v)) : AccStays (m >>= f) :=
  fun _ _ hs => .bind (hm hs) fun v _ ht => hf v ht
protected theorem AccStays.get_bind {f : State → Acc β} (hf : ∀ gid s, s.curG = gid → AtGroup gid ((f s).run s)) :
    AccStays (get >>= f) := fun gid s hs => hf gid s hs
protected theorem AccStays.pure {v : α} : AccStays (pure v) := fun _ _ hs => ⟨hs⟩
protected theorem AccStays.throw {e : Stop} : AccStays (throw e : Acc α) := fun _ _ hs => ⟨hs⟩
protected theorem AccStays.modify {f : State → State} (hf : ∀ s, (f s).curG = s.curG) : AccStays (modify f : Acc PUnit) :=
  fun _ s hs => ⟨(hf s).trans hs⟩
protected theorem AccStays.ite {c : Prop} {_ : Decidable c} {m n : Acc α} (hm : AccStays m) (hn : AccStays n) :
    AccStays (if c then m else n) := by
  split
  · exact hm
  · exact hn

theorem curG_ite {c : Prop} {_ : Decidable c} (hs : s.curG = gid) (ht : t.curG = gid) : (if c then s else t).curG = gid := by
  split
  · exact hs
  · exact ht
theorem curG_setDie {d x} (h : s.curG = gid) : (s.setDie d x).curG = gid := h
theorem curG_notify {d p c a e} (h : s.curG = gid) : (s.notify d p c a e).curG = gid := h
theorem curG_zeroRange {a n} (h : s.curG = gid) : (s.zeroRange a n).curG = gid := h
theorem curG_poolCheck {d} (h : s.curG = gid) : (s.poolCheck d).curG = gid := by
  unfold State.poolCheck State.poolRearm
  exact curG_ite (curG_ite (curG_setDie h) h) (curG_ite h (curG_notify (curG_setDie h)))
theorem curG_invalidate (f : BitVec 3 → Bool) (n : BitVec 20) (va len : Nat) : (s.invalidate f n va len).curG = s.curG := curG_ite rfl rfl
theorem curG_noteStall (a lvl : Nat) : (s.noteStall a lvl).curG = s.curG := curG_ite rfl rfl

protected theorem AccStays.xlatFault {ag va k c e} : AccStays (xlatFault ag va k c e : Acc α) :=
  .get_bind fun _ _ hs => AtGroup.when .throw hs fun _ _ ht => AccStays.throw ht
protected theorem AccStays.takeFrame {die va k n} : AccStays (takeFrame die va k n) := by
  induction n with
  | zero => exact .pure
  | succ n ih =>
    exact .get_bind fun _ _ hs => AtGroup.ite (AccStays.pure hs) <| AtGroup.ite (AccStays.throw hs) <| AtGroup.ite
      (AtGroup.set_bind (curG_poolCheck (curG_ite (curG_setDie hs) (curG_zeroRange (curG_setDie hs)))) .pure)
      (AtGroup.set_bind (curG_poolCheck (curG_notify (curG_setDie hs))) ih)
protected theorem AccStays.firstTouch {ag va k e a zf} : AccStays (firstTouch ag va k e a zf) :=
  .get_bind fun _ _ hs => AtGroup.when .throw hs fun _ _ ht => AtGroup.ite (AccStays.xlatFault ht) <| AtGroup.ite (.set hs) <|
    AccStays.bind .takeFrame (fun r => by
      cases r with
      | none => exact .xlatFault
      | some f => exact .bind (.modify fun _ => rfl) fun _ => .ite .pure (.modify fun _ => curG_invalidate _ _ _ _)) ht
protected theorem AccStays.translateWalk {ag va k n} : AccStays (translateWalk ag va k n) := by
  induction n with
  | zero => exact .throw
  | succ n ih =>
    refine .get_bind fun _ _ hs => ?_
    have htouch {e a zf} : AccStays (do firstTouch ag va k e a zf; translateWalk ag va k n) := .bind .firstTouch fun _ => ih
    split
    · exact AccStays.throw hs
    · exact AccStays.xlatFault hs
    · exact htouch hs
    · exact AtGroup.ite (AccStays.xlatFault hs) <| AtGroup.ite (htouch hs) <| AtGroup.ite (AccStays.xlatFault hs) <| AtGroup.ite (AccStays.xlatFault hs) <|
        AtGroup.ite (AccStays.xlatFault hs) <| AtGroup.ite (AccStays.bind (.modify fun _ => curG_noteStall _ _) (fun _ => .throw) hs)
          (AtGroup.set_bind (curG_ite hs hs) .pure)
protected theorem AccStays.admitNode {ag va k pa e} : AccStays (admitNode ag va k pa e) :=
  .ite .pure (.get_bind fun _ _ hs => AtGroup.ite (AccStays.throw hs) (AtGroup.set_bind hs (.ite .pure .xlatFault)))
protected theorem AccStays.translateLeaf {ag va k} : AccStays (translateLeaf ag va k) :=
  .get_bind fun _ _ hs => AtGroup.ite (AccStays.xlatFault hs) <| AtGroup.ite (AccStays.xlatFault hs) <| by
    dsimp only
    split
    · exact AccStays.pure hs
    · refine AccStays.bind .translateWalk (fun ⟨_, _, _⟩ => ?_) hs
      dsimp only
      split
      · exact .pure
      · exact .bind (.modify fun _ => rfl) fun _ => .pure
protected theorem AccStays.translate {ag va k} : AccStays (translate ag va k) := .bind .translateLeaf fun ⟨_, _⟩ => .admitNode

end

/-! An atomic whose address does not translate (R318 to R320) -/

/-- One access whose page does not translate: a cause that is deferred gives the page's record, another traps (R318, R321). -/
theorem resolveAll_faults {tr : Nat → Acc Nat} {va : W64} {s s1 : State} {i : Info} (h : (tr 0).run s = .error (.fault i) s1)
    (hx : i.cause.isXlat = true) :
    let j : Info := { i with va := va, vlane := none }
    (resolveAll tr 1 [{ off := 0, va := va }]).run s = .error (if i.cause.deferred then .pages [j] false else .fault j) s1 := by
  intro j
  have hroom : 1 ≤ 0x10000 - va.toNat % 0x10000 := by omega
  have hpart : (resolvePart tr none 0 va []).run s = .ok (none, [j]) s1 := by
    unfold resolvePart
    rw [if_neg (by simp), run_bind, run_attempt, h]
    dsimp only
    rw [if_pos hx]
    rfl
  have hone : (resolveOne tr 1 { off := 0, va := va } []).run s = .ok ((List.range 1).map (0 + ·), [j]) s1 := by
    unfold resolveOne
    rw [run_bind, hpart]
    dsimp only
    rw [if_pos hroom]
    rfl
  have hlist : (resolveList tr 1 [{ off := 0, va := va }] []).run s = .ok ([(List.range 1).map (0 + ·)], [j]) s1 := by
    unfold resolveList
    rw [run_bind, hone]
    rfl
  unfold resolveAll
  rw [run_bind, hlist]
  dsimp only
  cases hd : i.cause.deferred
  · have hf : [j].find? (fun i => !i.cause.deferred) = some j := by simp [j, hd]
    rw [hf]
    rfl
  · have hf : [j].find? (fun i => !i.cause.deferred) = none := by simp [j, hd]
    rw [hf]
    dsimp only
    rw [if_neg (List.cons_ne_nil _ _)]
    rfl

section

variable {s s1 : State} {d o : SReg} {op : AtomOp} {ty : AtomTy} {r : Order} {i : Info}

/-- The operands of a scalar atomic as they are logged: the values that its operation has, then the address (R204, R320). -/
theorem atomScalars (g : Group) (d o : SReg) (op : AtomOp) :
    (List.range (atomSrcs op)).map (g.srAt d) ++ [g.sr o] =
      (match op with | .oclose => [] | .cas => [g.sr d, g.sr (d + 1)] | _ => [g.sr d]) ++ [g.sr o] := by
  have h0 : g.srAt d 0 = g.sr d := by rw [Group.srAt, BitVec.add_zero]
  have h1 : g.srAt d 1 = g.sr (d + 1) := rfl
  cases op <;> simp [atomSrcs, List.range_succ, h0, h1]

variable (hrep : s.cur.replaying false = none)
  (htr : (translate (groupAgent s.curG s.cur) (s.cur.sr o) .atomic).run s = .error (.fault i) s1) (hx : i.cause.isXlat = true)

include hrep htr hx

theorem exec_atom_faults :
    let x : Srcs := { sc := (List.range (atomSrcs op)).map (s.cur.srAt d) ++ [s.cur.sr o] }
    let j : Info := { i with va := s.cur.sr o, vlane := none }
    exec (.atom d o op ty r) s = finish false false s.cur.pc ((encodeScalar (.atom d o op ty r)).setWidth 96) (some x) s
      (.error (if i.cause.deferred then .pages [j] false else .fault j) s1) := by
  intro x j
  have hva : x.s (atomSrcs op) = s.cur.sr o := by
    simp [x, Srcs.s]
  refine scalarMem_stops hrep ?_
  unfold atomBody
  rw [run_bind, run_curAgent]
  dsimp only
  rw [run_bind, hva, resolveAll_faults (i := i) ?_ hx]
  rw [BitVec.add_zero]
  exact htr

omit hx hrep in
theorem atom_curG : s1.curG = s.curG := by
  have h := AccStays.translate (ag := groupAgent s.curG s.cur) (va := s.cur.sr o) (k := .atomic) (gid := s.curG) (s := s) rfl
  rw [htr] at h
  exact h.curG

/-- A fault that is not deferred traps precisely at the atomic (R318). -/
theorem exec_atom_traps (hd : i.cause.deferred = false) (ht : TrapEnters s1) :
    ∃ rec, RecordOf rec i.cause s.cur.pc ∧
      exec (.atom d o op ty r) s = .next (s1.enterHandler s.curG i.cause rec s.cur.pc s1.cur.ln.lpc) := by
  let j : Info := { i with va := s.cur.sr o, vlane := none }
  have hj : j.cause.deferred = false := hd
  obtain ⟨rec, hrec, hraise⟩ := raiseTrap_enters ht false j s.cur.pc ((encodeScalar (.atom d o op ty r)).setWidth 96) s.cur.pc
  refine ⟨rec, hrec, ?_⟩
  rw [exec_atom_faults hrep htr hx, hd, if_neg (by decide), finish_traps hj, ← atom_curG htr, hraise]

/-- A deferred fault posts its record and logs the atomic with its operands, and the stream goes on (R318 to R320). -/
theorem exec_atom_defers (hd : i.cause.deferred = true) :
    let srcs := (match op with | .oclose => [] | .cas => [s.cur.sr d, s.cur.sr (d + 1)] | _ => [s.cur.sr d]) ++ [s.cur.sr o]
    ∃ t l rec, exec (.atom d o op ty r) s = .next t ∧ t.cur = { s1.cur with pc := s1.cur.pc + 4, slog := some l } ∧ l.addr = s.cur.pc ∧
      l.valid = false ∧ l.lane = false ∧ (∀ k, k < srcs.length → l.scalars.extractLsb' (64 * k) 64 = srcs.getD k 0) ∧
      RecordOf rec i.cause s.cur.pc ∧ (t.part s1.cur.part).waiting = (s1.part s1.cur.part).waiting ++ [rec] ∧
      t = { s1 with groups := t.groups, parts := t.parts } := by
  intro srcs
  have hcur : s1.group s.curG = s1.cur := by rw [State.cur, atom_curG htr]
  let word := (encodeScalar (.atom d o op ty r)).setWidth 96
  let x : Srcs := { sc := (List.range (atomSrcs op)).map (s.cur.srAt d) ++ [s.cur.sr o] }
  let j : Info := { i with va := s.cur.sr o, vlane := none }
  let s2 := s1.postDeferred s.curG false [j] false s.cur.pc word
  let rec' := groupRecord 0 s.curG s1.cur j false s.cur.pc word 0 0 false
  let l : OpLog := { x.toLog s.cur.pc word false with valid := false, record := groupRecord 0 s.curG s2.cur j false s.cur.pc word 0 0 false }
  have hsc : x.sc = srcs := atomScalars s.cur d o op
  have hlen : srcs.length ≤ 4 := by cases op <;> simp [srcs]
  have hpost : s2 = s1.post s1.cur.part [rec'] := by
    change s1.post (s1.group s.curG).part [groupRecord 0 s.curG (s1.group s.curG) j false s.cur.pc word 0 0 false] = _
    rw [hcur]
  refine ⟨s2.logIt false false l, l, rec', ?_, ?_, rfl, rfl, rfl, fun k hk => ?_, recordOf_groupRecord .., ?_, ?_⟩
  · rw [exec_atom_faults hrep htr hx, hd, if_pos rfl]
    rfl
  · change (s2.setCur _).cur = _
    rw [State.cur_setCur, hpost]
    rfl
  · have hlog := logged_scalar x s.cur.pc word false (hsc ▸ hlen) (hsc ▸ hk)
    rw [List.getD_eq_getElem _ _ hk, ← List.getElem_of_eq hsc]
    exact hlog
  · change (s2.part s1.cur.part).waiting = _
    rw [hpost, State.post, State.part_setPart_same]
  · change s2.setCur _ = _
    rw [hpost]
    rfl

end

/-! Settlement -/

/-- The walk, level by level (R17 to R23). -/
theorem walk_ends {s : State} {die : BitVec 3} {n : BitVec 20} {va : W64} {tab : Nat → Nat} {m : Nat} {lo : W64}
    (hm : m ≤ 2) (hbad : ∀ i, i ≤ m → s.bad (entryAt va i (tab i)) 8 = false)
    (hgo : walkTables s die n va = walkFrom s va 3 0 (paOf (lo.extractLsb' 49 3) 0 ((lo.extractLsb' 16 30).toNat * 2 ^ 16)))
    (h0 : tab 0 = paOf (lo.extractLsb' 49 3) 0 ((lo.extractLsb' 16 30).toNat * 2 ^ 16))
    (htab : ∀ i, i < m → bitOf (s.read64 (entryAt va i (tab i))) 0 = true ∧ bitOf (s.read64 (entryAt va i (tab i))) 1 = false ∧
      plainEntry (s.read64 (entryAt va i (tab i))) ∧
      tab (i + 1) = paOf ((s.read64 (entryAt va i (tab i))).extractLsb' 49 3) 0
        (((s.read64 (entryAt va i (tab i))).extractLsb' 16 30).toNat * 2 ^ 16)) :
    let a := entryAt va m (tab m)
    let e := s.read64 a
    (bitOf e 0 = true → bitOf e 1 = true → (checkLeaf s m e = none → walkTables s die n va = .leaf m e a) ∧
      ∀ c, checkLeaf s m e = some c → walkTables s die n va = .bad c e) ∧
    (bitOf e 0 = true → bitOf e 1 = false → m = 2 ∨ ¬ plainEntry e → walkTables s die n va = .bad 4 e) ∧
    (bitOf e 0 = false → walkTables s die n va = if isZeroFill m e then .zeroFill e a else .bad 3 e) := by
  have hb := hbad m le_rfl
  rw [hgo, ← h0, walkFrom_tables hm hbad htab]
  exact ⟨walkFrom_leaf hm hb, walkFrom_broken hm hb, walkFrom_absent hm hb⟩

/-- Settles O30: each clause by the lemma about the function that it speaks of: `translate_untranslated`, `walkTables_entry` and `walk_ends`,
`checkLeaf_eq`, `run_translateWalk` with the lemmas about `leafEnd`, `translate_tlb` and `translate_fill`, `run_firstTouch`,
`takeFrame_good`, `exec_atom_traps` and `exec_atom_defers`. -/
theorem translationFaults : Obligations.TranslationFaults := by
  refine ⟨?_, ?_, ?_, ?_, ?_, ?_, ?_, ?_⟩
  · intro s ag va k hb
    obtain ⟨hoff, hcan⟩ := translate_untranslated hb k
    exact ⟨fun h => ⟨_, hoff h, rfl, rfl, rfl⟩, fun h hc => ⟨_, hcan h hc, rfl, rfl, rfl⟩⟩
  · intro s die n va tab m lo hi at' ent clear plain hbp hbad hm
    obtain ⟨h2, h4, hgo⟩ := walkTables_entry va hbp rfl rfl
    refine ⟨h2, h4, fun hp hc h0 htab => ?_⟩
    obtain ⟨hleaf, hbroken, habsent⟩ := walk_ends hm hbad (hgo hp hc) h0 htab
    refine ⟨hleaf, hbroken, fun hp0 => ⟨fun hz => ?_, fun hz => ?_⟩⟩
    · exact (habsent hp0).trans (if_pos ((isZeroFill_iff _ _).2 hz))
    · exact (habsent hp0).trans (if_neg fun h => hz ((isZeroFill_iff _ _).1 h))
  · intro s lvl e hlvl region frame zero broken hz
    have hite {c : Prop} [Decidable c] {o : Option (BitVec 4)} (h : o = if c then none else some 5) : (o = none ↔ c) ∧ (o = none ∨ o = some 5) := by
      subst h
      split <;> simp_all
    exact ⟨checkLeaf_broken hz, checkLeaf_reserved hz, fun hb h1 h4 => hite (checkLeaf_region hz hb h1 h4),
      fun hb h0 hn hzero => hite (checkLeaf_hbm hz hb h0 ((bitsOf_eq_zero _ _ _).2 hn) hzero)⟩
  · intro s ag va k m hb run faults writes
    have hrun : run = (walkEnd s ag va k m (walkTables s ag.die ag.pasid va)).run s := run_translateWalk s ag va k m
    have hfaults {c e} (h : run = .error (.fault (xlatInfo s ag va k c e)) s) : faults c e := ⟨_, h, rfl, rfl, rfl, rfl⟩
    refine ⟨fun c e hw => hfaults ?_, fun e a hw => ⟨fun i s1 hft => ?_, fun s1 hft => ?_⟩, fun lvl e a hw => ?_⟩ <;> rw [hw] at hrun
    · exact hrun.trans (run_xlatFault hb k c e)
    · rw [hrun, walkEnd, run_bind, hft]
    · rw [hrun, walkEnd, run_bind, hft]
    · refine ⟨fun ⟨h8, hp⟩ => hfaults (hrun.trans (leafEnd_sys hb h8 hp)), fun hperm => ⟨fun hwr h2 h15 => hfaults ?_, fun hwr h2 h15 s1 hft => ?_,
        fun hk h3 => hfaults ?_, fun hwr h2 h6 => hfaults ?_, fun hgrant hx => ?_⟩⟩
      · exact hrun.trans (leafEnd_readonly hb hperm ((writes_iff k).2 hwr) h2 h15)
      · exact hrun.trans (leafEnd_zero hperm ((writes_iff k).2 hwr) h2 h15 hft)
      · exact hrun.trans (leafEnd_fetch hb hperm hk h3)
      · exact hrun.trans (leafEnd_migrating hb hperm ((writes_iff k).2 hwr) h2 h6)
      · have hend := hrun.trans (leafEnd_granted hperm (fun h => hgrant ((writes_iff k).1 h)) hx)
        refine ⟨fun h7 => ⟨s.noteStall a lvl, hend.trans (if_pos h7), mem_noteStall s a lvl, noteStall_eq s a lvl⟩, fun h7 => ?_⟩
        refine ⟨markedLeaf k e, _, hend.trans ((if_neg (Bool.eq_false_iff.1 h7)).trans ?_), fun i hi => getLsbD_markedLeaf k e hi, rfl⟩
        rw [bitsOf_zero]
  · intro s s1 ag va k c hc hon hcan serves
    refine ⟨fun t ht hnode => ?_, fun pa e lvl hnone hwalk hlvl hnode => ?_⟩
    · rw [← bitsOf_zero] at hnode ⊢
      exact translate_tlb hc hon hcan ht hnode
    · obtain ⟨heq, htlb, hother⟩ := fillTlb_spec s1 c ag.pasid va e hlvl
      exact ⟨_, translate_fill hc hon hcan (List.find?_eq_none.2 fun t ht => Bool.eq_false_iff.1 (hnone t ht)) hwalk hnode, heq, htlb, hother⟩
  · intro s s1 ag va e f k a zf hb hint flag home hset hnone off writes take leafOf
    have hhome : hintHome hint ag.die = home := hintHome_eq hset hnone
    have hoff : touchOff s ag va = true ↔ off := by
      simp only [touchOff, Bool.or_eq_true, hintFlag_iff, Bool.not_eq_true', or_assoc, off, flag, ← hhome]
      rfl
    have hflag : hintFlag hint 128 = true ↔ flag 128 := hintFlag_iff hint 128
    refine ⟨fun h => ⟨_, firstTouch_off hb (hoff.2 h), rfl, rfl⟩, fun h => ?_⟩
    have hon : touchOff s ag va = false := Bool.eq_false_iff.2 fun h' => h (hoff.1 h')
    refine ⟨fun hz hw hf => ⟨zeroFrameLeaf (s.die home).zeroFrame e, zeroFrameLeaf_touched _ _, ?_⟩, fun hfr => ?_⟩
    · rw [← hhome]
      exact firstTouch_zero hb hon hz (Bool.eq_false_iff.2 fun h => hw ((writes_iff k).1 h)) (hflag.2 hf)
    have hfresh : zf = false ∨ k.writes = true ∨ hintFlag hint 128 = false :=
      hfr.imp_right (Or.imp (writes_iff k).2 fun h => Bool.eq_false_iff.2 fun h' => h (hflag.1 h'))
    have htake : take = (takeFrame (hintHome hint ag.die) va k (poolCount (s.die (hintHome hint ag.die)))).run s := by rw [hhome]
    have hk : (k == .write || k == .atomic) = k.writes := by cases k <;> rfl
    rw [htake]
    refine ⟨fun ht hb1 => ⟨_, firstTouch_empty hb hon hfresh ht hb1, rfl, rfl⟩, fun ht hz => ⟨freshLeaf zf k.writes f e, ?_, ?_⟩,
      fun ht hz hw => ⟨freshLeaf zf k.writes f e, ?_, ?_⟩⟩
    · rw [hk]
      have h := freshLeaf_touched zf k.writes f e
      rwa [hz] at h ⊢
    · exact (firstTouch_fresh hb hon hfresh ht).trans (by rw [hz]; rfl)
    · have h := freshLeaf_touched zf k.writes f e
      rwa [hz, (writes_iff k).2 hw] at h ⊢
    · exact (firstTouch_fresh hb hon hfresh ht).trans (by rw [hz]; rfl)
  · intro s die va k n d e
    refine ⟨takeFrame_empty, fun hne hb hg => ?_⟩
    obtain ⟨t, hrun, hhead, hready, hmem⟩ := takeFrame_good (va := va) (k := k) (n := n) hne hb hg
    refine ⟨t, hrun, hhead, hready, fun hz => ⟨fun b h1 h2 => ?_, fun b hb => ?_⟩⟩
    · exact (hmem b).trans (if_pos ⟨hz, h1, h2⟩)
    · exact (hmem b).trans (if_neg fun h => hb.elim (fun hlt => absurd h.2.1 (Nat.not_le.2 hlt)) (fun hle => absurd h.2.2 (Nat.not_lt.2 hle)))
  · intro s s1 d o op ty r i hrep htr hx srcs
    exact ⟨exec_atom_traps hrep htr hx, fun hd _ => exec_atom_defers hrep htr hx hd⟩

end Sys2Proof.Machine
end

section
/-! PROOFS. An access from outside at an address of another node, and the refutation of O59. -/

set_option Elab.async false

namespace Sys2Proof.Machine

/-- Nothing of this package is written at an address of another node (R15). -/
theorem outerPiece_otherNode (s : State) (priv : Bool) (may : Nat → Bool) {p : Nat × List Byte} (h : paNode p.1 ≠ 0) :
    s.outerPiece priv may p = s := by
  have hmem : inMemory p.1 = false := by simp [inMemory, h]
  rw [State.outerPiece, if_neg (by simp [hmem]), if_pos (.inl h)]

/-- A write all of whose pieces lie on another node leaves everything as it is. -/
theorem outerWrite_otherNode (s : State) (priv : Bool) (may : Nat → Bool) {pa : Nat} {l : List Byte} (hpa : paNode pa ≠ 0)
    (hl : ∀ p ∈ regPieces pa l, paNode p.1 ≠ 0) : s.outerWrite priv may pa l = s := by
  have hmem : inMemory pa = false := by simp [inMemory, hpa]
  rw [State.outerWrite, if_neg (by simp [hmem])]
  generalize regPieces pa l = ps at hl
  induction ps with
  | nil => rfl
  | cons p ps ih =>
    obtain ⟨hp, hps⟩ := List.forall_mem_cons.1 hl
    rw [List.foldl_cons, outerPiece_otherNode s priv may hp]
    exact ih hps

/-- What the management link writes: the debug port and nothing else (R388). -/
theorem exec_hostAccess_management (s : State) (sys : Bool) (a : W64) (n : Size) (v : BitVec 128) :
    exec (.hostAccess .management sys a n (some v)) s =
      .next (if isDebugPort a.toNat then s.outerWrite true isDebugPort a.toNat (natToBytes (sizeBytes n) v.toNat) else s) := rfl

/-- The offset of the debug port, at node 1. -/
def farPort : W64 := 0x0010C00000004000#64

/-- The management link writes nothing at node 1, though the address has the debug port's die, region and offset. -/
theorem exec_hostAccess_farPort (s : State) : exec (.hostAccess .management false farPort .b64 (some 0)) s = .next s := by
  have hnode : ∀ p ∈ regPieces farPort.toNat (natToBytes 8 0), paNode p.1 ≠ 0 := by decide
  have hport : isDebugPort farPort.toNat = true := by decide
  rw [exec_hostAccess_management, if_pos hport]
  exact congrArg Host.Outcome.next (outerWrite_otherNode s _ _ (by decide) hnode)

/-- Refutes O59: the clause of the management link asks of every address that `isDebugPort` accepts that a write of it queues a register
write, and `isDebugPort` does not look at the address's node; at node 1 (`farPort`) the write changes nothing, so the agenda after reset
stays empty. -/
theorem not_registersAndOutsideAccesses : ¬ Obligations.RegistersAndOutsideAccesses := by
  intro h
  obtain ⟨_, _, haccess, _⟩ := h
  obtain ⟨_, _, _, _, hport, _⟩ := haccess State.reset 0 .management false false farPort .b64 0
  have hqueued := hport (by decide) rfl rfl (by decide)
  have hsame := (exec_hostAccess_farPort State.reset).symm.trans hqueued
  have hagenda : State.reset.agenda = [.event (.registerWrite farPort 0)] := congrArg State.agenda (Host.Outcome.next.inj hsame)
  exact List.cons_ne_nil _ _ hagenda.symm

end Sys2Proof.Machine
end

section
/-! PROOFS. The state after reset (O48). -/

set_option Elab.async false

namespace Sys2Proof.Machine

/-- A die after reset, by its number. -/
theorem reset_die (d : BitVec 3) : State.reset.die d = resetDie d.toNat := by
  have hd := d.isLt
  unfold State.die
  generalize d.toNat = k at hd ⊢
  interval_cases k <;> rfl

/-- Settles O48: the tables that are empty after reset read as their records' defaults, and each die is listed (`reset_die`). -/
theorem resetState : Obligations.ResetState := by
  refine ⟨⟨reset_mem_wf, rfl, rfl, rfl, fun i hi => absurd hi List.not_mem_nil⟩, fun _ => rfl, rfl, rfl, fun d => ?_, fun d c => ?_, fun c => ?_,
    fun p => ⟨rfl, rfl, rfl, rfl, rfl⟩, fun i => ⟨rfl, rfl⟩, rfl, rfl, rfl, fun _ => rfl⟩
  · have hq (q : BitVec 7) : State.reset.queue d q = {} := by rw [State.queue, reset_die]; rfl
    rw [reset_die]
    exact ⟨rfl, rfl, rfl, rfl, rfl, fun q => by rw [hq]; exact ⟨rfl, rfl, rfl, rfl⟩⟩
  · rw [State.ctr, reset_die]
    exact ⟨rfl, rfl⟩
  · refine ⟨rfl, rfl, rfl, rfl, fun p => ?_⟩
    change (Vector.replicate 8 (0 : W64))[p] = 0 ∧ (Vector.replicate 8 (0 : W64))[p] = 0
    simp
end Sys2Proof.Machine
end

section
/-! PROOFS. The operations that a trap is made of: the settling of a group, the lines, the completion of an `invpg`, the array's freeze,
and the writing of a state area. -/

set_option Elab.async false

namespace Sys2Proof.Machine

/-! Settling: issued results and tile loads reach register space and the result queues (R249, R107) -/

theorem writeQueued_eq (g : Group) (x : Queued) :
    g.writeQueued x = { g with rg := (g.writeQueued x).rg, y := (g.writeQueued x).y, ln := (g.writeQueued x).ln } := by
  unfold Group.writeQueued
  split
  · rw [putVec_eq]
  · rw [pushY_eq]

theorem drainQueues_eq (g : Group) :
    g.drainQueues = { g with rg := g.drainQueues.rg, y := g.drainQueues.y, ln := g.drainQueues.ln } := by
  have hall (l : List Queued) : let z := l.foldl Group.writeQueued g; z = { g with rg := z.rg, y := z.y, ln := z.ln } := by
    refine List.foldlRecOn (motive := fun z : Group => z = { g with rg := z.rg, y := z.y, ln := z.ln }) l _ rfl fun z hz x _ => ?_
    rw [writeQueued_eq z x, hz]
  unfold Group.drainQueues
  split
  · rfl
  · dsimp only
    rw [hall]

theorem landTlds_eq (g : Group) : g.landTlds = { g with rg := g.landTlds.rg, ln := g.landTlds.ln } := by
  unfold Group.landTlds
  split <;> rfl

/-- Settling changes register space, the result queues and the lane stream, nothing else of a group. -/
theorem settle_eq (g : Group) : g.settle = { g with rg := g.settle.rg, y := g.settle.y, ln := g.settle.ln } := by
  unfold Group.settle
  rw [landTlds_eq, drainQueues_eq]

/-! Leaving the lines (R311) -/

theorem leaveLines_eq (s : State) (gid : Gid) :
    s.leaveLines gid = { s with cores := (s.leaveLines gid).cores, dies := (s.leaveLines gid).dies } := by
  unfold State.leaveLines
  dsimp only
  split <;> split <;> rfl

theorem leaveLines_core (s : State) (gid : Gid) (c : BitVec 10) :
    let m := ((s.leaveLines gid).core c).mx
    (s.leaveLines gid).core c = { s.core c with mx := { (s.core c).mx with line := m.line, reqs := m.reqs, waiting := m.waiting } } := by
  have hdie (t : State) {p : Prop} [Decidable p] (x : Die) : (if p then t.setDie gid.die x else t).core c = t.core c := by
    split <;> rfl
  unfold State.leaveLines
  dsimp only
  rw [hdie]
  split
  · by_cases hc : c = gid.core
    · subst hc
      rw [State.core_setCore_same]
    · rw [State.core_setCore_other _ _ hc]
  · rfl

/-! The array's freeze (R146) -/

theorem freezeArray_eq (s : State) (gid : Gid) :
    s.freezeArray gid = { s with cores := (s.freezeArray gid).cores, dies := (s.freezeArray gid).dies } := by
  unfold State.freezeArray
  dsimp only
  split
  · split <;> rfl
  · rfl

theorem freezeArray_tlb (s : State) (gid : Gid) (c : BitVec 10) : ((s.freezeArray gid).core c).tlb = (s.core c).tlb := by
  unfold State.freezeArray
  dsimp only
  split
  · rw [State.core_setCore]
    split
    · rename_i hc
      rw [hc]
    · split <;> rfl
  · rfl

theorem freezeArray_mx {s : State} {gid : Gid} (h : s.holds gid = true) :
    ((s.freezeArray gid).mx gid).mode = .frozen ∧ ((s.freezeArray gid).mx gid).token = false := by
  rw [State.mx, State.freezeArray, if_pos h, State.core_setCore_same]
  exact ⟨rfl, rfl⟩

/-! The completion of an `invpg` (R54, R206, R316) -/

/-- Invalidation leaves of every group all but its windows and its handler's record of the interrupted program. -/
theorem invalidate_group_eq (s : State) (f : BitVec 3 → Bool) (n : BitVec 20) (va len : Nat) (x : Gid) :
    let y := (s.invalidate f n va len).group x
    y = { s.group x with win := y.win, h := y.h } := by
  intro y
  by_cases hlen : len = 0
  · have hy : y = s.group x := by unfold y; rw [State.invalidate, if_pos hlen]
    rw [hy]
  · rcases invalidate_group s f n va hlen x with ⟨_, h⟩ | ⟨_, h⟩
    · have hy : y = (s.group x).invalidate n va len := h
      rw [hy, group_invalidate_eq]
    · have hy : y = s.group x := h
      rw [hy]

theorem invalidate_mx (s : State) (f : BitVec 3 → Bool) (n : BitVec 20) (va len : Nat) (c : BitVec 10) :
    ((s.invalidate f n va len).core c).mx = (s.core c).mx := by
  unfold State.invalidate
  split
  · rfl
  · refine Tab.get_map (fun x y => x.mx = y.mx) {} s.cores _ (fun p => ?_) rfl (fun p => ?_) c.toNat
    · split <;> rfl
    · split <;> rfl

/-- What an invalidation leaves of the TLBs depends on the TLBs alone. -/
theorem invalidate_tlb_congr {s t : State} (h : ∀ c, (t.core c).tlb = (s.core c).tlb) (f : BitVec 3 → Bool) (n : BitVec 20)
    (va len : Nat) (c : BitVec 10) : ((t.invalidate f n va len).core c).tlb = ((s.invalidate f n va len).core c).tlb := by
  by_cases hlen : len = 0
  · rw [State.invalidate, State.invalidate, if_pos hlen, if_pos hlen, h]
  · rw [invalidate_tlb t f n va hlen, invalidate_tlb s f n va hlen, h]

/-- Where a group that takes a trap returns to: behind an `invpg` that it waits at, else at the trap's own place (R316). -/
def Group.returnPc (g : Group) (pc : W64) : W64 := match g.wait with | .invpg .. => g.pc + 4 | _ => pc

theorem completeInvpg_waits {s : State} {gid : Gid} {n : BitVec 20} {va len : W64} {sc : Scope} (h : (s.group gid).wait = .invpg n va len sc) :
    s.completeInvpg gid = (s.setGroup gid { s.group gid with wait := .none, pc := (s.group gid).pc + 4 }).invalidate
      (scopeDies gid.die sc) n va.toNat len.toNat := by
  unfold State.completeInvpg
  dsimp only
  rw [h]

theorem completeInvpg_other {s : State} {gid : Gid} (h : ∀ n va len sc, (s.group gid).wait ≠ .invpg n va len sc) :
    s.completeInvpg gid = s := by
  unfold State.completeInvpg
  dsimp only
  split
  · rename_i heq
    exact absurd heq (h _ _ _ _)
  · rfl

theorem returnPc_waits {g : Group} {n : BitVec 20} {va len : W64} {sc : Scope} (h : g.wait = .invpg n va len sc) (pc : W64) :
    g.returnPc pc = g.pc + 4 := by
  rw [Group.returnPc, h]

theorem returnPc_other {g : Group} (h : ∀ n va len sc, g.wait ≠ .invpg n va len sc) (pc : W64) : g.returnPc pc = pc := by
  unfold Group.returnPc
  split
  · rename_i heq
    exact absurd heq (h _ _ _ _)
  · rfl

/-- A group waits at an `invpg` or it does not. -/
theorem waits_cases (g : Group) : (∃ n va len sc, g.wait = .invpg n va len sc) ∨ ∀ n va len sc, g.wait ≠ .invpg n va len sc := by
  by_cases h : ∃ n va len sc, g.wait = .invpg n va len sc
  · exact .inl h
  · exact .inr fun n va len sc e => h ⟨n, va, len, sc, e⟩

theorem completeInvpg_group (s : State) (gid : Gid) :
    let y := (s.completeInvpg gid).group gid
    y = { s.group gid with wait := y.wait, pc := (s.group gid).returnPc (s.group gid).pc, win := y.win, h := y.h } := by
  rcases waits_cases (s.group gid) with ⟨n, va, len, sc, h⟩ | h
  · rw [completeInvpg_waits h, returnPc_waits h, invalidate_group_eq, State.group_setGroup_same]
  · rw [completeInvpg_other h, returnPc_other h]

theorem completeInvpg_part (s : State) (gid : Gid) (p : BitVec 3) : (s.completeInvpg gid).part p = s.part p := by
  rcases waits_cases (s.group gid) with ⟨n, va, len, sc, h⟩ | h
  · rw [completeInvpg_waits h, invalidate_eq]
    rfl
  · rw [completeInvpg_other h]

theorem completeInvpg_mx (s : State) (gid : Gid) (c : BitVec 10) : ((s.completeInvpg gid).core c).mx = (s.core c).mx := by
  rcases waits_cases (s.group gid) with ⟨n, va, len, sc, h⟩ | h
  · rw [completeInvpg_waits h, invalidate_mx, State.setGroup_core]
  · rw [completeInvpg_other h]

/-- What the completion leaves of the TLBs depends on the TLBs and on the group's wait alone. -/
theorem completeInvpg_tlb_congr {s t : State} {gid : Gid} (hw : (t.group gid).wait = (s.group gid).wait)
    (h : ∀ c, (t.core c).tlb = (s.core c).tlb) (c : BitVec 10) :
    ((t.completeInvpg gid).core c).tlb = ((s.completeInvpg gid).core c).tlb := by
  rcases waits_cases (s.group gid) with ⟨n, va, len, sc, hs⟩ | hs
  · rw [completeInvpg_waits hs, completeInvpg_waits (hw.trans hs)]
    exact invalidate_tlb_congr (s := s.setGroup gid _) (t := t.setGroup gid _) h _ _ _ _ c
  · rw [completeInvpg_other hs, completeInvpg_other (hw ▸ hs), h]

/-! A state area in memory (R326, R331) -/

/-- What the clearing of an area brings about and every write keeps holds once the area is written. -/
theorem writeArea_induct {P : State → Prop} {s : State} {a : Nat} (hclear : P (s.zeroRange a 0x6000))
    (hwrite : ∀ t pa l, P t → P (t.write pa l)) (ws : List (Nat × Nat × Nat)) : P (s.writeArea a ws) :=
  List.foldlRecOn ws _ hclear fun t ht _ _ => hwrite t _ _ ht

theorem writeArea_core (s : State) (a : Nat) (ws : List (Nat × Nat × Nat)) (c : BitVec 10) : (s.writeArea a ws).core c = s.core c :=
  writeArea_induct (P := fun t => t.core c = s.core c) rfl (fun _ _ _ ht => ht) ws

theorem writeArea_part (s : State) (a : Nat) (ws : List (Nat × Nat × Nat)) (p : BitVec 3) : (s.writeArea a ws).part p = s.part p :=
  writeArea_induct (P := fun t => t.part p = s.part p) rfl (fun _ _ _ ht => ht) ws

/-- Writing a state area fires monitors and does nothing else to the groups. -/
theorem writeArea_group (s : State) (a : Nat) (ws : List (Nat × Nat × Nat)) (g : Gid) :
    (s.writeArea a ws).group g = { s.group g with fired := ((s.writeArea a ws).group g).fired } :=
  writeArea_induct (P := fun t => t.group g = { s.group g with fired := (t.group g).fired }) (fireMonitors_get ..)
    (fun t pa l ht => by rw [write_group, ht]) ws

/-- The words that come later, all behind a word, leave it as it is. -/
theorem peek_foldl_write (s : State) (a o n : Nat) (ws : List (Nat × Nat × Nat)) (h : ∀ w ∈ ws, o + n ≤ w.1) :
    peek (ws.foldl (fun s w => s.write (a + w.1) (natToBytes w.2.1 w.2.2)) s).mem (a + o) n = peek s.mem (a + o) n :=
  List.foldlRecOn (motive := fun t : State => peek t.mem (a + o) n = peek s.mem (a + o) n) ws _ rfl fun t ht w hw =>
    (peek_congr _ _ fun b _ hb => get_pokeBytes_outside _ _ _ b (.inl (by have := h w hw; omega))).trans ht

/-- Each word of a state area whose words rise reads back as it was written. -/
theorem peek_writeArea (s : State) (a : Nat) {ws : List (Nat × Nat × Nat)} (hws : ws.Pairwise fun v w => v.1 + v.2.1 ≤ w.1)
    {o n v : Nat} (h : (o, n, v) ∈ ws) : peek (s.writeArea a ws).mem (a + o) n = v % 256 ^ n := by
  unfold State.writeArea
  generalize s.zeroRange a 0x6000 = t
  induction ws generalizing t with
  | nil => exact absurd h List.not_mem_nil
  | cons w ws ih =>
    obtain ⟨hbehind, hrise⟩ := List.pairwise_cons.1 hws
    rw [List.foldl_cons]
    rcases List.mem_cons.1 h with rfl | h
    · rw [peek_foldl_write _ _ _ _ _ hbehind]
      exact peek_pokeBytes ..
    · exact ih hrise h _

theorem word_writeArea (s : State) (a : Nat) {ws : List (Nat × Nat × Nat)} (hws : ws.Pairwise fun v w => v.1 + v.2.1 ≤ w.1)
    {o n v : Nat} (h : (o, n, v) ∈ ws) : BitVec.ofNat (8 * n) (peek (s.writeArea a ws).mem (a + o) n) = BitVec.ofNat (8 * n) v := by
  apply BitVec.eq_of_toNat_eq
  rw [peek_writeArea s a hws h, BitVec.toNat_ofNat, BitVec.toNat_ofNat, Nat.pow_mul, Nat.mod_mod]

/-- Where the words of an image lie, and how many bytes each has (R327, R331). -/
def areaSpans : List (Nat × Nat) :=
  [(0x000, 8), (0x008, 8), (0x010, 8), (0x018, 8), (0x020, 8), (0x028, 8), (0x030, 8), (0x038, 8), (0x040, 8), (0x048, 8), (0x080, 64),
   (0x100, 256), (0x200, 512), (0x400, 128), (0x480, 56), (0x4C0, 32), (0x500, 512), (0x700, 192), (0x7C0, 152), (0x858, 8),
   (0x860, 64), (0x900, 2048), (0x1100, 2048), (0x1900, 512), (0x2000, 8192), (0x4000, 2048), (0x4800, 2048)]

theorem areaWords_rise (gid : Gid) (g : Group) (pc : W64) (lpc : BitVec 20) (cause : BitVec 8) (resumable : Bool) (record : BitVec 512)
    (holder : Bool) (remain : W64) :
    (areaWords gid g pc lpc cause resumable record holder remain).Pairwise fun v w => v.1 + v.2.1 ≤ w.1 := by
  have hspans : (areaWords gid g pc lpc cause resumable record holder remain).map (fun w => (w.1, w.2.1)) = areaSpans := rfl
  have hrise : areaSpans.Pairwise fun v w => v.1 + v.2 ≤ w.1 := by decide
  rw [← hspans] at hrise
  exact List.pairwise_map.1 hrise

/-- A bit of packed fields is a bit of the lowest field or of those above it. -/
theorem testBit_packFields_cons (w v : Nat) (t : List (Nat × Nat)) (i : Nat) :
    (packFields ((w, v) :: t)).testBit i = if i < w then v.testBit i else (packFields t).testBit (i - w) := by
  rw [packFields, Nat.add_comm, Nat.testBit_two_pow_mul_add _ (Nat.mod_lt _ (by positivity)), Nat.testBit_mod_two_pow]
  split
  · rename_i h
    rw [decide_eq_true h, Bool.true_and]
  · rfl

section

variable (s : State) (gid : Gid) (a : Nat) (g : Group) (pc : W64) (lpc : BitVec 20) (cause : BitVec 8) (resumable : Bool)
  (record : BitVec 512) (holder : Bool) (remain : W64)

/-- The image's first word is the pc to return to. -/
theorem read64_area_pc :
    (s.writeArea a (areaWords gid g pc lpc cause resumable record holder remain)).read64 a = pc :=
  (word_writeArea s a (areaWords_rise ..) (List.mem_of_getElem? (i := 0) rfl)).trans ((BitVec.ofNat_toNat ..).trans pc.setWidth_eq)

/-- The trap's record lies at 0x080. -/
theorem record_area :
    BitVec.ofNat 512 (peek (s.writeArea a (areaWords gid g pc lpc cause resumable record holder remain)).mem (a + 0x80) 64) = record :=
  (word_writeArea s a (areaWords_rise ..) (List.mem_of_getElem? (i := 10) rfl)).trans ((BitVec.ofNat_toNat ..).trans record.setWidth_eq)

/-- The state word at 0x018 says that the image is valid, and whether it can be resumed. -/
theorem read64_area_state :
    let w := (s.writeArea a (areaWords gid g pc lpc cause resumable record holder remain)).read64 (a + 0x18)
    w.getLsbD 63 = true ∧ w.getLsbD 62 = resumable := by
  intro w
  have hw := word_writeArea s a (areaWords_rise gid g pc lpc cause resumable record holder remain) (List.mem_of_getElem? (i := 3) rfl)
  change w = BitVec.ofNat 64 _ at hw
  have hlow : resumable.toNat.testBit 0 = resumable := by cases resumable <;> rfl
  rw [hw, BitVec.getLsbD_ofNat, BitVec.getLsbD_ofNat]
  simp [testBit_packFields_cons, hlow, Nat.testBit_one_zero, -Nat.testBit_zero]

end

end Sys2Proof.Machine
end

section
/-! PROOFS. What a group's entry into its handler leaves (O12). -/

set_option Elab.async false

namespace Sys2Proof.Machine

/-- The machine as the trap frame is written: the group out of its lines and settled, its `invpg` complete, its array frozen (R316). -/
def State.trapReady (s : State) (gid : Gid) : State :=
  (((s.leaveLines gid).setGroup gid (s.group gid).settle).completeInvpg gid).freezeArray gid

section

variable (s : State) (gid : Gid)

/-- The group as the trap frame is written: settled, and past an `invpg` that it waited at. -/
theorem trapReady_group :
    let y := (s.trapReady gid).group gid
    y = { (s.group gid).settle with wait := y.wait, pc := (s.group gid).returnPc (s.group gid).pc, win := y.win, h := y.h } := by
  let u := (s.leaveLines gid).setGroup gid (s.group gid).settle
  have hu : u.group gid = (s.group gid).settle := State.group_setGroup_same ..
  have hready : (s.trapReady gid).group gid = (u.completeInvpg gid).group gid := by
    rw [State.trapReady, freezeArray_eq]
    rfl
  have hpc : (s.group gid).settle.returnPc (s.group gid).settle.pc = (s.group gid).returnPc (s.group gid).pc := by
    rw [settle_eq]
    rfl
  rw [hready, completeInvpg_group, hu, hpc]

theorem trapReady_part (p : BitVec 3) : (s.trapReady gid).part p = s.part p := by
  have hfreeze (t : State) : (t.freezeArray gid).part p = t.part p := by rw [freezeArray_eq]; rfl
  have hleave : (s.leaveLines gid).part p = s.part p := by rw [leaveLines_eq]; rfl
  rw [State.trapReady, hfreeze, completeInvpg_part, State.setGroup_part, hleave]

/-- The TLBs are as the completion of the group's own `invpg` leaves them (R54, R206). -/
theorem trapReady_tlb (c : BitVec 10) : ((s.trapReady gid).core c).tlb = ((s.completeInvpg gid).core c).tlb := by
  rw [State.trapReady, freezeArray_tlb]
  refine completeInvpg_tlb_congr ?_ (fun c => ?_) c
  · rw [State.group_setGroup_same, settle_eq]
  · rw [State.setGroup_core, leaveLines_core]

/-- The array that the group held is frozen and has given its token back (R145, R146). -/
theorem trapReady_mx (h : s.holds gid = true) : ((s.trapReady gid).mx gid).mode = .frozen ∧ ((s.trapReady gid).mx gid).token = false := by
  refine freezeArray_mx ?_
  rw [State.holds, completeInvpg_mx, State.setGroup_core, leaveLines_core]
  exact h

end

/-- The handler's start changes `s62` and `s63` and no other scalar register (R326). -/
theorem startHandler_sr (g : Group) (p : Part) (a : Nat) (c : Cause) (now : W64) :
    (g.startHandler p a c now).sr 62 = BitVec.ofNat 64 a ∧ (g.startHandler p a c now).sr 63 = BitVec.ofNat 64 c.code.toNat ∧
    ∀ q, q ≠ 62 → q ≠ 63 → (g.startHandler p a c now).sr q = g.sr q := by
  have hs (q : SReg) : (g.startHandler p a c now).sr q =
      ((g.setSr 62 (BitVec.ofNat 64 a)).setSr 63 (BitVec.ofNat 64 c.code.toNat)).sr q := rfl
  refine ⟨?_, ?_, fun q h62 h63 => ?_⟩
  · rw [hs, Group.sr_setSr_other _ _ (by decide), Group.sr_setSr_same]
  · rw [hs, Group.sr_setSr_same]
  · rw [hs, Group.sr_setSr_other _ _ h63, Group.sr_setSr_other _ _ h62]

/-- The pc that the trap frame holds: a group that its completed `invpg` has moved on returns to the next word (R316). -/
theorem returnPc_moved (g : Group) (pc : W64) : (if g.returnPc g.pc = g.pc then pc else g.returnPc g.pc) = g.returnPc pc := by
  rcases waits_cases g with ⟨n, va, len, sc, h⟩ | h
  · have hmoved : g.pc + 4 ≠ g.pc := by bv_omega
    rw [returnPc_waits h, returnPc_waits h, if_neg hmoved]
  · rw [returnPc_other h, returnPc_other h, if_pos rfl]

/-- The machine with the trap frame written, the group not yet in its handler. -/
def State.trapFrame (s : State) (gid : Gid) (c : Cause) (r : BitVec 512) (pc : W64) (lpc : BitVec 20) : State :=
  let u := s.trapReady gid
  let g := u.group gid
  u.writeArea (areaOf u gid g.part) (areaWords gid g (if g.pc = (s.group gid).pc then pc else g.pc) lpc c.code c.resumable r (u.holds gid)
    (u.remainOf gid g))

section

variable (s : State) (gid : Gid) (c : Cause) (r : BitVec 512) (pc : W64) (lpc : BitVec 20)

theorem areaOf_trapReady :
    areaOf (s.trapReady gid) gid ((s.trapReady gid).group gid).part = areaOf s gid (s.group gid).part := by
  rw [areaOf, trapReady_part, trapReady_group, settle_eq]
  rfl

/-- The trap frame is the group's image in its partition's context area, with the place that the group returns to. -/
theorem trapFrame_eq : ∃ g holder remain, s.trapFrame gid c r pc lpc = (s.trapReady gid).writeArea (areaOf s gid (s.group gid).part)
    (areaWords gid g ((s.group gid).returnPc pc) lpc c.code c.resumable r holder remain) := by
  have hpc : ((s.trapReady gid).group gid).pc = (s.group gid).returnPc (s.group gid).pc := congrArg Group.pc (trapReady_group s gid)
  unfold State.trapFrame
  dsimp only
  rw [areaOf_trapReady, hpc, returnPc_moved]
  exact ⟨_, _, _, rfl⟩

theorem trapFrame_group :
    let z := (s.trapFrame gid c r pc lpc).group gid
    z = { (s.group gid).settle with wait := z.wait, pc := z.pc, win := z.win, h := z.h, fired := z.fired } := by
  intro z
  have hz : z = { (s.trapReady gid).group gid with fired := z.fired } := writeArea_group ..
  rw [hz, trapReady_group]

theorem trapFrame_part (p : BitVec 3) : (s.trapFrame gid c r pc lpc).part p = s.part p :=
  (writeArea_part ..).trans (trapReady_part s gid p)

theorem trapFrame_core (k : BitVec 10) : (s.trapFrame gid c r pc lpc).core k = (s.trapReady gid).core k := writeArea_core ..

/-- Taking a trap (R316, R326): the frame is written, then the group starts its handler. -/
theorem enterHandler_eq : ∃ now, s.enterHandler gid c r pc lpc = (s.trapFrame gid c r pc lpc).setGroup gid
    (((s.trapFrame gid c r pc lpc).group gid).startHandler (s.part (s.group gid).part) (areaOf s gid (s.group gid).part) c now) := by
  have hpart : ((s.trapReady gid).group gid).part = (s.group gid).part := by rw [trapReady_group, settle_eq]
  refine ⟨((s.trapFrame gid c r pc lpc).core gid.core).cyc, ?_⟩
  rw [← areaOf_trapReady, ← trapFrame_part s gid c r pc lpc, ← hpart]
  rfl

/-- The image in the frame holds the pc to return to and the trap's record, and is marked valid and, where the cause is, resumable (R327). -/
theorem trapFrame_image :
    let a := areaOf s gid (s.group gid).part
    let f := s.trapFrame gid c r pc lpc
    f.read64 a = (s.group gid).returnPc pc ∧ BitVec.ofNat 512 (peek f.mem (a + 0x80) 64) = r ∧
    (f.read64 (a + 0x18)).getLsbD 63 = true ∧ (f.read64 (a + 0x18)).getLsbD 62 = c.resumable := by
  obtain ⟨g, holder, remain, hframe⟩ := trapFrame_eq s gid c r pc lpc
  rw [hframe]
  exact ⟨read64_area_pc .., record_area .., read64_area_state ..⟩

end

/-- Settles O12: the group of the frame (`trapFrame_group`) has started its handler, the array and the TLBs are those of `trapReady`, and the
image reads back (`trapFrame_image`). -/
theorem trapEntryState : Obligations.TrapEntryState := by
  intro s gid c r pc lpc x p a t y
  obtain ⟨now, ht⟩ := enterHandler_eq s gid c r pc lpc
  have hz := trapFrame_group s gid c r pc lpc
  have hframe := trapFrame_core s gid c r pc lpc
  obtain ⟨hpc, hrec, hvalid, hresumable⟩ := trapFrame_image s gid c r pc lpc
  generalize s.trapFrame gid c r pc lpc = f at ht hz hframe hpc hrec hvalid hresumable
  generalize f.group gid = z at ht hz
  replace ht : t = f.setGroup gid (z.startHandler p a c now) := ht
  have hy : y = z.startHandler p a c now := by
    unfold y
    rw [ht, State.group_setGroup_same]
  have hcore (k : BitVec 10) : t.core k = (s.trapReady gid).core k := by
    rw [ht, State.setGroup_core, hframe]
  have hsr : z.sr = x.sr := by rw [hz]; rfl
  have hsp : z.sp = (s.group gid).sp := by rw [hz, settle_eq]
  have hrg : z.rg = x.rg := by rw [hz]
  have hq : z.q = x.q := by rw [hz]
  have hresults : z.y = x.y := by rw [hz]
  have hremap : identityRemap z.gidx = identityRemap (s.group gid).gidx := by rw [hz, settle_eq]
  obtain ⟨h62, h63, hother⟩ := startHandler_sr z p a c now
  rw [hy]
  refine ⟨rfl, rfl, rfl, rfl, rfl, rfl, rfl, h62, h63, fun q hq62 hq63 => ?_, hsp, hrg, hq, hresults, rfl, rfl, rfl, rfl, rfl, rfl, rfl, rfl,
    hremap, fun hholds => ?_, fun k => ?_, ?_⟩
  · rw [hother q hq62 hq63, hsr]
  · rw [State.mx, hcore]
    exact trapReady_mx s gid hholds
  · rw [hcore, trapReady_tlb]
  · rw [ht]
    exact ⟨hpc, hrec, hvalid, hresumable⟩

end Sys2Proof.Machine
end

section
/-! PROOFS. Slots of the shelf: lookup, install, evict, read, publish (O38). -/

set_option Elab.async false

namespace Sys2Proof.Machine

/-! How a scalar instruction that touches only its group ends -/

/-- A cause that is not deferred, raised by a scalar instruction that has changed nothing, traps precisely (R316). -/
theorem trapsS_of_throw {i : Instr} {s : State} {j : Info} (ht : TrapEnters s) (hd : j.cause.deferred = false)
    (h : exec i s = scalarAcc i (throw (.fault j)) s) : TrapsS i s j.cause := by
  obtain ⟨rec, hrec, hraise⟩ := raiseTrap_enters ht false j s.cur.pc ((encodeScalar i).setWidth 96) s.cur.pc
  refine ⟨rec, hrec, ?_⟩
  rw [h, scalarAcc, run_throw, finish_traps hd, hraise]

theorem writesS_of_next {i : Instr} {s : State} {d : SReg} {v : W64} {P : W64 → Prop}
    (h : exec i s = .next (s.setCur (s.cur.setSr d v).pc4)) (hP : P v) : WritesS i s d P := ⟨v, h, hP⟩

/-! Fields put into a word -/

section

variable {w : Nat} (x : BitVec w) {lo n : Nat} (v : Nat)

theorem extract_putBits_same (h : lo + n ≤ w) : (putBits x lo n v).extractLsb' lo n = BitVec.ofNat n v := by
  apply BitVec.eq_of_getLsbD_eq
  intro i hi
  rw [BitVec.getLsbD_extractLsb', getLsbD_putBits _ _ _ _ _ (by omega), if_pos (by omega), BitVec.getLsbD_ofNat]
  simp [hi]

theorem extract_putBits_other {l k : Nat} (h : l + k ≤ lo ∨ lo + n ≤ l) (hw : l + k ≤ w) :
    (putBits x lo n v).extractLsb' l k = x.extractLsb' l k := by
  apply BitVec.eq_of_getLsbD_eq
  intro i hi
  rw [BitVec.getLsbD_extractLsb', BitVec.getLsbD_extractLsb', getLsbD_putBits _ _ _ _ _ (by omega), if_neg (by omega)]

end

theorem toNat_mod_eq_extract {w : Nat} (x : BitVec w) (n : Nat) : x.toNat % 2 ^ n = (x.extractLsb' 0 n).toNat :=
  (bitsOf_zero x n).symm

/-! Tags -/

section

variable (s : State) (b : Block) (i : Nat) (e : W64)

theorem tagOf_setTag (k : Nat) : (s.setTag b i e).tagOf b k = if k = i then e else s.tagOf b k := by
  simp only [State.tagOf, State.setTag, State.core_setCore_same, Sparse.get_set, Nat.add_left_cancel_iff]
@[simp] theorem tagOf_setTag_same : (s.setTag b i e).tagOf b i = e := by rw [tagOf_setTag, if_pos rfl]
theorem tagOf_setTag_other {k : Nat} (h : k ≠ i) : (s.setTag b i e).tagOf b k = s.tagOf b k := by rw [tagOf_setTag, if_neg h]
@[simp] theorem tagOf_setGroup (g : Gid) (x : Group) (k : Nat) : (s.setGroup g x).tagOf b k = s.tagOf b k := rfl
@[simp] theorem tagOf_setCur (x : Group) (k : Nat) : (s.setCur x).tagOf b k = s.tagOf b k := rfl
@[simp] theorem setTag_mem : (s.setTag b i e).mem = s.mem := rfl

end

/-! Lookup -/

/-- Bits 39:0 of an entry name its key (R70). -/
theorem key_eq_iff (e v : W64) (hv : v.toNat < 2 ^ 40) :
    (e.extractLsb' 0 40 == v.extractLsb' 0 40) = (e.toNat % 2 ^ 40 == v.toNat) := by
  rw [toNat_mod_eq_extract, ← Nat.mod_eq_of_lt hv, toNat_mod_eq_extract v, Bool.eq_iff_iff, beq_iff_eq, beq_iff_eq, BitVec.toNat_inj]

/-- What a lookup gives: the lowest valid slot of the key, else 0x100 and the lowest free slot, else 0x200 (R71). -/
theorem lookup_spec (s : State) (b : Block) (v : W64) (hv : v.toNat < 2 ^ 40) :
    let valid := fun (i : Nat) => (s.tagOf b i).getLsbD 63
    let has := fun (i : Nat) => valid i && ((s.tagOf b i).toNat % 2 ^ 40 == v.toNat)
    let x := lookup s b (v.extractLsb' 0 40)
    (∀ i, i < b.slotCount.toNat → has i = true → (∀ j, j < i → has j = false) → x.toNat = i) ∧
    ((∀ i, i < b.slotCount.toNat → has i = false) →
      (∀ i, i < b.slotCount.toNat → valid i = false → (∀ j, j < i → valid j = true) → x.toNat = 0x100 + i) ∧
      ((∀ i, i < b.slotCount.toNat → valid i = true) → x.toNat = 0x200)) := by
  intro valid has x
  have hcount := b.slotCount.isLt
  have hhas : (fun i => bitOf (s.tagOf b i) 63 && (s.tagOf b i).extractLsb' 0 40 == v.extractLsb' 0 40) = has :=
    funext fun i => by rw [key_eq_iff _ _ hv]; rfl
  have hx : x = match (List.range b.slotCount.toNat).find? has with
      | some i => BitVec.ofNat 64 i
      | none => match (List.range b.slotCount.toNat).find? (fun i => !valid i) with
        | some i => BitVec.ofNat 64 (0x100 + i)
        | none => 0x200 := by rw [← hhas]; rfl
  have hsome {p : Nat → Bool} {i : Nat} (hi : i < b.slotCount.toNat) (hp : p i = true) (hbelow : ∀ j, j < i → p j = false) :
      (List.range b.slotCount.toNat).find? p = some i := by
    rw [List.find?_range_eq_some]
    exact ⟨hp, List.mem_range.2 hi, fun j hj => by rw [hbelow j hj]; rfl⟩
  have hnone {p : Nat → Bool} (hp : ∀ i, i < b.slotCount.toNat → p i = false) : (List.range b.slotCount.toNat).find? p = none := by
    rw [List.find?_range_eq_none]
    exact fun i hi => by rw [hp i hi]; rfl
  refine ⟨fun i hi hhi hbelow => ?_, fun hno => ⟨fun i hi hfree hbelow => ?_, fun hall => ?_⟩⟩
  · rw [hx, hsome hi hhi hbelow]
    exact Nat.mod_eq_of_lt (by omega)
  · rw [hx, hnone hno, hsome hi (by simp [hfree]) (fun j hj => by simp [hbelow j hj])]
    exact Nat.mod_eq_of_lt (by omega)
  · rw [hx, hnone hno, hnone (fun i hi => by simp [hall i hi])]
    rfl

/-! Install -/

/-- The lowest of a list of frames (R71). -/
theorem foldl_min_frame (f : BitVec 8) (t : List (BitVec 8)) :
    let m := t.foldl (fun (m : BitVec 8) x => if x.ult m then x else m) f
    m ∈ f :: t ∧ ∀ g ∈ f :: t, m.toNat ≤ g.toNat := by
  induction t generalizing f with
  | nil => simp
  | cons x t ih =>
    intro m
    obtain ⟨hmem, hle⟩ := ih (if x.ult f then x else f)
    have hm : m = t.foldl (fun (m : BitVec 8) x => if x.ult m then x else m) (if x.ult f then x else f) := rfl
    rw [← hm] at hmem hle
    have hhead := hle _ List.mem_cons_self
    by_cases hlt : x.ult f = true
    · rw [if_pos hlt] at hmem hle hhead
      have hxf : x.toNat < f.toNat := by simpa [BitVec.ult] using hlt
      refine ⟨List.mem_cons_of_mem _ hmem, fun g hg => ?_⟩
      rcases List.mem_cons.1 hg with rfl | hg
      · omega
      · exact hle g hg
    · rw [if_neg hlt] at hmem hle hhead
      have hfx : f.toNat ≤ x.toNat := by simpa [BitVec.ult] using hlt
      refine ⟨?_, fun g hg => ?_⟩
      · rcases List.mem_cons.1 hmem with h | h
        · exact h ▸ List.mem_cons_self
        · exact List.mem_cons_of_mem _ (List.mem_cons_of_mem _ h)
      · rcases List.mem_cons.1 hg with rfl | hg
        · exact hhead
        · rcases List.mem_cons.1 hg with rfl | hg
          · omega
          · exact hle g (List.mem_cons_of_mem _ hg)

/-- The entry of a valid slot with another key (R71). -/
theorem rekeyed_entry (e k : W64) (hk : k.toNat < 2 ^ 40) :
    ((e &&& ~~~0xFFFFFFFFFF#64) ||| k).toNat % 2 ^ 40 = k.toNat ∧
      ((e &&& ~~~0xFFFFFFFFFF#64) ||| k).extractLsb' 40 24 = e.extractLsb' 40 24 := by
  have hput : (e &&& ~~~0xFFFFFFFFFF#64) ||| k = putBits e 0 40 k.toNat := by
    rw [putBits, Nat.mod_eq_of_lt hk, Nat.pow_zero, Nat.mul_one, Nat.mul_one, BitVec.ofNat_toNat, BitVec.setWidth_eq]
    rfl
  rw [hput]
  refine ⟨?_, extract_putBits_other _ _ (.inr (by omega)) (by omega)⟩
  rw [toNat_mod_eq_extract, extract_putBits_same _ _ (by omega)]
  exact Nat.mod_eq_of_lt hk

/-- The entry of a slot that is filled anew: valid, not pending, with a frame and a key (R71). -/
theorem fresh_entry (f : BitVec 8) (k : W64) (hk : k.toNat < 2 ^ 40) :
    let e : W64 := 1#1 ++ 0#7 ++ f ++ 0#8 ++ k.extractLsb' 0 40
    e.getLsbD 63 = true ∧ e.extractLsb' 48 8 = f ∧ e.toNat % 2 ^ 40 = k.toNat := by
  intro e
  have hframe : e.extractLsb' 48 8 = f := by
    simp (disch := omega) only [e, BitVec.extractLsb'_append_eq_of_le]
    exact BitVec.extractLsb'_append_eq_right
  have hkey : e.extractLsb' 0 40 = k.extractLsb' 0 40 := BitVec.extractLsb'_append_eq_right
  refine ⟨?_, hframe, ?_⟩
  · simp only [e, BitVec.getLsbD_append]
    rfl
  · rw [toNat_mod_eq_extract, hkey, ← toNat_mod_eq_extract, Nat.mod_eq_of_lt hk]

section

variable {s : State} {d a b : SReg} {blk : Block} (hb : s.curBlock = blk)

include hb

theorem exec_slotInst_valid (hin : (s.cur.sr a).toNat < blk.slotCount.toNat) (hk : (s.cur.sr b).toNat < 2 ^ 40)
    (hvalid : (s.tagOf blk (s.cur.sr a).toNat).getLsbD 63 = true) :
    exec (.slotInst a b) s = .next ((s.setTag blk (s.cur.sr a).toNat
      ((s.tagOf blk (s.cur.sr a).toNat &&& ~~~0xFFFFFFFFFF#64) ||| s.cur.sr b)).setCur s.cur.pc4) := by
  have hkey : bitsOf (s.cur.sr b) 40 24 = 0 := by rw [bitsOf_eq]; omega
  change execSlotInst a b s = _
  unfold execSlotInst
  simp only [hb, slotIn, hin, decide_true, Bool.not_true, Bool.false_eq_true, if_false, hkey, ne_eq, not_true, bitOf, hvalid, if_true]

theorem exec_slotInst_free {f : BitVec 8} {t : List (BitVec 8)} (hin : (s.cur.sr a).toNat < blk.slotCount.toNat)
    (hk : (s.cur.sr b).toNat < 2 ^ 40) (hfree : (s.tagOf blk (s.cur.sr a).toNat).getLsbD 63 = false) (hf : freeFrames s blk = f :: t) :
    exec (.slotInst a b) s = .next ((s.setTag blk (s.cur.sr a).toNat (1#1 ++ 0#7 ++
      t.foldl (fun (m : BitVec 8) x => if x.ult m then x else m) f ++ 0#8 ++ (s.cur.sr b).extractLsb' 0 40)).setCur s.cur.pc4) := by
  have hkey : bitsOf (s.cur.sr b) 40 24 = 0 := by rw [bitsOf_eq]; omega
  change execSlotInst a b s = _
  unfold execSlotInst
  simp only [hb, slotIn, hin, decide_true, Bool.not_true, Bool.false_eq_true, if_false, hkey, ne_eq, not_true, bitOf, hfree, hf]

theorem exec_slotInst_full (hin : (s.cur.sr a).toNat < blk.slotCount.toNat) (hk : (s.cur.sr b).toNat < 2 ^ 40)
    (hfree : (s.tagOf blk (s.cur.sr a).toNat).getLsbD 63 = false) (hf : freeFrames s blk = []) :
    exec (.slotInst a b) s = scalarAcc (.slotInst a b) (raiseAt .shelfFull (slotVa (s.cur.sr a) 0)) s := by
  have hkey : bitsOf (s.cur.sr b) 40 24 = 0 := by rw [bitsOf_eq]; omega
  change execSlotInst a b s = _
  unfold execSlotInst
  simp only [hb, slotIn, hin, decide_true, Bool.not_true, Bool.false_eq_true, if_false, hkey, ne_eq, not_true, bitOf, hfree, hf]

/-! Evict, read and publish -/

theorem exec_slotEvict_invalid (hin : (s.cur.sr a).toNat < blk.slotCount.toNat)
    (hfree : (s.tagOf blk (s.cur.sr a).toNat).getLsbD 63 = false) :
    exec (.slotEvict d a) s = .next (s.setCur (s.cur.setSr d 2).pc4) := by
  change execSlotEvict d a s = _
  simp only [execSlotEvict, hb, slotIn, hin, decide_true, Bool.not_true, Bool.false_eq_true, if_false, bitOf, hfree, Bool.not_false, if_true]
  rfl

theorem exec_slotEvict_busy (hin : (s.cur.sr a).toNat < blk.slotCount.toNat)
    (hvalid : (s.tagOf blk (s.cur.sr a).toNat).getLsbD 63 = true)
    (hbusy : (s.tagOf blk (s.cur.sr a).toNat).getLsbD 62 = true ∨ slotPinned s blk (s.cur.sr a).toNat = true) :
    exec (.slotEvict d a) s = .next (s.setCur (s.cur.setSr d 1).pc4) := by
  have hbusy' : ((s.tagOf blk (s.cur.sr a).toNat).getLsbD 62 || slotPinned s blk (s.cur.sr a).toNat) = true := by simpa using hbusy
  change execSlotEvict d a s = _
  simp only [execSlotEvict, hb, slotIn, hin, decide_true, Bool.not_true, Bool.false_eq_true, if_false, bitOf, hvalid, hbusy', if_true]
  rfl

theorem exec_slotEvict_idle (hin : (s.cur.sr a).toNat < blk.slotCount.toNat)
    (hvalid : (s.tagOf blk (s.cur.sr a).toNat).getLsbD 63 = true)
    (hidle : (s.tagOf blk (s.cur.sr a).toNat).getLsbD 62 = false) (hpin : slotPinned s blk (s.cur.sr a).toNat = false) :
    exec (.slotEvict d a) s = .next ((s.setTag blk (s.cur.sr a).toNat (s.tagOf blk (s.cur.sr a).toNat &&& 0x00FFFFFFFFFFFFFF#64)).setCur
      (s.cur.setSr d 0).pc4) := by
  change execSlotEvict d a s = _
  simp only [execSlotEvict, hb, slotIn, hin, decide_true, Bool.not_true, Bool.false_eq_true, if_false, bitOf, hvalid, hidle, hpin,
    Bool.or_self, if_true]

theorem exec_slotRd (hin : (s.cur.sr a).toNat < blk.slotCount.toNat) :
    exec (.slotRd d a) s = .next (s.setCur (s.cur.setSr d (s.tagOf blk (s.cur.sr a).toNat)).pc4) := by
  change execSlotRd d a s = _
  unfold execSlotRd
  simp only [hb, slotIn, hin, decide_true, Bool.not_true, Bool.false_eq_true, if_false]
  rfl

/-- A publish of a slot with nothing pending answers 1, another begins to wait (R214). -/
theorem exec_publSlot (hin : (s.cur.sr a).toNat < blk.slotCount.toNat) :
    exec (.publSlot d a) s = if (s.tagOf blk (s.cur.sr a).toNat).getLsbD 62 = false then .next (s.setCur (s.cur.setSr d 1).pc4)
      else .next (s.setCur { s.cur with wait := .publSlot ((s.cur.sr a).extractLsb' 0 8) d }).stalled := by
  change execPublSlot d a s = _
  unfold execPublSlot
  simp only [hb, slotIn, hin, decide_true, Bool.not_true, Bool.false_eq_true, if_false, bitOf, Bool.not_eq_true']
  rfl

/-- A slot number at or beyond the block's slots traps (R213, R214). -/
theorem shelfRange_traps (hout : blk.slotCount.toNat ≤ (s.cur.sr a).toNat) (ht : TrapEnters s) :
    ∀ i ∈ [Instr.slotInst a b, .slotEvict d a, .slotRd d a, .publSlot d a], TrapsS i s .shelfRange := by
  have hin : slotIn s.curBlock (s.cur.sr a) = false := by rw [hb]; simpa [slotIn] using hout
  have hexec : ∀ i ∈ [Instr.slotInst a b, .slotEvict d a, .slotRd d a, .publSlot d a],
      exec i s = scalarAcc i (raiseAt .shelfRange (slotVa (s.cur.sr a) 0)) s := by
    simp only [List.forall_mem_cons, List.not_mem_nil, false_imp_iff, implies_true, and_true]
    refine ⟨?_, ?_, ?_, ?_⟩
    · change execSlotInst a b s = _
      simp only [execSlotInst, hin, Bool.not_false, if_true]
    · change execSlotEvict d a s = _
      simp only [execSlotEvict, hin, Bool.not_false, if_true]
    · change execSlotRd d a s = _
      simp only [execSlotRd, hin, Bool.not_false, if_true]
    · change execPublSlot d a s = _
      simp only [execPublSlot, hin, Bool.not_false, if_true]
  exact fun i hi => trapsS_of_throw ht rfl (hexec i hi)

end

section

variable {s : State} {g : Gid} {sl : BitVec 8} {d : SReg} {b : Block} (hw : (s.group g).wait = .publSlot sl d)
  (hb : s.blockAt (s.group g) = some b) (hpend : (s.tagOf b sl.toNat).getLsbD 62 = true)

include hw hb hpend

/-- PUBLISH_SWAP of a slot whose content is pending (R71, R214). -/
theorem exec_publishSwap :
    exec (.publishSwap g) s = if slotFilling s b sl.toNat then .next s
      else if (s.tagOf b sl.toNat).getLsbD 61 then
        .next ((s.setTag b sl.toNat (putBits (putBits (s.tagOf b sl.toNat) 61 2 0) 40 8 0)).setGroup g ((s.group g).endWait d 2))
      else .next ((s.setTag b sl.toNat (putBits (putBits (putBits (s.tagOf b sl.toNat) 61 2 0) 48 8 (bitsOf (s.tagOf b sl.toNat) 40 8)) 40 8
        0)).setGroup g ((s.group g).endWait d 0)) := by
  change execPublishSwap g s = _
  unfold execPublishSwap
  simp only [hw, hb, bitOf, hpend, Bool.not_true, Bool.false_eq_true, if_false]
  rfl

variable (hdone : slotFilling s b sl.toNat = false)

include hdone

theorem exec_publishSwap_ok (hok : (s.tagOf b sl.toNat).getLsbD 61 = false) :
    exec (.publishSwap g) s = .next ((s.setTag b sl.toNat (putBits (putBits (putBits (s.tagOf b sl.toNat) 61 2 0) 48 8
      (bitsOf (s.tagOf b sl.toNat) 40 8)) 40 8 0)).setGroup g ((s.group g).endWait d 0)) := by
  rw [exec_publishSwap hw hb hpend, if_neg (by simp [hdone]), if_neg (by rw [hok]; decide)]

theorem exec_publishSwap_failed (herr : (s.tagOf b sl.toNat).getLsbD 61 = true) :
    exec (.publishSwap g) s =
      .next ((s.setTag b sl.toNat (putBits (putBits (s.tagOf b sl.toNat) 61 2 0) 40 8 0)).setGroup g ((s.group g).endWait d 2)) := by
  rw [exec_publishSwap hw hb hpend, if_neg (by simp [hdone]), if_pos herr]

end

/-- A pending entry published: the pending bit is clear and the frame that shows is the one given (R71). -/
theorem published_entry (e : W64) :
    let kept := putBits (putBits e 61 2 0) 40 8 0
    let shown := putBits (putBits (putBits e 61 2 0) 48 8 (bitsOf e 40 8)) 40 8 0
    kept.extractLsb' 48 8 = e.extractLsb' 48 8 ∧ kept.getLsbD 62 = false ∧
      shown.extractLsb' 48 8 = e.extractLsb' 40 8 ∧ shown.getLsbD 62 = false := by
  intro kept shown
  have hclear (x : W64) (hx : x.getLsbD 62 = false) (lo v : Nat) (hlo : lo + 8 ≤ 62) : (putBits x lo 8 v).getLsbD 62 = false := by
    rw [getLsbD_putBits _ _ _ _ _ (by omega), if_neg (by omega), hx]
  have h62 : (putBits e 61 2 0).getLsbD 62 = false := by
    rw [getLsbD_putBits _ _ _ _ _ (by omega), if_pos (by omega), Nat.zero_testBit]
  refine ⟨?_, hclear _ h62 40 0 (by omega), ?_, hclear _ (hclear _ h62 48 _ (by omega)) 40 0 (by omega)⟩
  · rw [extract_putBits_other _ _ (.inr (by omega)) (by omega), extract_putBits_other _ _ (.inl (by omega)) (by omega)]
  · rw [extract_putBits_other _ _ (.inr (by omega)) (by omega), extract_putBits_same _ _ (by omega), bitsOf, BitVec.ofNat_toNat,
      BitVec.setWidth_eq]

/-- Settles O38: `lookup_spec` says what a lookup gives, `exec_slotInst_valid`, `exec_slotInst_free`, `exec_slotEvict`, `exec_slotRd` and
`exec_publSlot` what each instruction does, and `exec_publishSwap` how a publish ends. -/
theorem shelfSlots : Obligations.ShelfSlots := by
  constructor
  · intro s d a b blk hblk v k e bad
    have hb : s.curBlock = blk := by rw [State.curBlock, hblk]; rfl
    have hbad := fun (hout : blk.slotCount.toNat ≤ (s.cur.sr a).toNat) ht => shelfRange_traps (d := d) (b := b) hb hout ht
    simp only [List.forall_mem_cons, List.not_mem_nil, false_imp_iff, implies_true, and_true] at hbad
    refine ⟨fun ho ht => (hbad ho ht).1, fun ho ht => (hbad ho ht).2.1, fun ho ht => (hbad ho ht).2.2.1, fun ho ht => (hbad ho ht).2.2.2,
      fun hv ht => ?_, fun hv => ?_, fun hin => ?_⟩
    · have hlim : bitsOf v 40 24 ≠ 0 := by
        have := v.isLt
        rw [bitsOf_eq]; omega
      refine trapsS_of_throw (j := { cause := .operandRange, here := true, aux := (RegField.sa.code ++ 0#2 ++ a).setWidth 32 }) ht rfl ?_
      change execLkup d a s = _
      rw [execLkup, if_pos hlim]
      rfl
    · have hlim : bitsOf v 40 24 = 0 := by rw [bitsOf_eq]; omega
      refine writesS_of_next (v := lookup s blk (v.extractLsb' 0 40)) ?_ (lookup_spec s blk v hv)
      change execLkup d a s = _
      rw [execLkup, if_neg (not_not.2 hlim), hb]
      rfl
    · refine ⟨writesS_of_next (exec_slotRd hb hin) rfl, fun hk hvalid => ?_, fun hk hfree hne => ?_, fun hk hfree hnil ht => ?_, fun hfree => ?_,
        fun hvalid hbusy => ?_, fun hvalid hidle hpin => ?_, fun hidle => ?_, fun hpend => ?_⟩
      · obtain ⟨hkey, hrest⟩ := rekeyed_entry e k hk
        refine ⟨_, exec_slotInst_valid hb hin hk hvalid, ?_, ?_, fun i hi => ?_, State.cur_setCur .., rfl⟩
        · rw [tagOf_setCur, tagOf_setTag_same]; exact hkey
        · rw [tagOf_setCur, tagOf_setTag_same]; exact hrest
        · rw [tagOf_setCur, tagOf_setTag_other _ _ _ _ hi]
      · obtain ⟨f, t, hf⟩ := List.exists_cons_of_ne_nil hne
        obtain ⟨hmem, hmin⟩ := foldl_min_frame f t
        obtain ⟨h63, hframe, hkey⟩ := fresh_entry (t.foldl (fun (m : BitVec 8) x => if x.ult m then x else m) f) k hk
        refine ⟨_, _, exec_slotInst_free hb hin hk hfree hf, hf ▸ hmem, hf ▸ hmin, ?_, ?_, ?_, fun i hi => ?_, State.cur_setCur .., rfl⟩
        · rw [tagOf_setCur, tagOf_setTag_same]; exact h63
        · rw [tagOf_setCur, tagOf_setTag_same]; exact hframe
        · rw [tagOf_setCur, tagOf_setTag_same]; exact hkey
        · rw [tagOf_setCur, tagOf_setTag_other _ _ _ _ hi]
      · exact trapsS_of_throw ht rfl (exec_slotInst_full hb hin hk hfree hnil)
      · exact writesS_of_next (exec_slotEvict_invalid hb hin hfree) rfl
      · exact writesS_of_next (exec_slotEvict_busy hb hin hvalid hbusy) rfl
      · refine ⟨_, exec_slotEvict_idle hb hin hvalid hidle hpin, ?_⟩
        refine ⟨?_, ?_, ?_, fun i hi => ?_, rfl⟩
        · rw [tagOf_setCur, tagOf_setTag_same, BitVec.getLsbD_and]
          exact Bool.and_false _
        · rw [State.cur_setCur, Group.sr_pc4, Group.sr_setSr_same]
        · rw [State.cur_setCur]; rfl
        · rw [tagOf_setCur, tagOf_setTag_other _ _ _ _ hi]
      · exact writesS_of_next ((exec_publSlot hb hin).trans (if_pos hidle)) rfl
      · exact (exec_publSlot hb hin).trans (if_neg (by simpa using hpend))
  · intro s g sl d b hw hb e ends
    obtain ⟨hkeep, hkeep62, hshow, hshow62⟩ := published_entry e
    have hends {st : BitVec 8} {v : W64} (h : exec (.publishSwap g) s = .next ((s.setTag b sl.toNat v).setGroup g ((s.group g).endWait d st))) :
        ends ((s.setTag b sl.toNat v).setGroup g ((s.group g).endWait d st)) (st.setWidth 64) := ⟨h, State.group_setGroup_same .., rfl⟩
    refine ⟨fun hpend hfill => ?_, fun hpend hdone hok => ?_, fun hpend hdone herr => ?_⟩
    · rw [exec_publishSwap hw hb hpend, if_pos hfill]
    · refine ⟨_, hends (st := 0) (exec_publishSwap_ok hw hb hpend hdone hok), ?_, ?_⟩
      · rw [tagOf_setGroup, tagOf_setTag_same]; exact hshow
      · rw [tagOf_setGroup, tagOf_setTag_same]; exact hshow62
    · refine ⟨_, hends (st := 2) (exec_publishSwap_failed hw hb hpend hdone herr), ?_, ?_⟩
      · rw [tagOf_setGroup, tagOf_setTag_same]; exact hkeep
      · rw [tagOf_setGroup, tagOf_setTag_same]; exact hkeep62

end Sys2Proof.Machine
end

section
/-! PROOFS. A translation leaves the group that moves in its block (O29). -/

set_option Elab.async false

namespace Sys2Proof.Machine

/-- The group at a place moves, and what it does counts for a block (R67). -/
structure MovesFor (gid : Gid) (who : BitVec 3 × W32 × W32) (s : State) : Prop where
  curG : s.curG = gid
  part : (s.group gid).part = who.1
  launch : (s.group gid).launch = who.2.1
  block : (s.group gid).block = who.2.2

/-- A computation that leaves it so, whether it ends or stops. -/
def AccMoves {α : Type} (gid : Gid) (who : BitVec 3 × W32 × W32) (m : Acc α) : Prop :=
  ∀ ⦃s : State⦄, MovesFor gid who s → MovesFor gid who (endState (m.run s))

section

variable {α β : Type} {gid : Gid} {who : BitVec 3 × W32 × W32} {s t : State}

/-- Only the groups and the place that moves matter. -/
protected theorem MovesFor.of_groups (h : MovesFor gid who s) (hg : t.groups = s.groups := by rfl) (hc : t.curG = s.curG := by rfl) :
    MovesFor gid who t := by
  have hgroup : t.group gid = s.group gid := by unfold State.group; rw [hg]
  exact ⟨hc.trans h.curG, hgroup ▸ h.part, hgroup ▸ h.launch, hgroup ▸ h.block⟩
protected theorem MovesFor.fires (h : MovesFor gid who s) {pa n : Nat} (hg : t.groups = fireMonitors s.groups pa n) (hc : t.curG = s.curG) :
    MovesFor gid who t := by
  have hgroup : t.group gid = { s.group gid with fired := (t.group gid).fired } := by
    have hfire := fireMonitors_get s.groups pa n gid.toNat
    rw [← hg] at hfire
    exact hfire
  exact ⟨hc.trans h.curG, hgroup ▸ h.part, hgroup ▸ h.launch, hgroup ▸ h.block⟩
protected theorem MovesFor.write (h : MovesFor gid who s) {pa l} : MovesFor gid who (s.write pa l) := h.fires rfl rfl
protected theorem MovesFor.zeroRange (h : MovesFor gid who s) {pa n} : MovesFor gid who (s.zeroRange pa n) := h.fires rfl rfl
protected theorem MovesFor.invalidate (h : MovesFor gid who s) {f n va len} : MovesFor gid who (s.invalidate f n va len) := by
  have hc := (curG_invalidate (s := s) f n va len).trans h.curG
  by_cases hlen : len = 0
  · rw [State.invalidate, if_pos hlen]; exact h
  · rcases invalidate_group s f n va hlen gid with ⟨_, hx⟩ | ⟨_, hx⟩
    · rw [group_invalidate_eq] at hx
      exact ⟨hc, hx ▸ h.part, hx ▸ h.launch, hx ▸ h.block⟩
    · exact ⟨hc, hx ▸ h.part, hx ▸ h.launch, hx ▸ h.block⟩
protected theorem MovesFor.ite {c : Prop} {_ : Decidable c} (hs : MovesFor gid who s) (ht : MovesFor gid who t) :
    MovesFor gid who (if c then s else t) := by
  split
  · exact hs
  · exact ht
protected theorem MovesFor.poolCheck (h : MovesFor gid who s) {d} : MovesFor gid who (s.poolCheck d) :=
  .ite (.ite h.of_groups h) (.ite h h.of_groups)

protected theorem AccMoves.bind {m : Acc α} {f : α → Acc β} (hm : AccMoves gid who m) (hf : ∀ v, AccMoves gid who (f v)) :
    AccMoves gid who (m >>= f) := fun s hs => by
  have h := hm hs
  rw [run_bind]
  cases hr : m.run s with
  | ok v t => rw [hr] at h; exact hf v h
  | error e t => rw [hr] at h; exact h
protected theorem AccMoves.pure {v : α} : AccMoves gid who (pure v) := fun _ hs => hs
protected theorem AccMoves.throw {e : Stop} : AccMoves gid who (throw e : Acc α) := fun _ hs => hs
protected theorem AccMoves.modify {f : State → State} (hf : ∀ s, MovesFor gid who s → MovesFor gid who (f s)) :
    AccMoves gid who (modify f : Acc PUnit) := fun s hs => hf s hs
protected theorem AccMoves.ite {c : Prop} {_ : Decidable c} {m n : Acc α} (hm : AccMoves gid who m) (hn : AccMoves gid who n) :
    AccMoves gid who (if c then m else n) := by
  split
  · exact hm
  · exact hn
protected theorem AccMoves.when {c : Prop} {_ : Decidable c} {m : Acc PUnit} {f : PUnit → Acc α} (hm : AccMoves gid who m)
    (hf : ∀ u, AccMoves gid who (f u)) : AccMoves gid who (if c then m >>= f else f ⟨⟩) := .ite (.bind hm hf) (hf _)
/-- A computation that reads the state: what follows need only leave it so from that state. -/
protected theorem AccMoves.get_bind {f : State → Acc β}
    (hf : ∀ s, MovesFor gid who s → MovesFor gid who (endState ((f s).run s))) : AccMoves gid who (get >>= f) := hf
protected theorem MovesFor.ite_run {c : Prop} {_ : Decidable c} {m n : Acc α} (hm : MovesFor gid who (endState (m.run s)))
    (hn : MovesFor gid who (endState (n.run s))) : MovesFor gid who (endState ((if c then m else n).run s)) := by
  split
  · exact hm
  · exact hn
protected theorem MovesFor.set_bind {f : PUnit → Acc β} (ht : MovesFor gid who t) (hf : AccMoves gid who (f ⟨⟩)) :
    MovesFor gid who (endState ((set t >>= f : Acc β).run s)) := hf ht

/-! Each step of a translation -/

protected theorem AccMoves.xlatFault {ag va k c e} : AccMoves gid who (xlatFault ag va k c e : Acc α) :=
  .get_bind fun _ hs => AccMoves.when .throw (fun _ => .throw) hs
protected theorem AccMoves.takeFrame {die va k n} : AccMoves gid who (takeFrame die va k n) := by
  induction n with
  | zero => exact .pure
  | succ n ih =>
    exact .get_bind fun _ hs => .ite_run (AccMoves.pure hs) <| .ite_run (AccMoves.throw hs) <| .ite_run
      (.set_bind (.poolCheck (.ite hs.of_groups (hs.of_groups.zeroRange))) .pure)
      (.set_bind (MovesFor.of_groups hs).poolCheck ih)
protected theorem AccMoves.firstTouch {ag va k e a zf} : AccMoves gid who (firstTouch ag va k e a zf) :=
  .get_bind fun s hs => by
    refine AccMoves.when .throw (fun _ => .ite .xlatFault (.ite (fun _ _ => hs.write) (.bind .takeFrame fun r => ?_))) hs
    cases r with
    | none => exact .xlatFault
    | some f => exact .bind (.modify fun _ ht => ht.write) fun _ => .ite .pure (.modify fun _ ht => ht.invalidate)
protected theorem AccMoves.translateWalk {ag va k n} : AccMoves gid who (translateWalk ag va k n) := by
  induction n with
  | zero => exact .throw
  | succ n ih =>
    refine .get_bind fun _ hs => ?_
    have htouch {e a zf} : AccMoves gid who (do firstTouch ag va k e a zf; translateWalk ag va k n) := .bind .firstTouch fun _ => ih
    split
    · exact AccMoves.throw hs
    · exact AccMoves.xlatFault hs
    · exact htouch hs
    · exact .ite_run (AccMoves.xlatFault hs) <| .ite_run (htouch hs) <| .ite_run (AccMoves.xlatFault hs) <|
        .ite_run (AccMoves.xlatFault hs) <| .ite_run (AccMoves.xlatFault hs) <| .ite_run
          (AccMoves.bind (.modify fun _ ht => .ite ht ht.of_groups) (fun _ => .throw) hs) (.set_bind (.ite hs hs.write) .pure)
protected theorem AccMoves.admitNode {ag va k pa e} : AccMoves gid who (admitNode ag va k pa e) :=
  .ite .pure (.get_bind fun _ hs => .ite_run (AccMoves.throw hs) (.set_bind hs.of_groups (.ite .pure .xlatFault)))
protected theorem AccMoves.translateLeaf {ag va k} : AccMoves gid who (translateLeaf ag va k) :=
  .get_bind fun _ hs => .ite_run (AccMoves.xlatFault hs) <| .ite_run (AccMoves.xlatFault hs) <| by
    dsimp only
    split
    · exact AccMoves.pure hs
    · refine AccMoves.bind .translateWalk (fun ⟨_, _, _⟩ => ?_) hs
      dsimp only
      split
      · exact .pure
      · exact .bind (.modify fun _ ht => ht.of_groups) fun _ => .pure
protected theorem AccMoves.translate {ag va k} : AccMoves gid who (translate ag va k) := .bind .translateLeaf fun ⟨_, _⟩ => .admitNode

end

/-- What the moving group does after a translation counts for the block that it counted for before. -/
theorem translates_who {s s1 : State} {va : W64} {k : AKind} {pa : Nat} (h : Translates s va k pa s1) :
    (groupAgent s1.curG s1.cur).who = (groupAgent s.curG s.cur).who := by
  have hm := AccMoves.translate (ag := groupAgent s.curG s.cur) (va := va) (k := k) (gid := s.curG)
    (who := (s.cur.part, s.cur.launch, s.cur.block)) (s := s) ⟨rfl, rfl, rfl, rfl⟩
  rw [h] at hm
  obtain ⟨hcurG, hpart, hlaunch, hblock⟩ := hm
  change some (s1.cur.part, s1.cur.launch, s1.cur.block) = some (s.cur.part, s.cur.launch, s.cur.block)
  have hcur : s1.cur = s1.group s.curG := by rw [State.cur]; exact congrArg _ hcurG
  rw [hcur]
  exact congrArg some (Prod.ext hpart (Prod.ext hlaunch hblock))

end Sys2Proof.Machine
end

section
/-! PROOFS. Ordered-add windows apply their contributions in one order, and the checks of an atomic (O29). -/

set_option Elab.async false

namespace Sys2Proof.Machine

/-! The order of contributions (R66) -/

/-- Strictly before in the order of application: by block, vlane and number (R66). -/
def Contrib.earlier (x y : Contrib) : Prop :=
  x.block.toNat < y.block.toNat ∨ (x.block = y.block ∧ (x.vlane.toNat < y.vlane.toNat ∨ (x.vlane = y.vlane ∧ x.seq < y.seq)))

theorem before_iff (x y : Contrib) : x.before y = true ↔ x.block.toNat < y.block.toNat ∨
    (x.block.toNat = y.block.toNat ∧ (x.vlane.toNat < y.vlane.toNat ∨ (x.vlane.toNat = y.vlane.toNat ∧ x.seq ≤ y.seq))) := by
  simp only [Contrib.before, decide_eq_true_eq, ← BitVec.toNat_inj]

theorem earlier_iff (x y : Contrib) : x.earlier y ↔ x.block.toNat < y.block.toNat ∨
    (x.block.toNat = y.block.toNat ∧ (x.vlane.toNat < y.vlane.toNat ∨ (x.vlane.toNat = y.vlane.toNat ∧ x.seq < y.seq))) := by
  simp only [Contrib.earlier, ← BitVec.toNat_inj]

theorem before_of_earlier {x y : Contrib} (h : x.earlier y) : x.before y = true := by
  rw [before_iff]; rw [earlier_iff] at h; omega

/-- Of two contributions that come before one another neither is strictly earlier. -/
theorem not_earlier_of_before {x y : Contrib} (hxy : x.before y = true) (hyx : y.before x = true) : ¬ (x.earlier y ∨ y.earlier x) := by
  rw [before_iff] at hxy hyx; rw [earlier_iff, earlier_iff]; omega

theorem insertContrib_eq (x : Contrib) (l : List Contrib) :
    insertContrib x l = l.orderedInsert (fun a b => a.before b = true) x := by
  induction l with
  | nil => rfl
  | cons y t ih => rw [insertContrib, List.orderedInsert_cons, ih]

theorem sortContribs_eq (l : List Contrib) : sortContribs l = l.insertionSort (fun a b => a.before b = true) := by
  induction l with
  | nil => rfl
  | cons x t ih => rw [sortContribs, ih, insertContrib_eq]; rfl

theorem sortContribs_perm (l : List Contrib) : (sortContribs l).Perm l := by
  rw [sortContribs_eq]; exact List.perm_insertionSort _ l

theorem sortContribs_pairwise (l : List Contrib) : (sortContribs l).Pairwise (fun a b => a.before b = true) := by
  have htotal : Std.Total (fun a b : Contrib => a.before b = true) := ⟨fun a b => by rw [before_iff, before_iff]; omega⟩
  have htrans : IsTrans Contrib (fun a b => a.before b = true) := ⟨fun a b c => by rw [before_iff, before_iff, before_iff]; omega⟩
  rw [sortContribs_eq]; exact List.pairwise_insertionSort _ l

/-- Contributions that are listed strictly in order are listed as the window applies them (R66). -/
theorem sortContribs_unique {l cs : List Contrib} (hperm : l.Perm cs) (hl : l.Pairwise Contrib.earlier) : sortContribs cs = l := by
  have hsort : (sortContribs cs).Perm l := (sortContribs_perm cs).trans hperm.symm
  have hsymm : Std.Symm (fun x y : Contrib => x.earlier y ∨ y.earlier x) := ⟨fun _ _ => Or.symm⟩
  refine List.Perm.eq_of_pairwise (fun a b ha hb hab hba => ?_) (sortContribs_pairwise cs) (hl.imp before_of_earlier) hsort
  have hdiffer : l.Pairwise (fun x y => x.earlier y ∨ y.earlier x) := hl.imp Or.inl
  by_contra hne
  exact not_earlier_of_before hab hba (hdiffer.forall (hsort.mem_iff.1 ha) hb hne)

/-! Codes of an atomic's operands (R61) -/

theorem intOf_atom (ty : AtomTy) (x : Nat) : intOf ty.lty x =
    if ty = .i32 ∨ ty = .i64 then (BitVec.ofNat ty.bits x).toInt else ((x % 2 ^ ty.bits : Nat) : Int) := by cases ty <;> rfl

theorem codeOf_atom (ty : AtomTy) (z : Int) : codeOf ty.lty z = (z % 2 ^ ty.bits).toNat := by cases ty <;> rfl

theorem addTyped_atom (ty : AtomTy) (a b : Nat) : addTyped ty a b =
    if ty = .f32 then (faddRn (BitVec.ofNat 32 a) (BitVec.ofNat 32 b)).toNat else codeOf ty.lty (intOf ty.lty a + intOf ty.lty b) := by
  cases ty <;> rfl

theorem atomResult_eq (ty : AtomTy) (v : Nat) :
    atomResult ty v = if ty = .i32 then (BitVec.ofNat 32 v).signExtend 64 else BitVec.ofNat 64 v := by cases ty <;> rfl

theorem targetBytes_eq (op : AtomOp) (ty : AtomTy) : targetBytes op ty = if op = .fxadd then 16 else ty.bits / 8 := by
  cases op <;> rfl

theorem special_eq_false_iff (op : AtomOp) : op.special = false ↔ op ≠ .fxadd ∧ op ≠ .oadd ∧ op ≠ .oclose := by cases op <;> decide

/-! The checks of R62 -/

/-- An `fxadd` operand is out of range where its exponent is 62 or more, an infinity or a NaN among them (R62). -/
theorem fxBad_iff (b : Nat) : fxBad b = true ↔ 189 ≤ b / 2 ^ 23 % 2 ^ 8 := by
  have hfr : b % 2 ^ 23 < 2 ^ 23 := Nat.mod_lt _ (by decide)
  have hex : b / 2 ^ 23 % 2 ^ 8 < 2 ^ 8 := Nat.mod_lt _ (by decide)
  simp only [fxBad, decodeElem, fmtOf]
  have hsg : (if decide (b / 2 ^ (8 + 23) % 2 = 1) = true then (-1 : Int) else 1) = 1 ∨
      (if decide (b / 2 ^ (8 + 23) % 2 = 1) = true then (-1 : Int) else 1) = -1 := by split <;> simp
  generalize (if decide (b / 2 ^ (8 + 23) % 2 = 1) = true then (-1 : Int) else 1) = sg at hsg
  generalize decide (b / 2 ^ (8 + 23) % 2 = 1) = neg
  generalize b % 2 ^ 23 = fr at hfr
  generalize b / 2 ^ 23 % 2 ^ 8 = ex at hex
  simp only [show (LTy.f32 == LTy.e2m1) = false from rfl, show (LTy.f32 == LTy.e4m3) = false from rfl, Bool.false_and, Bool.true_and,
    Bool.false_eq_true, if_false, beq_iff_eq]
  have hlog (n : Nat) (e : Int) : flog2 (sg * n) e = Nat.log2 n + e := by
    rcases hsg with rfl | rfl <;> simp [flog2]
  by_cases h255 : ex = 2 ^ 8 - 1
  · rw [if_pos h255]
    have : 189 ≤ ex := by omega
    split_ifs <;> simp [this]
  · rw [if_neg h255]
    by_cases h0 : ex = 0
    · rw [if_pos h0]
      have : ¬ 189 ≤ ex := by omega
      by_cases hz : fr = 0
      · rw [if_pos hz]; simp [this]
      · have hsmall : Nat.log2 fr < 23 := (Nat.log2_lt hz).2 hfr
        rw [if_neg hz]
        simp only [hlog, decide_eq_true_eq, this, iff_false]
        omega
    · have hnorm : Nat.log2 (2 ^ 23 + fr) = 23 := (Nat.log2_eq_iff (by omega)).2 ⟨by omega, by omega⟩
      have hcast : (2 ^ 23 + (fr : Int)) = ((2 ^ 23 + fr : Nat) : Int) := by push_cast; rfl
      rw [if_neg h0, hcast]
      simp only [hlog, hnorm, decide_eq_true_eq]
      omega

theorem atomCheck_congr {op : AtomOp} (h : op ≠ .fxadd) (det : Bool) (ty : AtomTy) (pa b c : Nat) :
    atomCheck det op ty pa b = atomCheck det op ty pa c := by
  have hop : (op == AtomOp.fxadd) = false := by simpa using h
  simp only [atomCheck, hop, Bool.false_and]

/-- The first check that fails, in the order of R62's table. -/
theorem atomCheck_spec (det : Bool) (op : AtomOp) (ty : AtomTy) (pa b : Nat) :
    let check := atomCheck det op ty pa b
    let simple := op ≠ .fxadd ∧ op ≠ .oadd ∧ op ≠ .oclose
    let aligned := pa % (if op = .fxadd then 16 else ty.bits / 8) = 0
    let region := paRegion pa = 0 ∨ (paRegion pa = 1 ∧ simple)
    let unordered := det = true ∧ (op = .fadd ∨ op = .sadd)
    let big := op = .fxadd ∧ 189 ≤ b / 2 ^ 23 % 2 ^ 8
    (¬ aligned → check = some .atomAlign) ∧ (aligned → ¬ region → check = some .atomRegion) ∧
    (aligned → region → unordered → check = some .atomDet) ∧ (aligned → region → ¬ unordered → big → check = some .fxRange) ∧
    (aligned → region → ¬ unordered → ¬ big → check = none) := by
  intro check simple aligned region unordered big
  have hregion : (!(paRegion pa == 0 || (paRegion pa == 1 && !op.special))) = true ↔ ¬ region := by
    simp only [region, simple, ← special_eq_false_iff, Bool.not_eq_true', ← Bool.not_eq_true, Bool.or_eq_true, Bool.and_eq_true, beq_iff_eq]
  have hdet : (det && (op == .fadd || op == .sadd)) = true ↔ unordered := by
    simp only [unordered, Bool.and_eq_true, Bool.or_eq_true, beq_iff_eq]
  have hbig : (op == .fxadd && fxBad b) = true ↔ big := by
    simp only [big, Bool.and_eq_true, beq_iff_eq, fxBad_iff]
  have hcheck : check = if ¬ aligned then some .atomAlign else if ¬ region then some .atomRegion else if unordered then some .atomDet
      else if big then some .fxRange else none := by
    simp only [check, atomCheck, hregion, hdet, hbig, targetBytes_eq, aligned, ne_eq]
  rw [hcheck]
  refine ⟨fun h => if_pos h, fun h1 h2 => ?_, fun h1 h2 h3 => ?_, fun h1 h2 h3 h4 => ?_, fun h1 h2 h3 h4 => ?_⟩ <;>
    rw [if_neg (not_not.2 h1)]
  · rw [if_pos h2]
  · rw [if_neg (not_not.2 h2), if_pos h3]
  · rw [if_neg (not_not.2 h2), if_neg h3, if_pos h4]
  · rw [if_neg (not_not.2 h2), if_neg h3, if_neg h4]

end Sys2Proof.Machine
end

section
/-! PROOFS. Scalar atomics: what one does to its target and its register, and how it traps (O29). -/

set_option Elab.async false

namespace Sys2Proof.Machine

/-! Fields of a group's record (R322) -/

theorem extract_recWords_1 (w0 w1 w2 w3 w4 w5 w6 w7 : W64) : (recWords w0 w1 w2 w3 w4 w5 w6 w7).extractLsb' 64 64 = w1 :=
  calc
    _ = (w7 ++ w6 ++ w5 ++ w4 ++ w3 ++ w2 ++ w1).extractLsb' 0 64 := BitVec.extractLsb'_append_eq_of_le (by omega)
    _ = w1 := BitVec.extractLsb'_append_eq_right

theorem extract_recWords_4 (w0 w1 w2 w3 w4 w5 w6 w7 : W64) (lo n : Nat) (h : lo + n ≤ 64) :
    (recWords w0 w1 w2 w3 w4 w5 w6 w7).extractLsb' (256 + lo) n = w4.extractLsb' lo n :=
  calc
    _ = (w7 ++ w6 ++ w5 ++ w4 ++ w3 ++ w2 ++ w1).extractLsb' (192 + lo) n := by
      rw [recWords, BitVec.extractLsb'_append_eq_of_le (by omega)]; congr 1; omega
    _ = (w7 ++ w6 ++ w5 ++ w4 ++ w3 ++ w2).extractLsb' (128 + lo) n := by
      rw [BitVec.extractLsb'_append_eq_of_le (by omega)]; congr 1; omega
    _ = (w7 ++ w6 ++ w5 ++ w4 ++ w3).extractLsb' (64 + lo) n := by
      rw [BitVec.extractLsb'_append_eq_of_le (by omega)]; congr 1; omega
    _ = (w7 ++ w6 ++ w5 ++ w4).extractLsb' lo n := by
      rw [BitVec.extractLsb'_append_eq_of_le (by omega)]; congr 1; omega
    _ = w4.extractLsb' lo n := BitVec.extractLsb'_append_eq_of_add_le h

/-- Bits 63:62 and 52:42 of a record's fifth word: the kind of access and the vlane (R322). -/
theorem extract_recAccess (acc : BitVec 2) (lane : BitVec 1) (hint : BitVec 8) (vl : BitVec 11) (code : BitVec 12) :
    (acc ++ lane ++ hint ++ vl ++ 0#30 ++ code).extractLsb' 62 2 = acc ∧
    (acc ++ lane ++ hint ++ vl ++ 0#30 ++ code).extractLsb' 42 11 = vl := by
  simp (disch := omega) only [BitVec.extractLsb'_append_eq_of_le]
  exact ⟨BitVec.extractLsb'_eq_self, BitVec.extractLsb'_append_eq_right⟩

/-- What a record names of a scalar access: its address, its kind, the vlane of its stream (R322). -/
theorem groupRecord_access (gid : Gid) (g : Group) (i : Info) (addr : W64) (word : BitVec 96) (hv : i.vlane = none) :
    let r := groupRecord 0 gid g i false addr word 0 0 false
    r.extractLsb' 64 64 = i.va ∧ r.extractLsb' 318 2 = i.acc ∧ r.extractLsb' 298 11 = 1024 + g.gidx.setWidth 11 := by
  obtain ⟨hacc, hvl⟩ := extract_recAccess i.acc (bit false) i.hint (1024 + BitVec.ofNat 11 g.gidx.toNat) i.code
  have hgidx : BitVec.ofNat 11 g.gidx.toNat = g.gidx.setWidth 11 := BitVec.ofNat_toNat ..
  simp only [groupRecord, hv, Bool.false_eq_true, if_false]
  exact ⟨extract_recWords_1 .., (extract_recWords_4 _ _ _ _ _ _ _ _ 62 2 (by omega)).trans hacc,
    (extract_recWords_4 _ _ _ _ _ _ _ _ 42 11 (by omega)).trans (hgidx ▸ hvl)⟩

/-- A trap that enters a handler leaves the record of its instruction (R316, R322). -/
theorem raiseTrap_record {s : State} (h : TrapEnters s) (lane : Bool) (i : Info) (addr : W64) (word : BitVec 96) (pc : W64) :
    s.raiseTrap s.curG lane i addr word pc =
      s.enterHandler s.curG i.cause (groupRecord 0 s.curG s.cur (i.named addr) lane addr word 0 0 false) pc s.cur.ln.lpc := by
  obtain ⟨hon, hlogit, hst, herr⟩ := h
  have ecur : s.group s.curG = s.cur := rfl
  have ecause : (i.named addr).cause = i.cause := by unfold Info.named; split <;> rfl
  unfold State.raiseTrap State.takeTrap
  rw [herr, ecur]
  simp only [hon, hlogit, hst, ecause, Bool.false_eq_true, Bool.false_and, if_false]

/-! Reads and writes of memory at their home -/

/-- A read of memory that no later block has tagged (R68, R335). -/
theorem physRead_memory {s : State} {ag : Agent} {va : W64} {a n : Nat} (hnode : paNode a = 0) (hreg : paRegion a < 2)
    (hbad : s.bad a n = false) (hwho : ag.who.bind (fun w => if inHbm a then tagAbove s w a n else none) = none) :
    (physRead ag va a n).run s = .ok (peek s.mem a n) s := by
  unfold physRead
  rw [run_bind, run_get]
  dsimp only
  rw [if_neg (not_not.2 hnode), if_pos hreg, hwho]
  simp only [hbad, Bool.false_eq_true, if_false, run_pure]

/-- What a state is after bytes were written and the group that moves changed by `f`. -/
theorem storedAt_after (s : State) (w : Option (BitVec 3 × W32 × W32)) (a n v : Nat) (f : Group → Group)
    (hf : ∀ g b, f { g with fired := b } = { f g with fired := b }) :
    let u := (s.write a (natToBytes n v)).tagWrite w a n
    peek (u.setCur (f u.cur)).mem a n = v % 2 ^ (8 * n) ∧ StoredAt (s.setCur (f s.cur)) (u.setCur (f u.cur)) a n := by
  intro u
  have hst : StoredAt s u a n := by
    have := storedAt_write s w a (natToBytes n v)
    rwa [natToBytes_length] at this
  have hcur : u.curG = s.curG := by rw [show u = _ from tagWrite_eq _ _ _ _]; rfl
  have hmem : (u.setCur (f u.cur)).mem = pokeBytes s.mem a (natToBytes n v) := by
    change u.mem = _
    rw [show u = _ from tagWrite_eq _ _ _ _]; rfl
  refine ⟨?_, storedAt_setCur f hf hcur hst⟩
  rw [hmem, peek_pokeBytes, Nat.pow_mul]

/-! The run of a scalar atomic -/

/-- One access of one byte whose page translates (R203). -/
theorem resolveAll_translates {tr : Nat → Acc Nat} {va : W64} {s s1 : State} {pa : Nat} (h : (tr 0).run s = .ok pa s1) :
    (resolveAll tr 1 [{ off := 0, va := va }]).run s = .ok [[pa]] s1 := by
  have hroom : 1 ≤ 0x10000 - va.toNat % 0x10000 := by omega
  have hpart : (resolvePart tr none 0 va []).run s = .ok (some pa, []) s1 := by
    unfold resolvePart
    rw [if_neg (by simp), run_bind, run_attempt, h]
    rfl
  have hone : (resolveOne tr 1 { off := 0, va := va } []).run s = .ok ([pa], []) s1 := by
    unfold resolveOne
    rw [run_bind, hpart]
    dsimp only
    rw [if_pos hroom]
    rfl
  have hlist : (resolveList tr 1 [{ off := 0, va := va }] []).run s = .ok ([[pa]], []) s1 := by
    unfold resolveList
    rw [run_bind, hone]
    rfl
  unfold resolveAll
  rw [run_bind, hlist]
  rfl

theorem run_asKind {α : Type} (k : AKind) (m : Acc α) (s : State) : (asKind k m).run s =
    match m.run s with | .error (.fault i) t => .error (.fault { i with acc := k.code }) t | r => r := rfl

/-- The operand b of an atomic as its instruction uses it: none for `oclose` (R204). -/
def atomB (g : Group) (d : SReg) (op : AtomOp) (ty : AtomTy) : Nat := if op == .oclose then 0 else (g.sr d).toNat % 2 ^ ty.bits
/-- Its operand c: none but for `cas`. -/
def atomC (g : Group) (d : SReg) (op : AtomOp) (ty : AtomTy) : Nat := if op == .cas then (g.sr (d + 1)).toNat % 2 ^ ty.bits else 0
/-- The operands of a scalar atomic as it logs them. -/
def atomOperands (g : Group) (d o : SReg) (op : AtomOp) : Srcs := { sc := (List.range (atomSrcs op)).map (g.srAt d) ++ [g.sr o] }

theorem atomOperands_va (g : Group) (d o : SReg) (op : AtomOp) : (atomOperands g d o op).s (atomSrcs op) = g.sr o := by
  simp [atomOperands, Srcs.s]
theorem atomOperands_b (g : Group) (d o : SReg) (op : AtomOp) (ty : AtomTy) :
    (if op == .oclose then 0 else ((atomOperands g d o op).s 0).toNat % 2 ^ ty.bits) = atomB g d op ty := by
  have h0 : g.srAt d 0 = g.sr d := by rw [Group.srAt, BitVec.add_zero]
  cases op <;> simp [atomOperands, atomB, Srcs.s, atomSrcs, List.range_succ, h0]
theorem atomOperands_c (g : Group) (d o : SReg) (op : AtomOp) (ty : AtomTy) :
    (if op == .cas then ((atomOperands g d o op).s 1).toNat % 2 ^ ty.bits else 0) = atomC g d op ty := by
  have h1 : g.srAt d 1 = g.sr (d + 1) := rfl
  cases op <;> simp [atomOperands, atomC, Srcs.s, atomSrcs, List.range_succ, h1]

section

variable {s s1 : State} {d o : SReg} {op : AtomOp} {ty : AtomTy} {r : Order} {pa : Nat}
  (hrep : s.cur.replaying false = none) (htr : Translates s (s.cur.sr o) .atomic pa s1)

include htr

/-- Once the page is translated, the checks come before the access (R62; log 80). -/
theorem atomBody_run : (atomBody d op ty (atomOperands s.cur d o op)).run s =
    match atomCheck (s1.isDet s1.cur.part s1.cur.launch) op ty pa (atomB s.cur d op ty) with
    | some e => .error (.fault { cause := e, va := s.cur.sr o, acc := AKind.atomic.code }) s1
    | none => (do
        let v ← wholly (asKind .atomic (atomApply (groupAgent s.curG s.cur) s1.cur s1.cur.scalarVlane op ty (s.cur.sr o) pa
          (atomB s.cur d op ty) (atomC s.cur d op ty)))
        if op == .fxadd || op == .oadd then pure () else modifyCur (fun g => g.setSr d (atomResult ty v)) : Acc Unit).run s1 := by
  have htr0 : (translate (groupAgent s.curG s.cur) (s.cur.sr o + BitVec.ofNat 64 0) .atomic).run s = .ok pa s1 := by
    rw [BitVec.add_zero]; exact htr
  have hpa : ([[pa]].getD 0 []).getD 0 0 = pa := rfl
  unfold atomBody
  rw [run_bind, run_curAgent]
  dsimp only
  rw [run_bind, atomOperands_va, resolveAll_translates htr0]
  dsimp only
  rw [run_bind, run_getCur]
  dsimp only
  rw [run_bind, run_get, atomOperands_b, atomOperands_c, hpa]
  dsimp only
  cases atomCheck (s1.isDet s1.cur.part s1.cur.launch) op ty pa (atomB s.cur d op ty) <;> rfl

include hrep

omit htr in
/-- A check that fails, or a refusal of the window, traps precisely; the record names the access and the target (R62). -/
theorem exec_atom_refused {i : Info} (hbody : (atomBody d op ty (atomOperands s.cur d o op)).run s = .error (.fault i) s1)
    (hi : i = { cause := i.cause, va := s.cur.sr o, acc := AKind.atomic.code }) (hd : i.cause.deferred = false) (hcur : s1.curG = s.curG)
    (ht : TrapEnters s1) : ∃ rec, RecordOf rec i.cause s.cur.pc ∧ rec.extractLsb' 64 64 = s.cur.sr o ∧ rec.extractLsb' 318 2 = 2#2 ∧
      rec.extractLsb' 298 11 = 1024 + s1.cur.gidx.setWidth 11 ∧
      exec (.atom d o op ty r) s = .next (s1.enterHandler s.curG i.cause rec s.cur.pc s1.cur.ln.lpc) := by
  have hnamed : i.named s.cur.pc = i := by rw [hi]; rfl
  obtain ⟨hva, hacc, hvl⟩ := groupRecord_access s1.curG s1.cur i s.cur.pc ((encodeScalar (.atom d o op ty r)).setWidth 96) (by rw [hi])
  refine ⟨_, recordOf_groupRecord s1.curG s1.cur i false s.cur.pc ((encodeScalar (.atom d o op ty r)).setWidth 96) 0 0 false,
    hva.trans (by rw [hi]), hacc.trans (by rw [hi]; rfl), hvl, ?_⟩
  have hstop : exec (.atom d o op ty r) s = finish false false s.cur.pc ((encodeScalar (.atom d o op ty r)).setWidth 96)
      (some (atomOperands s.cur d o op)) s (.error (.fault i) s1) := scalarMem_stops hrep hbody
  rw [hstop, finish_traps hd, ← hcur, raiseTrap_record ht, hnamed]

variable (hcheck : atomCheck (s1.isDet s1.cur.part s1.cur.launch) op ty pa (atomB s.cur d op ty) = none)

include hcheck

/-- An atomic that performs moves on, with the old value in its register where it gives one back (R61, R204). -/
theorem exec_atom_performs {v : Nat} {t : State}
    (happly : (atomApply (groupAgent s.curG s.cur) s1.cur s1.cur.scalarVlane op ty (s.cur.sr o) pa (atomB s.cur d op ty)
      (atomC s.cur d op ty)).run s1 = .ok v t) :
    exec (.atom d o op ty r) s = .next (t.setCur
      (if op == .fxadd || op == .oadd then t.cur else t.cur.setSr d (atomResult ty v)).pc4) := by
  have hbody : (atomBody d op ty (atomOperands s.cur d o op)).run s =
      .ok () (if op == .fxadd || op == .oadd then t else t.setCur (t.cur.setSr d (atomResult ty v))) := by
    rw [atomBody_run htr, hcheck]
    dsimp only
    rw [run_bind, run_wholly, run_asKind, happly]
    dsimp only
    split <;> rfl
  refine (scalarMem_next hrep hbody).trans ?_
  split
  · rfl
  · rw [State.cur_setCur, State.setCur_setCur]

/-- A refusal of an ordered-add window changes nothing (R65, R66). -/
theorem exec_atom_withdrawn {c : Cause}
    (happly : (atomApply (groupAgent s.curG s.cur) s1.cur s1.cur.scalarVlane op ty (s.cur.sr o) pa (atomB s.cur d op ty)
      (atomC s.cur d op ty)).run s1 = .error (.fault { cause := c, va := s.cur.sr o }) s1) (hd : c.deferred = false)
    (hcur : s1.curG = s.curG) (ht : TrapEnters s1) :
    ∃ rec, RecordOf rec c s.cur.pc ∧ exec (.atom d o op ty r) s = .next (s1.enterHandler s.curG c rec s.cur.pc s1.cur.ln.lpc) := by
  have hbody : (atomBody d op ty (atomOperands s.cur d o op)).run s =
      .error (.fault { cause := c, va := s.cur.sr o, acc := AKind.atomic.code }) s1 := by
    rw [atomBody_run htr, hcheck]
    dsimp only
    rw [run_bind, run_wholly, run_asKind, happly]
    rfl
  obtain ⟨rec, hrec, _, _, _, hexec⟩ := exec_atom_refused (r := r) hrep hbody rfl hd hcur ht
  exact ⟨rec, hrec, hexec⟩

end

/-! What an atomic does at its home -/

section

variable {s : State} {ag : Agent} {g : Group} {vl : BitVec 11} {op : AtomOp} {ty : AtomTy} {va : W64} {pa : Nat} (b c : Nat)
  (hnode : paNode pa = 0)

include hnode

/-- The codes 0x00 to 0x09: the old value is read, the new one written (R61). -/
theorem atomApply_simple (hop : op.special = false) (hreg : paRegion pa < 2)
    (hread : (physRead ag va pa (ty.bits / 8)).run s = .ok (peek s.mem pa (ty.bits / 8)) s) :
    (atomApply ag g vl op ty va pa b c).run s = .ok (peek s.mem pa (ty.bits / 8))
      ((s.write pa (natToBytes (ty.bits / 8) (atomNew op ty (peek s.mem pa (ty.bits / 8)) b c))).tagWrite ag.who pa (ty.bits / 8)) := by
  have hrmw : atomApply ag g vl op ty va pa b c = (physRead ag va pa (ty.bits / 8) >>= fun old =>
      physWrite ag pa (natToBytes (ty.bits / 8) (atomNew op ty old b c)) >>= fun _ => pure old) := by
    cases op
    case fxadd | oadd | oclose => exact absurd hop (by decide)
    all_goals exact if_neg (not_not.2 hnode)
  rw [hrmw, run_bind, hread]
  dsimp only
  rw [run_bind, physWrite_mem hnode hreg, natToBytes_length]
  rfl

/-- `fxadd` adds to its cell (R64). -/
theorem atomApply_fxadd (hreg : paRegion pa < 2) (hbad : s.bad pa 16 = false) :
    (atomApply ag g vl .fxadd ty va pa b c).run s = .ok 0
      ((s.write pa (natToBytes 16 (((peek s.mem pa 16 : Int) + fxInt b) % 2 ^ 128).toNat)).tagWrite ag.who pa 16) := by
  unfold atomApply
  rw [if_neg (not_not.2 hnode)]
  dsimp only
  rw [run_bind, physRead_memory hnode hreg hbad rfl]
  dsimp only
  rw [run_bind, physWrite_mem hnode hreg, natToBytes_length]
  rfl

theorem run_atomApply_oadd : (atomApply ag g vl .oadd ty va pa b c).run s =
    match (contribute g.part g.launch g.block vl ty va pa b).run s with | .ok _ t => .ok 0 t | .error e t => .error e t := by
  unfold atomApply
  rw [if_neg (not_not.2 hnode)]
  dsimp only
  rw [run_bind]
  cases (contribute g.part g.launch g.block vl ty va pa b).run s <;> rfl

/-- `oclose` without a window only reads (R66). -/
theorem atomApply_oclose_none (hwin : s.winAt pa = none)
    (hread : (physRead ag va pa (ty.bits / 8)).run s = .ok (peek s.mem pa (ty.bits / 8)) s) :
    (atomApply ag g vl .oclose ty va pa b c).run s = .ok (peek s.mem pa (ty.bits / 8)) s := by
  unfold atomApply
  rw [if_neg (not_not.2 hnode)]
  dsimp only
  rw [run_bind, run_get]
  dsimp only
  rw [hwin]
  exact hread

variable {w : OWin} (hwin : s.winAt pa = some w)

include hwin

theorem atomApply_oclose_other (hty : w.ty ≠ ty) :
    (atomApply ag g vl .oclose ty va pa b c).run s = .error (.fault { cause := .oaddType, va := va }) s := by
  unfold atomApply
  rw [if_neg (not_not.2 hnode)]
  dsimp only
  rw [run_bind, run_get]
  dsimp only
  rw [hwin]
  dsimp only
  rw [if_pos hty]
  rfl

theorem atomApply_oclose_closes (hty : w.ty = ty)
    (hread : (physRead ag va pa (ty.bits / 8)).run s = .ok (peek s.mem pa (ty.bits / 8)) s) :
    (atomApply ag g vl .oclose ty va pa b c).run s = .ok (w.apply (peek s.mem pa (ty.bits / 8))) (s.closeWindow w ag.who) := by
  unfold atomApply
  rw [if_neg (not_not.2 hnode)]
  dsimp only
  rw [run_bind, run_get]
  dsimp only
  rw [hwin]
  dsimp only
  rw [if_neg (not_not.2 hty), run_bind, show targetBytes .oclose ty = ty.bits / 8 from rfl, hread]
  rfl

end

/-! Ordered-add windows (R65, R66) -/

theorem loc_of_winAt {s : State} {pa : Nat} {w : OWin} (h : s.winAt pa = some w) : w.loc = pa := by
  simpa using List.find?_some h

theorem tagWrite_owins (s : State) (who : Option (BitVec 3 × W32 × W32)) (pa n : Nat) (l : List OWin) :
    { s.tagWrite who pa n with owins := l } = ({ s with owins := l } : State).tagWrite who pa n := by
  cases who with
  | none => rfl
  | some x =>
    unfold State.tagWrite
    by_cases h : (s.isDet x.1 x.2.1 && inHbm pa && n != 0) = true
    · have h' : (({ s with owins := l } : State).isDet x.1 x.2.1 && inHbm pa && n != 0) = true := h
      dsimp only
      rw [if_pos h, if_pos h']
    · have h' : ¬ (({ s with owins := l } : State).isDet x.1 x.2.1 && inHbm pa && n != 0) = true := h
      dsimp only
      rw [if_neg h, if_neg h']

/-- A window closed is its location written, with the window gone (R66). -/
theorem closeWindow_eq (s : State) (w : OWin) (who : Option (BitVec 3 × W32 × W32)) :
    let n := w.ty.bits / 8
    s.closeWindow w who = (({ s with owins := s.owins.filter (fun x => x.loc ≠ w.loc) } : State).write w.loc
      (natToBytes n (w.apply (peek s.mem w.loc n)))).tagWrite who w.loc n := by
  have hfilter : (fun x : OWin => x.loc != w.loc) = fun x => decide (x.loc ≠ w.loc) := funext fun x => by
    rw [Bool.eq_iff_iff]; simp
  intro n
  have howins : ((s.write w.loc (natToBytes n (w.apply (peek s.mem w.loc n)))).tagWrite who w.loc n).owins = s.owins := by
    rw [tagWrite_eq]; rfl
  rw [State.closeWindow, howins, hfilter, tagWrite_owins]
  rfl

/-- The contribution of a thread behind those that it has made to a window (R65). -/
def OWin.following (w : OWin) (block : W32) (vl : BitVec 11) (b : Nat) : Contrib :=
  { block := block, vlane := vl, seq := (w.cs.filter (fun c => c.block == block && c.vlane == vl)).length, value := BitVec.ofNat 64 b }

section

variable {s : State} {part : BitVec 3} {launch block : W32} {vl : BitVec 11} {ty : AtomTy} {va : W64} {pa b : Nat}

theorem contribute_opens (hwin : s.winAt pa = none) (hroom : (s.owins.filter (fun w => paDie w.loc == paDie pa)).length < 1024) :
    (contribute part launch block vl ty va pa b).run s = .ok () { s with owins :=
      { loc := pa, ty := ty, part := part, launch := launch,
        cs := [{ block := block, vlane := vl, seq := 0, value := BitVec.ofNat 64 b }] } :: s.owins } := by
  unfold contribute
  rw [run_bind, run_get]
  dsimp only
  rw [hwin]
  dsimp only
  rw [if_neg (by omega)]
  rfl

theorem contribute_full (hwin : s.winAt pa = none) (hfull : 1024 ≤ (s.owins.filter (fun w => paDie w.loc == paDie pa)).length) :
    (contribute part launch block vl ty va pa b).run s = .error (.fault { cause := .oaddFull, va := va }) s := by
  unfold contribute
  rw [run_bind, run_get]
  dsimp only
  rw [hwin]
  dsimp only
  rw [if_pos hfull]
  rfl

/-- A contribution to an open window: the refusals in their order, else it joins behind those of its thread (R65). -/
theorem contribute_window {w : OWin} (hwin : s.winAt pa = some w) :
    (contribute part launch block vl ty va pa b).run s =
      if w.ty ≠ ty then .error (.fault { cause := .oaddType, va := va }) s
      else if w.part ≠ part ∨ w.launch ≠ launch then .error (.fault { cause := .oaddForeign, va := va }) s
      else if 65536 ≤ w.cs.length then .error (.fault { cause := .oaddFull, va := va }) s
      else .ok () { s with owins := s.owins.map (fun (x : OWin) => if x.loc = pa then
          { x with cs := x.cs ++ [w.following block vl b] } else x) } := by
  unfold contribute
  rw [run_bind, run_get]
  dsimp only
  rw [hwin]
  dsimp only
  simp only [beq_iff_eq]
  split_ifs <;> rfl

end

/-! Settlement -/

/-- The new values of the codes 0x00 to 0x09, written out (R61). -/
theorem atomNew_spec (op : AtomOp) (ty : AtomTy) (old b c : Nat) :
    let iv := fun (x : Nat) => if ty = .i32 ∨ ty = .i64 then (BitVec.ofNat ty.bits x).toInt else ((x % 2 ^ ty.bits : Nat) : Int)
    let code := fun (z : Int) => (z % 2 ^ ty.bits).toNat
    atomNew op ty old b (if op == .cas then c else 0) = match op with
      | .add => code (iv old + iv b) | .sadd => code (clampInt ty.lty (iv old + iv b))
      | .min => code (min (iv old) (iv b)) | .max => code (max (iv old) (iv b))
      | .and => old &&& b | .or => old ||| b | .xor => old ^^^ b | .exch => b
      | .cas => if old = c then b else old
      | .fadd => (faddRn (BitVec.ofNat 32 old) (BitVec.ofNat 32 b)).toNat
      | _ => old := by
  intro iv code
  have hiv (x : Nat) : intOf ty.lty x = iv x := intOf_atom ty x
  have hcode (z : Int) : codeOf ty.lty z = code z := codeOf_atom ty z
  cases op <;> simp only [atomNew, hiv, hcode] <;> rfl

/-- No check of R62 is deferred. -/
theorem atomCheck_precise {det : Bool} {op : AtomOp} {ty : AtomTy} {pa b : Nat} {e : Cause} (h : atomCheck det op ty pa b = some e) :
    e.deferred = false := by
  unfold atomCheck at h
  split_ifs at h <;> cases h <;> rfl

/-- Settles O29: `atomCheck_spec` says which check fails first and `exec_atom_refused` that it traps; `exec_atom_performs` carries what the
operation does at its home (`atomApply_simple`, `atomApply_fxadd`, `contribute_opens`, `contribute_window`, `atomApply_oclose_closes`)
over to the instruction, `exec_atom_withdrawn` a window's refusal; `sortContribs_unique` gives the order of the sum. -/
theorem scalarAtomics : Obligations.ScalarAtomics := by
  intro s s1 d o op ty r pa hrep htr hcur wd n b c old iv code new res det
  let ag := groupAgent s.curG s.cur
  let va := s.cur.sr o
  have hb (h : op ≠ .oclose) : atomB s.cur d op ty = b := if_neg (by simpa using h)
  have hcheckB : atomCheck det op ty pa (atomB s.cur d op ty) = atomCheck det op ty pa b := by
    by_cases hop : op = .fxadd
    · rw [hb (by rw [hop]; decide)]
    · exact atomCheck_congr hop ..
  have hread (h : Readable s1 pa n) : (physRead ag va pa n).run s1 = .ok old s1 := by
    obtain ⟨hnode, hreg, hbad, htag⟩ := h
    exact physRead_memory hnode hreg hbad (translates_who htr ▸ htag)
  have hperform {v : Nat} {t : State} (hcheck : atomCheck det op ty pa b = none)
      (happly : (atomApply ag s1.cur s1.cur.scalarVlane op ty va pa (atomB s.cur d op ty) (atomC s.cur d op ty)).run s1 = .ok v t) :=
    exec_atom_performs (r := r) hrep htr (hcheckB.trans hcheck) happly
  have hwithdraw {e : Cause} (hcheck : atomCheck det op ty pa b = none)
      (happly : (atomApply ag s1.cur s1.cur.scalarVlane op ty va pa (atomB s.cur d op ty) (atomC s.cur d op ty)).run s1 =
        .error (.fault { cause := e, va := va }) s1) (hd : e.deferred = false) (ht : TrapEnters s1) :=
    exec_atom_withdrawn (r := r) hrep htr (hcheckB.trans hcheck) happly hd hcur ht
  refine ⟨atomCheck_spec det op ty pa b, fun e he ht => ?_, fun hcheck hop hr => ?_, fun hop hty hcheck hhbm hbad => ?_,
    fun hop hcheck hnode hwin hroom => ?_, fun w hop hcheck hnode hwin => ?_, fun hop hcheck hr => ?_,
    fun w hop hcheck hr hwin hty ht => ?_, fun hop hcheck hnode hwin hfull ht => ?_⟩
  · have hbody : (atomBody d op ty (atomOperands s.cur d o op)).run s =
        .error (.fault { cause := e, va := va, acc := AKind.atomic.code }) s1 := by rw [atomBody_run htr, hcheckB.trans he]
    exact exec_atom_refused hrep hbody rfl (atomCheck_precise he) hcur ht
  · obtain ⟨hfx, hoadd, _⟩ := (special_eq_false_iff op).1 hop
    obtain ⟨hnode, hreg, _, _⟩ := id hr
    have hexec := hperform hcheck (atomApply_simple _ _ hnode hop hreg (hread hr))
    rw [if_neg (by simp [hfx, hoadd])] at hexec
    obtain ⟨hpeek, hst⟩ := storedAt_after s1 ag.who pa n (atomNew op ty old (atomB s.cur d op ty) (atomC s.cur d op ty))
      (fun g => (g.setSr d (atomResult ty old)).pc4) (fun _ _ => rfl)
    have hnew : atomNew op ty old (atomB s.cur d op ty) (atomC s.cur d op ty) = new := by
      rw [hb (by rintro rfl; exact absurd hop (by decide))]; exact atomNew_spec op ty old b c
    refine ⟨_, hexec, hpeek.trans (by rw [hnew]), ?_⟩
    change StoredAt (s1.setCur (s1.cur.setSr d res).pc4) _ pa n
    rw [show res = atomResult ty old from (atomResult_eq ty old).symm]
    exact hst
  · subst hop hty
    obtain ⟨hnode, hreg⟩ : paNode pa = 0 ∧ paRegion pa = 0 := by simpa [inHbm] using hhbm
    have hsum : (0 : Int) ≤ ((peek s1.mem pa 16 : Int) + fxInt b) % 2 ^ 128 := Int.emod_nonneg _ (by decide)
    have hlt : ((peek s1.mem pa 16 : Int) + fxInt b) % 2 ^ 128 < 2 ^ 128 := Int.emod_lt_of_pos _ (by decide)
    obtain ⟨hpeek, hst⟩ := storedAt_after s1 ag.who pa 16 (((peek s1.mem pa 16 : Int) + fxInt b) % 2 ^ 128).toNat Group.pc4 (fun _ _ => rfl)
    have happly := atomApply_fxadd (ag := ag) (g := s1.cur) (vl := s1.cur.scalarVlane) (ty := .f32) (va := va)
      (atomB s.cur d .fxadd .f32) (atomC s.cur d .fxadd .f32) hnode (by omega) hbad
    rw [hb (by decide)] at happly
    exact ⟨_, hperform hcheck (hb (by decide) ▸ happly), (congrArg (Nat.cast : Nat → Int) hpeek).trans (by omega), hst⟩
  · subst hop
    exact hperform hcheck (by rw [run_atomApply_oadd _ _ hnode, contribute_opens hwin hroom, hb (by decide)])
  · subst hop
    intro traps mine next
    refine ⟨fun hty ht => ?_, fun hty hother ht => ?_, fun ⟨hty, hpart, hlaunch⟩ hfull ht => ?_, fun ⟨hty, hpart, hlaunch⟩ hroom => ?_⟩
    · exact hwithdraw hcheck (by rw [run_atomApply_oadd _ _ hnode, contribute_window hwin, if_pos hty]) rfl ht
    · exact hwithdraw hcheck (by
        rw [run_atomApply_oadd _ _ hnode, contribute_window hwin, if_neg (not_not.2 hty), if_pos hother]) rfl ht
    · exact hwithdraw hcheck (by
        rw [run_atomApply_oadd _ _ hnode, contribute_window hwin, if_neg (not_not.2 hty), if_neg (by simp [hpart, hlaunch]), if_pos hfull])
        rfl ht
    · exact hperform hcheck (by
        rw [run_atomApply_oadd _ _ hnode, contribute_window hwin, if_neg (not_not.2 hty), if_neg (by simp [hpart, hlaunch]),
          if_neg (Nat.not_le.2 hroom), hb (by decide)]; rfl)
  · subst hop
    intro put plus before
    obtain ⟨hnode, _, _, _⟩ := id hr
    have hput (u : State) (v : Nat) : u.setCur (s1.cur.setSr d (atomResult ty v)).pc4 = put u v := by rw [atomResult_eq]; rfl
    refine ⟨fun hwin => ?_, fun w l hwin hty hperm hl => ?_⟩
    · rw [← hput]
      exact hperform hcheck (atomApply_oclose_none _ _ hnode hwin (hread hr))
    · intro v
      subst hty
      have hloc := loc_of_winAt hwin
      have happly : w.apply (peek s1.mem pa n) = v := by
        have hplus (x y : Nat) : addTyped w.ty x y = plus x y := by rw [addTyped_atom, codeOf_atom, intOf_atom, intOf_atom]
        simp only [OWin.apply, sortContribs_unique hperm hl, hplus, v]
        rfl
      have hclose : s1.closeWindow w ag.who = (({ s1 with owins := s1.owins.filter (fun x => x.loc ≠ pa) } : State).write pa
          (natToBytes n v)).tagWrite ag.who pa n := by
        rw [← happly, ← hloc]
        exact closeWindow_eq s1 w ag.who
      have hexec := hperform hcheck (atomApply_oclose_closes _ _ hnode hwin rfl (hread hr))
      obtain ⟨hpeek, hst⟩ := storedAt_after { s1 with owins := s1.owins.filter (fun (x : OWin) => x.loc ≠ pa) } ag.who pa n v
        (fun g => (g.setSr d (atomResult w.ty v)).pc4) (fun _ _ => rfl)
      rw [happly, hclose] at hexec
      exact ⟨_, hexec, hpeek, by rw [← hput]; exact hst⟩
  · subst hop
    obtain ⟨hnode, _, _, _⟩ := hr
    exact hwithdraw hcheck (atomApply_oclose_other _ _ hnode hwin hty) rfl ht
  · subst hop
    exact hwithdraw hcheck (by rw [run_atomApply_oadd _ _ hnode, contribute_full hwin hfull]) rfl ht

end Sys2Proof.Machine
end

section
/-! PROOFS. Copy instructions: the record, the queue's place, the slot's shadow, the group that issued (O35). -/

set_option Elab.async false

namespace Sys2Proof.Machine

/-! Fields of a packed record (R77) -/

section

variable (kind : BitVec 8) (trig : Bool) (dk : BitVec 2) (ndims : BitVec 4) (el : BitVec 3) (ctr : BitVec 8) (len : W32)
  (src dest aux0 aux1 tv mask : W64)

/-- The fields of a record below bit 416 are the words that it ends with. -/
theorem mkRecord_words :
    let w := mkRecord kind trig dk ndims el ctr len src dest aux0 aux1 tv mask
    cMask w = mask ∧ w.extractLsb' 64 64 = tv ∧ cAux1 w = aux1 ∧ cAux0 w = aux0 ∧ cDest w = dest ∧ cSrc w = src ∧
      cLen w = len.toNat := by
  intro w
  simp (disch := omega) only [w, mkRecord, cMask, cAux1, cAux0, cDest, cSrc, cLen, bitsOf, BitVec.extractLsb'_append_eq_of_le,
    Nat.sub_self, Nat.reduceSub, BitVec.extractLsb'_append_eq_right, and_self]

/-- The fields of a record's seventh word above its length. -/
theorem mkRecord_head :
    let w := mkRecord kind trig dk ndims el ctr len src dest aux0 aux1 tv mask
    w.extractLsb' 416 8 = ctr ∧ cElem w = el.toNat ∧ cDims w = ndims.toNat ∧ w.extractLsb' 439 1 = bit trig ∧ cKind w = kind.toNat := by
  intro w
  simp (disch := omega) only [w, mkRecord, cElem, cDims, cKind, bitsOf, BitVec.extractLsb'_append_eq_of_le,
    Nat.sub_self, Nat.reduceSub, BitVec.extractLsb'_append_eq_right, and_self]

theorem cTrig_mkRecord : cTrig (mkRecord kind trig dk ndims el ctr len src dest aux0 aux1 tv mask) = trig := by
  obtain ⟨_, _, _, hbit, _⟩ := mkRecord_head kind trig dk ndims el ctr len src dest aux0 aux1 tv mask
  have hget := congrArg (fun (x : BitVec 1) => x.getLsbD 0) hbit
  rw [BitVec.getLsbD_extractLsb'] at hget
  cases trig <;> exact hget

end

/-! The record of a run of registers (R216) -/

/-- The bits of a word from `lo` up are zero. -/
theorem bitsOf_top_eq_zero (x : W64) {lo n : Nat} (h : lo + n = 64) : bitsOf x lo n = 0 ↔ x.toNat < 2 ^ lo := by
  have hx : x.toNat / 2 ^ lo < 2 ^ n := Nat.div_lt_of_lt_mul (by rw [← Nat.pow_add, h]; exact x.isLt)
  rw [bitsOf_eq, Nat.mod_eq_of_lt hx, Nat.div_eq_zero_iff, or_iff_right (Nat.two_pow_pos lo).ne']

/-- Every register of the run fits its field of the record (R216). -/
def RunFits (g : Group) (a : SReg) (kind : BitVec 8) (trig : Bool) (n : Nat) : Prop :=
  (kind ≠ 2 → (g.srAt a 2).toNat < 2 ^ 32) ∧ (kind = 2 → (g.srAt a 2).toNat < 2 ^ 7) ∧ (kind = 3 → (g.srAt a 4).toNat < 2 ^ 32) ∧
    (kind = 4 → (g.srAt a 3).toNat < 2 ^ 16) ∧ (trig = true → (g.srAt a n).toNat < 2 ^ 8)

section

variable (g : Group) (a : SReg) (kind : BitVec 8) (dk : BitVec 2) (trig : Bool) (n : Nat)

/-- The record that a run packs, with kind and trigger flag as given. -/
def runPack (k : BitVec 8) (tr : Bool) : BitVec 512 :=
  let r := g.srAt a
  let t := fun (k : Nat) => if trig then r (n + k) else 0
  let ctr := (t 0).extractLsb' 0 8
  if kind = 2 then mkRecord k tr dk ((r 2).extractLsb' 0 4) ((r 2).extractLsb' 4 3) ctr 0 (r 0) (r 1) (r 3) 0 (t 1) 0
  else if kind = 3 then mkRecord k tr dk 0 0 ctr ((r 2).extractLsb' 0 32) (r 0) (r 1) (r 3) (r 4) (t 1) 0
  else if kind = 4 then mkRecord k tr dk 0 0 ctr ((r 2).extractLsb' 0 32) (r 0) (r 1) 0 (r 3) (t 1) (r 4)
  else mkRecord k tr dk 0 0 ctr ((r 2).extractLsb' 0 32) (r 0) (r 1) 0 0 (t 1) 0

open Classical in
/-- A run packs its own kind where its registers fit, and kind 0 where one does not (R216). -/
theorem runRecord_eq : runRecord g a kind dk trig n =
    if RunFits g a kind trig n then runPack g a kind dk trig n kind trig else runPack g a kind dk trig n 0 false := by
  have hfits : RunFits g a kind trig n ↔ (decide (kind = 2 ∨ bitsOf (g.srAt a 2) 32 32 = 0) &&
      decide (kind ≠ 2 ∨ bitsOf (g.srAt a 2) 7 57 = 0) && decide (kind ≠ 3 ∨ bitsOf (g.srAt a 4) 32 32 = 0) &&
      decide (kind ≠ 4 ∨ bitsOf (g.srAt a 3) 16 48 = 0) &&
      decide (bitsOf (if trig then g.srAt a (n + 0) else 0) 8 56 = 0)) = true := by
    have htrig : bitsOf (if trig then g.srAt a (n + 0) else 0) 8 56 = 0 ↔ (trig = true → (g.srAt a n).toNat < 2 ^ 8) := by
      cases trig
      · simp [bitsOf]
      · simpa using bitsOf_top_eq_zero (g.srAt a n) (lo := 8) (n := 56) rfl
    simp only [Bool.and_eq_true, decide_eq_true_eq, htrig, bitsOf_top_eq_zero _ (show 32 + 32 = 64 from rfl),
      bitsOf_top_eq_zero _ (show 7 + 57 = 64 from rfl), bitsOf_top_eq_zero _ (show 16 + 48 = 64 from rfl), RunFits, ← and_assoc,
      imp_iff_not_or, Ne, not_not]
  by_cases h : RunFits g a kind trig n
  · rw [if_pos h, runRecord]
    simp only [hfits.1 h, if_true, Bool.and_true]
    rfl
  · rw [if_neg h, runRecord]
    simp only [Bool.eq_false_iff.2 (mt hfits.2 h), Bool.false_eq_true, if_false, Bool.and_false]
    rfl

/-- Whatever the kind, a run packs its first two registers and its trigger's; the kind says what the other fields hold (R216). -/
theorem runPack_eq_mkRecord (k : BitVec 8) (tr : Bool) : ∃ ndims el len aux0 aux1 mask,
    let r := g.srAt a
    let t := fun (k : Nat) => if trig then r (n + k) else 0
    runPack g a kind dk trig n k tr = mkRecord k tr dk ndims el ((t 0).extractLsb' 0 8) len (r 0) (r 1) aux0 aux1 (t 1) mask ∧
      (kind ≠ 2 → len = (r 2).extractLsb' 0 32) ∧
      (kind = 2 → ndims = (r 2).extractLsb' 0 4 ∧ el = (r 2).extractLsb' 4 3 ∧ aux0 = r 3) ∧
      (kind = 3 → aux0 = r 3 ∧ aux1 = r 4) ∧ (kind = 4 → aux1 = r 3 ∧ mask = r 4) := by
  by_cases h2 : kind = 2
  · subst h2
    exact ⟨_, _, _, _, _, _, rfl, fun h => absurd rfl h, fun _ => ⟨rfl, rfl, rfl⟩, nofun, nofun⟩
  by_cases h3 : kind = 3
  · subst h3
    exact ⟨_, _, _, _, _, _, rfl, fun _ => rfl, fun h => absurd h h2, fun _ => ⟨rfl, rfl⟩, nofun⟩
  by_cases h4 : kind = 4
  · subst h4
    exact ⟨_, _, _, _, _, _, rfl, fun _ => rfl, fun h => absurd h h2, fun h => absurd h h3, fun _ => ⟨rfl, rfl⟩⟩
  · exact ⟨_, _, _, _, _, _, (if_neg h2).trans ((if_neg h3).trans (if_neg h4)), fun _ => rfl, fun h => absurd h h2,
      fun h => absurd h h3, fun h => absurd h h4⟩

variable {g a kind trig n}

/-- A register that does not fit its field gives a record that ends with `bad_command` (R216). -/
theorem cKind_runRecord_of_not_fits (h : ¬ RunFits g a kind trig n) : cKind (runRecord g a kind dk trig n) = 0 := by
  obtain ⟨_, _, _, _, _, _, hpack, _⟩ := runPack_eq_mkRecord g a kind dk trig n 0 false
  obtain ⟨_, _, _, _, hkind⟩ := mkRecord_head ..
  rw [runRecord_eq, if_neg h, hpack, hkind]
  rfl

theorem cDest_runRecord : cDest (runRecord g a kind dk trig n) = g.srAt a 1 := by
  have hdest (k : BitVec 8) (tr : Bool) : cDest (runPack g a kind dk trig n k tr) = g.srAt a 1 := by
    obtain ⟨_, _, _, _, _, _, hpack, _⟩ := runPack_eq_mkRecord g a kind dk trig n k tr
    obtain ⟨_, _, _, _, hdest, _⟩ := mkRecord_words ..
    rw [hpack, hdest]
  rw [runRecord_eq]
  split_ifs <;> exact hdest ..

/-- What the record of a run that fits holds of its registers (R77, R216). -/
theorem runRecord_fields (h : RunFits g a kind trig n) :
    let w := runRecord g a kind dk trig n
    let r := g.srAt a
    cKind w = kind.toNat ∧ cSrc w = r 0 ∧ cDest w = r 1 ∧ cTrig w = trig ∧
      (trig = true → w.extractLsb' 416 8 = (r n).setWidth 8 ∧ w.extractLsb' 64 64 = r (n + 1)) ∧
      (kind ≠ 2 → cLen w = (r 2).toNat) ∧
      (kind = 2 → cDims w = (r 2).toNat % 16 ∧ cElem w = (r 2).toNat / 16 ∧ cAux0 w = r 3) ∧
      (kind = 3 → cAux0 w = r 3 ∧ cAux1 w = r 4) ∧ (kind = 4 → cAux1 w = r 3 ∧ cMask w = r 4) := by
  obtain ⟨hfitLen, hfitDims, _, _, _⟩ := id h
  obtain ⟨ndims, el, len, aux0, aux1, mask, hpack, hlen, hdims, hgath, hmcast⟩ := runPack_eq_mkRecord g a kind dk trig n kind trig
  intro w r
  have hw : w = _ := (runRecord_eq g a kind dk trig n).trans ((if_pos h).trans hpack)
  obtain ⟨emask, etv, eaux1, eaux0, edest, esrc, elen⟩ := mkRecord_words ..
  obtain ⟨ectr, eel, endims, _, ekind⟩ := mkRecord_head ..
  rw [hw, ekind, esrc, edest, cTrig_mkRecord, ectr, etv, elen, endims, eel, eaux0, eaux1, emask]
  refine ⟨rfl, rfl, rfl, rfl, fun ht => ?_, fun hk => ?_, fun hk => ?_, hgath, hmcast⟩
  · dsimp only
    rw [if_pos ht, if_pos ht]
    exact ⟨(BitVec.setWidth_eq_extractLsb' (by omega)).symm, rfl⟩
  · rw [hlen hk]
    exact (bitsOf_zero _ 32).trans (Nat.mod_eq_of_lt (hfitLen hk))
  · obtain ⟨rfl, rfl, haux0⟩ := hdims hk
    have hlt : (g.srAt a 2).toNat < 2 ^ 7 := hfitDims hk
    exact ⟨bitsOf_zero _ 4, (bitsOf_eq _ 4 3).trans (Nat.mod_eq_of_lt (by omega)), haux0⟩

end

/-! Queues, shadows and pending buffers -/

@[simp] theorem State.queue_setQueue_same (s : State) (die : BitVec 3) (q : BitVec 7) (x : Queue) :
    (s.setQueue die q x).queue die q = x := by
  simp [State.queue, State.setQueue, Die.queue, Die.setQueue]

/-- A change of a die that leaves its queues leaves every queue of the package. -/
theorem State.queue_setDie (s : State) (die e : BitVec 3) (p : BitVec 7) {x : Die} (h : x.queues = (s.die die).queues) :
    (s.setDie die x).queue e p = s.queue e p := by
  rw [State.queue, State.die_setDie]
  split_ifs with he
  · rw [he, Die.queue, h]
    rfl
  · rfl

/-- Buffers made pending change no queue, no memory and no group (R84). -/
theorem pendBufs_spec (s : State) (die : BitVec 3) (l : List Nat) :
    let t := s.pendBufs die l
    t.mem = s.mem ∧ t.cur = s.cur ∧ ∀ e q, t.queue e q = s.queue e q := by
  induction l generalizing s with
  | nil => exact ⟨rfl, rfl, fun _ _ => rfl⟩
  | cons b l ih =>
    rw [State.pendBufs, List.foldl_cons]
    dsimp only
    split_ifs with hvalid
    · obtain ⟨hmem, hcur, hq⟩ := ih (s.setDie die { s.die die with
        pbufs := Sparse.set (s.die die).pbufs b (putBit (Sparse.get (s.die die).pbufs b) 168 true) })
      exact ⟨hmem, hcur, fun e q => (hq e q).trans (s.queue_setDie die e q rfl)⟩
    · exact ih s

/-- A shadow taken changes tags alone (R71). -/
theorem takeShadow_spec (s : State) (b : Block) (sl : Nat) :
    let t := s.takeShadow b sl
    t.mem = s.mem ∧ t.cur = s.cur := by
  unfold State.takeShadow
  dsimp only
  split
  · exact ⟨rfl, rfl⟩
  · split <;> exact ⟨rfl, rfl⟩

/-- Acceptance appends the command with the queue's next number (R75, R84). -/
theorem accept_spec (s : State) (die : BitVec 3) (q : BitVec 7) (c : Cmd) :
    let x := s.queue die q
    let t := s.accept die q c
    ∃ c1, c1 = { c with n := x.seqNext, held := c1.held, hit := c1.hit } ∧
      t.queue die q = { x with seqNext := x.seqNext + 1, cmds := x.cmds ++ [c1] } ∧ t.mem = s.mem ∧ t.cur = s.cur := by
  intro x
  unfold State.accept
  dsimp only
  split_ifs with hheld
  · obtain ⟨hmem, hcur, hq⟩ := pendBufs_spec (s.setQueue die q { x with seqNext := x.seqNext + 1, cmds := x.cmds ++
      [{ c with n := x.seqNext, held := (c.look s die).bufs.flatMap (publWaits s die),
                hit := cTrig (c.look s die).words && (c.look s die).triggered s die }] }) die (c.look s die).bufs
    exact ⟨_, rfl, (hq die q).trans (s.queue_setQueue_same die q _), hmem, hcur⟩
  · exact ⟨_, rfl, s.queue_setQueue_same die q _, rfl, rfl⟩

/-! Issue (R217) -/

/-- The command that stands for c in its queue, under its number; `own`: it fills a slot of its own block (R71, R75). -/
def Accepted (c c1 : Cmd) (n : W64) (own : Bool) : Prop :=
  c1 = { c with n := n, held := c1.held, hit := c1.hit, took := own || c.took, targets := c1.targets }

section

variable {s : State} {i : Instr} {d : SReg} {q : BitVec 7} {c : Cmd} {own : Bool} {cont : Option W64}

/-- The slot that a copy instruction checks takes its shadow, when it does not stop the instruction. -/
theorem takeShadows_own {b : Block} {sl : Nat} (h : own = true → slotStop s b sl = none) :
    ∃ t, s.takeShadows (if own then [(b, sl)] else []) = .ok t ∧ t.mem = s.mem ∧ t.cur = s.cur := by
  cases own with
  | false => exact ⟨s, rfl, rfl, rfl⟩
  | true => exact ⟨s.takeShadow b sl, by rw [if_pos rfl, State.takeShadows, h rfl]; rfl, takeShadow_spec s b sl⟩

theorem issueCmd_eq_accept {s1 : State} (hturn : (s.queue s.curG.die q).turn s s.curG = true)
    (hs1 : s.takeShadows (if own then [(s.curBlock, bitsOf (cDest c.words) 0 8)] else []) = .ok s1) :
    let x := s.queue s.curG.die q
    let t := (s1.setQueue s.curG.die q { x with line := x.line.filter (· != s.curG) }).accept s.curG.die q
      (if own then c.fills (if own then [(s.curBlock, bitsOf (cDest c.words) 0 8)] else []) else c)
    issueCmd i d q c own cont s = .next (t.setCur (afterIssue d x.seqNext q cont t.cur)) := by
  simp only [issueCmd, hturn, Bool.not_true, Bool.false_eq_true, if_false, hs1]

/-- On a queue with a place, a copy instruction that no slot stops is accepted (R217). -/
theorem issueCmd_accepts (hturn : (s.queue s.curG.die q).turn s s.curG = true)
    (hstop : own = true → slotStop s s.curBlock (bitsOf (cDest c.words) 0 8) = none) :
    let x := s.queue s.curG.die q
    ∃ t c1, issueCmd i d q c own cont s = .next t ∧ Accepted c c1 x.seqNext own ∧
      t.queue s.curG.die q = { x with seqNext := x.seqNext + 1, cmds := x.cmds ++ [c1], line := x.line.filter (· != s.curG) } ∧
      t.cur = afterIssue d x.seqNext q cont s.cur ∧ t.mem = s.mem := by
  intro x
  obtain ⟨s1, hs1, hmem1, hcur1⟩ := takeShadows_own hstop
  obtain ⟨c1, hc1, hq, hmem, hcur⟩ := accept_spec
    (s1.setQueue s.curG.die q { x with line := x.line.filter (· != s.curG) }) s.curG.die q
    (if own then c.fills (if own then [(s.curBlock, bitsOf (cDest c.words) 0 8)] else []) else c)
  rw [State.queue_setQueue_same] at hc1 hq
  refine ⟨_, c1, issueCmd_eq_accept hturn hs1, ?_, hq, ?_, hmem.trans hmem1⟩
  · rw [hc1]
    cases own <;> rfl
  · rw [State.cur_setCur, hcur]
    exact congrArg _ hcur1

/-- A copy instruction that finds no place stands in the queue's line and waits (R74, R311). -/
theorem issueCmd_waits (hturn : (s.queue s.curG.die q).turn s s.curG = false) :
    let x := s.queue s.curG.die q
    issueCmd i d q c own cont s =
      .next (s.setQueue s.curG.die q { x with line := if s.curG ∈ x.line then x.line else x.line ++ [s.curG] }).stalled := by
  simp only [issueCmd, hturn, Bool.not_false, if_true, List.contains_iff_mem]

/-- A slot stops a copy because it is not valid or because no frame is free (R71). -/
theorem slotStop_cause {b : Block} {sl : Nat} {e : Cause} (h : slotStop s b sl = some e) : e = .shelfInvalid ∨ e = .shelfFull := by
  unfold slotStop at h
  split_ifs at h
  · exact .inl (Option.some.inj h).symm
  · exact .inr (Option.some.inj h).symm

theorem issueCmd_eq_raise {e : Cause} (hturn : (s.queue s.curG.die q).turn s s.curG = true)
    (hstop : slotStop s s.curBlock (bitsOf (cDest c.words) 0 8) = some e) :
    issueCmd i d q c true cont s =
      scalarAcc i (raiseAt e (BitVec.ofNat 64 (bitsOf (cDest c.words) 0 8 * 4096 + bitsOf (cDest c.words) 8 12))) s := by
  simp only [issueCmd, hturn, Bool.not_true, Bool.false_eq_true, if_false, if_true, State.takeShadows, hstop]

/-- A slot that stops a copy instruction makes it trap (R217). -/
theorem issueCmd_traps {e : Cause} (hturn : (s.queue s.curG.die q).turn s s.curG = true)
    (hstop : slotStop s s.curBlock (bitsOf (cDest c.words) 0 8) = some e) (ht : TrapEnters s)
    (hexec : exec i s = issueCmd i d q c true cont s) : TrapsS i s e := by
  have hcause : e.deferred = false := by rcases slotStop_cause hstop with rfl | rfl <;> rfl
  exact trapsS_of_throw (j := { cause := e, va := _ }) ht hcause (hexec.trans (issueCmd_eq_raise hturn hstop))

end

/-! The copy instructions (R215 to R218) -/

section

variable {s : State} {d a : SReg} {q : BitVec 7} {cont : Bool}

theorem exec_cpy (trig : Bool) (k : DstKind) : exec (.cpy d a q cont trig k) s =
    issueCmd (.cpy d a q cont trig k) d q { ownCmd s with words := runRecord s.cur a 1 k.code trig 3, recAt := none } (k == .slot)
      (contAt s.cur a cont (runLen 3 trig)) s := rfl
theorem exec_tcpy (trig : Bool) (k : DstKind) : exec (.tcpy d a q cont trig k) s =
    issueCmd (.tcpy d a q cont trig k) d q { ownCmd s with words := runRecord s.cur a 2 k.code trig 4, recAt := none } (k == .slot)
      (contAt s.cur a cont (runLen 4 trig)) s := rfl
theorem exec_gath (trig : Bool) (k : DstKind) : exec (.gath d a q cont trig k) s =
    issueCmd (.gath d a q cont trig k) d q { ownCmd s with words := runRecord s.cur a 3 k.code trig 5, recAt := none } (k == .slot)
      (contAt s.cur a cont (runLen 5 trig)) s := rfl
theorem exec_mcast (trig : Bool) : exec (.mcast d a q cont trig) s =
    issueCmd (.mcast d a q cont trig) d q { ownCmd s with words := runRecord s.cur a 4 1 trig 5, recAt := none } false
      (contAt s.cur a cont (runLen 5 trig)) s := rfl
theorem exec_cmd : exec (.cmd d a q cont) s =
    issueCmd (.cmd d a q cont) d q { ownCmd s with words := 0, recAt := some (s.cur.sr a) } false (contAt s.cur a cont 1) s := rfl

/-- What the statement asks of a copy instruction that is accepted with n registers of run before its continuation. -/
def TakesPlace (s : State) (d a : SReg) (q : BitVec 7) (cont : Bool) (i : Instr) (own : Bool) (n : Nat) (f : Cmd → Prop) : Prop :=
  let x := s.queue s.curG.die q
  ∃ (t : State) (c : Cmd), exec i s = .next t ∧
    t.queue s.curG.die q = { x with seqNext := x.seqNext + 1, cmds := x.cmds ++ [c], line := x.line.filter (· != s.curG) } ∧
    c.n = x.seqNext ∧ c.st = .accepted ∧ c.gid = s.curG ∧ c.part = s.cur.part ∧ c.launch = s.cur.launch ∧ c.block = s.cur.block ∧
    c.pasid = s.cur.pasid ∧ c.priv = s.cur.priv ∧ c.took = own ∧ f c ∧
    (cont = false → t.cur = { s.cur with s := s.cur.s.set d.toNat x.seqNext d.isLt, pc := s.cur.pc + 4 }) ∧
    (cont = true → t.cur = { s.cur with
      s := s.cur.s.set d.toNat x.seqNext d.isLt, pc := s.cur.srAt a n, st := .yielding { on := .queue q x.seqNext, d := d + 1, cmd := true } }) ∧
    t.mem = s.mem

theorem takesPlace {i : Instr} {own : Bool} {n : Nat} {w : BitVec 512} {rec : Option W64} {f : Cmd → Prop}
    (hexec : exec i s = issueCmd i d q { ownCmd s with words := w, recAt := rec } own (contAt s.cur a cont n) s)
    (hturn : (s.queue s.curG.die q).turn s s.curG = true)
    (hstop : own = true → slotStop s s.curBlock (bitsOf (cDest w) 0 8) = none)
    (hf : ∀ c : Cmd, c.words = w → c.recAt = rec → f c) : TakesPlace s d a q cont i own n f := by
  obtain ⟨t, c, hnext, hc, hq, hcur, hmem⟩ := issueCmd_accepts (i := i) (d := d) (cont := contAt s.cur a cont n)
    (c := { ownCmd s with words := w, recAt := rec }) hturn hstop
  refine ⟨t, c, hexec.trans hnext, hq, ?_⟩
  rw [hc]
  refine ⟨rfl, rfl, rfl, rfl, rfl, rfl, rfl, rfl, Bool.or_false own, hf _ rfl rfl, fun h => ?_, fun h => ?_, hmem⟩ <;>
    subst h <;> exact hcur

/-- What the statement asks of the record of a run, by the instruction's kind. -/
def RecordsRun (g : Group) (a : SReg) (trig : Bool) (kind n : Nat) (c : Cmd) : Prop :=
  let r := g.srAt a
  c.recAt = none ∧ cKind c.words = kind ∧ cSrc c.words = r 0 ∧ cDest c.words = r 1 ∧ cTrig c.words = trig ∧
    (trig = true → c.words.extractLsb' 416 8 = (r n).setWidth 8 ∧ c.words.extractLsb' 64 64 = r (n + 1)) ∧
    (kind ≠ 2 → cLen c.words = (r 2).toNat) ∧
    (kind = 2 → cDims c.words = (r 2).toNat % 16 ∧ cElem c.words = (r 2).toNat / 16 ∧ cAux0 c.words = r 3) ∧
    (kind = 3 → cAux0 c.words = r 3 ∧ cAux1 c.words = r 4) ∧ (kind = 4 → cAux1 c.words = r 3 ∧ cMask c.words = r 4)

section

variable {i : Instr} {own trig : Bool} {kind : BitVec 8} {dk : BitVec 2} {n : Nat}
  (hexec : exec i s = issueCmd i d q { ownCmd s with words := runRecord s.cur a kind dk trig n, recAt := none } own
    (contAt s.cur a cont (runLen n trig)) s)
  (hturn : (s.queue s.curG.die q).turn s s.curG = true)

include hexec hturn

/-- A copy instruction whose registers fit is accepted with their record. -/
theorem takesPlace_of_fits (hfit : RunFits s.cur a kind trig n)
    (hstop : own = true → slotStop s s.curBlock (bitsOf (s.cur.srAt a 1) 0 8) = none) :
    TakesPlace s d a q cont i own (runLen n trig) (RecordsRun s.cur a trig kind.toNat n) := by
  refine takesPlace hexec hturn (by rwa [cDest_runRecord]) fun c hw hrec => ?_
  have hkind (v : BitVec 8) : kind.toNat = v.toNat ↔ kind = v := BitVec.toNat_inj
  obtain ⟨ekind, esrc, edest, etrig, htrig, hlen, hdims, hgath, hmcast⟩ := runRecord_fields dk hfit
  unfold RecordsRun
  rw [hw]
  exact ⟨hrec, ekind, esrc, edest, etrig, htrig, fun h => hlen (mt (hkind 2).2 h), fun h => hdims ((hkind 2).1 h),
    fun h => hgath ((hkind 3).1 h), fun h => hmcast ((hkind 4).1 h)⟩

/-- One with a register that does not fit is accepted with a record of kind 0. -/
theorem takesPlace_of_misfit (hmiss : ¬ RunFits s.cur a kind trig n) (hown : own = false) :
    TakesPlace s d a q cont i false (runLen n trig) (fun c => cKind c.words = 0) := by
  subst hown
  refine takesPlace hexec hturn (fun h => absurd h Bool.false_ne_true) fun c hw _ => ?_
  rw [hw]
  exact cKind_runRecord_of_not_fits dk hmiss

end

end

/-- Settles O35: each copy instruction is `issueCmd` of its run's record; a place decides between acceptance and the line, and the
record's fields are those of the packed run. -/
theorem copyCommandsAccepted : Obligations.CopyCommandsAccepted := by
  intro s d a q cont trig k die x r slot place took run
  have htrap {i : Instr} {kind : BitVec 8} {n : Nat} {w : Option W64} {e : Cause} (hplace : place = true)
      (hstop : slotStop s s.curBlock slot = some e) (ht : TrapEnters s) (hexec : exec i s = issueCmd i d q
        { ownCmd s with words := runRecord s.cur a kind 1 trig n, recAt := none } true w s) : TrapsS i s e :=
    issueCmd_traps hplace (by rwa [cDest_runRecord]) ht hexec
  refine ⟨?_, ?_, fun hplace => ?_, fun hplace hk => ?_, fun hplace i hi => ?_,
    fun e hplace hstop ht => ⟨slotStop_cause hstop, ?_, ?_, ?_⟩, fun h => if_pos h, fun hin hvalid hshadow hfull => ?_⟩
  · intro hplace hlen
    refine ⟨?_, ?_, ?_⟩
    · intro ht _ _ hown
      exact takesPlace_of_fits (exec_cpy trig k) hplace ⟨fun _ => hlen, nofun, nofun, nofun, ht⟩ hown
    · intro ht hindex _ hown
      exact takesPlace_of_fits (exec_gath trig k) hplace ⟨fun _ => hlen, nofun, fun _ => hindex rfl, nofun, ht⟩ hown
    · intro ht _ hrect hown
      exact takesPlace_of_fits (exec_mcast trig) hplace ⟨fun _ => hlen, nofun, nofun, fun _ => hrect rfl, ht⟩ hown
  · intro hplace hdims ht _ _ hown
    exact takesPlace_of_fits (exec_tcpy trig k) hplace ⟨fun h => absurd rfl h, fun _ => hdims, nofun, nofun, ht⟩ hown
  · have hrec : s.cur.sr (a + BitVec.ofNat 6 0) = s.cur.sr a := congrArg s.cur.sr (BitVec.add_zero a)
    exact takesPlace exec_cmd hplace (fun h => absurd h Bool.false_ne_true) fun c _ hc => hc.trans (congrArg some hrec.symm)
  · refine ⟨fun hge => ?_, fun hge => ?_, fun hge => ?_, fun hge => ?_⟩
    · exact takesPlace_of_misfit (exec_cpy trig k) hplace (fun ⟨hlen, _⟩ => absurd (hlen (by decide)) (Nat.not_lt.2 hge)) hk
    · exact takesPlace_of_misfit (exec_tcpy trig k) hplace (fun ⟨_, hdims, _⟩ => absurd (hdims rfl) (Nat.not_lt.2 hge)) hk
    · exact takesPlace_of_misfit (exec_gath trig k) hplace (fun ⟨_, _, hindex, _⟩ => absurd (hindex rfl) (Nat.not_lt.2 hge)) hk
    · exact takesPlace_of_misfit (exec_mcast trig) hplace (fun ⟨_, _, _, hrect, _⟩ => absurd (hrect rfl) (Nat.not_lt.2 hge)) rfl
  · simp only [List.mem_cons, List.not_mem_nil, or_false] at hi
    rcases hi with rfl | rfl | rfl | rfl | rfl
    · exact (exec_cpy trig k).trans (issueCmd_waits hplace)
    · exact (exec_tcpy trig k).trans (issueCmd_waits hplace)
    · exact (exec_gath trig k).trans (issueCmd_waits hplace)
    · exact (exec_mcast trig).trans (issueCmd_waits hplace)
    · exact exec_cmd.trans (issueCmd_waits hplace)
  · exact htrap hplace hstop ht (exec_cpy trig .slot)
  · exact htrap hplace hstop ht (exec_tcpy trig .slot)
  · exact htrap hplace hstop ht (exec_gath trig .slot)
  · have hhas : ¬ (s.curBlock.slotCount.toNat ≤ slot ∨ bitOf (s.tagOf s.curBlock slot) 63 = false) := by
      rintro (hout | hfree)
      · exact absurd hin (Nat.not_lt.2 hout)
      · exact absurd (hfree.symm.trans hvalid) Bool.false_ne_true
    exact (if_neg hhas).trans ((if_neg fun h => absurd (hshadow.symm.trans h) Bool.false_ne_true).trans (if_pos hfull))

end Sys2Proof.Machine
end

section
/-! PROOFS. A uniform lane access of a group in which two threads have one vlane, and the refutation of O53. -/

set_option Elab.async false

namespace Sys2Proof.Machine

/-- A group whose physical lanes all hold vlane 0, with lanes 0 and 1 running and window 0 open at physical address 0. -/
def twinGroup : Group :=
  { win := Vector.replicate 8 { limit := 0x100 }, ln := { active := true, run := 3, remap := Vector.replicate 64 0 } }

/-- The machine with that group moving; byte 1 of memory holds 7, byte 0 holds 0. -/
def twinState : State := { State.reset with mem := [(1, 7)], groups := [(0, twinGroup)] }

/-- A uniform instruction that every active thread guards true. -/
def twinHdr : LHdr := { gneg := false, gpred := 7, uni := true, reuse := 0 }

/-- Through window 0, without an offset. -/
def twinMem : LMem := { win := 0, os := .rlx, shf := false, off := 0 }

/-- A uniform load of the byte at a thread's lane number, pushed to result queue 0. -/
def twinLoad : Instr := .lld twinHdr (.y 0) .lane .b8 twinMem

theorem twinState_settled : twinState.cur.settle = twinGroup := rfl

/-- Of two active threads with one vlane, `Lane.lowest`, which chooses the thread that computes, takes the first lane, and
`Lane.byVlane` puts the last one first. -/
theorem twin_threads : twinGroup.sel twinHdr = ⟨1, 3, 0⟩ ∧ accLanes twinGroup true 3 = [1] ∧ accLanes twinGroup true 1 = [0] := by decide

/-- Result queue 0 of the group that moves, after an instruction that goes on. -/
def pushedBy (o : Out) : List W64 := match o with | .next t => t.cur.y.getD 0 [] | _ => []

/-- The load pushes byte 0, from the offset of the thread that computes. -/
theorem pushedBy_twinLoad : pushedBy (exec twinLoad twinState) = [0] := by decide +kernel

theorem twin_hits : WindowHit (twinState.setCur twinGroup) 0 1 1 .read 1 ∧ Readable (twinState.setCur twinGroup) 1 1 := by
  unfold WindowHit Readable
  decide +kernel

/-- Refutes O53: for a uniform load the statement takes the address from the lane that `accLanes` picks among the active threads, the model
from the one that `Group.sel` computes in. They are the same lane where no two active threads have one vlane (R269), which the
statement does not ask; in `twinState` they are lanes 1 and 0, so the statement has the load push byte 1 of memory and the model
pushes byte 0. -/
theorem not_laneMemory : ¬ Obligations.LaneMemory := by
  intro h
  obtain ⟨hld, _, _⟩ := h twinState twinHdr (.y 0) .lane .zero .zero .b8 twinMem (fun j => j) rfl rfl
  obtain ⟨_, hreads⟩ := hld (by decide) (by decide)
  obtain ⟨hsel, hlanes, _⟩ := twin_threads
  rw [twinState_settled, hsel] at hreads
  obtain ⟨t, hexec, hdest, _⟩ := hreads (by decide)
    (fun j hj => by
      obtain rfl := List.mem_singleton.1 (hlanes ▸ hj)
      exact ⟨twin_hits.1, by decide, by decide⟩)
    (fun j hj => by
      obtain rfl := List.mem_singleton.1 (hlanes ▸ hj)
      exact twin_hits.2)
  obtain ⟨_, _, _, _, _, hpush⟩ := hdest
  have hseven : t.cur.y.getD 0 [] = [7] := hpush 0
  have hzero : t.cur.y.getD 0 [] = [0] := (congrArg pushedBy hexec).symm.trans pushedBy_twinLoad
  exact absurd (hseven.symm.trans hzero) (by decide)

end Sys2Proof.Machine
end

section
/-! PROOFS. Yields: reached and unreached numbers, the effect of a yield, the return with its status (O10). -/

set_option Elab.async false

namespace Sys2Proof.Machine

/-- A number is reached while the distance to it, as a signed word, is not negative (R80). -/
theorem reached_iff (c v : W64) : reached c v = true ↔ (c - v).toNat < 2 ^ 63 := by
  rw [reached, bitOf, Bool.not_eq_true', ← BitVec.msb_eq_getLsbD_last (c - v), BitVec.msb_eq_false_iff_two_mul_lt]
  omega

theorem reached_eq_false_iff (c v : W64) : reached c v = false ↔ 2 ^ 63 ≤ (c - v).toNat := by
  rw [← Bool.not_eq_true, reached_iff, Nat.not_lt]

/-! The yields of the scalar stream (R201) -/

section

variable {i : Instr} {s : State} {d : SReg} {on : YieldOn} {c v : W64}

/-- A yield on a number that has been reached writes 0 and goes on. -/
theorem yieldOn_reached (h : (c - v).toNat < 2 ^ 63) (hexec : exec i s = yieldOn d on (reached c v) s) :
    WritesS i s d (fun v => v = 0) := by
  refine writesS_of_next (v := 0) ?_ rfl
  rw [hexec, yieldOn, if_pos ((reached_iff c v).2 h)]
  rfl

/-- On a number that has not been reached the group begins to yield. -/
theorem yieldOn_waits (h : 2 ^ 63 ≤ (c - v).toNat) (hexec : exec i s = yieldOn d on (reached c v) s) :
    exec i s = .next (s.setCur { s.cur with st := .yielding { on := on, d := d, cmd := false }, pc := s.cur.pc + 4 }) := by
  rw [hexec, yieldOn, if_neg (by simp [(reached_eq_false_iff c v).2 h])]
  rfl

end

section

variable {s : State} {d a b : SReg}

theorem exec_yieldQ (h : (s.cur.sr a).toNat < 128) : exec (.yieldQ d a b) s =
    yieldOn d (.queue ((s.cur.sr a).setWidth 7) (s.cur.sr b)) (reached (s.seqDone s.curG.die ((s.cur.sr a).setWidth 7)) (s.cur.sr b)) s := by
  change execYieldQ d a b s = _
  rw [execYieldQ, if_pos ((bitsOf_top_eq_zero _ rfl).2 h), BitVec.setWidth_eq_extractLsb' (by omega)]

theorem exec_yieldCtr (h : (s.cur.sr a).toNat < 256) : exec (.yieldCtr d a b) s =
    yieldOn d (.ctr ((s.cur.sr a).setWidth 8) (s.cur.sr b)) (reached (s.ctr s.curG.die ((s.cur.sr a).setWidth 8)) (s.cur.sr b)) s := by
  change execYieldCtr d a b s = _
  rw [execYieldCtr, if_pos ((bitsOf_top_eq_zero _ rfl).2 h), BitVec.setWidth_eq_extractLsb' (by omega)]

end

/-- A register operand outside its limit traps, where the instruction does nothing else (R185). -/
theorem operandRange_traps {i : Instr} {s : State} {f : RegField} {r : SReg} (hexec : exec i s = scalarAcc i (raiseReg f r) s)
    (ht : TrapEnters s) : TrapsS i s .operandRange :=
  trapsS_of_throw (j := { cause := .operandRange, here := true, aux := (f.code ++ 0#2 ++ r).setWidth 32 }) ht rfl hexec

theorem not_top_eq_zero {x : W64} {lo n : Nat} (h : lo + n = 64) (hx : 2 ^ lo ≤ x.toNat) : ¬ bitsOf x lo n = 0 :=
  fun h0 => absurd ((bitsOf_top_eq_zero x h).1 h0) (Nat.not_lt.2 hx)

/-! The effect of a yield (R83, R145) -/

theorem giveToken_group (s : State) (gid g : Gid) : (s.giveToken gid).group g = s.group g := by
  unfold State.giveToken; dsimp only; split <;> rfl
theorem giveToken_token (s : State) (gid : Gid) : ((s.giveToken gid).mx gid).token = false := by
  unfold State.giveToken
  dsimp only
  split
  · rw [State.mx, State.setMx, State.core_setCore_same]
  · rename_i h; exact Bool.eq_false_iff.2 h
theorem restArray_group (s : State) (gid g : Gid) : (s.restArray gid).group g = s.group g := by
  unfold State.restArray
  split
  · exact giveToken_group s gid g
  · rfl
/-- An array of the group that is not running holds no token afterwards. -/
theorem restArray_token {s : State} {gid : Gid} (hholds : s.holds gid = true) (hmode : (s.mx gid).mode ≠ .running) :
    ((s.restArray gid).mx gid).token = false := by
  rw [State.restArray, if_pos (by simp [hholds, hmode])]
  exact giveToken_token s gid

theorem exec_yieldEffect {s : State} {g : Gid} {y : YieldRec} (hlive : (s.group g).live = true) (hst : (s.group g).st = .yielding y)
    (hidle : (s.group g).laneIdle = true) :
    exec (.yieldEffect g) s = .next ((s.setGroup g { s.group g with st := .yielded y }).restArray g) := by
  change execYieldEffect g s = _
  unfold execYieldEffect
  simp only [hst, hlive, hidle, Bool.and_self, if_true]

/-! The return (R83, R374) -/

section

variable {s : State} {g : Gid} {y : YieldRec} (hlive : (s.group g).live = true) (hst : (s.group g).st = .yielded y)

include hst

theorem exec_groupReactivate_waits (hend : yieldEnd s g.die y = none) : exec (.groupReactivate g) s = .next s := by
  change execGroupReactivate g s = _
  unfold execGroupReactivate
  simp only [hst, hend]

include hlive

theorem exec_groupReactivate {st : BitVec 8} (hend : yieldEnd s g.die y = some st) :
    exec (.groupReactivate g) s = .next (s.setGroup g { (s.group g).putResult y.d st y.res with st := .running }) := by
  change execGroupReactivate g s = _
  unfold execGroupReactivate
  simp only [hst, hend, hlive, if_true]

end

/-- The status stands in s(d), a winner's index and key in the two registers behind it, and the pc is as it was. -/
theorem putResult_spec (g : Group) (d : SReg) (st : BitVec 8) (res : Option (W64 × W64)) :
    (g.putResult d st res).sr d = st.setWidth 64 ∧ (g.putResult d st res).pc = g.pc ∧
      ∀ r, st = 0 → res = some r → (g.putResult d st res).sr (d + 1) = r.1 ∧ (g.putResult d st res).sr (d + 2) = r.2 := by
  have h1 : d ≠ d + BitVec.ofNat 6 1 := by bv_omega
  have h2 : d ≠ d + BitVec.ofNat 6 2 := by bv_omega
  have h12 : d + BitVec.ofNat 6 1 ≠ d + BitVec.ofNat 6 2 := by bv_omega
  unfold Group.putResult
  split
  · rename_i r
    refine ⟨?_, rfl, ?_⟩
    · rw [Group.setSrAt, Group.sr_setSr_other _ _ h2, Group.setSrAt, Group.sr_setSr_other _ _ h1, Group.sr_setSr_same]
    · rintro r' - ⟨⟩
      exact ⟨(Group.sr_setSr_other _ _ h12).trans (Group.sr_setSr_same ..), Group.sr_setSr_same ..⟩
  · rename_i hne
    exact ⟨Group.sr_setSr_same .., rfl, fun r hst hres => (hne r hst hres).elim⟩

/-- Settles O10: the two yields are `yieldOn` of a number within range; the effect is the group's new run state and `restArray`, the return
is `putResult` of the status that `yieldEnd` gives. -/
theorem yieldsAndReactivation : Obligations.YieldsAndReactivation := by
  refine ⟨fun s d a b => ⟨fun hx => ?_, fun hx => ?_, fun hx ht => ?_, fun hx ht => ?_⟩, fun s g y hlive => ⟨fun hst hidle => ?_,
    fun st hst hend => ?_, fun hst hend => exec_groupReactivate_waits hst hend⟩⟩
  · exact ⟨fun h => yieldOn_reached h (exec_yieldQ hx), fun h => yieldOn_waits h (exec_yieldQ hx)⟩
  · exact ⟨fun h => yieldOn_reached h (exec_yieldCtr hx), fun h => yieldOn_waits h (exec_yieldCtr hx)⟩
  · exact operandRange_traps (f := .sa) (r := a) (if_neg (not_top_eq_zero (lo := 7) (n := 57) rfl hx)) ht
  · exact operandRange_traps (f := .sa) (r := a) (if_neg (not_top_eq_zero (lo := 8) (n := 56) rfl hx)) ht
  · refine ⟨_, exec_yieldEffect hlive hst hidle, ?_, fun hholds hmode => restArray_token hholds hmode⟩
    rw [restArray_group, State.group_setGroup_same]
  · obtain ⟨hsr, hpc, hres⟩ := putResult_spec (s.group g) y.d st y.res
    refine ⟨_, exec_groupReactivate hlive hst hend, ?_⟩
    rw [State.group_setGroup_same]
    exact ⟨rfl, hsr, hpc, hres, rfl⟩

end Sys2Proof.Machine
end

section
/-! PROOFS. Counters and queue numbers: what a write settles, cancels and leaves (O34). -/

set_option Elab.async false

namespace Sys2Proof.Machine

/-! The yields of a die that a write settles (R82, R83) -/

/-- A yield once the numbers of an object have been looked at: reached, cancelled by `force`, or as it was. -/
def YieldRec.settle (s : State) (die : BitVec 3) (p : YieldOn → Bool) (force : Bool) (y : YieldRec) : YieldRec :=
  if p y.on && y.got.isNone then
    (if y.on.reached s die then { y with got := some (yieldStatus s die y) } else if force then { y with got := some 0x15 } else y)
  else y
/-- A run state with its yield changed. -/
def RunState.mapYield (f : YieldRec → YieldRec) : RunState → RunState
  | .yielding y => .yielding (f y)
  | .yielded y => .yielded (f y)
  | r => r
def Kept.mapYield (f : YieldRec → YieldRec) (k : Kept) : Kept := { k with st := k.st.mapYield f }
/-- A group with its yield, and that of the program behind its handler, changed. -/
def Group.mapYield (f : YieldRec → YieldRec) (g : Group) : Group :=
  { g with st := g.st.mapYield f, h := { g.h with kept := g.h.kept.mapYield f } }

theorem settleYields_eq (s : State) (die : BitVec 3) (p : YieldOn → Bool) (force : Bool) :
    s.settleYields die p force = { s with
      groups := s.groups.map (fun x => if x.1 / 8192 = die.toNat then (x.1, x.2.mapYield (YieldRec.settle s die p force)) else x),
      launches := s.launches.map (fun l => { l with saved := l.saved.map (fun x =>
        if x.core.extractLsb' 7 3 = die then { x with kept := x.kept.mapYield (YieldRec.settle s die p force) } else x) }) } := rfl

theorem settleYields_group (s : State) (die : BitVec 3) (p : YieldOn → Bool) (force : Bool) (g : Gid) :
    (s.settleYields die p force).group g =
      if g.die = die then (s.group g).mapYield (YieldRec.settle s die p force) else s.group g := by
  have hdie : g.toNat / 8192 = die.toNat ↔ g.die = die := by
    rw [← BitVec.toNat_inj, Gid.die, BitVec.extractLsb'_toNat, Nat.shiftRight_eq_div_pow, Nat.mod_eq_of_lt (by omega)]
  have hmap := Tab.get_map_cases ({} : Group) s.groups
    (fun x => if x.1 / 8192 = die.toNat then (x.1, x.2.mapYield (YieldRec.settle s die p force)) else x)
    (fun x => by split <;> rfl) g.toNat
  have hu : (s.settleYields die p force).group g = Tab.get ({} : Group) (s.groups.map (fun x =>
    if x.1 / 8192 = die.toNat then (x.1, x.2.mapYield (YieldRec.settle s die p force)) else x)) g.toNat := rfl
  rw [← hu] at hmap
  rcases hmap with hmap | ⟨hdef, hmap⟩
  · rw [hmap]
    simp only [hdie]
    split <;> rfl
  · have hdef' : s.group g = {} := hdef
    rw [hmap, hdef']
    split <;> rfl

/-- A saved group of a die with its yield changed. -/
theorem settleYields_saved {s : State} (die : BitVec 3) (p : YieldOn → Bool) (force : Bool) {l : Launch} (hl : l ∈ s.launches) {x : Saved}
    (hx : x ∈ l.saved) : ∃ l1 ∈ (s.settleYields die p force).launches, ∃ x1 ∈ l1.saved, l1.part = l.part ∧ l1.id = l.id ∧ x1.gid = x.gid ∧
      x1.block = x.block ∧
      x1.kept = if x.core.extractLsb' 7 3 = die then x.kept.mapYield (YieldRec.settle s die p force) else x.kept := by
  rw [settleYields_eq]
  refine ⟨_, List.mem_map_of_mem hl, _, List.mem_map_of_mem hx, rfl, rfl, ?_⟩
  split_ifs <;> exact ⟨rfl, rfl, rfl⟩

@[simp] theorem settleYields_dies (s : State) (die : BitVec 3) (p : YieldOn → Bool) (force : Bool) :
    (s.settleYields die p force).dies = s.dies := rfl
@[simp] theorem settleYields_mem (s : State) (die : BitVec 3) (p : YieldOn → Bool) (force : Bool) :
    (s.settleYields die p force).mem = s.mem := rfl
@[simp] theorem settleYields_curG (s : State) (die : BitVec 3) (p : YieldOn → Bool) (force : Bool) :
    (s.settleYields die p force).curG = s.curG := rfl
theorem settleYields_queue (s : State) (die : BitVec 3) (p : YieldOn → Bool) (force : Bool) (e : BitVec 3) (q : BitVec 7) :
    (s.settleYields die p force).queue e q = s.queue e q := rfl
theorem settleYields_ctr (s : State) (die : BitVec 3) (p : YieldOn → Bool) (force : Bool) (e : BitVec 3) (c : BitVec 8) :
    (s.settleYields die p force).ctr e c = s.ctr e c := rfl

/-- A yield that has ended keeps its status. -/
theorem settle_of_got {s : State} {die : BitVec 3} {p : YieldOn → Bool} {force : Bool} {y : YieldRec} {st : BitVec 8}
    (h : y.got = some st) : y.settle s die p force = y := by
  rw [YieldRec.settle, h, Option.isNone_some, Bool.and_false]
  rfl
theorem settle_of_reached {s : State} {die : BitVec 3} {p : YieldOn → Bool} {force : Bool} {y : YieldRec} (hp : p y.on = true)
    (h : y.got = none) (hr : y.on.reached s die = true) : y.settle s die p force = { y with got := some (yieldStatus s die y) } := by
  rw [YieldRec.settle, hp, h, Option.isNone_none, Bool.and_true, if_pos rfl, if_pos hr]
theorem settle_of_forced {s : State} {die : BitVec 3} {p : YieldOn → Bool} {y : YieldRec} (hp : p y.on = true)
    (h : y.got = none) (hr : y.on.reached s die = false) : y.settle s die p true = { y with got := some 0x15 } := by
  rw [YieldRec.settle, hp, h, Option.isNone_none, Bool.and_true, if_pos rfl, if_neg (by simp [hr]), if_pos rfl]

/-- The yields of a die that meet a condition have ended with a status: in their slots, behind their handlers, saved. -/
def YieldsEnd (s t : State) (die : BitVec 3) (on : YieldOn → Prop) (st : BitVec 8) : Prop :=
  (∀ (g : Gid) (r : YieldRec), g.die = die → on r.on → r.got = none →
    let r1 : YieldRec := { r with got := some st }
    ((s.group g).st = .yielded r → (t.group g).st = .yielded r1) ∧ ((s.group g).st = .yielding r → (t.group g).st = .yielding r1) ∧
    ((s.group g).h.kept.st = .yielded r → (t.group g).h.kept.st = .yielded r1)) ∧
  ∀ l ∈ s.launches, ∀ x ∈ l.saved, ∀ r : YieldRec, x.core.extractLsb' 7 3 = die → x.kept.st = .yielded r → on r.on → r.got = none →
    ∃ l1 ∈ t.launches, ∃ x1 ∈ l1.saved, l1.part = l.part ∧ l1.id = l.id ∧ x1.gid = x.gid ∧ x1.block = x.block ∧
      x1.kept.st = .yielded { r with got := some st }

section

variable {s t : State} {die e : BitVec 3} {on : YieldOn → Prop} {st : BitVec 8} {p : YieldOn → Bool} {force : Bool}

/-- The yields that a settling ends. -/
theorem yieldsEnd_settleYields (h : ∀ r : YieldRec, on r.on → r.got = none → r.settle s die p force = { r with got := some st }) :
    YieldsEnd s (s.settleYields die p force) die on st := by
  refine ⟨fun g r hg hon hgot => ?_, fun l hl x hx r hdie hst hon hgot => ?_⟩
  · have hr := h r hon hgot
    rw [settleYields_group, if_pos hg]
    refine ⟨fun hst => ?_, fun hst => ?_, fun hst => ?_⟩
    · rw [Group.mapYield, hst, RunState.mapYield, hr]
    · rw [Group.mapYield, hst, RunState.mapYield, hr]
    · rw [Group.mapYield, Kept.mapYield, hst, RunState.mapYield, hr]
  · obtain ⟨l1, hl1, x1, hx1, hpart, hid, hgid, hblock, hkept⟩ := settleYields_saved die p force hl hx
    refine ⟨l1, hl1, x1, hx1, hpart, hid, hgid, hblock, ?_⟩
    rw [hkept, if_pos hdie, Kept.mapYield, hst, RunState.mapYield, h r hon hgot]

/-- Yields that have ended stay so where another object is settled. -/
theorem YieldsEnd.settleYields (h : YieldsEnd s t die on st) : YieldsEnd s (t.settleYields e p force) die on st := by
  obtain ⟨hgroups, hsaved⟩ := h
  refine ⟨fun g r hg hon hgot => ?_, fun l hl x hx r hdie hst hon hgot => ?_⟩
  · obtain ⟨hyielded, hyielding, hkept⟩ := hgroups g r hg hon hgot
    have hr : YieldRec.settle t e p force { r with got := some st } = { r with got := some st } := settle_of_got rfl
    rw [settleYields_group]
    split_ifs
    · refine ⟨fun hst => ?_, fun hst => ?_, fun hst => ?_⟩
      · rw [Group.mapYield, hyielded hst, RunState.mapYield, hr]
      · rw [Group.mapYield, hyielding hst, RunState.mapYield, hr]
      · rw [Group.mapYield, Kept.mapYield, hkept hst, RunState.mapYield, hr]
    · exact ⟨hyielded, hyielding, hkept⟩
  · obtain ⟨l1, hl1, x1, hx1, hpart, hid, hgid, hblock, hst1⟩ := hsaved l hl x hx r hdie hst hon hgot
    obtain ⟨l2, hl2, x2, hx2, hpart2, hid2, hgid2, hblock2, hkept2⟩ := settleYields_saved e p force hl1 hx1
    refine ⟨l2, hl2, x2, hx2, hpart2.trans hpart, hid2.trans hid, hgid2.trans hgid, hblock2.trans hblock, ?_⟩
    rw [hkept2]
    split_ifs
    · rw [Kept.mapYield, hst1, RunState.mapYield, settle_of_got rfl]
    · exact hst1

protected theorem YieldsEnd.setDie (h : YieldsEnd s t die on st) {x : Die} : YieldsEnd s (t.setDie e x) die on st := h
protected theorem YieldsEnd.mapCmds (h : YieldsEnd s t die on st) {f : Cmd → Cmd} : YieldsEnd s (t.mapCmds e f) die on st := h.setDie

/-- A change of the group that moves which leaves its run state and its handler alone. -/
theorem YieldsEnd.setCur (h : YieldsEnd s t die on st) {x : Group} (hst : x.st = t.cur.st) (hh : x.h = t.cur.h) :
    YieldsEnd s (t.setCur x) die on st := by
  obtain ⟨hgroups, hsaved⟩ := h
  refine ⟨fun g r hg hon hgot => ?_, hsaved⟩
  have hg1 : ((t.setCur x).group g).st = (t.group g).st ∧ ((t.setCur x).group g).h = (t.group g).h := by
    rw [State.setCur, State.group_setGroup]
    split_ifs with hcur
    · rw [hcur]; exact ⟨hst, hh⟩
    · exact ⟨rfl, rfl⟩
  rw [hg1.1, hg1.2]
  exact hgroups g r hg hon hgot

end

/-- A state whose memory and groups are another's, but for yields that have ended. -/
def YieldsOnly (s t : State) : Prop :=
  t.curG = s.curG ∧ t.mem = s.mem ∧ ∀ g : Gid, t.group g = { s.group g with
    st := (t.group g).st, h := { (s.group g).h with kept := { (s.group g).h.kept with st := (t.group g).h.kept.st } } }

protected theorem YieldsOnly.refl (s : State) : YieldsOnly s s := ⟨rfl, rfl, fun _ => rfl⟩
protected theorem YieldsOnly.settleYields {s t : State} (h : YieldsOnly s t) {die : BitVec 3} {p : YieldOn → Bool} {force : Bool} :
    YieldsOnly s (t.settleYields die p force) := by
  obtain ⟨hcur, hmem, hgroup⟩ := h
  refine ⟨hcur, hmem, fun g => ?_⟩
  rw [settleYields_group]
  split_ifs
  · rw [hgroup g]; rfl
  · exact hgroup g
protected theorem YieldsOnly.setDie {s t : State} (h : YieldsOnly s t) {die : BitVec 3} {x : Die} : YieldsOnly s (t.setDie die x) := h
protected theorem YieldsOnly.mapCmds {s t : State} (h : YieldsOnly s t) {die : BitVec 3} {f : Cmd → Cmd} :
    YieldsOnly s (t.mapCmds die f) := h.setDie
theorem YieldsOnly.cur {s t : State} (h : YieldsOnly s t) : t.cur = { s.cur with
    st := t.cur.st, h := { s.cur.h with kept := { s.cur.h.kept with st := t.cur.h.kept.st } } } := by
  obtain ⟨hcur, _, hgroup⟩ := h
  rw [State.cur, hcur]
  exact hgroup s.curG

/-! Commands of a die changed one by one (R81, R82) -/

section

variable (s : State) (die : BitVec 3) (f : Cmd → Cmd)

theorem mapCmds_queue (q : BitVec 7) :
    (s.mapCmds die f).queue die q = { s.queue die q with cmds := (s.queue die q).cmds.map f } := by
  rw [State.mapCmds, State.queue, State.die_setDie_same, Die.queue]
  rcases Tab.get_map_cases {} (s.die die).queues (fun p => (p.1, { p.2 with cmds := p.2.cmds.map f })) (fun _ => rfl) q.toNat
    with hmap | ⟨hdef, hmap⟩
  · exact hmap
  · have hdef' : s.queue die q = {} := hdef
    rw [hmap, hdef']
    rfl
theorem mapCmds_ctr (e : BitVec 3) (c : BitVec 8) : (s.mapCmds die f).ctr e c = s.ctr e c := by
  rw [State.mapCmds, State.ctr, State.die_setDie]
  split_ifs with he
  · rw [he]; rfl
  · rfl
@[simp] theorem mapCmds_mem : (s.mapCmds die f).mem = s.mem := rfl
@[simp] theorem mapCmds_curG : (s.mapCmds die f).curG = s.curG := rfl
theorem mapCmds_group (g : Gid) : (s.mapCmds die f).group g = s.group g := rfl

end

theorem look_of_recAt {s : State} {die : BitVec 3} {c : Cmd} (h : c.recAt = none) : c.look s die = c := by
  unfold Cmd.look
  rw [h]

/-- A command with its record at hand that counter c has not let begin (R81). -/
def WaitsTrigger (s : State) (die : BitVec 3) (e : Cmd) (c : BitVec 8) : Prop :=
  e.recAt = none ∧ e.st = .accepted ∧ e.started = false ∧ e.begun = false ∧ e.hit = false ∧ e.cancel = false ∧ cTrig e.words = true ∧
    e.words.extractLsb' 416 8 = c ∧ reached (s.ctr die c) (e.words.extractLsb' 64 64) = false

theorem WaitsTrigger.waitsFor {s : State} {die : BitVec 3} {e : Cmd} {c : BitVec 8} (h : WaitsTrigger s die e c) :
    e.waitsFor s die c = true := by
  obtain ⟨hrec, hst, hstarted, hbegun, hhit, hcancel, htrig, hctr, hreached⟩ := h
  unfold Cmd.waitsFor
  dsimp only
  rw [look_of_recAt hrec, Cmd.triggered, hctr, hst, hstarted, hbegun, hhit, hcancel, htrig, hreached]
  simp

/-! A counter takes a value (R80, R81) -/

/-- The yields on a counter, and on the numbers of a queue. -/
def onCtr (c : BitVec 8) : YieldOn → Bool := fun y => match y with | .ctr k _ => k == c | _ => false
def onQueue (q : BitVec 7) : YieldOn → Bool := fun y => match y with | .queue k _ => k == q | _ => false

section

variable (s : State) (die : BitVec 3) (c : BitVec 8) (v : W64)

/-- The die with the counter's new value, before anything that the counter reaches has been marked. -/
def State.putCtr : State := s.setDie die { s.die die with ctrs := Sparse.set (s.die die).ctrs c.toNat v }
/-- A command whose trigger the new value reaches (R81). -/
def Cmd.hitBy (e : Cmd) : Cmd :=
  if e.waitsFor s die c && (e.look (s.putCtr die c v) die).triggered (s.putCtr die c v) die then { e with hit := true } else e

theorem setCtr_eq : s.setCtr die c.toNat v =
    ((s.putCtr die c v).mapCmds die (Cmd.hitBy s die c v)).settleYields die (onCtr c) false := by
  unfold State.setCtr
  dsimp only
  rw [BitVec.ofNat_toNat, BitVec.setWidth_eq]
  rfl

theorem putCtr_ctr (k : BitVec 8) : (s.putCtr die c v).ctr die k = if k = c then v else s.ctr die k := by
  simp only [State.putCtr, State.ctr, State.die_setDie_same, Sparse.get_set, BitVec.toNat_inj]
theorem putCtr_queue (q : BitVec 7) : (s.putCtr die c v).queue die q = s.queue die q := State.queue_setDie s die die q rfl

theorem setCtr_ctr (k : BitVec 8) : (s.setCtr die c.toNat v).ctr die k = if k = c then v else s.ctr die k := by
  rw [setCtr_eq, settleYields_ctr, mapCmds_ctr, putCtr_ctr]
theorem setCtr_mem : (s.setCtr die c.toNat v).mem = s.mem := rfl
theorem setCtr_curG : (s.setCtr die c.toNat v).curG = s.curG := rfl
theorem setCtr_queue (q : BitVec 7) :
    (s.setCtr die c.toNat v).queue die q = { s.queue die q with cmds := (s.queue die q).cmds.map (Cmd.hitBy s die c v) } := by
  rw [setCtr_eq, settleYields_queue, mapCmds_queue, putCtr_queue]
protected theorem YieldsOnly.setCtr {s t : State} (h : YieldsOnly s t) (die : BitVec 3) (c : BitVec 8) (v : W64) :
    YieldsOnly s (t.setCtr die c.toNat v) := by
  rw [setCtr_eq]
  exact .settleYields (.mapCmds (.setDie h))
protected theorem YieldsEnd.setCtr {s t : State} {on : YieldOn → Prop} {st : BitVec 8} {e : BitVec 3} (h : YieldsEnd s t e on st)
    (die : BitVec 3) (c : BitVec 8) (v : W64) : YieldsEnd s (t.setCtr die c.toNat v) e on st := by
  rw [setCtr_eq]
  exact .settleYields (.mapCmds (.setDie h))

/-- The yields that the new value reaches have ended. -/
theorem yieldsEnd_setCtr :
    YieldsEnd s (s.setCtr die c.toNat v) die (fun o => ∃ n, o = .ctr c n ∧ reached v n = true) 0 := by
  rw [setCtr_eq]
  have hends : YieldsEnd ((s.putCtr die c v).mapCmds die (Cmd.hitBy s die c v))
      (((s.putCtr die c v).mapCmds die (Cmd.hitBy s die c v)).settleYields die (onCtr c) false) die
      (fun o => ∃ n, o = .ctr c n ∧ reached v n = true) 0 := yieldsEnd_settleYields fun r hon hgot => ?_
  · exact hends
  obtain ⟨n, hn, hreached⟩ := hon
  have hr : r.on.reached ((s.putCtr die c v).mapCmds die (Cmd.hitBy s die c v)) die = true := by
    rw [hn, YieldOn.reached, mapCmds_ctr, putCtr_ctr, if_pos rfl]
    exact hreached
  rw [settle_of_reached (by rw [hn]; exact beq_self_eq_true c) hgot hr, yieldStatus, hn]

variable {s die c v} in
theorem hitBy_of_waits {e : Cmd} (h : WaitsTrigger s die e c) (hv : reached v (e.words.extractLsb' 64 64) = true) :
    e.hitBy s die c v = { e with hit := true } := by
  have hw := h.waitsFor
  obtain ⟨hrec, -, -, -, -, -, -, hctr, -⟩ := h
  rw [Cmd.hitBy, hw, look_of_recAt hrec, Cmd.triggered, hctr, putCtr_ctr, if_pos rfl, hv]
  rfl
/-- A command that has been cancelled waits for no trigger. -/
theorem hitBy_of_cancel {e : Cmd} (h : e.cancel = true) : e.hitBy s die c v = e := by
  rw [Cmd.hitBy, Cmd.waitsFor, h]
  simp

end

/-! Writes of a counter and of a queue's numbers (R82) -/

section

variable (s : State) (die : BitVec 3) (c : BitVec 8) (v : W64) (force : Bool)

/-- The commands that a forced write cancels (R82). -/
def State.cancelCtr : State :=
  if force then s.mapCmds die (fun e => if e.waitsFor s die c then { e with cancel := true } else e) else s
theorem writeCtr_eq : s.writeCtr die c v force = ((s.settleYields die (onCtr c) force).cancelCtr die c force).setCtr die c.toNat v := by
  unfold State.writeCtr State.cancelCtr
  rfl

theorem cancelCtr_ctr (k : BitVec 8) : (s.cancelCtr die c force).ctr die k = s.ctr die k := by
  unfold State.cancelCtr
  split_ifs
  · exact mapCmds_ctr ..
  · rfl
theorem writeCtr_ctr (k : BitVec 8) : (s.writeCtr die c v force).ctr die k = if k = c then v else s.ctr die k := by
  rw [writeCtr_eq, setCtr_ctr, cancelCtr_ctr, settleYields_ctr]

theorem yieldsOnly_writeCtr : YieldsOnly s (s.writeCtr die c v force) := by
  rw [writeCtr_eq, State.cancelCtr]
  split_ifs
  · exact YieldsOnly.setCtr (.mapCmds (.settleYields (.refl s))) die c v
  · exact YieldsOnly.setCtr (.settleYields (.refl s)) die c v

/-- Yields that the settling of a forced write ends. -/
theorem yieldsEnd_writeCtr {on : YieldOn → Prop} {st : BitVec 8}
    (h : ∀ r : YieldRec, on r.on → r.got = none → r.settle s die (onCtr c) true = { r with got := some st }) :
    YieldsEnd s (s.writeCtr die c v true) die on st := by
  rw [writeCtr_eq, State.cancelCtr, if_pos rfl]
  exact YieldsEnd.setCtr (.mapCmds (yieldsEnd_settleYields h)) die c v

/-- A forced write of its counter cancels a command that waits for its trigger. -/
theorem writeCtr_cancels {q : BitVec 7} {e : Cmd} (he : e ∈ (s.queue die q).cmds) (h : WaitsTrigger s die e c) :
    { e with cancel := true } ∈ ((s.writeCtr die c v true).queue die q).cmds := by
  have hw : WaitsTrigger (s.settleYields die (onCtr c) true) die e c := h
  rw [writeCtr_eq, setCtr_queue, State.cancelCtr, if_pos rfl, mapCmds_queue]
  refine List.mem_map.2 ⟨_, List.mem_map.2 ⟨e, he, if_pos hw.waitsFor⟩, hitBy_of_cancel _ _ _ _ rfl⟩

end

section

variable (s : State) (die : BitVec 3) (q : BitVec 7) (v : W64) (force : Bool)

theorem seqDone_eq : s.seqDone die q = (s.queue die q).seqDone := rfl
theorem writeNumbers_queue : (s.writeNumbers die q v force).queue die q =
    { s.queue die q with seqDone := v, seqNext := v + 1, ended := [] } := State.queue_setQueue_same ..
theorem yieldsOnly_writeNumbers : YieldsOnly s (s.writeNumbers die q v force) := .setDie (.settleYields (.refl s))
theorem cancelQueue_queue : (s.cancelQueue die q).queue die q = { s.queue die q with cmds := (s.queue die q).cmds.map (fun c =>
    if c.st == .accepted && !c.started && !c.begun then { c with cancel := true } else c) } := State.queue_setQueue_same ..
theorem yieldsOnly_cancelQueue : YieldsOnly s (s.cancelQueue die q) := .setDie (.settleYields (.refl s))

/-- A force on the numbers of a queue cancels the yields on numbers that have not been reached. -/
theorem yieldsEnd_forceQueue :
    YieldsEnd s (s.settleYields die (onQueue q) true) die (fun o => ∃ n, o = .queue q n ∧ reached (s.seqDone die q) n = false) 0x15 := by
  refine yieldsEnd_settleYields fun r hon hgot => ?_
  obtain ⟨n, hn, hreached⟩ := hon
  exact settle_of_forced (by rw [hn]; exact beq_self_eq_true q) hgot (by rw [hn]; exact hreached)

theorem yieldsEnd_writeNumbers : YieldsEnd s (s.writeNumbers die q v true) die
    (fun o => ∃ n, o = .queue q n ∧ reached (s.seqDone die q) n = false) 0x15 := (yieldsEnd_forceQueue s die q).setDie
theorem yieldsEnd_cancelQueue : YieldsEnd s (s.cancelQueue die q) die
    (fun o => ∃ n, o = .queue q n ∧ reached (s.seqDone die q) n = false) 0x15 := (yieldsEnd_forceQueue s die q).setDie

end

/-! The instructions (R220) -/

theorem seqRange_iff (q : Bool) (v : W64) : seqRange q v = true ↔ v.toNat < if q then 128 else 256 := by
  cases q
  · exact beq_iff_eq.trans (bitsOf_top_eq_zero v (lo := 8) (n := 56) rfl)
  · exact beq_iff_eq.trans (bitsOf_top_eq_zero v (lo := 7) (n := 57) rfl)

section

variable {s : State} {d a b : SReg} {p : BitVec 3} {q : Bool}

/-- A number beyond the objects of its kind traps (R220). -/
theorem exec_seq_range (h : seqRange q (s.cur.sr a) = false) (ht : TrapEnters s) :
    TrapsS (.seqRd d a q) s .operandRange ∧ TrapsS (.seqSet p a b q) s .operandRange ∧ TrapsS (.seqSetForce p a b q) s .operandRange ∧
      (q = false → TrapsS (.seqAdd d a b) s .operandRange) := by
  have hout : (!seqRange q (s.cur.sr a)) = true := by rw [h]; rfl
  refine ⟨operandRange_traps (f := .sa) (r := a) (if_pos hout) ht, operandRange_traps (f := .sa) (r := a) (if_pos hout) ht,
    operandRange_traps (f := .sa) (r := a) (if_pos hout) ht, ?_⟩
  rintro rfl
  exact operandRange_traps (f := .sa) (r := a) (if_pos hout) ht

theorem writesP_of_next {i : Instr} {v : Bool} (h : exec i s = .next (s.setCur (s.cur.setSp p v).pc4)) : WritesP i s p v :=
  ⟨_, h, fun r => Group.spOf_setSp s.cur p r v⟩

variable (h : seqRange q (s.cur.sr a) = true)

include h

theorem exec_seqRd : exec (.seqRd d a q) s = scalarNext (fun g => g.setSr d
    (if q then s.seqDone s.curG.die ((s.cur.sr a).extractLsb' 0 7) else s.ctr s.curG.die ((s.cur.sr a).extractLsb' 0 8))) s := by
  change execSeqRd d a q s = _
  rw [execSeqRd, h]
  rfl

theorem exec_seqAdd (hq : q = false) : exec (.seqAdd d a b) s =
    scalarNext (fun g => g.setSr d (s.ctr s.curG.die ((s.cur.sr a).extractLsb' 0 8)))
      (s.setCtr s.curG.die ((s.cur.sr a).extractLsb' 0 8).toNat (s.ctr s.curG.die ((s.cur.sr a).extractLsb' 0 8) + s.cur.sr b)) := by
  subst hq
  change execSeqAdd d a b s = _
  rw [execSeqAdd, h]
  rfl

theorem exec_seqSet : exec (.seqSet p a b q) s =
    if (if q then queueArmed s s.curG.die ((s.cur.sr a).extractLsb' 0 7) else ctrArmed s s.curG.die ((s.cur.sr a).extractLsb' 0 8)) then
      scalarNext (fun g => g.setSp p true) s
    else scalarNext (fun g => g.setSp p false) (if q then s.writeNumbers s.curG.die ((s.cur.sr a).extractLsb' 0 7) (s.cur.sr b) false
      else s.writeCtr s.curG.die ((s.cur.sr a).extractLsb' 0 8) (s.cur.sr b) false) := by
  change execSeqSet p a b q s = _
  rw [execSeqSet, h]
  rfl

theorem exec_seqSetForce : exec (.seqSetForce p a b q) s =
    if q then
      (if (s.queue s.curG.die ((s.cur.sr a).extractLsb' 0 7)).cmds = [] then
        scalarNext (fun g => g.setSp p false) (s.writeNumbers s.curG.die ((s.cur.sr a).extractLsb' 0 7) (s.cur.sr b) true)
      else .next (s.cancelQueue s.curG.die ((s.cur.sr a).extractLsb' 0 7)).stalled)
    else scalarNext (fun g => g.setSp p false) (s.writeCtr s.curG.die ((s.cur.sr a).extractLsb' 0 8) (s.cur.sr b) true) := by
  change execSeqSetForce p a b q s = _
  rw [execSeqSetForce, h]
  rfl

end

/-- A write that succeeds clears its predicate and goes on. -/
theorem YieldsOnly.cleared {s t : State} (h : YieldsOnly s t) (p : BitVec 3) :
    let u := t.setCur (t.cur.setSp p false).pc4
    u.cur.sp.getLsbD p.toNat = false ∧ u.cur.pc = s.cur.pc + 4 ∧ u.mem = s.mem := by
  intro u
  have hu : u.cur = (t.cur.setSp p false).pc4 := State.cur_setCur ..
  refine ⟨?_, ?_, h.2.1⟩
  · rw [hu]
    exact (Group.spOf_setSp t.cur p p false).trans (if_pos rfl)
  · rw [hu, h.cur]
    rfl

/-- What `seq.add` leaves: the old value in its register, the yields of its group that the new value reaches ended, the rest as it was. -/
theorem YieldsOnly.added {s t : State} (h : YieldsOnly s t) (d : SReg) (v : W64) :
    let u := t.setCur (t.cur.setSr d v).pc4
    u.cur = { s.cur with s := s.cur.s.set d.toNat v d.isLt, pc := s.cur.pc + 4, st := u.cur.st,
                         h := { s.cur.h with kept := { s.cur.h.kept with st := u.cur.h.kept.st } } } := by
  intro u
  have hu : u.cur = (t.cur.setSr d v).pc4 := State.cur_setCur ..
  rw [hu, h.cur]
  rfl

theorem YieldsOnly.cur_regs {s t : State} (h : YieldsOnly s t) : t.cur.pc = s.cur.pc ∧ t.cur.s = s.cur.s ∧ t.cur.sp = s.cur.sp := by
  rw [h.cur]
  exact ⟨rfl, rfl, rfl⟩

theorem settleYields_running (s : State) (die : BitVec 3) (p : YieldOn → Bool) (force : Bool) (h : s.cur.st = .running) :
    (s.settleYields die p force).cur.st = .running := by
  have hcur : (s.settleYields die p force).cur = (s.settleYields die p force).group s.curG := rfl
  rw [hcur, settleYields_group]
  split_ifs
  · rw [Group.mapYield]
    exact congrArg (RunState.mapYield _) h
  · exact h

/-- The instructions on a trigger counter (R80 to R82). -/
theorem seq_counter {s : State} {d a b : SReg} {p : BitVec 3} (hv : (s.cur.sr a).toNat < 256) :
    let die := s.curG.die
    let c : BitVec 8 := (s.cur.sr a).extractLsb' 0 8
    let y := s.cur.sr b
    WritesS (.seqRd d a false) s d (fun x => x = s.ctr die c) ∧
    (∃ t, exec (.seqAdd d a b) s = .next t ∧ t.ctr die c = s.ctr die c + y ∧ (∀ k, k ≠ c → t.ctr die k = s.ctr die k) ∧
      t.cur = { s.cur with s := s.cur.s.set d.toNat (s.ctr die c) d.isLt, pc := s.cur.pc + 4, st := t.cur.st,
                           h := { s.cur.h with kept := { s.cur.h.kept with st := t.cur.h.kept.st } } } ∧
      (s.cur.st = .running → t.cur.st = .running) ∧ t.mem = s.mem ∧
      YieldsEnd s t die (fun o => ∃ n, o = .ctr c n ∧ reached (s.ctr die c + y) n = true) 0 ∧
      ∀ q e, e ∈ (s.queue die q).cmds → WaitsTrigger s die e c → reached (s.ctr die c + y) (e.words.extractLsb' 64 64) = true →
        { e with hit := true } ∈ (t.queue die q).cmds) ∧
    (ctrArmed s die c = true → WritesP (.seqSet p a b false) s p true) ∧
    (ctrArmed s die c = false → ∃ t, exec (.seqSet p a b false) s = .next t ∧ t.ctr die c = y ∧
      (∀ k, k ≠ c → t.ctr die k = s.ctr die k) ∧ t.cur.sp.getLsbD p.toNat = false ∧ t.cur.pc = s.cur.pc + 4 ∧ t.mem = s.mem) ∧
    (∃ t, exec (.seqSetForce p a b false) s = .next t ∧ t.ctr die c = y ∧ (∀ k, k ≠ c → t.ctr die k = s.ctr die k) ∧
      t.cur.sp.getLsbD p.toNat = false ∧ t.cur.pc = s.cur.pc + 4 ∧ t.mem = s.mem ∧
      YieldsEnd s t die (fun o => ∃ n, o = .ctr c n ∧ reached (s.ctr die c) n = false) 0x15 ∧
      YieldsEnd s t die (fun o => ∃ n, o = .ctr c n ∧ reached (s.ctr die c) n = true) 0 ∧
      ∀ q e, e ∈ (s.queue die q).cmds → WaitsTrigger s die e c → { e with cancel := true } ∈ (t.queue die q).cmds) := by
  intro die c y
  have hrange : seqRange false (s.cur.sr a) = true := (seqRange_iff false _).2 hv
  refine ⟨writesS_of_next (v := s.ctr die c) (exec_seqRd hrange) rfl, ?_, fun harmed => ?_, fun hfree => ?_, ?_⟩
  · have honly : YieldsOnly s (s.setCtr die c.toNat (s.ctr die c + y)) := (YieldsOnly.refl s).setCtr die c _
    refine ⟨_, exec_seqAdd hrange rfl, ?_, fun k hk => ?_, honly.added d (s.ctr die c), fun hrun => ?_, rfl, ?_, fun q e he hw hreached => ?_⟩
    · exact (setCtr_ctr s die c _ c).trans (if_pos rfl)
    · exact (setCtr_ctr s die c _ k).trans (if_neg hk)
    · rw [State.cur_setCur, setCtr_eq]
      exact settleYields_running ((s.putCtr die c (s.ctr die c + y)).mapCmds die (Cmd.hitBy s die c (s.ctr die c + y))) die (onCtr c) false hrun
    · exact (yieldsEnd_setCtr s die c (s.ctr die c + y)).setCur rfl rfl
    · refine (hitBy_of_waits hw hreached) ▸ ?_
      change Cmd.hitBy s die c (s.ctr die c + y) e ∈ ((s.setCtr die c.toNat (s.ctr die c + y)).queue die q).cmds
      rw [setCtr_queue]
      exact List.mem_map_of_mem he
  · exact writesP_of_next ((exec_seqSet hrange).trans (if_pos harmed))
  · have hnot : ¬ ctrArmed s die c = true := by rw [hfree]; exact Bool.false_ne_true
    refine ⟨_, (exec_seqSet hrange).trans (if_neg hnot), ?_, fun k hk => ?_, (yieldsOnly_writeCtr s die c y false).cleared p⟩
    · exact (writeCtr_ctr s die c y false c).trans (if_pos rfl)
    · exact (writeCtr_ctr s die c y false k).trans (if_neg hk)
  · obtain ⟨hsp, hpc, hmem⟩ := (yieldsOnly_writeCtr s die c y true).cleared p
    refine ⟨_, exec_seqSetForce hrange, ?_, fun k hk => ?_, hsp, hpc, hmem, ?_, ?_, fun q e he hw => writeCtr_cancels s die c y he hw⟩
    · exact (writeCtr_ctr s die c y true c).trans (if_pos rfl)
    · exact (writeCtr_ctr s die c y true k).trans (if_neg hk)
    · refine YieldsEnd.setCur (yieldsEnd_writeCtr s die c y fun r hon hgot => ?_) rfl rfl
      obtain ⟨n, hn, hreached⟩ := hon
      exact settle_of_forced (by rw [hn]; exact beq_self_eq_true c) hgot (by rw [hn]; exact hreached)
    · refine YieldsEnd.setCur (yieldsEnd_writeCtr s die c y fun r hon hgot => ?_) rfl rfl
      obtain ⟨n, hn, hreached⟩ := hon
      rw [settle_of_reached (by rw [hn]; exact beq_self_eq_true c) hgot (by rw [hn]; exact hreached), yieldStatus, hn]

/-- The instructions on the numbers of a queue (R80, R82). -/
theorem seq_numbers {s : State} {d a b : SReg} {p : BitVec 3} (hv : (s.cur.sr a).toNat < 128) :
    let die := s.curG.die
    let q : BitVec 7 := (s.cur.sr a).extractLsb' 0 7
    let y := s.cur.sr b
    let written := fun (i : Instr) (t : State) => exec i s = .next t ∧ t.seqDone die q = y ∧ (t.queue die q).seqNext = y + 1 ∧
      t.cur.sp.getLsbD p.toNat = false ∧ t.cur.pc = s.cur.pc + 4 ∧ t.mem = s.mem
    WritesS (.seqRd d a true) s d (fun x => x = s.seqDone die q) ∧
    (queueArmed s die q = true → WritesP (.seqSet p a b true) s p true) ∧
    (queueArmed s die q = false → ∃ t, written (.seqSet p a b true) t) ∧
    ((s.queue die q).cmds = [] → ∃ t, written (.seqSetForce p a b true) t ∧
      YieldsEnd s t die (fun o => ∃ n, o = .queue q n ∧ reached (s.seqDone die q) n = false) 0x15) ∧
    ((s.queue die q).cmds ≠ [] → ∃ t, exec (.seqSetForce p a b true) s = .next t ∧ t.cur.pc = s.cur.pc ∧
      t.cur.s = s.cur.s ∧ t.cur.sp = s.cur.sp ∧ t.seqDone die q = s.seqDone die q ∧
      (∀ c ∈ (t.queue die q).cmds, c.st = .accepted → c.started = false → c.begun = false → c.cancel = true) ∧ t.mem = s.mem ∧
      YieldsEnd s t die (fun o => ∃ n, o = .queue q n ∧ reached (s.seqDone die q) n = false) 0x15) := by
  intro die q y written
  have hrange : seqRange true (s.cur.sr a) = true := (seqRange_iff true _).2 hv
  have hwritten {i : Instr} {force : Bool}
      (hexec : exec i s = scalarNext (fun g => g.setSp p false) (s.writeNumbers die q y force)) :
      written i ((s.writeNumbers die q y force).setCur (((s.writeNumbers die q y force).cur.setSp p false).pc4)) := by
    have hq := writeNumbers_queue s die q y force
    exact ⟨hexec, congrArg Queue.seqDone hq, congrArg Queue.seqNext hq, (yieldsOnly_writeNumbers s die q y force).cleared p⟩
  refine ⟨writesS_of_next (v := s.seqDone die q) (exec_seqRd hrange) rfl, fun harmed => ?_, fun hfree => ?_, fun hnil => ?_, fun hne => ?_⟩
  · exact writesP_of_next ((exec_seqSet hrange).trans (if_pos harmed))
  · have hnot : ¬ queueArmed s die q = true := by rw [hfree]; exact Bool.false_ne_true
    exact ⟨_, hwritten ((exec_seqSet hrange).trans (if_neg hnot))⟩
  · refine ⟨_, hwritten ((exec_seqSetForce hrange).trans ((if_pos rfl).trans (if_pos hnil))), ?_⟩
    exact (yieldsEnd_writeNumbers s die q y).setCur rfl rfl
  · obtain ⟨hpc, hs, hsp⟩ := (yieldsOnly_cancelQueue s die q).cur_regs
    have hdone : (s.cancelQueue die q).seqDone die q = s.seqDone die q := by
      rw [seqDone_eq, cancelQueue_queue, seqDone_eq]
    have hq := cancelQueue_queue s die q
    refine ⟨_, (exec_seqSetForce hrange).trans ((if_pos rfl).trans (if_neg hne)), hpc, hs, hsp, hdone,
      fun c hc hst hstarted hbegun => ?_, rfl,
      yieldsEnd_cancelQueue s die q⟩
    have hc' : c ∈ ((s.cancelQueue die q).queue die q).cmds := hc
    rw [hq] at hc'
    obtain ⟨e, -, rfl⟩ := List.mem_map.1 hc'
    split_ifs at hst hstarted hbegun ⊢ with hopen
    · rfl
    · rw [hst, hstarted, hbegun] at hopen
      exact absurd rfl hopen

/-- Settles O34: the counter's clauses are `seq_counter`, the queue's `seq_numbers`; a number out of range traps by `exec_seq_range`. -/
theorem queueNumbersAndCounters : Obligations.QueueNumbersAndCounters := by
  intro s d a b p v y die yields waits
  refine ⟨fun hv => ?_, fun hv => ?_, fun hv ht => ?_, fun hv ht => ?_⟩
  · intro c
    obtain ⟨hrd, ⟨t, hadd, hctr, hother, hcur, hrun, hmem, hends, hhit⟩, harmed, hfree, u, hforce, hctr', hother', hsp, hpc, hmem', hcancel,
      hkeep, hcmds⟩ := seq_counter (d := d) (b := b) (p := p) hv
    exact ⟨hrd, ⟨t, hadd, hctr, hother, hcur, hrun, hmem, hends, fun q e hw hr => ⟨_, hhit q e hw.1 hw.2 hr, rfl⟩⟩, harmed, hfree,
      u, hforce, hctr', hother', hsp, hpc, hmem', hcancel, hkeep, fun q e hw => ⟨_, hcmds q e hw.1 hw.2, rfl, rfl⟩⟩
  · intro q
    obtain ⟨hrd, harmed, hfree, hforce, hwaits⟩ := seq_numbers (d := d) (b := b) (p := p) hv
    refine ⟨hrd, harmed, hfree, fun hnil => ?_, hwaits⟩
    obtain ⟨t, ⟨hexec, hdone, hnext, hsp, hpc, hmem⟩, hends⟩ := hforce hnil
    exact ⟨t, hexec, hdone, hnext, hsp, hpc, hmem, hends⟩
  · obtain ⟨hrd, hset, hforce, -⟩ := exec_seq_range (d := d) (a := a) (b := b) (p := p)
      (Bool.eq_false_iff.2 fun h => absurd ((seqRange_iff true _).1 h) (Nat.not_lt.2 hv)) ht
    exact ⟨hrd, hset, hforce⟩
  · obtain ⟨hrd, hset, hforce, hadd⟩ := exec_seq_range (d := d) (a := a) (b := b) (p := p)
      (Bool.eq_false_iff.2 fun h => absurd ((seqRange_iff false _).1 h) (Nat.not_lt.2 hv)) ht
    exact ⟨hrd, hadd rfl, hset, hforce⟩

end Sys2Proof.Machine
end

section
/-! PROOFS. Chains: the append of an entry, and its fetch (O36). -/

set_option Elab.async false

namespace Sys2Proof.Machine

/-! The append (R79, R219) -/

/-- A cause that is not deferred, raised by a scalar memory instruction that has changed nothing, traps precisely (R316). -/
theorem trapsS_of_stop {i : Instr} {s : State} {x : Srcs} {body : Srcs → Acc Unit} {j : Info} (hrep : s.cur.replaying false = none)
    (ht : TrapEnters s) (hd : j.cause.deferred = false) (hbody : (body x).run s = .error (.fault j) s)
    (hexec : exec i s = scalarMem i x body s) : TrapsS i s j.cause := by
  obtain ⟨rec, hrec, hraise⟩ := raiseTrap_enters ht false j s.cur.pc ((encodeScalar i).setWidth 96) s.cur.pc
  refine ⟨rec, hrec, ?_⟩
  rw [hexec, scalarMem_stops hrep hbody, finish_traps hd, hraise]

/-- One access that lies in one page which translates (R40, R203). -/
theorem resolveAll_page {tr : Nat → Acc Nat} {n : Nat} {va : W64} {s s1 : State} {pa : Nat} (hroom : va.toNat % 0x10000 + n ≤ 0x10000)
    (h : (tr 0).run s = .ok pa s1) : (resolveAll tr n [{ off := 0, va := va }]).run s = .ok [(List.range n).map (pa + ·)] s1 := by
  have hle : n ≤ 0x10000 - va.toNat % 0x10000 := by omega
  unfold resolveAll
  simp only [run_bind, resolveList, resolveOne, resolvePart, List.any_nil, Bool.false_eq_true, if_false, run_attempt, h, run_pure, hle,
    if_true, List.find?_nil, Option.getD_some]

/-- The state once an entry has been appended to a die's chain for a command. -/
def State.chainAppend (s : State) (die : BitVec 3) (q : BitVec 7) (v : W64) (c : Cmd) : State :=
  let y := s.queue die q
  s.setQueue die q { y with tail := v, fetch := if y.tail = 0 ∨ y.fetch = 0 then v else y.fetch, appends := y.appends ++ [(v, c)] }

theorem chainAppend_queue (s : State) (die : BitVec 3) (q : BitVec 7) (v : W64) (c : Cmd) :
    (s.chainAppend die q v c).queue die q = { s.queue die q with
      tail := v, fetch := if (s.queue die q).tail = 0 ∨ (s.queue die q).fetch = 0 then v else (s.queue die q).fetch,
      appends := (s.queue die q).appends ++ [(v, c)] } := State.queue_setQueue_same ..

section

variable {s : State} {a b : SReg}

/-- The operands of `chain`. -/
def chainSrcs (s : State) (a b : SReg) : Srcs := { sc := [s.cur.sr a, s.cur.sr b] }

theorem chainSrcs_a : (chainSrcs s a b).sc.getD 0 0 = s.cur.sr a := rfl
theorem chainSrcs_b : (chainSrcs s a b).sc.getD 1 0 = s.cur.sr b := rfl

theorem chainBody_range (h : 128 ≤ (s.cur.sr b).toNat ∨ canonical (s.cur.sr a) = false ∨ (s.cur.sr a).toNat % 64 ≠ 0) :
    ∃ j : Info, j.cause = .operandRange ∧ (chainBody a b (chainSrcs s a b)).run s = .error (.fault j) s := by
  unfold chainBody
  dsimp only
  rw [chainSrcs_a, chainSrcs_b]
  by_cases hb : bitsOf (s.cur.sr b) 7 57 ≠ 0
  · rw [if_pos hb, run_bind]
    exact ⟨_, rfl, rfl⟩
  · have ha : canonical (s.cur.sr a) = false ∨ bitsOf (s.cur.sr a) 0 6 ≠ 0 := by
      rw [bitsOf_zero]
      exact h.resolve_left fun hge => hb (not_top_eq_zero (lo := 7) (n := 57) rfl hge)
    rw [if_neg hb, if_pos ha, run_bind]
    exact ⟨_, rfl, rfl⟩

variable (hb : (s.cur.sr b).toNat < 128) (hcan : canonical (s.cur.sr a) = true) (hal : (s.cur.sr a).toNat % 64 = 0)

include hb hcan hal

theorem chainBody_run : (chainBody a b (chainSrcs s a b)).run s =
    (do
      if (s.queue s.curG.die ((s.cur.sr b).extractLsb' 0 7)).tail ≠ 0 then
        let as ← resolveAll (fun o => translate (groupAgent s.curG s.cur)
          ((s.queue s.curG.die ((s.cur.sr b).extractLsb' 0 7)).tail + 56 + BitVec.ofNat 64 o) .write) 8
          [{ off := 0, va := (s.queue s.curG.die ((s.cur.sr b).extractLsb' 0 7)).tail + 56 }]
        writeAt (as.getD 0 []) (natToBytes 8 (s.cur.sr a).toNat)
      modify (fun t => t.chainAppend s.curG.die ((s.cur.sr b).extractLsb' 0 7) (s.cur.sr a) (ownCmd s)) : Acc Unit).run s := by
  have hb' : ¬ bitsOf (s.cur.sr b) 7 57 ≠ 0 := not_not.2 ((bitsOf_top_eq_zero _ rfl).2 hb)
  have ha' : ¬ (canonical (s.cur.sr a) = false ∨ bitsOf (s.cur.sr a) 0 6 ≠ 0) := by
    rw [bitsOf_zero, hcan]
    simpa using hal
  unfold chainBody
  dsimp only
  rw [chainSrcs_a, chainSrcs_b]
  rw [if_neg hb', if_neg ha']
  rfl

theorem chainBody_empty (htail : (s.queue s.curG.die ((s.cur.sr b).extractLsb' 0 7)).tail = 0) :
    (chainBody a b (chainSrcs s a b)).run s = .ok () (s.chainAppend s.curG.die ((s.cur.sr b).extractLsb' 0 7) (s.cur.sr a) (ownCmd s)) := by
  rw [chainBody_run hb hcan hal, if_neg (not_not.2 htail)]
  rfl

/-- The old tail's next field is written, then the entry is appended. -/
theorem chainBody_links {pa : Nat} {s1 : State} (htail : (s.queue s.curG.die ((s.cur.sr b).extractLsb' 0 7)).tail ≠ 0)
    (htr : Translates s ((s.queue s.curG.die ((s.cur.sr b).extractLsb' 0 7)).tail + 56) .write pa s1)
    (hroom : ((s.queue s.curG.die ((s.cur.sr b).extractLsb' 0 7)).tail + 56).toNat % 0x10000 ≤ 0xFFF8)
    (hnode : paNode pa = 0) (hreg : paRegion pa < 2) :
    (chainBody a b (chainSrcs s a b)).run s = .ok ()
      (((s1.write pa (natToBytes 8 (s.cur.sr a).toNat)).tagWrite (groupAgent s1.curG s1.cur).who pa 8).chainAppend
        s.curG.die ((s.cur.sr b).extractLsb' 0 7) (s.cur.sr a) (ownCmd s)) := by
  have hpage := resolveAll_page (tr := fun o => translate (groupAgent s.curG s.cur)
      ((s.queue s.curG.die ((s.cur.sr b).extractLsb' 0 7)).tail + 56 + BitVec.ofNat 64 o) .write) (n := 8) (s := s) (s1 := s1) (pa := pa)
    (va := (s.queue s.curG.die ((s.cur.sr b).extractLsb' 0 7)).tail + 56) (by omega) (by rw [BitVec.add_zero]; exact htr)
  have hwrite : (writeAt ([(List.range 8).map (pa + ·)].getD 0 []) (natToBytes 8 (s.cur.sr a).toNat)).run s1 =
      .ok () ((s1.write pa (natToBytes 8 (s.cur.sr a).toNat)).tagWrite (groupAgent s1.curG s1.cur).who pa 8) := by
    have hrun := writeAt_run (s := s1) (a := pa) (l := natToBytes 8 (s.cur.sr a).toNat) (by rw [natToBytes_length]; omega) hnode hreg
    rwa [natToBytes_length] at hrun
  rw [chainBody_run hb hcan hal, if_pos htail, run_bind, hpage]
  dsimp only
  rw [run_bind, hwrite]
  rfl

end

/-! The fetch (R74, R79, R219) -/

theorem exec_chainFetch_full {s : State} {die : BitVec 3} {q : BitVec 7} (h : 64 ≤ (s.queue die q).cmds.length) :
    exec (.chainFetch die q) s = .next s := by
  change execChainFetch die q s = _
  unfold execChainFetch
  dsimp only
  split
  · rfl
  · exact if_pos (.inr (.inl h))

/-- The queue and the state after an entry with the words `w` has been fetched for `c`. -/
def State.fetched (s : State) (die : BitVec 3) (q : BitVec 7) (c : Cmd) (w : BitVec 512) : State :=
  let t := s.accept die q { c with words := w, st := .accepted }
  t.setQueue die q { t.queue die q with fetch := w.extractLsb' 448 64 }

theorem exec_chainFetch {s s1 : State} {die : BitVec 3} {q : BitVec 7} {c : Cmd} {v : Nat} (hfetch : (s.queue die q).fetch ≠ 0)
    (hal : (s.queue die q).fetch.toNat % 64 = 0) (hroom : (s.queue die q).cmds.length < 64) (hhalt : (s.queue die q).fetchHalt = 0)
    (hend : (s.queue die q).fetchEnd = 0) (hc : (s.queue die q).fetcher = some c) (hopen : ∀ st, c.st ≠ .ended st)
    (hread : (engRead die c (s.queue die q).fetch 64).run (s.setQueue die q { s.queue die q with
      owner := some c, appends := (s.queue die q).appends.filter (fun p => p.1 != (s.queue die q).fetch) }) = .ok v s1) :
    exec (.chainFetch die q) s = .next (s1.fetched die q c (BitVec.ofNat 512 v)) := by
  have hgo : ¬ ((s.queue die q).fetch = 0 ∨ 64 ≤ (s.queue die q).count ∨ (s.queue die q).fetchHalt ≠ 0) := by
    rintro (h | h | h)
    · exact hfetch h
    · exact absurd hroom (Nat.not_lt.2 h)
    · exact h hhalt
  have hal' : ¬ bitsOf (s.queue die q).fetch 0 6 ≠ 0 := by rw [bitsOf_zero]; exact not_not.2 hal
  change execChainFetch die q s = _
  unfold execChainFetch
  dsimp only
  rw [hc]
  dsimp only
  rw [if_neg hgo, if_neg (not_not.2 hend), if_neg hal', hread]
  dsimp only
  split
  · rename_i st hst
    exact absurd hst (hopen st)
  · rfl

/-- Settles O36: an append is `chainBody`, of which `chainBody_empty`, `chainBody_links` and `chainBody_range` say what it does; a fetch is
`State.fetched`. -/
theorem chains : Obligations.Chains := by
  refine ⟨fun s a b hrep => ⟨fun hb hcan hal htail => ?_, fun pa s1 hb hcan hal htail htr hroom hnode hreg => ?_, fun hout ht => ?_⟩,
    fun s die q h => exec_chainFetch_full h, fun s s1 die q c v => ?_⟩
  · refine ⟨_, scalarMem_next (i := .chain a b) hrep (chainBody_empty hb hcan hal htail), ?_, State.cur_setCur .., rfl⟩
    refine (chainAppend_queue s s.curG.die ((s.cur.sr b).extractLsb' 0 7) (s.cur.sr a) (ownCmd s)).trans ?_
    rw [if_pos (.inl htail)]
  · have hmem : ((s1.write pa (natToBytes 8 (s.cur.sr a).toNat)).tagWrite (groupAgent s1.curG s1.cur).who pa 8).mem =
        pokeBytes s1.mem pa (natToBytes 8 (s.cur.sr a).toNat) := by rw [tagWrite_eq]; rfl
    refine ⟨_, scalarMem_next (i := .chain a b) hrep (chainBody_links hb hcan hal htail htr hroom hnode hreg), ?_, fun y hy => ?_, ?_⟩
    · change peek ((s1.write pa (natToBytes 8 (s.cur.sr a).toNat)).tagWrite (groupAgent s1.curG s1.cur).who pa 8).mem pa 8 = _
      rw [hmem, peek_pokeBytes]
      exact Nat.mod_eq_of_lt (s.cur.sr a).isLt
    · change Sparse.get ((s1.write pa (natToBytes 8 (s.cur.sr a).toNat)).tagWrite (groupAgent s1.curG s1.cur).who pa 8).mem y = _
      rw [hmem, get_pokeBytes_outside _ _ _ _ (by rwa [natToBytes_length])]
    · exact congrArg Queue.tail (chainAppend_queue _ s.curG.die ((s.cur.sr b).extractLsb' 0 7) (s.cur.sr a) (ownCmd s))
  · obtain ⟨j, hj, hbody⟩ := chainBody_range hout
    exact hj ▸ trapsS_of_stop hrep ht (hj ▸ rfl) hbody rfl
  · intro x s0 hfetch hal hroom hhalt hend hc hopen hread
    obtain ⟨e, he, hq, hmem, -⟩ := accept_spec s1 die q { c with words := BitVec.ofNat 512 v, st := .accepted }
    have hfetched : (s1.fetched die q c (BitVec.ofNat 512 v)).queue die q = _ := State.queue_setQueue_same ..
    refine ⟨_, e, exec_chainFetch hfetch hal hroom hhalt hend hc hopen hread, ?_, ?_, ?_, ?_, ?_, hmem⟩
    · rw [hfetched, hq]
    · rw [he]
    · rw [he]
    · rw [hfetched, hq]
    · rw [hfetched]

end Sys2Proof.Machine
end

section
/-! PROOFS. The steps of a copy queue: a command begins, copies, ends, halts, resumes, is abandoned (O37). -/

set_option Elab.async false

namespace Sys2Proof.Machine

/-! Updates that leave every queue, and memory, as they are -/

/-- A state with another's memory and queues. -/
def SameQueues (s t : State) : Prop := t.mem = s.mem ∧ ∀ e q, t.queue e q = s.queue e q

section

variable {s t : State}

protected theorem SameQueues.refl (s : State) : SameQueues s s := ⟨rfl, fun _ _ => rfl⟩
protected theorem SameQueues.setTag (h : SameQueues s t) {b : Block} {sl : Nat} {e : W64} : SameQueues s (t.setTag b sl e) := h
protected theorem SameQueues.setDie (h : SameQueues s t) {die : BitVec 3} {x : Die} (hx : x.queues = (t.die die).queues) :
    SameQueues s (t.setDie die x) := by
  obtain ⟨hmem, hq⟩ := h
  exact ⟨hmem, fun e q => (t.queue_setDie die e q hx).trans (hq e q)⟩
protected theorem SameQueues.ite {u : State} {c : Prop} {_ : Decidable c} (ht : SameQueues s t) (hu : SameQueues s u) :
    SameQueues s (if c then t else u) := by
  split
  · exact ht
  · exact hu
protected theorem SameQueues.foldl {α : Type} {l : List α} {f : State → α → State} (h : SameQueues s t)
    (hf : ∀ u x, SameQueues s u → SameQueues s (f u x)) : SameQueues s (l.foldl f t) := by
  induction l generalizing t with
  | nil => exact h
  | cons x l ih => exact ih (hf t x h)

/-- An error marked in a command's slots and buffers changes no queue (R85, R88). -/
theorem sameQueues_markErr (s : State) (die : BitVec 3) (c : Cmd) : SameQueues s (s.markErr die c) := by
  unfold State.markErr
  extract_lets tagged
  have htags : SameQueues s tagged := .foldl (.refl s) fun _ _ hu => .ite hu.setTag hu
  exact .ite (htags.setDie rfl) (.foldl htags fun _ _ hu => .ite (hu.setDie rfl) hu)

end

/-! A command ends (R75, R86, R88) -/

section

variable (s : State) (die : BitVec 3) (q : BitVec 7) (c : Cmd) (st : BitVec 8)

/-- A queue with a command's status noted. -/
def Queue.noteEnd (x : Queue) (c : Cmd) (st : BitVec 8) : Queue :=
  if st = 0 then x.setCmd { c with st := .ended st } else { x.setCmd { c with st := .ended st } with lastStatus := st, lastErr := c.n }

theorem endCmd_queue : (s.endCmd die q c st).queue die q =
    ((s.queue die q).noteEnd c st).retire ((s.queue die q).noteEnd c st).cmds.length := by
  have hq : (if st = 0 then s else s.markErr die c).queue die q = s.queue die q := by
    split_ifs
    · rfl
    · exact (sameQueues_markErr s die c).2 die q
  unfold State.endCmd
  dsimp only
  rw [hq, State.queue_setQueue_same]
  rfl
theorem endCmd_mem : (s.endCmd die q c st).mem = s.mem := by
  have hmem : (if st = 0 then s else s.markErr die c).mem = s.mem := by
    split_ifs
    · rfl
    · exact (sameQueues_markErr s die c).1
  exact hmem

end

/-- A queue whose commands are all open retires none. -/
theorem retire_of_open {x : Queue} (h : ∀ e ∈ x.cmds, e.open = true) (n : Nat) : x.retire n = x := by
  cases n with
  | zero => rfl
  | succ n =>
    rw [Queue.retire]
    split
    · rename_i c t hc
      have hopen := h c (hc ▸ List.mem_cons_self ..)
      split
      · rename_i st hst
        rw [Cmd.open, hst] at hopen
        exact absurd hopen Bool.false_ne_true
      · rfl
    · rfl

/-- A command at the head that has ended leaves, and `seq_done` moves to its number (R75). -/
theorem retire_head {x : Queue} {c : Cmd} {rest : List Cmd} {st : BitVec 8} (hx : x.cmds = c :: rest) (hst : c.st = .ended st)
    (hopen : ∀ e ∈ rest, e.open = true) : x.retire x.cmds.length =
      { x with cmds := rest, seqDone := c.n, ended := if st = 0 then x.ended else (c.n, st) :: x.ended } := by
  rw [hx, List.length_cons, Queue.retire, hx]
  dsimp only
  rw [hst]
  exact retire_of_open (by exact hopen) _

theorem setCmd_head {x : Queue} {c c1 : Cmd} {rest : List Cmd} (hx : x.cmds = c :: rest) (hn : c1.n = c.n)
    (hother : ∀ e ∈ rest, e.n ≠ c.n) : x.setCmd c1 = { x with cmds := c1 :: rest } := by
  have hrest : rest.map (fun y => if y.n == c1.n then c1 else y) = rest :=
    (List.map_congr_left (g := id) fun e he => if_neg (by rw [hn]; simpa using hother e he)).trans (List.map_id rest)
  rw [Queue.setCmd, hx, List.map_cons, hrest, if_pos (by rw [hn]; exact beq_self_eq_true c.n)]

/-- What the end of the command at the head leaves of its queue. -/
theorem endCmd_head {s : State} {die : BitVec 3} {q : BitVec 7} {c : Cmd} {rest : List Cmd} (st : BitVec 8)
    (hx : (s.queue die q).cmds = c :: rest) (hrest : ∀ e ∈ rest, e.n ≠ c.n ∧ e.open = true) :
    ∃ l, (s.endCmd die q c st).queue die q = { s.queue die q with
      cmds := rest, seqDone := c.n, ended := l, lastStatus := if st = 0 then (s.queue die q).lastStatus else st,
      lastErr := if st = 0 then (s.queue die q).lastErr else c.n } := by
  have hset := setCmd_head (c1 := { c with st := .ended st }) hx rfl fun e he => (hrest e he).1
  rw [endCmd_queue, Queue.noteEnd, hset]
  split_ifs with hst
  · exact ⟨_, retire_head (c := { c with st := .ended st }) rfl rfl fun e he => (hrest e he).2⟩
  · exact ⟨_, retire_head (c := { c with st := .ended st }) rfl rfl fun e he => (hrest e he).2⟩

/-! A command begins (R75, R81, R82) -/

section

variable {s : State} {die : BitVec 3} {q : BitVec 7} {c : Cmd} (hnext : (s.queue die q).nextBegin = some c)

include hnext

theorem exec_commandBegin_cancelled (hcancel : c.cancel = true) : exec (.commandBegin die q) s = .next (s.endCmd die q c 0x15) := by
  change execCommandBegin die q s = _
  rw [execCommandBegin, State.commandBegin, hnext]
  dsimp only
  rw [if_pos hcancel]

theorem exec_commandBegin (hcancel : c.cancel = false) (hrec : c.recAt = none) :
    exec (.commandBegin die q) s = .next (beginWith die q c s) := by
  have hread : (readRecord die c).run s = .ok c s := by
    unfold readRecord
    rw [hrec]
    rfl
  change execCommandBegin die q s = _
  rw [execCommandBegin, State.commandBegin, hnext]
  dsimp only
  rw [if_neg (by rw [hcancel]; exact Bool.false_ne_true), hread]

end

section

variable {s : State} {die : BitVec 3} {q : BitVec 7} {c : Cmd} (hok : recordOk c.words = true)

include hok

/-- A command whose trigger has not been reached stays, not begun (R81). -/
theorem beginWith_untriggered (htrig : cTrig c.words = true) (hhit : c.hit = false) (hreached : c.triggered s die = false) :
    beginWith die q c s = s.putCmd die q { c with begun := false } := by
  unfold beginWith
  dsimp only
  rw [hok, htrig, hhit, hreached]
  rfl

/-- A contiguous copy between memories begins once it may (R77, R78). -/
theorem beginWith_contiguous (hkind : cKind c.words = 1) (hdst : cDst c.words = 0) (hdims : c.dims = []) (htook : c.took = false)
    (hheld : c.isHeld s die = false) (htrig : cTrig c.words = true → c.hit = true ∨ c.triggered s die = true) :
    beginWith die q c s = s.setQueue die q ((s.queue die q).setCmd { c with st := .begun, started := true, begun := true }) := by
  have hbufs : c.bufs = [] := by rw [Cmd.bufs, hdst]; rfl
  have hslots : c.slots s = some [] := by
    unfold Cmd.slots
    dsimp only
    rw [hkind, hdst]
    rfl
  have hread : (readDims die c).run s = .ok c s := by
    unfold readDims
    rw [hkind]
    rfl
  have hstatus : beginStatus s die c = 0 := by
    have hranges : rangesOk (s.die die) c.words = true := by
      unfold rangesOk
      rw [hdst]
      exact List.all_eq_true.2 fun _ _ => rfl
    unfold beginStatus
    rw [hok, hbufs, hslots]
    dsimp only
    rw [htook, hranges]
    rfl
  have hgo : ((recordOk c.words && !(!cTrig c.words || c.hit || c.triggered s die)) || c.isHeld s die) = false := by
    rw [hok, hheld]
    cases ht : cTrig c.words with
    | false => rfl
    | true => rcases htrig ht with h | h <;> rw [h] <;> simp
  have hdimsOk : dimsOk c.dims = true := by rw [hdims]; decide
  have htargets : c.took = true ∨ (some ([] : List (Block × Nat))).getD [] = [] := .inr rfl
  have htook' : ¬ c.took = true := by rw [htook]; exact Bool.false_ne_true
  have hzero : ¬ (if ((0 : BitVec 8) = 0 && !true) = true then 0x12 else 0) ≠ (0 : BitVec 8) := by decide
  unfold beginWith
  dsimp only
  rw [if_neg (by rw [hgo]; exact Bool.false_ne_true), hread]
  dsimp only
  rw [hstatus, hslots, hbufs, hdimsOk, if_neg hzero, if_pos htargets, if_neg htook']
  rfl

end

/-! Copying (R78) -/

section

variable {ag : Agent} {va : W64} {s s1 : State} {a : Nat}

theorem byteAddrs_one {tr : Nat → Acc Nat} (h : (tr 0).run s = .ok a s1) : (byteAddrs tr 0 1 va).run s = .ok [a] s1 := by
  have hroom : 1 ≤ 0x10000 - va.toNat % 0x10000 := by omega
  unfold byteAddrs
  rw [run_bind, h]
  dsimp only
  rw [if_pos hroom]
  rfl

/-- A read of one byte where its address translates. -/
theorem readVirt_one {n : Nat} {k : AKind} (htr : (translate ag va k).run s = .ok a s1) (hread : (physRead ag va a 1).run s1 = .ok n s1) :
    (readVirt ag va 1 k).run s = .ok n s1 := by
  have haddr := byteAddrs_one (va := va) (tr := fun o => translate ag (va + BitVec.ofNat 64 o) k) (by rw [BitVec.add_zero]; exact htr)
  have hrange := readAddrs_run (s := s1) (ag := ag) (va := va) (a := a) (n := 1) Nat.one_pos
  unfold readVirt
  rw [run_bind, haddr]
  dsimp only
  rw [run_asKind, show [a] = (List.range 1).map (a + ·) from rfl, hrange, hread]

/-- A write of one byte of memory where its address translates. -/
theorem writeVirt_one {x : Byte} (htr : (translate ag va .write).run s = .ok a s1) (hnode : paNode a = 0) (hreg : paRegion a < 2) :
    (writeVirt ag va [x]).run s = .ok () ((s1.write a [x]).tagWrite ag.who a 1) := by
  have haddr := byteAddrs_one (va := va) (tr := fun o => translate ag (va + BitVec.ofNat 64 o) .write)
    (by rw [BitVec.add_zero]; exact htr)
  have hrange := writeAddrs_run (s := s1) (ag := ag) (a := a) (l := [x]) Nat.one_pos
  unfold writeVirt
  rw [run_bind, show ([x] : List Byte).length = 1 from rfl, haddr]
  dsimp only
  rw [show [a] = (List.range ([x] : List Byte).length).map (a + ·) from rfl, hrange, physWrite_mem hnode hreg]
  rfl

end

/-- Element k of a contiguous copy is byte k of the source, at byte k of the destination (R78). -/
theorem elem_contiguous {c : Cmd} (hkind : cKind c.words = 1) (k x : Nat) :
    c.elem k x = { src := cSrc c.words + BitVec.ofNat 64 k, n := 1, dest := cDest c.words, disp := (k : Int) } := by
  unfold Cmd.elem
  dsimp only
  rw [hkind, BitVec.ofInt_natCast]
  rfl

/-- A contiguous copy of one byte between memories. -/
theorem copyElem_contiguous {s s1 s2 : State} {die : BitVec 3} {c : Cmd} {k pa pb : Nat} (hkind : cKind c.words = 1) (hdst : cDst c.words = 0)
    (hsrc : (translate (c.agent die) (cSrc c.words + BitVec.ofNat 64 k) .read).run s = .ok pa s1)
    (hread : (physRead (c.agent die) (cSrc c.words + BitVec.ofNat 64 k) pa 1).run s1 = .ok (Sparse.get s1.mem pa).toNat s1)
    (hdest : (translate (c.agent die) (cDest c.words + BitVec.ofNat 64 k) .write).run s1 = .ok pb s2) (hnode : paNode pb = 0)
    (hreg : paRegion pb < 2) : (copyElem die c k none).run s =
      .ok (.go, some 0) ((s2.write pb [Sparse.get s1.mem pa]).tagWrite (c.agent die).who pb 1) := by
  have hbyte : natToBytes 1 (Sparse.get s1.mem pa).toNat = [Sparse.get s1.mem pa] := by
    rw [natToBytes, natToBytes, BitVec.ofNat_toNat, BitVec.setWidth_eq]
  have hput : (putElem die c { src := cSrc c.words + BitVec.ofNat 64 k, n := 1, dest := cDest c.words, disp := (k : Int) }
      [Sparse.get s1.mem pa]).run s1 = .ok .go ((s2.write pb [Sparse.get s1.mem pa]).tagWrite (c.agent die).who pb 1) := by
    unfold putElem
    rw [run_bind, run_get]
    dsimp only
    simp only [hdst, BitVec.ofInt_natCast]
    rw [run_bind, writeVirt_one hdest hnode hreg]
    rfl
  unfold copyElem
  dsimp only
  rw [hkind, if_neg (by decide), run_bind, run_pure]
  dsimp only
  rw [elem_contiguous hkind, run_bind, engRead, readVirt_one hsrc hread]
  dsimp only
  rw [Bool.false_and, if_neg Bool.false_ne_true, hbyte, run_bind, hput]
  rfl

/-! A command runs on (R47, R87) -/

section

variable {s s1 : State} {die : BitVec 3} {q : BitVec 7} {c : Cmd} (hnext : (s.queue die q).nextRun = some c)

include hnext

theorem exec_commandComplete : exec (.commandComplete die q) s = .next (runCmd die q c s) := by
  change execCommandComplete die q s = _
  rw [execCommandComplete, State.commandRun, hnext]

/-- A deferred fault halts the command, by either event that finds it. -/
theorem exec_halts {i : Info} {k : Nat} (hcopy : copyFrom die c (c.total - c.progress) c.progress none s = (.fault i k, s1))
    (hd : i.cause.deferred = true) :
    exec (.engineHalt die q) s = .next (s1.haltCmd die q { c with progress := k } i) ∧
    exec (.commandComplete die q) s = .next (s1.haltCmd die q { c with progress := k } i) := by
  have hrun : runCmd die q c s = s1.haltCmd die q { c with progress := k } i := by
    rw [runCmd, hcopy]
    exact if_pos hd
  refine ⟨?_, (exec_commandComplete hnext).trans (congrArg _ hrun)⟩
  change execEngineHalt die q s = _
  unfold execEngineHalt
  rw [hnext]
  dsimp only
  rw [hcopy]
  dsimp only
  rw [if_pos hd, hrun]

end

/-- The record of an engine's fault names its kind and its cause (R87, R322). -/
theorem engineRecord_head (die : BitVec 3) (q : BitVec 7) (c : Cmd) (i : Info) :
    (engineRecord die q c i).extractLsb' 60 4 = 1#4 ∧ (engineRecord die q c i).extractLsb' 52 8 = i.cause.code := by
  have hhead {lo n : Nat} (h : lo + n ≤ 64) := extract_recWords_0 (1#4 ++ i.cause.code ++ 0#13 ++ die ++ c.gid.core.extractLsb' 0 7 ++
    c.gid.slot ++ c.part ++ c.pasid) i.va i.entry c.n (i.acc ++ 0#1 ++ i.hint ++ 0#11 ++ q ++ 0#35) (c.block ++ 0#32) 0 0 lo n h
  refine ⟨(hhead (by omega)).trans ?_, (hhead (by omega)).trans ?_⟩
  · simp (disch := omega) only [BitVec.extractLsb'_append_eq_of_le]
    exact BitVec.extractLsb'_eq_self
  · simp (disch := omega) only [BitVec.extractLsb'_append_eq_of_le]
    exact BitVec.extractLsb'_append_eq_right

/-- What a halt leaves: the command halted in its queue, the record waiting at its partition (R87). -/
theorem haltCmd_spec (s : State) (die : BitVec 3) (q : BitVec 7) (c : Cmd) (i : Info) :
    let t := s.haltCmd die q c i
    t.queue die q = (s.queue die q).setCmd { c with st := .halted i.cause.code, begun := true } ∧
      (t.part c.part).waiting = (s.part c.part).waiting ++ [engineRecord die q c i] ∧ t.mem = s.mem :=
  ⟨State.queue_setQueue_same .., congrArg Part.waiting (State.part_setPart_same ..), rfl⟩

/-! Resume and abandonment (R76, R87; log 105) -/

theorem exec_queueResume (s : State) (die : BitVec 3) (q : BitVec 7) :
    exec (.queueResume die q) s = .next (s.setQueue die q { s.queue die q with fetchHalt := 0, cmds := (s.queue die q).cmds.map (fun c =>
      match c.st with | .halted _ => { c with st := if c.started then .begun else .accepted } | _ => c) }) := by
  change execQueueResume die q s = _
  unfold execQueueResume Cmd.isHalted
  dsimp only
  congr 4
  funext c
  cases c.st <;> rfl

/-- The entry of an abandoned fetch on an empty queue takes a number and ends with the fault's status. -/
theorem chainFail_empty {s : State} {die : BitVec 3} {q : BitVec 7} (o : Cmd) {st : BitVec 8} (hst : st ≠ 0) (hnil : (s.queue die q).cmds = []) :
    let x := s.queue die q
    let t := s.chainFail die q o st
    (t.queue die q).seqDone = x.seqNext ∧ (t.queue die q).seqNext = x.seqNext + 1 ∧ (t.queue die q).cmds = [] ∧ (t.queue die q).fetch = 0 ∧
      (t.queue die q).fetchHalt = 0 ∧ (t.queue die q).lastStatus = st ∧ (t.queue die q).lastErr = x.seqNext ∧ t.mem = s.mem := by
  intro x t
  obtain ⟨e, he, hq, hmem, -⟩ := accept_spec s die q { o with st := .accepted }
  rw [hnil, List.nil_append] at hq
  have hen : e.n = x.seqNext := by rw [he]
  let u := (s.accept die q { o with st := .accepted }).setQueue die q
    { (s.accept die q { o with st := .accepted }).queue die q with fetch := 0, fetchHalt := 0, fetchEnd := 0, appends := [] }
  have hu : u.queue die q = { x with seqNext := x.seqNext + 1, cmds := [e], fetch := 0, fetchHalt := 0, fetchEnd := 0, appends := [] } := by
    rw [State.queue_setQueue_same, hq]
  have ht : t = u.endCmd die q e st := by
    change u.endCmd die q (((s.accept die q { o with st := .accepted }).queue die q).cmds.getLastD o) st = _
    rw [hq]
    rfl
  obtain ⟨l, hend⟩ := endCmd_head (rest := []) st (congrArg Queue.cmds hu) (fun _ h => absurd h List.not_mem_nil)
  rw [ht, hend, hu, if_neg hst, if_neg hst, hen]
  exact ⟨rfl, rfl, rfl, rfl, rfl, rfl, rfl, (endCmd_mem u die q e st).trans hmem⟩

section

variable {s : State} {die : BitVec 3} {q : BitVec 7} {o : Cmd} (hhalt : (s.queue die q).fetchHalt ≠ 0)
  (howner : (s.queue die q).owner = some o) (hnone : ∀ c ∈ (s.queue die q).cmds, ∀ code, c.st ≠ .halted code)

include hhalt howner hnone

/-- An abandonment on a queue with no halted command ends its halted fetch, or keeps its status until there is a place for the entry. -/
theorem exec_queueAbandon_fetch : exec (.queueAbandon die q) s = .next (if 64 ≤ (s.queue die q).cmds.length then
    s.setQueue die q { s.queue die q with fetchHalt := 0, fetchEnd := (s.queue die q).fetchHalt }
      else s.chainFail die q o (s.queue die q).fetchHalt) := by
  have hfilter : (s.queue die q).cmds.filter Cmd.isHalted = [] := by
    refine List.filter_eq_nil_iff.2 fun c hc h => ?_
    unfold Cmd.isHalted at h
    split at h
    · rename_i code hst
      exact hnone c hc code hst
    · exact Bool.false_ne_true h
  change execQueueAbandon die q s = _
  unfold execQueueAbandon State.abandon
  dsimp only
  rw [hfilter, List.foldl_nil]
  split
  · rename_i hzero
    exact absurd hzero hhalt
  · rename_i ho _
    rw [howner] at ho
    obtain rfl := Option.some.inj ho
    rfl
  · rename_i ho _
    rw [howner] at ho
    exact absurd ho (Option.some_ne_none o)

end

/-- An abandonment of the one halted command ends it with the status of its fault. -/
theorem exec_queueAbandon_cmd {s : State} {die : BitVec 3} {q : BitVec 7} {c : Cmd} {code : BitVec 8} (hc : (s.queue die q).cmds = [c])
    (hst : c.st = .halted code) (hhalt : (s.queue die q).fetchHalt = 0) :
    exec (.queueAbandon die q) s = .next (s.endCmd die q c code) := by
  have hhalted : c.isHalted = true := by rw [Cmd.isHalted, hst]
  have hcode : c.haltOf = code := by rw [Cmd.haltOf, hst]
  change execQueueAbandon die q s = _
  unfold execQueueAbandon State.abandon
  dsimp only
  rw [hc, List.filter_cons_of_pos hhalted, List.filter_nil, List.foldl_cons, List.foldl_nil, hcode, hhalt]
  rfl

/-- Settles O37: `beginWith` of a command at hand, `copyElem` of one byte, the end of the command at the head (`endCmd_head`), a halt
(`haltCmd_spec`), a resume, and an abandonment as the end of a command or of the entry of a fetch (`chainFail_empty`). -/
theorem engineEvents : Obligations.EngineEvents := by
  refine ⟨fun s die q c hnext => ⟨fun hcancel => exec_commandBegin_cancelled hnext hcancel, fun hcancel hrec hok htrig hhit hreached => ?_,
      fun hcancel hrec hok hkind hdst hdims htook hheld htrig => ?_⟩,
    fun s s1 s2 die c k pa pb hkind hdst hsrc hread hdest hnode hreg => ?_,
    fun s s1 die q c hnext => ⟨fun hcopy => ?_, fun i k hcopy hd => ?_⟩,
    fun s die q c rest st hx hrest _ _ _ => ?_,
    fun s die q => ⟨exec_queueResume s die q, fun o hnil hhalt howner _ _ _ => ?_, fun o hfull hnone hhalt howner => ?_,
      fun c code hc hst hcode hhalt _ _ _ => ?_⟩⟩
  · exact ⟨_, (exec_commandBegin hnext hcancel hrec).trans (congrArg _ (beginWith_untriggered hok htrig hhit hreached)),
      State.queue_setQueue_same .., rfl⟩
  · exact ⟨_, (exec_commandBegin hnext hcancel hrec).trans (congrArg _ (beginWith_contiguous hok hkind hdst hdims htook hheld htrig)),
      State.queue_setQueue_same .., rfl⟩
  · have hmem : ((s2.write pb [Sparse.get s1.mem pa]).tagWrite (c.agent die).who pb 1).mem = pokeBytes s2.mem pb [Sparse.get s1.mem pa] := by
      rw [tagWrite_eq]; rfl
    refine ⟨_, copyElem_contiguous hkind hdst hsrc hread hdest hnode hreg, ?_, fun y hy => ?_⟩
    · rw [hmem, pokeBytes, pokeBytes, Sparse.get_set, if_pos rfl]
    · rw [hmem, pokeBytes, pokeBytes, Sparse.get_set, if_neg hy]
  · rw [exec_commandComplete hnext, runCmd, hcopy]
  · obtain ⟨hhalt, hcomplete⟩ := exec_halts hnext hcopy hd
    obtain ⟨hq, hwaiting, hmem⟩ := haltCmd_spec s1 die q { c with progress := k } i
    obtain ⟨hkind, hcode⟩ := engineRecord_head die q { c with progress := k } i
    exact ⟨_, _, hhalt, hcomplete, hq, hwaiting, hkind, hcode, hmem⟩
  · obtain ⟨l, hend⟩ := endCmd_head st hx hrest
    intro t
    rw [hend]
    exact ⟨rfl, rfl, fun h => if_pos h, fun h => ⟨if_neg h, if_neg h⟩, endCmd_mem ..⟩
  · have hroom : ¬ 64 ≤ (s.queue die q).cmds.length := by rw [hnil]; decide
    refine ⟨s.chainFail die q o (s.queue die q).fetchHalt, ?_, chainFail_empty o hhalt hnil⟩
    rw [exec_queueAbandon_fetch hhalt howner (fun c hc => absurd (hnil ▸ hc) List.not_mem_nil), if_neg hroom]
  · rw [exec_queueAbandon_fetch hhalt howner hnone, if_pos hfull]
  · obtain ⟨l, hend⟩ := endCmd_head code hc (fun _ h => absurd h List.not_mem_nil)
    refine ⟨_, exec_queueAbandon_cmd hc hst hhalt, ?_⟩
    rw [hend]
    exact ⟨rfl, rfl, if_neg hcode, if_neg hcode, endCmd_mem ..⟩

end Sys2Proof.Machine
end

section
/-! PROOFS. Published buffers: a publish begins, swaps the frames and lets copies go; when a descriptor may be written (O39). -/

set_option Elab.async false

namespace Sys2Proof.Machine

/-! Single bits put into a word -/

section

variable {w : Nat} (x : BitVec w) {i : Nat} (v : Bool)

theorem getLsbD_putBit (k : Nat) (hk : k < w) : (putBit x i v).getLsbD k = if k = i then v else x.getLsbD k := by
  rw [putBit, getLsbD_putBits _ _ _ _ _ hk]
  by_cases h : k = i
  · rw [if_pos (by omega), if_pos h, h, Nat.sub_self]
    cases v <;> rfl
  · rw [if_neg (by omega), if_neg h]

theorem getLsbD_putBit_other {k : Nat} (h : k ≠ i) : (putBit x i v).getLsbD k = x.getLsbD k := by
  by_cases hk : k < w
  · rw [getLsbD_putBit x v k hk, if_neg h]
  · rw [BitVec.getLsbD_of_ge _ _ (by omega), BitVec.getLsbD_of_ge _ _ (by omega)]

end

/-! The descriptor of a buffer (R84) -/

/-- The descriptor of buffer b of a die. -/
def State.pbuf (s : State) (die : BitVec 3) (b : Nat) : BitVec 256 := Sparse.get (s.die die).pbufs b
/-- A state with a buffer's descriptor replaced. -/
def State.putBuf (s : State) (die : BitVec 3) (b : Nat) (v : BitVec 256) : State :=
  s.setDie die { s.die die with pbufs := Sparse.set (s.die die).pbufs b v }

section

variable (s : State) (die : BitVec 3) (b : Nat) (v : BitVec 256)

@[simp] theorem State.die_putBuf : (s.putBuf die b v).die die = { s.die die with pbufs := Sparse.set (s.die die).pbufs b v } :=
  s.die_setDie_same die _
theorem State.pbuf_putBuf (k : Nat) : (s.putBuf die b v).pbuf die k = if k = b then v else s.pbuf die k := by
  rw [State.pbuf, State.die_putBuf]
  exact Sparse.get_set ..
@[simp] theorem State.pbuf_putBuf_same : (s.putBuf die b v).pbuf die b = v := by rw [State.pbuf_putBuf, if_pos rfl]

end

/-! What a publish lets go (R84, R85, R88) -/

/-- A copy into the buffer ended with an error while publishes held it back, and all of them have returned. -/
def State.spoiltGone (s : State) (die : BitVec 3) (b : Nat) : Bool :=
  (s.die die).spoilt.any (fun x => x.1 == b && !x.2.any (fun n => (s.publishes die).any (fun p => p.2 == n)))
/-- A copy into the buffer was held back by publishes, and is no longer. -/
def State.letsGo (s : State) (die : BitVec 3) (b : Nat) : Bool :=
  (s.die die).queues.any (fun p => p.2.cmds.any (fun c => c.held != [] && !c.isHeld s die && (c.look s die).bufs.contains b))

theorem spoiltGone_of_spoilt {s : State} {die : BitVec 3} {b : Nat} {x : Nat × List Nat} (hx : x ∈ (s.die die).spoilt) (hb : x.1 = b)
    (hgone : ∀ k ∈ x.2, ∀ p ∈ s.publishes die, p.2 ≠ k) : s.spoiltGone die b = true := by
  refine List.any_eq_true.2 ⟨x, hx, ?_⟩
  simpa [hb] using fun k hk j hp => hgone k hk (j, k) hp rfl
theorem spoiltGone_eq_false {s : State} {die : BitVec 3} {b : Nat} (h : ∀ x ∈ (s.die die).spoilt, x.1 ≠ b) :
    s.spoiltGone die b = false := by
  refine List.any_eq_false.2 fun x hx => ?_
  simp [h x hx]
theorem letsGo_of_cmd {s : State} {die : BitVec 3} {b : Nat} {p : Nat × Queue} (hp : p ∈ (s.die die).queues) {c : Cmd} (hc : c ∈ p.2.cmds)
    (hheld : c.held ≠ []) (hgo : c.isHeld s die = false) (hrec : c.recAt = none) (hb : b ∈ c.bufs) : s.letsGo die b = true := by
  refine List.any_eq_true.2 ⟨p, hp, List.any_eq_true.2 ⟨c, hc, ?_⟩⟩
  rw [look_of_recAt hrec, hgo]
  simp [hheld, hb]
theorem letsGo_eq_false {s : State} {die : BitVec 3} {b : Nat} (h : ∀ p ∈ (s.die die).queues, ∀ c ∈ p.2.cmds, c.held = []) :
    s.letsGo die b = false := by
  refine List.any_eq_false.2 fun p hp => ?_
  rw [Bool.not_eq_true]
  refine List.any_eq_false.2 fun c hc => ?_
  simp [h p hp c hc]

section

variable (s : State) (die : BitVec 3) (b : Nat)

theorem settleSpoilt_pbuf : (s.settleSpoilt die b).pbuf die b =
    if s.spoiltGone die b && (s.pbuf die b).getLsbD 169 then putBits (s.pbuf die b) 167 2 3 else s.pbuf die b := by
  rw [State.pbuf, State.settleSpoilt, State.die_setDie_same]
  dsimp only
  rw [apply_ite (fun m => Sparse.get m b), Sparse.get_set, if_pos rfl]
  rfl
theorem settleSpoilt_queues : ((s.settleSpoilt die b).die die).queues = (s.die die).queues := by
  rw [State.settleSpoilt, State.die_setDie_same]

theorem pendBufs_one : s.pendBufs die [b] =
    if (s.pbuf die b).getLsbD 169 then s.putBuf die b (putBit (s.pbuf die b) 168 true) else s := rfl

theorem letGo_cases : s.letGo die b = if (s.settleSpoilt die b).letsGo die b then (s.settleSpoilt die b).pendBufs die [b]
    else s.settleSpoilt die b := rfl

/-- Copies that are let go change their die alone. -/
theorem letGo_eq : s.letGo die b = { s with dies := (s.letGo die b).dies } := by
  rw [letGo_cases, pendBufs_one]
  split_ifs <;> rfl

theorem letGo_publishes (e : BitVec 3) : (s.letGo die b).publishes e = s.publishes e :=
  (congrArg (fun t => State.publishes t e) (letGo_eq s die b)).trans rfl

/-- The descriptor once copies have been let go: with its error where one ended so, outstanding where one goes on. -/
theorem letGo_pbuf : (s.letGo die b).pbuf die b =
    if (s.settleSpoilt die b).letsGo die b && ((s.settleSpoilt die b).pbuf die b).getLsbD 169
    then putBit ((s.settleSpoilt die b).pbuf die b) 168 true else (s.settleSpoilt die b).pbuf die b := by
  rw [letGo_cases, pendBufs_one]
  cases (s.settleSpoilt die b).letsGo die b with
  | false => rfl
  | true =>
    rw [if_pos rfl, Bool.true_and, apply_ite (fun t => State.pbuf t die b), State.pbuf_putBuf_same]

theorem settleSpoilt_bit {i : Nat} (hi : i < 256) : ((s.settleSpoilt die b).pbuf die b).getLsbD i =
    ((s.pbuf die b).getLsbD i || (s.spoiltGone die b && (s.pbuf die b).getLsbD 169 && (i == 167 || i == 168))) := by
  rw [settleSpoilt_pbuf]
  cases s.spoiltGone die b && (s.pbuf die b).getLsbD 169 with
  | false => simp
  | true =>
    rw [if_pos rfl, getLsbD_putBits _ _ _ _ _ hi]
    by_cases h : i = 167 ∨ i = 168
    · have hbit : Nat.testBit 3 (i - 167) = true := by obtain rfl | rfl := h <;> rfl
      rw [if_pos (by omega), hbit]
      simp [h]
    · rw [if_neg (by omega)]
      simp [not_or.1 h]

/-- Each bit of the descriptor once copies have been let go. -/
theorem letGo_bit {i : Nat} (hi : i < 256) : ((s.letGo die b).pbuf die b).getLsbD i = ((s.pbuf die b).getLsbD i ||
    ((s.pbuf die b).getLsbD 169 && (s.spoiltGone die b && (i == 167 || i == 168) || (s.settleSpoilt die b).letsGo die b && i == 168))) := by
  have hvalid : ((s.settleSpoilt die b).pbuf die b).getLsbD 169 = (s.pbuf die b).getLsbD 169 := by
    rw [settleSpoilt_bit s die b (by omega)]
    simp
  rw [letGo_pbuf, hvalid]
  split_ifs with hgo
  · obtain ⟨hlet, h169⟩ := Bool.and_eq_true_iff.1 hgo
    rw [getLsbD_putBit _ _ _ hi, settleSpoilt_bit s die b hi, hlet, h169]
    by_cases h : i = 168
    · simp [h]
    · rw [if_neg h]
      simp [beq_false_of_ne h]
  · rw [settleSpoilt_bit s die b hi]
    cases h169 : (s.pbuf die b).getLsbD 169 with
    | false => simp
    | true =>
      rw [h169, Bool.and_true, Bool.not_eq_true] at hgo
      simp [hgo]

theorem letGo_extract {lo n : Nat} (h : lo + n ≤ 167) :
    ((s.letGo die b).pbuf die b).extractLsb' lo n = (s.pbuf die b).extractLsb' lo n := by
  apply BitVec.eq_of_getLsbD_eq
  intro i hi
  rw [BitVec.getLsbD_extractLsb', BitVec.getLsbD_extractLsb', letGo_bit s die b (by omega)]
  have h167 : (lo + i == 167) = false := beq_false_of_ne (by omega)
  have h168 : (lo + i == 168) = false := beq_false_of_ne (by omega)
  simp only [h167, h168, Bool.or_self, Bool.and_false, Bool.or_false]

/-- Without a kept error the error bit stays. -/
theorem letGo_error_bit (hclean : s.spoiltGone die b = false) :
    ((s.letGo die b).pbuf die b).getLsbD 167 = (s.pbuf die b).getLsbD 167 := by
  rw [letGo_bit s die b (by omega), hclean]
  simp

/-- A pending buffer with no kept error keeps its descriptor. -/
theorem letGo_pbuf_eq (hclean : s.spoiltGone die b = false) (hpend : (s.pbuf die b).getLsbD 168 = true) :
    (s.letGo die b).pbuf die b = s.pbuf die b := by
  apply BitVec.eq_of_getLsbD_eq
  intro i hi
  rw [letGo_bit s die b hi, hclean]
  by_cases h : i = 168 <;> simp [h, hpend]

end

/-- Of a buffer that a publish has returned for: what its descriptor says of the copies that no publish holds back any longer. -/
def BufSettled (s : State) (die : BitVec 3) (b : Nat) (e : BitVec 256) (t : State) : Prop :=
  ((∀ x ∈ (s.die die).spoilt, x.1 ≠ b) → (∀ p ∈ (s.die die).queues, ∀ c ∈ p.2.cmds, c.held = []) → (t.pbuf die b).getLsbD 168 = false) ∧
  (∀ x ∈ (s.die die).spoilt, x.1 = b → (∀ k ∈ x.2, ∀ p ∈ t.publishes die, p.2 ≠ k) → e.getLsbD 169 = true →
    (t.pbuf die b).getLsbD 167 = true ∧ (t.pbuf die b).getLsbD 168 = true) ∧
  ∀ p ∈ (s.die die).queues, ∀ c ∈ p.2.cmds, c.held ≠ [] → c.isHeld t die = false → c.recAt = none → b ∈ c.bufs →
    e.getLsbD 169 = true → (t.pbuf die b).getLsbD 168 = true

theorem bufSettled_letGo {s u : State} {die : BitVec 3} {b : Nat} {e : BitVec 256} (hq : (u.die die).queues = (s.die die).queues)
    (hsp : (u.die die).spoilt = (s.die die).spoilt) (hvalid : (u.pbuf die b).getLsbD 169 = e.getLsbD 169)
    (hpend : (u.pbuf die b).getLsbD 168 = false) : BufSettled s die b e (u.letGo die b) := by
  have h167 := letGo_bit u die b (i := 167) (by omega)
  have h168 := letGo_bit u die b (i := 168) (by omega)
  rw [hvalid] at h167 h168
  rw [hpend] at h168
  have hq' : ((u.settleSpoilt die b).die die).queues = (s.die die).queues := (settleSpoilt_queues ..).trans hq
  refine ⟨fun hclean hheld => ?_, fun x hx hb hgone h169 => ?_, fun p hp c hc hheld hgo hrec hb h169 => ?_⟩
  · rw [h168, spoiltGone_eq_false (hsp ▸ hclean), letsGo_eq_false (hq' ▸ hheld)]
    simp
  · rw [letGo_publishes] at hgone
    rw [h167, h168, spoiltGone_of_spoilt (hsp ▸ hx) hb hgone, h169]
    simp
  · have hgo' : c.isHeld (u.settleSpoilt die b) die = false := by
      rw [Cmd.isHeld, letGo_publishes] at hgo
      exact hgo
    rw [h168, letsGo_of_cmd (hq' ▸ hp) hc hheld hgo' hrec hb, h169]
    simp

/-! A publish returns (R85, R214) -/

section

variable (s : State) (g : Gid) (b : Nat) (d : SReg) (st : BitVec 8)

theorem publDone_group : (s.publDone g b d st).group g = (s.group g).endWait d st :=
  (congrArg (State.group · g) (letGo_eq (s.setGroup g ((s.group g).endWait d st)) g.die b)).trans (s.group_setGroup_same g _)
theorem publDone_mem : (s.publDone g b d st).mem = s.mem :=
  (congrArg State.mem (letGo_eq (s.setGroup g ((s.group g).endWait d st)) g.die b)).trans rfl
theorem publDone_core (c : BitVec 10) : (s.publDone g b d st).core c = s.core c :=
  (congrArg (State.core · c) (letGo_eq (s.setGroup g ((s.group g).endWait d st)) g.die b)).trans rfl

/-- The group goes on at the next word with the status in its register. -/
theorem publDone_returns : let y := (s.publDone g b d st).group g
    y.sr d = st.setWidth 64 ∧ y.wait = .none ∧ y.pc = (s.group g).pc + 4 := by
  rw [publDone_group]
  exact ⟨Group.sr_setSr_same .., rfl, rfl⟩

end

/-! The frames exchanged (R85) -/

/-- A leaf with another frame. -/
def framedLeaf (l back : W64) : W64 := (back &&& 0xFFFFFFFFFFFF0000#64) ||| (l &&& 0xFFFF#64)

theorem framedLeaf_bit (l back : W64) {i : Nat} (hi : i < 64) :
    (framedLeaf l back).getLsbD i = if 16 ≤ i then back.getLsbD i else l.getLsbD i := by
  have hlow : ∀ j < 64, (0xFFFF#64).getLsbD j = decide (j < 16) := by decide
  obtain ⟨hhigh, -⟩ := touchMasks i hi
  rw [framedLeaf, BitVec.getLsbD_or, BitVec.getLsbD_and, BitVec.getLsbD_and, hhigh, hlow i hi]
  by_cases h : 16 ≤ i
  · simp [h, Nat.not_lt.2 h]
  · simp [h, Nat.not_le.1 h]

theorem framedLeaf_frame (l back : W64) : (framedLeaf l back).toNat / 2 ^ 16 = back.toNat / 2 ^ 16 := by
  have hbits : (framedLeaf l back).extractLsb' 16 48 = back.extractLsb' 16 48 := by
    apply BitVec.eq_of_getLsbD_eq
    intro i hi
    rw [BitVec.getLsbD_extractLsb', BitVec.getLsbD_extractLsb', framedLeaf_bit l back (by omega), if_pos (by omega)]
  have hnum : ∀ x : W64, x.toNat / 2 ^ 16 = (x.extractLsb' 16 48).toNat := fun x => by
    have hx := x.isLt
    rw [← bitsOf, bitsOf_eq, Nat.mod_eq_of_lt (by omega)]
  rw [hnum, hnum, hbits]
theorem framedLeaf_flags (l back : W64) : (framedLeaf l back).toNat % 2 ^ 16 = l.toNat % 2 ^ 16 := by
  rw [toNat_mod_eq_extract, toNat_mod_eq_extract]
  congr 1
  apply BitVec.eq_of_getLsbD_eq
  intro i hi
  rw [BitVec.getLsbD_extractLsb', BitVec.getLsbD_extractLsb', framedLeaf_bit l back (by omega), if_neg (by omega)]

theorem read64_write64 (s : State) (a : Nat) (v : W64) : (s.write64 a v).read64 a = v := by
  have hpeek : peek (s.write64 a v).mem a 8 = v.toNat := (peek_pokeBytes s.mem a 8 v.toNat).trans (Nat.mod_eq_of_lt v.isLt)
  rw [State.read64, hpeek, BitVec.ofNat_toNat, BitVec.setWidth_eq]

/-- A descriptor with its frames exchanged, and with nothing pending. -/
def swappedBuf (e : BitVec 256) : BitVec 256 :=
  e.extractLsb' 192 64 ++ putBits (e.extractLsb' 128 64) 40 1 0 ++ e.extractLsb' 0 64 ++ e.extractLsb' 64 64

theorem swappedBuf_front (e : BitVec 256) : (swappedBuf e).extractLsb' 0 64 = e.extractLsb' 64 64 := BitVec.extractLsb'_append_eq_right
theorem swappedBuf_back (e : BitVec 256) : (swappedBuf e).extractLsb' 64 64 = e.extractLsb' 0 64 := by
  rw [swappedBuf, BitVec.extractLsb'_append_eq_of_le (by omega)]
  exact BitVec.extractLsb'_append_eq_right
theorem swappedBuf_state (e : BitVec 256) {i : Nat} (hi : i < 64) :
    (swappedBuf e).getLsbD (128 + i) = (putBits (e.extractLsb' 128 64) 40 1 0).getLsbD i := by
  have h128 : 128 + i - 64 - 64 = i := by omega
  rw [swappedBuf, BitVec.getLsbD_append, if_neg (by omega), BitVec.getLsbD_append, if_neg (by omega), BitVec.getLsbD_append, h128, if_pos hi]
theorem swappedBuf_valid (e : BitVec 256) : (swappedBuf e).getLsbD 169 = e.getLsbD 169 := by
  rw [swappedBuf_state e (i := 41) (by omega), getLsbD_putBits _ _ _ _ _ (by omega), if_neg (by omega), BitVec.getLsbD_extractLsb']
  rfl
theorem swappedBuf_pending (e : BitVec 256) : (swappedBuf e).getLsbD 168 = false := by
  rw [swappedBuf_state e (i := 40) (by omega), getLsbD_putBits _ _ _ _ _ (by omega), if_pos (by omega)]
  rfl

/-- The leaf at an address takes the back frame, and its whole page is invalidated on every die. -/
def State.reframed (s : State) (e : BitVec 256) (lvl : Nat) (l : W64) (a : Nat) : State :=
  (s.write64 a (framedLeaf l (e.extractLsb' 64 64))).invalidate (fun _ => true) (e.extractLsb' 172 20)
    ((e.extractLsb' 192 64).toNat / pageSize lvl * pageSize lvl) (pageSize lvl)

section

variable (s : State) (e : BitVec 256) (lvl : Nat) (l : W64) (a : Nat)

theorem reframed_dies : (s.reframed e lvl l a).dies = s.dies := by rw [State.reframed, invalidate_eq]; rfl
theorem reframed_die (d : BitVec 3) : (s.reframed e lvl l a).die d = s.die d := by rw [State.die, reframed_dies]; rfl
theorem reframed_read64 : (s.reframed e lvl l a).read64 a = framedLeaf l (e.extractLsb' 64 64) :=
  (congrArg (State.read64 · a) (invalidate_eq ..)).trans (read64_write64 s a _)
theorem reframed_pc (g : Gid) : ((s.reframed e lvl l a).group g).pc = (s.group g).pc := by
  have hinv := invalidate_group_eq (s.write64 a (framedLeaf l (e.extractLsb' 64 64))) (fun _ => true) (e.extractLsb' 172 20)
    ((e.extractLsb' 192 64).toNat / pageSize lvl * pageSize lvl) (pageSize lvl) g
  exact (Eq.trans (congrArg Group.pc hinv) rfl).trans ((congrArg Group.pc (write_group s a _ g)).trans rfl)

theorem pageSize_ne_zero : pageSize lvl ≠ 0 := by
  unfold pageSize
  split_ifs <;> omega

/-- No translation of the page is left in a TLB. -/
theorem reframed_tlb (c : BitVec 10) {x : TlbEntry} (hx : x ∈ ((s.reframed e lvl l a).core c).tlb) (hn : x.pasid = e.extractLsb' 172 20) :
    pageIn x.page (pageSize x.lvl.toNat) ((e.extractLsb' 192 64).toNat / pageSize lvl * pageSize lvl) (pageSize lvl) = false := by
  obtain ⟨-, hgone⟩ := (mem_invalidate_tlb _ _ _ _ (pageSize_ne_zero lvl) c x).1 hx
  exact Bool.eq_false_iff.2 fun hin => hgone ⟨rfl, hn, hin⟩

end

/-- The walk of the buffer's own address in its own address space. -/
def State.bufWalk (s : State) (die : BitVec 3) (b : Nat) : WalkOut :=
  walkTables s die ((s.pbuf die b).extractLsb' 172 20) ((s.pbuf die b).extractLsb' 192 64)
/-- What a publish of buffer b does with the walk of the buffer's address. -/
def State.publishAt (s : State) (g : Gid) (b : Nat) (d : SReg) : WalkOut → State
  | .leaf lvl l a =>
    let e := s.pbuf g.die b
    if leafFrame l = (e.extractLsb' 0 64).toNat then ((s.reframed e lvl l a).putBuf g.die b (swappedBuf e)).publDone g b d 0
    else s.publDone g b d 0x1A
  | .ecc => s.reachTrap g false { cause := .dataError, va := (s.pbuf g.die b).extractLsb' 192 64 } (s.group g).pc (s.wordAt g)
  | _ => s.publDone g b d 0x1A

/-! PBUF_PUBLISH_SWAP, case by case (R85, R214) -/

section

variable {s : State} {g : Gid} {b : BitVec 8} {d : SReg} {n : Nat} (hw : (s.group g).wait = .publBuf b d n)
include hw

theorem publishSwap_trapped (h : (s.group g).h.pend ≠ none) : exec (.pbufPublishSwap g) s = .next s := by
  change execPbufPublishSwap g s = _
  unfold execPbufPublishSwap
  dsimp only
  rw [hw]
  exact if_pos (Option.isSome_iff_ne_none.2 h)

variable (hfree : (s.group g).h.pend = none) (hpend : (s.pbuf g.die b.toNat).getLsbD 168 = true)
include hfree hpend

theorem publishSwap_waits (h : bufFilling s g.die b.toNat n = true) : exec (.pbufPublishSwap g) s = .next s := by
  change execPbufPublishSwap g s = _
  unfold execPbufPublishSwap
  dsimp only
  rw [hw]
  dsimp only
  rw [if_neg (by simp [hfree]), if_neg (by simpa [bitOf, State.pbuf] using hpend), if_pos h]

variable (hidle : bufFilling s g.die b.toNat n = false)
include hidle

/-- A pending buffer with no copy left to wait for: the error kept in the descriptor comes first, then the walk of its address. -/
theorem publishSwap_idle : exec (.pbufPublishSwap g) s = .next (
    let e := s.pbuf g.die b.toNat
    if e.getLsbD 167 then (s.putBuf g.die b.toNat (putBits e 167 2 0)).publDone g b.toNat d 2
    else s.publishAt g b.toNat d (s.bufWalk g.die b.toNat)) := by
  change execPbufPublishSwap g s = _
  unfold execPbufPublishSwap
  dsimp only
  rw [hw]
  dsimp only
  have hbuf : Sparse.get (s.die g.die).pbufs b.toNat = s.pbuf g.die b.toNat := rfl
  have hwalk : walkTables s g.die ((s.pbuf g.die b.toNat).extractLsb' 172 20) ((s.pbuf g.die b.toNat).extractLsb' 192 64) =
      s.bufWalk g.die b.toNat := rfl
  rw [hbuf, hwalk, if_neg (by simp [hfree]), if_neg (by simp [bitOf, hpend]), if_neg (by simp [hidle])]
  by_cases herr : (s.pbuf g.die b.toNat).getLsbD 167 = true
  · rw [if_pos herr]
    exact if_pos herr
  rw [if_neg herr]
  refine (if_neg herr).trans ?_
  cases s.bufWalk g.die b.toNat with
  | leaf lvl l a =>
    rw [State.publishAt]
    by_cases hframe : leafFrame l = ((s.pbuf g.die b.toNat).extractLsb' 0 64).toNat
    · rw [if_pos hframe]
      exact if_pos hframe
    · rw [if_neg hframe]
      exact if_neg hframe
  | ecc => rfl
  | bad c x => rfl
  | zeroFill x a => rfl

/-- A publish whose buffer's copies ended with an error returns 2. -/
theorem publishSwap_error (herr : (s.pbuf g.die b.toNat).getLsbD 167 = true) : exec (.pbufPublishSwap g) s =
    .next ((s.putBuf g.die b.toNat (putBits (s.pbuf g.die b.toNat) 167 2 0)).publDone g b.toNat d 2) := by
  rw [publishSwap_idle hw hfree hpend hidle]
  dsimp only
  rw [if_pos herr]

variable (hok : (s.pbuf g.die b.toNat).getLsbD 167 = false)
include hok

theorem publishSwap_walk {walk : WalkOut} (hwalk : s.bufWalk g.die b.toNat = walk) :
    exec (.pbufPublishSwap g) s = .next (s.publishAt g b.toNat d walk) := by
  rw [publishSwap_idle hw hfree hpend hidle]
  dsimp only
  rw [if_neg (Bool.eq_false_iff.1 hok), hwalk]

end

section

variable {s : State} {g : Gid} {b : Nat} {d : SReg}

/-- A walk that finds no leaf of the front frame ends the publish with `pbuf_stale` (log 96). -/
theorem publishAt_stale {walk : WalkOut} (hecc : walk ≠ .ecc)
    (h : ∀ lvl l a, walk = .leaf lvl l a → leafFrame l ≠ ((s.pbuf g.die b).extractLsb' 0 64).toNat) :
    s.publishAt g b d walk = s.publDone g b d 0x1A := by
  cases walk with
  | leaf lvl l a => exact if_neg (h lvl l a rfl)
  | ecc => exact absurd rfl hecc
  | bad c x => rfl
  | zeroFill x a => rfl

/-- A table word that could not be corrected traps, or waits for its group to resume (R335, R389). -/
theorem publishAt_ecc (hfree : (s.group g).h.pend = none) (hon : (s.group g).h.on = false)
    (hlogit : s.isLogit (s.group g).part (s.group g).launch = false) (hst : (s.group g).st ≠ .exiting) (herr : s.mxErrOf g = none) :
    ∃ r, RecordOf r .dataError (s.group g).pc ∧ s.publishAt g b d .ecc =
      if (s.group g).h.halted then s.setGroup g { s.group g with h := { (s.group g).h with
        pend := some { cause := .dataError, record := r, pc := (s.group g).pc, lpc := (s.group g).ln.lpc } } }
      else s.enterHandler g .dataError r (s.group g).pc (s.group g).ln.lpc := by
  refine ⟨_, recordOf_groupRecord g (s.group g) { cause := .dataError, va := (s.pbuf g.die b).extractLsb' 192 64 } false _ (s.wordAt g)
    0 0 false, ?_⟩
  rw [State.publishAt, State.reachTrap]
  dsimp only
  rw [hfree]
  refine if_congr Iff.rfl rfl ?_
  rw [State.raiseTrap, herr, State.takeTrap]
  dsimp only
  rw [if_neg (by simp [hon]), hlogit, if_neg (by simp), if_neg hst]
  rfl

end

/-! What a publish that returns leaves (R85) -/

/-- The publish returns a status: the group has it in its register and goes on. -/
def PublishEnds (s : State) (g : Gid) (d : SReg) (t : State) (st : W64) : Prop :=
  exec (.pbufPublishSwap g) s = .next t ∧ (t.group g).sr d = st ∧ (t.group g).wait = .none ∧ (t.group g).pc = (s.group g).pc + 4

theorem publishEnds_of_next {s u : State} {g : Gid} {b : Nat} {d : SReg} {st : BitVec 8}
    (hexec : exec (.pbufPublishSwap g) s = .next (u.publDone g b d st)) (hpc : (u.group g).pc = (s.group g).pc) :
    PublishEnds s g d (u.publDone g b d st) (st.setWidth 64) := by
  obtain ⟨hsr, hwait, hgo⟩ := publDone_returns u g b d st
  exact ⟨hexec, hsr, hwait, hpc ▸ hgo⟩

theorem publDone_settled {s u : State} {g : Gid} {b : Nat} {d : SReg} {st : BitVec 8} {e : BitVec 256}
    (hq : (u.die g.die).queues = (s.die g.die).queues) (hsp : (u.die g.die).spoilt = (s.die g.die).spoilt)
    (hvalid : (u.pbuf g.die b).getLsbD 169 = e.getLsbD 169) (hpend : (u.pbuf g.die b).getLsbD 168 = false) :
    BufSettled s g.die b e (u.publDone g b d st) :=
  bufSettled_letGo (u := u.setGroup g ((u.group g).endWait d st)) hq hsp hvalid hpend

theorem publDone_extract (u : State) (g : Gid) (b : Nat) (d : SReg) (st : BitVec 8) {lo n : Nat} (h : lo + n ≤ 167) :
    ((u.publDone g b d st).pbuf g.die b).extractLsb' lo n = (u.pbuf g.die b).extractLsb' lo n :=
  letGo_extract (u.setGroup g ((u.group g).endWait d st)) g.die b h

theorem bufFilling_iff (s : State) (die : BitVec 3) (b n : Nat) : bufFilling s die b n = true ↔
    ∃ p ∈ (s.die die).queues, ∃ c ∈ p.2.cmds, n ∉ c.held ∧ b ∈ (c.look s die).bufs := by
  simp only [bufFilling, List.any_eq_true, Bool.and_eq_true, Bool.not_eq_true', List.contains_eq_mem, decide_eq_false_iff_not, decide_eq_true_eq]

section

variable {s : State} {g : Gid} {b : BitVec 8} {d : SReg} {n : Nat} (hw : (s.group g).wait = .publBuf b d n)
  (hfree : (s.group g).h.pend = none) (hpend : (s.pbuf g.die b.toNat).getLsbD 168 = true)
  (hidle : bufFilling s g.die b.toNat n = false)
include hw hfree hpend hidle

theorem publishSwap_error_spec (herr : (s.pbuf g.die b.toNat).getLsbD 167 = true) : ∃ t, PublishEnds s g d t 2 ∧
    BufSettled s g.die b.toNat (s.pbuf g.die b.toNat) t ∧
    ((∀ x ∈ (s.die g.die).spoilt, x.1 ≠ b.toNat) → (t.pbuf g.die b.toNat).getLsbD 167 = false) ∧
    (t.pbuf g.die b.toNat).extractLsb' 0 128 = (s.pbuf g.die b.toNat).extractLsb' 0 128 ∧ t.mem = s.mem := by
  have hbit : ∀ i, i < 256 → ((s.putBuf g.die b.toNat (putBits (s.pbuf g.die b.toNat) 167 2 0)).pbuf g.die b.toNat).getLsbD i =
      if 167 ≤ i ∧ i < 169 then false else (s.pbuf g.die b.toNat).getLsbD i := fun i hi => by
    rw [State.pbuf_putBuf_same, getLsbD_putBits _ _ _ _ _ hi, Nat.zero_testBit]
  refine ⟨_, publishEnds_of_next (publishSwap_error hw hfree hpend hidle herr) rfl, publDone_settled ?_ ?_ ?_ ?_, fun hclean => ?_, ?_,
    publDone_mem ..⟩
  · rw [State.die_putBuf]
  · rw [State.die_putBuf]
  · rw [hbit 169 (by omega), if_neg (by omega)]
  · rw [hbit 168 (by omega), if_pos (by omega)]
  · let u := s.putBuf g.die b.toNat (putBits (s.pbuf g.die b.toNat) 167 2 0)
    have hspoilt : ((u.setGroup g ((u.group g).endWait d 2)).die g.die).spoilt = (s.die g.die).spoilt :=
      (congrArg Die.spoilt (s.die_putBuf g.die b.toNat _)).trans rfl
    exact (letGo_error_bit _ g.die b.toNat (spoiltGone_eq_false (hspoilt ▸ hclean))).trans ((hbit 167 (by omega)).trans (if_pos (by omega)))
  · rw [publDone_extract _ _ _ _ _ (by omega), State.pbuf_putBuf_same, extract_putBits_other _ _ (by omega) (by omega)]

variable (hok : (s.pbuf g.die b.toNat).getLsbD 167 = false)
include hok

theorem publishSwap_stale_spec (hecc : s.bufWalk g.die b.toNat ≠ .ecc)
    (hleaf : ∀ lvl l a, s.bufWalk g.die b.toNat = .leaf lvl l a →
      leafFrame l ≠ ((s.pbuf g.die b.toNat).extractLsb' 0 64).toNat) :
    ∃ t, PublishEnds s g d t 0x1A ∧
      ((∀ x ∈ (s.die g.die).spoilt, x.1 ≠ b.toNat) → t.pbuf g.die b.toNat = s.pbuf g.die b.toNat) ∧ t.mem = s.mem := by
  have hexec := publishSwap_walk hw hfree hpend hidle hok rfl
  rw [publishAt_stale hecc hleaf] at hexec
  exact ⟨_, publishEnds_of_next hexec rfl,
    fun hclean => letGo_pbuf_eq (s.setGroup g ((s.group g).endWait d 0x1A)) g.die b.toNat (spoiltGone_eq_false hclean) hpend, publDone_mem ..⟩

theorem publishSwap_leaf_spec {lvl : Nat} {l : W64} {a : Nat}
    (hwalk : s.bufWalk g.die b.toNat = .leaf lvl l a)
    (hframe : leafFrame l = ((s.pbuf g.die b.toNat).extractLsb' 0 64).toNat) :
    let e := s.pbuf g.die b.toNat
    ∃ t, PublishEnds s g d t 0 ∧ (t.pbuf g.die b.toNat).extractLsb' 0 64 = e.extractLsb' 64 64 ∧
      (t.pbuf g.die b.toNat).extractLsb' 64 64 = e.extractLsb' 0 64 ∧ BufSettled s g.die b.toNat e t ∧
      (t.read64 a).toNat / 2 ^ 16 = (e.extractLsb' 64 64).toNat / 2 ^ 16 ∧ (t.read64 a).toNat % 2 ^ 16 = l.toNat % 2 ^ 16 ∧
      ∀ (c : BitVec 10), ∀ x ∈ (t.core c).tlb, x.pasid = e.extractLsb' 172 20 →
        pageIn x.page (pageSize x.lvl.toNat) ((e.extractLsb' 192 64).toNat / pageSize lvl * pageSize lvl) (pageSize lvl) = false := by
  intro e
  let u := (s.reframed e lvl l a).putBuf g.die b.toNat (swappedBuf e)
  have hexec : exec (.pbufPublishSwap g) s = .next (u.publDone g b.toNat d 0) :=
    (publishSwap_walk hw hfree hpend hidle hok hwalk).trans (congrArg _ (if_pos hframe))
  have hbuf : u.pbuf g.die b.toNat = swappedBuf e := State.pbuf_putBuf_same ..
  have hdie : u.die g.die = { s.die g.die with pbufs := (u.die g.die).pbufs } := by
    rw [State.die_putBuf, reframed_die]
  have hread : (u.publDone g b.toNat d 0).read64 a = framedLeaf l (e.extractLsb' 64 64) := by
    rw [State.read64, publDone_mem]
    exact reframed_read64 s e lvl l a
  refine ⟨_, publishEnds_of_next hexec (reframed_pc s e lvl l a g), ?_, ?_, publDone_settled ?_ ?_ ?_ ?_, ?_, ?_, fun c x hx => ?_⟩
  · rw [publDone_extract _ _ _ _ _ (by omega), hbuf, swappedBuf_front]
  · rw [publDone_extract _ _ _ _ _ (by omega), hbuf, swappedBuf_back]
  · rw [hdie]
  · rw [hdie]
  · rw [hbuf, swappedBuf_valid]
  · rw [hbuf, swappedBuf_pending]
  · rw [hread, framedLeaf_frame]
  · rw [hread, framedLeaf_flags]
  · rw [publDone_core] at hx
    exact reframed_tlb s e lvl l a c hx

end

/-! `publ.buf` (R185, R214) -/

theorem publBuf_range {s : State} {d a : SReg} (h : 256 ≤ (s.cur.sr a).toNat) (ht : TrapEnters s) :
    TrapsS (.publBuf d a) s .operandRange :=
  operandRange_traps (f := .sa) (r := a) (if_pos (not_top_eq_zero (lo := 8) (n := 56) rfl h)) ht

section

variable {s : State} {d a : SReg} (h : (s.cur.sr a).toNat < 256)
include h

/-- Where the register names a buffer, the publish looks at that buffer's descriptor. -/
theorem publBuf_inRange : exec (.publBuf d a) s =
    if !(s.pbuf s.curG.die (s.cur.sr a).toNat).getLsbD 168 then scalarNext (fun g => g.setSr d 1) s
    else
      .next ((s.setCur { s.cur with wait := .publBuf ((s.cur.sr a).extractLsb' 0 8) d (s.die s.curG.die).publs }).setDie s.curG.die
        { s.die s.curG.die with publs := (s.die s.curG.die).publs + 1 }).stalled := by
  have hnum : bitsOf (s.cur.sr a) 0 8 = (s.cur.sr a).toNat := by rw [bitsOf_zero, Nat.mod_eq_of_lt (b := 2 ^ 8) h]
  change execPublBuf d a s = _
  rw [execPublBuf]
  dsimp only
  rw [hnum, if_neg (not_not.2 ((bitsOf_top_eq_zero _ rfl).2 h))]
  rfl

theorem publBuf_idle (hidle : (s.pbuf s.curG.die (s.cur.sr a).toNat).getLsbD 168 = false) :
    WritesS (.publBuf d a) s d (fun x => x = 1) :=
  writesS_of_next (v := 1) ((publBuf_inRange h).trans (if_pos (by rw [hidle]; rfl))) rfl
theorem publBuf_begins (hpend : (s.pbuf s.curG.die (s.cur.sr a).toNat).getLsbD 168 = true) : exec (.publBuf d a) s =
    .next ((s.setCur { s.cur with wait := .publBuf ((s.cur.sr a).extractLsb' 0 8) d (s.die s.curG.die).publs }).setDie s.curG.die
      { s.die s.curG.die with publs := (s.die s.curG.die).publs + 1 }).stalled :=
  (publBuf_inRange h).trans (if_neg (by rw [hpend]; decide))

end

/-! PBUF_DESC_WRITE (R84) -/

/-- The word that a write of word 2 leaves, before valid is checked. -/
def descWord2 (old : BitVec 256) (v : W64) : W64 :=
  (v &&& 0xFFFFFE0000000000#64) ||| (old.extractLsb' 128 64 &&& 0x0000018000000000#64)

theorem descWord2_bit (old : BitVec 256) (v : W64) {i : Nat} (hi : i < 64) : (descWord2 old v).getLsbD i =
    if 41 ≤ i then v.getLsbD i else decide (39 ≤ i) && old.getLsbD (128 + i) := by
  have hnew : ∀ j < 64, (0xFFFFFE0000000000#64).getLsbD j = decide (41 ≤ j) := by decide
  have hkeep : ∀ j < 64, (0x0000018000000000#64).getLsbD j = (decide (39 ≤ j) && !decide (41 ≤ j)) := by decide
  rw [descWord2, BitVec.getLsbD_or, BitVec.getLsbD_and, BitVec.getLsbD_and, hnew i hi, hkeep i hi, BitVec.getLsbD_extractLsb',
    decide_eq_true hi, Bool.true_and]
  by_cases h : 41 ≤ i
  · simp [h]
  · rw [if_neg h, decide_eq_false h, Bool.and_false, Bool.false_or, Bool.not_false, Bool.and_true, Bool.and_comm]

/-- Valid may be set: the size field names a size, and the back frame is one of the pool's, aligned, and not the front frame. -/
def descOk (x : BitVec 256) : Bool :=
  decide (bitsOf x 170 2 < 2) && decide (paNode (bitsOf x 64 64) = 0 ∧ paRegion (bitsOf x 64 64) = 0 ∧ bitsOf x 64 64 % bufSize x = 0 ∧
    x.extractLsb' 64 64 ≠ x.extractLsb' 0 64)
/-- Valid cleared where it may not be set. -/
def checkValid (x : BitVec 256) : BitVec 256 := if bitOf x 169 && !descOk x then putBit x 169 false else x

theorem pbufWrite_two (old : BitVec 256) (v : W64) :
    pbufWrite old 2 v = checkValid (putBits old 128 64 (descWord2 old v).toNat) := rfl
theorem pbufWrite_other (old : BitVec 256) {w : Nat} (hw : w ≠ 2) (v : W64) :
    pbufWrite old w v = checkValid (putBits old (64 * w) 64 v.toNat) := by
  have hor : v ||| (0 : W64) = v := BitVec.or_zero
  rw [pbufWrite, if_neg hw, if_neg hw, hor]
  rfl

theorem checkValid_bit (x : BitVec 256) {i : Nat} (hi : i < 256) :
    (checkValid x).getLsbD i = if i = 169 then x.getLsbD 169 && descOk x else x.getLsbD i := by
  rw [checkValid, bitOf]
  split_ifs with hbad h h
  · have hdesc : descOk x = false := by simpa using (Bool.and_eq_true_iff.1 hbad).2
    rw [getLsbD_putBit _ _ _ hi, if_pos h, hdesc, Bool.and_false]
  · rw [getLsbD_putBit _ _ _ hi, if_neg h]
  · rw [h]
    revert hbad
    cases x.getLsbD 169 <;> cases descOk x <;> decide
  · rfl
theorem checkValid_extract (x : BitVec 256) {lo n : Nat} (h : lo + n ≤ 169 ∨ 170 ≤ lo) (hn : lo + n ≤ 256) :
    (checkValid x).extractLsb' lo n = x.extractLsb' lo n := by
  apply BitVec.eq_of_getLsbD_eq
  intro i hi
  rw [BitVec.getLsbD_extractLsb', BitVec.getLsbD_extractLsb', checkValid_bit x (by omega), if_neg (by omega)]
theorem checkValid_of_invalid {x : BitVec 256} (h : x.getLsbD 169 = false) : checkValid x = x := if_neg (by rw [bitOf, h, Bool.false_and]; decide)

/-- A descriptor with word 2 written, before valid is checked. -/
def putWord2 (old : BitVec 256) (v : W64) : BitVec 256 := putBits old 128 64 (descWord2 old v).toNat

section

variable (old : BitVec 256) (v : W64) {lo n : Nat}

theorem putWord2_bit {i : Nat} (hi : i < 64) : (putWord2 old v).getLsbD (128 + i) = (descWord2 old v).getLsbD i := by
  rw [putWord2, getLsbD_putBits _ _ _ _ _ (by omega), if_pos (by omega), Nat.add_sub_cancel_left, BitVec.testBit_toNat]
theorem putWord2_other (h : lo + n ≤ 128 ∨ 192 ≤ lo) (hn : lo + n ≤ 256) : (putWord2 old v).extractLsb' lo n = old.extractLsb' lo n :=
  extract_putBits_other old _ (by omega) hn
/-- The bits from valid on are those of the word written. -/
theorem putWord2_new (hlo : 41 ≤ lo) (h : lo + n ≤ 64) : (putWord2 old v).extractLsb' (128 + lo) n = v.extractLsb' lo n := by
  apply BitVec.eq_of_getLsbD_eq
  intro i hi
  rw [BitVec.getLsbD_extractLsb', BitVec.getLsbD_extractLsb', Nat.add_assoc, putWord2_bit old v (by omega), descWord2_bit old v (by omega),
    if_pos (by omega)]
/-- The error and pending bits stay. -/
theorem putWord2_state : (putWord2 old v).extractLsb' 167 2 = old.extractLsb' 167 2 := by
  apply BitVec.eq_of_getLsbD_eq
  intro i hi
  have h128 : 167 + i = 128 + (39 + i) := by omega
  rw [BitVec.getLsbD_extractLsb', BitVec.getLsbD_extractLsb', h128, putWord2_bit old v (by omega), descWord2_bit old v (by omega),
    if_neg (by omega), decide_eq_true (Nat.le_add_right 39 i), Bool.true_and]
theorem putWord2_low : (putWord2 old v).extractLsb' 128 39 = 0 := by
  apply BitVec.eq_of_getLsbD_eq
  intro i hi
  rw [BitVec.getLsbD_extractLsb', putWord2_bit old v (by omega), descWord2_bit old v (by omega), if_neg (by omega),
    decide_eq_false (p := 39 ≤ i) (by omega), Bool.false_and, Bool.and_false]
  exact BitVec.getLsbD_zero.symm

end

theorem bitsOf_pair {w : Nat} (x : BitVec w) (lo : Nat) : bitsOf x lo 2 = (x.getLsbD lo).toNat + 2 * (x.getLsbD (lo + 1)).toNat := by
  have hpair : ∀ y : BitVec 2, y.toNat = (y.getLsbD 0).toNat + 2 * (y.getLsbD 1).toNat := by decide
  rw [bitsOf, hpair, BitVec.getLsbD_extractLsb', BitVec.getLsbD_extractLsb']
  rfl

/-- When a write of word 2 may set valid (R84). -/
theorem descOk_putWord2 (old : BitVec 256) (v : W64) : descOk (putWord2 old v) = true ↔ v.getLsbD 43 = false ∧
    paNode (old.extractLsb' 64 64).toNat = 0 ∧ paRegion (old.extractLsb' 64 64).toNat = 0 ∧
    (old.extractLsb' 64 64).toNat % (if v.getLsbD 42 then 0x20000000 else 0x10000) = 0 ∧ old.extractLsb' 64 64 ≠ old.extractLsb' 0 64 := by
  have hback : bitsOf (putWord2 old v) 64 64 = (old.extractLsb' 64 64).toNat := congrArg _ (putWord2_other old v (by omega) (by omega))
  have hsize : bitsOf (putWord2 old v) 170 2 = (v.getLsbD 42).toNat + 2 * (v.getLsbD 43).toNat :=
    (congrArg BitVec.toNat (putWord2_new old v (lo := 42) (by omega) (by omega))).trans (bitsOf_pair v 42)
  rw [descOk, bufSize, hback, hsize, putWord2_other old v (by omega) (by omega), putWord2_other old v (by omega) (by omega)]
  cases v.getLsbD 43 <;> cases v.getLsbD 42 <;> simp

/-- The descriptor that a write leaves. -/
def descNext (old : BitVec 256) (w : BitVec 2) (v : W64) : BitVec 256 :=
  if bitOf old 169 then (if w = 2 && !bitOf v 41 then putBit old 169 false else old) else pbufWrite old w.toNat v

theorem pbufDescWrite_next (s : State) (die : BitVec 3) (b : BitVec 8) (w : BitVec 2) (v : W64) :
    exec (.pbufDescWrite die b w v) s = .next (s.putBuf die b.toNat (descNext (s.pbuf die b.toNat) w v)) := rfl

section

variable {old : BitVec 256} {w : BitVec 2} {v : W64}

theorem descNext_valid (h : old.getLsbD 169 = true) : descNext old w v = if w = 2 ∧ v.getLsbD 41 = false then putBit old 169 false else old := by
  rw [descNext, bitOf, if_pos h]
  refine if_congr ?_ rfl rfl
  rw [Bool.and_eq_true, decide_eq_true_eq, Bool.not_eq_true']
  rfl

/-- Another word of an invalid descriptor is written as it is. -/
theorem descNext_other (h : old.getLsbD 169 = false) (hw : w ≠ 2) : descNext old w v = putBits old (64 * w.toNat) 64 v.toNat := by
  have hw' : w.toNat ≠ 2 := fun h2 => hw (BitVec.eq_of_toNat_eq h2)
  have hlt := w.isLt
  rw [descNext, bitOf, if_neg (Bool.eq_false_iff.1 h), pbufWrite_other old hw']
  refine checkValid_of_invalid ?_
  rw [getLsbD_putBits _ _ _ _ _ (by omega), if_neg (by omega), h]

theorem descNext_two (h : old.getLsbD 169 = false) : descNext old 2 v = checkValid (putWord2 old v) := by
  rw [descNext, bitOf, if_neg (Bool.eq_false_iff.1 h)]
  exact pbufWrite_two old v

theorem descNext_two_valid (h : old.getLsbD 169 = false) : (descNext old 2 v).getLsbD 169 = true ↔ v.getLsbD 41 = true ∧
    v.getLsbD 43 = false ∧ paNode (old.extractLsb' 64 64).toNat = 0 ∧ paRegion (old.extractLsb' 64 64).toNat = 0 ∧
    (old.extractLsb' 64 64).toNat % (if v.getLsbD 42 then 0x20000000 else 0x10000) = 0 ∧ old.extractLsb' 64 64 ≠ old.extractLsb' 0 64 := by
  rw [descNext_two h, checkValid_bit _ (by omega), if_pos rfl, putWord2_bit old v (i := 41) (by omega), descWord2_bit old v (by omega),
    if_pos (by omega), Bool.and_eq_true, descOk_putWord2]

end

/-! The obligation -/

/-- Settles O39: a publish that returns lets copies go, which `letGo_bit` says of each bit of the descriptor and `bufSettled_letGo` of the
state; the walk of the buffer's address decides how a publish with nothing to wait for ends (`publishSwap_idle`); a write of a
descriptor is `descNext`. -/
theorem publishedBuffers : Obligations.PublishedBuffers := by
  unfold Obligations.PublishedBuffers
  refine ⟨fun s d a => ⟨publBuf_range, publBuf_idle, publBuf_begins⟩, fun s g b d n hw => ⟨publishSwap_trapped hw, fun hfree => ?_⟩, fun s die b w v => ?_⟩
  · intro e walk ends after clean settled
    refine ⟨fun hpend hfill => publishSwap_waits hw hfree hpend ((bufFilling_iff ..).2 hfill), fun hpend hnone => ?_⟩
    have hidle : bufFilling s g.die b.toNat n = false := by
      refine Bool.eq_false_iff.2 fun hfill => ?_
      obtain ⟨p, hp, c, hc, hheld, hb⟩ := (bufFilling_iff ..).1 hfill
      exact hnone p hp c hc hheld hb
    refine ⟨publishSwap_error_spec hw hfree hpend hidle, publishSwap_stale_spec hw hfree hpend hidle,
      fun hok hwalk hon hlogit hst herr => ?_, fun lvl l a hok hwalk hframe => publishSwap_leaf_spec hw hfree hpend hidle hok hwalk hframe⟩
    obtain ⟨r, hr, ht⟩ := publishAt_ecc (b := b.toNat) (d := d) hfree hon hlogit hst herr
    exact ⟨r, hr, (publishSwap_walk hw hfree hpend hidle hok hwalk).trans (congrArg _ ht)⟩
  · intro e
    refine ⟨_, pbufDescWrite_next .., fun k hk => (State.pbuf_putBuf ..).trans (if_neg hk), rfl, ?_⟩
    intro n
    have hn : n = descNext e w v := State.pbuf_putBuf_same ..
    rw [hn]
    refine ⟨fun h hkeep => ?_, fun h hw hv => ?_, fun h hw => ?_, fun h hw => ?_⟩
    · rw [descNext_valid h, if_neg]
      rintro ⟨hw, hv⟩
      rcases hkeep with hw' | hv'
      · exact hw' hw
      · exact Bool.false_ne_true (hv.symm.trans hv')
    · rw [descNext_valid h, if_pos ⟨hw, hv⟩]
      exact ⟨(getLsbD_putBit _ _ _ (by omega)).trans (if_pos rfl), fun i hi => getLsbD_putBit_other _ _ hi⟩
    · have hlt := w.isLt
      rw [descNext_other h hw]
      refine ⟨?_, fun k hk hkw => ?_⟩
      · rw [extract_putBits_same _ _ (by omega), BitVec.ofNat_toNat, BitVec.setWidth_eq]
      · exact extract_putBits_other _ _ (by omega) (by omega)
    · subst hw
      refine ⟨fun k hk hk2 => ?_, ?_, ?_, ?_, ?_, descNext_two_valid h⟩ <;> rw [descNext_two h, checkValid_extract _ (by omega) (by omega)]
      · exact putWord2_other e v (by omega) (by omega)
      · exact putWord2_new e v (lo := 44) (by omega) (by omega)
      · exact putWord2_new e v (lo := 42) (by omega) (by omega)
      · exact putWord2_low e v
      · exact putWord2_state e v

end Sys2Proof.Machine
end

section
/-! PROOFS. Moves to and from control registers (O7). -/

set_option Elab.async false

namespace Sys2Proof.Machine

/-! Short vectors -/

section

variable {α : Type} {n : Nat} (v : Vector α n) {k : Nat} (d : α)

theorem vector_getD_of_lt (h : k < n) : v.getD k d = v[k] := by
  simp [Vector.getD, h]

theorem vset_of_lt (h : k < n) (x : α) : vset v k x = v.set k x := by
  unfold vset
  ext i hi
  rw [Vector.getElem_setIfInBounds, Vector.getElem_set]

end

/-! What a read gives and what a write leaves (R92 to R94) -/

section

variable {r : RegSpace} {f : BitVec 6} {x : W64}

theorem ctlRead_size : (ctlRead r 0).toNat = r.declared.toNat + 2 ^ 32 * r.granules.toNat := by
  have hd := r.declared.isLt
  have hg : (0#26 ++ r.granules).toNat = r.granules.toNat := by rw [BitVec.toNat_append]; exact Nat.zero_or _
  change (0#26 ++ r.granules ++ 0#14 ++ r.declared).toNat = _
  rw [BitVec.toNat_append, BitVec.toNat_append, ← Nat.shiftLeft_add_eq_or_of_lt hd, hg]
  simp only [BitVec.toNat_ofNat, Nat.zero_mod, Nat.or_zero, Nat.shiftLeft_eq]
  omega

/-- Beyond the views only the tile descriptors are registers. -/
theorem ctlRead_of_ge (h : 4 ≤ f.toNat) :
    ctlRead r f = if 16 ≤ f.toNat ∧ f.toNat < 32 then r.tdesc.getD (f.toNat - 16) 0 else 0 := by
  unfold ctlRead
  split
  case h_5 => rfl
  all_goals omega

theorem ctlRead_tdesc {k : Fin 16} (h : f.toNat = 16 + k.val) : ctlRead r f = r.tdesc[k] := by
  have hk := k.isLt
  rw [ctlRead_of_ge (by omega), if_pos (by omega), h, Nat.add_sub_cancel_left]
  exact vector_getD_of_lt _ _ hk

theorem ctlRead_none (h4 : 4 ≤ f.toNat) (h : f.toNat < 16 ∨ 32 ≤ f.toNat) : ctlRead r f = 0 := by
  rw [ctlRead_of_ge h4, if_neg (by omega)]

/-- The descriptor that a move leaves: the moved bits 43:0, and the tag and the register of its binding, which no longer is valid (R94). -/
def movedTdesc (old x : W64) : W64 := old &&& 0x7FFFC00000000000#64 ||| x &&& 0x00000FFFFFFFFFFF#64

theorem ctlWrite_of_ge (h : 4 ≤ f.toNat) : ctlWrite r f x =
    if 16 ≤ f.toNat ∧ f.toNat < 32 ∧ tdescOk x = true then
      some { r with tdesc := vset r.tdesc (f.toNat - 16) (movedTdesc (r.tdesc.getD (f.toNat - 16) 0) x) }
    else none := by
  unfold ctlWrite
  split
  case h_4 => rfl
  all_goals omega

theorem ctlWrite_tdesc {k : Fin 16} (h : f.toNat = 16 + k.val) (hx : tdescOk x = true) :
    ctlWrite r f x = some { r with tdesc := r.tdesc.set k (movedTdesc r.tdesc[k] x) } := by
  have hk := k.isLt
  rw [ctlWrite_of_ge (by omega), if_pos ⟨by omega, by omega, hx⟩, h, Nat.add_sub_cancel_left, vset_of_lt _ hk, vector_getD_of_lt _ _ hk]
  rfl

theorem getLsbD_movedTdesc (old x : W64) (i : Fin 64) :
    (movedTdesc old x).getLsbD i = if i.val < 44 then x.getLsbD i else decide (46 ≤ i.val ∧ i.val < 63) && old.getLsbD i := by
  have masks : ∀ i : Fin 64, (0x7FFFC00000000000#64).getLsbD i = decide (46 ≤ i.val ∧ i.val < 63) ∧
      (0x00000FFFFFFFFFFF#64).getLsbD i = decide (i.val < 44) := by decide
  rw [movedTdesc, BitVec.getLsbD_or, BitVec.getLsbD_and, BitVec.getLsbD_and, (masks i).1, (masks i).2]
  by_cases h : i.val < 44
  · simp [h, show ¬ 46 ≤ i.val by omega]
  · simp [h, Bool.and_comm]

theorem movedTdesc_fields (old x : W64) : (movedTdesc old x).extractLsb' 0 44 = x.extractLsb' 0 44 ∧
    (movedTdesc old x).extractLsb' 46 17 = old.extractLsb' 46 17 ∧ (movedTdesc old x).getLsbD 63 = false := by
  refine ⟨BitVec.eq_of_getLsbD_eq fun i hi => ?_, BitVec.eq_of_getLsbD_eq fun i hi => ?_, getLsbD_movedTdesc old x 63⟩
  · rw [BitVec.getLsbD_extractLsb', BitVec.getLsbD_extractLsb', getLsbD_movedTdesc old x ⟨0 + i, by omega⟩, if_pos (by simp; omega)]
  · rw [BitVec.getLsbD_extractLsb', BitVec.getLsbD_extractLsb', getLsbD_movedTdesc old x ⟨46 + i, by omega⟩, if_neg (by simp; omega)]
    simp [hi, show 46 + i < 63 by omega]

end

/-! The instructions (R95) -/

section

variable {s : State} {d a : SReg} {f : BitVec 6}

theorem mtcWaits_iff : mtcWaits f = true ↔ (1 ≤ f.toNat ∧ f.toNat < 4) ∨ (16 ≤ f.toNat ∧ f.toNat < 32) := by
  simp only [mtcWaits, Bool.or_eq_true, decide_eq_true_eq]
  omega

theorem exec_mfc_idle (h : s.cur.laneIdle = true) :
    exec (.mfc d f) s = .next (s.setCur (s.cur.setSr d (ctlRead s.cur.rg f)).pc4) := by
  change execMfc d f s = _
  rw [execMfc, h, Bool.not_true, Bool.and_false]
  rfl

theorem exec_mfc_waits (h : s.cur.laneIdle = false) (hf : 16 ≤ f.toNat ∧ f.toNat < 32) : exec (.mfc d f) s = .next s.stalled := by
  change execMfc d f s = _
  rw [execMfc, h, decide_eq_true hf]
  rfl

theorem exec_mtc_waits (h : s.cur.laneIdle = false) (hf : mtcWaits f = true) : exec (.mtc a f) s = .next s.stalled := by
  change execMtc a f s = _
  simp only [execMtc, hf, h]
  rfl

theorem exec_mtc_idle (h : s.cur.laneIdle = true) : exec (.mtc a f) s = match ctlWrite s.cur.rg f (s.cur.sr a) with
    | some r => .next (s.setCur { s.cur with rg := r, pc := s.cur.pc + 4 })
    | none => scalarAcc (.mtc a f) (raise .descFormat) s := by
  change execMtc a f s = _
  simp only [execMtc, h, Bool.not_true, Bool.and_false, Bool.false_eq_true, if_false]
  rfl

theorem exec_mtc_writes {r : RegSpace} (h : s.cur.laneIdle = true) (hw : ctlWrite s.cur.rg f (s.cur.sr a) = some r) :
    exec (.mtc a f) s = .next (s.setCur { s.cur with rg := r, pc := s.cur.pc + 4 }) := by
  rw [exec_mtc_idle h, hw]

theorem exec_mtc_traps (ht : TrapEnters s) (h : s.cur.laneIdle = true) (hw : ctlWrite s.cur.rg f (s.cur.sr a) = none) :
    TrapsS (.mtc a f) s .descFormat :=
  trapsS_of_throw (j := { cause := .descFormat, here := true }) ht rfl (by rw [exec_mtc_idle h, hw]; rfl)

end

/-- Settles O7: `ctlRead` and `ctlWrite`, register by register, decide what a move does once the lane stream is idle (`exec_mfc_idle`,
`exec_mtc_writes`, `exec_mtc_traps`); until then it waits. -/
theorem controlRegisters : Obligations.ControlRegisters := by
  refine ⟨fun s d a f hidle => ?_, fun s d a f => ⟨fun ht hidle hbad => ?_, fun h h1 h4 h32 => ?_, fun h h16 h32 => ?_⟩⟩
  · refine ⟨writesS_of_next (exec_mfc_idle hidle) ⟨fun h => ?_, fun h => ?_, fun h => ?_, fun h => ?_, fun k h => ctlRead_tdesc h, ctlRead_none⟩,
      fun h hv => ?_, fun h hv => ?_, fun h hv => ?_, fun k hk hv => ?_⟩
    · subst h; exact ctlRead_size
    iterate 3 subst h; rfl
    iterate 3 subst h; exact exec_mtc_writes hidle (if_pos hv)
    · exact ⟨_, exec_mtc_writes hidle (ctlWrite_tdesc hk hv), movedTdesc_fields ..⟩
  · refine exec_mtc_traps ht hidle ?_
    rcases hbad with rfl | h | h | ⟨rfl, h⟩ | ⟨rfl, h⟩ | ⟨rfl, h⟩ | ⟨h16, h32, h⟩
    · rfl
    · rw [ctlWrite_of_ge h.1, if_neg (by omega)]
    · rw [ctlWrite_of_ge (by omega), if_neg (by omega)]
    iterate 3 exact if_neg (by rw [h]; decide)
    · rw [ctlWrite_of_ge (by omega), h, if_neg (by simp)]
  · exact exec_mtc_waits h (mtcWaits_iff.2 (by omega))
  · exact exec_mfc_waits h ⟨h16, h32⟩

end Sys2Proof.Machine
end

section
/-! PROOFS. A `qld` whose later units lie beyond its window's limit, and the refutation of O31. -/

set_option Elab.async false

namespace Sys2Proof.Machine

/-- A group whose window 0 serves the 128 bytes from physical address 0 on. -/
def narrowGroup : Group := { live := true, win := Vector.replicate 8 { limit := 0x80 } }

/-- The machine with that group moving; it has no page tables, so nothing translates beside that window. -/
def narrowState : State := { State.reset with groups := [(0, narrowGroup)] }

/-- A blocking `qld` of queue 0 through window 0, from offset 0 in units of 16 bytes. -/
def narrowLoad : Instr := .qld 0 0 0 0 .b128 .rlx false

/-- How many entries data queue 0 of the group that moves holds after an instruction that goes on. -/
def queuedBy (o : Out) : Option Nat := match o with | .next t => some (t.cur.q.getD 0 []).length | _ => none

/-- The unit at offset 128 is not translated by the window (R29), and the instruction stops with nothing pushed. -/
theorem queuedBy_narrowLoad : queuedBy (exec narrowLoad narrowState) = some 0 := by decide +kernel

theorem narrow_hits : WindowHit narrowState 0 0 256 .read 0 ∧ Readable narrowState 0 256 := by
  unfold WindowHit Readable
  decide +kernel

/-- Refutes O31: `WindowHit` asks of the access's first byte that it lies below the window's limit, and a `qld` resolves each of its units
by itself (R29, R208). In `narrowState` the window's limit is 128 bytes, and the units behind it do not translate, so the entry that the
statement has pushed is not. No window that `wset` makes ends inside the 256 bytes, whose page is one; the statement asks of the window
no more than `WindowHit`. -/
theorem not_queueInstructions : ¬ Obligations.QueueInstructions := by
  intro h
  obtain ⟨_, _, hqld, _⟩ := h narrowState 0 0 0 0 0 .b128 .rlx false
  obtain ⟨e, hpushed, _⟩ := hqld (by decide) rfl 0 narrow_hits.1 narrow_hits.2
  have hone : queuedBy (exec narrowLoad narrowState) = some 1 := congrArg queuedBy hpushed
  exact absurd (hone.symm.trans queuedBy_narrowLoad) (by decide)

end Sys2Proof.Machine
end

section
/-! PROOFS. Indexed moves: the register that each thread selects (O22). -/

set_option Elab.async false

namespace Sys2Proof.Machine

/-! A lane instruction that nothing holds back -/

/-- What does not stop a lane instruction stops neither its operands nor its sources' words (R97, R335). -/
theorem laneStop_none {g : Group} {dst src : List (Opnd × Nat)} {fields : List Nat} (h : g.laneStop dst src fields = none) :
    g.opStop fields dst src = none ∧ g.badSrc src = false := by
  unfold Group.laneStop at h
  cases hop : g.opStop fields dst src with
  | some st => simp [hop] at h
  | none => simpa [hop] using h

theorem run_checkOps {s : State} {fields : List Nat} {dst src : List (Opnd × Nat)} (h : s.cur.opStop fields dst src = none) :
    (checkOps fields dst src).run s = .ok () s := by
  rw [checkOps, run_bind, run_getCur]
  dsimp only
  rw [h]
  rfl

theorem run_needData {s : State} {src : List (Opnd × Nat)} (h : s.cur.badSrc src = false) : (needData src).run s = .ok () s := by
  rw [needData, run_bind, run_getCur]
  dsimp only
  rw [h]
  rfl

theorem laneAcc_next {i : Instr} {h : LHdr} {body : Acc Unit} {s t : State} (hnever : h.never = false)
    (hbody : body.run (s.setCur s.cur.settle) = .ok () t) : laneAcc i h body s = .next t := by
  rw [laneAcc, if_neg (by rw [hnever]; exact Bool.false_ne_true), hbody]
  rfl

/-- Every selected register lies in its view, so the check of R258 finds none that does not. -/
theorem idxBad_none {g : Group} {h : LHdr} {v : BitVec 10} {b : Opnd} {n : Nat}
    (hin : ∀ j, j < 64 → (g.sel h).exec.getLsbD j = true → ∀ k, k < n → g.rg.vecIn (v.toNat + g.srcVal b 1 j % 1024 + k) = true) :
    idxBad g h v b n = none := by
  refine List.findSome?_eq_none_iff.2 fun j hj => if_neg ?_
  simp only [bitOf, Bool.and_eq_true, Bool.not_eq_true', not_and, Bool.not_eq_false]
  exact fun hexec => List.all_eq_true.2 fun k hk => hin j (List.mem_range.1 hj) hexec k (List.mem_range.1 hk)

/-! Words written thread by thread (R258) -/

/-- Of the threads in a list those in a mask write: thread j its word of the n registers from register `i j` on, with `val j`. -/
def Group.putThreads (g : Group) (mask : W64) (i val : Nat → Nat) (n : Nat) (l : List Nat) : Group :=
  l.foldl (fun g j => if bitOf mask j then g.putVec (i j) (1#64 <<< j) (fun _ => val j) n else g) g

section

variable (g : Group) (mask : W64) (i val : Nat → Nat) (n : Nat)

theorem putThreads_eq (l : List Nat) : let t := g.putThreads mask i val n l
    t = { g with rg := { g.rg with rows := t.rg.rows, bad := t.rg.bad } } ∧ ∀ y ∈ t.rg.bad, y ∈ g.rg.bad := by
  refine List.foldlRecOn (motive := fun t : Group =>
    t = { g with rg := { g.rg with rows := t.rg.rows, bad := t.rg.bad } } ∧ ∀ y ∈ t.rg.bad, y ∈ g.rg.bad) l _ ⟨rfl, fun _ h => h⟩ ?_
  intro t ⟨heq, hbad⟩ j _
  split
  · exact ⟨by rw [putVec_eq, heq], fun y hy => hbad y (bad_putVec _ _ _ _ _ y hy)⟩
  · exact ⟨heq, hbad⟩

theorem getLsbD_oneThread {j k : Nat} (hk : k < 64) : (1#64 <<< j).getLsbD k = decide (k = j) := by
  rw [← BitVec.twoPow_eq, BitVec.getLsbD_twoPow]
  by_cases hkj : k = j
  · simp [← hkj, hk]
  · simp [hkj, Ne.symm hkj]

/-- A thread writes no word of another thread. -/
theorem vword_putVec_oneThread {j k r : Nat} {f : Nat → Nat} (first : Nat) (hk : k < 64)
    (h : k ≠ j ∨ ∀ m, m < n → r ≠ g.rg.vrow (first + m)) :
    vword ((g.putVec first (1#64 <<< j) f n).rg.row r) k = vword (g.rg.row r) k := by
  by_cases hr : ∀ m, m < n → r ≠ g.rg.vrow (first + m)
  · rw [row_putVec _ _ _ _ _ _ hr]
  · push Not at hr
    obtain ⟨m, hm, rfl⟩ := hr
    have hkj : k ≠ j := h.resolve_right fun h' => h' m hm rfl
    rw [vword_putVec _ _ _ _ _ _ _ hm hk, getLsbD_oneThread hk, decide_eq_false hkj, if_neg Bool.false_ne_true]

/-- A word that no thread of the list selects stays. -/
theorem vword_putThreads_other {j r : Nat} (hj : j < 64) (l : List Nat)
    (h : j ∈ l → mask.getLsbD j = true → ∀ k, k < n → r ≠ g.rg.vrow (i j + k)) :
    vword ((g.putThreads mask i val n l).rg.row r) j = vword (g.rg.row r) j := by
  induction l generalizing g with
  | nil => rfl
  | cons a l ih =>
    rw [Group.putThreads, List.foldl_cons]
    split
    · rename_i hmask
      refine (ih _ fun hl hm k hk => ?_).trans (vword_putVec_oneThread g n (i a) hj ?_)
      · rw [putVec_vrow]
        exact h (List.mem_cons_of_mem _ hl) hm k hk
      · by_cases hja : j = a
        · subst hja
          exact .inr fun m hm => h List.mem_cons_self hmask m hm
        · exact .inl hja
    · exact ih g fun hl => h (List.mem_cons_of_mem _ hl)

/-- A thread of the list that writes leaves its value in its words of the registers that it selects. -/
theorem vword_putThreads {j k : Nat} (hj : j < 64) (hk : k < n) {l : List Nat} (hl : j ∈ l) (hmask : mask.getLsbD j = true) :
    vword ((g.putThreads mask i val n l).rg.row (g.rg.vrow (i j + k))) j = BitVec.ofNat 32 (val j / 2 ^ (32 * k)) := by
  induction l generalizing g with
  | nil => exact absurd hl List.not_mem_nil
  | cons a l ih =>
    have hstep : g.putThreads mask i val n (a :: l) =
        (if bitOf mask a then g.putVec (i a) (1#64 <<< a) (fun _ => val a) n else g).putThreads mask i val n l := rfl
    have hvrow : (if bitOf mask a then g.putVec (i a) (1#64 <<< a) (fun _ => val a) n else g).rg.vrow (i j + k) = g.rg.vrow (i j + k) := by
      split
      · exact putVec_vrow ..
      · rfl
    rw [hstep, ← hvrow]
    by_cases hjl : j ∈ l
    · exact ih _ hjl
    · obtain rfl : j = a := (List.mem_cons.1 hl).resolve_right hjl
      rw [vword_putThreads_other _ _ _ _ _ hj l fun h => absurd h hjl, if_pos (show bitOf mask j = true from hmask), putVec_vrow, vword_putVec _ _ _ _ _ _ _ hk hj,
        getLsbD_oneThread hj, decide_eq_true rfl, if_pos rfl]

end

/-! The instructions -/

section

variable {s : State} {h : LHdr} {d b : Opnd} {v : BitVec 10} {w : Bool} (hnever : h.never = false)
  (hin : ∀ j, j < 64 → (s.cur.settle.sel h).exec.getLsbD j = true → ∀ k, k < wRegs w →
    s.cur.settle.rg.vecIn (v.toNat + s.cur.settle.srcVal b 1 j % 1024 + k) = true)

include hnever hin

theorem exec_rdx (hstop : s.cur.settle.laneStop [(d, wRegs w)] [(b, 1)] [2] = none) (hecc : idxEcc s.cur.settle h v b (wRegs w) = false) :
    exec (.mov h d (.vec v) b w .rdx) s = laneAlu (.mov h d (.vec v) b w .rdx) { h := h, d := d, dn := wRegs w, src := [(b, 1)], fields := [2] }
      (fun g _ j l => (g.srcVal (.vec (BitVec.ofNat 10 (v.toNat + l.getD 0 0 % 1024))) (wRegs w) j, false)) s := by
  have hbad : idxBad s.cur.settle h v b (wRegs w) = none := idxBad_none hin
  change execMov h d (.vec v) b w .rdx s = _
  simp only [execMov, Opnd.vecIdx, hnever, hstop, hbad, hecc, Option.isSome_none, Bool.or_self, Bool.false_eq_true, if_false]
  rfl

theorem exec_wrx (hstop : s.cur.settle.laneStop [] [(d, wRegs w), (b, 1)] [1, 2] = none) :
    exec (.mov h (.vec v) d b w .wrx) s = .next (s.setCur (wrxEffect s.cur.settle h (.vec v) d b (wRegs w)).lpc1) := by
  have hbad : idxBad s.cur.settle h v b (wRegs w) = none := idxBad_none hin
  obtain ⟨hops, hdata⟩ := laneStop_none hstop
  change laneAcc _ h _ s = _
  refine laneAcc_next hnever ?_
  rw [run_bind, run_checkOps (by rwa [State.cur_setCur])]
  dsimp only
  rw [run_bind, run_needData (by rwa [State.cur_setCur])]
  dsimp only
  rw [show idxBad s.cur.settle h (Opnd.vecIdx (.vec v)) b (wRegs w) = none from hbad]
  dsimp only
  rw [run_modifyCur, State.cur_setCur, State.setCur_setCur]

end

/-- `wrx` pops its sources, then writes thread by thread (R257, R258). -/
theorem wrxEffect_eq (g : Group) (h : LHdr) (v : BitVec 10) (a b : Opnd) (n : Nat) : wrxEffect g h (.vec v) a b n =
    (g.popAll [(a, n), (b, 1)]).putThreads (g.sel h).write (fun j => v.toNat + g.srcVal b 1 ((g.sel h).from h.uni j) % 1024)
      (fun j => g.srcVal a n ((g.sel h).from h.uni j)) n (List.range 64) := rfl

/-- Settles O22: with every selected register in its view `rdx` is an instruction of the shared run (`laneAlu_result`), and `wrx` writes
thread by thread (`vword_putThreads`, `vword_putThreads_other`). -/
theorem laneIndexedMoves : Obligations.LaneIndexedMoves := by
  intro s h d b v w hnever n g x idx hin
  refine ⟨fun hstop hecc => ?_, fun hstop => ?_⟩
  · have hresult := laneAlu_result _ _ _ s (exec_rdx hnever hin hstop hecc) hnever hstop
    exact hresult
  have hpop := popAll_eq g [(d, n), (b, 1)]
  obtain ⟨g1, hg1⟩ : ∃ g1, g1 = g.popAll [(d, n), (b, 1)] := ⟨_, rfl⟩
  rw [← hg1] at hpop
  have hrg : g1.rg = g.rg := by rw [hpop]
  obtain ⟨heq, hbad⟩ := putThreads_eq g1 x.write (fun j => idx (x.from h.uni j)) (fun j => g.srcVal d n (x.from h.uni j)) n (List.range 64)
  have hcur : wrxEffect g h (.vec v) d b n =
      g1.putThreads x.write (fun j => idx (x.from h.uni j)) (fun j => g.srcVal d n (x.from h.uni j)) n (List.range 64) :=
    hg1 ▸ wrxEffect_eq g h v d b n
  refine ⟨_, exec_wrx hnever hin hstop, ?_⟩
  rw [State.cur_setCur]
  simp only [Group.lpc1_rg, Group.lpc1_q]
  rw [show s.cur.settle = g from rfl, show wRegs w = n from rfl, hcur]
  refine ⟨fun j hj hwrite k hk => ?_, fun j r hj hr => ?_, fun q => ?_, fun y hy => hrg ▸ hbad y hy, ?_⟩
  · rw [← hrg]
    exact vword_putThreads g1 x.write _ _ n hj hk (List.mem_range.2 hj) hwrite
  · rw [← hrg]
    exact vword_putThreads_other g1 x.write _ _ n hj _ fun _ => hrg ▸ hr
  · rw [heq, ← q_popAll, hg1]
  · congr 1
    rw [Group.lpc1, heq, hpop]

end Sys2Proof.Machine
end

section
/-! PROOFS. The shared run of the instructions of classes 6 and 7: one that goes on, one that traps, one that does nothing (O54, O55). -/

set_option Elab.async false

namespace Sys2Proof.Machine

/-! Traps of a lane instruction (R316) -/

/-- Settling keeps a group from none of its traps. -/
theorem trapEnters_settle {s : State} (h : TrapEnters s) : TrapEnters (s.setCur s.cur.settle) := by
  obtain ⟨hon, hlogit, hst, herr⟩ := h
  unfold TrapEnters
  rw [State.cur_setCur, settle_eq]
  exact ⟨hon, hlogit, hst, herr⟩

/-- A cause that is not deferred, met by a lane instruction that has done nothing but settle its group, traps precisely (R316). -/
theorem trapsL_of_finish {i : Instr} {s : State} {x : Option Srcs} {j : Info} (ht : TrapEnters s) (hd : j.cause.deferred = false)
    (hexec : exec i s = finish true false s.cur.laneAddr (encodeLane i) x s (.error (.fault j) (s.setCur s.cur.settle))) :
    TrapsL i s j.cause := by
  obtain ⟨rec, hrec, hraise⟩ := raiseTrap_enters (trapEnters_settle ht) true j s.cur.laneAddr (encodeLane i) s.cur.pc
  rw [State.cur_setCur, State.setCur_curG] at hraise
  exact ⟨rec, hrec, by rw [hexec, finish_traps hd, hraise]⟩

/-! Operands (R97, R202, R272) -/

theorem opStop_none {g : Group} {fields : List Nat} {dst src : List (Opnd × Nat)} (hregion : g.ln.inRegion = false)
    (hops : ∀ o ∈ dst ++ src, g.rg.opOk o.1 o.2 = true ∧ g.queueStop o.1 = none) : g.opStop fields dst src = none := by
  have hrange : ((dst ++ src).zip (dst.map (fun _ => 0) ++ fields)).find? (fun o => !g.rg.opOk o.1.1 o.1.2) = none := by
    refine List.find?_eq_none.2 fun o ho => ?_
    rw [(hops o.1 (List.of_mem_zip ho).1).1]
    decide
  unfold Group.opStop
  dsimp only
  rw [hregion, Bool.false_and, if_neg Bool.false_ne_true, hrange]
  exact List.findSome?_eq_none_iff.2 fun o ho => (hops o ho).2

/-! The run (R275 to R278) -/

/-- What `mxRun` does on the settled group, in order: the array's own conditions, the operands, the body, the pops and the next lane word. -/
def mxSteps (pre : Acc Unit) (fields : List Nat) (dst ops pops : List (Opnd × Nat))
    (body : (List (Opnd × Nat) → Acc Unit) → Srcs → Acc Unit) (x : Srcs) : Acc Unit := do
  pre
  checkOps fields dst ops
  body needData x
  modifyCur (fun g => (g.popAll pops).lpc1)

section

variable {i : Instr} {h : LHdr} {fields : List Nat} {dst ops pops reads : List (Opnd × Nat)} {src : Group → Nat → Srcs}
  {body : (List (Opnd × Nat) → Acc Unit) → Srcs → Acc Unit} {s : State} {v : Nat}

theorem badSrc_of_mxRuns (hmx : MxRuns h ops reads s v) : (s.setCur s.cur.settle).cur.badSrc reads = false := by
  obtain ⟨_, _, _, _, _, _, _, _, hdata⟩ := hmx
  rwa [State.cur_setCur]

/-- An instruction that runs is the body, on the settled group, and then the pops and the next lane word. -/
theorem mxRun_body (hmx : MxRuns h (dst ++ ops) reads s v) {r : EStateM.Result Stop State Unit}
    (hbody : (body needData (src s.cur.settle v)).run (s.setCur s.cur.settle) = r) :
    (mxSteps (pure ()) fields dst ops pops body (src s.cur.settle v)).run (s.setCur s.cur.settle) =
      match (generalizing := false) r with
      | .ok _ t => .ok () (t.setCur (t.cur.popAll pops).lpc1)
      | .error e t => .error e t := by
  obtain ⟨_, _, _, _, _, _, hregion, hops, _⟩ := hmx
  have hstop : (s.setCur s.cur.settle).cur.opStop fields dst ops = none := by
    rw [State.cur_setCur]
    exact opStop_none hregion hops
  rw [mxSteps, run_bind, run_pure]
  dsimp only
  rw [run_bind, run_checkOps hstop]
  dsimp only
  rw [run_bind, hbody]
  cases r <;> rfl

theorem mxRun_next (hmx : MxRuns h (dst ++ ops) reads s v) {t : State}
    (hbody : (body needData (src s.cur.settle v)).run (s.setCur s.cur.settle) = .ok () t) :
    mxRun i h (pure ()) fields dst ops pops src body s = .next (t.setCur (t.cur.popAll pops).lpc1) := by
  have hrun := mxRun_body (fields := fields) (pops := pops) hmx hbody
  unfold mxSteps at hrun
  obtain ⟨hnever, hrep, hlow, _, hguard, hdiv, _⟩ := hmx
  unfold mxRun
  rw [hrep]
  dsimp only
  rw [hnever, if_neg Bool.false_ne_true, hlow]
  dsimp only
  rw [show bitOf (s.cur.settle.guardMask h) v = true from hguard, hdiv, Bool.not_true, if_neg Bool.false_ne_true,
    if_neg Bool.false_ne_true, hrun]
  rfl

/-- A fault that the body raises before it has changed anything traps precisely, unless it is deferred. -/
theorem mxRun_traps (hmx : MxRuns h (dst ++ ops) reads s v) (hexec : exec i s = mxRun i h (pure ()) fields dst ops pops src body s)
    {j : Info} (hbody : (body needData (src s.cur.settle v)).run (s.setCur s.cur.settle) = .error (.fault j) (s.setCur s.cur.settle))
    (ht : TrapEnters s) (hd : j.cause.deferred = false) : TrapsL i s j.cause := by
  have hrun := mxRun_body (fields := fields) (pops := pops) hmx hbody
  unfold mxSteps at hrun
  obtain ⟨hnever, hrep, hlow, _, hguard, hdiv, _⟩ := hmx
  refine trapsL_of_finish (x := some (src s.cur.settle v)) ht hd ?_
  rw [hexec]
  unfold mxRun
  rw [hrep]
  dsimp only
  rw [hnever, if_neg Bool.false_ne_true, hlow]
  dsimp only
  rw [show bitOf (s.cur.settle.guardMask h) v = true from hguard, hdiv, Bool.not_true, if_neg Bool.false_ne_true,
    if_neg Bool.false_ne_true, hrun]

variable (hnever : h.never = false) (hrep : s.cur.replaying true = none)

include hnever hrep

/-- In a diverged group the instruction traps (R278). -/
theorem mxRun_diverged (hexec : exec i s = mxRun i h (pure ()) fields dst ops pops src body s)
    (hlow : s.cur.settle.ln.lowest s.cur.settle.ln.act = some v) (hguard : (s.cur.settle.guardMask h).getLsbD v = true)
    (hdiv : s.cur.settle.diverged = true) (ht : TrapEnters s) : TrapsL i s .mxDiverged := by
  refine trapsL_of_finish (j := { cause := .mxDiverged, here := true }) (x := none) ht rfl ?_
  rw [hexec]
  unfold mxRun
  rw [hrep]
  dsimp only
  rw [hnever, if_neg Bool.false_ne_true, hlow]
  dsimp only
  rw [show bitOf (s.cur.settle.guardMask h) v = true from hguard, hdiv, Bool.not_true, if_neg Bool.false_ne_true, if_pos rfl]

/-- Without an active thread, or with its guard false, the instruction only moves on (R275). -/
theorem mxRun_skips (hskip : s.cur.settle.ln.lowest s.cur.settle.ln.act = none ∨
      (s.cur.settle.ln.lowest s.cur.settle.ln.act = some v ∧ (s.cur.settle.guardMask h).getLsbD v = false)) :
    mxRun i h (pure ()) fields dst ops pops src body s = .next (s.setCur s.cur.lpc1) := by
  unfold mxRun
  rw [hrep]
  dsimp only
  rw [hnever, if_neg Bool.false_ne_true]
  rcases hskip with hlow | ⟨hlow, hguard⟩ <;> rw [hlow]
  dsimp only
  rw [show bitOf (s.cur.settle.guardMask h) v = false from hguard, Bool.not_false, if_pos rfl]

end

end Sys2Proof.Machine
end

section
/-! PROOFS. Scale registers: entries, the write with its bindings, the scale instructions (O54). -/

set_option Elab.async false

namespace Sys2Proof.Machine

/-! Entries (R117, R290) -/

theorem scaleEntry_scaleBuild (f : Nat → BitVec 16) {i : Nat} (hi : i < 32) : scaleEntry (scaleBuild f) i = f i := by
  apply BitVec.eq_of_toNat_eq
  rw [scaleEntry, scaleBuild, extract_packNat 16 32 512 _ rfl i hi, Nat.mod_eq_of_lt (f i).isLt]

/-- Bits 15:14 of an entry are zero while it is below 2^14. -/
theorem scaleEntry_top (e : BitVec 512) (i : Nat) : bitsOf e (16 * i + 14) 2 = (scaleEntry e i).toNat / 2 ^ 14 := by
  rw [scaleEntry, BitVec.extractLsb'_toNat, bitsOf_eq, Nat.shiftRight_eq_div_pow, Nat.pow_add, ← Nat.div_div_eq_div_mul]
  omega

theorem scaleBad_iff (e : BitVec 512) : scaleBad e = true ↔ ∃ i, i < 32 ∧ 2 ^ 14 ≤ (scaleEntry e i).toNat := by
  simp only [scaleBad, List.any_eq_true, List.mem_range, bne_iff_ne, scaleEntry_top]
  exact exists_congr fun i => and_congr_right fun _ => by omega

theorem scaleBad_eq_false (e : BitVec 512) : scaleBad e = false ↔ ∀ i, i < 32 → (scaleEntry e i).toNat < 2 ^ 14 := by
  rw [← Bool.not_eq_true, scaleBad_iff]
  simp only [not_exists, not_and, Nat.not_le]

/-- An entry from its upper field and its exponent. -/
theorem toNat_entry (k : BitVec 6) (x : BitVec 8) : (0#2 ++ k ++ x).toNat = k.toNat * 2 ^ 8 + x.toNat := by
  have hk : (0#2 ++ k).toNat = k.toNat := by rw [BitVec.toNat_append]; exact Nat.zero_or _
  rw [BitVec.toNat_append, hk, ← Nat.shiftLeft_add_eq_or_of_lt x.isLt, Nat.shiftLeft_eq]

theorem withExp_toNat (a : BitVec 16) (x : Nat) : (withExp a x).toNat = a.toNat / 2 ^ 8 % 2 ^ 6 * 2 ^ 8 + x % 2 ^ 8 := by
  rw [withExp, toNat_entry, BitVec.extractLsb'_toNat, Nat.shiftRight_eq_div_pow, BitVec.toNat_ofNat]

theorem withExp_lt (a : BitVec 16) (x : Nat) : (withExp a x).toNat < 2 ^ 14 := by
  rw [withExp_toNat]
  omega

theorem entExp_eq (a : BitVec 16) : entExp a = a.toNat % 2 ^ 8 := bitsOf_zero a 8

theorem fixExp_eq (sat : Bool) (x : Int) : fixExp sat x =
    if 0 ≤ x ∧ x ≤ 254 then x.toNat else if sat then (if x < 0 then 0 else 254) else 0xFF := by
  unfold fixExp
  split
  · rfl
  · split
    · split <;> omega
    · rfl

theorem fixExp_lt (sat : Bool) (x : Int) : fixExp sat x < 2 ^ 8 := by
  rw [fixExp_eq]
  split
  · omega
  · split
    · split <;> omega
    · omega

section

variable (a b : BitVec 512)

/-- New entries have bits 15:14 zero. -/
theorem scaleBad_each1 (f : Nat → Nat) : scaleBad (each1 a f) = false :=
  (scaleBad_eq_false _).2 fun i hi => by rw [each1, scaleEntry_scaleBuild _ hi]; exact withExp_lt ..

theorem scaleBad_each2 (f : Nat → Nat → Nat) : scaleBad (each2 a b f) = false :=
  (scaleBad_eq_false _).2 fun i hi => by rw [each2, scaleEntry_scaleBuild _ hi]; exact withExp_lt ..

variable {i : Nat} (hi : i < 32)

include hi

theorem scaleEntry_each1 {f : Nat → Nat} (hf : ∀ x, x < 2 ^ 8 → f x < 2 ^ 8) : (scaleEntry (each1 a f) i).toNat =
    (scaleEntry a i).toNat / 2 ^ 8 % 2 ^ 6 * 2 ^ 8 +
      if (scaleEntry a i).toNat % 2 ^ 8 = 0xFF then 0xFF else f ((scaleEntry a i).toNat % 2 ^ 8) := by
  rw [each1, scaleEntry_scaleBuild _ hi]
  dsimp only
  rw [withExp_toNat, entExp_eq]
  refine congrArg (_ + ·) (Nat.mod_eq_of_lt ?_)
  split
  · decide
  · exact hf _ (Nat.mod_lt _ (by decide))

theorem scaleEntry_each2 {f : Nat → Nat → Nat} (hf : ∀ x y, x < 2 ^ 8 → y < 2 ^ 8 → f x y < 2 ^ 8) : (scaleEntry (each2 a b f) i).toNat =
    (scaleEntry a i).toNat / 2 ^ 8 % 2 ^ 6 * 2 ^ 8 +
      if (scaleEntry a i).toNat % 2 ^ 8 = 0xFF ∨ (scaleEntry b i).toNat % 2 ^ 8 = 0xFF then 0xFF
      else f ((scaleEntry a i).toNat % 2 ^ 8) ((scaleEntry b i).toNat % 2 ^ 8) := by
  rw [each2, scaleEntry_scaleBuild _ hi]
  dsimp only
  rw [withExp_toNat, entExp_eq, entExp_eq]
  refine congrArg (_ + ·) (Nat.mod_eq_of_lt ?_)
  split
  · decide
  · exact hf _ _ (Nat.mod_lt _ (by decide)) (Nat.mod_lt _ (by decide))

end

/-! The greatest exponent (R290) -/

/-- One more exponent beside the greatest so far. -/
def topMerge (m : Option Nat) (x : Nat) : Option Nat := if x = 0xFF then m else some (max x (m.getD 0))

theorem topExp_eq (a : BitVec 512) :
    topExp a = (List.range 32).foldl (fun m i => topMerge m (entExp (scaleEntry a i))) none := rfl

section

variable {x : Nat → Nat} {m : Option Nat} {l : List Nat}

theorem foldl_topMerge {t : Nat} (hle : ∀ i ∈ l, x i = 0xFF ∨ x i ≤ t) (hm : m.getD 0 ≤ t)
    (ht : m = some t ∨ ∃ i ∈ l, x i ≠ 0xFF ∧ x i = t) : l.foldl (fun m i => topMerge m (x i)) m = some t := by
  induction l generalizing m with
  | nil => simpa using ht
  | cons i l ih =>
    obtain ⟨hi, hl⟩ := List.forall_mem_cons.1 hle
    rw [List.foldl_cons]
    by_cases hx : x i = 0xFF
    · rw [topMerge, if_pos hx]
      exact ih hl hm (ht.imp_right fun ⟨k, hk, hne, hkt⟩ =>
        ⟨k, (List.mem_cons.1 hk).resolve_left fun h => hne (h ▸ hx), hne, hkt⟩)
    · have hxt : x i ≤ t := hi.resolve_left hx
      rw [topMerge, if_neg hx]
      refine ih hl (Nat.max_le.2 ⟨hxt, hm⟩) ?_
      rcases ht with rfl | ⟨k, hk, hne, hkt⟩
      · exact .inl (congrArg some (Nat.max_eq_right hxt))
      · rcases List.mem_cons.1 hk with rfl | hk
        · exact .inl (congrArg some (by rw [hkt]; exact Nat.max_eq_left hm))
        · exact .inr ⟨k, hk, hne, hkt⟩

end

/-- An exponent that is not 0xFF and that no other exceeds is the greatest. -/
theorem topExp_eq_some {a : BitVec 512} {top : Nat} (htop : top < 32) (hne : entExp (scaleEntry a top) ≠ 0xFF)
    (hle : ∀ i, i < 32 → entExp (scaleEntry a i) = 0xFF ∨ entExp (scaleEntry a i) ≤ entExp (scaleEntry a top)) :
    topExp a = some (entExp (scaleEntry a top)) :=
  (topExp_eq a).trans <| foldl_topMerge (x := fun i => entExp (scaleEntry a i)) (fun i hi => hle i (List.mem_range.1 hi)) (Nat.zero_le _)
    (.inr ⟨top, List.mem_range.2 htop, hne, rfl⟩)

/-! The binding of a descriptor (R94, R104) -/

theorem bindTd_fields (x : W64) (e : BitVec 5) (tag : BitVec 12) : tdBvalid (bindTd x e tag) = true ∧ tdSreg (bindTd x e tag) = e ∧
    tdBtag (bindTd x e tag) = tag ∧ (bindTd x e tag).extractLsb' 0 46 = x.extractLsb' 0 46 := by
  have hassoc : bindTd x e tag = ((1#1 ++ e ++ tag ++ x.extractLsb' 0 46 : BitVec 64)) := rfl
  refine ⟨?_, ?_, ?_, ?_⟩
  · rw [tdBvalid, bitOf, hassoc, BitVec.getLsbD_append, BitVec.getLsbD_append, BitVec.getLsbD_append]
    rfl
  · simp (disch := omega) only [hassoc, tdSreg, BitVec.extractLsb'_append_eq_of_le]
    exact BitVec.extractLsb'_append_eq_right
  · simp (disch := omega) only [hassoc, tdBtag, BitVec.extractLsb'_append_eq_of_le]
    exact BitVec.extractLsb'_append_eq_right
  · exact BitVec.extractLsb'_append_eq_right

/-- A descriptor whose binding is no longer valid differs in that bit alone. -/
theorem unbound_fields (x : W64) : tdBvalid (putBit x 63 false) = false ∧ ∀ lo n, lo + n ≤ 63 → (putBit x 63 false).extractLsb' lo n = x.extractLsb' lo n :=
  ⟨getLsbD_putBit x false 63 (by decide), fun _ _ h => extract_putBits_other x _ (.inl h) (by omega)⟩

/-! The write of a scale register (R103, R104, R106, R279) -/

section

variable (r : RegSpace) (d : BitVec 5) (new : BitVec 512) (tiles : BitVec 16)

theorem scaleWrite_e (k : BitVec 5) : (r.scaleWrite d new tiles).e.getD k.toNat 0 = if k = d then new else r.e.getD k.toNat 0 := by
  rw [RegSpace.scaleWrite, getD_vset _ _ _ _ _ d.isLt]
  simp only [BitVec.toNat_inj]

theorem scaleWrite_etag (k : BitVec 5) : (r.scaleWrite d new tiles).etag.getD k.toNat 0 =
    if k = d then r.etag.getD d.toNat 0 + 1 else r.etag.getD k.toNat 0 := by
  rw [RegSpace.scaleWrite, getD_vset _ _ _ _ _ d.isLt]
  simp only [BitVec.toNat_inj]

theorem scaleWrite_ebad (k : BitVec 5) : (r.scaleWrite d new tiles).ebad.getLsbD k.toNat = (r.ebad.getLsbD k.toNat && k != d) := by
  rw [RegSpace.scaleWrite, getLsbD_putBit _ _ _ k.isLt]
  by_cases h : k = d
  · simp [h]
  · simp [h, BitVec.toNat_inj]

/-- A descriptor after a write: bound where it is named, else without its binding where the tag has wrapped (R104, R106). -/
theorem scaleWrite_tdesc (i : Fin 16) : (r.scaleWrite d new tiles).tdesc[i] =
    let tag := r.etag.getD d.toNat 0 + 1
    let td := if tag = 0 ∧ tdSreg r.tdesc[i] = d then putBit r.tdesc[i] 63 false else r.tdesc[i]
    if tiles.getLsbD i.val = true then bindTd td d tag else td := by
  unfold RegSpace.scaleWrite
  generalize r.etag.getD d.toNat 0 + 1 = tag
  by_cases ht : tag = 0
  · simp [ht, bitOf]
  · simp [show ¬ tag = 0#12 from ht, bitOf]

end

/-! What a scale instruction leaves (R279) -/

/-- The instruction writes the entries of E(d), advances its tag, binds the tiles that it names under `.rb`, moves to the next lane word and
changes nothing else. -/
def ScaleWrote (s : State) (d : BitVec 5) (rb : Bool) (tiles : BitVec 16) (i : Instr) (entry : Nat → Nat) : Prop :=
  let g := s.cur.settle
  let r := g.rg
  let tag := r.etag.getD d.toNat 0 + 1
  let named := fun (i : Fin 16) => rb = true ∧ tiles.getLsbD i.val = true
  ∃ t, exec i s = .next t ∧
    (∀ j, j < 32 → (scaleEntry (t.cur.rg.e.getD d.toNat 0) j).toNat = entry j) ∧
    (∀ e : BitVec 5, e ≠ d → t.cur.rg.e.getD e.toNat 0 = r.e.getD e.toNat 0 ∧ t.cur.rg.etag.getD e.toNat 0 = r.etag.getD e.toNat 0) ∧
    t.cur.rg.etag.getD d.toNat 0 = tag ∧ (∀ e : BitVec 5, t.cur.rg.ebad.getLsbD e.toNat = (r.ebad.getLsbD e.toNat && e != d)) ∧
    (∀ i : Fin 16, named i → tdBvalid t.cur.rg.tdesc[i] = true ∧ tdSreg t.cur.rg.tdesc[i] = d ∧ tdBtag t.cur.rg.tdesc[i] = tag ∧
      t.cur.rg.tdesc[i].toNat % 2 ^ 46 = r.tdesc[i].toNat % 2 ^ 46) ∧
    (∀ i : Fin 16, ¬ named i → tag ≠ 0 ∨ tdSreg r.tdesc[i] ≠ d → t.cur.rg.tdesc[i] = r.tdesc[i]) ∧
    (∀ i : Fin 16, ¬ named i → tag = 0 → tdSreg r.tdesc[i] = d → tdBvalid t.cur.rg.tdesc[i] = false) ∧
    t = s.setCur { g with ln := { g.ln with lpc := g.ln.lpc + 1 }, rg := { r with
      e := t.cur.rg.e, ebad := t.cur.rg.ebad, etag := t.cur.rg.etag, tdesc := t.cur.rg.tdesc } }

theorem scaleWrote_of_next {s : State} {d : BitVec 5} {rb : Bool} {tiles : BitVec 16} {i : Instr} {entry : Nat → Nat} {new : BitVec 512}
    (hexec : exec i s = .next (s.setCur
      { s.cur.settle with rg := s.cur.settle.rg.scaleWrite d new (if rb then tiles else 0) }.lpc1))
    (hentry : ∀ j, j < 32 → (scaleEntry new j).toNat = entry j) : ScaleWrote s d rb tiles i entry := by
  have hnamed (k : Fin 16) : (if rb then tiles else 0).getLsbD k.val = true ↔ rb = true ∧ tiles.getLsbD k.val = true := by
    cases rb <;> simp
  refine ⟨_, hexec, ?_⟩
  rw [State.cur_setCur]
  dsimp only [Group.lpc1_rg]
  obtain ⟨r, hr⟩ : ∃ r, r = s.cur.settle.rg := ⟨_, rfl⟩
  rw [← hr]
  refine ⟨fun j hj => ?_, fun e he => ⟨?_, ?_⟩, ?_, fun e => scaleWrite_ebad .., fun k hk => ?_, fun k hk ht => ?_, fun k hk ht hs => ?_, ?_⟩
  · rw [scaleWrite_e, if_pos rfl, hentry j hj]
  · rw [scaleWrite_e, if_neg he]
  · rw [scaleWrite_etag, if_neg he]
  · rw [scaleWrite_etag, if_pos rfl]
  · rw [scaleWrite_tdesc, if_pos ((hnamed k).2 hk)]
    obtain ⟨hvalid, hsreg, hbtag, hlow⟩ := bindTd_fields
      (if r.etag.getD d.toNat 0 + 1 = 0 ∧ tdSreg r.tdesc[k] = d then putBit r.tdesc[k] 63 false else r.tdesc[k]) d (r.etag.getD d.toNat 0 + 1)
    refine ⟨hvalid, hsreg, hbtag, ?_⟩
    rw [toNat_mod_eq_extract, hlow, toNat_mod_eq_extract]
    split
    · rw [(unbound_fields _).2 0 46 (by omega)]
    · rfl
  · rw [scaleWrite_tdesc, if_neg (fun h => hk ((hnamed k).1 h))]
    exact if_neg fun h => ht.elim (fun h1 => h1 h.1) (fun h2 => h2 h.2)
  · rw [scaleWrite_tdesc, if_neg (fun h => hk ((hnamed k).1 h))]
    rw [if_pos ⟨ht, hs⟩]
    exact (unbound_fields _).1
  · rw [hr]
    rfl

/-! The shared run of the scale instructions -/

section

variable {i : Instr} {s : State} {h : LHdr} {ops : List (Opnd × Nat)} {es : List (BitVec 5)} {d : BitVec 5} {rb : Bool} {tiles : BitVec 16}
  {new : RegSpace → BitVec 512} {v : Nat}

theorem run_needScale {s : State} {e : BitVec 5} (he : s.cur.rg.ebad.getLsbD e.toNat = false) : (needScale e).run s = .ok () s := by
  rw [needScale, run_bind, run_getCur]
  dsimp only
  rw [show bitOf s.cur.rg.ebad e.toNat = false from he]
  rfl

/-- A scale register that could not be corrected is not consumed (R335). -/
theorem run_needScale_bad {s : State} {e : BitVec 5} (he : s.cur.rg.ebad.getLsbD e.toNat = true) :
    (needScale e).run s = .error (.fault { cause := .dataError, here := true }) s := by
  rw [needScale, run_bind, run_getCur]
  dsimp only
  rw [show bitOf s.cur.rg.ebad e.toNat = true from he]
  rfl

theorem run_needScales {s : State} {es : List (BitVec 5)} (hes : ∀ e ∈ es, s.cur.rg.ebad.getLsbD e.toNat = false) :
    (es.forM needScale).run s = .ok () s := by
  induction es with
  | nil => rfl
  | cons e es ih =>
    obtain ⟨he, hes⟩ := List.forall_mem_cons.1 hes
    change (needScale e >>= fun _ => es.forM needScale).run s = _
    rw [run_bind, run_needScale he]
    exact ih hes

theorem run_needScales_bad {s : State} {e : BitVec 5} {es : List (BitVec 5)} (he : s.cur.rg.ebad.getLsbD e.toNat = true) :
    ((e :: es).forM needScale).run s = .error (.fault { cause := .dataError, here := true }) s := by
  change (needScale e >>= fun _ => es.forM needScale).run s = _
  rw [run_bind, run_needScale_bad he]

variable (hmx : MxRuns h ops ops s v) (hexec : exec i s = scaleRun i h ops es d rb tiles new s)

include hmx hexec

theorem scaleRun_next (hes : ∀ e ∈ es, s.cur.settle.rg.ebad.getLsbD e.toNat = false) (hnew : scaleBad (new s.cur.settle.rg) = false) :
    exec i s = .next (s.setCur
      { s.cur.settle with rg := s.cur.settle.rg.scaleWrite d (new s.cur.settle.rg) (if rb then tiles else 0) }.lpc1) := by
  rw [hexec]
  refine (mxRun_next (t := s.setCur { s.cur.settle with
    rg := s.cur.settle.rg.scaleWrite d (new s.cur.settle.rg) (if rb then tiles else 0) }) hmx ?_).trans ?_
  · rw [run_bind, run_needData (badSrc_of_mxRuns hmx)]
    dsimp only
    rw [run_bind, run_needScales (by rwa [State.cur_setCur])]
    dsimp only
    rw [run_bind, run_getCur]
    dsimp only
    rw [State.cur_setCur, hnew, if_neg Bool.false_ne_true, run_modifyCur, State.setCur_setCur, State.cur_setCur]
  · rw [State.cur_setCur, State.setCur_setCur]
    rfl

theorem scaleRun_dataError {e : BitVec 5} (hes : es = e :: es.tail) (he : s.cur.settle.rg.ebad.getLsbD e.toNat = true) (ht : TrapEnters s) :
    TrapsL i s .dataError := by
  refine mxRun_traps (j := { cause := .dataError, here := true }) hmx hexec ?_ ht rfl
  rw [run_bind, run_needData (badSrc_of_mxRuns hmx), hes]
  dsimp only
  rw [run_bind, run_needScales_bad (by rwa [State.cur_setCur])]

theorem scaleRun_scaleFormat (hes : ∀ e ∈ es, s.cur.settle.rg.ebad.getLsbD e.toNat = false) (hnew : scaleBad (new s.cur.settle.rg) = true)
    (ht : TrapEnters s) : TrapsL i s .scaleFormat := by
  refine mxRun_traps (j := { cause := .scaleFormat, here := true }) hmx hexec ?_ ht rfl
  rw [run_bind, run_needData (badSrc_of_mxRuns hmx)]
  dsimp only
  rw [run_bind, run_needScales (by rwa [State.cur_setCur])]
  dsimp only
  rw [run_bind, run_getCur]
  dsimp only
  rw [State.cur_setCur, hnew, if_pos rfl]
  rfl

end

/-! The instructions (R279, R290, R291) -/

theorem extract5_setWidth {w : Nat} (a : BitVec 5) (hw : 5 ≤ w) : (a.setWidth w).extractLsb' 0 5 = a := by
  apply BitVec.eq_of_toNat_eq
  have ha : a.toNat < 2 ^ w := Nat.lt_of_lt_of_le a.isLt (Nat.pow_le_pow_right (by decide) hw)
  rw [BitVec.extractLsb'_toNat, BitVec.toNat_setWidth, Nat.shiftRight_zero, Nat.mod_eq_of_lt ha, Nat.mod_eq_of_lt a.isLt]

section

variable (s : State) (h : LHdr) (d a b : BitVec 5) (k : BitVec 12) (sat rb : Bool) (tiles : BitVec 16) (vr : BitVec 10) (sp : BitVec 6)

/-- The forms of the instructions that write a scale register, with `sbind`. -/
def scaleInstrs : List Instr :=
  [.sadd h d a (b.setWidth 12) true sat rb tiles, .sadd h d a k false sat rb tiles, .smax h d a b rb tiles, .smin h d a b rb tiles,
    .srebias h d a k sat rb tiles, .smov h d .cp (a.setWidth 10) 0 rb tiles, .smov h d .sp (a.setWidth 10) sp rb tiles, .sbind h d tiles]

theorem exec_saddReg : exec (.sadd h d a (b.setWidth 12) true sat rb tiles) s =
    scaleRun (.sadd h d a (b.setWidth 12) true sat rb tiles) h [] [a, b] d rb tiles
      (fun r => each2 (r.ereg a) (r.ereg b) (fun x y => fixExp sat ((x : Int) + y - 127))) s := by
  change execSadd h d a (b.setWidth 12) true sat rb tiles s = _
  rw [execSadd, extract5_setWidth b (by decide)]
  rfl

theorem exec_saddImm : exec (.sadd h d a k false sat rb tiles) s = scaleRun (.sadd h d a k false sat rb tiles) h [] [a] d rb tiles
    (fun r => each1 (r.ereg a) (fun x => fixExp sat (x + k.toInt))) s := rfl

theorem exec_smax : exec (.smax h d a b rb tiles) s = scaleRun (.smax h d a b rb tiles) h [] [a, b] d rb tiles
    (fun r => each2 (r.ereg a) (r.ereg b) max) s := rfl

theorem exec_smin : exec (.smin h d a b rb tiles) s = scaleRun (.smin h d a b rb tiles) h [] [a, b] d rb tiles
    (fun r => each2 (r.ereg a) (r.ereg b) min) s := rfl

theorem exec_srebias : exec (.srebias h d a k sat rb tiles) s = scaleRun (.srebias h d a k sat rb tiles) h [] [a] d rb tiles
    (fun r => each1 (r.ereg a) (fun e => fixExp sat ((e : Int) - (topExp (r.ereg a)).getD 0 + k.toNat))) s := rfl

theorem exec_smovCp : exec (.smov h d .cp (a.setWidth 10) 0 rb tiles) s = scaleRun (.smov h d .cp (a.setWidth 10) 0 rb tiles) h [] [a] d
    rb tiles (fun r => each1 (r.ereg a) id) s := by
  change scaleRun _ h [] [(a.setWidth 10).extractLsb' 0 5] d rb tiles
    (fun r => each1 (r.ereg ((a.setWidth 10).extractLsb' 0 5)) id) s = _
  rw [extract5_setWidth a (by decide)]

theorem exec_smovSp : exec (.smov h d .sp (a.setWidth 10) sp rb tiles) s = scaleRun (.smov h d .sp (a.setWidth 10) sp rb tiles) h [] [a] d
    rb tiles (fun r => scaleBuild (fun i => 0#2 ++ sp ++ (scaleEntry (r.ereg a) i).extractLsb' 0 8)) s := by
  change scaleRun _ h [] [(a.setWidth 10).extractLsb' 0 5] d rb tiles
    (fun r => scaleBuild (fun i => 0#2 ++ sp ++ (scaleEntry (r.ereg ((a.setWidth 10).extractLsb' 0 5)) i).extractLsb' 0 8)) s = _
  rw [extract5_setWidth a (by decide)]

theorem exec_smovVec : exec (.smov h d .vec vr 0 rb tiles) s = scaleRun (.smov h d .vec vr 0 rb tiles) h [(.vec vr, 1)] [] d rb tiles
    (fun r => scaleBuild (fun i => (vword (r.row (r.vrow vr.toNat)) i).extractLsb' 0 16)) s := rfl

/-- `sbind` binds with the tag as it stands (R291). -/
def RegSpace.bindTiles (r : RegSpace) : RegSpace :=
  { r with tdesc := Vector.ofFn (fun i : Fin 16 => if tiles.getLsbD i.val then bindTd r.tdesc[i] d (r.etag.getD d.toNat 0) else r.tdesc[i]) }

theorem exec_sbind : exec (.sbind h d tiles) s = mxRun (.sbind h d tiles) h (pure ()) [] [] [] [] (mxSrcs .zero [])
    (fun _ _ => modifyCur (fun g => { g with rg := g.rg.bindTiles d tiles })) s := rfl

variable {s h d a b k sat rb tiles vr sp} {v : Nat}

theorem exec_sbind_next (hmx : MxRuns h [] [] s v) : exec (.sbind h d tiles) s =
    .next (s.setCur { s.cur.settle with rg := s.cur.settle.rg.bindTiles d tiles }.lpc1) := by
  rw [exec_sbind]
  refine (mxRun_next (t := s.setCur { s.cur.settle with rg := s.cur.settle.rg.bindTiles d tiles }) hmx ?_).trans ?_
  · rw [run_modifyCur, State.cur_setCur, State.setCur_setCur]
  · rw [State.cur_setCur, State.setCur_setCur]
    rfl

/-- Each of the forms but `sbind` is a run of `scaleRun` that reads E(a) first. -/
theorem scaleInstrs_run {i : Instr} (hi : i ∈ scaleInstrs h d a b k sat rb tiles sp) (hne : i ≠ .sbind h d tiles) :
    ∃ es new, exec i s = scaleRun i h [] (a :: es) d rb tiles new s := by
  simp only [scaleInstrs, List.mem_cons, List.not_mem_nil, or_false] at hi
  rcases hi with rfl | rfl | rfl | rfl | rfl | rfl | rfl | rfl
  · exact ⟨_, _, exec_saddReg ..⟩
  · exact ⟨_, _, exec_saddImm ..⟩
  · exact ⟨_, _, exec_smax ..⟩
  · exact ⟨_, _, exec_smin ..⟩
  · exact ⟨_, _, exec_srebias ..⟩
  · exact ⟨_, _, exec_smovCp ..⟩
  · exact ⟨_, _, exec_smovSp ..⟩
  · exact absurd rfl hne

theorem scaleInstrs_mxRun {i : Instr} (hi : i ∈ scaleInstrs h d a b k sat rb tiles sp) :
    ∃ fields body, exec i s = mxRun i h (pure ()) fields [] [] [] (mxSrcs .zero []) body s := by
  by_cases hne : i = .sbind h d tiles
  · exact ⟨_, _, hne ▸ exec_sbind ..⟩
  · obtain ⟨_, _, hexec⟩ := scaleInstrs_run (s := s) hi hne
    exact ⟨_, _, hexec⟩

end

/-- Settles O54: what a form writes is `scaleWrote_of_next` of its entries (`scaleEntry_each1`, `scaleEntry_each2`); where it stops or only
moves on is the shared run's (`mxRun_diverged`, `mxRun_skips`, `scaleRun_dataError`, `scaleRun_scaleFormat`). -/
theorem scaleRegisters : Obligations.ScaleRegisters := by
  intro s h d a b k v sat rb tiles vr sp g r ent ex hi fix tag named fine wrote two add all
  have hfix (x : Int) : fixExp sat x = fix x := fixExp_eq sat x
  refine ⟨fun hmx => ⟨fun ha hb => ⟨?_, ?_, ?_⟩, fun ha => ⟨?_, fun top htop hne hle => ?_, fun hall => ?_, ?_, ?_⟩, fun ha ht i hi hne => ?_, ?_⟩,
    fun hmx => ?_, fun hnever hrep hlow hguard hdiv _ ht i hi => ?_, fun hnever hrep hskip i hi => ?_⟩
  · refine scaleWrote_of_next (scaleRun_next hmx (exec_saddReg ..) (by simpa using ⟨ha, hb⟩) (scaleBad_each2 ..)) fun j hj => ?_
    rw [scaleEntry_each2 _ _ hj fun _ _ _ _ => fixExp_lt ..]
    simp only [hfix]
    rfl
  · refine scaleWrote_of_next (scaleRun_next hmx (exec_smax ..) (by simpa using ⟨ha, hb⟩) (scaleBad_each2 ..)) fun j hj => ?_
    exact scaleEntry_each2 _ _ hj fun _ _ hx hy => Nat.max_lt.2 ⟨hx, hy⟩
  · refine scaleWrote_of_next (scaleRun_next hmx (exec_smin ..) (by simpa using ⟨ha, hb⟩) (scaleBad_each2 ..)) fun j hj => ?_
    exact scaleEntry_each2 _ _ hj fun _ _ hx _ => Nat.lt_of_le_of_lt (Nat.min_le_left ..) hx
  · refine scaleWrote_of_next (scaleRun_next hmx (exec_saddImm ..) (by simpa using ha) (scaleBad_each1 ..)) fun j hj => ?_
    rw [scaleEntry_each1 _ hj fun _ _ => fixExp_lt ..]
    simp only [hfix]
    rfl
  · have hmax : topExp (r.ereg a) = some (ex a top) := by
      have hent (i : Nat) : entExp (scaleEntry (r.ereg a) i) = ex a i := entExp_eq _
      have := topExp_eq_some (a := r.ereg a) htop (by rw [hent]; exact hne) fun i hi => by rw [hent, hent]; exact hle i hi
      rw [this, hent]
    refine scaleWrote_of_next (scaleRun_next hmx (exec_srebias ..) (by simpa using ha) (scaleBad_each1 ..)) fun j hj => ?_
    rw [scaleEntry_each1 _ hj fun _ _ => fixExp_lt .., show topExp (s.cur.settle.rg.ereg a) = some (ex a top) from hmax]
    simp only [hfix]
    rfl
  · refine scaleWrote_of_next (scaleRun_next hmx (exec_srebias ..) (by simpa using ha) (scaleBad_each1 ..)) fun j hj => ?_
    have hff : (scaleEntry (s.cur.settle.rg.ereg a) j).toNat % 2 ^ 8 = 0xFF := hall j hj
    rw [scaleEntry_each1 _ hj fun _ _ => fixExp_lt .., if_pos hff]
    change _ = (scaleEntry (s.cur.settle.rg.ereg a) j).toNat % 2 ^ 14
    omega
  · refine scaleWrote_of_next (scaleRun_next hmx (exec_smovSp ..) (by simpa using ha) ((scaleBad_eq_false _).2 fun j hj => ?_)) fun j hj => ?_
    · rw [scaleEntry_scaleBuild _ hj, toNat_entry]
      omega
    · rw [scaleEntry_scaleBuild _ hj, toNat_entry, ← toNat_mod_eq_extract]
      rfl
  · refine scaleWrote_of_next (scaleRun_next hmx (exec_smovCp ..) (by simpa using ha) (scaleBad_each1 ..)) fun j hj => ?_
    rw [scaleEntry_each1 (f := id) _ hj fun x hx => hx]
    change _ = (scaleEntry (s.cur.settle.rg.ereg a) j).toNat % 2 ^ 14
    simp only [id]
    split <;> omega
  · obtain ⟨es, new, hexec⟩ := scaleInstrs_run (s := s) hi hne
    exact scaleRun_dataError hmx hexec rfl (by simpa [fine] using ha) ht
  · rw [exec_sbind_next hmx, show tag - 1 = r.etag.getD d.toNat 0 from BitVec.add_sub_cancel ..]
    rfl
  · intro word
    have hentry (i : Nat) (hi : i < 32) : (scaleEntry (scaleBuild (fun i => (vword (s.cur.settle.rg.row (s.cur.settle.rg.vrow vr.toNat)) i).extractLsb' 0 16)) i).toNat =
        word i := by
      rw [scaleEntry_scaleBuild _ hi, ← toNat_mod_eq_extract]
    refine ⟨fun hw => scaleWrote_of_next (scaleRun_next hmx (exec_smovVec ..) (by simp) ((scaleBad_eq_false _).2 fun i hi => ?_)) hentry,
      fun ⟨i, hi, hw⟩ ht => scaleRun_scaleFormat hmx (exec_smovVec ..) (by simp) ((scaleBad_iff _).2 ⟨i, hi, ?_⟩) ht⟩
    · rw [hentry i hi]
      exact hw i hi
    · rw [hentry i hi]
      exact hw
  · obtain ⟨_, _, hexec⟩ := scaleInstrs_mxRun (s := s) hi
    exact mxRun_diverged hnever hrep hexec hlow hguard hdiv ht
  · obtain ⟨_, _, hexec⟩ := scaleInstrs_mxRun (s := s) hi
    rw [hexec]
    exact mxRun_skips hnever hrep (hskip.imp_right fun ⟨h1, _, h2⟩ => ⟨h1, h2⟩)

end Sys2Proof.Machine
end


section
/-! PROOFS. Tokens, power, granules, errors, boot, the mantel and the debug port (O60). -/

set_option Elab.async false

namespace Sys2Proof.Machine

/-! Tokens -/

/-- The best entry so far, which a later one replaces where it beats it. -/
def higherOf {α : Type} {w : Nat} (f : α → BitVec w) (b : Option α) (k : α) : Option α :=
  match b with
  | none => some k
  | some x => if (f x).ult (f k) then some k else some x

/-- Keeping the best so far ends with an entry that none beats. -/
theorem foldl_higherOf {α : Type} {w : Nat} (f : α → BitVec w) (l : List α) (b : Option α) {c : α}
    (h : l.foldl (higherOf f) b = some c) :
    (c ∈ l ∨ b = some c) ∧ (∀ k ∈ l, (f k).toNat ≤ (f c).toNat) ∧ ∀ k, b = some k → (f k).toNat ≤ (f c).toNat := by
  induction l generalizing b with
  | nil =>
    obtain rfl : b = some c := h
    simp
  | cons a l ih =>
    obtain ⟨hmem, hall, hb⟩ := ih _ h
    cases b with
    | none =>
      have ha := hb a rfl
      exact ⟨.inl (by rcases hmem with h | h <;> simp_all [higherOf]), by simpa [ha] using hall, by simp⟩
    | some x =>
      by_cases hx : (f x).ult (f a) = true
      · have ha := hb a (if_pos hx)
        have hlt : (f x).toNat < (f a).toNat := by simpa [BitVec.ult] using hx
        refine ⟨.inl ?_, by simpa [ha] using hall, fun k hk => ?_⟩
        · rcases hmem with h | h
          · exact .tail _ h
          · simp_all [higherOf]
        · obtain rfl : x = k := by simpa using hk
          omega
      · have ha := hb x (if_neg hx)
        have hle : (f a).toNat ≤ (f x).toNat := by simpa [BitVec.ult] using hx
        refine ⟨?_, fun k hk => ?_, fun k hk => ?_⟩
        · rcases hmem with h | h
          · exact .inl (.tail _ h)
          · exact .inr (by simpa [higherOf, hx] using h)
        · rcases List.mem_cons.mp hk with rfl | hk
          · omega
          · exact hall k hk
        · obtain rfl : x = k := by simpa using hk
          exact ha

/-- R311: the request that the next free token serves. -/
theorem tokenNext_spec {s : State} {d : BitVec 3} {c : BitVec 10} (h : tokenNext s d = some c) :
    let l := (s.die d).tokQ.filter (fun k => (s.core k).mx.waiting)
    c ∈ l ∧ ((∃ k ∈ l, 64 ≤ (s.core k).mx.passed.toNat) → 64 ≤ (s.core c).mx.passed.toNat) ∧
      ((∀ k ∈ l, (s.core k).mx.passed.toNat < 64) → ∀ k ∈ l, (s.reqClass k).toNat ≤ (s.reqClass c).toNat) := by
  intro l
  unfold tokenNext at h
  extract_lets at h
  cases hf : l.find? (fun c => decide (64 ≤ (s.core c).mx.passed.toNat)) with
  | some k =>
    rw [hf] at h
    obtain rfl : k = c := Option.some.inj h
    have hk : 64 ≤ (s.core k).mx.passed.toNat := by simpa using List.find?_some hf
    have hm := List.mem_of_find?_eq_some hf
    exact ⟨hm, fun _ => hk, fun hall => absurd (hall k hm) (by omega)⟩
  | none =>
    rw [hf] at h
    have hbest : l.foldl (higherOf s.reqClass) none = some c :=
      (congrArg (l.foldl · none) (by funext b c; cases b <;> rfl)).trans h
    obtain ⟨hmem, hall, -⟩ := foldl_higherOf s.reqClass l none hbest
    refine ⟨hmem.resolve_right (by simp), fun ⟨k, hk, hp⟩ => ?_, fun _ => hall⟩
    simpa [hp] using List.find?_eq_none.mp hf k hk

theorem tokenNext_none {s : State} {d : BitVec 3} (h : (s.die d).tokQ.filter (fun k => (s.core k).mx.waiting) = []) :
    tokenNext s d = none := by
  simp [tokenNext, h]

/-- Requests passed over by a grant: each core of a list counts one more for each time that it stands there. -/
def passOvers (l : List (BitVec 10)) (s : State) : State :=
  l.foldl (fun s k => s.setCore k { s.core k with mx := (s.core k).mx.passOver }) s

theorem passOvers_eq (l : List (BitVec 10)) (s : State) : passOvers l s = { s with cores := (passOvers l s).cores } := by
  induction l generalizing s with
  | nil => rfl
  | cons a l ih =>
    simp only [passOvers, List.foldl_cons] at ih ⊢
    rw [ih]; rfl

theorem core_passOvers_other (l : List (BitVec 10)) (s : State) {k : BitVec 10} (h : k ∉ l) :
    (passOvers l s).core k = s.core k := by
  induction l generalizing s with
  | nil => rfl
  | cons a l ih =>
    obtain ⟨hka, hkl⟩ : k ≠ a ∧ k ∉ l := by simpa using h
    calc (passOvers (a :: l) s).core k
        = (s.setCore a { s.core a with mx := (s.core a).mx.passOver }).core k := ih _ hkl
      _ = s.core k := State.core_setCore_other s _ hka

theorem core_passOvers (l : List (BitVec 10)) (s : State) (hl : l.Nodup) {k : BitVec 10} (h : k ∈ l) :
    (passOvers l s).core k = { s.core k with mx := (s.core k).mx.passOver } := by
  induction l generalizing s with
  | nil => simp at h
  | cons a l ih =>
    obtain ⟨hal, hnd⟩ := List.nodup_cons.mp hl
    rcases List.mem_cons.mp h with rfl | hk
    · exact (core_passOvers_other l _ hal).trans (State.core_setCore_same s _ _)
    · have hka : k ≠ a := fun e => hal (e ▸ hk)
      exact (ih _ hnd hk).trans (by rw [State.core_setCore_other s _ hka])

/-- TOKEN_GRANT of the request that stands first. -/
theorem grantToken_spec (s : State) (d : BitVec 3) (c : BitVec 10) (hc : c.extractLsb' 7 3 = d) :
    let rest := (s.die d).tokQ.filter (fun k => k != c && (s.core k).mx.waiting)
    let t := s.grantToken c
    t.core c = { s.core c with mx := { (s.core c).mx with token := true, waiting := false, reqs := [] } } ∧
      t.die d = { s.die d with pool := (s.die d).pool - 1, tokQ := rest } ∧
      ((s.die d).tokQ.Nodup → ∀ k ∈ rest, t.core k = { s.core k with mx := (s.core k).mx.passOver }) ∧
      (∀ k : BitVec 10, k ≠ c → k ∉ rest → t.core k = s.core k) ∧ t = { s with cores := t.cores, dies := t.dies } := by
  subst hc
  intro rest t
  have ht : t = ((passOvers rest s).setDie (c.extractLsb' 7 3) { (passOvers rest s).die (c.extractLsb' 7 3) with
      tokQ := rest, pool := ((passOvers rest s).die (c.extractLsb' 7 3)).pool - 1 }).setCore c
    { (passOvers rest s).core c with mx := { ((passOvers rest s).core c).mx with token := true, waiting := false, reqs := [] } } := rfl
  have hcr : c ∉ rest := by simp [rest]
  have hd : (passOvers rest s).die (c.extractLsb' 7 3) = s.die (c.extractLsb' 7 3) := by rw [passOvers_eq]; rfl
  have hother : ∀ k, k ≠ c → t.core k = (passOvers rest s).core k := fun k hk => by
    rw [ht, State.core_setCore_other _ _ hk]; rfl
  refine ⟨?_, ?_, fun hnd k hk => ?_, fun k hk hkr => ?_, ?_⟩
  · rw [ht, State.core_setCore_same, core_passOvers_other rest s hcr]
  · rw [ht, hd]; simp
  · rw [hother k (fun e => hcr (e ▸ hk)), core_passOvers rest s (hnd.filter _) hk]
  · rw [hother k hk, core_passOvers_other rest s hkr]
  · rw [ht, passOvers_eq]; rfl

theorem exec_tokenGrant_none {s : State} {d : BitVec 3} (h : (s.die d).pool = 0 ∨ tokenNext s d = none) :
    exec (.tokenGrant d) s = .next s := by
  show execTokenGrant d s = _
  unfold execTokenGrant
  split
  · rfl
  · next hp => rw [h.resolve_left hp]

theorem exec_tokenGrant {s : State} {d : BitVec 3} {c : BitVec 10} (h : tokenNext s d = some c) (hp : (s.die d).pool ≠ 0) :
    exec (.tokenGrant d) s = .next (s.grantToken c) := by
  show execTokenGrant d s = _
  rw [execTokenGrant, if_neg hp, h]

theorem exec_tokenRequestPromote (s : State) (core : BitVec 10) :
    exec (.tokenRequestPromote core) s = .next (if (s.core core).mx.waiting = true ∧ 64 ≤ (s.core core).mx.passed.toNat then
      s.setDie (core.extractLsb' 7 3) { s.die (core.extractLsb' 7 3) with
        tokQ := core :: (s.die (core.extractLsb' 7 3)).tokQ.filter (fun c => c != core) } else s) := by
  show execTokenRequestPromote core s = _
  simp only [execTokenRequestPromote, Bool.and_eq_true, decide_eq_true_eq]

/-! The start of a lane block, boosts and granules -/

theorem exec_issueBoost (s : State) (gid : Gid) (lane : Bool) :
    exec (.issueBoost gid lane) s = .next (if s.streamReady gid lane = true then s.setGroup gid (if lane = true then
      { s.group gid with ln := { (s.group gid).ln with boost := true, passed := 64 } }
      else { s.group gid with boost := true, passed := 64 }) else s) := rfl

/-- A scalar stream that waits at a barrier is not ready before its phase is done. -/
theorem streamReady_bar {s : State} {gid : Gid} {b : BarId} {p : Nat} (hw : (s.group gid).wait = .bar b p)
    (hr : (s.group gid).replaying false = none) (hp : s.phaseDone gid b p = false) : s.streamReady gid false = false := by
  simp [State.streamReady, hw, hr, hp]

theorem exec_granuleWake {s : State} {gid : Gid} (hl : (s.group gid).live = true) (k : BitVec 5) :
    exec (.granuleWake gid k) s = .next (s.setGroup gid { s.group gid with rg := { (s.group gid).rg with
      drowsy := putBit (s.group gid).rg.drowsy k.toNat false } }) := by
  show execGranuleWake gid k s = _
  simp [execGranuleWake, hl]

theorem exec_granuleDrowsy {s : State} {gid : Gid} {k : BitVec 5} (hl : (s.group gid).live = true)
    (hi : (∃ d t u, (s.group gid).st = .parked d t u) ∨ (∃ y, (s.group gid).st = .yielded y))
    (ht : (s.core gid.core).rfDrowsy.extractLsb' 0 32 ≠ 0#32) (hk : k.toNat < (s.group gid).rg.granules.toNat)
    (hd : (s.group gid).resultsDue = false) :
    exec (.granuleDrowsy gid k) s = .next (s.setGroup gid { s.group gid with rg := { (s.group gid).rg with
      drowsy := putBit (s.group gid).rg.drowsy k.toNat true } }) := by
  show execGranuleDrowsy gid k s = _
  rcases hi with ⟨d, t, u, hst⟩ | ⟨y, hst⟩ <;> simp [execGranuleDrowsy, hl, hst, ht, hk, hd]

theorem exec_granuleDrowsy_none {s : State} {gid : Gid} {k : BitVec 5}
    (h : (s.group gid).resultsDue = true ∨ (s.core gid.core).rfDrowsy.extractLsb' 0 32 = 0#32) :
    exec (.granuleDrowsy gid k) s = .next s := by
  show execGranuleDrowsy gid k s = _
  rcases h with h | h <;> simp [execGranuleDrowsy, h]

theorem exec_laneBlockStart {s : State} {gid : Gid} (hl : (s.group gid).live = true) (hh : (s.group gid).h.halted = false) :
    exec (.laneBlockStart gid) s = .next (s.setGroup gid (s.group gid).startBlock) := by
  show execLaneBlockStart gid s = _
  simp [execLaneBlockStart, hl, hh]

theorem startBlock_exited {g : Group} {w : BitVec 20} {tl : List (BitVec 20)} (hq : g.ln.runQ = w :: tl) (ha : g.ln.active = false)
    (he : g.ln.exited = BitVec.allOnes 64) : g.startBlock = { g with ln := { g.ln with runQ := tl } } := by
  simp [Group.startBlock, hq, ha, he]

theorem startBlock_runs {g : Group} {w : BitVec 20} {tl : List (BitVec 20)} (hq : g.ln.runQ = w :: tl) (ha : g.ln.active = false)
    (he : g.ln.exited ≠ BitVec.allOnes 64) : g.startBlock =
      { g with ln := { g.ln with runQ := tl, active := true, lpc := w, run := ~~~g.ln.exited, stack := [] } } := by
  rw [Group.startBlock, hq]
  simp only [ha, he]
  rfl

/-! Power -/

theorem powerMove_poor {s : State} {a b : BitVec 4} {n : BitVec 10} (ha : a.toNat < 8)
    (hn : (s.die (a.extractLsb' 0 3)).pool.toNat < n.toNat) : exec (.powerManagerMove a b n) s = .next s := by
  show execPowerManagerMove a b n s = _
  have hu : (s.die (a.extractLsb' 0 3)).pool.ult n = true := by simpa [BitVec.ult] using hn
  have hne : a ≠ 8#4 := fun h => by simp [h] at ha
  simp [execPowerManagerMove, ha, hu, hne]

theorem powerMove_pools {s : State} {a b : BitVec 4} {n : BitVec 10} (ha : a.toNat < 8) (hb : b.toNat < 8) (hab : a ≠ b)
    (hn : n.toNat ≤ (s.die (a.extractLsb' 0 3)).pool.toNat) : ∃ t, exec (.powerManagerMove a b n) s = .next t ∧
      t = { s with dies := t.dies } ∧ ∀ d : BitVec 3, t.die d = { s.die d with
        pool := if d = a.extractLsb' 0 3 then (s.die (a.extractLsb' 0 3)).pool - n
        else if d = b.extractLsb' 0 3 then (s.die (b.extractLsb' 0 3)).pool + n else (s.die d).pool } := by
  have hu : ¬ ((s.die (a.extractLsb' 0 3)).pool.ult n = true ∨ a = b) := by simpa [BitVec.ult, hab] using hn
  have hne : b.extractLsb' 0 3 ≠ a.extractLsb' 0 3 := fun h => hab (BitVec.eq_of_toNat_eq (by
    have := congrArg BitVec.toNat h
    simp only [BitVec.extractLsb'_toNat, Nat.shiftRight_zero] at this
    omega))
  refine ⟨_, by show execPowerManagerMove a b n s = _; rw [execPowerManagerMove, if_pos ⟨ha, hb⟩, if_neg hu], rfl, fun d => ?_⟩
  rw [State.die_setDie_other s _ hne]
  by_cases hdb : d = b.extractLsb' 0 3
  · subst hdb; rw [State.die_setDie_same, if_neg hne, if_pos rfl]
  · rw [State.die_setDie_other _ _ hdb, if_neg hdb]
    by_cases hda : d = a.extractLsb' 0 3
    · subst hda; rw [State.die_setDie_same, if_pos rfl]
    · rw [State.die_setDie_other _ _ hda, if_neg hda]

theorem powerMove_toReserve {s : State} {a : BitVec 4} {n : BitVec 10} (ha : a.toNat < 8)
    (hot : s.plat.pwrNow.toNat > s.plat.pwrCap.toNat) (hn : n.toNat ≤ (s.die (a.extractLsb' 0 3)).pool.toNat) :
    exec (.powerManagerMove a 8#4 n) s = .next { s.setDie (a.extractLsb' 0 3) { s.die (a.extractLsb' 0 3) with
      pool := (s.die (a.extractLsb' 0 3)).pool - n } with plat := { s.plat with reserve := s.plat.reserve + n } } := by
  show execPowerManagerMove a 8#4 n s = _
  have hu : ¬ (s.die (a.extractLsb' 0 3)).pool.ult n = true := by simpa [BitVec.ult] using hn
  have hh : s.plat.pwrCap.ult s.plat.pwrNow = true := by simpa [BitVec.ult] using hot
  rw [execPowerManagerMove, if_neg (by simp), if_pos ⟨ha, rfl, hh⟩, if_neg hu]

theorem powerMove_fromReserve {s : State} {b : BitVec 4} {n : BitVec 10} (hb : b.toNat < 8)
    (hot : ¬ s.plat.pwrNow.toNat > s.plat.pwrCap.toNat) (hn : n.toNat ≤ s.plat.reserve.toNat) :
    exec (.powerManagerMove 8#4 b n) s = .next { s.setDie (b.extractLsb' 0 3) { s.die (b.extractLsb' 0 3) with
      pool := (s.die (b.extractLsb' 0 3)).pool + n } with plat := { s.plat with reserve := s.plat.reserve - n } } := by
  show execPowerManagerMove 8#4 b n s = _
  have hu : ¬ s.plat.reserve.ult n = true := by simpa [BitVec.ult] using hn
  have hh : s.plat.pwrCap.ult s.plat.pwrNow = false := by simpa [BitVec.ult] using hot
  rw [execPowerManagerMove, if_neg (by simp), if_neg (by simp), if_pos ⟨rfl, hb, by simp [hh]⟩, if_neg hu]

/-- A launch that restores a context keeps the core of each block that it has yet to place there busy. -/
theorem placePending_of_saved {s : State} {c : BitVec 10} {l o : Launch} {x : Saved} (hl : l ∈ s.launches) (hd : l.done = false)
    (hst : l.status = 0) (hr : bitOf l.record 121 = true) (ho : s.launchOf l.part (l.record.extractLsb' 608 32) = some o)
    (hx : x ∈ o.saved) (hc : x.core = c) (hp : ∀ p ∈ l.placed, p.1 ≠ x.block) : placePending s c = true := by
  refine List.any_eq_true.mpr ⟨l, hl, ?_⟩
  rw [hr, hd, hst, ho]
  simp only [if_true, Bool.not_false, Bool.true_and, BEq.rfl]
  exact List.any_eq_true.mpr ⟨x, hx, by simpa [hc] using hp⟩

/-! Errors and their records -/

/-- The rows that an error or a write strikes stand in the self-test list once. -/
def State.withTest (s : State) (w : ErrWord) : State := { s with tests := if s.tests.contains w then s.tests else s.tests ++ [w] }

theorem exec_uncorrectedError {s u : State} {w : ErrWord} (h : s.strike w.norm = some u) (ht : u.tests = s.tests) :
    exec (.uncorrectedError w) s = .next (u.withTest w.norm) := by
  show execUncorrectedError w s = _
  rw [execUncorrectedError, h, State.withTest, ht]

theorem exec_uncorrectedError_none {s : State} {w : ErrWord} (h : s.strike w.norm = none) : exec (.uncorrectedError w) s = .next s := by
  show execUncorrectedError w s = _
  rw [execUncorrectedError, h]

@[simp] theorem ErrWord.norm_norm (w : ErrWord) : w.norm.norm = w.norm := by
  cases w with
  | mem a => simp only [ErrWord.norm, BitVec.and_assoc, BitVec.and_self]
  | reg g k => rfl
  | scale g e => rfl

theorem extract_recWords_2 (w0 w1 w2 w3 w4 w5 w6 w7 : W64) : (recWords w0 w1 w2 w3 w4 w5 w6 w7).extractLsb' 128 64 = w2 :=
  calc
    _ = (w7 ++ w6 ++ w5 ++ w4 ++ w3 ++ w2 ++ w1).extractLsb' 64 64 := BitVec.extractLsb'_append_eq_of_le (by omega)
    _ = (w7 ++ w6 ++ w5 ++ w4 ++ w3 ++ w2).extractLsb' 0 64 := BitVec.extractLsb'_append_eq_of_le (by omega)
    _ = w2 := BitVec.extractLsb'_append_eq_right

/-- A record of kind 4 says where an error lies, the word that it struck and how the test came out (R336). -/
def ErrorRecord (r : BitVec 512) (place : BitVec 16) (code : BitVec 2) (entry : W64) : Prop :=
  r.extractLsb' 60 4 = 4#4 ∧ r.extractLsb' 52 8 = Cause.dataError.code ∧ r.extractLsb' 23 16 = place ∧ r.extractLsb' 128 64 = entry ∧
    r.extractLsb' 256 2 = code

theorem postError_record (s : State) (place : BitVec 16) (code : BitVec 2) (entry : W64) : ∃ r,
    ((s.postError place code entry).part 0).waiting = (s.part 0).waiting ++ [r] ∧ ErrorRecord r place code entry := by
  refine ⟨recWords (4#4 ++ Cause.dataError.code ++ 0#13 ++ place ++ 0#23) 0 entry 0 (0#62 ++ code) 0 0 0,
    by simp [State.postError, State.post], ?_, ?_, ?_, extract_recWords_2 .., ?_⟩
  · rw [extract_recWords_0 _ _ _ _ _ _ _ _ 60 4 (by omega)]
    simp (disch := omega) only [BitVec.extractLsb'_append_eq_of_le]
    exact BitVec.extractLsb'_eq_self
  · rw [extract_recWords_0 _ _ _ _ _ _ _ _ 52 8 (by omega)]
    simp (disch := omega) only [BitVec.extractLsb'_append_eq_of_le]
    exact BitVec.extractLsb'_append_eq_right
  · rw [extract_recWords_0 _ _ _ _ _ _ _ _ 23 16 (by omega)]
    simp (disch := omega) only [BitVec.extractLsb'_append_eq_of_le]
    exact BitVec.extractLsb'_append_eq_right
  · rw [extract_recWords_4 _ _ _ _ _ _ _ _ 0 2 (by omega)]
    exact BitVec.extractLsb'_append_eq_right

theorem postError_eq (s : State) (place : BitVec 16) (code : BitVec 2) (entry : W64) :
    s.postError place code entry = { s with parts := (s.postError place code entry).parts } := rfl

theorem exec_selfTestComplete {s : State} {w : ErrWord} {code : BitVec 2} (hw : w.norm = w) (hm : w ∈ s.tests) (hc : code ≠ 0) :
    exec (.selfTestComplete w code) s =
      .next ({ s with tests := s.tests.filter (fun y => y != w) }.postError w.place.1 code w.place.2) := by
  show execSelfTestComplete w code s = _
  rw [execSelfTestComplete, hw, if_pos ⟨by simpa using hm, hc⟩]

/-- SELF_TEST_COMPLETE of a word under test leaves one record of the word's place (R336). -/
theorem selfTestComplete_posts {s : State} {w : ErrWord} {code : BitVec 2} (hw : w.norm = w) (hm : w ∈ s.tests) (hc : code ≠ 0) :
    ∃ t, exec (.selfTestComplete w code) s = .next t ∧
      (∃ r, (t.part 0).waiting = (s.part 0).waiting ++ [r] ∧ ErrorRecord r w.place.1 code w.place.2) ∧
      t = { s with tests := s.tests.filter (fun y => y != w), parts := t.parts } :=
  ⟨_, exec_selfTestComplete hw hm hc, postError_record { s with tests := s.tests.filter (fun y => y != w) } .., postError_eq ..⟩

theorem exec_fabricLinkLost {port : BitVec 5} (h : port.toNat < 24) (s : State) :
    let d := BitVec.ofNat 3 (port.toNat / 3)
    exec (.fabricLinkLost port) s = .next ((s.setDie d { s.die d with
      portsDown := putBit (s.die d).portsDown (port.toNat % 3) true }).postError (d ++ 0#13) 3 (port.setWidth 64)) := by
  show execFabricLinkLost port s = _
  rw [execFabricLinkLost, if_neg (by omega)]

theorem fabricLinkLost_posts {port : BitVec 5} (h : port.toNat < 24) (s : State) :
    ∃ t, exec (.fabricLinkLost port) s = .next t ∧
      (∃ r, (t.part 0).waiting = (s.part 0).waiting ++ [r] ∧
        ErrorRecord r (BitVec.ofNat 3 (port.toNat / 3) ++ 0#13) 3 (port.setWidth 64)) ∧
      (t.die (BitVec.ofNat 3 (port.toNat / 3))).portsDown.getLsbD (port.toNat % 3) = true ∧
      t = { s with dies := t.dies, parts := t.parts } := by
  refine ⟨_, exec_fabricLinkLost h s, postError_record (s.setDie _ _) .., ?_, rfl⟩
  rw [show ∀ u : State, (u.postError (BitVec.ofNat 3 (port.toNat / 3) ++ 0#13) 3 (port.setWidth 64)).die (BitVec.ofNat 3 (port.toNat / 3)) =
    u.die (BitVec.ofNat 3 (port.toNat / 3)) from fun _ => rfl, State.die_setDie_same, getLsbD_putBit _ _ _ (by omega), if_pos rfl]

theorem strike_mem {s : State} {a : W64} (hn : paNode a.toNat = 0) (hr : paRegion a.toNat < 2) :
    s.strike (.mem a) = some { s with badWords := if s.badWords.contains a.toNat then s.badWords else s.badWords ++ [a.toNat] } :=
  if_pos ⟨hn, hr⟩

theorem strike_reg {s : State} {g : Gid} {k : BitVec 16} (hl : (s.group g).live = true)
    (hk : 4 * k.toNat < (s.group g).rg.declared.toNat) : s.strike (.reg g k) = some (s.setGroup g { s.group g with
      rg := { (s.group g).rg with bad := if (s.group g).rg.bad.contains k.toNat then (s.group g).rg.bad
        else k.toNat :: (s.group g).rg.bad } }) :=
  if_pos ⟨hl, hk⟩

theorem strike_scale {s : State} {g : Gid} {e : BitVec 5} (hl : (s.group g).live = true) :
    s.strike (.scale g e) = some (s.setGroup g { s.group g with
      rg := { (s.group g).rg with ebad := putBit (s.group g).rg.ebad e.toNat true } }) :=
  if_pos hl

theorem strike_reg_dead {s : State} {g : Gid} (hl : (s.group g).live = false) (k : BitVec 16) : s.strike (.reg g k) = none :=
  if_neg (by simp [hl])

theorem strike_scale_dead {s : State} {g : Gid} (hl : (s.group g).live = false) (e : BitVec 5) : s.strike (.scale g e) = none :=
  if_neg (by simp [hl])

/-- A list that holds an entry already is left as it is, else the entry is put first. -/
theorem mem_insertOnce {k y : Nat} {l : List Nat} : y ∈ (if l.contains k then l else k :: l) ↔ y = k ∨ y ∈ l := by
  split
  · next h => exact ⟨.inr, fun hy => hy.elim (fun e => e ▸ by simpa using h) id⟩
  · simp

/-! Boot -/

/-- What every boot gives the package's registers. -/
theorem bootPlatform_kept (x : Platform) : (bootPlatform x).boots = x.boots + 1 ∧ (bootPlatform x).tdbg = 0 ∧
    (bootPlatform x).flash = x.flash ∧ (bootPlatform x).idPub = identityKey ∧ (bootPlatform x).tenantKey = tenantKeyOf x.flash := by
  unfold bootPlatform
  extract_lets p
  split
  · split <;> exact ⟨rfl, rfl, rfl, rfl, rfl⟩
  · exact ⟨rfl, rfl, rfl, rfl, rfl⟩

/-- Some record that applies holds a spare map. -/
def spareMap (flash : Sparse 8) : Bool := (appliedRecords flash).any (fun r => (Config.recordNames r.2.2).2.2)

theorem bootPlatform_starts {x : Platform} {v : W32} {h : BitVec 512} {seq : BitVec 16} {body : List Byte}
    (hf : bootFirmware x.flash = some (v, h)) (hr : newestRecord x.flash = some (seq, body)) (hs : spareMap x.flash = true) :
    (bootPlatform x).recovery = false ∧ (bootPlatform x).fwVer = v ∧ (bootPlatform x).cfgSeq = seq ∧
    (bootPlatform x).sec = (Config.recordNames body).2.1 ∧ (bootPlatform x).fwHash = h ∧
    (bootPlatform x).attPub = Config.publicKey (Config.attestKey h) := by
  unfold spareMap at hs
  unfold bootPlatform
  simp only [hf, hr, hs]
  exact ⟨rfl, rfl, rfl, rfl, rfl, rfl⟩

theorem bootPlatform_recovers {x : Platform} (h : bootFirmware x.flash = none ∨ newestRecord x.flash = none ∨ spareMap x.flash = false) :
    (bootPlatform x).recovery = true ∧ (bootPlatform x).attPub = 0 := by
  unfold spareMap at h
  unfold bootPlatform
  extract_lets p
  split
  · next v hh seq body hf hr =>
    have hs : ¬ (appliedRecords x.flash).any (fun r => (Config.recordNames r.2.2).2.2) = true := by simpa [hf, hr] using h
    rw [if_neg hs]
    exact ⟨rfl, rfl⟩
  · exact ⟨rfl, rfl⟩

theorem exec_boot (b : BootKind) (s : State) : exec (.boot b) s = .next { State.reset with
    host0 := s.host0, host1 := s.host1, msix := s.msix, aer := s.aer, fresh := s.fresh, plat := bootPlatform s.plat,
    mem := if b = .warm then s.mem else [], badWords := if b = .warm then s.badWords else [],
    agenda := (if (bootPlatform s.plat).recovery then [] else bootDefaults s.plat.flash) ++ s.agenda } := by
  cases b <;> rfl

theorem mem_validRecords {flash : Sparse 8} {k : Nat} {seq : BitVec 16} {body : List Byte} : (k, seq, body) ∈ validRecords flash ↔
    ∃ sig, (k, seq, body, sig) ∈ Config.flashRecords flash ∧ Config.vendorSigned (shake512 body) sig = true := by
  simp only [validRecords, List.mem_map, List.mem_filter]
  constructor
  · rintro ⟨⟨k', seq', body', sig⟩, ⟨hm, hs⟩, h⟩
    obtain ⟨rfl, rfl, rfl⟩ : k' = k ∧ seq' = seq ∧ body' = body := by simpa using h
    exact ⟨sig, hm, hs⟩
  · rintro ⟨sig, hm, hs⟩
    exact ⟨_, ⟨hm, hs⟩, rfl⟩

/-- R384: of each kind the valid record with the highest sequence number applies. -/
theorem mem_appliedRecords {flash : Sparse 8} {k : Nat} {seq : BitVec 16} {body : List Byte} : (k, seq, body) ∈ appliedRecords flash ↔
    (∃ sig, (k, seq, body, sig) ∈ Config.flashRecords flash ∧ Config.vendorSigned (shake512 body) sig = true) ∧
    ∀ q b sig, (k, q, b, sig) ∈ Config.flashRecords flash → Config.vendorSigned (shake512 b) sig = true → q.toNat ≤ seq.toNat := by
  have hall : (validRecords flash).all (fun x => x.1 != k || !seq.ult x.2.1) = true ↔
      ∀ q b, (k, q, b) ∈ validRecords flash → q.toNat ≤ seq.toNat := by
    simp only [List.all_eq_true, Bool.or_eq_true, bne_iff_ne, Bool.not_eq_true', BitVec.ult, decide_eq_false_iff_not, Nat.not_lt]
    exact ⟨fun h q b hm => (h _ hm).resolve_left (by simp), fun h x hx => by
      by_cases he : x.1 = k
      · exact .inr (h x.2.1 x.2.2 (he ▸ hx))
      · exact .inl he⟩
  rw [appliedRecords, List.mem_filter, hall, mem_validRecords]
  simp only [mem_validRecords]
  exact and_congr_right fun _ => ⟨fun h q b sig hm hs => h q b ⟨sig, hm, hs⟩, fun h q b ⟨sig, hm, hs⟩ => h q b sig hm hs⟩

/-- R384: the firmware that starts is signed, and not below the floor of the newest record. -/
theorem bootFirmware_spec {flash : Sparse 8} {v : W32} {h : BitVec 512} (hb : bootFirmware flash = some (v, h)) :
    (∃ body sig, Config.flashFirmware flash = some (v, body, sig) ∧ Config.vendorSigned h sig = true ∧ h = shake512 body) ∧
    ∀ seq body, newestRecord flash = some (seq, body) → (Config.recordNames body).1.toNat ≤ v.toNat := by
  unfold bootFirmware at hb
  extract_lets floor at hb
  split at hb
  · next v' body sig hf =>
    split at hb
    · next hc =>
      obtain ⟨hs, hv⟩ : Config.vendorSigned (shake512 body) sig = true ∧ floor.toNat ≤ v'.toNat := by
        simpa [BitVec.ult] using hc
      obtain ⟨rfl, rfl⟩ : v' = v ∧ shake512 body = h := by simpa using hb
      refine ⟨⟨body, sig, hf, hs, rfl⟩, fun seq b hn => ?_⟩
      simpa [floor, hn] using hv
    · simp at hb
  · simp at hb

/-! The mantel -/

theorem exec_mantelQuote {s : State} {p : BitVec 3} (h : (s.mantel p).quoting = none) :
    exec (.mantelQuote p) s = .next (s.setMantel p { s.mantel p with
      quoting := some (natToBytes 64 (s.mantel p).acc.toNat ++ natToBytes 4 (s.mantel p).count.toNat ++
        natToBytes 32 (s.mantel p).nonce.toNat ++ [p.setWidth 8] ++ natToBytes 64 s.plat.fwHash.toNat), done := false, qstatus := 0 }) := by
  show execMantelQuote p s = _
  simp [execMantelQuote, h]

theorem exec_mantelQuote_busy {s : State} {p : BitVec 3} {msg : List Byte} (h : (s.mantel p).quoting = some msg) :
    exec (.mantelQuote p) s = .next (s.setMantel p { s.mantel p with qstatus := 1 }) := by
  show execMantelQuote p s = _
  simp [execMantelQuote, h]

theorem exec_quoteComplete {s : State} {p : BitVec 3} {msg : List Byte} (h : (s.mantel p).quoting = some msg) :
    exec (.quoteComplete p) s = .next (s.setMantel p { s.mantel p with quoting := none, done := true, sig := Config.sign msg }) := by
  show execQuoteComplete p s = _
  simp only [execQuoteComplete, h]

/-! Bytes of register space -/

theorem bytes_eq_map (r : RegSpace) (a n : Nat) : r.bytes a n = (List.range n).map (fun i => r.byte (a + i)) := by
  induction n generalizing a with
  | zero => rfl
  | succ n ih =>
    rw [RegSpace.bytes, ih, List.range_succ_eq_map, List.map_cons, List.map_map]
    refine congrArg (_ :: ·) (List.map_congr_left fun i _ => congrArg r.byte ?_)
    omega

theorem bytes_setBytes_same (r : RegSpace) (a : Nat) (l : List Byte) : (r.setBytes a l).bytes a l.length = l := by
  rw [bytes_eq_map]
  refine List.ext_getElem (by simp) fun i h _ => ?_
  have hi : i < l.length := by simpa using h
  simp [byte_setBytes, hi]

/-! The head of the debug port's queue -/

/-- The only request of the port is served: its status, and what a read gives. -/
def State.served (s : State) (st : BitVec 8) (v : W64) : State :=
  { s with plat := { s.plat with dbgReqs := [], dbgBusy := false, dbgStatus := st, dbgData := v } }

theorem dbgDone_only {s : State} {x : W64 × W64} (h : s.plat.dbgReqs = [x]) (st : BitVec 8) (v : Option W64) :
    s.dbgDone st v = s.served st (v.getD s.plat.dbgData) := by
  simp [State.dbgDone, State.served, h, Platform.dropBad]

theorem dbgHead_nil {s : State} (h : s.plat.dbgReqs = []) (op : Nat) (gid : Gid) (off : BitVec 18) : dbgHead s op gid off = none := by
  simp [dbgHead, h]

/-- The port holds one request, of an op and a group. -/
def OnlyRequest (s : State) (gid : Gid) (w d : W64) (op : Nat) : Prop :=
  s.plat.dbgReqs = [(w, d)] ∧ bitsOf w 60 3 = op ∧ w.extractLsb' 44 16 = gid

theorem OnlyRequest.reqs {s : State} {gid : Gid} {w d : W64} {op : Nat} (h : OnlyRequest s gid w d op) :
    s.plat.dbgReqs = [(w, d)] := And.left h

theorem dbgHead_only {s : State} {gid : Gid} {w d : W64} {op : Nat} (h : OnlyRequest s gid w d op) {off : BitVec 18}
    (hoff : op < 2 → w.extractLsb' 0 18 = off) : dbgHead s op gid off = some d := by
  obtain ⟨hreq, hop, hgid⟩ := h
  unfold dbgHead
  rw [hreq]
  refine if_pos ?_
  rcases Nat.lt_or_ge op 2 with h2 | h2
  · simp [hop, hgid, hoff h2]
  · simp [hop, hgid, h2]

/-- The instruction of each op. -/
noncomputable def dbgInstr (gid : Gid) (off : BitVec 18) (d : W64) : List (Nat × Instr) :=
  [(0, .debugRead gid off), (1, .debugWrite gid off d), (2, .debugHalt gid), (3, .debugResume gid)]

theorem dbgInstr_idle {s : State} (h : s.plat.dbgReqs = []) (gid : Gid) (off : BitVec 18) (d : W64) :
    ∀ i ∈ dbgInstr gid off d, exec i.2 s = .next s := by
  simp only [dbgInstr, List.forall_mem_cons, List.not_mem_nil, false_implies, implies_true, and_true]
  refine ⟨?_, ?_, ?_, ?_⟩
  · show execDebugRead gid off s = _
    rw [execDebugRead, dbgHead_nil h]
  · show execDebugWrite gid off d s = _
    rw [execDebugWrite, dbgHead_nil h]
  · show execDebugHalt gid s = _
    rw [execDebugHalt, dbgHead_nil h]
  · show execDebugResume gid s = _
    rw [execDebugResume, dbgHead_nil h]

/-- What the gate refuses is answered with its status; a read of what is not denied gives 0 then. -/
theorem dbgInstr_gated {s : State} {gid : Gid} {st : BitVec 8} (hg : dbgGate s gid = some st) {off : BitVec 18} {w d : W64} :
    ∀ i ∈ dbgInstr gid off d, OnlyRequest s gid w d i.1 → (i.1 < 2 → w.extractLsb' 0 18 = off) →
      exec i.2 s = .next (s.served st (if i.1 = 0 ∧ st ≠ 3 then 0 else s.plat.dbgData)) := by
  simp only [dbgInstr, List.forall_mem_cons, List.not_mem_nil, false_implies, implies_true, and_true]
  refine ⟨fun hr ho => ?_, fun hr ho => ?_, fun hr _ => ?_, fun hr _ => ?_⟩
  · show execDebugRead gid off s = _
    rw [execDebugRead, dbgHead_only hr ho, hg]
    simp only [dbgDone_only hr.reqs]
    by_cases h3 : st = 3#8 <;> simp [h3]
  · show execDebugWrite gid off d s = _
    rw [execDebugWrite, dbgHead_only hr ho, hg]
    simp [dbgDone_only hr.reqs]
  · show execDebugHalt gid s = _
    rw [execDebugHalt, dbgHead_only hr (by simp), hg]
    simp only [dbgDone_only hr.reqs]
    rfl
  · show execDebugResume gid s = _
    rw [execDebugResume, dbgHead_only hr (by simp), hg]
    simp only [dbgDone_only hr.reqs]
    rfl

/-! The gate -/

theorem dbgGate_denied {s : State} (h : s.plat.sec = 1) (gid : Gid) : dbgGate s gid = some 3 := by
  simp [dbgGate, dbgAdmit, h]

theorem dbgAdmit_open {s : State} (h : s.plat.sec = 0 ∨ s.plat.sec = 3) (gid : Gid) : dbgAdmit s gid = true := by
  rcases h with h | h <;> simp [dbgAdmit, h]

theorem dbgGate_off {s : State} {gid : Gid} (h : s.plat.sec = 0 ∨ s.plat.sec = 3) (ho : (s.core gid.core).off = true) :
    dbgGate s gid = some 4 := by
  simp [dbgGate, dbgAdmit_open h, ho]

theorem dbgGate_noGroup {s : State} {gid : Gid} (h : s.plat.sec = 0 ∨ s.plat.sec = 3) (ho : (s.core gid.core).off = false)
    (hl : (s.group gid).live = false) : dbgGate s gid = some 1 := by
  simp [dbgGate, dbgAdmit_open h, ho, hl]

/-! Where an offset lies -/

theorem lt_of_inScales {o : Nat} (h : inScales o = true) : o < 0x6000 := by
  simp only [inScales, Bool.or_eq_true, decide_eq_true_eq] at h
  omega

theorem dbgPlace_area {r : RegSpace} {o : Nat} (h : o < 0x6000) : dbgPlace r o = .area := if_pos h

theorem dbgPlace_regs {r : RegSpace} {o : Nat} (h : 0x6000 ≤ o) (hd : o - 0x6000 < r.declared.toNat) :
    dbgPlace r o = .regs (o - 0x6000) := by
  rw [dbgPlace, if_neg (by omega), if_pos hd]

theorem dbgPlace_slack {r : RegSpace} {o : Nat} (h : 0x6000 ≤ o) (hd : r.declared.toNat ≤ o - 0x6000)
    (hg : o - 0x6000 < 4096 * r.granules.toNat) : dbgPlace r o = .slack := by
  rw [dbgPlace, if_neg (by omega), if_neg (by omega), if_pos hg]

theorem dbgPlace_gated {r : RegSpace} {o : Nat} (h : 0x6000 ≤ o) (hd : r.declared.toNat ≤ o - 0x6000)
    (hg : ¬ o - 0x6000 < 4096 * r.granules.toNat) : dbgPlace r o = .gated := by
  rw [dbgPlace, if_neg (by omega), if_neg (by omega), if_neg hg]

/-! Reads -/

section

variable {s : State} {gid : Gid} {off : BitVec 18} {w d : W64} (hg : dbgGate s gid = none) (ho : w.extractLsb' 0 18 = off)
  (hr : OnlyRequest s gid w d 0)
include hg ho hr

theorem debugRead_area (hp : off.toNat < 0x6000) (hs : inScales off.toNat = false) :
    exec (.debugRead gid off) s = .next (s.served 0 (BitVec.ofNat 64 (peek (liveArea s gid) off.toNat 8))) := by
  show execDebugRead gid off s = _
  rw [execDebugRead, dbgHead_only hr (fun _ => ho), hg]
  simp only [dbgPlace_area hp, hs, Bool.false_eq_true, if_false, dbgDone_only hr.reqs, Option.getD_some]

theorem debugRead_scales (hs : inScales off.toNat = true) :
    exec (.debugRead gid off) s = .next ((s.setGroup gid { s.group gid with rg := (s.group gid).rg.wake 0 }).served 0
      (BitVec.ofNat 64 (peek (liveArea s gid) off.toNat 8))) := by
  show execDebugRead gid off s = _
  rw [execDebugRead, dbgHead_only hr (fun _ => ho), hg]
  simp only [dbgPlace_area (lt_of_inScales hs), hs, if_true]
  rw [dbgDone_only (s := s.setGroup _ _) hr.reqs, Option.getD_some]

theorem debugRead_regs (hp : 0x6000 ≤ off.toNat) (hd : off.toNat - 0x6000 < (s.group gid).rg.declared.toNat) :
    exec (.debugRead gid off) s = .next ((s.setGroup gid { s.group gid with rg := (s.group gid).rg.wake (off.toNat - 0x6000) }).served 0
      (BitVec.ofNat 64 (bytesToNat ((s.group gid).rg.bytes (off.toNat - 0x6000) 8)))) := by
  show execDebugRead gid off s = _
  rw [execDebugRead, dbgHead_only hr (fun _ => ho), hg]
  simp only [dbgPlace_regs hp hd]
  rw [dbgDone_only (s := s.setGroup _ _) hr.reqs, Option.getD_some]

theorem debugRead_beyond (hp : 0x6000 ≤ off.toNat) (hd : (s.group gid).rg.declared.toNat ≤ off.toNat - 0x6000) :
    exec (.debugRead gid off) s = .next (s.served (if off.toNat - 0x6000 < 4096 * (s.group gid).rg.granules.toNat then 0 else 1) 0) := by
  show execDebugRead gid off s = _
  rw [execDebugRead, dbgHead_only hr (fun _ => ho), hg]
  by_cases hn : off.toNat - 0x6000 < 4096 * (s.group gid).rg.granules.toNat
  · simp only [dbgPlace_slack hp hd hn, hn, dbgDone_only hr.reqs, if_true, Option.getD_some]
  · simp only [dbgPlace_gated hp hd hn, hn, dbgDone_only hr.reqs, if_false, Option.getD_some]

end

/-! Writes -/

/-- The register space after a debugger's write of a declared word. -/
def RegSpace.dbgPut (r : RegSpace) (o : Nat) (d : W64) : RegSpace := (r.setBytes o (natToBytes 8 d.toNat)).wake o

theorem bytes_dbgPut (r : RegSpace) (o : Nat) (d : W64) : (r.dbgPut o d).bytes o 8 = natToBytes 8 d.toNat := by
  have h := bytes_setBytes_same r o (natToBytes 8 d.toNat)
  rw [length_natToBytes, bytes_eq_map] at h
  rw [bytes_eq_map]
  exact h

theorem byte_dbgPut (r : RegSpace) (o : Nat) (d : W64) {b : Nat} (h : b < o ∨ o + 8 ≤ b) : (r.dbgPut o d).byte b = r.byte b :=
  byte_setBytes_outside r o _ b (by rwa [length_natToBytes])

theorem dbgPut_eq (r : RegSpace) (o : Nat) (d : W64) :
    r.dbgPut o d = { r with rows := (r.dbgPut o d).rows, drowsy := (r.dbgPut o d).drowsy, bad := (r.dbgPut o d).bad } := by
  unfold RegSpace.dbgPut RegSpace.wake
  rw [setBytes_eq]

theorem retag_other {r : RegSpace} (old : RegSpace) {off : Nat} (h : off < 0x900) : r.retag old off = r := if_neg (by omega)

section

variable (g : Group) (m : Sparse 8) {off : Nat} (budget : Bool) (now : W64)

theorem patch_pc : (g.patch m off budget now).pc = word64 (peek m) 0 := rfl

theorem patch_h : (g.patch m off budget now).h = g.h := by
  simp only [Group.patch, Group.loadRest, Group.loadControl]

theorem patch_part : (g.patch m off budget now).part = g.part := by
  simp only [Group.patch, Group.loadRest, Group.loadControl]

theorem patch_rows (h : off < 0x900) : (g.patch m off budget now).rg.rows = g.rg.rows := by
  simp only [Group.patch, Group.loadRest, Group.loadControl, retag_other _ h]

end

theorem word64_pokeBytes (m : Sparse 8) (a : Nat) (d : W64) : word64 (peek (pokeBytes m a (natToBytes 8 d.toNat))) a = d := by
  rw [word64, peek_pokeBytes, show 256 ^ 8 = 2 ^ 64 from rfl, Nat.mod_eq_of_lt d.isLt, BitVec.ofNat_toNat, BitVec.setWidth_eq]

section

variable {s : State} {gid : Gid} {off : BitVec 18} {w d : W64} (hg : dbgGate s gid = none) (ho : w.extractLsb' 0 18 = off)
  (hr : OnlyRequest s gid w d 1)
include hg ho hr

theorem debugWrite_area_running (hp : off.toNat < 0x6000) (hh : (s.group gid).h.halted = false)
    (hs : inScales off.toNat = false ∨ bitOf (s.group gid).rg.drowsy 0 = false) :
    exec (.debugWrite gid off d) s = .next (s.served 2 s.plat.dbgData) := by
  show execDebugWrite gid off d s = _
  have hmay : dbgMay (s.group gid) (if inScales off.toNat then some 0 else none) = false := by
    rcases hs with hs | hs <;> cases hi : inScales off.toNat <;> simp_all [dbgMay]
  rw [execDebugWrite, dbgHead_only hr (fun _ => ho), hg]
  simp only [ne_eq, not_true_eq_false, if_false, dbgPlace_area hp, hmay, Bool.not_false, if_true, dbgDone_only hr.reqs]
  rfl

theorem debugWrite_regs_running (hp : 0x6000 ≤ off.toNat) (hd : off.toNat - 0x6000 < (s.group gid).rg.declared.toNat)
    (hh : (s.group gid).h.halted = false) (hb : bitOf (s.group gid).rg.drowsy ((off.toNat - 0x6000) / 4096) = false) :
    exec (.debugWrite gid off d) s = .next (s.served 2 s.plat.dbgData) := by
  show execDebugWrite gid off d s = _
  have hmay : dbgMay (s.group gid) (some ((off.toNat - 0x6000) / 4096)) = false := by simp [dbgMay, hh, hb]
  rw [execDebugWrite, dbgHead_only hr (fun _ => ho), hg]
  simp only [ne_eq, not_true_eq_false, if_false, dbgPlace_regs hp hd, hmay, Bool.not_false, if_true, dbgDone_only hr.reqs]
  rfl

theorem debugWrite_beyond (hp : 0x6000 ≤ off.toNat) (hd : (s.group gid).rg.declared.toNat ≤ off.toNat - 0x6000) :
    exec (.debugWrite gid off d) s =
      .next (s.served (if off.toNat - 0x6000 < 4096 * (s.group gid).rg.granules.toNat then 0 else 1) s.plat.dbgData) := by
  show execDebugWrite gid off d s = _
  rw [execDebugWrite, dbgHead_only hr (fun _ => ho), hg]
  by_cases hn : off.toNat - 0x6000 < 4096 * (s.group gid).rg.granules.toNat
  · simp only [ne_eq, not_true_eq_false, dbgPlace_slack hp hd hn, hn, dbgDone_only hr.reqs, if_true, if_false, Option.getD_none]
  · simp only [ne_eq, not_true_eq_false, dbgPlace_gated hp hd hn, hn, dbgDone_only hr.reqs, if_false, Option.getD_none]

theorem debugWrite_regs (hp : 0x6000 ≤ off.toNat) (hd : off.toNat - 0x6000 < (s.group gid).rg.declared.toNat)
    (hm : (s.group gid).h.halted = true ∨ bitOf (s.group gid).rg.drowsy ((off.toNat - 0x6000) / 4096) = true) :
    exec (.debugWrite gid off d) s = .next ((s.setGroup gid { s.group gid with
      rg := (s.group gid).rg.dbgPut (off.toNat - 0x6000) d }).served 0 s.plat.dbgData) := by
  show execDebugWrite gid off d s = _
  have hmay : dbgMay (s.group gid) (some ((off.toNat - 0x6000) / 4096)) = true := by
    rcases hm with h | h <;> simp [dbgMay, h]
  rw [execDebugWrite, dbgHead_only hr (fun _ => ho), hg]
  simp only [ne_eq, not_true_eq_false, if_false, dbgPlace_regs hp hd, hmay, Bool.not_true, Bool.false_eq_true]
  rw [dbgDone_only (s := s.setGroup _ _) hr.reqs]
  rfl

theorem debugWrite_pc (hz : off.toNat = 0) (hh : (s.group gid).h.halted = true) : ∃ u,
    exec (.debugWrite gid off d) s = .next ((s.setGroup gid u).served 0 s.plat.dbgData) ∧ u.pc = d ∧ u.h = (s.group gid).h ∧
      u.part = (s.group gid).part ∧ u.rg.rows = (s.group gid).rg.rows := by
  have hmay : dbgMay (s.group gid) none = true := by simp [dbgMay, hh]
  have hplace : dbgPlace (s.group gid).rg 0 = .area := dbgPlace_area (by omega)
  have hexec : exec (.debugWrite gid off d) s = .next ((s.patchGroup gid 0 d).dbgDone 0 none) := by
    show execDebugWrite gid off d s = _
    rw [execDebugWrite, dbgHead_only hr (fun _ => ho), hg]
    simp only [ne_eq, not_true_eq_false, if_false, hz, hplace, show inScales 0 = false from rfl, hmay, Bool.not_true,
      Bool.false_eq_true]
  have hdone := dbgDone_only (s := s.patchGroup gid 0 d) hr.reqs 0 none
  unfold State.patchGroup at hexec hdone
  exact ⟨_, hexec.trans (congrArg _ hdone), (patch_pc ..).trans (word64_pokeBytes _ 0 d), patch_h .., patch_part ..,
    patch_rows _ _ _ _ (by omega)⟩

end

/-! Halt and resume -/

theorem debugHalt_done {s : State} {gid : Gid} {w d : W64} (hg : dbgGate s gid = none) (hr : OnlyRequest s gid w d 2) :
    exec (.debugHalt gid) s = .next ((s.haltGroup gid).dbgDone 0 none) := by
  show execDebugHalt gid s = _
  rw [execDebugHalt, dbgHead_only hr (by simp), hg]

theorem completeInvpg_plat (s : State) (gid : Gid) : (s.completeInvpg gid).plat = s.plat := by
  rcases waits_cases (s.group gid) with ⟨n, va, len, sc, h⟩ | h
  · rw [completeInvpg_waits h, invalidate_eq]
    rfl
  · rw [completeInvpg_other h]

theorem haltGroup_plat (s : State) (gid : Gid) : (s.haltGroup gid).plat = s.plat := by
  unfold State.haltGroup
  extract_lets s1
  show s1.plat = s.plat
  exact (congrArg State.plat (freezeArray_eq ..)).trans (completeInvpg_plat ..)

/-- A group with nothing to wait for is halted as it stands once its results are written. -/
theorem haltGroup_group {s : State} {gid : Gid} (hw : (s.group gid).wait = .none) :
    (s.haltGroup gid).group gid = (s.group gid).settle.halt := by
  have hset : ((s.setGroup gid (s.group gid).settle).group gid).wait = .none := by
    rw [State.group_setGroup_same, settle_eq]
    exact hw
  have hc : (s.setGroup gid (s.group gid).settle).completeInvpg gid = s.setGroup gid (s.group gid).settle :=
    completeInvpg_other (by simp only [hset]; simp)
  unfold State.haltGroup
  rw [hc, State.group_setGroup_same, freezeArray_eq]
  exact congrArg Group.halt (State.group_setGroup_same s gid _)

theorem halt_settle (g : Group) : g.settle.halt =
    { g.settle with h := { g.h with halted := true }, boost := false, passed := 0,
                    ln := { g.settle.ln with boost := false, passed := 0 } } := by
  have hh : g.settle.h = g.h := by rw [settle_eq]
  rw [← hh]
  rfl

theorem debugHalt_plat {s : State} {gid : Gid} {w d : W64} (hr : OnlyRequest s gid w d 2) :
    ((s.haltGroup gid).dbgDone 0 none).plat = { s.plat with dbgReqs := [], dbgBusy := false, dbgStatus := 0 } := by
  rw [dbgDone_only (by rw [haltGroup_plat, hr.reqs]), State.served, haltGroup_plat]
  rfl

theorem haltGroup_halted (s : State) (gid : Gid) : ((s.haltGroup gid).group gid).h.halted = true := by
  unfold State.haltGroup
  rw [State.group_setGroup_same]
  rfl

theorem haltGroup_frozen {s : State} {gid : Gid} (h : s.holds gid = true) : ((s.haltGroup gid).core gid.core).mx.mode = .frozen := by
  have hc : ((s.setGroup gid (s.group gid).settle).completeInvpg gid).holds gid = true := by
    unfold State.holds
    rw [completeInvpg_mx]
    exact h
  exact (freezeArray_mx hc).1

/-- The group of a DEBUG_RESUME goes on, and what waits in the log of its program looks again. -/
def Group.resumed (g : Group) : Group :=
  { g with h := { g.h with halted := false }, llog := if g.h.on then g.llog else g.llog.map OpLog.woken }

theorem debugResume_stays {s : State} {gid : Gid} {w d : W64} (hg : dbgGate s gid = none) (hr : OnlyRequest s gid w d 3)
    (h : (s.group gid).h.halted = false ∨ (s.part (s.group gid).part).preReq = true) :
    exec (.debugResume gid) s = .next (s.served 0 s.plat.dbgData) := by
  show execDebugResume gid s = _
  have hc : (!(s.group gid).h.halted || (s.part (s.group gid).part).preReq) = true := by rcases h with h | h <;> simp [h]
  rw [execDebugResume, dbgHead_only hr (by simp), hg]
  simp only [hc, if_true, dbgDone_only hr.reqs]
  rfl

theorem debugResume_goes {s : State} {gid : Gid} {w d : W64} (hg : dbgGate s gid = none) (hr : OnlyRequest s gid w d 3)
    (hh : (s.group gid).h.halted = true) (hp : (s.part (s.group gid).part).preReq = false)
    (ha : (s.group gid).h.on = true ∨ s.holds gid = false) :
    exec (.debugResume gid) s = .next ((s.setGroup gid (s.group gid).resumed).served 0 s.plat.dbgData) := by
  show execDebugResume gid s = _
  have hc : (!(s.group gid).h.halted || (s.part (s.group gid).part).preReq) = false := by simp [hh, hp]
  have harr : (if (s.group gid).h.on then s.setGroup gid (s.group gid).resumed
      else (s.setGroup gid (s.group gid).resumed).thawArray gid) = s.setGroup gid (s.group gid).resumed := by
    rcases ha with ha | ha
    · rw [if_pos ha]
    · have hn : ¬ ((s.setGroup gid (s.group gid).resumed).holds gid = true ∧
          ((s.setGroup gid (s.group gid).resumed).mx gid).mode = .frozen) := fun h => by
        have : s.holds gid = true := h.1
        simp [ha] at this
      rw [State.thawArray, if_neg hn, ite_self]
  rw [execDebugResume, dbgHead_only hr (by simp), hg]
  simp only [hc, Bool.false_eq_true, if_false]
  exact congrArg _ ((congrArg (State.dbgDone · 0 none) harr).trans (dbgDone_only (s := s.setGroup _ _) hr.reqs _ _))

/-! Tokens that open the port, and the wipe (R390) -/

theorem exec_tenantDebugToken {s : State} {p : BitVec 3} {boot : W32} {body : W64} (hb : boot = s.plat.boots)
    (ht : s.plat.tenantValid p boot body = true) : exec (.tenantDebugToken p boot body) s = .next { s with
      plat := { s.plat with tdbg := putBit s.plat.tdbg p.toNat true, sec := if s.plat.sec = 1 then 2 else s.plat.sec } } :=
  if_pos ⟨hb, ht⟩

theorem exec_tenantDebugToken_none {s : State} {p : BitVec 3} {boot : W32} {body : W64}
    (h : boot ≠ s.plat.boots ∨ s.plat.tenantValid p boot body = false) : exec (.tenantDebugToken p boot body) s = .next s :=
  if_neg (by rcases h with h | h <;> simp [h])

/-- What a table reads is the default or stands in it. -/
theorem Tab.get_eq_default_or_mem {α : Type} (d : α) (t : Tab α) (a : Nat) : Tab.get d t a = d ∨ (a, Tab.get d t a) ∈ t := by
  induction t with
  | nil => exact .inl rfl
  | cons p t ih =>
    obtain ⟨k, v⟩ := p
    unfold Tab.get
    split
    · next h => subst h; exact .inr (.head _)
    · split
      · exact .inl rfl
      · exact ih.imp_right (.tail _)

theorem Sparse.get_eq_zero_or_mem {w : Nat} (m : Sparse w) (a : Nat) : Sparse.get m a = 0 ∨ (a, Sparse.get m a) ∈ m := by
  induction m with
  | nil => exact .inl rfl
  | cons p m ih =>
    obtain ⟨k, v⟩ := p
    unfold Sparse.get
    split
    · next h => subst h; exact .inr (.head _)
    · split
      · exact .inl rfl
      · exact ih.imp_right (.tail _)

/-- Scrubbed addresses read as zero. -/
theorem Sparse.get_filter_not {w : Nat} (m : Sparse w) (f : Nat → Bool) {a : Nat} (h : f a = true) :
    Sparse.get (m.filter (fun p => !f p.1)) a = 0 :=
  (Sparse.get_eq_zero_or_mem _ a).resolve_right fun hm => by simp [h] at hm

theorem wiped_of_inMemory {a : Nat} (h : inMemory a = true) : wiped a = true := by
  simp only [inMemory, wiped, Bool.and_eq_true, Bool.or_eq_true, decide_eq_true_eq, beq_iff_eq] at h ⊢
  tauto

theorem dropArray_groups (s : State) (gid : Gid) : (s.dropArray gid).groups = s.groups := by
  unfold State.dropArray
  extract_lets c d s1
  split
  · show (if c.mx.token then s.setDie gid.die { d with pool := d.pool + 1 } else s).groups = _
    split <;> rfl
  · rfl

theorem settlePre_groups (s : State) (p : BitVec 3) : (s.settlePre p).groups = s.groups := by
  unfold State.settlePre
  extract_lets x
  split <;> rfl

theorem freeBlock_groups (s : State) (b : Block) : (s.freeBlock b).groups = s.groups := by
  unfold State.freeBlock
  extract_lets c s1 s2
  split
  · split <;> rfl
  · rfl

theorem freeGroup_groups (s : State) (gid : Gid) (saved ran : Bool) :
    (s.freeGroup gid saved ran).groups = Tab.erase s.groups gid.toNat := by
  have hleave : (s.leaveLines gid).groups = s.groups := by rw [leaveLines_eq]
  unfold State.freeGroup
  extract_lets g s1 s2
  have h2 : s2.groups = Tab.erase s.groups gid.toNat := congrArg (Tab.erase · gid.toNat) hleave
  split
  · rw [settlePre_groups, h2]
  · next b hb =>
    extract_lets b1 s3
    have h3 : s3.groups = Tab.erase s.groups gid.toNat := by
      rw [← h2]
      show (if b1.gids = [] then s2.freeBlock b1 else s2.setBlock b1).groups = _
      split
      · exact freeBlock_groups ..
      · rfl
    rw [settlePre_groups, ← h3]
    split <;> rfl

theorem endGroup_groups (s : State) (gid : Gid) : (s.endGroup gid).groups = Tab.erase s.groups gid.toNat := by
  rw [State.endGroup, freeGroup_groups, dropArray_groups]

/-- Groups that end leave their slots empty, and the other slots as they are. -/
theorem group_foldl_endGroup (l : List Gid) (s : State) (g : Gid) :
    (l.foldl (fun s x => s.endGroup x) s).group g = if g ∈ l then {} else s.group g := by
  induction l generalizing s with
  | nil => simp
  | cons x l ih =>
    have hx : (s.endGroup x).group g = if g = x then {} else s.group g := by
      rw [State.group, endGroup_groups, Tab.get_erase]
      simp only [BitVec.toNat_inj]
      rfl
    rw [List.foldl_cons, ih, hx]
    by_cases hl : g ∈ l
    · rw [if_pos hl, if_pos (.tail _ hl)]
    · simp only [hl, if_false, List.mem_cons, or_false]

theorem wipe_group (s : State) (g : Gid) : (s.wipe.group g).live = false := by
  let gids : List Gid := (s.groups.filter (fun y => y.2.live)).map (fun y => BitVec.ofNat 16 y.1)
  have hw : s.wipe.group g = if g ∈ gids then {} else s.group g := group_foldl_endGroup gids s g
  rw [hw]
  split
  · rfl
  · next hg =>
    rcases Tab.get_eq_default_or_mem {} s.groups g.toNat with h | h
    · exact congrArg Group.live h
    · refine Bool.eq_false_iff.mpr fun hl => hg (List.mem_map.mpr ⟨_, List.mem_filter.mpr ⟨h, hl⟩, ?_⟩)
      simp

theorem wipe_mem (s : State) {a : Nat} (h : inMemory a = true) : Sparse.get s.wipe.mem a = 0 ∧ a ∉ s.wipe.badWords :=
  ⟨Sparse.get_filter_not _ wiped (wiped_of_inMemory h), fun hm => by simp [State.wipe, wiped_of_inMemory h] at hm⟩

theorem wipe_mantel (s : State) (q : BitVec 3) : (s.wipe.mantel q).acc = 0 ∧ (s.wipe.mantel q).count = 0 :=
  Tab.get_map (fun (m _ : Mantel) => m.acc = 0 ∧ m.count = 0) {} _ (fun m => (m.1, { m.2 with acc := 0, count := 0 }))
    (fun _ => rfl) ⟨rfl, rfl⟩ (fun _ => ⟨rfl, rfl⟩) q.toNat

theorem exec_vendorDebugToken {s : State} {body : W64} (hq : s.plat.dbgReqs = [])
    (ht : Config.tokenValid none (packFields [(64, body.toNat), (456, s.plat.idPub.toNat)]) = true) :
    exec (.vendorDebugToken body) s = .next { s.wipe with plat := { s.plat with sec := 3 } } :=
  if_pos ⟨hq, ht⟩

theorem exec_vendorDebugToken_none {s : State} {body : W64} (h : s.plat.dbgReqs ≠ [] ∨
    Config.tokenValid none (packFields [(64, body.toNat), (456, s.plat.idPub.toNat)]) = false) :
    exec (.vendorDebugToken body) s = .next s :=
  if_neg (by rcases h with h | h <;> simp [h])

/-! The obligation -/

/-- Settles O60, clause by clause: the request that a free token serves is the one that the fold of `higherOf` ends with, errors leave the records of
`postError_record`, a boot takes `bootPlatform`, and the debug port answers the only request at its head (`dbgDone_only`). -/
theorem platformEvents : Obligations.PlatformEvents := by
  unfold Obligations.PlatformEvents
  refine ⟨?_, ?_, ?_, ?_, ?_, ?_, ?_, ?_, ?_, ?_, ?_, ?_⟩
  · -- tokens
    intro s d c
    exact ⟨fun h => exec_tokenGrant_none (h.imp_right tokenNext_none), tokenNext_spec,
      fun h hp hc => ⟨_, exec_tokenGrant h hp, grantToken_spec s d c hc⟩⟩
  · exact exec_tokenRequestPromote
  · -- boosts, granules and the start of a lane block
    intro s gid k w tl
    have hsleep : ∀ {b i}, exec i s = .next (s.setGroup gid { s.group gid with
        rg := { (s.group gid).rg with drowsy := putBit (s.group gid).rg.drowsy k.toNat b } }) →
        ∃ z, exec i s = .next (s.setGroup gid { s.group gid with rg := { (s.group gid).rg with drowsy := z } }) ∧
          ∀ j, j < 32 → z.getLsbD j = if j = k.toNat then b else (s.group gid).rg.drowsy.getLsbD j :=
      fun h => ⟨_, h, fun j hj => getLsbD_putBit _ _ j hj⟩
    refine ⟨fun h => ?_, fun h => ?_, fun lane h => ?_, fun b p hw hr hp => ?_,
      fun hl => ⟨hsleep (exec_granuleWake hl k), fun hi ht hk hd => hsleep (exec_granuleDrowsy hl hi ht hk hd),
        fun hd => exec_granuleDrowsy_none (.inl hd), fun hh hq ha he => ?_, fun hh hq ha he => ?_⟩,
      fun hd => exec_granuleDrowsy_none (.inr hd)⟩
    · rw [exec_issueBoost, if_pos h]; rfl
    · rw [exec_issueBoost, if_pos h]; rfl
    · rw [exec_issueBoost, h]; rfl
    · rw [exec_issueBoost, streamReady_bar hw hr hp]; rfl
    · rw [exec_laneBlockStart hl hh, startBlock_exited hq ha he]
    · rw [exec_laneBlockStart hl hh, startBlock_runs hq ha he]
  · -- the power manager
    intro s a b n
    exact ⟨powerMove_pools, fun ha hb => hb ▸ powerMove_toReserve ha, fun ha hb => ha ▸ powerMove_fromReserve hb, powerMove_poor⟩
  · -- power of a core
    intro s c
    refine ⟨fun l o x hl hd hst hr ho hx hc hp => ?_, ?_, ?_⟩
    · exact Bool.or_eq_true .. ▸ .inr (placePending_of_saved hl hd hst hr ho hx hc hp)
    · show execCorePowerOff c s = _
      rw [execCorePowerOff]
      split <;> rfl
    · show execCorePowerOn c s = _
      rw [execCorePowerOn]
      split <;> rfl
  · -- errors
    intro s a code port link e c v
    refine ⟨fun hn hr => ?_, fun g k sr => ⟨fun hl hk => ?_, fun hl => ?_, fun hl => ⟨?_, ?_⟩, ?_, ?_⟩, ?_, ?_, rfl, rfl, rfl, rfl⟩
    · exact exec_uncorrectedError (strike_mem hn hr) rfl
    · exact ⟨_, exec_uncorrectedError (strike_reg hl hk) rfl, fun y => mem_insertOnce⟩
    · refine ⟨_, exec_uncorrectedError (strike_scale hl) rfl, fun j hj => ?_⟩
      rw [getLsbD_putBit _ _ j hj]
      by_cases h : j = sr.toNat <;> simp [h]
    · exact exec_uncorrectedError_none (strike_reg_dead hl k)
    · exact exec_uncorrectedError_none (strike_scale_dead hl sr)
    · exact selfTestComplete_posts rfl
    · exact selfTestComplete_posts rfl
    · exact selfTestComplete_posts (ErrWord.norm_norm (.mem a))
    · exact fun hp => fabricLinkLost_posts hp s
  · -- boot
    intro b s
    obtain ⟨hboots, htdbg, hflash, hid, hkey⟩ := bootPlatform_kept s.plat
    exact ⟨_, exec_boot b s, rfl, rfl, rfl, rfl, rfl, rfl, rfl, rfl, rfl, hboots, htdbg, hflash, hid, hkey, rfl,
      fun v h seq body => bootPlatform_starts, bootPlatform_recovers⟩
  · exact fun flash k seq body => mem_appliedRecords
  · exact fun flash v h => bootFirmware_spec
  · -- the mantel
    intro s p msg
    exact ⟨exec_mantelQuote, fun h => ⟨exec_mantelQuote_busy h, exec_quoteComplete h⟩, rfl⟩
  · -- the debug port
    intro s gid off w d
    refine ⟨fun h => dbgInstr_idle h gid off d, fun h => dbgInstr_gated (dbgGate_denied h gid),
      fun h ho => dbgInstr_gated (dbgGate_off h ho), fun h ho hl => dbgInstr_gated (dbgGate_noGroup h ho hl), fun hg ho => ?_,
      fun hg hr => ?_⟩
    · exact ⟨debugRead_area hg ho, debugRead_scales hg ho, debugRead_regs hg ho, debugRead_beyond hg ho,
        debugWrite_area_running hg ho, debugWrite_regs_running hg ho, debugWrite_beyond hg ho,
        fun hr hp hd hm => ⟨_, debugWrite_regs hg ho hr hp hd hm, bytes_dbgPut .., fun b => byte_dbgPut _ _ _, dbgPut_eq ..⟩,
        debugWrite_pc hg ho, debugResume_stays hg, debugResume_goes hg⟩
    · refine ⟨_, debugHalt_done hg hr, haltGroup_halted s gid, fun hw => ?_, haltGroup_frozen, ?_⟩
      · exact (haltGroup_group hw).trans (halt_settle _)
      · exact debugHalt_plat hr
  · -- the tokens that open the port
    intro s p boot body
    refine ⟨fun hb ht => ⟨_, exec_tenantDebugToken hb ht, fun j hj => ?_⟩, exec_tenantDebugToken_none, exec_vendorDebugToken_none,
      fun hq ht => ⟨_, exec_vendorDebugToken hq ht, rfl, wipe_group s, fun a => wipe_mem s, wipe_mantel s⟩⟩
    rw [getLsbD_putBit _ _ j hj]
    by_cases h : j = p.toNat <;> simp [h]

end Sys2Proof.Machine
end


section
/-! PROOFS. Ranges of memory that an instruction of classes 6 and 7 reads or writes: their addresses, their bytes (O55). -/

set_option Elab.async false

namespace Sys2Proof.Machine

/-! Lists of ranges -/

/-- A range of a statement as the model's own. -/
def spanOfRange (x : BitVec 3 × Nat × Nat) : Span := { win := x.1, off := x.2.1, len := x.2.2 }

/-- The addresses of the bytes of a list of ranges, where byte j of range i lies at `pa i j`. -/
def rangeAddrs : List (BitVec 3 × Nat × Nat) → (Nat → Nat → Nat) → List (List Nat)
  | [], _ => []
  | x :: l, pa => (List.range x.2.2).map (pa 0) :: rangeAddrs l (fun i => pa (i + 1))

theorem length_rangeAddrs (l : List (BitVec 3 × Nat × Nat)) (pa : Nat → Nat → Nat) : (rangeAddrs l pa).length = l.length := by
  induction l generalizing pa with
  | nil => rfl
  | cons x l ih => rw [rangeAddrs, List.length_cons, ih, List.length_cons]

/-- Range 0 of a list lies where it is to, and so do the others. -/
theorem rangesHit_cons {s : State} {shf : Bool} {k : AKind} {x : BitVec 3 × Nat × Nat} {l : List (BitVec 3 × Nat × Nat)}
    {pa : Nat → Nat → Nat} (h : RangesHit s shf k (x :: l) pa) :
    (if shf then ∀ j, j < x.2.2 → SlotHit s ((x.2.1 + j) / 4096) ((x.2.1 + j) % 4096) 1 (pa 0 j)
      else WindowHit s x.1 x.2.1 x.2.2 k (pa 0 0) ∧ ∀ j, j < x.2.2 → pa 0 j = pa 0 0 + j) ∧
    RangesHit s shf k l (fun i => pa (i + 1)) :=
  ⟨h 0 (Nat.succ_pos _), fun i hi => h (i + 1) (Nat.succ_lt_succ hi)⟩

theorem rangesRead_cons {s : State} {x : BitVec 3 × Nat × Nat} {l : List (BitVec 3 × Nat × Nat)} {pa : Nat → Nat → Nat}
    (h : RangesRead s (x :: l) pa) :
    (∀ j, j < x.2.2 → Readable s (pa 0 j) 1) ∧ RangesRead s l (fun i => pa (i + 1)) :=
  ⟨fun j hj => h 0 j (Nat.succ_pos _) hj, fun i j hi hj => h (i + 1) j (Nat.succ_lt_succ hi) hj⟩

/-! Ranges through windows -/

/-- A range in one page of a window resolves without a fault (R277). -/
theorem resolveOne_hit {s : State} {w : BitVec 3} {o n a : Nat} {k : AKind} (h : WindowHit s w o n k a) :
    (resolveOne (fun o => windowAccess s.curG w o k) n { off := o, va := s.cur.winVa w o } []).run s =
      .ok ((List.range n).map (a + ·), []) s := by
  have hp := windowAccess_hit h
  obtain ⟨_, _, _, hpage, _, _⟩ := h
  have hroom : n ≤ 0x10000 - (s.cur.winVa w o).toNat % 0x10000 := by
    unfold Group.winVa
    omega
  unfold resolveOne resolvePart
  simp only [run_bind, run_pure, List.any_nil, Bool.false_eq_true, if_false, run_attempt, hp, hroom, if_true, Option.getD_some]

theorem resolveSpans_hit {s : State} {k : AKind} {l : List (BitVec 3 × Nat × Nat)} {pa : Nat → Nat → Nat}
    (h : RangesHit s false k l pa) : (resolveSpans k (l.map spanOfRange) []).run s = .ok (rangeAddrs l pa, []) s := by
  induction l generalizing pa with
  | nil => rfl
  | cons x l ih =>
    obtain ⟨hx, hl⟩ := rangesHit_cons h
    obtain ⟨hwin, hpa⟩ := hx
    have haddrs : (List.range x.2.2).map (pa 0 0 + ·) = (List.range x.2.2).map (pa 0) :=
      List.map_congr_left fun j hj => (hpa j (List.mem_range.mp hj)).symm
    rw [List.map_cons, resolveSpans, run_bind, run_get]
    dsimp only
    rw [run_bind, spanOfRange, resolveOne_hit hwin]
    dsimp only
    rw [run_bind, ih hl]
    dsimp only
    rw [run_pure, rangeAddrs, haddrs]

/-! Ranges of the shelf -/

/-- The physical address of the frame that a slot of the current group's block shows (R72). -/
def slotFrame (s : State) (sl : Nat) : Nat :=
  match s.blockAt s.cur with
  | some b => frameBase s.curG.core (bitsOf (Sparse.get (s.core s.curG.core).tags (b.slotBase.toNat + sl)) 48 8)
  | none => 0

/-- The physical address of an offset of the shelf. -/
def slotAddr (s : State) (o : Nat) : Nat := slotFrame s (o / 4096) + o % 4096

theorem slotHit_addr {s : State} {sl o n a : Nat} (h : SlotHit s sl o n a) : a = slotFrame s sl + o := by
  obtain ⟨b, hb, _, _, _, ha⟩ := h
  rw [ha, slotFrame, hb]

theorem shelfResolve_hit {s : State} {sl o n a : Nat} (h : SlotHit s sl o n a) : (shelfResolve s.curG sl o n).run s = .ok a s := by
  obtain ⟨b, hb, hsl, ho, hvalid, rfl⟩ := h
  have hcur : s.group s.curG = s.cur := rfl
  unfold shelfResolve
  rw [run_bind, run_get]
  dsimp only
  rw [hcur, hb]
  dsimp only
  rw [if_neg (by omega), if_neg (by simp [hvalid]), run_pure]

/-- An offset lies in a slot that the block holds. -/
def OffsetHeld (s : State) (o : Nat) : Prop := SlotHit s (o / 4096) (o % 4096) 1 (slotAddr s o)

/-- A table of slots that gives each one's frame. -/
def FramesOk (s : State) (t : List (Nat × Nat)) : Prop := ∀ x ∈ t, x.2 = slotFrame s x.1

/-- The table for offsets in slots of the block keeps what it had, gives each slot's frame and has the slot of each offset. -/
theorem shelfTable_hit {s : State} {l : List Nat} (h : ∀ o ∈ l, OffsetHeld s o) {t : List (Nat × Nat)} (ht : FramesOk s t) :
    ∃ t', (shelfTable s.curG l t).run s = .ok t' s ∧ FramesOk s t' ∧ (∀ x ∈ t, x ∈ t') ∧ ∀ o ∈ l, ∃ x ∈ t', x.1 = o / 4096 := by
  induction l generalizing t with
  | nil => exact ⟨t, rfl, ht, fun _ hx => hx, by simp⟩
  | cons o l ih =>
    obtain ⟨ho, hl⟩ : OffsetHeld s o ∧ ∀ o ∈ l, OffsetHeld s o := by simpa using h
    rw [shelfTable]
    by_cases hin : t.any (fun x => x.1 == o / 4096) = true
    · obtain ⟨t', hrun, hok, hsub, hall⟩ := ih hl ht
      obtain ⟨x, hx, hxo⟩ : ∃ x ∈ t, x.1 = o / 4096 := by simpa using hin
      refine ⟨t', by rw [if_pos hin, hrun], hok, hsub, fun p hp => ?_⟩
      rcases List.mem_cons.mp hp with rfl | hp
      · exact ⟨x, hsub x hx, hxo⟩
      · exact hall p hp
    · have hnew : FramesOk s (t ++ [(o / 4096, slotAddr s o - o % 4096)]) := fun x hx => by
        rcases List.mem_append.mp hx with hx | hx
        · exact ht x hx
        · obtain rfl := List.mem_singleton.mp hx
          exact Nat.add_sub_cancel ..
      obtain ⟨t', hrun, hok, hsub, hall⟩ := ih hl hnew
      refine ⟨t', ?_, hok, fun x hx => hsub x (List.mem_append_left _ hx), fun p hp => ?_⟩
      · rw [if_neg hin, run_bind, shelfResolve_hit ho]
        exact hrun
      · rcases List.mem_cons.mp hp with rfl | hp
        · exact ⟨_, hsub _ (List.mem_append_right _ (List.mem_singleton.mpr rfl)), rfl⟩
        · exact hall p hp

theorem shelfPa_eq {s : State} {t : List (Nat × Nat)} (ht : FramesOk s t) {o : Nat} (ho : ∃ x ∈ t, x.1 = o / 4096) :
    shelfPa t o = slotAddr s o := by
  obtain ⟨x, hx, hxo⟩ := ho
  have hsome : (t.find? (fun x => x.1 == o / 4096)).isSome = true := by
    rw [List.find?_isSome]
    exact ⟨x, hx, by simp [hxo]⟩
  obtain ⟨y, hy⟩ := Option.isSome_iff_exists.mp hsome
  have hyo : y.1 = o / 4096 := by simpa using List.find?_some hy
  rw [shelfPa, hy, Option.getD_some, ht y (List.mem_of_find?_eq_some hy), hyo, slotAddr]

/-- The offsets of a list of ranges. -/
def rangeOffsets (l : List (BitVec 3 × Nat × Nat)) : List (List Nat) :=
  l.map (fun x => (List.range x.2.2).map (x.2.1 + ·))

theorem offsetHeld_of_rangesHit {s : State} {k : AKind} {l : List (BitVec 3 × Nat × Nat)} {pa : Nat → Nat → Nat}
    (h : RangesHit s true k l pa) : ∀ o ∈ (rangeOffsets l).flatten, OffsetHeld s o := by
  induction l generalizing pa with
  | nil => simp [rangeOffsets]
  | cons x l ih =>
    obtain ⟨hx, hl⟩ := rangesHit_cons h
    intro o ho
    rw [rangeOffsets, List.map_cons, List.flatten_cons, List.mem_append, ← rangeOffsets] at ho
    rcases ho with ho | ho
    · obtain ⟨j, hj, rfl⟩ := List.mem_map.mp ho
      have hslot := hx j (List.mem_range.mp hj)
      unfold OffsetHeld slotAddr
      rwa [← slotHit_addr hslot]
    · exact ih hl o ho

theorem rangeAddrs_shelf {s : State} {k : AKind} {l : List (BitVec 3 × Nat × Nat)} {pa : Nat → Nat → Nat}
    (h : RangesHit s true k l pa) : rangeAddrs l pa = (rangeOffsets l).map (fun os => os.map (slotAddr s)) := by
  induction l generalizing pa with
  | nil => rfl
  | cons x l ih =>
    obtain ⟨hx, hl⟩ := rangesHit_cons h
    have hfirst : (List.range x.2.2).map (pa 0) = ((List.range x.2.2).map (x.2.1 + ·)).map (slotAddr s) := by
      rw [List.map_map]
      refine List.map_congr_left fun j hj => ?_
      rw [Function.comp_apply, slotAddr]
      exact slotHit_addr (hx j (List.mem_range.mp hj))
    rw [rangeAddrs, ih hl, hfirst]
    rfl

/-! Both -/

/-- Ranges that lie where they are to resolve to their addresses, with nothing changed (R277). -/
theorem spanAddrs_hit {s : State} {shf : Bool} {k : AKind} {l : List (BitVec 3 × Nat × Nat)} {pa : Nat → Nat → Nat}
    (h : RangesHit s shf k l pa) : (spanAddrs shf k (l.map spanOfRange)).run s = .ok (rangeAddrs l pa) s := by
  unfold spanAddrs
  cases shf with
  | false =>
    rw [if_neg Bool.false_ne_true, run_bind, resolveSpans_hit h]
    rfl
  | true =>
    have hoffs : (l.map spanOfRange).map (fun x => (List.range x.len).map (x.off + ·)) = rangeOffsets l := by
      rw [List.map_map]
      rfl
    obtain ⟨t, hrun, hok, -, hall⟩ := shelfTable_hit (offsetHeld_of_rangesHit h) (t := []) (by simp [FramesOk])
    rw [if_pos rfl, hoffs, run_bind, run_get]
    dsimp only
    rw [run_bind, hrun]
    dsimp only
    rw [run_pure, rangeAddrs_shelf h]
    refine congrArg (EStateM.Result.ok · s) (List.map_congr_left fun os hos => List.map_congr_left fun o ho => ?_)
    exact shelfPa_eq hok (hall o (List.mem_flatten.mpr ⟨os, hos, ho⟩))

/-! Reads -/

theorem physRead_readable {s : State} {va : W64} {a : Nat} (h : Readable s a 1) :
    (physRead (groupAgent s.curG s.cur) va a 1).run s = .ok (Sparse.get s.mem a).toNat s := by
  obtain ⟨hnode, hreg, hbad, htag⟩ := h
  unfold physRead
  rw [run_bind, run_get]
  dsimp only
  rw [if_neg (by simp [hnode]), if_pos hreg, htag]
  dsimp only
  rw [hbad, if_neg Bool.false_ne_true, run_pure, peek, peek, Nat.mul_zero, Nat.add_zero]

theorem readEach_hit {s : State} {va : W64} {l : List Nat} (h : ∀ a ∈ l, Readable s a 1) :
    (readEach (groupAgent s.curG s.cur) va l).run s = .ok (l.map (Sparse.get s.mem)) s := by
  induction l with
  | nil => rfl
  | cons a l ih =>
    obtain ⟨ha, hl⟩ : Readable s a 1 ∧ ∀ a ∈ l, Readable s a 1 := by simpa using h
    rw [readEach, run_bind, physRead_readable ha]
    dsimp only
    rw [run_bind, ih hl]
    dsimp only
    rw [run_pure, BitVec.ofNat_toNat, BitVec.setWidth_eq, List.map_cons]

/-- The bytes of every range. -/
def rangeData (m : Sparse 8) (l : List (BitVec 3 × Nat × Nat)) (pa : Nat → Nat → Nat) : List (List Byte) :=
  (List.range l.length).map (rangeBytes m l pa)

theorem rangeData_cons (m : Sparse 8) (x : BitVec 3 × Nat × Nat) (l : List (BitVec 3 × Nat × Nat)) (pa : Nat → Nat → Nat) :
    rangeData m (x :: l) pa = (List.range x.2.2).map (fun j => Sparse.get m (pa 0 j)) :: rangeData m l (fun i => pa (i + 1)) := by
  rw [rangeData, List.length_cons, List.range_succ_eq_map, List.map_cons, List.map_map]
  rfl

theorem readSpans_hit {s : State} {shf : Bool} {l : List (BitVec 3 × Nat × Nat)} {pa : Nat → Nat → Nat} (h : RangesRead s l pa) :
    (readSpans shf ((l.map spanOfRange).zip (rangeAddrs l pa))).run s = .ok (rangeData s.mem l pa) s := by
  induction l generalizing pa with
  | nil => rfl
  | cons x l ih =>
    obtain ⟨hx, hl⟩ := rangesRead_cons h
    have hread : ∀ a ∈ (List.range x.2.2).map (pa 0), Readable s a 1 := fun a ha => by
      obtain ⟨j, hj, rfl⟩ := List.mem_map.mp ha
      exact hx j (List.mem_range.mp hj)
    rw [List.map_cons, rangeAddrs, List.zip_cons_cons, readSpans, run_bind, run_curAgent]
    dsimp only
    rw [run_bind, run_getCur]
    dsimp only
    rw [run_bind, readEach_hit hread]
    dsimp only
    rw [run_bind, ih hl]
    dsimp only
    rw [run_pure, rangeData_cons, List.map_map]
    rfl

/-! Writes -/

/-- One byte written by a group (R42, R67). -/
def State.putByte (s : State) (who : Option (BitVec 3 × W32 × W32)) (p : Nat × Byte) : State := (s.write p.1 [p.2]).tagWrite who p.1 1

/-- Bytes written one after another. -/
def State.putBytes (s : State) (who : Option (BitVec 3 × W32 × W32)) (l : List (Nat × Byte)) : State :=
  l.foldl (fun s p => s.putByte who p) s

theorem putByte_stored (s : State) (who : Option (BitVec 3 × W32 × W32)) (p : Nat × Byte) : StoredAt s (s.putByte who p) p.1 1 :=
  storedAt_write s who p.1 [p.2]

theorem get_putByte (s : State) (who : Option (BitVec 3 × W32 × W32)) (p : Nat × Byte) (a : Nat) :
    Sparse.get (s.putByte who p).mem a = if a = p.1 then p.2 else Sparse.get s.mem a := by
  unfold State.putByte
  rw [tagWrite_eq]
  exact Sparse.get_set s.mem p.1 a p.2

/-- `t` is `s` with bytes of memory written, nothing else changed but monitors, write tags and uncorrectable words. -/
def BytesPut (s t : State) : Prop :=
  (∀ g : Gid, t.group g = { s.group g with fired := (t.group g).fired }) ∧
  t = { s with mem := t.mem, groups := t.groups, dtags := t.dtags, badWords := t.badWords }

theorem putBytes_bytesPut (s : State) (who : Option (BitVec 3 × W32 × W32)) (l : List (Nat × Byte)) : BytesPut s (s.putBytes who l) := by
  induction l generalizing s with
  | nil => exact ⟨fun _ => rfl, rfl⟩
  | cons p l ih =>
    obtain ⟨-, hgroup, heq⟩ := putByte_stored s who p
    obtain ⟨hgroup', heq'⟩ := ih (s.putByte who p)
    rw [State.putBytes, List.foldl_cons, ← State.putBytes]
    refine ⟨fun g => ?_, ?_⟩
    · rw [hgroup' g, hgroup g]
    · rw [heq', heq]

/-- The last byte written to an address is there: the only one, where every byte for it is the same. -/
theorem get_putBytes (s : State) (who : Option (BitVec 3 × W32 × W32)) (l : List (Nat × Byte)) (a : Nat) :
    ((∀ p ∈ l, p.1 ≠ a) → Sparse.get (s.putBytes who l).mem a = Sparse.get s.mem a) ∧
    ∀ b, (∃ p ∈ l, p.1 = a) → (∀ p ∈ l, p.1 = a → p.2 = b) → Sparse.get (s.putBytes who l).mem a = b := by
  induction l generalizing s with
  | nil => exact ⟨fun _ => rfl, fun b h => by simp at h⟩
  | cons p l ih =>
    obtain ⟨hno, hyes⟩ := ih (s.putByte who p)
    rw [State.putBytes, List.foldl_cons, ← State.putBytes]
    refine ⟨fun h => ?_, fun b h hb => ?_⟩
    · obtain ⟨hp, hl⟩ : p.1 ≠ a ∧ ∀ p ∈ l, p.1 ≠ a := by simpa using h
      rw [hno hl, get_putByte, if_neg (Ne.symm hp)]
    · by_cases hl : ∃ p ∈ l, p.1 = a
      · exact hyes b hl fun q hq => hb q (.tail _ hq)
      · have hl' : ∀ p ∈ l, p.1 ≠ a := fun q hq he => hl ⟨q, hq, he⟩
        have hp : p.1 = a := by
          obtain ⟨q, hq, he⟩ := h
          rcases List.mem_cons.mp hq with rfl | hq
          · exact he
          · exact absurd he (hl' q hq)
        rw [hno hl', get_putByte, if_pos hp.symm]
        exact hb p (.head _) hp

theorem cur_of_bytesPut {s t : State} (h : BytesPut s t) : t.cur = { s.cur with fired := t.cur.fired } := by
  obtain ⟨hgroup, heq⟩ := h
  have hcur : t.curG = s.curG := by rw [heq]
  unfold State.cur
  rw [hcur]
  exact hgroup s.curG

theorem agent_of_bytesPut {s t : State} (h : BytesPut s t) : groupAgent t.curG t.cur = groupAgent s.curG s.cur := by
  have hcurG : t.curG = s.curG := by
    obtain ⟨-, heq⟩ := h
    rw [heq]
  rw [cur_of_bytesPut h, hcurG]
  rfl

/-- Every address is memory of this package that a write changes. -/
def Writable (a : Nat) : Prop := paNode a = 0 ∧ paRegion a < 2

theorem writeEach_hit (s : State) (ag : Agent) {l : List (Nat × Byte)} (h : ∀ p ∈ l, Writable p.1) :
    (writeEach ag l).run s = .ok () (s.putBytes ag.who l) := by
  induction l generalizing s with
  | nil => rfl
  | cons p l ih =>
    obtain ⟨hp, hl⟩ : Writable p.1 ∧ ∀ p ∈ l, Writable p.1 := by simpa using h
    obtain ⟨hnode, hreg⟩ := hp
    rw [writeEach, run_bind, physWrite_mem hnode hreg]
    exact ih (s.putByte ag.who p) hl

theorem writeSpans_hit (s : State) {l : List (List Nat × List Byte)} (h : ∀ x ∈ l, ∀ p ∈ x.1.zip x.2, Writable p.1) :
    (writeSpans l).run s = .ok () (s.putBytes (groupAgent s.curG s.cur).who (l.flatMap (fun x => x.1.zip x.2))) := by
  induction l generalizing s with
  | nil => rfl
  | cons x l ih =>
    obtain ⟨hx, hl⟩ := List.forall_mem_cons.mp h
    have hag := agent_of_bytesPut (putBytes_bytesPut s (groupAgent s.curG s.cur).who (x.1.zip x.2))
    rw [writeSpans, run_bind, run_curAgent]
    dsimp only
    rw [run_bind, writeEach_hit s _ hx]
    dsimp only
    rw [ih _ hl, hag, List.flatMap_cons, State.putBytes, State.putBytes, State.putBytes, List.foldl_append]

/-- The bytes for each range, in order. -/
def rangePieces (l : List (BitVec 3 × Nat × Nat)) (b : Nat → Nat → Byte) : List (List Byte) :=
  (List.range l.length).map (fun i => (List.range (l.getD i (0, 0, 0)).2.2).map (b i))

theorem rangePieces_cons (x : BitVec 3 × Nat × Nat) (l : List (BitVec 3 × Nat × Nat)) (b : Nat → Nat → Byte) :
    rangePieces (x :: l) b = (List.range x.2.2).map (b 0) :: rangePieces l (fun i => b (i + 1)) := by
  rw [rangePieces, List.length_cons, List.range_succ_eq_map, List.map_cons, List.map_map]
  rfl

/-- The bytes that a list of ranges is to take, each with its address. -/
theorem mem_zip_ranges {l : List (BitVec 3 × Nat × Nat)} {pa : Nat → Nat → Nat} {b : Nat → Nat → Byte} {p : Nat × Byte} :
    p ∈ ((rangeAddrs l pa).zip (rangePieces l b)).flatMap (fun x => x.1.zip x.2) ↔
      ∃ i j, i < l.length ∧ j < (l.getD i (0, 0, 0)).2.2 ∧ p = (pa i j, b i j) := by
  induction l generalizing pa b with
  | nil => simp [rangeAddrs]
  | cons x l ih =>
    have hx : p ∈ ((List.range x.2.2).map (pa 0)).zip ((List.range x.2.2).map (b 0)) ↔ ∃ j, j < x.2.2 ∧ p = (pa 0 j, b 0 j) := by
      rw [List.zip_map', List.mem_map]
      simp only [List.mem_range, eq_comm]
    rw [rangeAddrs, rangePieces_cons, List.zip_cons_cons, List.flatMap_cons, List.mem_append, hx, ih]
    constructor
    · rintro (⟨j, hj, hp⟩ | ⟨i, j, hi, hj, hp⟩)
      · exact ⟨0, j, Nat.succ_pos _, hj, hp⟩
      · exact ⟨i + 1, j, Nat.succ_lt_succ hi, hj, hp⟩
    · rintro ⟨i, j, hi, hj, hp⟩
      cases i with
      | zero => exact .inl ⟨j, hj, hp⟩
      | succ i => exact .inr ⟨i, j, Nat.lt_of_succ_lt_succ hi, hj, hp⟩

/-- Ranges of memory take the bytes given (R42, R277). -/
theorem writeSpans_ranges {s : State} {l : List (BitVec 3 × Nat × Nat)} {pa : Nat → Nat → Nat} (b : Nat → Nat → Byte)
    (h : ∀ i j, i < l.length → j < (l.getD i (0, 0, 0)).2.2 → Writable (pa i j)) :
    ∃ t, (writeSpans ((rangeAddrs l pa).zip (rangePieces l b))).run s = .ok () t ∧ RangesStored s t l pa b ∧
      t.cur = { s.cur with fired := t.cur.fired } := by
  have hw : ∀ x ∈ (rangeAddrs l pa).zip (rangePieces l b), ∀ p ∈ x.1.zip x.2, Writable p.1 := fun x hx p hp => by
    obtain ⟨i, j, hi, hj, rfl⟩ := mem_zip_ranges.mp (List.mem_flatMap.mpr ⟨x, hx, hp⟩)
    exact h i j hi hj
  have hput := putBytes_bytesPut s (groupAgent s.curG s.cur).who
    (((rangeAddrs l pa).zip (rangePieces l b)).flatMap (fun x => x.1.zip x.2))
  have ⟨hgroup, heq⟩ := hput
  refine ⟨_, writeSpans_hit s hw, ⟨fun a ha => ?_, fun hinj i j hi hj => ?_, fun g _ => hgroup g, heq⟩, cur_of_bytesPut hput⟩
  · refine (get_putBytes s _ _ a).1 fun p hp => ?_
    obtain ⟨i, j, hi, hj, rfl⟩ := mem_zip_ranges.mp hp
    exact ha i j hi hj
  · refine (get_putBytes s _ _ (pa i j)).2 (b i j) ⟨_, mem_zip_ranges.mpr ⟨i, j, hi, hj, rfl⟩, rfl⟩ fun p hp he => ?_
    obtain ⟨i', j', hi', hj', rfl⟩ := mem_zip_ranges.mp hp
    by_cases hij : (i', j') = (i, j)
    · obtain ⟨rfl, rfl⟩ := Prod.mk.injEq .. ▸ hij
      rfl
    · exact absurd he (hinj i' j' i j hi' hj' hi hj hij)

end Sys2Proof.Machine
end


section
/-! PROOFS. Tile loads and stores: what they read, what they write, how they trap, and how a load lands (O55). -/

set_option Elab.async false

namespace Sys2Proof.Machine

/-! What queue pops depend on -/

/-- Popping a queue operand looks at the queues and at the lane predicates alone. -/
theorem popQ_congr {g g' : Group} (hq : g'.q = g.q) (hp : g'.ln.p = g.ln.p) (o : Opnd) :
    (g'.popQ o).q = (g.popQ o).q ∧ (g'.popQ o).ln.p = (g.popQ o).ln.p := by
  have hset : ∀ (p : BitVec 3) (b : Bool) (y y' : Group), y'.q = y.q → y'.ln.p = y.ln.p →
      (y'.setPrAll p b).q = (y.setPrAll p b).q ∧ (y'.setPrAll p b).ln.p = (y.setPrAll p b).ln.p := fun p b y y' hq hp => by
    unfold Group.setPrAll Group.setPr
    split
    · exact ⟨hq, by simp only [hp]⟩
    · exact ⟨hq, hp⟩
  unfold Group.popQ
  cases o with
  | q i => exact ⟨by rw [hq], hp⟩
  | qp i p =>
    dsimp only
    rw [hq]
    split
    · exact hset _ _ _ _ hq hp
    · exact hset _ _ _ _ rfl hp
  | _ => exact ⟨hq, hp⟩

theorem popAll_congr {g g' : Group} (hq : g'.q = g.q) (hp : g'.ln.p = g.ln.p) (l : List (Opnd × Nat)) :
    (g'.popAll l).q = (g.popAll l).q ∧ (g'.popAll l).ln.p = (g.popAll l).ln.p := by
  induction l generalizing g g' with
  | nil => exact ⟨hq, hp⟩
  | cons o l ih =>
    obtain ⟨hq', hp'⟩ := popQ_congr hq hp o.1
    exact ih hq' hp'

/-- Two groups with the same queues and predicates take the same of both from a list of pops, and keep what else they hold. -/
theorem popAll_beside {g g' : Group} (hq : g'.q = g.q) (hp : g'.ln.p = g.ln.p) (l : List (Opnd × Nat)) : ∃ q p,
    g.popAll l = { g with q := q, ln := { g.ln with p := p } } ∧ g'.popAll l = { g' with q := q, ln := { g'.ln with p := p } } := by
  obtain ⟨hq', hp'⟩ := popAll_congr hq hp l
  exact ⟨_, _, popAll_eq g l, (popAll_eq g' l).trans (by rw [hq', hp'])⟩

/-! The words that thread v gives (R276) -/

section

variable {a : Opnd} {ps : List Nat} {g : Group} {v : Nat}

theorem mxSrcs_lane (hv : v < 64) : (mxSrcs a ps g v).lane = v := by
  have hfind : (List.range 64).find? (fun k => bitOf (1#64 <<< v) k) = some v := by
    rw [List.find?_range_eq_some]
    refine ⟨by simp [bitOf, hv], List.mem_range.mpr hv, fun j hj => ?_⟩
    simp [bitOf, hj]
  rw [Srcs.lane, mxSrcs, hfind, Option.getD_some]

theorem mxSrcs_addr (hv : v < 64) : (mxSrcs a ps g v).addr = g.srcVal a 1 v % 2 ^ 32 := by
  rw [Srcs.addr, mxSrcs_lane hv]
  show (vword (g.srcReg a 0) v).toNat = _
  rw [Group.srcReg, vword_vbuild _ v hv, BitVec.toNat_ofNat, Nat.mul_zero, Nat.pow_zero, Nat.div_one]

variable {c : Opnd}

theorem paramWords_s (k : Nat) (hk : k < 2) :
    ((mxSrcs a (paramWords g c 2 v) g v).s k).toNat = g.srcVal c 2 v / 2 ^ (32 * k) % 2 ^ 32 := by
  have hs : (mxSrcs a (paramWords g c 2 v) g v).s k = BitVec.ofNat 64 (g.srcVal c 2 v / 2 ^ (32 * k) % 2 ^ 32) := by
    simp [Srcs.s, mxSrcs, paramWords, List.getD_eq_getElem?_getD, hk]
  rw [hs, BitVec.toNat_ofNat]
  exact Nat.mod_eq_of_lt (Nat.lt_trans (Nat.mod_lt _ (by decide)) (by decide))

theorem paramWords_low : bitsOf ((mxSrcs a (paramWords g c 2 v) g v).s 1) 0 32 = g.srcVal c 2 v / 2 ^ (32 * 1) % 2 ^ 32 := by
  rw [bitsOf_zero, paramWords_s 1 (by decide), Nat.mod_mod]

end

theorem run_checkPitch {s : State} {x : Srcs} (h : bitsOf (x.s 0) 20 12 = 0) : (checkPitch x).run s = .ok () s := by
  rw [checkPitch, if_neg (by simp [h])]
  rfl

theorem run_checkPitch_bad {s : State} {x : Srcs} (h : bitsOf (x.s 0) 20 12 ≠ 0) :
    (checkPitch x).run s = .error (.fault { cause := .mxFormat, here := true }) s := by
  rw [checkPitch, if_pos h]
  rfl

/-! The ranges of a tile (R280) -/

/-- The ranges of a `tld` or `tst`: the rows from an address at a pitch, then the scales. -/
def tileRanges (d : W64) (win swin : BitVec 3) (sc : Bool) (addr p0 p1 : Nat) : List (BitVec 3 × Nat × Nat) :=
  (List.range (tdRows d)).map (fun i => (win, addr + i * (if p0 % 2 ^ 20 = 0 then tdBytes d else p0 % 2 ^ 20), tdBytes d)) ++
    (if sc then [(swin, p1, 64)] else [])

section

variable (d : W64) (win swin : BitVec 3) (sc : Bool) (addr p0 p1 : Nat)

theorem tileSpans_eq (x : Srcs) : tileSpans d win swin sc x =
    (tileRanges d win swin sc x.addr (x.s 0).toNat (bitsOf (x.s 1) 0 32)).map spanOfRange := by
  rw [tileSpans, rowSpans, tileRanges, List.map_append, List.map_map]
  cases sc <;> rfl

theorem length_tileRanges : (tileRanges d win swin sc addr p0 p1).length = tdRows d + if sc then 1 else 0 := by
  cases sc <;> simp [tileRanges]

theorem tileRanges_row {i : Nat} (hi : i < tdRows d) : ((tileRanges d win swin sc addr p0 p1).getD i (0, 0, 0)).2.2 = tdBytes d := by
  rw [tileRanges, List.getD_append _ _ _ _ (by simpa using hi)]
  simp [List.getD_eq_getElem?_getD, hi]

theorem tileRanges_scales : ((tileRanges d win swin true addr p0 p1).getD (tdRows d) (0, 0, 0)).2.2 = 64 := by
  rw [tileRanges, List.getD_append_right _ _ _ _ (by simp)]
  simp

variable (m : Sparse 8) (pa : Nat → Nat → Nat)

theorem rangeData_rows : (rangeData m (tileRanges d win swin sc addr p0 p1) pa).take (tdRows d) =
    (List.range (tdRows d)).map (rangeBytes m (tileRanges d win swin sc addr p0 p1) pa) := by
  rw [rangeData, ← List.map_take, List.take_range, length_tileRanges, Nat.min_eq_left (Nat.le_add_right ..)]

theorem rangeData_scales : (rangeData m (tileRanges d win swin sc addr p0 p1) pa).getD (tdRows d) [] =
    if sc then rangeBytes m (tileRanges d win swin sc addr p0 p1) pa (tdRows d) else [] := by
  have hlen := length_tileRanges d win swin sc addr p0 p1
  cases sc <;> simp [rangeData, List.getD_eq_getElem?_getD, hlen]

end

/-! `tld` (R280) -/

section

variable {s : State} {t : BitVec 4} {win swin : BitVec 3} {shf sc : Bool} {e : BitVec 5} {land : Acc Unit} {x : Srcs}
  {l : List (BitVec 3 × Nat × Nat)} {pa : Nat → Nat → Nat}
  (hl : l = tileRanges (s.cur.rg.tdesc.getD t.toNat 0) win swin sc x.addr (x.s 0).toNat (bitsOf (x.s 1) 0 32))
  (hland : land.run s = .ok () s)

/-- The scales that the ranges of a tile hold in memory; 0 where it has none. -/
def scalesAt (m : Sparse 8) (l : List (BitVec 3 × Nat × Nat)) (pa : Nat → Nat → Nat) (sc : Bool) (n : Nat) : BitVec 512 :=
  if sc then BitVec.ofNat 512 (bytesToNat (rangeBytes m l pa n)) else 0

theorem scaleBad_zero : scaleBad 0 = false := by
  have hzero (w lo n : Nat) : (0#w).extractLsb' lo n = 0#n := by simp
  exact (scaleBad_eq_false 0).2 fun i _ => by rw [scaleEntry, BitVec.ofNat_eq_ofNat, hzero]; decide

include hl

theorem tldBody_pitch (hhit : RangesHit s shf .read l pa) (hpitch : bitsOf (x.s 0) 20 12 ≠ 0) :
    (tldBody t win swin shf sc e land x).run s = .error (.fault { cause := .mxFormat, here := true }) s := by
  unfold tldBody
  rw [run_bind, run_getCur]
  dsimp only
  rw [tileSpans_eq, ← hl, run_bind, spanAddrs_hit hhit]
  dsimp only
  rw [run_bind, run_checkPitch_bad hpitch]

include hland

/-- A `tld` whose ranges can be read has their bytes at hand when it looks at the scales. -/
theorem tldBody_run (hhit : RangesHit s shf .read l pa) (hread : RangesRead s l pa) (hpitch : bitsOf (x.s 0) 20 12 = 0) :
    (tldBody t win swin shf sc e land x).run s =
      let n := tdRows (s.cur.rg.tdesc.getD t.toNat 0)
      let scales := scalesAt s.mem l pa sc n
      if scaleBad scales then .error (.fault { cause := .scaleFormat, here := true }) s
      else .ok () (s.setCur { s.cur with ln := { s.cur.ln with tlds := s.cur.ln.tlds ++
        [PendTld.mk t sc e ((List.range n).map (rangeBytes s.mem l pa)).flatten scales] } }) := by
  have hscales : BitVec.ofNat 512 (bytesToNat ((rangeData s.mem l pa).getD (tdRows (s.cur.rg.tdesc.getD t.toNat 0)) [])) =
      scalesAt s.mem l pa sc (tdRows (s.cur.rg.tdesc.getD t.toNat 0)) := by
    rw [hl, rangeData_scales, scalesAt]
    cases sc <;> rfl
  have hrows : (rangeData s.mem l pa).take (tdRows (s.cur.rg.tdesc.getD t.toNat 0)) =
      (List.range (tdRows (s.cur.rg.tdesc.getD t.toNat 0))).map (rangeBytes s.mem l pa) := by
    rw [hl, rangeData_rows]
  unfold tldBody
  rw [run_bind, run_getCur]
  dsimp only
  rw [tileSpans_eq, ← hl, run_bind, spanAddrs_hit hhit]
  dsimp only
  rw [run_bind, run_checkPitch hpitch]
  dsimp only
  rw [run_bind, hland]
  dsimp only
  rw [run_bind, readSpans_hit hread]
  dsimp only
  rw [hscales, hrows]
  have hbad : (sc && scaleBad (scalesAt s.mem l pa sc (tdRows (s.cur.rg.tdesc.getD t.toNat 0)))) =
      scaleBad (scalesAt s.mem l pa sc (tdRows (s.cur.rg.tdesc.getD t.toNat 0))) := by
    cases sc
    · exact scaleBad_zero.symm
    · rfl
  rw [hbad]
  split <;> rfl

end

/-! `tst` (R280) -/

theorem cutRows_eq (n k : Nat) (l : List Byte) : cutRows n k l = (List.range k).map (fun i => (l.drop (i * n)).take n) := by
  induction k generalizing l with
  | zero => rfl
  | succ k ih =>
    rw [cutRows, ih, List.range_succ_eq_map, List.map_cons, List.map_map, Nat.zero_mul, List.drop_zero]
    refine congrArg (_ :: ·) (List.map_congr_left fun i _ => ?_)
    rw [List.drop_drop, Function.comp_apply, Nat.succ_mul, Nat.add_comm]

/-- Row i of k rows of n bytes from a place of register space. -/
theorem row_of_bytes (r : RegSpace) (a n k : Nat) {i : Nat} (hi : i < k) :
    ((r.bytes a (k * n)).drop (i * n)).take n = (List.range n).map (fun j => r.byte (a + i * n + j)) := by
  have hle : i * n + n ≤ k * n := by
    rw [← Nat.succ_mul]
    exact Nat.mul_le_mul_right n hi
  rw [bytes_eq_map]
  refine List.ext_getElem (by simp; omega) fun j hj _ => ?_
  have hj' : j < n := by
    simp at hj
    omega
  simp [Nat.add_assoc]

theorem natToBytes_eq_map (n v : Nat) : natToBytes n v = (List.range n).map (fun j => BitVec.ofNat 8 (v / 2 ^ (8 * j))) := by
  refine List.ext_getElem (by simp [length_natToBytes]) fun j hj _ => ?_
  have hj' : j < n := by rwa [length_natToBytes] at hj
  have hget := getD_natToBytes n v j hj'
  rw [List.getD_eq_getElem _ _ hj] at hget
  rw [hget, List.getElem_map, List.getElem_range, Nat.pow_mul]

/-- The byte that place j of range i of a `tst` takes: of row i of the tile, else of its scales. -/
def tstByte (r : RegSpace) (t i j : Nat) : Byte :=
  let d := r.tdesc.getD t 0
  if i < tdRows d then r.byte ((r.tileSpan t).1 + i * tdBytes d + j)
  else BitVec.ofNat 8 ((r.e.getD (tdSreg d).toNat 0).toNat / 2 ^ (8 * j))

/-- A list with an entry more than the other pairs up as without it. -/
theorem zip_concat_of_length {α β : Type} {l : List α} {m : List β} (h : l.length = m.length) (x : β) : l.zip (m ++ [x]) = l.zip m := by
  conv_lhs => rw [← List.append_nil l]
  rw [List.zip_append h, List.zip_nil_left, List.append_nil]

/-- The pieces that a `tst` writes are those of its ranges. -/
theorem tst_pieces (r : RegSpace) (t : Nat) (win swin : BitVec 3) (sc : Bool) (addr p0 p1 : Nat) (pa : Nat → Nat → Nat) :
    let d := r.tdesc.getD t 0
    let l := tileRanges d win swin sc addr p0 p1
    (rangeAddrs l pa).zip (cutRows (tdBytes d) (tdRows d) (r.tileBytes t) ++ [natToBytes 64 (r.e.getD (tdSreg d).toNat 0).toNat]) =
      (rangeAddrs l pa).zip (rangePieces l (tstByte r t)) := by
  intro d l
  have hlen : l.length = tdRows d + if sc then 1 else 0 := length_tileRanges ..
  have hrows : cutRows (tdBytes d) (tdRows d) (r.tileBytes t) =
      (List.range (tdRows d)).map (fun i => (List.range (l.getD i (0, 0, 0)).2.2).map (tstByte r t i)) := by
    rw [cutRows_eq]
    refine List.map_congr_left fun i hi => ?_
    have hi' := List.mem_range.mp hi
    rw [tileRanges_row _ _ _ _ _ _ _ hi']
    refine (row_of_bytes r _ _ _ hi').trans (List.map_congr_left fun j _ => ?_)
    rw [tstByte, if_pos hi']
  cases sc with
  | false =>
    rw [zip_concat_of_length (by rw [length_rangeAddrs, hlen, hrows]; simp), hrows, rangePieces, hlen]
    rfl
  | true =>
    have hscales : natToBytes 64 (r.e.getD (tdSreg d).toNat 0).toNat =
        (List.range (l.getD (tdRows d) (0, 0, 0)).2.2).map (tstByte r t (tdRows d)) := by
      rw [tileRanges_scales, natToBytes_eq_map]
      refine List.map_congr_left fun j _ => ?_
      rw [tstByte, if_neg (Nat.lt_irrefl _)]
    rw [hrows, hscales, rangePieces, hlen, if_pos rfl, List.range_succ, List.map_append, List.map_singleton]

/-- The tile's binding is current (R105). -/
def tileBound (r : RegSpace) (t : Nat) : Bool :=
  let d := r.tdesc.getD t 0
  tdBvalid d && tdBtag d == r.etag.getD (tdSreg d).toNat 0

section

variable {s : State} {t : BitVec 4} {win swin : BitVec 3} {shf sc : Bool} {land : Acc Unit} {x : Srcs}
  {l : List (BitVec 3 × Nat × Nat)} {pa : Nat → Nat → Nat}
  (hl : l = tileRanges (s.cur.rg.tdesc.getD t.toNat 0) win swin sc x.addr (x.s 0).toNat (bitsOf (x.s 1) 0 32))
  (hhit : RangesHit s shf .write l pa)

include hl hhit

theorem tstBody_stale (hsc : sc = true) (hb : tileBound s.cur.rg t.toNat = false) :
    (tstBody t win swin shf sc land x).run s = .error (.fault (staleInfo s.cur.rg 2 t)) s := by
  unfold tstBody
  rw [run_bind, run_getCur]
  dsimp only
  rw [tileSpans_eq, ← hl, run_bind, spanAddrs_hit hhit]
  dsimp only
  have hcond : (sc && !(tdBvalid (s.cur.rg.tdesc.getD t.toNat 0) && tdBtag (s.cur.rg.tdesc.getD t.toNat 0) ==
      s.cur.rg.etag.getD (tdSreg (s.cur.rg.tdesc.getD t.toNat 0)).toNat 0)) = true := by
    rw [hsc]
    exact congrArg not hb
  rw [if_pos hcond, run_throw]

variable (hland : land.run s = .ok () s) (hpitch : bitsOf (x.s 0) 20 12 = 0) (hb : sc = true → tileBound s.cur.rg t.toNat = true)

include hland hpitch hb

/-- A `tst` that its binding and its pitch let pass looks at the scales and writes. -/
theorem tstBody_run : (tstBody t win swin shf sc land x).run s = (do
    if sc then needScale (tdSreg (s.cur.rg.tdesc.getD t.toNat 0))
    writeSpans ((rangeAddrs l pa).zip (rangePieces l (tstByte s.cur.rg t.toNat))) : Acc Unit).run s := by
  have hcond : ¬ (sc && !(tdBvalid (s.cur.rg.tdesc.getD t.toNat 0) && tdBtag (s.cur.rg.tdesc.getD t.toNat 0) ==
      s.cur.rg.etag.getD (tdSreg (s.cur.rg.tdesc.getD t.toNat 0)).toNat 0)) = true := by
    cases sc
    · exact Bool.false_ne_true
    · have hnot := congrArg not (hb rfl)
      exact fun h => Bool.false_ne_true (hnot.symm.trans h)
  have hpieces := tst_pieces s.cur.rg t.toNat win swin sc x.addr (x.s 0).toNat (bitsOf (x.s 1) 0 32) pa
  dsimp only at hpieces
  rw [← hl] at hpieces
  unfold tstBody
  rw [run_bind, run_getCur]
  dsimp only
  rw [tileSpans_eq, ← hl, run_bind, spanAddrs_hit hhit]
  dsimp only
  rw [if_neg hcond, run_bind, run_checkPitch hpitch]
  dsimp only
  rw [run_bind, hland]
  dsimp only
  rw [hpieces]

theorem tstBody_bad (hsc : sc = true) (hbad : s.cur.rg.ebad.getLsbD (tdSreg (s.cur.rg.tdesc.getD t.toNat 0)).toNat = true) :
    (tstBody t win swin shf sc land x).run s = .error (.fault { cause := .dataError, here := true }) s := by
  rw [tstBody_run hl hhit hland hpitch hb, hsc, if_pos rfl, run_bind, run_needScale_bad hbad]

theorem tstBody_stores (hgood : sc = true → s.cur.rg.ebad.getLsbD (tdSreg (s.cur.rg.tdesc.getD t.toNat 0)).toNat = false)
    (hw : ∀ i j, i < l.length → j < (l.getD i (0, 0, 0)).2.2 → Writable (pa i j)) :
    ∃ u, (tstBody t win swin shf sc land x).run s = .ok () u ∧ RangesStored s u l pa (tstByte s.cur.rg t.toNat) ∧
      u.cur = { s.cur with fired := u.cur.fired } := by
  obtain ⟨u, hrun, hstored, hcur⟩ := writeSpans_ranges (tstByte s.cur.rg t.toNat) hw
  refine ⟨u, ?_, hstored, hcur⟩
  rw [tstBody_run hl hhit hland hpitch hb]
  cases hsc : sc with
  | false => exact hrun
  | true =>
    rw [if_pos rfl, run_bind, run_needScale (hgood hsc)]
    exact hrun

end

/-! A load lands (R107, R280) -/

theorem writeTile_eq_setBytes (r : RegSpace) (t : Nat) (l : List Byte) : r.writeTile t l = r.setBytes (r.tileSpan t).1 l := rfl

theorem byte_writeTile (r : RegSpace) (t : Nat) (l : List Byte) :
    (∀ i, i < l.length → (r.writeTile t l).byte ((r.tileSpan t).1 + i) = l.getD i 0) ∧
    ∀ b, b < (r.tileSpan t).1 ∨ (r.tileSpan t).1 + l.length ≤ b → (r.writeTile t l).byte b = r.byte b := by
  rw [writeTile_eq_setBytes]
  refine ⟨fun i hi => ?_, fun b hb => byte_setBytes_outside r _ l b hb⟩
  rw [byte_setBytes, if_pos ⟨Nat.le_add_right .., Nat.add_lt_add_left hi _⟩, Nat.add_sub_cancel_left]

theorem writeTile_eq (r : RegSpace) (t : Nat) (l : List Byte) :
    r.writeTile t l = { r with rows := (r.writeTile t l).rows, bad := (r.writeTile t l).bad } := setBytes_eq ..

theorem tdScaled_of_extract {x y : W64} (h : x.extractLsb' 0 46 = y.extractLsb' 0 46) : tdScaled x = tdScaled y := by
  have hbit := congrArg (fun z : BitVec 46 => z.getLsbD 43) h
  simpa [tdScaled, bitOf] using hbit

/-- A scale register written with the binding of one tile gives that tile its entries, where it is scaled (R104, R105). -/
theorem binding_scaleWrite (r : RegSpace) (e : BitVec 5) (new : BitVec 512) (t : BitVec 4) :
    (r.scaleWrite e new (1#16 <<< t.toNat)).binding t.toNat =
      some (if tdScaled (r.tdesc.getD t.toNat 0) then new else unitScales) := by
  obtain ⟨x, hx, hscaled⟩ : ∃ x, (r.scaleWrite e new (1#16 <<< t.toNat)).tdesc.getD t.toNat 0 =
      bindTd x e (r.etag.getD e.toNat 0 + 1) ∧ tdScaled x = tdScaled (r.tdesc.getD t.toNat 0) := by
    have hnamed : (1#16 <<< t.toNat).getLsbD t.toNat = true := by
      have := t.isLt
      simp
      omega
    have htd := scaleWrite_tdesc r e new (1#16 <<< t.toNat) ⟨t.toNat, t.isLt⟩
    dsimp only at htd
    rw [if_pos hnamed] at htd
    rw [vector_getD_of_lt _ _ t.isLt, vector_getD_of_lt _ _ t.isLt]
    refine ⟨_, htd, ?_⟩
    split
    · exact tdScaled_of_extract ((unbound_fields _).2 0 46 (by decide))
    · rfl
  obtain ⟨hvalid, hsreg, htag, hlow⟩ := bindTd_fields x e (r.etag.getD e.toNat 0 + 1)
  rw [RegSpace.binding, hx, tdScaled_of_extract hlow, hscaled]
  cases hs : tdScaled (r.tdesc.getD t.toNat 0) with
  | false => rfl
  | true =>
    rw [hvalid, hsreg, htag, scaleWrite_etag, scaleWrite_e]
    simp

/-! The instructions -/

/-- Word k of the parameter that thread v gives. -/
def Group.parWord (g : Group) (c : Opnd) (v k : Nat) : Nat := g.srcVal c 2 v / 2 ^ (32 * k) % 2 ^ 32

/-- The ranges that a `tld` or `tst` of thread v names. -/
def Group.tileRanges (g : Group) (t : BitVec 4) (a c : Opnd) (win swin : BitVec 3) (sc : Bool) (v : Nat) :
    List (BitVec 3 × Nat × Nat) :=
  Machine.tileRanges (g.rg.tdesc.getD t.toNat 0) win swin sc (g.srcVal a 1 v % 2 ^ 32) (g.parWord c v 0) (g.parWord c v 1)

section

variable {s : State} {h : LHdr} {t : BitVec 4} {a c : Opnd} {win swin : BitVec 3} {shf sc : Bool} {e : BitVec 5} {os : Order} {v : Nat}
  {pa : Nat → Nat → Nat}

theorem exec_tld : exec (.tld h t a c win swin shf sc e os) s =
    mxRun (.tld h t a c win swin shf sc e os) h (pure ()) [1, 3] [(.tile t, 1)] [(a, 1), (c, 2)] [(a, 1)]
      (fun g v => mxSrcs a (paramWords g c 2 v) g v) (fun need => tldBody t win swin shf sc e (need [(a, 1), (c, 2)])) s := rfl

theorem exec_tst : exec (.tst h t a c win swin shf sc os) s =
    mxRun (.tst h t a c win swin shf sc os) h (pure ()) [1, 2, 3] [] [(a, 1), (.tile t, 1), (c, 2)] [(a, 1)]
      (fun g v => mxSrcs a (paramWords g c 2 v) g v) (fun need => tstBody t win swin shf sc (need [(a, 1), (.tile t, 1), (c, 2)])) s := rfl

theorem tileRanges_of_srcs (hv : v < 64) (win swin : BitVec 3) (sc : Bool) :
    let g := s.cur.settle
    let x := mxSrcs a (paramWords g c 2 v) g v
    g.tileRanges t a c win swin sc v = tileRanges ((s.setCur g).cur.rg.tdesc.getD t.toNat 0) win swin sc x.addr (x.s 0).toNat
      (bitsOf (x.s 1) 0 32) := by
  intro g x
  rw [State.cur_setCur, mxSrcs_addr hv, paramWords_low, paramWords_s 0 (by decide)]
  rfl

theorem pitch_top {g : Group} : bitsOf ((mxSrcs a (paramWords g c 2 v) g v).s 0) 20 12 = g.parWord c v 0 / 2 ^ 20 := by
  have hlt : g.parWord c v 0 < 2 ^ 32 := Nat.mod_lt _ (by decide)
  rw [bitsOf_eq, paramWords_s 0 (by decide), ← Group.parWord]
  omega

theorem lane_lt_of_mxRuns {ops reads : List (Opnd × Nat)} (hmx : MxRuns h ops reads s v) : v < 64 := by
  obtain ⟨-, -, -, hv, -⟩ := hmx
  exact hv

theorem tld_lands (hmx : MxRuns h [(.tile t, 1), (a, 1), (c, 2)] [(a, 1), (c, 2)] s v)
    (hhit : RangesHit (s.setCur s.cur.settle) shf .read (s.cur.settle.tileRanges t a c win swin sc v) pa)
    (hread : RangesRead (s.setCur s.cur.settle) (s.cur.settle.tileRanges t a c win swin sc v) pa)
    (hpitch : s.cur.settle.parWord c v 0 < 2 ^ 20) :
    let l := s.cur.settle.tileRanges t a c win swin sc v
    let n := tdRows (s.cur.settle.rg.tdesc.getD t.toNat 0)
    let after := mxAfter s [(a, 1)]
    (scaleBad (scalesAt s.mem l pa sc n) = false → exec (.tld h t a c win swin shf sc e os) s = .next (s.setCur { after with
      ln := { after.ln with tlds := after.ln.tlds ++
        [PendTld.mk t sc e ((List.range n).map (rangeBytes s.mem l pa)).flatten (scalesAt s.mem l pa sc n)] } })) ∧
    (scaleBad (scalesAt s.mem l pa sc n) = true → TrapEnters s → TrapsL (.tld h t a c win swin shf sc e os) s .scaleFormat) := by
  intro l n after
  have hv := lane_lt_of_mxRuns hmx
  have hrun := tldBody_run (t := t) (e := e) (tileRanges_of_srcs hv win swin sc) (run_needData (badSrc_of_mxRuns hmx)) hhit hread
    (by rw [pitch_top]; omega)
  dsimp only at hrun
  rw [State.cur_setCur, State.setCur_mem, State.setCur_setCur] at hrun
  refine ⟨fun hok => ?_, fun hbad ht => ?_⟩
  · rw [if_neg (by rw [hok]; exact Bool.false_ne_true)] at hrun
    rw [exec_tld, mxRun_next hmx hrun, State.cur_setCur, State.setCur_setCur]
    obtain ⟨q, p, hpop, hpop'⟩ := popAll_beside (g := s.cur.settle) (g' := { s.cur.settle with ln := { s.cur.settle.ln with
      tlds := s.cur.settle.ln.tlds ++ [PendTld.mk t sc e ((List.range n).map (rangeBytes s.mem l pa)).flatten
        (scalesAt s.mem l pa sc n)] } }) rfl rfl [(a, 1)]
    simp only [after, mxAfter, hpop]
    refine congrArg (fun z => Host.Outcome.next (s.setCur z)) ((congrArg Group.lpc1 hpop').trans ?_)
    rfl
  · rw [if_pos hbad] at hrun
    exact mxRun_traps hmx exec_tld hrun ht rfl

theorem tld_pitch (hmx : MxRuns h [(.tile t, 1), (a, 1), (c, 2)] [(a, 1), (c, 2)] s v)
    (hhit : RangesHit (s.setCur s.cur.settle) shf .read (s.cur.settle.tileRanges t a c win swin sc v) pa)
    (hpitch : 2 ^ 20 ≤ s.cur.settle.parWord c v 0) (ht : TrapEnters s) :
    TrapsL (.tld h t a c win swin shf sc e os) s .mxFormat := by
  have hv := lane_lt_of_mxRuns hmx
  refine mxRun_traps (j := { cause := .mxFormat, here := true }) hmx exec_tld
    (tldBody_pitch (tileRanges_of_srcs hv win swin sc) hhit ?_) ht rfl
  rw [pitch_top]
  omega

/-- An instruction that writes memory and nothing else of its group leaves the group as `mxAfter` says, but for its monitor. -/
theorem setCur_of_stored {u : State} {l : List (BitVec 3 × Nat × Nat)} {b : Nat → Nat → Byte} {pops : List (Opnd × Nat)}
    (hst : RangesStored (s.setCur s.cur.settle) u l pa b) (hcur : u.cur = { s.cur.settle with fired := u.cur.fired }) :
    let w := u.setCur (u.cur.popAll pops).lpc1
    RangesStored (s.setCur s.cur.settle) w l pa b ∧ w.cur = { mxAfter s pops with fired := w.cur.fired } := by
  intro w
  obtain ⟨hother, hwritten, hgroup, heq⟩ := hst
  have hcurG : u.curG = s.curG := by rw [heq]; rfl
  refine ⟨⟨hother, hwritten, fun g hg => ?_, ?_⟩, ?_⟩
  · have hne : g ≠ u.curG := by rwa [hcurG]
    have hsame : w.group g = u.group g := State.group_setGroup_other u _ hne
    rw [hsame]
    exact hgroup g hg
  · have hset : w = { u with groups := w.groups } := rfl
    rw [hset, heq]
  · obtain ⟨q, p, hpop, hpop'⟩ := popAll_beside (g := s.cur.settle) (g' := { s.cur.settle with fired := u.cur.fired }) rfl rfl pops
    have hw : w.cur = (u.cur.popAll pops).lpc1 := State.cur_setCur ..
    rw [← hcur] at hpop'
    rw [hw, hpop', mxAfter, hpop, hcur]
    rfl

section

variable (hmx : MxRuns h [(a, 1), (.tile t, 1), (c, 2)] [(a, 1), (.tile t, 1), (c, 2)] s v)
  (hhit : RangesHit (s.setCur s.cur.settle) shf .write (s.cur.settle.tileRanges t a c win swin sc v) pa)

include hmx hhit

theorem tst_stale (hsc : sc = true) (hb : tileBound s.cur.settle.rg t.toNat = false) (ht : TrapEnters s) :
    TrapsL (.tst h t a c win swin shf sc os) s .staleBinding :=
  mxRun_traps (dst := []) hmx exec_tst
    (tstBody_stale (tileRanges_of_srcs (lane_lt_of_mxRuns hmx) win swin sc) hhit hsc (by rwa [State.cur_setCur])) ht rfl

variable (hpitch : s.cur.settle.parWord c v 0 < 2 ^ 20) (hb : sc = true → tileBound s.cur.settle.rg t.toNat = true)

include hpitch hb

theorem tst_dataError (hsc : sc = true)
    (hbad : s.cur.settle.rg.ebad.getLsbD (tdSreg (s.cur.settle.rg.tdesc.getD t.toNat 0)).toNat = true) (ht : TrapEnters s) :
    TrapsL (.tst h t a c win swin shf sc os) s .dataError :=
  mxRun_traps (dst := []) (j := { cause := .dataError, here := true }) hmx exec_tst
    (tstBody_bad (tileRanges_of_srcs (lane_lt_of_mxRuns hmx) win swin sc) hhit (run_needData (badSrc_of_mxRuns hmx))
      (by rw [pitch_top]; omega) (by rwa [State.cur_setCur]) hsc (by rwa [State.cur_setCur])) ht rfl

theorem tst_stores
    (hgood : sc = true → s.cur.settle.rg.ebad.getLsbD (tdSreg (s.cur.settle.rg.tdesc.getD t.toNat 0)).toNat = false)
    (hw : let l := s.cur.settle.tileRanges t a c win swin sc v
      ∀ i j, i < l.length → j < (l.getD i (0, 0, 0)).2.2 → Writable (pa i j)) :
    ∃ u, exec (.tst h t a c win swin shf sc os) s = .next u ∧
      RangesStored (s.setCur s.cur.settle) u (s.cur.settle.tileRanges t a c win swin sc v) pa (tstByte s.cur.settle.rg t.toNat) ∧
      u.cur = { mxAfter s [(a, 1)] with fired := u.cur.fired } := by
  obtain ⟨u, hrun, hst, hcur⟩ := tstBody_stores (tileRanges_of_srcs (lane_lt_of_mxRuns hmx) win swin sc) hhit
    (run_needData (badSrc_of_mxRuns hmx)) (by rw [pitch_top]; omega) (by rwa [State.cur_setCur]) (by rwa [State.cur_setCur]) hw
  rw [State.cur_setCur] at hst hcur
  obtain ⟨hst', hcur'⟩ := setCur_of_stored (pops := [(a, 1)]) hst hcur
  exact ⟨_, exec_tst.trans (mxRun_next (dst := []) hmx hrun), hst', hcur'⟩

end

theorem exec_tldLand {q : Gid} {x : PendTld} {rest : List PendTld} (hx : (s.group q).ln.tlds = x :: rest) :
    exec (.tldLand q) s = .next (s.setGroup q { s.group q with rg := (s.group q).rg.landTld x, ln := { (s.group q).ln with tlds := rest } }) := by
  show execTldLand q s = _
  simp only [execTldLand, hx]

/-- What a load leaves of register space (R107, R280). -/
theorem landTld_spec (r : RegSpace) (x : PendTld) :
    let k := r.tileSpan x.tile.toNat
    let q := r.landTld x
    (∀ i, i < x.rows.length → q.byte (k.1 + i) = x.rows.getD i 0) ∧
    (∀ b, b < k.1 ∨ k.1 + x.rows.length ≤ b → q.byte b = r.byte b) ∧
    (x.sc = true → q.e.getD x.e.toNat 0 = x.scales ∧
      q.binding x.tile.toNat = some (if tdScaled (r.tdesc.getD x.tile.toNat 0) then x.scales else unitScales)) ∧
    (x.sc = false → q.e = r.e ∧ q.tdesc = r.tdesc) := by
  intro k q
  obtain ⟨hin, hout⟩ := byte_writeTile r x.tile.toNat x.rows
  have htdesc : (r.writeTile x.tile.toNat x.rows).tdesc = r.tdesc := by rw [writeTile_eq]
  have he : (r.writeTile x.tile.toNat x.rows).e = r.e := by rw [writeTile_eq]
  cases hsc : x.sc with
  | false =>
    have hq : q = r.writeTile x.tile.toNat x.rows := if_neg (by simp [hsc])
    rw [hq]
    exact ⟨hin, hout, by simp, fun _ => ⟨he, htdesc⟩⟩
  | true =>
    have hq : q = (r.writeTile x.tile.toNat x.rows).scaleWrite x.e x.scales (1#16 <<< x.tile.toNat) := if_pos hsc
    have hbyte (b : Nat) : q.byte b = (r.writeTile x.tile.toNat x.rows).byte b := by rw [hq]; rfl
    refine ⟨fun i hi => (hbyte _).trans (hin i hi), fun b hb => (hbyte b).trans (hout b hb), fun _ => ?_, by simp⟩
    rw [hq, scaleWrite_e, if_pos rfl, binding_scaleWrite, htdesc]
    exact ⟨rfl, rfl⟩

end

end Sys2Proof.Machine
end


section
/-! PROOFS. Paired images: the head, the save and the restore of a tile with its scales; the obligation about tiles in memory (O55). -/

set_option Elab.async false

namespace Sys2Proof.Machine

/-! Numbers as bytes -/

theorem bytesToNat_lt (l : List Byte) : bytesToNat l < 256 ^ l.length := by
  induction l with
  | nil => simp [bytesToNat]
  | cons b l ih =>
    have hb := b.isLt
    rw [bytesToNat, List.length_cons, Nat.pow_succ]
    omega

theorem bytesToNat_drop (l : List Byte) (k : Nat) : bytesToNat (l.drop k) = bytesToNat l / 256 ^ k := by
  induction l generalizing k with
  | nil => simp [bytesToNat]
  | cons b l ih =>
    cases k with
    | zero => simp
    | succ k =>
      have hb := b.isLt
      rw [List.drop_succ_cons, ih, bytesToNat, Nat.pow_succ, Nat.mul_comm (256 ^ k), ← Nat.div_div_eq_div_mul]
      congr 1
      omega

theorem bytesToNat_take (l : List Byte) (k : Nat) : bytesToNat (l.take k) = bytesToNat l % 256 ^ k := by
  induction l generalizing k with
  | nil => simp [bytesToNat]
  | cons b l ih =>
    cases k with
    | zero => simp [bytesToNat, Nat.mod_one]
    | succ k =>
      have hb := b.isLt
      have hdiv : (b.toNat + 256 * bytesToNat l) / 256 = bytesToNat l := by omega
      have hmod : (b.toNat + 256 * bytesToNat l) % 256 = b.toNat := by omega
      rw [List.take_succ_cons, bytesToNat, ih, bytesToNat, Nat.pow_succ, Nat.mul_comm (256 ^ k), Nat.mod_mul, hdiv, hmod]

/-- A field of an image is that field of the number that its bytes make. -/
theorem fieldAt_eq {l : List Byte} {m : Nat} (hm : 8 * l.length ≤ m) (lo n : Nat) :
    fieldAt l lo n = ((BitVec.ofNat m (bytesToNat l)).extractLsb' lo n).toNat := by
  have hlt : bytesToNat l < 2 ^ m := Nat.lt_of_lt_of_le (bytesToNat_lt l) (by
    rw [show 256 = 2 ^ 8 from rfl, ← Nat.pow_mul]
    exact Nat.pow_le_pow_right (by decide) hm)
  have hpow (k : Nat) : 256 ^ k = 2 ^ (8 * k) := by rw [Nat.pow_mul]
  rw [fieldAt, bytesToNat_take, bytesToNat_drop, BitVec.extractLsb'_toNat, BitVec.toNat_ofNat, Nat.mod_eq_of_lt hlt, hpow, hpow]
  refine Nat.eq_of_testBit_eq fun i => ?_
  simp only [Nat.testBit_mod_two_pow, Nat.testBit_div_two_pow, Nat.testBit_shiftRight]
  by_cases hi : i < n
  · have hk : lo % 8 + i < 8 * ((lo % 8 + n + 7) / 8) := by omega
    rw [show i + lo % 8 = lo % 8 + i from Nat.add_comm ..]
    simp only [hi, hk, decide_true, Bool.true_and]
    congr 1
    omega
  · simp [hi]

/-! The head of an image (R109) -/

/-- The bytes that a save puts before the rows, as one number. -/
def pairNum (d : W64) (tag : BitVec 12) (e : BitVec 512) : Nat :=
  if tdBvalid d then d.toNat + tag.toNat * 2 ^ 64 + (tdSreg d).toNat * 2 ^ 80 + e.toNat * 2 ^ 512 else d.toNat

theorem pairHead_eq (d : W64) (tag : BitVec 12) (e : BitVec 512) : pairHead d tag e = natToBytes 0x80 (pairNum d tag e) := by
  have hsum (a b c x p q u y z w : Nat) : a + p * (b + q * (0 + u * (c + y * (0 + z * (0 + w * (x + 0)))))) =
      a + b * p + c * (p * q * u) + x * (p * q * u * y * z * w) := by ring
  have hlow : 2 ^ 64 * 2 ^ 12 * 2 ^ 4 = 2 ^ 80 := by simp only [← Nat.pow_add, Nat.reduceAdd]
  have hhigh : 2 ^ 80 * 2 ^ 5 * 2 ^ 43 * 2 ^ 384 = 2 ^ 512 := by
    rw [show 512 = 80 + 5 + 43 + 384 from rfl, Nat.pow_add, Nat.pow_add, Nat.pow_add]
  rw [pairHead, pairNum]
  refine congrArg (natToBytes 0x80) ?_
  split
  · simp only [packFields, Nat.zero_mod, Nat.mul_zero, Nat.mod_eq_of_lt d.isLt, Nat.mod_eq_of_lt tag.isLt, Nat.mod_eq_of_lt (tdSreg d).isLt,
      Nat.mod_eq_of_lt e.isLt]
    rw [hsum, hlow, hhigh]
  · simp only [packFields, Nat.mul_zero, Nat.add_zero, Nat.mod_eq_of_lt d.isLt]

/-- Byte j of the image of a tile with its pair. -/
def pairByte (r : RegSpace) (t j : Nat) : Byte :=
  let d := r.tdesc.getD t 0
  if j < 0x80 then BitVec.ofNat 8 (pairNum d (r.etag.getD (tdSreg d).toNat 0) (r.e.getD (tdSreg d).toNat 0) / 2 ^ (8 * j))
  else r.byte ((r.tileSpan t).1 + (j - 0x80))

theorem pair_bytes (r : RegSpace) (t : Nat) :
    let d := r.tdesc.getD t 0
    pairHead d (r.etag.getD (tdSreg d).toNat 0) (r.ereg (tdSreg d)) ++ r.tileBytes t =
      (List.range (0x80 + tdRows d * tdBytes d)).map (pairByte r t) := by
  intro d
  rw [List.range_add, List.map_append, List.map_map, pairHead_eq, natToBytes_eq_map]
  refine congrArg₂ (· ++ ·) (List.map_congr_left fun j hj => ?_) ?_
  · rw [pairByte, if_pos (List.mem_range.mp hj)]
    rfl
  · rw [RegSpace.tileBytes, bytes_eq_map]
    refine List.map_congr_left fun j _ => ?_
    rw [Function.comp_apply, pairByte, if_neg (by omega), Nat.add_sub_cancel_left]

/-- The address that an image's alignment is checked on: virtual through a window, the offset on the shelf (log 52). -/
def Group.imageAddr (g : Group) (win : BitVec 3) (shf : Bool) (o : Nat) : Nat := if shf then o else (g.winVa win o).toNat

theorem run_imageVa {s : State} {win : BitVec 3} {shf : Bool} {x : Srcs} (hx : x.addr < 2 ^ 64) :
    ∃ va, (imageVa win shf x).run s = .ok va s ∧ va.toNat = s.cur.imageAddr win shf x.addr := by
  refine ⟨_, rfl, ?_⟩
  unfold spanVa Group.imageAddr
  cases shf
  · rfl
  · exact (BitVec.toNat_ofNat ..).trans (Nat.mod_eq_of_lt hx)

/-! `ssave` (R292) -/

section

variable {s : State} {t : BitVec 4} {win : BitVec 3} {shf : Bool} {land : Acc Unit} {x : Srcs} {pa : Nat → Nat → Nat}

/-- The range of an image. -/
def imageRanges (r : RegSpace) (t : BitVec 4) (win : BitVec 3) (addr : Nat) : List (BitVec 3 × Nat × Nat) :=
  let d := r.tdesc.getD t.toNat 0
  [(win, addr, 0x80 + tdRows d * tdBytes d)]

variable (hhit : RangesHit s shf .write (imageRanges s.cur.rg t win x.addr) pa)

include hhit

/-- The first step of an `ssave`. -/
theorem ssave_addrs : (spanAddrs shf .write [{
      win := win, off := x.addr,
      len := 0x80 + tdRows (s.cur.rg.tdesc.getD t.toNat 0) * tdBytes (s.cur.rg.tdesc.getD t.toNat 0) }]).run s =
    .ok (rangeAddrs (imageRanges s.cur.rg t win x.addr) pa) s := spanAddrs_hit hhit

theorem ssaveBody_stale (hv : tdBvalid (s.cur.rg.tdesc.getD t.toNat 0) = true) (hb : tileBound s.cur.rg t.toNat = false) :
    (ssaveBody win shf t land x).run s = .error (.fault (staleInfo s.cur.rg 4 t)) s := by
  unfold tileBound at hb
  dsimp only at hb
  rw [hv, Bool.true_and] at hb
  unfold ssaveBody
  rw [run_bind, run_getCur]
  dsimp only
  rw [run_bind, ssave_addrs hhit]
  dsimp only
  rw [if_pos (by rw [hv, bne, hb]; rfl), run_throw]

variable (hb : tdBvalid (s.cur.rg.tdesc.getD t.toNat 0) = true → tileBound s.cur.rg t.toNat = true) (hx : x.addr < 2 ^ 64)

include hb hx

/-- An `ssave` whose binding is current looks at the image's alignment, at the scales, and writes. -/
theorem ssaveBody_run : (ssaveBody win shf t land x).run s =
    (if s.cur.imageAddr win shf x.addr % 128 ≠ 0 then raise .mxFormat
    else do
      land
      if tdBvalid (s.cur.rg.tdesc.getD t.toNat 0) then needScale (tdSreg (s.cur.rg.tdesc.getD t.toNat 0))
      writeSpans ((rangeAddrs (imageRanges s.cur.rg t win x.addr) pa).zip
        (rangePieces (imageRanges s.cur.rg t win x.addr) (fun _ => pairByte s.cur.rg t.toNat))) : Acc Unit).run s := by
  obtain ⟨va, hva, hva'⟩ := run_imageVa (s := s) (win := win) (shf := shf) hx
  have hcond : ¬ (tdBvalid (s.cur.rg.tdesc.getD t.toNat 0) && tdBtag (s.cur.rg.tdesc.getD t.toNat 0) !=
      s.cur.rg.etag.getD (tdSreg (s.cur.rg.tdesc.getD t.toNat 0)).toNat 0) = true := by
    unfold tileBound at hb
    dsimp only at hb
    cases hv : tdBvalid (s.cur.rg.tdesc.getD t.toNat 0) with
    | false => exact Bool.false_ne_true
    | true =>
      have heq := hb hv
      rw [hv, Bool.true_and] at heq
      rw [bne, heq]
      exact Bool.false_ne_true
  have hpieces : [((rangeAddrs (imageRanges s.cur.rg t win x.addr) pa).getD 0 [], pairHead (s.cur.rg.tdesc.getD t.toNat 0)
        (s.cur.rg.etag.getD (tdSreg (s.cur.rg.tdesc.getD t.toNat 0)).toNat 0) (s.cur.rg.ereg (tdSreg (s.cur.rg.tdesc.getD t.toNat 0))) ++
        s.cur.rg.tileBytes t.toNat)] = (rangeAddrs (imageRanges s.cur.rg t win x.addr) pa).zip
        (rangePieces (imageRanges s.cur.rg t win x.addr) (fun _ => pairByte s.cur.rg t.toNat)) := by
    rw [pair_bytes]
    rfl
  unfold ssaveBody
  rw [run_bind, run_getCur]
  dsimp only
  rw [run_bind, ssave_addrs hhit]
  dsimp only
  rw [if_neg hcond, run_bind, hva]
  dsimp only
  rw [hva', hpieces]

theorem ssaveBody_misaligned (hal : s.cur.imageAddr win shf x.addr % 128 ≠ 0) :
    (ssaveBody win shf t land x).run s = .error (.fault { cause := .mxFormat, here := true }) s := by
  rw [ssaveBody_run hhit hb hx, if_pos hal]
  rfl

theorem ssaveBody_stores (hland : land.run s = .ok () s) (hal : s.cur.imageAddr win shf x.addr % 128 = 0)
    (hgood : tdBvalid (s.cur.rg.tdesc.getD t.toNat 0) = true → s.cur.rg.ebad.getLsbD (tdSreg (s.cur.rg.tdesc.getD t.toNat 0)).toNat = false)
    (hw : let l := imageRanges s.cur.rg t win x.addr
      ∀ i j, i < l.length → j < (l.getD i (0, 0, 0)).2.2 → Writable (pa i j)) :
    ∃ u, (ssaveBody win shf t land x).run s = .ok () u ∧
      RangesStored s u (imageRanges s.cur.rg t win x.addr) pa (fun _ => pairByte s.cur.rg t.toNat) ∧
      u.cur = { s.cur with fired := u.cur.fired } := by
  obtain ⟨u, hrun, hstored, hcur⟩ := writeSpans_ranges (fun _ => pairByte s.cur.rg t.toNat) hw
  refine ⟨u, ?_, hstored, hcur⟩
  rw [ssaveBody_run hhit hb hx, if_neg (by simp [hal]), run_bind, hland]
  dsimp only
  cases hv : tdBvalid (s.cur.rg.tdesc.getD t.toNat 0) with
  | false => exact hrun
  | true =>
    rw [if_pos rfl, run_bind, run_needScale (hgood hv)]
    exact hrun

end

section

variable {s : State} {h : LHdr} {t : BitVec 4} {a : Opnd} {win : BitVec 3} {shf : Bool} {os : Order} {v : Nat} {pa : Nat → Nat → Nat}

theorem exec_ssave : exec (.ssave h a win shf t os) s = mxRun (.ssave h a win shf t os) h (pure ()) [1, 4] [] [(a, 1), (.tile t, 1)]
    [(a, 1)] (mxSrcs a []) (fun need => ssaveBody win shf t (need [(a, 1), (.tile t, 1)])) s := rfl

theorem exec_srest : exec (.srest h a win shf t os) s = mxRun (.srest h a win shf t os) h (pure ()) [1] [] [(a, 1)] [(a, 1)] (mxSrcs a [])
    (fun need => srestBody win shf t (need [(a, 1)])) s := rfl

/-- The address of an image that thread v gives. -/
def Group.imageOff (g : Group) (a : Opnd) (v : Nat) : Nat := g.srcVal a 1 v % 2 ^ 32

theorem imageOff_of_srcs (hv : v < 64) {ps : List Nat} : (mxSrcs a ps s.cur.settle v).addr = s.cur.settle.imageOff a v := mxSrcs_addr hv

theorem imageOff_lt (g : Group) : g.imageOff a v < 2 ^ 64 := Nat.lt_trans (Nat.mod_lt _ (by decide)) (by decide)

section

variable (hmx : MxRuns h [(a, 1), (.tile t, 1)] [(a, 1), (.tile t, 1)] s v)
  (hhit : RangesHit (s.setCur s.cur.settle) shf .write (imageRanges s.cur.settle.rg t win (s.cur.settle.imageOff a v)) pa)

include hmx hhit

theorem ssave_hit : RangesHit (s.setCur s.cur.settle) shf .write
    (imageRanges (s.setCur s.cur.settle).cur.rg t win (mxSrcs a [] s.cur.settle v).addr) pa := by
  rwa [State.cur_setCur, imageOff_of_srcs (lane_lt_of_mxRuns hmx)]

theorem ssave_stale (hv : tdBvalid (s.cur.settle.rg.tdesc.getD t.toNat 0) = true) (hb : tileBound s.cur.settle.rg t.toNat = false)
    (ht : TrapEnters s) : TrapsL (.ssave h a win shf t os) s .staleBinding :=
  mxRun_traps (dst := []) hmx exec_ssave
    (ssaveBody_stale (ssave_hit hmx hhit) (by rwa [State.cur_setCur]) (by rwa [State.cur_setCur])) ht rfl

variable (hb : tdBvalid (s.cur.settle.rg.tdesc.getD t.toNat 0) = true → tileBound s.cur.settle.rg t.toNat = true)

include hb

theorem ssave_misaligned (hal : s.cur.settle.imageAddr win shf (s.cur.settle.imageOff a v) % 128 ≠ 0) (ht : TrapEnters s) :
    TrapsL (.ssave h a win shf t os) s .mxFormat := by
  have hoff := imageOff_of_srcs (s := s) (a := a) (lane_lt_of_mxRuns hmx) (ps := [])
  exact mxRun_traps (dst := []) (j := { cause := .mxFormat, here := true }) hmx exec_ssave
    (ssaveBody_misaligned (ssave_hit hmx hhit) (by rwa [State.cur_setCur]) (by rw [hoff]; exact imageOff_lt _)
      (by rwa [State.cur_setCur, hoff])) ht rfl

theorem ssave_stores (hal : s.cur.settle.imageAddr win shf (s.cur.settle.imageOff a v) % 128 = 0)
    (hgood : tdBvalid (s.cur.settle.rg.tdesc.getD t.toNat 0) = true →
      s.cur.settle.rg.ebad.getLsbD (tdSreg (s.cur.settle.rg.tdesc.getD t.toNat 0)).toNat = false)
    (hw : let l := imageRanges s.cur.settle.rg t win (s.cur.settle.imageOff a v)
      ∀ i j, i < l.length → j < (l.getD i (0, 0, 0)).2.2 → Writable (pa i j)) :
    ∃ u, exec (.ssave h a win shf t os) s = .next u ∧ RangesStored (s.setCur s.cur.settle) u
        (imageRanges s.cur.settle.rg t win (s.cur.settle.imageOff a v)) pa (fun _ => pairByte s.cur.settle.rg t.toNat) ∧
      u.cur = { mxAfter s [(a, 1)] with fired := u.cur.fired } := by
  have hoff := imageOff_of_srcs (s := s) (a := a) (lane_lt_of_mxRuns hmx) (ps := [])
  obtain ⟨u, hrun, hst, hcur⟩ := ssaveBody_stores (ssave_hit hmx hhit) (by rwa [State.cur_setCur]) (by rw [hoff]; exact imageOff_lt _)
    (run_needData (badSrc_of_mxRuns hmx)) (by rwa [State.cur_setCur, hoff]) (by rwa [State.cur_setCur])
    (by rwa [State.cur_setCur, hoff])
  rw [State.cur_setCur] at hst hcur
  rw [hoff] at hst
  obtain ⟨hst', hcur'⟩ := setCur_of_stored (pops := [(a, 1)]) hst hcur
  exact ⟨_, exec_ssave.trans (mxRun_next (dst := []) hmx hrun), hst', hcur'⟩

end

end

/-! The head of a restored image (R109, R292) -/

/-- Bits of a word that are all zero. -/
theorem extract_eq_zero_iff {m : Nat} (w : BitVec m) (lo n : Nat) :
    w.extractLsb' lo n = 0 ↔ ∀ i, i < n → w.getLsbD (lo + i) = false := by
  constructor
  · intro h i hi
    have hbit := congrArg (fun z : BitVec n => z.getLsbD i) h
    simpa [hi] using hbit
  · intro h
    refine BitVec.eq_of_getLsbD_eq fun i hi => ?_
    simpa [hi] using h i hi

/-- An image's head is fit for a restore: a descriptor that a move would take, the reserved bits zero, and a pair that agrees with it. -/
def HeadFine (w : BitVec 1024) : Prop :=
  let d : W64 := w.extractLsb' 0 64
  (d.extractLsb' 44 2 = 0 ∧ d.extractLsb' 17 11 = 0 ∧ d.extractLsb' 0 4 = 0 ∧ (d.extractLsb' 39 4).toNat ≤ 8) ∧
    w.extractLsb' 128 384 = 0 ∧
    (d.getLsbD 63 = true → w.extractLsb' 80 5 = d.extractLsb' 58 5 ∧ w.extractLsb' 64 12 = d.extractLsb' 46 12 ∧
      w.extractLsb' 76 4 = 0 ∧ w.extractLsb' 85 43 = 0 ∧ ∀ i, i < 32 → w.extractLsb' (512 + 16 * i + 14) 2 = 0) ∧
    (d.getLsbD 63 = false → w.extractLsb' 64 960 = 0)

/-- A field of a field. -/
theorem extract_extract {m : Nat} (w : BitVec m) (lo n lo' n' : Nat) (h : lo' + n' ≤ n) :
    (w.extractLsb' lo n).extractLsb' lo' n' = w.extractLsb' (lo + lo') n' := by
  refine BitVec.eq_of_getLsbD_eq fun i hi => ?_
  have hi' : lo' + i < n := by omega
  simp [hi, hi', Nat.add_assoc]

theorem tdescOk_iff (d : W64) : tdescOk d = true ↔
    d.extractLsb' 44 2 = 0 ∧ d.extractLsb' 17 11 = 0 ∧ d.extractLsb' 0 4 = 0 ∧ (d.extractLsb' 39 4).toNat ≤ 8 := by
  unfold tdescOk
  simp only [Bool.and_eq_true, beq_iff_eq, bitsOf_eq_zero, decide_eq_true_eq, and_assoc]
  rfl

/-- Entries whose top two bits are zero are a scale register's, wherever they stand. -/
theorem scaleBad_extract {m : Nat} (w : BitVec m) (lo : Nat) :
    scaleBad (w.extractLsb' lo 512) = false ↔ ∀ i, i < 32 → w.extractLsb' (lo + 16 * i + 14) 2 = 0 := by
  simp only [scaleBad, List.any_eq_false, List.mem_range, bne_iff_ne, ne_eq, Decidable.not_not, bitsOf_eq_zero]
  refine forall₂_congr fun i hi => ?_
  rw [extract_extract _ _ _ _ _ (by omega), Nat.add_assoc]

/-- The part of an image's head behind its descriptor is zero where each of its three pieces is. -/
theorem headTail_zero (w : BitVec 1024) : w.extractLsb' 64 960 = 0 ↔
    w.extractLsb' 64 64 = 0 ∧ w.extractLsb' 128 384 = 0 ∧ w.extractLsb' 512 512 = 0 := by
  simp only [extract_eq_zero_iff]
  constructor
  · refine fun h => ⟨fun i hi => h i (by omega), fun i hi => ?_, fun i hi => ?_⟩
    · exact (congrArg w.getLsbD (by omega)).trans (h (64 + i) (by omega))
    · exact (congrArg w.getLsbD (by omega)).trans (h (448 + i) (by omega))
  · rintro ⟨h1, h2, h3⟩ i hi
    by_cases hi1 : i < 64
    · exact h1 i hi1
    · by_cases hi2 : i < 448
      · exact (congrArg w.getLsbD (by omega)).trans (h2 (i - 64) (by omega))
      · exact (congrArg w.getLsbD (by omega)).trans (h3 (i - 448) (by omega))

theorem toNat_eq_zero_iff {m : Nat} (w : BitVec m) : w.toNat = 0 ↔ w = 0 := by
  rw [← BitVec.toNat_inj]
  rfl

/-- The model's checks of a head are the rules of R109. -/
theorem headOk_iff {l : List Byte} (hl : l.length = 0x80) : headOk l = true ↔ HeadFine (BitVec.ofNat 1024 (bytesToNat l)) := by
  have hf := fieldAt_eq (l := l) (m := 1024) (by rw [hl])
  unfold headOk HeadFine
  generalize BitVec.ofNat 1024 (bytesToNat l) = w at hf
  have hofNat (n : Nat) (z : BitVec n) : BitVec.ofNat n z.toNat = z := by simp
  simp only [hf, hofNat, Bool.and_eq_true, beq_iff_eq, toNat_eq_zero_iff, tdescOk_iff]
  rw [show tdBvalid (w.extractLsb' 0 64) = (w.extractLsb' 0 64).getLsbD 63 from rfl]
  rw [and_assoc]
  refine and_congr_right fun _ => and_congr_right fun hmid => ?_
  cases hv : (w.extractLsb' 0 64).getLsbD 63 with
  | true =>
    simp only [if_true, Bool.and_eq_true, beq_iff_eq, BitVec.toNat_inj, toNat_eq_zero_iff, Bool.not_eq_true', scaleBad_extract,
      and_assoc, true_imp_iff, Bool.true_eq_false, false_imp_iff, and_true]
    rfl
  | false =>
    simp only [Bool.false_eq_true, if_false, Bool.and_eq_true, beq_iff_eq, toNat_eq_zero_iff, headTail_zero, hmid, true_and, false_imp_iff,
      true_imp_iff]

/-! The restore of a pair (R108) -/

/-- The descriptor and the rows of a restore. -/
def RegSpace.placeTile (r : RegSpace) (t : BitVec 4) (d : W64) (rows : List Byte) : RegSpace :=
  ({ r with tdesc := vset r.tdesc t.toNat d } : RegSpace).writeTile t.toNat rows

theorem placeTile_eq (r : RegSpace) (t : BitVec 4) (d : W64) (rows : List Byte) : r.placeTile t d rows =
    { r with tdesc := vset r.tdesc t.toNat d, rows := (r.placeTile t d rows).rows, bad := (r.placeTile t d rows).bad } :=
  writeTile_eq { r with tdesc := vset r.tdesc t.toNat d } t.toNat rows

theorem byte_placeTile (r : RegSpace) (t : BitVec 4) (d : W64) (rows : List Byte) :
    let p := bitsOf r.tview 0 17 + tdOff d
    (∀ j, j < rows.length → (r.placeTile t d rows).byte (p + j) = rows.getD j 0) ∧
    ∀ b, b < p ∨ p + rows.length ≤ b → (r.placeTile t d rows).byte b = r.byte b := by
  have hspan : (({ r with tdesc := vset r.tdesc t.toNat d } : RegSpace).tileSpan t.toNat).1 = bitsOf r.tview 0 17 + tdOff d := by
    show bitsOf r.tview 0 17 + tdOff ((vset r.tdesc t.toNat d).getD t.toNat 0) = _
    rw [getD_vset _ _ _ _ _ t.isLt, if_pos rfl]
  have hw := byte_writeTile ({ r with tdesc := vset r.tdesc t.toNat d } : RegSpace) t.toNat rows
  rw [hspan] at hw
  exact hw

theorem vset_tile (r : RegSpace) (t : BitVec 4) (d : W64) (i : Fin 16) :
    (vset r.tdesc t.toNat d)[i] = if i.val = t.toNat then d else r.tdesc[i] := by
  have h := getD_vset r.tdesc t.toNat i.val d 0 t.isLt
  rwa [vector_getD_of_lt _ _ i.isLt, vector_getD_of_lt _ _ i.isLt] at h

/-- The other tiles of a restored register lose their bindings. -/
def RegSpace.unbindOthers (r : RegSpace) (t : BitVec 4) (e : BitVec 5) : Vector W64 16 :=
  Vector.ofFn (fun i : Fin 16 => if i.val ≠ t.toNat ∧ tdSreg r.tdesc[i] = e then putBit r.tdesc[i] 63 false else r.tdesc[i])

theorem restorePair_unbound {d : W64} (hv : tdBvalid d = false) (r : RegSpace) (t : BitVec 4) (e : BitVec 512) (rows : List Byte) :
    r.restorePair t d e rows = r.placeTile t d rows := if_neg (by simp [hv])

theorem restorePair_bound {d : W64} (hv : tdBvalid d = true) (r : RegSpace) (t : BitVec 4) (e : BitVec 512) (rows : List Byte) :
    r.restorePair t d e rows = { r.placeTile t d rows with
      e := vset r.e (tdSreg d).toNat e, ebad := putBit r.ebad (tdSreg d).toNat false, etag := vset r.etag (tdSreg d).toNat (tdBtag d),
      tdesc := (r.placeTile t d rows).unbindOthers t (tdSreg d) } := by
  have heq : r.restorePair t d e rows = { r.placeTile t d rows with
      e := vset (r.placeTile t d rows).e (tdSreg d).toNat e, ebad := putBit (r.placeTile t d rows).ebad (tdSreg d).toNat false,
      etag := vset (r.placeTile t d rows).etag (tdSreg d).toNat (tdBtag d),
      tdesc := (r.placeTile t d rows).unbindOthers t (tdSreg d) } := if_pos hv
  rw [heq, placeTile_eq]

theorem restorePair_byte (r : RegSpace) (t : BitVec 4) (d : W64) (e : BitVec 512) (rows : List Byte) (b : Nat) :
    (r.restorePair t d e rows).byte b = (r.placeTile t d rows).byte b := by
  cases hv : tdBvalid d with
  | false => rw [restorePair_unbound hv]
  | true => rw [restorePair_bound hv]; rfl

theorem restorePair_tdesc (r : RegSpace) (t : BitVec 4) (d : W64) (e : BitVec 512) (rows : List Byte) (i : Fin 16) :
    (r.restorePair t d e rows).tdesc[i] = if i.val = t.toNat then d
      else if tdBvalid d = true ∧ tdSreg r.tdesc[i] = tdSreg d then putBit r.tdesc[i] 63 false else r.tdesc[i] := by
  have hplace : (r.placeTile t d rows).tdesc = vset r.tdesc t.toNat d := by rw [placeTile_eq]
  cases hv : tdBvalid d with
  | false =>
    rw [restorePair_unbound hv, hplace, vset_tile]
    simp
  | true =>
    rw [restorePair_bound hv]
    show ((r.placeTile t d rows).unbindOthers t (tdSreg d))[i] = _
    rw [RegSpace.unbindOthers, hplace]
    simp only [Fin.getElem_fin, Vector.getElem_ofFn]
    have hi := vset_tile r t d i
    simp only [Fin.getElem_fin] at hi
    rw [hi]
    by_cases h : i.val = t.toNat <;> simp [h]

theorem restorePair_scales (r : RegSpace) (t : BitVec 4) (d : W64) (e : BitVec 512) (rows : List Byte) (x : BitVec 5) :
    (r.restorePair t d e rows).e.getD x.toNat 0 = (if tdBvalid d = true ∧ x = tdSreg d then e else r.e.getD x.toNat 0) ∧
    (r.restorePair t d e rows).etag.getD x.toNat 0 = if tdBvalid d = true ∧ x = tdSreg d then tdBtag d else r.etag.getD x.toNat 0 := by
  cases hv : tdBvalid d with
  | false =>
    rw [restorePair_unbound hv, placeTile_eq]
    simp
  | true =>
    rw [restorePair_bound hv]
    dsimp only
    rw [getD_vset _ _ _ _ _ (tdSreg d).isLt, getD_vset _ _ _ _ _ (tdSreg d).isLt]
    simp only [BitVec.toNat_inj, true_and]

/-- What a restore leaves of register space. -/
theorem restorePair_spec (r : RegSpace) (t : BitVec 4) (d : W64) (e : BitVec 512) (rows : List Byte) :
    let q := r.restorePair t d e rows
    let p := bitsOf r.tview 0 17 + tdOff d
    q.tdesc.getD t.toNat 0 = d ∧ (∀ j, j < rows.length → q.byte (p + j) = rows.getD j 0) ∧
    (tdBvalid d = true → q.e.getD (tdSreg d).toNat 0 = e ∧ q.etag.getD (tdSreg d).toNat 0 = tdBtag d ∧
      ∀ i : Fin 16, i.val ≠ t.toNat → tdSreg r.tdesc[i] = tdSreg d → tdBvalid q.tdesc[i] = false) ∧
    (∀ x : BitVec 5, x ≠ tdSreg d ∨ tdBvalid d = false → q.e.getD x.toNat 0 = r.e.getD x.toNat 0 ∧
      q.etag.getD x.toNat 0 = r.etag.getD x.toNat 0) ∧
    (∀ i : Fin 16, i.val ≠ t.toNat → tdSreg r.tdesc[i] ≠ tdSreg d ∨ tdBvalid d = false → q.tdesc[i] = r.tdesc[i]) ∧
    ∀ b, b < p ∨ p + rows.length ≤ b → q.byte b = r.byte b := by
  intro q p
  have htd := restorePair_tdesc r t d e rows
  have hsc := restorePair_scales r t d e rows
  have hbyte := restorePair_byte r t d e rows
  obtain ⟨hin, hout⟩ := byte_placeTile r t d rows
  refine ⟨?_, fun j hj => (hbyte _).trans (hin j hj), fun hv => ?_, fun x hx => ?_, fun i hi hne => ?_,
    fun b hb => (hbyte b).trans (hout b hb)⟩
  · rw [vector_getD_of_lt _ _ t.isLt]
    exact (htd ⟨t.toNat, t.isLt⟩).trans (if_pos rfl)
  · obtain ⟨he, htag⟩ := hsc (tdSreg d)
    refine ⟨he.trans (if_pos ⟨hv, rfl⟩), htag.trans (if_pos ⟨hv, rfl⟩), fun i hi hs => ?_⟩
    rw [htd i, if_neg hi, if_pos ⟨hv, hs⟩]
    exact (unbound_fields _).1
  · have hno : ¬ (tdBvalid d = true ∧ x = tdSreg d) := fun ⟨hv, he⟩ => hx.elim (fun h => h he) (fun h => by simp [h] at hv)
    obtain ⟨he, htag⟩ := hsc x
    exact ⟨he.trans (if_neg hno), htag.trans (if_neg hno)⟩
  · have hno : ¬ (tdBvalid d = true ∧ tdSreg r.tdesc[i] = tdSreg d) := fun ⟨hv, he⟩ =>
      hne.elim (fun h => h he) (fun h => by simp [h] at hv)
    rw [htd i, if_neg hi, if_neg hno]

/-! `srest` (R292) -/

theorem rangesHit_first {s : State} {shf : Bool} {k : AKind} {x : BitVec 3 × Nat × Nat} {l : List (BitVec 3 × Nat × Nat)}
    {pa : Nat → Nat → Nat} (h : RangesHit s shf k (x :: l) pa) : RangesHit s shf k [x] pa := fun i hi => by
  obtain rfl : i = 0 := by simpa using hi
  exact (rangesHit_cons h).1

theorem rangesRead_first {s : State} {x : BitVec 3 × Nat × Nat} {l : List (BitVec 3 × Nat × Nat)} {pa : Nat → Nat → Nat}
    (h : RangesRead s (x :: l) pa) : RangesRead s [x] pa := fun i j hi hj => by
  obtain rfl : i = 0 := by simpa using hi
  exact (rangesRead_cons h).1 j hj

/-- The bytes of the head of an image. -/
def headBytes (m : Sparse 8) (pa : Nat → Nat → Nat) : List Byte := (List.range 0x80).map (fun j => Sparse.get m (pa 0 j))

/-- The descriptor that an image's head holds. -/
def headDesc (l : List Byte) : W64 := BitVec.ofNat 64 (fieldAt l 0 64)

theorem headDesc_eq (l : List Byte) : BitVec.ofNat 64 (fieldAt l 0 64) = headDesc l := rfl

/-- Register space after a restore of an image from its head and its rows. -/
def RegSpace.restoreImage (r : RegSpace) (t : BitVec 4) (head rows : List Byte) : RegSpace :=
  r.restorePair t (headDesc head) (BitVec.ofNat 512 (fieldAt head 512 512)) rows

/-- The ranges of an image that is restored: its head, then its rows. -/
def restRanges (l : List Byte) (win : BitVec 3) (addr : Nat) : List (BitVec 3 × Nat × Nat) :=
  [(win, addr, 0x80), (win, addr + 0x80, tdRows (headDesc l) * tdBytes (headDesc l))]

section

variable {s : State} {t : BitVec 4} {win : BitVec 3} {shf : Bool} {land : Acc Unit} {x : Srcs} {pa : Nat → Nat → Nat}
  (hidx : t.toNat < bitsOf s.cur.rg.tview 24 11)
  (hhit : RangesHit s shf .read (restRanges (headBytes s.mem pa) win x.addr) pa)
  (hread : RangesRead s (restRanges (headBytes s.mem pa) win x.addr) pa)
  (hdecl : let d := headDesc (headBytes s.mem pa)
    bitsOf s.cur.rg.tview 0 17 + tdOff d + tdRows d * tdBytes d ≤ s.cur.rg.declared.toNat)
  (hx : x.addr < 2 ^ 64) (hland : land.run s = .ok () s)

include hidx hhit hread hdecl hx hland

/-- An `srest` of an image that can be read and placed checks its alignment and its head, then takes its rows. -/
theorem srestBody_run : (srestBody win shf t land x).run s =
    (if s.cur.imageAddr win shf x.addr % 128 ≠ 0 then raise .mxFormat
    else if headOk (headBytes s.mem pa) = false then raise .descFormat
    else modifyCur (fun g => { g with
      rg := g.rg.restoreImage t (headBytes s.mem pa) (rangeBytes s.mem (restRanges (headBytes s.mem pa) win x.addr) pa 1) }) :
        Acc Unit).run s := by
  obtain ⟨va, hva, hva'⟩ := run_imageVa (s := s) (win := win) (shf := shf) hx
  have haddr1 : (spanAddrs shf .read [{ win := win, off := x.addr, len := 0x80 }]).run s =
      .ok [(List.range 0x80).map (pa 0)] s := spanAddrs_hit (rangesHit_first hhit)
  have hread1 : (readSpans shf ([{ win := win, off := x.addr, len := 0x80 }].zip [(List.range 0x80).map (pa 0)])).run s =
      .ok [headBytes s.mem pa] s := readSpans_hit (rangesRead_first hread)
  have haddr2 : (spanAddrs shf .read [{ win := win, off := x.addr, len := 0x80 }, {
      win := win, off := x.addr + 0x80,
      len := tdRows (headDesc (headBytes s.mem pa)) * tdBytes (headDesc (headBytes s.mem pa)) }]).run s =
      .ok (rangeAddrs (restRanges (headBytes s.mem pa) win x.addr) pa) s := spanAddrs_hit hhit
  have hread2 : (readSpans shf ([{
      win := win, off := x.addr + 0x80,
      len := tdRows (headDesc (headBytes s.mem pa)) * tdBytes (headDesc (headBytes s.mem pa)) }].zip
        ((rangeAddrs (restRanges (headBytes s.mem pa) win x.addr) pa).drop 1))).run s =
      .ok [rangeBytes s.mem (restRanges (headBytes s.mem pa) win x.addr) pa 1] s := readSpans_hit (rangesRead_cons hread).2
  unfold srestBody
  rw [run_bind, run_getCur]
  dsimp only
  rw [if_neg (by omega), run_bind, haddr1]
  dsimp only
  rw [run_bind, hva]
  dsimp only
  rw [run_bind, run_attempt, hread1]
  dsimp only
  rw [run_bind, run_pure, List.flatten_singleton]
  dsimp only
  rw [headDesc_eq, run_bind, haddr2]
  dsimp only
  rw [if_neg (Nat.not_lt.mpr hdecl), hva']
  by_cases hal : s.cur.imageAddr win shf x.addr % 128 = 0
  · rw [if_neg (show ¬ (!decide (s.cur.imageAddr win shf x.addr % 128 = 0)) = true by simp [hal]),
      if_neg (show ¬ s.cur.imageAddr win shf x.addr % 128 ≠ 0 from not_not_intro hal)]
    cases hok : headOk (headBytes s.mem pa) with
    | false => rfl
    | true =>
      rw [if_neg (by simp), if_neg (by simp), run_bind, hland]
      dsimp only
      rw [run_bind, hread2]
      dsimp only
      rw [List.flatten_singleton]
      rfl
  · rw [if_pos (show (!decide (s.cur.imageAddr win shf x.addr % 128 = 0)) = true by simp [hal]),
      if_pos (show s.cur.imageAddr win shf x.addr % 128 ≠ 0 from hal)]
    rfl

end

section

variable {s : State} {h : LHdr} {t : BitVec 4} {a : Opnd} {win : BitVec 3} {shf : Bool} {os : Order} {v : Nat} {pa : Nat → Nat → Nat}
  (hmx : MxRuns h [(a, 1)] [(a, 1)] s v) (hidx : t.toNat < bitsOf s.cur.settle.rg.tview 24 11)
  (hhit : RangesHit (s.setCur s.cur.settle) shf .read (restRanges (headBytes s.mem pa) win (s.cur.settle.imageOff a v)) pa)
  (hread : RangesRead (s.setCur s.cur.settle) (restRanges (headBytes s.mem pa) win (s.cur.settle.imageOff a v)) pa)
  (hdecl : let d := headDesc (headBytes s.mem pa)
    bitsOf s.cur.settle.rg.tview 0 17 + tdOff d + tdRows d * tdBytes d ≤ s.cur.settle.rg.declared.toNat)

include hmx hidx hhit hread hdecl

/-- The body of an `srest` on the settled group. -/
theorem srest_body : (srestBody win shf t (needData [(a, 1)]) (mxSrcs a [] s.cur.settle v)).run (s.setCur s.cur.settle) =
    (if s.cur.settle.imageAddr win shf (s.cur.settle.imageOff a v) % 128 ≠ 0 then raise .mxFormat
    else if headOk (headBytes s.mem pa) = false then raise .descFormat
    else modifyCur (fun g => { g with
      rg := g.rg.restoreImage t (headBytes s.mem pa)
        (rangeBytes s.mem (restRanges (headBytes s.mem pa) win (s.cur.settle.imageOff a v)) pa 1) }) :
        Acc Unit).run (s.setCur s.cur.settle) := by
  have hoff := imageOff_of_srcs (s := s) (a := a) (lane_lt_of_mxRuns hmx) (ps := [])
  have hrun := srestBody_run (s := s.setCur s.cur.settle) (t := t) (win := win) (shf := shf) (land := needData [(a, 1)])
    (x := mxSrcs a [] s.cur.settle v) (pa := pa) (by rwa [State.cur_setCur]) (by rwa [hoff]) (by rwa [hoff])
    (by rwa [State.cur_setCur]) (by rw [hoff]; exact imageOff_lt _) (run_needData (badSrc_of_mxRuns hmx))
  rwa [State.cur_setCur, hoff] at hrun

theorem srest_misaligned (hal : s.cur.settle.imageAddr win shf (s.cur.settle.imageOff a v) % 128 ≠ 0) (ht : TrapEnters s) :
    TrapsL (.srest h a win shf t os) s .mxFormat := by
  refine mxRun_traps (dst := []) (j := { cause := .mxFormat, here := true }) hmx exec_srest ?_ ht rfl
  refine (srest_body hmx hidx hhit hread hdecl).trans ?_
  rw [if_pos hal]
  rfl

variable (hal : s.cur.settle.imageAddr win shf (s.cur.settle.imageOff a v) % 128 = 0)

include hal

theorem srest_badHead (hbad : headOk (headBytes s.mem pa) = false) (ht : TrapEnters s) :
    TrapsL (.srest h a win shf t os) s .descFormat := by
  refine mxRun_traps (dst := []) (j := { cause := .descFormat, here := true }) hmx exec_srest ?_ ht rfl
  refine (srest_body hmx hidx hhit hread hdecl).trans ?_
  rw [if_neg (not_not_intro hal), if_pos hbad]
  rfl

theorem srest_restores (hok : headOk (headBytes s.mem pa) = true) :
    exec (.srest h a win shf t os) s = .next (s.setCur { mxAfter s [(a, 1)] with
      rg := s.cur.settle.rg.restoreImage t (headBytes s.mem pa)
        (rangeBytes s.mem (restRanges (headBytes s.mem pa) win (s.cur.settle.imageOff a v)) pa 1) }) := by
  have hrun := srest_body hmx hidx hhit hread hdecl
  rw [if_neg (not_not_intro hal), if_neg (by rw [hok]; simp), run_modifyCur, State.cur_setCur, State.setCur_setCur] at hrun
  rw [exec_srest, mxRun_next (dst := []) hmx hrun, State.cur_setCur, State.setCur_setCur]
  obtain ⟨q, p, hpop, hpop'⟩ := popAll_beside (g := s.cur.settle) (g' := { s.cur.settle with
    rg := s.cur.settle.rg.restoreImage t (headBytes s.mem pa)
      (rangeBytes s.mem (restRanges (headBytes s.mem pa) win (s.cur.settle.imageOff a v)) pa 1) }) rfl rfl [(a, 1)]
  rw [hpop', mxAfter, hpop]
  rfl

end

/-! The obligation -/

theorem length_headBytes (m : Sparse 8) (pa : Nat → Nat → Nat) : (headBytes m pa).length = 0x80 := by simp [headBytes]

/-- A field of a head as bits of the head's number. -/
theorem ofNat_fieldAt_head (m : Sparse 8) (pa : Nat → Nat → Nat) (lo n : Nat) :
    BitVec.ofNat n (fieldAt (headBytes m pa) lo n) = (BitVec.ofNat 1024 (bytesToNat (headBytes m pa))).extractLsb' lo n := by
  rw [fieldAt_eq (m := 1024) (by rw [length_headBytes]), BitVec.ofNat_toNat, BitVec.setWidth_eq]

/-- Settles O55: the ranges resolve to their addresses (`spanAddrs_hit`), their bytes are read (`readSpans_hit`) or written one by one
(`writeSpans_ranges`), the checks come in the order of the bodies, and a landing or a restore leaves what `landTld_spec` and
`restorePair_spec` say. -/
theorem tileMemory : Obligations.TileMemory := by
  intro s h t4 a c win swin shf sc e os v pa g s1 r t d n m addr par pitch l after bound tldOk scales good tstOk
  have hscales : scalesAt s.mem l pa sc m = if sc then scales else 0 := rfl
  have hbound : bound = tileBound r t := rfl
  refine ⟨fun ⟨hmx, hhit, hread⟩ hp hok => ?_, fun ⟨hmx, hhit, _⟩ hp ht => tld_pitch hmx hhit hp ht,
    fun ⟨hmx, hhit, hread⟩ hp hsc hbad ht => ?_, fun q x rest hx => ?_, fun ⟨hmx, hhit, hw⟩ hp hb => ?_,
    fun ⟨hmx, hhit, _⟩ hsc hb ht => tst_stale hmx hhit hsc hb ht,
    fun ⟨hmx, hhit, _⟩ hp hsc hb hbad ht => tst_dataError hmx hhit hp (fun _ => hb) hsc (Bool.not_eq_false _ ▸ hbad) ht, ?_, ?_⟩
  · have hfine : scaleBad (scalesAt s.mem l pa sc m) = false := by
      rw [hscales]
      cases hsc : sc with
      | false => exact scaleBad_zero
      | true => exact hok hsc
    exact (tld_lands hmx hhit hread hp).1 hfine
  · refine (tld_lands hmx hhit hread hp).2 ?_ ht
    subst hsc
    exact hbad
  · obtain ⟨hin, hout, hsc, hno⟩ := landTld_spec (s.group q).rg x
    refine ⟨_, exec_tldLand hx, ?_⟩
    rw [State.group_setGroup_same]
    exact ⟨rfl, hin, hout, hsc, hno, fun p hp => State.group_setGroup_other _ _ hp⟩
  · obtain ⟨u, hexec, hst, hcur⟩ := tst_stores hmx hhit hp (fun hsc => (hb hsc).1) (fun hsc => (hb hsc).2) hw
    exact ⟨u, hexec, hst, hcur⟩
  · -- `ssave`
    intro li ssaveOk va pair
    refine ⟨fun ⟨hmx, hhit, _⟩ hv hb ht => ssave_stale hmx hhit hv hb ht, fun ⟨hmx, hhit, _⟩ hb hal ht => ssave_misaligned hmx hhit hb hal ht,
      fun ⟨hmx, hhit, hw⟩ hb hal => ?_⟩
    have hwritable : ∀ i j, i < li.length → j < (li.getD i (0, 0, 0)).2.2 → Writable (pa i j) := fun i j hi hj => by
      obtain rfl : i = 0 := by simpa [li] using hi
      exact hw j hj
    obtain ⟨u, hexec, hst, hcur⟩ := ssave_stores hmx hhit (fun hv => (hb hv).1) hal (fun hv => (hb hv).2) hwritable
    exact ⟨u, hexec, hst, hcur⟩
  · -- `srest`
    intro head w nd k lr va fine hmx hidx hhit hread hdecl
    have hnd : headDesc (headBytes s.mem pa) = nd := ofNat_fieldAt_head s.mem pa 0 64
    have hlr : restRanges (headBytes s.mem pa) win addr = lr := by rw [restRanges, hnd]
    have hfine : headOk (headBytes s.mem pa) = true ↔ fine := headOk_iff (length_headBytes s.mem pa)
    rw [← hlr] at hhit hread
    replace hdecl : let d := headDesc (headBytes s.mem pa)
        bitsOf r.tview 0 17 + tdOff d + tdRows d * tdBytes d ≤ r.declared.toNat := by
      rw [hnd]
      exact hdecl
    refine ⟨fun hal ht => srest_misaligned hmx hidx hhit hread hdecl hal ht, fun hal hbad ht => ?_, fun hal hf => ?_⟩
    · exact srest_badHead hmx hidx hhit hread hdecl hal (Bool.eq_false_iff.mpr fun hok => hbad (hfine.mp hok)) ht
    · have himage : r.restoreImage t4 (headBytes s.mem pa) (rangeBytes s.mem lr pa 1) =
          r.restorePair t4 nd (w.extractLsb' 512 512) (rangeBytes s.mem lr pa 1) := by
        rw [RegSpace.restoreImage, hnd, ofNat_fieldAt_head]
        rfl
      have hlen : (rangeBytes s.mem lr pa 1).length = k := by simp [rangeBytes, lr]
      have hget (j : Nat) (hj : j < k) : (rangeBytes s.mem lr pa 1).getD j 0 = Sparse.get s.mem (pa 1 j) := by
        simp [rangeBytes, lr, List.getD_eq_getElem?_getD, hj]
      obtain ⟨htd, hrows, hpair, hscale, htile, hout⟩ := restorePair_spec r t4 nd (w.extractLsb' 512 512) (rangeBytes s.mem lr pa 1)
      rw [hlen] at hrows hout
      have hexec := srest_restores (os := os) hmx hidx hhit hread hdecl hal (hfine.mpr hf)
      rw [show restRanges (headBytes s.mem pa) win (s.cur.settle.imageOff a v) = lr from hlr, himage] at hexec
      refine ⟨_, hexec, ?_⟩
      rw [State.cur_setCur]
      exact ⟨htd, fun j hj => (hrows j hj).trans (hget j hj), hpair, hscale, htile, hout, rfl⟩

end Sys2Proof.Machine
end

section
/-! PROOFS. Rounding to a grid, mode by mode, and the clamp to an integer type (O15). -/

set_option Elab.async false

namespace Sys2Proof.Machine

/-! Rounding to a grid (R120) -/

/-- Whether a mode takes the upper neighbour of a value that lies `r` of 2^d above the grid point `q` (R120). -/
def RndCtx.takesUpper (c : RndCtx) (q r : Int) (d : Nat) : Bool :=
  match c.rnd with
  | .rn => decide (2 ^ d < 2 * r) || (decide (2 * r = 2 ^ d) && decide (q % 2 ≠ 0))
  | .rz => decide (q < 0)
  | .rd => false
  | .ru => true
  | .rs => decide (((zhash64 c.seed c.key).toNat % 2 ^ 32 : Int) < r * 2 ^ 32 / 2 ^ d)

section

variable {c : RndCtx} {m e : Int} {d : Nat}

theorem roundGrid_of_exact (h : m % 2 ^ d = 0) : roundGrid c m e (e + d) = m / 2 ^ d := by
  unfold roundGrid
  cases d with
  | zero => simp
  | succ d =>
    have hle : ¬ e + ((d + 1 : Nat) : Int) ≤ e := by omega
    have hd : (e + ((d + 1 : Nat) : Int) - e).toNat = d + 1 := by omega
    have hr : m - m / 2 ^ (d + 1) * 2 ^ (d + 1) = 0 := by
      rw [Int.ediv_mul_cancel_of_emod_eq_zero h, Int.sub_self]
    rw [if_neg hle]
    dsimp only
    rw [hd, if_pos hr]

theorem roundGrid_of_inexact (h : m % 2 ^ d ≠ 0) :
    roundGrid c m e (e + d) = if c.takesUpper (m / 2 ^ d) (m % 2 ^ d) d then m / 2 ^ d + 1 else m / 2 ^ d := by
  have hd0 : d ≠ 0 := fun h0 => h (by simp [h0])
  have hle : ¬ e + (d : Int) ≤ e := by omega
  have hd : (e + (d : Int) - e).toNat = d := by omega
  have hpos : (0 : Int) < 2 ^ d := by positivity
  have hr : m - m / 2 ^ d * 2 ^ d = m % 2 ^ d := by rw [Int.emod_def, Int.mul_comm]
  have hr0 : 0 ≤ m % 2 ^ d := Int.emod_nonneg _ hpos.ne'
  unfold roundGrid RndCtx.takesUpper
  rw [if_neg hle]
  dsimp only
  rw [hd, hr, if_neg h]
  cases c.rnd with
  | rn =>
    dsimp only
    generalize m % 2 ^ d = r at *
    generalize m / 2 ^ d = q at *
    generalize (2 : Int) ^ d = D at *
    rcases lt_trichotomy (2 * r) D with hlt | heq | hgt
    · simp [hlt, hlt.not_gt, hlt.ne]
    · by_cases hq : q % 2 = 0 <;> simp [heq, hq] 
    · simp [hgt, hgt.not_gt]
  | rz =>
    dsimp only
    by_cases hq : m / 2 ^ d < 0
    · rw [if_neg (by omega), if_pos (decide_eq_true hq)]
    · rw [if_pos (by omega), if_neg (by simpa using hq)]
  | rd => rfl
  | ru => rfl
  | rs =>
    dsimp only
    have hhash : ((zhash64 c.seed c.key).extractLsb' 0 32).toNat = (zhash64 c.seed c.key).toNat % 2 ^ 32 := by
      rw [BitVec.extractLsb'_toNat, Nat.shiftRight_zero]
    have ht : 0 ≤ m % 2 ^ d * 2 ^ 32 / 2 ^ d := Int.ediv_nonneg (by positivity) hpos.le
    rw [hhash]
    simp only [decide_eq_true_eq]
    refine if_congr ?_ rfl rfl
    omega

end

section

variable (c : RndCtx) (m e : Int) (d : Nat)

/-- A rounding gives the grid point itself or one of the two neighbours of what is rounded, of which the mode chooses. -/
theorem roundGrid_cases : (m % 2 ^ d = 0 ∧ roundGrid c m e (e + d) = m / 2 ^ d) ∨
    (m % 2 ^ d ≠ 0 ∧ roundGrid c m e (e + d) = if c.takesUpper (m / 2 ^ d) (m % 2 ^ d) d then m / 2 ^ d + 1 else m / 2 ^ d) := by
  by_cases h : m % 2 ^ d = 0
  · exact .inl ⟨h, roundGrid_of_exact h⟩
  · exact .inr ⟨h, roundGrid_of_inexact h⟩

/-- What is rounded lies between its two neighbours on the grid. -/
theorem between_neighbours : m = m / 2 ^ d * 2 ^ d + m % 2 ^ d ∧ (m / 2 ^ d + 1) * 2 ^ d = m / 2 ^ d * 2 ^ d + 2 ^ d ∧
    0 ≤ m % 2 ^ d ∧ m % 2 ^ d < 2 ^ d := by
  have hpos : (0 : Int) < 2 ^ d := by positivity
  exact ⟨(Int.ediv_mul_add_emod m (2 ^ d)).symm, by ring, Int.emod_nonneg _ hpos.ne', Int.emod_lt_of_pos _ hpos⟩

theorem roundGrid_nearest (hc : c.rnd = .rn) :
    2 * (roundGrid c m e (e + d) * 2 ^ d - m).natAbs ≤ 2 ^ d ∧
      (2 * (roundGrid c m e (e + d) * 2 ^ d - m).natAbs = 2 ^ d → roundGrid c m e (e + d) % 2 = 0) := by
  obtain ⟨hm, hup, hr0, hr1⟩ := between_neighbours m d
  have hcast : ((2 ^ d : Nat) : Int) = 2 ^ d := by push_cast; rfl
  have hpos : (0 : Int) < 2 ^ d := by positivity
  rcases roundGrid_cases c m e d with ⟨hr, hk⟩ | ⟨hr, hk⟩ <;> rw [hk]
  · rw [show m / 2 ^ d * 2 ^ d - m = 0 by omega]
    exact ⟨by simp, fun h => absurd h.symm (by positivity)⟩
  · rw [RndCtx.takesUpper, hc]
    dsimp only
    generalize m / 2 ^ d = q at *
    generalize m % 2 ^ d = r at *
    split
    · rename_i h
      simp only [Bool.or_eq_true, Bool.and_eq_true, decide_eq_true_eq] at h
      rw [hup]
      omega
    · rename_i h
      simp only [Bool.or_eq_true, Bool.and_eq_true, decide_eq_true_eq, not_or, not_and] at h
      omega

theorem roundGrid_towardZero (hc : c.rnd = .rz) : (roundGrid c m e (e + d) * 2 ^ d).natAbs ≤ m.natAbs := by
  obtain ⟨hm, hup, hr0, hr1⟩ := between_neighbours m d
  have hpos : (0 : Int) < 2 ^ d := by positivity
  rcases roundGrid_cases c m e d with ⟨hr, hk⟩ | ⟨hr, hk⟩ <;> rw [hk]
  · rw [show m / 2 ^ d * 2 ^ d = m by omega]
  · rw [RndCtx.takesUpper, hc]
    dsimp only
    by_cases hq : m / 2 ^ d < 0
    · have hle : (m / 2 ^ d + 1) * 2 ^ d ≤ 0 := mul_nonpos_of_nonpos_of_nonneg (by omega) hpos.le
      rw [if_pos (decide_eq_true hq)]
      omega
    · have hge : 0 ≤ m / 2 ^ d * 2 ^ d := mul_nonneg (by omega) hpos.le
      rw [if_neg (by simpa using hq)]
      omega

theorem roundGrid_down (hc : c.rnd = .rd) : roundGrid c m e (e + d) * 2 ^ d ≤ m := by
  obtain ⟨hm, _, hr0, _⟩ := between_neighbours m d
  have hk : roundGrid c m e (e + d) = m / 2 ^ d := by
    rcases roundGrid_cases c m e d with ⟨_, hk⟩ | ⟨_, hk⟩
    · exact hk
    · rw [hk, RndCtx.takesUpper, hc]
      rfl
  rw [hk]
  omega

theorem roundGrid_up (hc : c.rnd = .ru) : m ≤ roundGrid c m e (e + d) * 2 ^ d := by
  obtain ⟨hm, hup, _, hr1⟩ := between_neighbours m d
  rcases roundGrid_cases c m e d with ⟨hr, hk⟩ | ⟨_, hk⟩ <;> rw [hk]
  · omega
  · rw [RndCtx.takesUpper, hc]
    dsimp only
    rw [if_pos rfl]
    omega

theorem roundGrid_stochastic (hc : c.rnd = .rs) (hr : m % 2 ^ d ≠ 0) :
    roundGrid c m e (e + d) = m / 2 ^ d + 1 ↔ ((zhash64 c.seed c.key).toNat % 2 ^ 32 : Int) < m % 2 ^ d * 2 ^ 32 / 2 ^ d := by
  rw [roundGrid_of_inexact hr, RndCtx.takesUpper, hc]
  dsimp only
  simp only [decide_eq_true_eq]
  split
  · exact iff_of_true rfl ‹_›
  · exact iff_of_false (by omega) ‹_›

end

/-! The clamp to an integer type (R121, R239, R243) -/

/-- The least value of an integer type. -/
def leastOf (ty : LTy) : Int := if ty.signed then -(2 ^ (ty.width - 1)) else 0
/-- The greatest value of an integer type. -/
def greatestOf (ty : LTy) : Int := if ty.signed then 2 ^ (ty.width - 1) - 1 else 2 ^ ty.width - 1

theorem clampInt_eq (ty : LTy) (z : Int) : clampInt ty z = max (leastOf ty) (min z (greatestOf ty)) := by
  unfold clampInt leastOf greatestOf
  split <;> rfl

/-- The ends of an integer type lie in order, and 2^128 lies beyond either. -/
theorem range_of_integer (ty : LTy) : leastOf ty ≤ greatestOf ty ∧ -(2 ^ 128) < leastOf ty ∧ greatestOf ty < 2 ^ 128 ∧
    0 ≤ greatestOf ty ∧ greatestOf ty < 2 ^ ty.width := by
  cases ty <;> decide

theorem clampInt_inside {ty : LTy} {z : Int} (hlo : leastOf ty ≤ z) (hhi : z ≤ greatestOf ty) : clampInt ty z = z := by
  rw [clampInt_eq, min_eq_left hhi, max_eq_right hlo]

theorem clampInt_below {ty : LTy} {z : Int} (h : z < leastOf ty) : clampInt ty z = leastOf ty := by
  rw [clampInt_eq, max_eq_left ((min_le_left _ _).trans h.le)]

theorem clampInt_above {ty : LTy} {z : Int} (h : greatestOf ty < z) : clampInt ty z = greatestOf ty := by
  rw [clampInt_eq, min_eq_right h.le, max_eq_right (range_of_integer ty).1]

section

variable {ty : LTy} (c : RndCtx) (hty : fmtOf ty = none)

include hty

theorem roundFmt_integer_nan : roundFmt c ty .nan = 0 := by rw [roundFmt, hty]

theorem roundFmt_integer_below : roundFmt c ty (.inf true) = (leastOf ty % 2 ^ ty.width).toNat := by
  obtain ⟨_, hlo, _⟩ := range_of_integer ty
  rw [roundFmt, hty]
  dsimp only
  rw [if_pos rfl, clampInt_below hlo, BitVec.toNat_ofInt]
  push_cast
  rfl

theorem roundFmt_integer_above : roundFmt c ty (.inf false) = (greatestOf ty).toNat := by
  obtain ⟨_, _, hhi, h0, hlt⟩ := range_of_integer ty
  rw [roundFmt, hty]
  dsimp only
  rw [if_neg Bool.false_ne_true, clampInt_above hhi, BitVec.toNat_ofInt]
  push_cast
  rw [Int.emod_eq_of_lt h0 hlt]

end

/-- Settles O15: a rounding gives the grid point or a neighbour that its mode names (`roundGrid_cases` and a lemma for each mode), and the
ends of an integer type are what `clampInt` and the infinities give beyond them. -/
theorem roundingAndClamping : Obligations.RoundingAndClamping := by
  refine ⟨fun c m e ge d hge => ?_, fun c ty z hty => ⟨roundFmt_integer_nan c hty, fun lo hi hlo hhi => ?_⟩⟩
  · subst hge
    refine ⟨fun h => ?_, fun h => ?_, roundGrid_nearest c m e d, roundGrid_towardZero c m e d, roundGrid_down c m e d, roundGrid_up c m e d,
      roundGrid_stochastic c m e d⟩
    · rw [roundGrid_of_exact h, Int.ediv_mul_cancel_of_emod_eq_zero h]
    · rw [roundGrid_of_inexact h]
      split
      · exact .inr rfl
      · exact .inl rfl
  · obtain rfl : lo = leastOf ty := hlo
    obtain rfl : hi = greatestOf ty := hhi
    exact ⟨clampInt_inside, clampInt_below, clampInt_above, roundFmt_integer_below c hty, roundFmt_integer_above c hty⟩

end Sys2Proof.Machine
end

section
/-! PROOFS. Floating-point lane instructions: what each computes of the elements of its sources, in FP32 (O16) and in packed halves (O18). -/

set_option Elab.async false

namespace Sys2Proof.Machine

/-! Results of one and of two elements -/

theorem packNat_one (w : Nat) (f : Nat → Nat) : packNat w f 1 = f 0 % 2 ^ w := by simp [packNat]

theorem packNat_two (w : Nat) (f : Nat → Nat) : packNat w f 2 = f 0 % 2 ^ w + f 1 % 2 ^ w * 2 ^ w := by simp [packNat]

theorem getD_map_of_lt {α : Type} (f : Nat → α) (a : α) {l : List Nat} {i : Nat} (hi : i < l.length) : (l.map f).getD i a = f (l.getD i 0) := by
  simp [List.getD, hi]

theorem getD_elVal (ty : LTy) (e : Nat) {l : List Nat} {i : Nat} (hi : i < l.length) :
    (l.map (fun x => decodeElem ty 0 (elemOf ty.width x e))).getD i .nan = elVal ty l i e := getD_map_of_lt _ _ hi

theorem nth_elNat (w e : Nat) {l : List Nat} {i : Nat} (hi : i < l.length) : nth (l.map (fun x => elemOf w x e)) i = elNat w l i e :=
  getD_map_of_lt _ _ hi

/-! The rounded operations on a thread's sources (R126, R232, R236) -/

section

variable (ty : LTy) (rd : Bool) (e : Nat) {l : List Nat}

theorem fAdd_elements (h : l.length = 2) : fAdd rd (l.map (fun x => decodeElem ty 0 (elemOf ty.width x e))) =
    FVal.add rd (elVal ty l 0 e) (elVal ty l 1 e) := by
  rw [fAdd, getD_elVal _ _ (by omega), getD_elVal _ _ (by omega)]

theorem fSub_elements (h : l.length = 2) : fSub rd (l.map (fun x => decodeElem ty 0 (elemOf ty.width x e))) =
    FVal.add rd (elVal ty l 0 e) (elVal ty l 1 e).neg := by
  rw [fSub, getD_elVal _ _ (by omega), getD_elVal _ _ (by omega)]

theorem fMul_elements (h : l.length = 2) : fMul rd (l.map (fun x => decodeElem ty 0 (elemOf ty.width x e))) =
    FVal.mul (elVal ty l 0 e) (elVal ty l 1 e) := by
  rw [fMul, getD_elVal _ _ (by omega), getD_elVal _ _ (by omega)]

theorem fMad_elements (h : l.length = 3) : fMad rd (l.map (fun x => decodeElem ty 0 (elemOf ty.width x e))) =
    FVal.add rd (FVal.mul (elVal ty l 0 e) (elVal ty l 1 e)) (elVal ty l 2 e) := by
  rw [fMad, getD_elVal _ _ (by omega), getD_elVal _ _ (by omega), getD_elVal _ _ (by omega)]

end

section

variable {i : Instr} {o : LaneOp} {ty : LTy} {r : Rnd} {sat : Bool} {f : Bool → List FVal → FVal} {val : List Nat → Nat → FVal}
  (hval : ∀ l : List Nat, l.length = o.src.length → ∀ e, f (r == .rd) (l.map (fun x => decodeElem ty 0 (elemOf ty.width x e))) = val l e)

include hval

/-- A rounded operation on whole words computes in each thread the one rounding of its exact value. -/
theorem laneDoes_rounded_one (hexec : ∀ s, exec i s = laneAlu i o (fpFn ty 1 r sat f) s) :
    LaneDoes i o (fun g seed j l => (roundArith (g.laneRnd seed r sat j 0) ty (val l 0) % 2 ^ ty.width, false)) := by
  refine laneDoes_congr (laneAlu_does i o _ hexec) fun g seed j l hl => ?_
  rw [fpFn, packNat_one, hval l hl]

/-- A rounded operation on two packed elements rounds each with its own key (R124, R236). -/
theorem laneDoes_rounded_two (hexec : ∀ s, exec i s = laneAlu i o (fpFn ty 2 r sat f) s) :
    LaneDoes i o (fun g seed j l => (roundArith (g.laneRnd seed r sat j 0) ty (val l 0) % 2 ^ ty.width +
      roundArith (g.laneRnd seed r sat j 1) ty (val l 1) % 2 ^ ty.width * 2 ^ ty.width, false)) := by
  refine laneDoes_congr (laneAlu_does i o _ hexec) fun g seed j l hl => ?_
  rw [fpFn, packNat_two, hval l hl, hval l hl]

end

/-! Codes that are not rounded (R114, R232, R233, R235) -/

theorem canonNan_f32 (x : Nat) : canonNan .f32 x = if (decodeElem .f32 0 x).isNan then 0x7FC00000 else x := rfl

theorem canonNan_lt {x : Nat} (h : x < 2 ^ 32) : canonNan .f32 x < 2 ^ 32 := by
  rw [canonNan_f32]
  split
  · decide
  · exact h

/-- An operation on the codes of the sources that needs no rounding, one code a thread. -/
theorem laneDoes_code_one {i : Instr} {o : LaneOp} {f : List Nat → Nat} {val : List Nat → Nat}
    (hexec : ∀ s, exec i s = laneAlu i o (codeFn .f32 1 f) s) (hval : ∀ l : List Nat, l.length = o.src.length → f (l.map (fun x => elemOf 32 x 0)) = val l) (hlt : ∀ l, val l < 2 ^ 32) :
    LaneDoes i o (fun _ _ _ l => (val l, false)) := by
  refine laneDoes_congr (laneAlu_does i o _ hexec) fun g seed j l hl => ?_
  rw [codeFn, packNat_one, show LTy.f32.width = 32 from rfl, hval l hl, Nat.mod_eq_of_lt (hlt l)]

/-- An operation on the codes of two packed elements that needs no rounding. -/
theorem laneDoes_code_two {i : Instr} {o : LaneOp} {ty : LTy} {f : List Nat → Nat} {val : List Nat → Nat → Nat}
    (hval : ∀ l : List Nat, l.length = o.src.length → ∀ e, f (l.map (fun x => elemOf ty.width x e)) = val l e)
    (hexec : ∀ s, exec i s = laneAlu i o (codeFn ty 2 f) s) :
    LaneDoes i o (fun _ _ _ l => (val l 0 % 2 ^ ty.width + val l 1 % 2 ^ ty.width * 2 ^ ty.width, false)) := by
  refine laneDoes_congr (laneAlu_does i o _ hexec) fun g seed j l hl => ?_
  rw [codeFn, packNat_two, hval l hl, hval l hl]

/-- The sign of a code flipped, by cases or modulo 2^32. -/
theorem flipSign_eq {x : Nat} (h : x < 2 ^ 32) : (if x < 2 ^ 31 then x + 2 ^ 31 else x - 2 ^ 31) = (x + 2 ^ 31) % 2 ^ 32 := by
  split <;> omega

theorem elNat_lt (w : Nat) (l : List Nat) (n k : Nat) : elNat w l n k < 2 ^ w := Nat.mod_lt _ (by positivity)

/-- Settles O16: the rounded forms by `laneDoes_rounded_one` and what their operation makes of a thread's sources, `fabs` and `fneg` by
`laneDoes_code_one`, the compare and the select as they stand in the model. -/
theorem laneFloatResults : Obligations.LaneFloatResults := by
  intro h d a b c r sat neg p pd k out v o2 p2 p1 quiet
  refine ⟨?_, ?_, ?_, ?_, ?_, ?_, ?_, ?_⟩
  · exact laneDoes_rounded_one (o := o2) (fun l hl e => fAdd_elements .f32 _ e hl) fun _ => rfl
  · exact laneDoes_rounded_one (o := o2) (fun l hl e => fSub_elements .f32 _ e hl) fun _ => rfl
  · exact laneDoes_rounded_one (o := o2) (fun l hl e => fMul_elements .f32 (r == .rd) e hl) fun _ => rfl
  · exact laneDoes_rounded_one (o := { o2 with src := [(a, 1), (b, 1), (c, 1)] }) (fun l hl e => fMad_elements .f32 _ e hl) fun _ => rfl
  · refine laneDoes_code_one (o := p1) (fun _ => rfl) (fun l hl => ?_) fun l => canonNan_lt (by omega)
    rw [nth_elNat 32 0 (hl.symm ▸ Nat.zero_lt_one), canonNan_f32]
  · refine laneDoes_code_one (o := p1) (fun _ => rfl) (fun l hl => ?_) fun l => canonNan_lt (by omega)
    rw [nth_elNat 32 0 (hl.symm ▸ Nat.zero_lt_one), flipSign_eq (elNat_lt ..), canonNan_f32]
  · exact laneAlu_does _ { p2 with pd := some pd } _ fun _ => rfl
  · refine laneDoes_congr (laneAlu_does _ p2 _ fun _ => rfl) fun g seed j l _ => ?_
    rw [canonNan_f32]
    rfl

/-- Settles O18: each half is rounded, or chosen by its code, apart from the other (`laneDoes_rounded_two`, `packNat_two`). -/
theorem lanePackedResults : Obligations.LanePackedResults := by
  intro h d a b c r sat bf pw pd k sl ty out v two o2 p2
  have hw : ty.width = 16 := by cases bf <;> rfl
  have hround {i : Instr} {o : LaneOp} {f : Bool → List FVal → FVal} {val : List Nat → Nat → FVal}
      (hval : ∀ l : List Nat, l.length = o.src.length → ∀ e, f (r == .rd) (l.map (fun x => decodeElem ty 0 (elemOf ty.width x e))) = val l e)
      (hexec : ∀ s, exec i s = laneAlu i o (fpFn ty 2 r sat f) s) : LaneDoes i o (fun g seed j l => out g seed j (val l)) := by
    have hdoes := laneDoes_rounded_two hval hexec
    rwa [hw] at hdoes
  have hcode {i : Instr} (f : Nat → Nat → Nat) (hexec : ∀ s, exec i s = laneAlu i p2 (codeFn ty 2 (fun l => f (nth l 0) (nth l 1))) s) :
      LaneDoes i p2 (fun _ _ _ l => (two (fun e => f (elNat 16 l 0 e) (elNat 16 l 1 e)), false)) := by
    have hdoes := laneDoes_code_two (val := fun l e => f (elNat ty.width l 0 e) (elNat ty.width l 1 e)) (fun l hl e => ?_) hexec
    · rwa [hw] at hdoes
    · have hl2 : l.length = 2 := hl
      rw [nth_elNat _ _ (by omega), nth_elNat _ _ (by omega)]
  refine ⟨?_, ?_, ?_, ?_, ?_, ?_, ?_⟩
  · exact hround (o := o2) (fun l hl e => fAdd_elements ty _ e hl) fun _ => rfl
  · exact hround (o := o2) (fun l hl e => fSub_elements ty _ e hl) fun _ => rfl
  · exact hround (o := o2) (fun l hl e => fMul_elements ty (r == .rd) e hl) fun _ => rfl
  · exact hround (o := { o2 with src := [(a, 1), (b, 1), (c, 1)] }) (fun l hl e => fMad_elements ty _ e hl) fun _ => rfl
  · exact hcode (fun x y => minMaxBits ty false x y) fun _ => rfl
  · exact hcode (fun x y => minMaxBits ty true x y) fun _ => rfl
  · refine laneDoes_congr (laneAlu_does _ { p2 with pd := if pw then some pd else none } _ fun _ => rfl) fun g seed j l hl => ?_
    simp only [packNat_two, two, v, elVal, elNat, hw]
    rfl

end Sys2Proof.Machine
end

section
/-! PROOFS. Results that wait: conversions and special functions at issue, and QUEUED_RESULT_WRITE (O23). -/

set_option Elab.async false

namespace Sys2Proof.Machine

/-! Conversions at issue (R242 to R244, R246) -/

theorem packNat_congr (w : Nat) {f g : Nat → Nat} {n : Nat} (h : ∀ i, i < n → f i = g i) : packNat w f n = packNat w g n := by
  induction n with
  | zero => rfl
  | succ n ih => rw [packNat, packNat, ih fun i hi => h i (by omega), h n (by omega)]

/-- A merge whose elements begin at element `o`, element by element of the destination word (R242). -/
theorem mergeElems_eq {ty ty2 : LTy} {d b o : Nat} {f g : Nat → Nat} (ho : d * cvtN ty ty2 = o)
    (h : ∀ i, o ≤ i → i < o + cvtN ty ty2 → f (i - o) = g i) :
    mergeElems ty ty2 d b f = packNat ty.width (fun i =>
      if o ≤ i ∧ i < o + cvtN ty ty2 then g i else b / 2 ^ (ty.width * i) % 2 ^ ty.width) ty.perWord := by
  subst ho
  refine packNat_congr _ fun i _ => ?_
  split
  · exact h i (by omega) (by omega)
  · rfl

/-- With its scale register readable `cvts` goes through the conversion queue (R244, R335). -/
theorem exec_cvts_queued {h : LHdr} {d a b c : Opnd} {r : Rnd} {sat : Bool} {ty ty2 : LTy} {e : BitVec 5} {k : BitVec 3} {s : State}
    (he : (s.cur.roomFor true (op h d [a, b, c] r).ops).rg.ebad.getLsbD e.toNat = false) :
    exec (.cvts h d a b c r sat ty ty2 e k) s = laneQueued true (.cvts h d a b c r sat ty ty2 e k) (op h d [a, b, c] r)
      (fun g seed j l =>
        let ds := if ty.narrow then k.toNat else 0
        let ss := if ty.narrow then 0 else k.toNat
        let x := scaleEntry (g.rg.e.getD e.toNat 0) (nth l 2 % 32)
        (mergeElems ty ty2 ds (nth l 1) (fun i =>
          roundFmt (g.laneRnd seed r sat j (ds * cvtN ty ty2 + i)) ty (if entryExp x = 0xFF then .nan else
            (decodeElem ty2 (entrySpecial x) (elemOf ty2.width (nth l 0) (ss * cvtN ty ty2 + i))).scale
              (if ty.narrow then 127 - (entryExp x : Int) else (entryExp x : Int) - 127))), false)) s := by
  change execCvts h d a b c r sat ty ty2 e k s = _
  unfold execCvts bitOf
  dsimp only
  rw [he, Bool.false_and, if_neg Bool.false_ne_true]

/-! QUEUED_RESULT_WRITE (R248) -/

/-- The queues of results that wait, without the oldest of one of them. -/
def Lane.dropQueued (l : Lane) (conv : Bool) (rest : List Queued) : Lane :=
  { l with cvtQ := if conv then rest else l.cvtQ, sfuQ := if conv then l.sfuQ else rest }

section

variable {s : State} {g : Gid} {conv : Bool} {x : Queued} {rest : List Queued}
  (hx : (if conv then (s.group g).ln.cvtQ else (s.group g).ln.sfuQ) = x :: rest)

include hx

/-- The oldest result of a queue is written, and leaves the queue. -/
theorem exec_queuedResultWrite : exec (.queuedResultWrite g conv) s =
    .next (s.setGroup g { (s.group g).writeQueued x with ln := ((s.group g).writeQueued x).ln.dropQueued conv rest }) := by
  change execQueuedResultWrite g conv s = _
  unfold execQueuedResultWrite
  dsimp only
  rw [hx]
  cases conv <;> rfl

end

theorem writeQueued_vec {x : Queued} {v : BitVec 10} (h : x.d = .vec v) (g : Group) : g.writeQueued x =
    g.putVec v.toNat x.mask (fun j => (vword x.lo j).toNat + 2 ^ 32 * (vword x.hi j).toNat) (if x.w64 then 2 else 1) := by
  rw [Group.writeQueued, h]

theorem writeQueued_push {x : Queued} (h : ∀ v, x.d ≠ .vec v) (g : Group) : g.writeQueued x = g.pushY x.d (vword x.hi 0 ++ vword x.lo 0) := by
  unfold Group.writeQueued
  split
  · exact absurd ‹_› (h _)
  · rfl

/-- The two words of a queued result. -/
theorem queuedWord_low (lo hi : W32) : BitVec.ofNat 32 ((lo.toNat + 2 ^ 32 * hi.toNat) / 2 ^ (32 * 0)) = lo := by
  apply BitVec.eq_of_toNat_eq
  have := lo.isLt
  rw [BitVec.toNat_ofNat]
  omega
theorem queuedWord_high (lo hi : W32) : BitVec.ofNat 32 ((lo.toNat + 2 ^ 32 * hi.toNat) / 2 ^ (32 * 1)) = hi := by
  apply BitVec.eq_of_toNat_eq
  have := lo.isLt
  have := hi.isLt
  rw [BitVec.toNat_ofNat]
  omega

/-- A waiting result of a vector register lands in the threads of its mask, its second word in the next register. -/
theorem writeQueued_words {x : Queued} {v : BitVec 10} (h : x.d = .vec v) (g : Group) :
    (∀ j, j < 64 → vword ((g.writeQueued x).rg.row (g.rg.vrow v.toNat)) j =
      if x.mask.getLsbD j then vword x.lo j else vword (g.rg.row (g.rg.vrow v.toNat)) j) ∧
    (x.w64 = true → ∀ j, j < 64 → vword ((g.writeQueued x).rg.row (g.rg.vrow (v.toNat + 1))) j =
      if x.mask.getLsbD j then vword x.hi j else vword (g.rg.row (g.rg.vrow (v.toNat + 1))) j) ∧
    ∀ r, r ≠ g.rg.vrow v.toNat → (x.w64 = true → r ≠ g.rg.vrow (v.toNat + 1)) → (g.writeQueued x).rg.row r = g.rg.row r := by
  rw [writeQueued_vec h]
  refine ⟨fun j hj => ?_, fun hw j hj => ?_, fun r h0 h1 => row_putVec _ _ _ _ _ _ fun k hk => ?_⟩
  · have hword := vword_putVec g v.toNat x.mask (fun j => (vword x.lo j).toNat + 2 ^ 32 * (vword x.hi j).toNat) (if x.w64 then 2 else 1) 0 j
      (by split <;> omega) hj
    rwa [queuedWord_low] at hword
  · have hword := vword_putVec g v.toNat x.mask (fun j => (vword x.lo j).toNat + 2 ^ 32 * (vword x.hi j).toNat) (if x.w64 then 2 else 1) 1 j
      (by rw [if_pos hw]; omega) hj
    rwa [queuedWord_high] at hword
  · cases hw : x.w64 with
    | false =>
      rw [hw, if_neg Bool.false_ne_true] at hk
      obtain rfl : k = 0 := by omega
      exact h0
    | true =>
      rw [hw, if_pos rfl] at hk
      obtain rfl | rfl : k = 0 ∨ k = 1 := by omega
      · exact h0
      · exact h1 hw

/-- A result that waits for a vector register changes that register, its queue and nothing else. -/
theorem queuedResultWrite_vec {s : State} {g : Gid} {conv : Bool} {x : Queued} {rest : List Queued} {v : BitVec 10}
    (hx : (if conv then (s.group g).ln.cvtQ else (s.group g).ln.sfuQ) = x :: rest) (hv : x.d = .vec v) :
    exec (.queuedResultWrite g conv) s = .next (s.setGroup g { s.group g with
      rg := { (s.group g).rg with rows := ((s.group g).writeQueued x).rg.rows, bad := ((s.group g).writeQueued x).rg.bad },
      ln := (s.group g).ln.dropQueued conv rest }) := by
  rw [exec_queuedResultWrite hx, writeQueued_vec hv, putVec_eq]

/-- A result that waits for a result queue changes that queue, its predicate, the queue that it waited in and nothing else. -/
theorem queuedResultWrite_push {s : State} {g : Gid} {conv : Bool} {x : Queued} {rest : List Queued}
    (hx : (if conv then (s.group g).ln.cvtQ else (s.group g).ln.sfuQ) = x :: rest) (hv : ∀ v, x.d ≠ .vec v) :
    exec (.queuedResultWrite g conv) s = .next (s.setGroup g { s.group g with
      y := ((s.group g).pushY x.d (vword x.hi 0 ++ vword x.lo 0)).y,
      ln := { (s.group g).ln.dropQueued conv rest with p := ((s.group g).pushY x.d (vword x.hi 0 ++ vword x.lo 0)).ln.p } }) := by
  rw [exec_queuedResultWrite hx, writeQueued_push hv, pushY_eq]
  rfl

end Sys2Proof.Machine
end

section
/-! PROOFS. The special functions: their exact cases, and how far a value that they give lies from the exact one (R127; O23). -/

set_option Elab.async false

namespace Sys2Proof.Machine

/-! A bit that says whether something was cut off -/

/-- Twice the quotient, and one more where it is not exact. -/
def jamNat (q : Nat) (exact : Bool) : Nat := if exact then 2 * q else 2 * q + 1

theorem jam_eq (q : Nat) (exact : Bool) : jam q exact = (jamNat q exact : Nat) := by
  cases exact <;> rfl

theorem jamNat_even {q : Nat} {exact : Bool} (h : jamNat q exact % 2 = 0) : exact = true ∧ jamNat q exact = 2 * q := by
  cases exact with
  | true => exact ⟨rfl, rfl⟩
  | false => rw [jamNat, if_neg Bool.false_ne_true] at h; omega

theorem jamNat_odd {q : Nat} {exact : Bool} (h : jamNat q exact % 2 ≠ 0) : exact = false ∧ jamNat q exact = 2 * q + 1 := by
  cases exact with
  | true => rw [jamNat, if_pos rfl] at h; omega
  | false => exact ⟨rfl, rfl⟩

theorem le_jamNat (q : Nat) (exact : Bool) : 2 * q ≤ jamNat q exact := by
  cases exact <;> simp [jamNat]

/-! Square roots bit by bit -/

/-- From a start `r` whose square is not above n, with n below (r + 2^k)^2, `isqrtFrom` ends at the whole square root of n. -/
theorem isqrtFrom_spec {k n r : Nat} (hlo : r * r ≤ n) (hhi : n < (r + 2 ^ k) * (r + 2 ^ k)) :
    isqrtFrom k n r * isqrtFrom k n r ≤ n ∧ n < (isqrtFrom k n r + 1) * (isqrtFrom k n r + 1) := by
  induction k generalizing r with
  | zero => exact ⟨hlo, hhi⟩
  | succ k ih =>
    have hpow : r + 2 ^ (k + 1) = r + 2 ^ k + 2 ^ k := by rw [Nat.pow_succ]; omega
    rw [hpow] at hhi
    rw [isqrtFrom]
    split
    · exact ih ‹_› hhi
    · exact ih hlo (by omega)

theorem isqrtFrom_zero {k n : Nat} (h : n < 2 ^ k * 2 ^ k) :
    isqrtFrom k n 0 * isqrtFrom k n 0 ≤ n ∧ n < (isqrtFrom k n 0 + 1) * (isqrtFrom k n 0 + 1) :=
  isqrtFrom_spec (Nat.zero_le n) (by rwa [Nat.zero_add])

/-- A whole square root is not below a number whose square is not above the radicand. -/
theorem le_root {a r n : Nat} (ha : a * a ≤ n) (hr : n < (r + 1) * (r + 1)) : a ≤ r :=
  Nat.le_of_lt_succ (Nat.mul_self_lt_mul_self_iff.1 (ha.trans_lt hr))

/-! Reciprocals -/

theorem rcpVal_fin (m e : Int) : rcpVal (.fin m e) =
    let k := Nat.log2 m.natAbs + 64
    let z := (jamNat (2 ^ k / m.natAbs) (decide (2 ^ k / m.natAbs * m.natAbs = 2 ^ k)) : Int)
    .fin (if m < 0 then -z else z) (-e - k - 1) := by
  rw [rcpVal]
  simp only [jam_eq]

/-- A quotient of 2^k by `a`, doubled and jammed, is twice the exact one or lies within 1 of it. -/
theorem jamNat_div {a k : Nat} (ha : 0 < a) :
    let z := jamNat (2 ^ k / a) (decide (2 ^ k / a * a = 2 ^ k))
    (z % 2 = 0 → z * a = 2 ^ (k + 1)) ∧ (z % 2 ≠ 0 → (z - 1) * a < 2 ^ (k + 1) ∧ 2 ^ (k + 1) < (z + 1) * a) := by
  intro z
  have hle : 2 ^ k / a * a ≤ 2 ^ k := Nat.div_mul_le_self ..
  have hlt : 2 ^ k < (2 ^ k / a + 1) * a := by
    rw [Nat.mul_comm]
    exact Nat.lt_mul_div_succ _ ha
  have hpow : 2 ^ (k + 1) = 2 * 2 ^ k := by rw [Nat.pow_succ, Nat.mul_comm]
  refine ⟨fun h => ?_, fun h => ?_⟩
  · obtain ⟨hexact, hz⟩ := jamNat_even h
    rw [show z = 2 * (2 ^ k / a) from hz, Nat.mul_assoc, of_decide_eq_true hexact, hpow]
  · obtain ⟨hexact, hz⟩ := jamNat_odd h
    have hne := of_decide_eq_false hexact
    rw [show z = 2 * (2 ^ k / a) + 1 from hz, hpow]
    constructor
    · rw [Nat.add_sub_cancel, Nat.mul_assoc]
      omega
    · rw [show 2 * (2 ^ k / a) + 1 + 1 = 2 * (2 ^ k / a + 1) by omega, Nat.mul_assoc]
      omega

theorem rcpVal_near (m e : Int) (hm : m ≠ 0) : ∃ (z : Int) (k : Nat), rcpVal (.fin m e) = .fin z (-e - k) ∧ (z < 0 ↔ m < 0) ∧
    2 ^ 64 ≤ z.natAbs ∧ (z % 2 = 0 → z.natAbs * m.natAbs = 2 ^ k) ∧
    (z % 2 ≠ 0 → (z.natAbs - 1) * m.natAbs < 2 ^ k ∧ 2 ^ k < (z.natAbs + 1) * m.natAbs) := by
  have ha : 0 < m.natAbs := Int.natAbs_pos.2 hm
  obtain ⟨heven, hodd⟩ := jamNat_div (k := Nat.log2 m.natAbs + 64) ha
  have hbig : 2 ^ 63 ≤ 2 ^ (Nat.log2 m.natAbs + 64) / m.natAbs := by
    have hlt : m.natAbs < 2 ^ (Nat.log2 m.natAbs + 1) := Nat.lt_log2_self
    rw [Nat.le_div_iff_mul_le ha]
    calc 2 ^ 63 * m.natAbs ≤ 2 ^ 63 * 2 ^ (Nat.log2 m.natAbs + 1) := Nat.mul_le_mul_left _ hlt.le
      _ = 2 ^ (Nat.log2 m.natAbs + 64) := by rw [← Nat.pow_add]; congr 1; omega
  have hle := le_jamNat (2 ^ (Nat.log2 m.natAbs + 64) / m.natAbs)
    (decide (2 ^ (Nat.log2 m.natAbs + 64) / m.natAbs * m.natAbs = 2 ^ (Nat.log2 m.natAbs + 64)))
  have hval := rcpVal_fin m e
  dsimp only at hval heven hodd
  revert heven hodd hle hval
  generalize jamNat _ _ = z
  intro heven hodd hle hval
  have habs : (if m < 0 then -(z : Int) else z).natAbs = z := by split <;> omega
  have hpar : (if m < 0 then -(z : Int) else z) % 2 = 0 ↔ z % 2 = 0 := by split <;> omega
  refine ⟨if m < 0 then -z else z, Nat.log2 m.natAbs + 64 + 1, hval.trans ?_, ?_, ?_, ?_, ?_⟩
  · push_cast
    congr 1
    ring
  · split <;> omega
  · rw [habs]
    omega
  · rw [hpar, habs]
    exact heven
  · rw [Ne, hpar, habs]
    exact hodd

/-! Square roots and their reciprocals -/

/-- The whole root `r` of a quotient N / y, doubled and jammed where it is not exact, is the root of M / y for M = 4 N, or lies within 1
of it. -/
theorem jamNat_root {r N y M : Nat} (hlo : r * r * y ≤ N) (hhi : N < (r + 1) * (r + 1) * y) (hM : M = 4 * N) :
    let z := jamNat r (decide (r * r * y = N))
    (z % 2 = 0 → z * z * y = M) ∧ (z % 2 ≠ 0 → (z - 1) * (z - 1) * y < M ∧ M < (z + 1) * (z + 1) * y) := by
  intro z
  have hdouble (a : Nat) : 2 * a * (2 * a) * y = 4 * (a * a * y) := by ring
  refine ⟨fun h => ?_, fun h => ?_⟩
  · obtain ⟨hexact, hz⟩ := jamNat_even h
    have heq : r * r * y = N := of_decide_eq_true hexact
    rw [show z = 2 * r from hz, hdouble, heq, hM]
  · obtain ⟨hexact, hz⟩ := jamNat_odd h
    have hne : ¬ r * r * y = N := of_decide_eq_false hexact
    rw [show z = 2 * r + 1 from hz, Nat.add_sub_cancel, show 2 * r + 1 + 1 = 2 * (r + 1) by omega, hdouble, hdouble, hM]
    omega

/-- The part of an exponent that makes it even goes into the significand. -/
def oddPart (e : Int) : Nat := if e % 2 ≠ 0 then 2 else 1

theorem oddPart_cases (e : Int) : (e % 2 = 0 ∧ oddPart e = 1) ∨ (e % 2 = 1 ∧ oddPart e = 2) := by
  unfold oddPart
  rcases Int.emod_two_eq_zero_or_one e with h | h <;> simp [h]

theorem oddPart_mul (e : Int) (m : Nat) : (if decide (e % 2 ≠ 0) then 2 * m else m) = oddPart e * m := by
  rcases oddPart_cases e with ⟨h, ho⟩ | ⟨h, ho⟩ <;> simp [h, ho]

/-- Half of what an exponent leaves once it is made even. -/
theorem half_even (e k : Int) : ((if decide (e % 2 ≠ 0) then e - 1 else e) - 2 * k) / 2 = e / 2 - k := by
  simp only [decide_eq_true_eq]
  split <;> omega

theorem sqrtVal_pos {m : Nat} (e : Int) : sqrtVal (.fin m e) =
    let n := oddPart e * m * 2 ^ 128
    let r := isqrtFrom 96 n 0
    .fin (jamNat r (decide (r * r = n)) : Nat) (e / 2 - 64 - 1) := by
  have hneg : ¬ (m : Int) < 0 := by omega
  have hhalf := half_even e 64
  rw [sqrtVal, if_neg hneg, Int.natAbs_natCast, sqrtPos]
  dsimp only
  rw [oddPart_mul, jam_eq, show (128 : Int) = 2 * 64 by norm_num, hhalf]

theorem rsqVal_pos {m : Nat} (e : Int) : rsqVal (.fin m e) =
    let n := oddPart e * m
    let r := isqrtFrom 120 (2 ^ 200 / n) 0
    .fin (jamNat r (decide (r * r * n = 2 ^ 200)) : Nat) (-(e / 2) - 100 - 1) := by
  have hneg : ¬ (m : Int) < 0 := by omega
  have hhalf := half_even e 0
  rw [Int.mul_zero, Int.sub_zero, Int.sub_zero] at hhalf
  rw [rsqVal, if_neg hneg]
  dsimp only
  rw [Int.natAbs_natCast, oddPart_mul, jam_eq, hhalf]

section

variable (m : Nat) (e : Int) (hpos : 0 < m) (hlt : m < 2 ^ 24)

include hpos hlt

theorem oddPart_mul_bounds : 0 < oddPart e * m ∧ oddPart e * m < 2 ^ 25 := by
  rcases oddPart_cases e with ⟨-, ho⟩ | ⟨-, ho⟩ <;> rw [ho] <;> omega

theorem sqrtVal_near : ∃ (z k : Nat) (f : Int), sqrtVal (.fin m e) = .fin z f ∧ e = 2 * f + k ∧ 2 ^ 64 ≤ z ∧
    (z % 2 = 0 → z * z = m * 2 ^ k) ∧
    (z % 2 ≠ 0 → (z - 1) * (z - 1) < m * 2 ^ k ∧ m * 2 ^ k < (z + 1) * (z + 1)) := by
  obtain ⟨hn0, hn1⟩ := oddPart_mul_bounds m e hpos hlt
  obtain ⟨hlo, hhi⟩ := isqrtFrom_zero (k := 96) (n := oddPart e * m * 2 ^ 128) (by omega)
  have hbig : 2 ^ 64 ≤ isqrtFrom 96 (oddPart e * m * 2 ^ 128) 0 := le_root (by omega) hhi
  have hval := sqrtVal_pos (m := m) e
  dsimp only at hval
  generalize isqrtFrom 96 (oddPart e * m * 2 ^ 128) 0 = r at hlo hhi hbig hval
  have hle := le_jamNat r (decide (r * r = oddPart e * m * 2 ^ 128))
  have hroot {M : Nat} := jamNat_root (r := r) (N := oddPart e * m * 2 ^ 128) (y := 1) (M := M) (by rwa [Nat.mul_one]) (by rwa [Nat.mul_one])
  simp only [Nat.mul_one] at hroot
  rcases oddPart_cases e with ⟨he, ho⟩ | ⟨he, ho⟩
  · exact ⟨_, 130, _, hval, by omega, by omega, hroot (by rw [ho]; ring)⟩
  · exact ⟨_, 131, _, hval, by omega, by omega, hroot (by rw [ho]; ring)⟩

theorem rsqVal_near : ∃ (z k : Nat) (f : Int), rsqVal (.fin m e) = .fin z f ∧ e + 2 * f = -k ∧ 2 ^ 64 ≤ z ∧
    (z % 2 = 0 → z * z * m = 2 ^ k) ∧
    (z % 2 ≠ 0 → (z - 1) * (z - 1) * m < 2 ^ k ∧ 2 ^ k < (z + 1) * (z + 1) * m) := by
  obtain ⟨hn0, hn1⟩ := oddPart_mul_bounds m e hpos hlt
  have hval := rsqVal_pos (m := m) e
  dsimp only at hval
  generalize hn : oddPart e * m = n at hn0 hn1 hval
  have hdiv : 2 ^ 200 / n ≤ 2 ^ 200 := Nat.div_le_self ..
  have hquot : 2 ^ 128 ≤ 2 ^ 200 / n := (Nat.le_div_iff_mul_le hn0).2 (by omega)
  obtain ⟨hlo, hhi⟩ := isqrtFrom_zero (k := 120) (n := 2 ^ 200 / n) (by omega)
  have hbig : 2 ^ 64 ≤ isqrtFrom 120 (2 ^ 200 / n) 0 := le_root (by omega) hhi
  generalize isqrtFrom 120 (2 ^ 200 / n) 0 = r at hlo hhi hbig hval
  have hle := le_jamNat r (decide (r * r * n = 2 ^ 200))
  have hlo' : r * r * n ≤ 2 ^ 200 := (Nat.le_div_iff_mul_le hn0).1 hlo
  have hhi' : 2 ^ 200 < (r + 1) * (r + 1) * n := (Nat.div_lt_iff_lt_mul hn0).1 hhi
  have hroot := jamNat_root (N := 2 ^ 200) (M := 4 * 2 ^ 200) hlo' hhi' rfl
  dsimp only at hroot
  generalize jamNat r (decide (r * r * n = 2 ^ 200)) = z at hroot hval hle
  rcases oddPart_cases e with ⟨he, ho⟩ | ⟨he, ho⟩
  · rw [ho, Nat.one_mul] at hn
    subst hn
    exact ⟨z, 202, _, hval, by omega, by omega, hroot⟩
  · obtain ⟨heven, hodd⟩ := hroot
    have hassoc (a : Nat) : a * a * n = 2 * (a * a * m) := by rw [← hn, ho]; ring
    rw [hassoc] at heven hodd
    rw [hassoc] at hodd
    exact ⟨z, 201, _, hval, by omega, by omega, fun h => by have := heven h; omega, fun h => by have := hodd h; omega⟩

end

/-! Powers and logarithms of 2 where they are exact -/

theorem natAbs_mul_pow_two (n : Int) (k : Nat) : (n * 2 ^ k).natAbs = n.natAbs * 2 ^ k := by
  rw [Int.natAbs_mul, Int.natAbs_pow]
  rfl

theorem log2_mul_pow_two {a : Nat} (ha : a ≠ 0) (k : Nat) : Nat.log2 (a * 2 ^ k) = Nat.log2 a + k := by
  have hpos : a * 2 ^ k ≠ 0 := by positivity
  rw [Nat.log2_eq_iff hpos, Nat.pow_add, Nat.add_right_comm, Nat.pow_add]
  exact ⟨Nat.mul_le_mul_right _ (Nat.log2_self_le ha), Nat.mul_lt_mul_of_pos_right Nat.lt_log2_self (by positivity)⟩

section

variable {n : Int} (hn0 : n ≠ 0) (hn : n.natAbs < 512)

include hn0 hn

theorem log2_of_small : Nat.log2 n.natAbs < 9 := (Nat.log2_lt (Int.natAbs_ne_zero.2 hn0)).2 hn

/-- Two to a whole number that is given with fraction bits. -/
theorem exp2Val_fraction (k : Nat) : exp2Val (.fin (n * 2 ^ k) (-k)) = .fin 1 n := by
  have hlog := log2_of_small hn0 hn
  have hflog : flog2 (n * 2 ^ k) (-k) = Nat.log2 n.natAbs := by
    rw [flog2, natAbs_mul_pow_two, log2_mul_pow_two (Int.natAbs_ne_zero.2 hn0)]
    omega
  have hdiv : n * 2 ^ k / 2 ^ k = n := Int.mul_ediv_cancel _ (by positivity)
  rw [exp2Val]
  dsimp only
  rw [hflog, if_neg (show ¬ (8 : Int) < Nat.log2 n.natAbs by omega)]
  split
  · obtain rfl : k = 0 := by omega
    simp
  · rw [if_neg (by omega), show (- -(k : Int)).toNat = k by omega, hdiv, Int.sub_self, if_pos (by rfl)]

/-- Two to a whole number that is given with a scale. -/
theorem exp2Val_whole {m : Int} {k : Nat} (hm : n = m * 2 ^ k) : exp2Val (.fin m k) = .fin 1 n := by
  have hlog := log2_of_small hn0 hn
  have hm0 : m ≠ 0 := by
    rintro rfl
    exact hn0 (by rw [hm, Int.zero_mul])
  have hflog : flog2 m k = Nat.log2 n.natAbs := by
    rw [flog2, hm, natAbs_mul_pow_two, log2_mul_pow_two (Int.natAbs_ne_zero.2 hm0)]
    push_cast
    rfl
  rw [exp2Val]
  dsimp only
  rw [hflog, if_neg (show ¬ (8 : Int) < Nat.log2 n.natAbs by omega), if_pos (by omega), Int.toNat_natCast, hm]

end

theorem log2Val_pow_two (l : Nat) (e : Int) : log2Val (.fin (2 ^ l) e) = mkVal (l + e) 0 := by
  have hneg : ¬ ((2 : Int) ^ l) < 0 := not_lt.2 (by positivity)
  have habs : ((2 : Int) ^ l).natAbs = 2 ^ l := by rw [Int.natAbs_pow]; rfl
  rw [log2Val, if_neg hneg]
  dsimp only
  rw [habs, Nat.log2_two_pow, if_pos rfl]

theorem special_negative {m : Int} (hm : m < 0) (e : Int) : ∀ f ∈ [rsqVal, sqrtVal, log2Val], f (.fin m e) = .nan := by
  simp [rsqVal, sqrtVal, log2Val, hm]

/-! The obligation -/

/-- Settles O23: an issue is the shared run of the queues (`laneQueued_does`), a write of a waiting result is `queuedResultWrite_vec` or
`queuedResultWrite_push`, and the special functions are within the jammed bit of the exact value (`rcpVal_near`, `sqrtVal_near`,
`rsqVal_near`) or exact. -/
theorem queuedResults : Obligations.QueuedResults := by
  refine ⟨fun h d a b c r sat ty ty2 sl dl k e => ?_, fun s g conv x rest v hx hv => ?_, fun s g conv x rest hx hv => ?_, fun n => ?_, ?_, ?_,
    fun m e hm => special_negative hm e, fun m e hm _ => rcpVal_near m e hm, fun m e h0 hlt => ⟨sqrtVal_near m e h0 hlt, rsqVal_near m e h0 hlt⟩,
    fun n k hn0 hn => ⟨exp2Val_fraction hn0 hn k, fun m => exp2Val_whole hn0 hn⟩, log2Val_pow_two⟩
  · intro tn t2 n one sfu
    refine ⟨?_, ?_, ?_, ?_, ?_, ?_, ?_, ?_⟩
    · refine laneQueues_congr (laneQueued_does true _ { h := h, d := d, dn := tn, src := [(a, t2), (b, tn)], rs := r == .rs } _ _
        fun _ _ _ _ => rfl) fun g seed j l _ => ?_
      refine congrArg (·, false) (mergeElems_eq rfl fun i hlo _ => ?_)
      rw [Nat.add_sub_of_le hlo]
      rfl
    · refine laneQueues_congr (laneQueued_does true _ (op h d [a, b, c] r) _ _ fun _ _ _ he => exec_cvts_queued he) fun g seed j l _ => ?_
      cases ty.narrow with
      | false =>
        refine congrArg (·, false) (mergeElems_eq (o := 0) (Nat.zero_mul _) fun i _ _ => ?_)
        simp only [Bool.false_eq_true, if_false, Nat.zero_mul, Nat.zero_add]
        rfl
      | true =>
        refine congrArg (·, false) (mergeElems_eq (o := k.toNat * cvtN ty ty2) rfl fun i hlo _ => ?_)
        simp only [if_true, Nat.zero_mul, Nat.zero_add, Nat.add_sub_of_le hlo]
        rfl
    · exact laneQueued_does true _ { h := h, d := d, src := [(a, 4)], rs := r == .rs } _ _ fun _ _ _ _ => rfl
    all_goals exact laneQueued_does false _ one _ _ fun _ _ _ _ => rfl
  · obtain ⟨hlow, hhigh, hother⟩ := writeQueued_words hv (s.group g)
    refine ⟨_, queuedResultWrite_vec hx hv, ?_⟩
    rw [State.group_setGroup_same]
    refine ⟨hlow, hhigh, hother, ?_, rfl⟩
    rw [writeQueued_vec hv]
    exact bad_putVec _ _ _ _ _
  · intro full
    refine ⟨_, queuedResultWrite_push hx hv, ?_⟩
    rw [State.group_setGroup_same]
    refine ⟨fun i => ?_, fun i p hd hp => ?_, fun p hp => ?_, rfl⟩
    · dsimp only
      rw [y_pushY]
      exact ⟨fun hi hroom => if_pos ⟨hi, Nat.lt_of_not_le hroom⟩, fun hi => if_neg fun hc => hi.elim (fun h => h hc.1) hc.2.not_ge⟩
    · have hpr := pr_pushY_same (s.group g) i p (vword x.hi 0 ++ vword x.lo 0) hp
      rw [← hd] at hpr
      exact ⟨fun hfull => hpr.trans (if_neg (Nat.not_lt.2 hfull)), fun hroom => hpr.trans (if_pos (Nat.lt_of_not_le hroom))⟩
    · exact pr_pushY_other _ _ _ _ hp
  · exact ⟨rfl, rfl, rfl, rfl, rfl, rfl⟩
  · exact ⟨rfl, rfl, rfl, rfl, rfl, by simp [rsqVal, sqrtVal, log2Val]⟩
  · simp [rcpVal, rsqVal, sqrtVal, exp2Val, log2Val]

end Sys2Proof.Machine
end

section
/-! PROOFS. A `.dstep` step that widens a live record over a chain that holds something, and the refutation of O56. -/

set_option Elab.async false

namespace Sys2Proof.Machine

/-! What a drain into an accumulator leaves in its last place (R131, R285) -/

/-- A NaN drains as the canonical NaN, whatever the accumulator held. -/
theorem accSum_nan (c : RndCtx) (old : W32) : accSum c old .nan = 0x7FC00000 := by
  have hsum : FVal.add false (f32val old) .nan = .nan := by cases f32val old <;> rfl
  rw [accSum, hsum]
  rfl

/-- The place of the last chain that a drain adds holds that chain's sum with what stood there. -/
theorem drainAcc_last (g : Group) {x : MxArray} (ea eb : BitVec 512) (acc : Nat) (r : Rnd) (seed : W64) {m n : Nat}
    (hm : min x.m (accRows g.rg) = m + 1) (hn : x.ncols = n + 1) : ∃ old : W32, ∀ k, k < 4 →
      (g.drainAcc x ea eb acc r seed).rg.byte ((g.rg.accSpan acc).1 + 128 * m + 4 * n + k) =
        BitVec.ofNat 8 (accSum (drainCtx g seed r false m n) old (drainVal x ea eb m n) / 256 ^ k) := by
  rw [Group.drainAcc, hm, List.range_succ, List.foldl_append, List.foldl_cons, List.foldl_nil, hn, List.range_succ, List.foldl_append,
    List.foldl_cons, List.foldl_nil]
  dsimp only
  apply Exists.intro
  intro k hk
  rw [byte_setBytes, length_natToBytes, if_pos (by omega), Nat.add_sub_cancel_left, getD_natToBytes _ _ _ hk]

/-- Waking an array instruction that waits leaves register space as it is. -/
theorem rg_wokeArray (g : Group) : (wokeArray g).rg = g.rg := by
  unfold wokeArray
  split <;> rfl

/-- A `.dstep` step leaves the bytes that its drain left, whatever views and scale registers its group has. -/
theorem byte_of_stepped (g g1 : Group) (a : Nat) :
    ({ g1 with rg := { g.rg with rows := g1.rg.rows, bad := g1.rg.bad } } : Group).rg.byte a = g1.rg.byte a := rfl

theorem rg_countDrain (g : Group) (r : Rnd) : (g.countDrain r).rg = g.rg := by
  unfold Group.countDrain
  split <;> rfl

theorem group_of_arrayStep {s t : State} {gid : Gid} {g : Group} {y : MxArray} {pool : BitVec 10 → BitVec 10} (h : ArrayStep s t gid g y pool) :
    t.group gid = g := by
  obtain ⟨ht, _⟩ := h
  rw [ht]
  exact State.group_setGroup_same ..

/-! The state -/

/-- A chain in the state NaN. -/
def nanChain : BitVec 128 := 3#128 <<< 126

/-- The view of sixteen accumulators of two rows from byte 0x1000 on. -/
def twoRowView : W64 := 0x810001000

/-- A `.dstep` loop of one step on an unscaled tile of one row of 384 bytes in INT8, into accumulator 0. -/
def wideLoop : Loop :=
  { addr := 0, word := 0, steps := 1, done := 0, aDesc := 0x38170000000, aTile := 0, aShf := none, reload := false, wDesc := 0, wTile := 0,
    wShf := none, mDesc := 0, mTile := 0, sp := 0, incA := 0, incW := 0, incEa := 0, incEb := 0, dstep := true, acc := 0, rnd := .rn,
    tview := 0x10000000, aview := twoRowView }

/-- An array whose buffer has two columns and whose live record has two rows and one column; chain (1, 1), which lies outside the
record, is a NaN, as an `mrest.raw` may have left it. -/
def wideArray : MxArray :=
  { holder := some 0, mode := .running, token := true, live := true, m := 2, ncols := 1, chains := [(33, nanChain)], loop := some wideLoop,
    buf0 := { latched := true, fmt := 7, ncols := 2, rowLen := 384 } }

/-- The machine with that array at core 0, and its holder in slot 0, whose register space is all zero. -/
def wideState : State :=
  { State.reset with
    groups := [(0, { live := true, rg := { declared := 0x20000, granules := 32, tview := 0x10000000, aview := twoRowView } })]
    cores := [(0, { mx := wideArray })] }

/-- Register space of the group in slot 0 after an event that goes on. -/
def spaceAfter (o : Out) : RegSpace := match o with | .next t => (t.group 0).rg | _ => {}

/-- The step takes chain (1, 1) into the record as zero, so the last byte of its place in the accumulator stays zero. -/
theorem byte_after_wideStep : (spaceAfter (exec (.sequencerStep 0) wideState)).byte 0x1087 = 0 := by decide +kernel

/-- With chain (1, 1) still a NaN, its place in the accumulator would hold the canonical NaN. -/
theorem byte_of_nanChain (g : Group) {x : MxArray} (ea eb : BitVec 512) (r : Rnd) (seed : W64) (haview : g.rg.aview = twoRowView) (hm : x.m = 2)
    (hn : x.ncols = 2) (hc : Sparse.get x.chains 33 = nanChain) : (g.drainAcc x ea eb 0 r seed).rg.byte 0x1087 = 0x7F := by
  have hrows : accRows g.rg = 2 := by rw [accRows, haview]; rfl
  have hspan : (g.rg.accSpan 0).1 = 0x1000 := by rw [RegSpace.accSpan, haview]; rfl
  have hval : drainVal x ea eb 1 1 = .nan := by
    rw [drainVal, show 32 * 1 + 1 = 33 from rfl, hc]
    exact if_pos (.inr (.inr (by decide)))
  obtain ⟨old, hbyte⟩ := drainAcc_last g (x := x) (m := 1) (n := 1) ea eb 0 r seed (by rw [hrows, hm]; rfl) hn
  have hlast := hbyte 3 (by omega)
  rw [hspan, hval, accSum_nan] at hlast
  exact hlast

/-- Refutes O56: the clause of SEQUENCER_STEP has a step leave every chain outside its own rows and columns as it was, while a `.dstep` step
widens the live record and takes the chains that it widens over in as zero (`MxArray.widen`, log 21). Where such a chain holds something, as
`mrest.raw` may leave it, the drain of the step tells the two apart: in `wideState` the statement drains a NaN and the model a zero. -/
theorem not_arrayOperations : ¬ Obligations.ArrayOperations := by
  intro h
  obtain ⟨_, hseq, _⟩ := h
  obtain ⟨_, _, hready⟩ := hseq wideState 0 0 wideLoop rfl rfl rfl
  obtain ⟨_, hreads, _, hstep⟩ := hready (by decide) (.inl rfl)
  obtain ⟨u, c, hexec, _, hkept, hu⟩ := hstep _ _ _ (hreads rfl rfl rfl (by decide))
  have hc : Sparse.get c 33 = nanChain := hkept (by decide) 33 fun m n hm hn => by
    have hm1 : m < 1 := hm
    have hn2 : n < 2 := hn
    omega
  have hzero : (u.group 0).rg.byte 0x1087 = 0 := (congrArg (fun o => (spaceAfter o).byte 0x1087) hexec).symm.trans byte_after_wideStep
  have hnan : (u.group 0).rg.byte 0x1087 = 0x7F := by
    have hgroup := group_of_arrayStep hu
    rw [show (0 : Gid) = Gid.of 0 0 from rfl, hgroup, if_pos (show wideLoop.steps ≤ wideLoop.done + 1 from Nat.le_refl 1), rg_wokeArray,
      if_pos (show wideLoop.dstep = true from rfl), byte_of_stepped, rg_countDrain, show wideLoop.acc.toNat = 0 from rfl]
    exact byte_of_nanChain _ _ _ _ _ rfl rfl rfl hc
  exact absurd (hzero.symm.trans hnan) (by decide)

end Sys2Proof.Machine
end
